-- ==== Sys2Proof/Word.lean ====
section
/-!
DEFINITION. The word types of the LQ7 and their plainest arithmetic (R6, R9, R10).
-/
namespace Sys2Proof

/-- A byte is 8 bits (R6). -/
abbrev Byte := BitVec 8

/-- An FP32 bit pattern (R40). -/
abbrev F32 := BitVec 32

/-- A *word* is 64 bits (R6). -/
abbrev Word := BitVec 64

/-- Ceiling division of naturals; a zero divisor answers zero. -/
def ceilDiv (a b : Nat) : Nat := (a + b - 1) / b

/-- `a` rounded up to a multiple of `b`. -/
def roundUp (a b : Nat) : Nat := ceilDiv a b * b

/-- The field `hi:lo` of a natural read as bits (R9). -/
def bitsOf (x hi lo : Nat) : Nat := (x >>> lo) % 2 ^ (hi + 1 - lo)

/-- Bit `n` of a natural (R9). -/
def bitOf (x n : Nat) : Bool := Nat.testBit x n

/-- The little-endian bytes of a natural, `n` of them (R10). -/
def leBytes : Nat → Nat → List Byte
  | 0, _ => []
  | n + 1, x => BitVec.ofNat 8 x :: leBytes n (x / 256)

/-- The natural that little-endian bytes spell (R10). -/
def ofLeBytes : List Byte → Nat
  | [] => 0
  | b :: bs => b.toNat + 256 * ofLeBytes bs

/-- One or zero. -/
def bit (b : Bool) : Nat := if b then 1 else 0

end Sys2Proof
end

