-- ==== Sys2Proof/Config.lean ====
section
/-!
DEFINITION. What one part or one implementation fixes, and the values the spec leaves open: opaque constants, so that no proof
can lean on a value of them.
-/
namespace Sys2Proof.Config

open Sys2Proof

/-! Cryptographic functions and fused secrets: fixed by standards outside the spec (log 4). -/

/-- SHA-384 over bytes (R484, R571, R582). -/
opaque sha384 : List Byte → BitVec 384

/-- Ed25519 verification: public key, message, signature (R572). -/
opaque edVerify : List Byte → List Byte → List Byte → Bool

/-- ML-DSA-65 verification with the context string "LQ7-FW" (R572). -/
opaque mlVerify : List Byte → List Byte → List Byte → Bool

/-- The Ed25519 signature of the alias key of a boot over a message: the boot's measurements select the key (R580). -/
opaque edSign : BitVec 384 → List Byte → List Byte

/-- The ML-DSA-65 alias signature, context "LQ7-SPDM" (R584). -/
opaque mlSign : BitVec 384 → List Byte → List Byte

/-- The certificate chain of slot 0 for a boot: root, device CA, DIK and alias, Ed25519 (R583). -/
opaque edChain : BitVec 384 → List Byte

/-- The ML-DSA-65 certificate chain of a boot (R584). -/
opaque mlChain : BitVec 384 → List Byte

/-- Vendor key hashes in the fuses (R578). -/
opaque keyHash : Fin 4 → BitVec 384

/-- The boot ROM's digest (R582). -/
opaque romDigest : BitVec 384

/-- PKG_UID, derived from the device secret (R580). -/
opaque pkgUid : BitVec 64

/-- The physical cores that a part ships with as disabled or spare, 8 on each die (R24): the `j`-th choice on a die, among the cores of
the die still left; which of them are spares; and which the CORE_FUSE disables (R25, R578, R611). -/
opaque idlePick : Nat → Nat → Nat
opaque idleSpare : Nat → Bool

/-- Does an adapter slot of an imprint hold its plates in T1 (R135, R362)? The spec gives the slots no place (log 121). -/
opaque adapterCold : Nat → Nat → Bool

/-- The fused SAMPLE bit, DEBUG_LOCK and KEY_REVOKE (R578, R611). -/
opaque sampleFuse : Bool
opaque debugLock : Bool
opaque keyRevoked : Fin 4 → Bool

/-- V_FUSE, the fused base set-point in mV (R578). -/
opaque vFuse : BitVec 10

/-- The n-th output of the Colophon's CTR_DRBG (R581). -/
opaque drbg : Nat → BitVec 256

/-! Values the spec leaves open (free values). -/

/-- GETBCR, GETDCR, GETSTATUS, GETMWL, GETMRL answers, which the spec does not give (R622). -/
opaque i3cBcr : Byte
opaque i3cDcr : Byte
opaque i3cStatus : Nat → BitVec 16
opaque i3cMwl : BitVec 16
opaque i3cMrl : BitVec 16

/-- Bits [47:3] of the provisioned ID; bits [2:0] carry SLOT_ID (R622). -/
opaque i3cPid : BitVec 45

/-- A Setter maximum or minimum that meets a NaN, or two zeros of different sign: the spec states no result. -/
opaque minMaxOpen : Bool → F32 → F32 → F32

/-- The Setter's maximum of no elements (R74): the spec states no result. -/
opaque maxOfNone : F32

/-- The sign of the zero that an element of a block with a zero scale is written as, when the element is negative (R58). -/
opaque zeroBlockNeg : Bool

/-- A group value one of whose factors is infinite or NaN, where no case of R65 before the product decides; applied to the group's
sum and its factors. -/
opaque groupOpen : List F32 → F32

/-- A free value of 64 bits: the n-th one the machine draws. -/
opaque freeValue : Nat → BitVec 64

/-- The generation that a stream's entropy draw gives when the package leaves reset: by boots, source imprint and target
(R429). -/
opaque sgenDraw : Nat → Nat → Nat → BitVec 32

/-- The T0 address of the roster bay that a package gives one member of an imprint's set, by imprint and member (R343 leaves
the places to the Compositor). -/
opaque rosterBay : Nat → Nat → BitVec 34

/-- The size of a roster bay, and the T0 address of its flag word, by imprint and member. -/
opaque rosterBytes : Nat → BitVec 26
opaque rosterFlag : Nat → Nat → BitVec 34

/-- The T0 offset of a folio in its slice, by imprint, class and slot (R198 leaves the choice to the Compositor). -/
opaque folioOffset : Nat → Nat → Nat → BitVec 26

/-- The address of a folio slot in the imprint's T1 space, and of a table page in its core's slice, by imprint, class and slot, or by imprint
and number of place; the offset of a shard slot's composed page in its core's slice (R196, R198, R200 leave the places to the edition's pools and the Compositor). -/
opaque folioT1 : Nat → Nat → Nat → BitVec 41
opaque pageOffset : Nat → Nat → BitVec 26
opaque composedOffset : Nat → Nat → BitVec 26

/-- AES-XTS under an imprint's key pair (R240, R252): imprint, key draw, tweak, unit. -/
opaque xts : Nat → Nat → Nat → List Byte → List Byte

/-- AES-XTS decryption under the same keys and tweaks. -/
opaque xtsOpen : Nat → Nat → Nat → List Byte → List Byte

/-- The run-time stream whose font encodes the spilled folios of a class (R135, R216 name none), by imprint and class. -/
opaque spillStream : Nat → Nat → Nat

/-- The Fixed-timing cycles that the validator computes for a job's segments of an imprint of an edition (R316, R378): the timing
model of a whole schedule is left out (log 7). -/
opaque segmentTotal : Nat → Nat → Nat → BitVec 64

/-- The declared ENC_LEN of a slug of a weight or plate (R147), by imprint, descriptor and slug: an edition does not hold the weights (log
110). -/
opaque declaredEnc : Nat → Nat → Nat → Nat

/-- What the validator's checks of a schedule's static timing, traffic and data flow find, by check code and image bytes: none,
or the failing section and item (R495; log 50). -/
opaque staticCheck : Nat → List Byte → Option (Nat × Nat)

/-- SPDM answers whose content is the DMTF specification's, by request and by the count of requests answered. -/
opaque spdmBody : Nat → Nat → List Byte

end Sys2Proof.Config
end

