-- ==== Sys2Proof/Machine/Fp.lean ====
section
/-!
DEFINITION. Number formats, scales, exact arithmetic, rounding and reductions (02_number_formats.md, R38 to R76).
-/
namespace Sys2Proof.Machine

open Sys2Proof

/-- The element formats of R38. -/
inductive Elem where
  | fp32 | bf16 | e4m3 | e5m2 | int8 | fp4 | int4 | w2 | ternary | binary
deriving DecidableEq, Repr

/-- The block-scale formats of R38. -/
inductive Scale where
  | none | e8m0 | e4m3
deriving DecidableEq, Repr

/-- The element-format code table of R38. -/
def Elem.ofCode : Nat → Option Elem
  | 0x01 => some .fp32 | 0x02 => some .bf16 | 0x10 => some .e4m3 | 0x11 => some .e5m2 | 0x12 => some .int8
  | 0x20 => some .fp4 | 0x21 => some .int4 | 0x30 => some .w2 | 0x31 => some .ternary | 0x32 => some .binary
  | _ => Option.none

/-- The block-scale code table of R38. -/
def Scale.ofCode : Nat → Option Scale
  | 0 => some .none | 1 => some .e8m0 | 2 => some .e4m3 | _ => Option.none

/-- Bits per element; TERNARY is packed 13 B per 64 and answers 0 here (R38, R46). -/
def Elem.bits : Elem → Nat
  | .fp32 => 32 | .bf16 => 16 | .e4m3 => 8 | .e5m2 => 8 | .int8 => 8 | .fp4 => 4 | .int4 => 4 | .w2 => 2
  | .ternary => 0 | .binary => 1

/-- Bytes that `n` elements of a row take (R38, R44, R46). -/
def Elem.bytes (f : Elem) (n : Nat) : Nat :=
  match f with
  | .ternary => 13 * (n / 64)
  | f => n * f.bits / 8

/-- Block size (R50); 32 stands for formats without block scales where a rule needs a divisor. -/
def Elem.block : Elem → Nat
  | .w2 => 64 | .ternary => 64 | .binary => 64 | _ => 32

/-- Which block-scale formats R50 allows with an element format. -/
def scaleAllowed : Elem → Scale → Bool
  | .fp32, .none => true | .fp32, _ => false
  | .bf16, .none => true | .bf16, _ => false
  | .e4m3, _ => true | .e5m2, _ => true | .int8, _ => true
  | _, .none => false
  | _, _ => true

/-- A decoded number: NaN, an infinity, or a signed magnitude `m * 2^e` with its sign of zero kept. -/
inductive Num where
  | nan
  | inf (neg : Bool)
  | fin (neg : Bool) (m : Nat) (e : Int)
deriving DecidableEq, Repr

/-- Layout of a floating-point format: exponent bits, mantissa bits, bias, code of the largest finite magnitude. -/
structure Layout where
  eb : Nat
  mb : Nat
  bias : Nat
  maxCode : Nat
deriving DecidableEq, Repr

/-- R40's table of layouts. -/
def layout : Elem → Layout
  | .bf16 => ⟨8, 7, 127, 0x7F7F⟩
  | .e4m3 => ⟨4, 3, 7, 0x7E⟩
  | .e5m2 => ⟨5, 2, 15, 0x7B⟩
  | .fp4 => ⟨2, 1, 1, 0x7⟩
  | _ => ⟨8, 23, 127, 0x7F7FFFFF⟩

/-- The finite value of a magnitude code: subnormal when the exponent field is 0 (R40). -/
def Layout.value (l : Layout) (neg : Bool) (code : Nat) : Num :=
  let ex := code / 2 ^ l.mb
  let man := code % 2 ^ l.mb
  if ex = 0 then .fin neg man (1 - (l.bias : Int) - l.mb)
  else .fin neg (man + 2 ^ l.mb) ((ex : Int) - l.bias - l.mb)

/-- Two's-complement value of a `w`-bit code. -/
def signedOf (w code : Nat) : Int := if code < 2 ^ (w - 1) then code else (code : Int) - 2 ^ w

/-- An integer as a number. -/
def Num.ofInt (i : Int) : Num := .fin (decide (i < 0)) i.natAbs 0

/-- The value of an element code (R40, R43, R45, R46, R48); a TERNARY code here is one digit 0 to 2. -/
def Elem.value (f : Elem) (code : Nat) : Num :=
  match f with
  | .int8 => .ofInt (signedOf 8 (code % 256))
  | .int4 => .ofInt (signedOf 4 (code % 16))
  | .w2 => .ofInt (2 * (code % 4 : Nat) - 3)
  | .ternary => .ofInt ((code % 3 : Nat) - 1)
  | .binary => .ofInt (if code % 2 = 0 then -1 else 1)
  | .fp32 =>
    let neg := decide (2 ^ 31 ≤ code % 2 ^ 32); let mag := code % 2 ^ 31
    if mag = 0x7F800000 then .inf neg else if 0x7F800000 < mag then .nan else (layout .fp32).value neg mag
  | .bf16 =>
    let neg := decide (2 ^ 15 ≤ code % 2 ^ 16); let mag := code % 2 ^ 15
    if mag = 0x7F80 then .inf neg else if 0x7F80 < mag then .nan else (layout .bf16).value neg mag
  | .e4m3 =>
    let neg := decide (2 ^ 7 ≤ code % 2 ^ 8); let mag := code % 2 ^ 7
    if mag = 0x7F then .nan else (layout .e4m3).value neg mag
  | .e5m2 =>
    let neg := decide (2 ^ 7 ≤ code % 2 ^ 8); let mag := code % 2 ^ 7
    if mag = 0x7C then .inf neg else if 0x7C < mag then .nan else (layout .e5m2).value neg mag
  | .fp4 => (layout .fp4).value (decide (8 ≤ code % 16)) (code % 8)

/-- The value of an FP32 pattern. -/
def F32num (x : F32) : Num := Elem.value .fp32 x.toNat

/-- The canonical NaN of FP32 (R42). -/
def nanF : F32 := 0x7FC00000#32

/-- FP32 infinity of a sign. -/
def infF (neg : Bool) : F32 := if neg then 0xFF800000#32 else 0x7F800000#32

/-- FP32 zero of a sign. -/
def zeroF (neg : Bool) : F32 := if neg then 0x80000000#32 else 0#32

/-- `m * 2^sh` rounded to an integer, ties to even (R63). -/
def rneShift (m : Nat) (sh : Int) : Nat :=
  if 0 ≤ sh then m * 2 ^ sh.toNat
  else
    let k := (-sh).toNat
    let q := m / 2 ^ k
    let r := 2 * (m % 2 ^ k)
    if r < 2 ^ k then q else if 2 ^ k < r then q + 1 else q + q % 2

/-- `m * 2^sh` rounded up to an integer (the two roundings toward plus infinity of R63). -/
def ceilShift (m : Nat) (sh : Int) : Nat :=
  if 0 ≤ sh then m * 2 ^ sh.toNat else (m + 2 ^ (-sh).toNat - 1) / 2 ^ (-sh).toNat

/-- The magnitude code of `m * 2^e` in a layout whose exponent is unbounded above, by the rounding given. A code above
`maxCode` lies beyond the largest finite value (R75). -/
def Layout.codeBy (rnd : Nat → Int → Nat) (l : Layout) (m : Nat) (e : Int) : Nat :=
  if m = 0 then 0
  else
    let qmin : Int := 1 - (l.bias : Int) - l.mb
    let q : Int := max ((Nat.log2 m : Int) + e - l.mb) qmin
    rnd m (e - q) + (q - qmin).toNat * 2 ^ l.mb

/-- Round to nearest, ties to even (R63). -/
def Layout.code (l : Layout) (m : Nat) (e : Int) : Nat := l.codeBy rneShift m e

/-- Round a number to FP32 (R63, R75). -/
def roundF (x : Num) : F32 :=
  match x with
  | .nan => nanF
  | .inf n => infF n
  | .fin n m e =>
    let c := (layout .fp32).code m e
    if (layout .fp32).maxCode < c then infF n else BitVec.ofNat 32 (c + bit n * 2 ^ 31)

/-- The signed value `m * 2^e` of a finite number. -/
def sgn (neg : Bool) (m : Nat) : Int := if neg then -(m : Int) else m

/-- The exact sum of finite values over the smaller exponent. -/
def addExact (a : Int × Int) (b : Int × Int) : Int × Int :=
  let e := min a.2 b.2
  (a.1 * 2 ^ (a.2 - e).toNat + b.1 * 2 ^ (b.2 - e).toNat, e)

/-- An exact signed value as a number; a zero takes the sign given. -/
def Num.ofExact (zneg : Bool) (v : Int × Int) : Num :=
  if v.1 = 0 then .fin zneg 0 v.2 else .fin (decide (v.1 < 0)) v.1.natAbs v.2

/-- The exact product; infinity times zero is NaN (R65). -/
def Num.mul (a b : Num) : Num :=
  match a, b with
  | .nan, _ => .nan
  | _, .nan => .nan
  | .inf s, .inf t => .inf (s != t)
  | .inf s, .fin t m _ => if m = 0 then .nan else .inf (s != t)
  | .fin s m _, .inf t => if m = 0 then .nan else .inf (s != t)
  | .fin s m e, .fin t n f => .fin (s != t) (m * n) (e + f)

/-- The exact sum. A sum of opposite infinities is NaN; an exact zero of mixed signs is +0. -/
def Num.add (a b : Num) : Num :=
  match a, b with
  | .nan, _ => .nan
  | _, .nan => .nan
  | .inf s, .inf t => if s = t then .inf s else .nan
  | .inf s, _ => .inf s
  | _, .inf t => .inf t
  | .fin s m e, .fin t n f => .ofExact (s && t) (addExact (sgn s m, e) (sgn t n, f))

/-- The number with its sign turned. -/
def Num.neg : Num → Num
  | .nan => .nan
  | .inf s => .inf !s
  | .fin s m e => .fin (!s) m e

/-- Is the number a zero of either sign? -/
def Num.isZero : Num → Bool
  | .fin _ m _ => m == 0
  | _ => false

/-- Is the number finite? -/
def Num.isFinite : Num → Bool
  | .fin .. => true
  | _ => false

/-- FP32 add (R75). -/
def addF (a b : F32) : F32 := roundF ((F32num a).add (F32num b))

/-- FP32 subtract. -/
def subF (a b : F32) : F32 := roundF ((F32num a).add (F32num b).neg)

/-- FP32 multiply (R75). -/
def mulF (a b : F32) : F32 := roundF ((F32num a).mul (F32num b))

/-- FP32 fused multiply-add `a * b + c`, rounded once (R75). -/
def fmaF (a b c : F32) : F32 := roundF (((F32num a).mul (F32num b)).add (F32num c))

/-- A quotient of positive naturals as a dyadic with a sticky last bit: correct for every later rounding to at most 64
bits. -/
def quotSticky (n : Nat) (e : Int) (d : Nat) : Nat × Int :=
  let k := 80 + Nat.log2 d
  let q := n * 2 ^ k / d
  let st := if n * 2 ^ k % d = 0 then 0 else 1
  (2 * q + st, e - k - 1)

/-- FP32 reciprocal (R75, R76). -/
def recipF (x : F32) : F32 :=
  match F32num x with
  | .nan => nanF
  | .inf s => zeroF s
  | .fin s m e =>
    if m = 0 then infF s
    else let q := quotSticky 1 (-e) m; roundF (.fin s q.1 q.2)

/-- Integer square root by bits, from the highest bit down: `fuel` bits of result. -/
def isqrtBits (n : Nat) : Nat → Nat → Nat
  | 0, acc => acc
  | b + 1, acc => if (acc + 2 ^ b) * (acc + 2 ^ b) ≤ n then isqrtBits n b (acc + 2 ^ b) else isqrtBits n b acc

/-- The integer square root. -/
def isqrt (n : Nat) : Nat := isqrtBits n (Nat.log2 n / 2 + 1) 0

/-- FP32 reciprocal square root (R75, R76). -/
def rsqrtF (x : F32) : F32 :=
  match F32num x with
  | .nan => nanF
  | .inf s => if s then nanF else zeroF false
  | .fin s m e =>
    if m = 0 then infF s
    else if s then nanF
    else
      -- 1 / sqrt (m * 2^e): make e even, then take the root of 2^(2k) / m
      let m2 := if e % 2 = 0 then m else 2 * m
      let e2 := if e % 2 = 0 then e else e - 1
      let k := 100 + Nat.log2 m2
      let t := 2 ^ (2 * k) / m2
      let r := isqrt t
      let exact := (t = r * r) && (2 ^ (2 * k) % m2 = 0)
      roundF (.fin false (2 * r + bit (!exact)) (-(k : Int) - 1 - e2 / 2))

/-- Fixed-point Taylor series of exp: `n` more terms from term index `i`, at scale `2^p`. -/
def expSeries (p : Nat) (r : Int) : Nat → Nat → Int → Int
  | 0, _, _ => 0
  | n + 1, i, term => term + expSeries p r n (i + 1) (term * r / (2 ^ p * ((i : Int) + 1)))

/-- Square a fixed-point value `n` times. -/
def squareTimes (p : Nat) : Nat → Int → Int
  | 0, y => y
  | n + 1, y => squareTimes p n (y * y / 2 ^ p)

/-- exp of `m * 2^e` at scale `2^320`, by argument reduction with 16 halvings and 40 Taylor terms (log 12). -/
def expFixed (v : Int × Int) : Int :=
  let p : Nat := 320
  let sh : Int := (p : Int) + v.2 - 16
  let r : Int := if 0 ≤ sh then v.1 * 2 ^ sh.toNat else v.1 / 2 ^ (-sh).toNat
  squareTimes p 16 (expSeries p r 40 0 (2 ^ p))

/-- FP32 exp, correctly rounded (R75, R76). -/
def expF (x : F32) : F32 :=
  match F32num x with
  | .nan => nanF
  | .inf s => if s then zeroF false else infF false
  | .fin s m e =>
    if m = 0 then 0x3F800000#32
    else if (Nat.log2 m : Int) + e ≥ 8 then (if s then zeroF false else infF false)
    else if (Nat.log2 m : Int) + e < -40 then 0x3F800000#32
    else roundF (.fin false (expFixed (sgn s m, e)).toNat (-320))

/-- Order of FP32 numbers as a signed key, NaN excluded: `m * 2^(e+149)`-style exact integer. -/
def Num.key : Num → Int
  | .nan => 0
  | .inf s => if s then -(2 ^ 300) else 2 ^ 300
  | .fin s m e => sgn s (m * 2 ^ (e + 149).toNat)

/-- Is `a` a NaN? -/
def isNaN (a : F32) : Bool := F32num a == .nan

/-- Finite test on patterns. -/
def isFin (a : F32) : Bool := (F32num a).isFinite

/-- `a < b` by value, false on NaN. -/
def ltF (a b : F32) : Bool := !isNaN a && !isNaN b && decide ((F32num a).key < (F32num b).key)

/-- `a = b` by value (the zeros are equal), false on NaN. -/
def eqF (a b : F32) : Bool := !isNaN a && !isNaN b && decide ((F32num a).key = (F32num b).key)

/-- `max_nan` of R163: NaN when either is NaN; otherwise the larger, with +0 counted larger than -0. -/
def maxNan (a b : F32) : F32 :=
  if isNaN a || isNaN b then nanF
  else if ltF a b then b
  else if ltF b a then a
  else if a = zeroF true then b else a

/-- Setter maximum or minimum. The spec states no result for a NaN operand or for two zeros of different sign: a free
value (log 10). -/
def minMaxF (isMax : Bool) (a b : F32) : F32 :=
  if isNaN a || isNaN b then Config.minMaxOpen isMax a b
  else if ltF a b then (if isMax then b else a)
  else if ltF b a then (if isMax then a else b)
  else if a = b then a else Config.minMaxOpen isMax a b

/-! Conversions (R66). -/

/-- Convert an exact number to an integer format with saturation. -/
def toIntCode (w : Nat) : Num → Nat
  | .nan => 0
  | .inf s => if s then 2 ^ (w - 1) else 2 ^ (w - 1) - 1
  | .fin s m e =>
    let r := rneShift m e
    if s then (2 ^ w - min r (2 ^ (w - 1))) % 2 ^ w else min r (2 ^ (w - 1) - 1)

/-- The table of R66 on an exact number: rounds once by R63, then saturates or goes to infinity by target. -/
def convert (f : Elem) (x : Num) : Nat :=
  match f, x with
  | .int8, x => toIntCode 8 x
  | .int4, x => toIntCode 4 x
  | .bf16, .nan => 0x7FC0
  | .bf16, .inf s => 0x7F80 + bit s * 2 ^ 15
  | .bf16, .fin s m e =>
    let c := (layout .bf16).code m e
    (if 0x7F7F < c then 0x7F80 else c) + bit s * 2 ^ 15
  | .e5m2, .nan => 0x7E
  | .e5m2, .inf s => 0x7C + bit s * 2 ^ 7
  | .e5m2, .fin s m e => min ((layout .e5m2).code m e) 0x7B + bit s * 2 ^ 7
  | .e4m3, .nan => 0x7F
  | .e4m3, .inf s => 0x7E + bit s * 2 ^ 7
  | .e4m3, .fin s m e => min ((layout .e4m3).code m e) 0x7E + bit s * 2 ^ 7
  | .fp4, .nan => 0
  | .fp4, .inf s => 7 + bit s * 8
  | .fp4, .fin s m e => min ((layout .fp4).code m e) 7 + bit s * 8
  | _, x => (roundF x).toNat

/-- Does the conversion turn a NaN into zero (R67)? -/
def convFault (f : Elem) (x : Num) : Bool :=
  x == .nan && (f == .fp4 || f == .int8 || f == .int4)

/-- Does a finite value saturate in the conversion (R193)? -/
def saturates (f : Elem) (x : Num) : Bool :=
  match x with
  | .fin s m e =>
    match f with
    | .int8 => if s then decide (128 < rneShift m e) else decide (127 < rneShift m e)
    | .int4 => if s then decide (8 < rneShift m e) else decide (7 < rneShift m e)
    | .fp32 => false
    | g => decide ((layout g).maxCode < (layout g).code m e)
  | _ => false

/-! Scales (R49, R53, R54, R56, R57). -/

/-- The value of a block-scale byte; `none` where R53 calls it invalid. -/
def Scale.value (s : Scale) (b : Nat) : Option Num :=
  match s with
  | .none => some (.fin false 1 0)
  | .e8m0 => if b % 256 = 0xFF then Option.none else some (.fin false 1 ((b % 256 : Nat) - 127))
  | .e4m3 => if 0x7F ≤ b % 256 then Option.none else some (Elem.value .e4m3 (b % 256))

/-- `emax` of R56. -/
def emax : Elem → Int
  | .fp4 => 2 | .e4m3 => 8 | .e5m2 => 15 | .int8 => 6 | .int4 => 2 | _ => 0

/-- Largest finite value of an element format, as `m * 2^e` (M of R57, R192). -/
def maxFin : Elem → Nat × Int
  | .fp4 => (6, 0) | .e4m3 => (448, 0) | .e5m2 => (57344, 0) | .int8 => (127, 0) | .int4 => (7, 0)
  | .bf16 => (255, 120) | _ => (16777215, 104)

/-- The largest magnitude among the finite numbers of a list, as `m * 2^e` (amax of R56). -/
def amax : List Num → Nat × Int
  | [] => (0, 0)
  | .fin _ m e :: xs =>
    let a := amax xs
    let d := addExact ((m : Int), e) (-(a.1 : Int), a.2)
    if 0 < d.1 then (m, e) else a
  | _ :: xs => amax xs

/-- The block-scale byte that R56 or R57 sets over a block. -/
def scaleByte (s : Scale) (f : Elem) (xs : List Num) : Nat :=
  let a := amax xs
  match s with
  | .none => 0
  | .e8m0 =>
    if a.1 = 0 then 0
    else
      let x : Int := (Nat.log2 a.1 : Int) + a.2 - emax f
      (max (-127) (min x 127) + 127).toNat
  | .e4m3 =>
    if a.1 = 0 then 0
    else
      let q := quotSticky a.1 (a.2 - (maxFin f).2) (maxFin f).1
      min ((layout .e4m3).codeBy ceilShift q.1 q.2) 0x7E

/-- The exact quotient of a number by a positive scale, up to a sticky bit (R58). -/
def Num.div (x s : Num) : Num :=
  match x, s with
  | .fin n m e, .fin _ d f =>
    if m = 0 then .fin n 0 0 else
    let q := quotSticky m (e - f) d
    .fin n q.1 q.2
  | x, _ => x

/-- R58: one element under its block scale. A zero scale writes a finite element as zero; R58 does not state the
sign of the zero of a negative element: a free value (log 100). -/
def quantise (_f : Elem) (s : Num) (x : Num) : Num :=
  match x with
  | .fin n _ _ => if s.isZero then .fin (n && Config.zeroBlockNeg) 0 0 else x.div s
  | _ => x.div s

/-- A block of numbers written as element codes with its scale byte (R56 to R58, R66); the number of R67 faults. -/
def quantBlock (s : Scale) (f : Elem) (xs : List Num) : Nat × List Nat × Nat :=
  let b := scaleByte s f xs
  let sv := (s.value b).getD (.fin false 1 0)
  let qs := xs.map (quantise f sv)
  (b, qs.map (convert f), (qs.filter (convFault f)).length)

/-! Packing (R44, R46). -/

/-- Pack codes of `w` bits (1, 2, 4, 8, 16 or 32) from the least significant end: the whole row as one natural. -/
def packNat (w : Nat) : List Nat → Nat
  | [] => 0
  | c :: cs => c % 2 ^ w + 2 ^ w * packNat w cs

/-- The base-3 digits of one TERNARY byte, five of them. -/
def ternDigits (b : Nat) : List Nat := [b % 3, b / 3 % 3, b / 9 % 3, b / 27 % 3, b / 81 % 3]

/-- The bytes of a row of element codes (R44); TERNARY is never written at run time (R59). -/
def packRow (f : Elem) (cs : List Nat) : List Byte :=
  leBytes ((cs.length * f.bits + 7) / 8) (packNat f.bits cs)

/-- The digit codes of one 13 B TERNARY block; `none` where a byte exceeds 242 (R46, R47). -/
def ternBlock (bs : List Byte) : List (Option Nat) :=
  (bs.flatMap (fun b => if 242 < b.toNat then List.replicate 5 none else (ternDigits b.toNat).map some)).take 64

/-- Groups of `n` consecutive members, by fuel. -/
def chunksAux {α : Type} (n : Nat) : Nat → List α → List (List α)
  | 0, _ => []
  | _, [] => []
  | k + 1, xs => xs.take n :: chunksAux n k (xs.drop n)

/-- Groups of `n` consecutive members; the last may be short. -/
def chunks {α : Type} (n : Nat) (xs : List α) : List (List α) := chunksAux n xs.length xs

/-- The element codes of a row of `n` elements from its bytes (R44, R46); `none` marks an invalid TERNARY byte. -/
def unpackRow (f : Elem) (n : Nat) (bs : List Byte) : List (Option Nat) :=
  match f with
  | .ternary => ((chunks 13 bs).flatMap ternBlock).take n
  | f =>
    let x := ofLeBytes bs
    (List.range n).map fun k => some (x / 2 ^ (k * f.bits) % 2 ^ f.bits)

/-! Operand pairings (R60). -/

/-- The arithmetic classes. -/
inductive MClass where
  | fp8 | fp4 | w2a8 | bf16
deriving DecidableEq, Repr

/-- An 8-bit activation or weight format. -/
def Elem.is8 (f : Elem) : Bool := f == .e4m3 || f == .e5m2 || f == .int8
/-- A 4-bit format. -/
def Elem.is4 (f : Elem) : Bool := f == .fp4 || f == .int4
/-- A coded weight format. -/
def Elem.isCoded (f : Elem) : Bool := f == .w2 || f == .ternary || f == .binary

/-- The class of a (weight, activation) pairing on the Platen; `none` for a pairing absent from R60 or an FP32 operand
(R62). The last row of R60, "any format from FP8 to FP4", is read in the order of R38's table: it ends at FP4 E2M1 (DEDUCED, log 99). -/
def pairing (w a : Elem) : Option MClass :=
  if w == .fp32 || a == .fp32 then none
  else if a == .bf16 then some .bf16
  else if w == .bf16 then (if a.is8 || a == .fp4 then some .bf16 else none)
  else if w.isCoded then (if a.is8 || a.is4 then some .w2a8 else none)
  else if w.is4 && a.is4 then some .fp4
  else if (w.is8 || w.is4) && (a.is8 || a.is4) then some .fp8
  else none

/-- Elements of K in one pass (R69, R77). -/
def MClass.passLen : MClass → Nat
  | .fp8 => 128 | .bf16 => 128 | .fp4 => 256 | .w2a8 => 512

/-- Group size (R64). -/
def groupSize (c : MClass) (w : Elem) (sw : Scale) (a : Elem) (sa : Scale) : Nat :=
  if c == .bf16 then 8
  else
    let g := if sw == .none then 32 else w.block
    if sa == .none then g else min g a.block

/-! Groups (R64, R65). -/

/-- The exact sum of finite products. -/
def sumExact : List Num → Int × Int
  | [] => (0, 0)
  | .fin s m e :: xs => if m = 0 then sumExact xs else addExact (sgn s m, e) (sumExact xs)
  | _ :: xs => sumExact xs

/-- Is the number -0? -/
def Num.isNegZero : Num → Bool
  | .fin s m _ => s && m == 0
  | _ => false

/-- The value of a group from its products and its factors, by the first case of R65 that applies. Where none of the cases that
come before the product applies, a factor that is infinite or NaN leaves v unstated: a free value (log 11). -/
def groupValue (prods factors : List Num) : F32 :=
  if prods.any (· == .nan) then nanF
  else if prods.any (· == .inf false) && prods.any (· == .inf true) then nanF
  else if prods.any (· == .inf false) then (if factors.any Num.isZero then nanF else infF false)
  else if prods.any (· == .inf true) then (if factors.any Num.isZero then nanF else infF true)
  else if factors.any Num.isZero then zeroF false
  else
    let s := sumExact prods
    if s.1 = 0 then zeroF (!prods.isEmpty && prods.all Num.isNegZero)
    else if factors.any (fun f => !f.isFinite) then Config.groupOpen (roundF (Num.ofExact false s) :: factors.map roundF)
    else roundF (factors.foldl Num.mul (Num.ofExact false s))

/-! Reduction trees (R68). -/

/-- One level of the fixed tree. -/
def pairUp : List F32 → List F32
  | a :: b :: xs => addF a b :: pairUp xs
  | xs => xs

/-- The fixed tree by fuel. -/
def treeAux : Nat → List F32 → F32
  | _, [] => zeroF false
  | _, [x] => x
  | 0, x :: _ => x
  | n + 1, xs => treeAux n (pairUp xs)

/-- The fixed tree of R68 over partials in key order; +0 over none. -/
def treeF (xs : List F32) : F32 := treeAux xs.length xs

/-- Sequential sums in ascending order (R74, scans). -/
def scanF : F32 → List F32 → List F32
  | _, [] => []
  | acc, x :: xs => let y := addF acc x; y :: scanF y xs

/-- BF16 bits of an FP32 value. -/
def toBf16 (x : F32) : Nat := convert .bf16 (F32num x)

end Sys2Proof.Machine
end

