-- ==== Sys2Proof/Machine/Slugs.lean ====
section
/-!
DEFINITION. Slugs, fonts and their codes (04_inker_slugs.md, R123 to R156, R630).
-/
namespace Sys2Proof.Machine

open Sys2Proof

/-! CRC-32C (R126). -/

/-- One bit step of the reflected CRC with polynomial 0x1EDC_6F41. -/
def crcBits : Nat → Nat → Nat
  | 0, c => c
  | n + 1, c => crcBits n (if c % 2 = 1 then (c / 2) ^^^ 0x82F63B78 else c / 2)

/-- The CRC register after more bytes. -/
def crcStep : List Byte → Nat → Nat
  | [], c => c
  | b :: bs, c => crcStep bs (crcBits 8 (c ^^^ b.toNat))

/-- CRC-32C over bytes: initial value and final exclusive OR of all ones (R126). -/
def crc32c (bs : List Byte) : Nat := crcStep bs 0xFFFFFFFF ^^^ 0xFFFFFFFF

/-! Fonts (R128 to R133). -/

/-- The kinds of coded font (R129). -/
inductive FontKind where
  | huff | zrun | zlit
deriving DecidableEq, Repr

/-- R129's kind codes. -/
def FontKind.ofCode : Nat → Option FontKind
  | 1 => some .huff | 2 => some .zrun | 3 => some .zlit | _ => none

/-- The code of a kind. -/
def FontKind.code : FontKind → Nat
  | .huff => 1 | .zrun => 2 | .zlit => 3

/-- Alphabet size (R129). -/
def FontKind.alphabet : FontKind → Nat
  | .huff => 257 | .zrun => 66 | .zlit => 321

/-- The end-of-block symbol (R129). -/
def FontKind.eob (k : FontKind) : Nat := k.alphabet - 1

/-- A valid font: its ID, kind and the code lengths of its symbols. -/
structure Font where
  id : Nat
  kind : FontKind
  lens : List Nat
deriving DecidableEq, Repr

/-- Largest member of a list. -/
def maxList : List Nat → Nat
  | [] => 0
  | x :: xs => max x (maxList xs)

/-- The Kraft sum of the coded symbols over 2^16. -/
def kraft : List Nat → Nat
  | [] => 0
  | l :: ls => (if l = 0 then 0 else 2 ^ (16 - l)) + kraft ls

/-- R132's conditions on lengths: each at most 16, EOB coded, Kraft sum at most 1. -/
def lensValid (k : FontKind) (lens : List Nat) : Bool :=
  lens.all (fun l => decide (l ≤ 16)) && (lens.getD k.eob 0 != 0) && decide (kraft lens ≤ 2 ^ 16)

/-- A font from its 512 B image (R131), or `none` where R132 fails. -/
def Font.ofImage (bs : List Byte) : Option Font :=
  let b := fun i => (bs.getD i 0#8).toNat
  match FontKind.ofCode (b 2) with
  | none => none
  | some k =>
    let a := k.alphabet
    let lens := (List.range a).map fun i => b (16 + i)
    let resv := (bs.drop 4).take 12 ++ bs.drop (16 + a)
    if bs.length = 512 && lensValid k lens && decide (b 3 = maxList lens) && resv.all (· == 0#8)
    then some ⟨b 0 + 256 * b 1, k, lens⟩ else none

/-- The 512 B image of a font (R131). -/
def Font.image (f : Font) : List Byte :=
  leBytes 2 f.id ++ leBytes 1 f.kind.code ++ leBytes 1 (maxList f.lens) ++ List.replicate 12 0#8
    ++ f.lens.map (BitVec.ofNat 8) ++ List.replicate (496 - f.lens.length) 0#8

/-- Code words of one length: symbols of length `l` from symbol `s`, taking consecutive words from `code` (R133). -/
def codesOfLen (l : Nat) : List Nat → Nat → Nat → List (Nat × Nat × Nat) × Nat
  | [], _, code => ([], code)
  | x :: xs, s, code =>
    if x = l then
      let r := codesOfLen l xs (s + 1) (code + 1)
      ((l, code, s) :: r.1, r.2)
    else codesOfLen l xs (s + 1) code

/-- Canonical code words as (length, word, symbol), lengths `l` upward, `n` of them (R133). -/
def canonAux (lens : List Nat) : Nat → Nat → Nat → List (Nat × Nat × Nat)
  | 0, _, _ => []
  | n + 1, l, code =>
    let r := codesOfLen l lens 0 code
    r.1 ++ canonAux lens n (l + 1) (r.2 * 2)

/-- The canonical code of a font (R133). -/
def Font.codes (f : Font) : List (Nat × Nat × Nat) := canonAux f.lens 16 1 0

/-! The parse into symbols (R130). A symbol carries its raw literal when its kind has one. -/

/-- Length of the zero run at the head. -/
def zeroRun : List Byte → Nat
  | [] => 0
  | b :: bs => if b = 0#8 then zeroRun bs + 1 else 0

/-- R130's parse without EOB, by fuel. -/
def parseAux (k : FontKind) : Nat → List Byte → List (Nat × Option Byte)
  | 0, _ => []
  | _, [] => []
  | n + 1, b :: bs =>
    match k with
    | .huff => (b.toNat, none) :: parseAux k n bs
    | .zlit =>
      let z := zeroRun (b :: bs)
      if z = 0 then (b.toNat, none) :: parseAux k n bs
      else
        let r := min z 64
        (255 + r, none) :: parseAux k n ((b :: bs).drop r)
    | .zrun =>
      let z := zeroRun (b :: bs)
      if 64 ≤ z then (64, none) :: parseAux k n ((b :: bs).drop 64)
      else
        match (b :: bs).drop z with
        | c :: rest => (z, some c) :: parseAux k n rest
        | [] => [(z - 1, some 0#8)]

/-- The symbols of a block, EOB last (R130). -/
def parseBlock (k : FontKind) (bs : List Byte) : List (Nat × Option Byte) :=
  parseAux k bs.length bs ++ [(k.eob, none)]

/-- Bits of a code word, most significant first (R134). -/
def msbBits : Nat → Nat → List Bool
  | 0, _ => []
  | n + 1, c => Nat.testBit c n :: msbBits n c

/-- Bits of a byte, least significant first. -/
def lsbBits (n c : Nat) : List Bool := (List.range n).map (Nat.testBit c)

/-- The bits of one symbol, or `none` when the font gives it no code. -/
def symBits (codes : List (Nat × Nat × Nat)) (s : Nat × Option Byte) : Option (List Bool) :=
  match codes.find? (fun c => c.2.2 == s.1) with
  | none => none
  | some c => some (msbBits c.1 c.2.1 ++ (match s.2 with | some b => lsbBits 8 b.toNat | none => []))

/-- Bits to bytes, bit 0 of byte 0 first, the last byte padded with zeros (R134). -/
def bitsNat : List Bool → Nat
  | [] => 0
  | b :: bs => bit b + 2 * bitsNat bs

/-- The bytes of a bit stream. -/
def bytesOfBits (bs : List Bool) : List Byte := leBytes ((bs.length + 7) / 8) (bitsNat bs)

/-- The payload of a block in a font, or `none` where a symbol has no code. -/
def encodePayload (f : Font) (bs : List Byte) : Option (List Byte) :=
  (((parseBlock f.kind bs).mapM (symBits f.codes)).map List.flatten).map bytesOfBits

/-- The bits of bytes, least significant first. -/
def bitsOfBytes (bs : List Byte) : List Bool := bs.flatMap fun b => lsbBits 8 b.toNat

/-- Read one code word: the symbol and the rest, or `none` where no word of at most 16 bits matches. -/
def readSym (codes : List (Nat × Nat × Nat)) : Nat → Nat → Nat → List Bool → Option (Nat × List Bool)
  | 0, _, _, _ => none
  | _, _, _, [] => none
  | n + 1, l, c, b :: bs =>
    let c' := 2 * c + bit b
    match codes.find? (fun x => x.1 == l + 1 && x.2.1 == c') with
    | some x => some (x.2.2, bs)
    | none => readSym codes n (l + 1) c' bs

/-- Decode symbols to EOB with at most `d` bytes; `none` for each failure of rows 4 and 5 of R150. -/
def decodeAux (k : FontKind) (codes : List (Nat × Nat × Nat)) : Nat → List Bool → Nat → Option (List Byte)
  | 0, _, _ => none
  | n + 1, bits, d =>
    match readSym codes 16 0 0 bits with
    | none => none
    | some (s, rest) =>
      if s = k.eob then
        (if d = 0 && decide (rest.length < 8) && rest.all (· == false) then some [] else none)
      else
        match k with
        | .huff => if d = 0 then none else (decodeAux k codes n rest (d - 1)).map (BitVec.ofNat 8 s :: ·)
        | .zlit =>
          if s < 256 then (if d = 0 then none else (decodeAux k codes n rest (d - 1)).map (BitVec.ofNat 8 s :: ·))
          else if d < s - 255 then none
          else (decodeAux k codes n rest (d - (s - 255))).map (List.replicate (s - 255) 0#8 ++ ·)
        | .zrun =>
          if s = 64 then
            (if d < 64 then none else (decodeAux k codes n rest (d - 64)).map (List.replicate 64 0#8 ++ ·))
          else if d < s + 1 || decide (rest.length < 8) then none
          else (decodeAux k codes n (rest.drop 8) (d - (s + 1))).map
            (List.replicate s 0#8 ++ BitVec.ofNat 8 (bitsNat (rest.take 8)) :: ·)

/-- Decode a payload to exactly `d` bytes (R130, R134, rows 4 and 5 of R150). -/
def decodePayload (f : Font) (d : Nat) (payload : List Byte) : Option (List Byte) :=
  decodeAux f.kind f.codes (d + 1) (bitsOfBytes payload) d

/-! Slugs (R123 to R127, R150, R151). -/

/-- A slug's outcome (R150). -/
inductive SlugOutcome where
  | good | check | size
deriving DecidableEq, Repr

/-- The header of a slug (R123). -/
structure SlugHeader where
  font : Nat
  format : Nat
  enc : Nat
  dec : Nat
  check : Nat
deriving DecidableEq, Repr

/-- R123's layout. -/
def SlugHeader.ofBytes (bs : List Byte) : SlugHeader :=
  let f := fun i n => ofLeBytes ((bs.drop i).take n)
  ⟨f 0 2, f 2 1, f 4 4, f 8 4, f 12 4⟩

/-- The bytes of a header. -/
def SlugHeader.bytes (h : SlugHeader) : List Byte :=
  leBytes 2 h.font ++ leBytes 1 h.format ++ [0#8] ++ leBytes 4 h.enc ++ leBytes 4 h.dec ++ leBytes 4 h.check

/-- Footprint of a slug with payload length `e` (R125). -/
def footprint (e : Nat) : Nat := roundUp (16 + e) 32

/-- The decoded byte count of `n` elements under a FORMAT code (R124); `none` for a code of neither table or a count that is
no whole number. -/
def slugBytes (format n : Nat) : Option Nat :=
  if format = 0x81 || format = 0x82 then some n
  else
    match Elem.ofCode format with
    | none => none
    | some .ternary => if n % 64 = 0 then some (13 * n / 64) else none
    | some f => if n * f.bits % 8 = 0 then some (n * f.bits / 8) else none

/-- R124's well-formedness of a header. -/
def SlugHeader.wellFormed (h : SlugHeader) : Bool :=
  match slugBytes h.format h.dec with
  | none => false
  | some d => decide (1 ≤ d) && decide (d ≤ 65536) && decide (1 ≤ h.enc) && decide (h.enc ≤ d)
      && (h.font != 0 || h.enc == d)

/-- R150: the outcome of the slug at the head of an operand range, with its decoded bytes, given the descriptor's format and
element count. Row 1 answers no footprint: the start of the next slug is unknown. A font ID beyond those that R128 allocates makes the slug
malformed, by row 3 (DEDUCED, log 96). -/
def decideSlug (fonts : List Font) (format dec : Nat) (range : List Byte) :
    SlugOutcome × List Byte × Option Nat :=
  let d := (slugBytes format dec).getD 0
  let h := SlugHeader.ofBytes range
  let zeros := List.replicate d 0#8
  let fp := footprint h.enc
  let payload := (range.drop 16).take h.enc
  if range.length < 16 || h.enc = 0 || d < h.enc || range.length < fp then (.size, zeros, none)
  else if (h.font != 0 && !(fonts.any (·.id == h.font))) || crc32c payload != h.check then (.check, zeros, some fp)
  else if h.format != format || h.dec != dec || !h.wellFormed || decide (0x10FF < h.font) then (.size, zeros, some fp)
  else if h.font = 0 then (.good, payload, some fp)
  else
    match fonts.find? (·.id == h.font) with
    | none => (.check, zeros, some fp)
    | some f =>
      match decodePayload f d payload with
      | some bs => (.good, bs, some fp)
      | none => (.size, zeros, some fp)

/-- A run of slugs over one operand range: each slug's outcome and its decoded bytes or zeros (R125, R150, R151). -/
def decideRun (fonts : List Font) (format : Nat) : List Nat → List Byte → List (SlugOutcome × List Byte)
  | [], _ => []
  | n :: ns, range =>
    let r := decideSlug fonts format n range
    match r.2.2 with
    | some fp => (r.1, r.2.1) :: decideRun fonts format ns (range.drop fp)
    | none => (r.1, r.2.1) :: decideRun fonts format ns []

/-- R137: an encoder writes a block as a slug: STORED when there is no active font, when a symbol has no code, or when the
payload would take more than D bytes. -/
def encodeSlug (font : Option Font) (format dec : Nat) (bs : List Byte) : List Byte :=
  let stored := (SlugHeader.mk 0 format bs.length dec (crc32c bs)).bytes ++ bs
  match font with
  | none => stored
  | some f =>
    match encodePayload f bs with
    | none => stored
    | some p =>
      if bs.length < p.length then stored
      else (SlugHeader.mk f.id format p.length dec (crc32c p)).bytes ++ p

/-- Slot capacity of a run-time block of `d` decoded bytes (R137). -/
def slotCapacity (d : Nat) : Nat := roundUp (16 + d) 32

/-- Add one to the count of each symbol of a block's parse (R138). -/
def countSymbols (k : FontKind) (bs : List Byte) (counts : List Nat) : List Nat :=
  (parseBlock k bs).foldl (fun c s => c.modify s.1 (· + 1)) counts

/-- The smallest `l ≥ 1` with `g * 2^l ≥ tp`, by fuel (R141). -/
def lenFor (g tp : Nat) : Nat → Nat → Nat
  | 0, l => l
  | n + 1, l => if g * 2 ^ l < tp then lenFor g tp n (l + 1) else l

/-- Code lengths from u64 counts (R141). -/
def fontLens (k : FontKind) (counts : List Nat) : List Nat :=
  let f := counts.modify k.eob (· + 1)
  let t := f.sum
  let m := (t + 32767) / 32768
  let g := f.map fun x => if x = 0 then 0 else max x m
  let tp := g.sum
  g.map fun x => if x = 0 then 0 else lenFor x tp 64 1

/-- The worst-case decode cycles of a slug (R146). -/
def decodeCycles (coded : Bool) (e d : Nat) : Nat :=
  let c := if coded then min (8 * e) (d + 1) else 0
  4 + max (ceilDiv e 64) (max (ceilDiv c 32) (ceilDiv d 64))

/-- The Fixed-timing Inker budget of an operand range: per slug (W, D, F), the port's rate and the read rate (R147). -/
def inkerBudget (p r : Nat) (slugs : List (Nat × Nat × Nat)) : Nat :=
  16 + (slugs.map fun s => max (ceilDiv s.1 16) (max (ceilDiv s.2.1 p) (ceilDiv s.2.2 r))).sum

end Sys2Proof.Machine
end

