-- ==== Sys2Proof/Types.lean ====
section
/-!
DEFINITION. The data that commands carry and State holds: packets, editions, images, records of the host's memory.
-/
namespace Sys2Proof

open Sys2Proof.Machine

/-! The Tiltil side: packets (R389 to R392, R402, R425, R426). -/

/-- The header fields of a packet (R390). -/
structure PktHead where
  kind : Nat
  lseq : Nat
  vc : Nat
  dl : Bool
  dest : Nat
  source : Nat
  imprint : Nat
  wire : Nat
  hops : Nat
  flow : Nat
  tslice : Nat
  xdir : Nat
  ydir : Nat
  zdir : Nat
deriving DecidableEq, Repr

/-- A REQUEST's body (R425). -/
structure Request where
  eseq : BitVec 32
  op : Nat
  retry : Bool
  length : Nat
  addr : BitVec 64
  epoch : BitVec 32
  sgen : BitVec 32
  operand : BitVec 64
  compare : BitVec 64
  data : List Byte
deriving DecidableEq, Repr

/-- A RESPONSE's body (R426). -/
structure Response where
  eseq : BitVec 32
  op : Nat
  replayed : Bool
  length : Nat
  status : Nat
  epoch : BitVec 32
  sgen : BitVec 32
  result : BitVec 64
  data : List Byte
deriving DecidableEq, Repr

/-- A HELLO's fields (R402). -/
structure Hello where
  uid : BitVec 64
  node : Nat
  isSwitch : Bool
  port : Nat
  wireMax : Nat
  wireMin : Nat
  role : Nat
  edition : Nat
  plane : Nat
  owner : Nat
deriving DecidableEq, Repr

/-- A LINK packet's fields (R392). -/
structure LinkPkt where
  ack : Nat
  nak : Bool
  credits : List Nat
deriving DecidableEq, Repr

/-- The bodies a packet may have. -/
inductive PktBody where
  | request (r : Request)
  | response (r : Response)
  | hello (h : Hello)
  | link (l : LinkPkt)
deriving DecidableEq, Repr

/-- A packet on a port. -/
structure Packet where
  head : PktHead
  body : PktBody
deriving DecidableEq, Repr

/-- Granules of a packet (R390, R392, R402, R427). -/
def PktBody.granules : PktBody → Nat
  | .request r => if r.op = 0x02 then ceilDiv (52 + r.data.length) 32 else if r.op = 0x16 then ceilDiv 60 32 else 2
  | .response r => ceilDiv (52 + r.data.length) 32
  | .hello _ => 2
  | .link _ => 1

/-! The host side. -/

/-- What a read of host memory completes with: bytes, or an error, poison or timeout. -/
inductive HostRead where
  | ok (bytes : List Byte)
  | failed
deriving DecidableEq, Repr

/-- Bytes of a read; a failed one gives none. -/
def HostRead.bytes : HostRead → List Byte
  | .ok bs => bs
  | .failed => []

/-- Did a read fail? -/
def HostRead.bad : HostRead → Bool
  | .ok _ => false
  | .failed => true

/-- One ticket as TICKET_FETCH reads it: its 64 B, the token or stop list its checks need, and the image it names. -/
structure TicketRead where
  raw : HostRead
  data : HostRead
  image : HostRead
deriving DecidableEq, Repr

/-- A ring table entry (R451); `reserved` holds where one of its reserved bytes is not zero. -/
structure RingEntry where
  base : Nat
  hostWord : Nat
  devWord : Nat
  kind : Nat
  log2 : Nat
  ret : Nat
  vector : Nat
  reserved : Bool
deriving DecidableEq, Repr

/-- The 64 B of an entry (R451). -/
def RingEntry.ofBytes (bs : List Byte) : RingEntry :=
  let f := fun lo n => ofLeBytes ((bs.drop lo).take n)
  ⟨f 0 8, f 8 8, f 16 8, f 24 1, f 25 1, f 26 2, f 28 2, !(bs.drop 30).all (· == 0#8)⟩

/-- One entry of a ring table as an apply reads it, 64 B of host memory, with the DEV_WORD and HOST_WORD values that R631 asks for. -/
structure RingRead where
  raw : HostRead
  devVal : Option (BitVec 32)
  hostVal : Option (BitVec 32)
deriving DecidableEq, Repr

/-! Editions (15_editions_modes.md). Sections whose byte layout the spec gives keep its fields; the others are structured
content (log 6). -/

/-- The fields of an edition image's header (R484). -/
structure EdHeader where
  magic : Nat
  version : Nat
  kind : Nat
  imprint : Nat
  edition : Nat
  base : Nat
  effective : Nat
  sections : Nat
  imageBytes : Nat
  reservedZero : Bool
deriving DecidableEq, Repr

/-- A section directory entry (R485). -/
structure SecEntry where
  type : Nat
  imprint : Nat
  reserved : Nat
  offset : Nat
  bytes : Nat
deriving DecidableEq, Repr

/-- A port plan entry's status (R403). -/
inductive PortNeed where
  | required | spare | unused
deriving DecidableEq, Repr

/-- One port's plan entry (R403): the expected neighbour is a package's endpoint and port, or a switch plane. -/
structure PortPlan where
  need : PortNeed
  peer : Nat
  peerPort : Nat
  plane : Option Nat
  wrap : Option Nat
deriving DecidableEq, Repr

/-- A lock-step set (R342, R521, R530): members in ascending endpoint ID. -/
structure LockSet where
  members : List Nat
  peerTimeoutMs : Nat
  lagWaitUs : Nat
  lagCount : Nat
deriving DecidableEq, Repr

/-- The TREE part of the topology (R408). -/
structure TreePlan where
  parent : Nat
  children : List (Nat × List Nat)
deriving DecidableEq, Repr

/-- The TOPOLOGY section (R403, R404, R408, R342). -/
structure Topology where
  ports : List PortPlan
  podMap : List (Nat × Nat × Nat)
  dims : Nat × Nat × Nat
  tree : Option TreePlan
  transitTray : Nat
  transitPlanes : Nat
  sets : List LockSet
  spans : List (List Nat)
  discoveryMs : Nat
deriving DecidableEq, Repr

/-- The POWER section (R559). -/
structure PowerCfg where
  orphanCap : Nat
  rampUp : Nat
  rampDown : Nat
  guard : Nat
  floorHold : Nat
  marginLow : Nat
  marginRetire : Nat
  horizon : Nat
deriving DecidableEq, Repr

/-- A row group of the row map (R331): region 0 decode, 1 prompt, 2 chunk, 3 re-run. -/
structure RowGroup where
  region : Nat
  rows : Nat
  aMax : Nat
deriving DecidableEq, Repr

/-- The serving entry (R331). -/
structure Serving where
  dCap : Nat
  pSeq : Nat
  pCap : Nat
  cSeq : Nat
  lC : Nat
  rRes : Nat
  qHi : Nat
  qLo : Nat
  kMax : Nat
  template : List Nat
  tChunk : Nat
  draftK : Nat
  rowMap : List RowGroup
  draftCores : Nat
deriving DecidableEq, Repr

/-- What a Densitometer trip does (R116). -/
inductive TripAction where
  | flag | escalate | endReq
deriving DecidableEq, Repr

/-- Densitometer settings (R116), with the watch points whose layers have shadow weights (R118). -/
structure Density where
  action : TripAction
  thetaUp : Nat
  thetaDown : Nat
  k : Nat
  warmup : Nat
  reserve : Nat
  shadow : Nat
deriving DecidableEq, Repr

/-- A folio class (R199, R215, R489): slot counts and marks per tier T0, T1, T2. -/
structure FolioClass where
  fmt : Elem
  d : Nat
  slots : List Nat
  low : List Nat
  high : List Nat
deriving DecidableEq, Repr

/-- A layer of the layer table (R158, R192, R486), with its KV head count and its folio class. -/
structure LayerCfg where
  g : Nat
  d : Nat
  kv : Elem
  heads : Nat
  window : Nat
  headroom : F32
  sMin : F32
  cls : Nat
deriving DecidableEq, Repr

/-- A watch point (R112): its layer, its home core, the offset of its density table in the home core's near slice (R113), and whether it
names a gradient. -/
structure WatchPoint where
  layer : Nat
  home : Nat
  table : Nat
  gradient : Bool
deriving DecidableEq, Repr

/-- A tensor descriptor (R490). -/
structure TensorDesc where
  elem : Nat
  scale : Nat
  cls : Nat
  flags : Nat
  rows : Nat
  k : Nat
  tscale : F32
  location : Nat
  stored : Nat
  slugElems : Nat
  font : Nat
deriving DecidableEq, Repr

/-- A plate table entry (R487). -/
structure PlateEntry where
  rc : Nat
  ra : Nat
  vDesc : Nat
  uDesc : Nat
deriving DecidableEq, Repr

/-- A run-time font stream (R138 to R140): kind, home core, and each writing core's count table. -/
structure FontStream where
  kind : FontKind
  home : Nat
  tables : List (Nat × Nat)
deriving DecidableEq, Repr

/-- The FORMATS section (R486). -/
structure Formats where
  descs : List TensorDesc
  plates : List PlateEntry
  fonts : List (List Byte)
  streams : List FontStream
  layers : List LayerCfg
  watch : List WatchPoint
  vocab : Nat
deriving DecidableEq, Repr

/-- Kinds of quoin (R292). -/
inductive QuoinKind where
  | opening | mid | closing
deriving DecidableEq, Repr

/-- A quoin table entry with its arrival list: flag word address and awaited endpoint (R292). -/
structure QuoinEntry where
  kind : QuoinKind
  job : Nat
  index : Nat
  arrivals : List (Nat × Nat)
deriving DecidableEq, Repr

/-- One core directory entry with its stream (R290, R296). -/
structure CoreStream where
  core : Nat
  job : Nat
  saveOff : Nat
  cmds : List (BitVec 512)
deriving DecidableEq, Repr

/-- The SCHEDULE section (R289 to R293). -/
structure Schedule where
  interleaved : Bool
  jobs : Nat
  quoins : List QuoinEntry
  streams : List CoreStream
  plan : List (BitVec 64)
  reserve : Nat
deriving DecidableEq, Repr

/-- An exposure entry (R422). RIGHTS bits: 0 LOAD, 1 STORE, 2 ATOMIC, 3 FLAG, 4 SHARED. -/
structure Exposure where
  source : Nat
  mask : Nat
  srcImprint : Nat
  space : Nat
  base : Nat
  len : Nat
  rights : Nat
deriving DecidableEq, Repr

/-- Kinds of optical network (R408). -/
inductive Optical where
  | none | torus | mesh | tree
deriving DecidableEq, Repr

/-- The ROUTES section (R408, R422, R432). -/
structure Routes where
  reach : List (Nat × Nat)
  override : List (Nat × Nat × Nat)
  tray : Nat
  planes : Nat
  optical : Optical
  tslice : Nat
  exposure : List Exposure
  retryUs : Nat
  retryLimit : Nat
deriving DecidableEq, Repr

/-- One expert's placement (R269, R271): replicas as (endpoint, core), and the route home core. -/
structure ExpertPlace where
  replicas : List (Nat × Nat)
  home : Nat
deriving DecidableEq, Repr

/-- One expert layer (R257 to R271, R275). -/
structure ExpertLayer where
  layer : Nat
  group : Bool
  cMax : Nat
  f : Nat
  taken : Bool
  rowFmt : Elem
  rowScale : Scale
  retFmt : Elem
  outFmt : Elem
  outScale : Scale
  width : Nat
  experts : List ExpertPlace
deriving DecidableEq, Repr

/-- One slot of a bay (R277): where it stands, its half size, the block it expects, and its flag word. -/
structure BaySlot where
  core : Nat
  offset : Nat
  half : Nat
  source : Nat
  layer : Nat
  type : Nat
  expert : Nat
  replica : Nat
  capacity : Nat
  flag : Nat
deriving DecidableEq, Repr

/-- The PLACEMENT section (R271). -/
structure Placement where
  members : List Nat
  layers : List ExpertLayer
  bays : List BaySlot
deriving DecidableEq, Repr

/-- A T2 region (R251): host range, or a range lent by another package. -/
inductive T2Region where
  | host (base len : Nat)
  | lent (endpoint base len : Nat)
deriving DecidableEq, Repr

/-- The scalar fields of an imprint map entry (R489). -/
structure EntryCfg where
  imprint : Nat
  interleaved : Bool
  fixed : Bool
  spec : Nat
  spill : Nat
  wireCap : Nat
  set : Nat
  lookahead : Nat
  lateness : Nat
  starvation : Nat
  liveLimit : Nat
  admitBudget : Nat
  adapterSlots : Nat
  drainAt : Nat
  manifest : Nat
deriving DecidableEq, Repr

/-- Everything an edition gives one imprint: its map entry and its sections. -/
structure ImprintCfg where
  entry : EntryCfg
  cores : List Nat
  channels : List Nat
  t2 : List T2Region
  serving : Serving
  density : Density
  folio : List FolioClass
  formats : Formats
  schedule : Schedule
  routes : Routes
  placement : Option Placement
  adapters : Option (List Nat)
deriving DecidableEq, Repr

/-- The content of a major edition. -/
structure Major where
  coreMap : List Nat
  topology : Topology
  partitioned : Bool
  imprints : List ImprintCfg
  power : PowerCfg
deriving DecidableEq, Repr

/-- The content of a minor edition (R504). -/
structure Minor where
  placement : Option Placement
  adapters : Option (List Nat)
  onlyThese : Bool
deriving DecidableEq, Repr

/-- What an edition holds. -/
inductive EdBody where
  | major (m : Major)
  | minor (m : Minor)
deriving DecidableEq, Repr

/-- An edition image as read: its bytes, and the content that they hold. -/
structure Edition where
  bytes : List Byte
  body : EdBody
deriving DecidableEq, Repr

/-! Paths to a register (R604 to R608). -/

/-- Who accesses a register: the PF, a VF, or the tray controller over I3C. -/
inductive RegPath where
  | pf
  | vf (f : Fin 16)
  | i3c
  | config (f : Fin 17)
deriving DecidableEq, Repr

/-! A return of the quoin timing that the commit reports: measured, not computed by the model (log 7). -/

/-- Segment cycles, wait cycles, the longest wait's quoin and last arrival (R376), and whether the traffic of a Free-timing or
Interleaved imprint crossed this imprint's (R372, cause NEIGHBOUR). -/
structure ImpTiming where
  segment : Nat
  wait : Nat
  longest : Nat
  endpoint : Nat
  localWork : Bool
  neighbour : Bool
deriving DecidableEq, Repr

/-- Why a core is reported failed (R521 causes 4 and 5). -/
inductive CoreFault where
  | check | timeout
deriving DecidableEq, Repr

end Sys2Proof
end

