-- ==== Sys2Proof/Syntax.lean ====
section
/-!
DEFINITION. The commands of the block: one constructor per row of the spec's table of operations and events.
-/
namespace Sys2Proof

/-- A queue of a core's commands: the Inker lane loads, five engines, and the four Chase queues (R297). -/
inductive Engine where
  | inker | platen | roller | galley | setter | imposer
  | chase (q : Fin 4)
deriving DecidableEq, Repr

/-- The commands. Operands name what acts (a core, a job, an imprint, a port, a function) and carry what the outside supplies
(bytes read, packets, readings). -/
inductive Instr where
  -- core sequencer and engines: the record is the one at the job's stream position in the command store (R291)
  | seqNop (core : Fin 192) (job : Fin 8)
  | quoin (core : Fin 192) (job : Fin 8)
  | fontLoad (core : Fin 192) (job : Fin 8)
  | platenTile (core : Fin 192) (job : Fin 8)
  | aLoad (core : Fin 192) (job : Fin 8)
  | rollerTile (core : Fin 192) (job : Fin 8)
  | tLoad (core : Fin 192) (job : Fin 8)
  | attend (core : Fin 192) (job : Fin 8)
  | merge (core : Fin 192) (job : Fin 8)
  | element (core : Fin 192) (job : Fin 8)
  | reduce (core : Fin 192) (job : Fin 8)
  | sample (core : Fin 192) (job : Fin 8)
  | fontStats (core : Fin 192) (job : Fin 8)
  | routeLocal (core : Fin 192) (job : Fin 8)
  | routeMerge (core : Fin 192) (job : Fin 8)
  | impose (core : Fin 192) (job : Fin 8)
  | collate (core : Fin 192) (job : Fin 8)
  | sort (core : Fin 192) (job : Fin 8)
  | topk (core : Fin 192) (job : Fin 8)
  | imposerGather (core : Fin 192) (job : Fin 8)
  | imposerScatter (core : Fin 192) (job : Fin 8)
  | scan (core : Fin 192) (job : Fin 8)
  | segreduce (core : Fin 192) (job : Fin 8)
  | fontBuild (core : Fin 192) (job : Fin 8)
  | chaseCopy (core : Fin 192) (job : Fin 8)
  | chaseGather (core : Fin 192) (job : Fin 8)
  | chaseScatter (core : Fin 192) (job : Fin 8)
  | bcast (core : Fin 192) (job : Fin 8)
  | t1Read (core : Fin 192) (job : Fin 8)
  | t1Write (core : Fin 192) (job : Fin 8)
  | fabStore (core : Fin 192) (job : Fin 8)
  | fabLoad (core : Fin 192) (job : Fin 8)
  | fabAtomic (core : Fin 192) (job : Fin 8)
  | fabFlag (core : Fin 192) (job : Fin 8)
  | window (core : Fin 192) (job : Fin 8)
  | signal (core : Fin 192) (job : Fin 8)
  | commandComplete (core : Fin 192) (job : Fin 8) (e : Engine)
  | jobSwitch (core : Fin 192) (job : Fin 8)
  -- the impression loop
  | impressionOpening (i : Fin 16) (hostWords : List (Nat × Option (BitVec 32)))
  | starvationLimit (i : Fin 16) (handle : Nat)
  | quoinRelease (i : Fin 16) (job : Fin 8) (waitUs : Nat) (last : Option Nat)
  | laggard (i : Fin 16) (endpoint : Nat)
  | lagWindowRestart (i : Fin 16)
  | impressionCommit (i : Fin 16) (t : List ImpTiming)
  -- rings and tickets
  | doorbellPoll
  | nudge (f : Fin 17) (slot : Fin 1024)
  | ticketFetch (f : Fin 17) (ring : Nat) (doorbell : Option (BitVec 32)) (reads : List TicketRead)
  | nopTicket (f : Fin 17) (ring : Nat)
  | openReq (i : Fin 16) (ring : Nat)
  | append (i : Fin 16) (ring : Nat)
  | cancel (i : Fin 16) (ring : Nat)
  | params (i : Fin 16) (ring : Nat)
  | adapterLoad (i : Fin 16) (ring : Nat)
  | adapterRetire (i : Fin 16) (ring : Nat)
  | weightsLoad (i : Fin 16) (ring : Nat)
  | editionStage (ring : Nat) (image : Option Edition)
  | editionValidated
  | editionCommit (ring : Nat)
  | editionRecheckDone (image : Option Edition) (minors : List Edition)
  | pointOfNoReturn
  | editionCommitDone (micros : Nat)
  | editionRevert (ring : Nat)
  | query (f : Fin 17) (ring : Nat)
  | fence (f : Fin 17) (ring : Nat)
  | ringtabApply (p : RegPath) (f : Fin 17) (entries : Fin 1024) (reads : List RingRead)
  | hifEvtLostRead (p : RegPath) (f : Fin 17)
  | vfFlr (i : Fin 16)
  | pfFlr
  | pcieLinkChange (gts : Nat) (width : Nat)
  -- the fabric
  | fabRequestArrival (port : Fin 20) (p : Packet)
  | t1FabricSlot (ch : Fin 384)
  | fabResponseArrival (port : Fin 20) (p : Packet)
  | fabRetryTimeout (i : Fin 16) (target : Nat) (eseq : BitVec 32)
  | operationLost (i : Fin 16) (target : Nat) (eseq : BitVec 32)
  | generationHoldoffEnd (i : Fin 16) (target : Nat)
  | packetLifetimeExpiry (port : Fin 20)
  | packetForward (port : Fin 20) (p : Packet)
  | linkPacketReceive (port : Fin 20) (l : LinkPkt)
  | linkPacketTimer (port : Fin 20)
  | replayTimeout (port : Fin 20)
  | replayLimit (port : Fin 20)
  | helloReceive (port : Fin 20) (h : Hello)
  | helloTimer (port : Fin 20)
  | signalDetect (port : Fin 20)
  | trainDone (port : Fin 20)
  | trainTimeout (port : Fin 20)
  | lockAchieved (port : Fin 20)
  | lockTimeout (port : Fin 20)
  | helloTimeout (port : Fin 20)
  | retrainTimeout (port : Fin 20)
  | uncorrectableCodewordRun (port : Fin 20)
  | alignmentLoss (port : Fin 20)
  | discoveryTimeout
  | portEnable (port : Fin 20) (en : Bool)
  | portRetrain (port : Fin 20)
  | portLoopback (port : Fin 20) (on : Bool)
  | fabLocationValid (p : RegPath)
  -- memory
  | morgueTransferDone (i : Fin 16) (folio : Nat) (bytes : List Byte)
  | morgueTransferFailed (i : Fin 16) (folio : Nat)
  | morgueLate (i : Fin 16) (handle : Nat)
  | refreshWindow (ch : Fin 384)
  | refreshIntervalExpiry (ch : Fin 384)
  | t1ScrubSlot (ch : Fin 384)
  | t0Scrub (core : Fin 192)
  | damageReport
  -- faults
  | coreCheckFault (core : Fin 192)
  | coreTimeout (core : Fin 192)
  | peerTimeout (i : Fin 16) (endpoint : Nat)
  | recoverRoster (i : Fin 16) (source dest : Nat) (epoch : BitVec 32) (members : BitVec 256) (last : Nat)
  | coreLost (core : Fin 192)
  | compositorMemoryError (inReserve : Bool) (ccore : Fin 8)
  | compositorWatchdog (ccore : Fin 8)
  | colophonFault
  -- power
  | pwrCapWrite (p : RegPath) (target : BitVec 12)
  | pwrCapFast (p : RegPath) (target : BitVec 12)
  | capStep
  | limiterEval (pFixed pLink pMem pCore : Nat)
  | avsSample (milliwatts : List Nat)
  | overCap
  | overCapClear
  | vrAlertAssert
  | vrAlertDeassert
  | vrAlertClear
  | pwrbrkAssert
  | pwrbrkDeassert
  | pwrbrkClear
  | sensorRead (readings : List (Nat × Nat))
  | lthStep
  | thermalHold
  | dramTempReport (dev : Fin 48) (rate : Fin 4)
  | heartbeat (p : RegPath) (value : BitVec 32)
  | heartbeatExpiry
  | pwrReqRest
  | pwrReqRun
  | restEntry
  | restWake
  | monitorSample (samples : List (Nat × Nat))
  | spareMonitorSample (samples : List (Nat × Nat))
  | marginFit (fits : List (Nat × Int × Int))
  -- reset, boot, security
  | powerGoodRise (slotId : Fin 8) (entropyGood : Bool)
  | powerGoodFall
  | perstNAssert
  | release (coolOk vrAlertN pwrbrkN : Bool)
  | coolOkChange (level : Bool)
  | bootImageChecked (identified : Bool) (image : List Byte)
  | firmwareInitDone (failed : List (Fin 384))
  | mailboxLoad
  | mailboxImageChecked (image : HostRead)
  | firmwareUpdate
  | firmwareUpdateDone (image : HostRead) (readBack : List Byte)
  | clockMonitorTrip (refLost : Bool)
  | pcieRefclkLoss
  | drbgReseed
  | getVersion
  | getCapabilities
  | negotiateAlgorithms
  | getDigests
  | getCertificate (slot offset length : Nat)
  | challenge (msg : List Byte)
  | getMeasurements (msg : List Byte) (signed : Bool) (index : Nat)
  | keyExchange (msg : List Byte)
  | finish (macGood : Bool)
  | keyUpdate (which : Nat)
  | spdmHeartbeat
  | endSession
  | getPqChain (offset length : Nat)
  | getPqSignature
  | i3cPrivateWrite (bytes : List Byte)
  | entdaa (addr : BitVec 7)
  | setdasa (static : BitVec 7) (addr : BitVec 7)
  | rstdaa
  | getpid
  | getbcr
  | getdcr
  | getstatus
  | getmwl
  | getmrl
  -- interrupts and registers
  | icuInputEvent (source : Fin 1024)
  | icuEnSet (n : Fin 16) (v : BitVec 64)
  | icuEnClr (n : Fin 16) (v : BitVec 64)
  | icuPendSet (n : Fin 16) (v : BitVec 64)
  | icuPendClr (n : Fin 16) (v : BitVec 64)
  | icuRouteWrite (source : Fin 1024) (v : BitVec 32)
  | reproStep (p : RegPath) (i : Fin 16) (on : Bool)
  | reproGo (p : RegPath) (i : Fin 16)
  | registerWrite (p : RegPath) (offset : Nat) (width : Nat) (v : BitVec 64)
  | nakSend (port : Fin 20) (lseq : Option (BitVec 12))
  | msixMaskClear (f : Fin 17) (vector : Option Nat)
  | pcieRefclkReturn
  | ideKm (prog : Bool) (key : List Byte)
deriving DecidableEq, Repr

end Sys2Proof
end

