-- ==== Sys2Proof/Decode.lean ====
section
/-!
DEFINITION. Commands as table words: no row of the table of operations gives bits, so no word spells a command.
-/
namespace Sys2Proof

/-- The command a table word spells: none, since no row gives bits. -/
def decodeTableWord (_nbits _w : Nat) : Option Instr := none

end Sys2Proof
end

