-- ==== Sys2Proof/Machine/CoreMap.lean ====
section
/-!
DEFINITION. The core map that a part ships with (R24, R25).
-/
namespace Sys2Proof.Machine

open Sys2Proof

/-- The physical cores of a die that are left after `n` choices among them. -/
def coresLeft (die : Nat) : Nat → List Nat
  | 0 => (List.range 104).map (104 * die + ·)
  | n + 1 => (coresLeft die n).eraseIdx (Config.idlePick die n % (104 - n))

/-- The 96 active cores of a die, ascending (R24). -/
def shippedActive (die : Nat) : List Nat := coresLeft die 8

/-- A physical core's entry in the shipped map: the active cores of die 0 hold 0 to 95 and those of die 1 hold 96 to 191 in ascending
order; the others are spares, 0xFE, or disabled, 0xFF (R24, R25). -/
def shippedCore (p : Nat) : Nat :=
  match (shippedActive (p / 104)).zipIdx.find? fun x => x.1 == p with
  | some x => 96 * (p / 104) + x.2
  | none => if Config.idleSpare p then 0xFE else 0xFF

/-- Does CORE_FUSE disable a physical core (R578, R611)? The cores that ship disabled are those of the fuses (log 73). -/
def coreFuse (p : Nat) : Bool := !(shippedActive (p / 104)).contains p && !Config.idleSpare p

end Sys2Proof.Machine
end

