-- ==== Sys2Proof/Machine/Images.lean ====
section
/-!
DEFINITION. The bytes of edition images and ring tables (R10, R289 to R293, R451, R484 to R486, R488, R489, R559): where the spec gives a
byte layout, the content is read from the bytes.
-/
namespace Sys2Proof

open Sys2Proof.Machine

/-- The little-endian field of `n` bytes at an offset (R10). -/
def fieldAt (bs : List Byte) (lo n : Nat) : Nat := ofLeBytes ((bs.drop lo).take n)

/-- Are `n` bytes from an offset zero? -/
def zerosAt (bs : List Byte) (lo n : Nat) : Bool := ((bs.drop lo).take n).all (· == 0#8)

/-- The entry that a read of its 64 B gives; a failed or short read gives none (R451). -/
def RingRead.entry (r : RingRead) : Option RingEntry :=
  match r.raw with
  | .ok bs => if bs.length = 64 then some (RingEntry.ofBytes bs) else none
  | .failed => none

/-! The header and the directory (R484, R485). -/

/-- The header in an image's first 128 B (R484). -/
def EdHeader.ofBytes (bs : List Byte) : EdHeader :=
  let f := fieldAt bs
  { magic := f 0 4, version := f 4 2, kind := f 6 1, imprint := f 7 1, edition := f 8 4, base := f 12 4, effective := f 16 8,
    sections := f 24 4, imageBytes := f 32 8, reservedZero := zerosAt bs 28 4 && zerosAt bs 40 24 && zerosAt bs 112 16 }

/-- A directory entry in its 16 B (R485). -/
def SecEntry.ofBytes (bs : List Byte) : SecEntry :=
  let f := fieldAt bs
  ⟨f 0 2, f 2 1, f 3 5, f 8 4, f 12 4⟩

/-- The header of an image. -/
def Edition.head (e : Edition) : EdHeader := EdHeader.ofBytes e.bytes

/-- The section directory of an image: SECTIONS entries from byte 128 (R485), of which at most 64 are read (R484). -/
def Edition.dir (e : Edition) : List SecEntry :=
  (List.range (min e.head.sections 64)).map fun k => SecEntry.ofBytes ((e.bytes.drop (128 + 16 * k)).take 16)

/-- DIGEST of an image (R484). -/
def Edition.digest (e : Edition) : BitVec 384 := BitVec.ofNat 384 (fieldAt e.bytes 64 48)

/-- The bytes that DIGEST covers: the image with DIGEST taken as zero (R484). -/
def Edition.covered (e : Edition) : List Byte := e.bytes.take 64 ++ List.replicate 48 0#8 ++ e.bytes.drop 112

/-- The bytes of a section. -/
def Edition.sectionBytes (e : Edition) (type imprint : Nat) : Option (List Byte) :=
  (e.dir.find? fun x => x.type == type && x.imprint == imprint).map fun x => (e.bytes.drop x.offset).take x.bytes

/-! Package sections. -/

/-- CORE_MAP (R486): per physical core a logical number, 0xFE for a spare, 0xFF for a disabled core, and 0xFD for a value that names
none of these. -/
def coreMapOf (bs : List Byte) : List Nat :=
  (List.range 208).map fun p =>
    let x := fieldAt bs (2 * p) 2
    match x / 2 ^ 8 with
    | 0 => 0xFF
    | 1 => 0xFE
    | 2 => if x % 2 ^ 8 < 192 then x % 2 ^ 8 else 0xFD
    | _ => 0xFD

/-- POWER (R559). -/
def powerOf (bs : List Byte) : PowerCfg :=
  let f := fieldAt bs
  { orphanCap := f 0 2, rampUp := f 2 2, rampDown := f 4 2, guard := f 6 1, floorHold := f 7 1, marginLow := f 8 1,
    marginRetire := f 9 1, horizon := f 10 2 }

/-- The scalar fields of an imprint map entry (R489). -/
def entryOf (bs : List Byte) : EntryCfg :=
  let f := fieldAt bs
  { imprint := f 0 1, interleaved := f 1 1 == 1, fixed := f 2 1 == 0, spec := f 3 1, spill := f 4 1, wireCap := f 5 1, set := f 6 2,
    lookahead := f 8 1, lateness := f 9 1, starvation := f 10 1, liveLimit := f 12 4, admitBudget := f 16 2, adapterSlots := f 18 2,
    drainAt := f 68 8, manifest := f 76 4 }

/-- The codes and reserved bytes of an entry: SHARING and TIMING are 0 or 1 (R489). -/
def entryClean (bs : List Byte) : Bool :=
  decide (fieldAt bs 1 1 ≤ 1) && decide (fieldAt bs 2 1 ≤ 1) && zerosAt bs 11 1 && zerosAt bs 80 176

/-- CORES of an entry (R489). -/
def coresOf (bs : List Byte) : List Nat := (List.range 192).filter fun k => Nat.testBit (fieldAt bs 20 24) k

/-- The channel set of an entry, in the order c_0 to c_(n-1) (R234, R489). -/
def channelsOf (sec bs : List Byte) : List Nat :=
  (List.range (min (fieldAt bs 48 2) 384)).map fun k => fieldAt sec (fieldAt bs 44 4 + 2 * k) 2

/-- The bytes of entry `k` of the imprint map (R488). -/
def mapEntry (sec : List Byte) (k : Nat) : List Byte := (sec.drop (256 + 256 * k)).take 256

/-- Does an imprint map say what the content holds, in its header and the fields of its entries that have a place in bytes
(R488, R489)? -/
def mapSays (sec : List Byte) (m : Major) : Bool :=
  (fieldAt sec 0 1 == 1) == m.partitioned && fieldAt sec 1 1 == m.imprints.length
    && m.imprints.zipIdx.all fun x =>
      let bs := mapEntry sec x.2
      x.1.entry == entryOf bs && x.1.cores == coresOf bs && x.1.channels == channelsOf sec bs && fieldAt bs 50 2 == x.1.t2.length

/-- The imprint map's reserved bytes and codes (R488, R489). -/
def mapClean (sec : List Byte) : Bool :=
  decide (fieldAt sec 0 1 ≤ 1) && zerosAt sec 2 2 && (List.range (min (fieldAt sec 1 1) 16)).all fun k => entryClean (mapEntry sec k)

/-! The schedule image (R289 to R293). -/

/-- The commands of a stream. -/
def streamAt (bs : List Byte) (off n : Nat) : List (BitVec 512) :=
  (List.range n).map fun k => BitVec.ofNat 512 (fieldAt bs (off + 64 * k) 64)

/-- Core directory entry `k` with its stream (R290). -/
def coreStreamOf (bs : List Byte) (dirAt k : Nat) : CoreStream :=
  let f := fun lo n => fieldAt bs (dirAt + 16 * k + lo) n
  ⟨f 0 2, f 2 1, f 12 4, streamAt bs (f 4 4) (min (f 8 4) 16384)⟩

/-- KIND of a quoin (R292). -/
def quoinKindOf : Nat → Option QuoinKind
  | 0 => some .opening
  | 1 => some .mid
  | 2 => some .closing
  | _ => none

/-- Quoin table entry `k` with its arrivals: flag word address and awaited endpoint (R292). -/
def quoinOf (bs : List Byte) (tabAt arrAt k : Nat) : Option QuoinEntry :=
  let f := fun lo n => fieldAt bs (tabAt + 16 * k + lo) n
  (quoinKindOf (f 0 1)).map fun kind =>
    ⟨kind, f 1 1, f 2 2, (List.range (f 8 4)).map fun j =>
      (fieldAt bs (arrAt + 16 * (f 4 4 + j)) 8, fieldAt bs (arrAt + 16 * (f 4 4 + j) + 8) 4)⟩

/-- Entries of the quoin table: QUOINS for each job (R289). -/
def quoinEntries (bs : List Byte) : Nat := fieldAt bs 6 2 * fieldAt bs 3 1

/-- A table of a schedule image lies in it. -/
def tableInside (bs : List Byte) (off n size : Nat) : Bool := decide (off + n * size ≤ bs.length)

/-- The container of a schedule image is whole: header fields in range, reserved bytes zero, every table and stream in the image, every
entry's reserved bytes zero (R289 to R293). -/
def scheduleClean (bs : List Byte) : Bool :=
  let f := fieldAt bs
  let n := f 4 2
  f 0 2 == 1 && decide (f 2 1 ≤ 1) && decide (1 ≤ f 3 1) && decide (f 3 1 ≤ 8) && (f 2 1 == 1 || f 3 1 == 1)
    && decide (2 ≤ f 6 2) && decide (f 6 2 ≤ 1024) && decide (f 32 1 ≤ 16) && zerosAt bs 33 7 && f 40 8 == bs.length && zerosAt bs 48 16
    && tableInside bs (f 8 4) n 16 && tableInside bs (f 12 4) (quoinEntries bs) 16 && tableInside bs (f 16 4) (f 20 4) 16
    && tableInside bs (f 24 4) (f 28 4) 8
    && (List.range n).all (fun k =>
      let g := fun lo m => fieldAt bs (f 8 4 + 16 * k + lo) m
      g 3 1 == 0 && g 4 4 % 64 == 0 && decide (2 ≤ g 8 4) && decide (g 8 4 ≤ 16384) && tableInside bs (g 4 4) (g 8 4) 64)
    && (List.range (quoinEntries bs)).all (fun k =>
      let g := fun lo m => fieldAt bs (f 12 4 + 16 * k + lo) m
      decide (g 0 1 ≤ 2) && g 12 4 == 0 && decide (g 4 4 + g 8 4 ≤ f 20 4))
    && (List.range (f 20 4)).all (fun k =>
      let g := fun lo m => fieldAt bs (f 16 4 + 16 * k + lo) m
      decide (g 0 8 < 2 ^ 34) && decide (g 8 4 < 2 ^ 18) && g 12 4 == 0)
    && (List.range (f 28 4)).all fun k =>
      let x := fieldAt bs (f 24 4 + 8 * k) 8
      decide (x < 2 ^ 31) && decide (x % 2 ^ 9 < 384) && decide (x / 2 ^ 9 % 2 ^ 5 < 30)

/-- The schedule that an image spells (R289 to R293). -/
def scheduleOf (bs : List Byte) : Schedule :=
  let f := fieldAt bs
  { interleaved := f 2 1 == 1, jobs := f 3 1, quoins := (List.range (quoinEntries bs)).filterMap (quoinOf bs (f 12 4) (f 16 4)),
    streams := (List.range (f 4 2)).map (coreStreamOf bs (f 8 4)),
    plan := (List.range (f 28 4)).map fun k => BitVec.ofNat 64 (fieldAt bs (f 24 4 + 8 * k) 8), reserve := f 32 1 }

/-- ADAPTERS: a list of u16 adapter IDs (R486). -/
def adapterIdsOf (bs : List Byte) : List Nat := (List.range (bs.length / 2)).map fun k => fieldAt bs (2 * k) 2

/-! What the bytes say of the content. -/

/-- Does a section, where the image holds it, say what a test asks? -/
def Edition.sectionSays (e : Edition) (type imprint : Nat) (p : List Byte → Bool) : Bool :=
  match e.sectionBytes type imprint with
  | some bs => p bs
  | none => true

/-- The content of an image is what its bytes say, wherever the spec gives a section a byte layout (log 6). -/
def Edition.agrees (e : Edition) : Bool :=
  match e.body with
  | .major m =>
    e.sectionSays 1 0xFF (fun bs => m.coreMap == coreMapOf bs) && e.sectionSays 3 0xFF (fun bs => mapSays bs m)
      && e.sectionSays 4 0xFF (fun bs => m.power == powerOf bs)
      && m.imprints.all fun g =>
        e.sectionSays 0x11 g.entry.imprint (fun bs => !scheduleClean bs || g.schedule == scheduleOf bs)
          && e.sectionSays 0x14 g.entry.imprint fun bs => g.adapters == some (adapterIdsOf bs)
  | .minor m => e.sectionSays 0x14 e.head.imprint fun bs => m.adapters == some (adapterIdsOf bs)

/-- Do the bytes of the sections of package scope keep their lengths, codes and reserved bytes (R486, R488, R489, R559)? -/
def Edition.packageClean (e : Edition) : Bool :=
  e.sectionSays 1 0xFF (fun bs => decide (416 ≤ bs.length)) && e.sectionSays 3 0xFF mapClean
    && e.sectionSays 4 0xFF fun bs => decide (64 ≤ bs.length) && zerosAt bs 12 52

end Sys2Proof
end

