-- ==== Sys2Proof/Machine/Sparse.lean ====
section
/-!
DEFINITION. Sparse tables and byte memories in one canonical form: keys strictly rising, and no entry equal to what an unlisted
key reads as. An unlisted byte reads as zero (log 1).
-/
namespace Sys2Proof.Machine

open Sys2Proof

/-- A sparse table: sorted pairs of a key and a value. -/
abbrev Sp (α : Type) := List (Nat × α)

/-- What key `k` holds; `d` where it is not listed. -/
def spGet {α : Type} (d : α) : Sp α → Nat → α
  | [], _ => d
  | (k', v) :: m, k => if k' = k then v else spGet d m k

/-- The table without key `k`. -/
def spErase {α : Type} (m : Sp α) (k : Nat) : Sp α := m.filter fun x => x.1 != k

/-- Insert a pair at its place by key. -/
def spInsert {α : Type} (k : Nat) (v : α) : Sp α → Sp α
  | [] => [(k, v)]
  | x :: m => if k < x.1 then (k, v) :: x :: m else x :: spInsert k v m

/-- Set key `k`: the value an unlisted key reads as removes the entry. -/
def spPut {α : Type} [DecidableEq α] (d : α) (m : Sp α) (k : Nat) (v : α) : Sp α :=
  if v = d then spErase m k else spInsert k v (spErase m k)

/-- Change what key `k` holds. -/
def spMod {α : Type} [DecidableEq α] (d : α) (m : Sp α) (k : Nat) (f : α → α) : Sp α := spPut d m k (f (spGet d m k))

/-- Keys strictly rising. -/
def spSorted {α : Type} : Sp α → Bool
  | [] => true
  | [_] => true
  | x :: y :: m => decide (x.1 < y.1) && spSorted (y :: m)

/-- The canonical form of a table whose unlisted keys read `d`. -/
def spWf {α : Type} [DecidableEq α] (d : α) (m : Sp α) : Bool := spSorted m && m.all fun x => decide (x.2 ≠ d)

/-- The cells of consecutive bytes that are not zero. -/
def cellsFrom (a : Nat) : List Byte → List (Nat × Byte)
  | [] => []
  | b :: bs => if b = 0#8 then cellsFrom (a + 1) bs else (a, b) :: cellsFrom (a + 1) bs

/-- Write consecutive bytes from address `a`. -/
def memWrite (m : Sp Byte) (a : Nat) (bs : List Byte) : Sp Byte :=
  m.filter (fun x => decide (x.1 < a)) ++ cellsFrom a bs ++ m.filter (fun x => decide (a + bs.length ≤ x.1))

/-- Read `n` consecutive bytes from address `a`. -/
def memRead (m : Sp Byte) (a n : Nat) : List Byte :=
  let w := m.filter fun x => decide (a ≤ x.1) && decide (x.1 < a + n)
  (List.range n).map fun i => spGet 0#8 w (a + i)

/-- A u64 count rising by `n` (R18, R363). -/
def wrapAdd (w x n : Nat) : Nat := (x + n) % 2 ^ w

/-- The members of a list at which a test holds, by index. -/
def indexes {α : Type} (p : α → Bool) (xs : List α) : List Nat := (xs.zipIdx.filter fun x => p x.1).map (·.2)

/-- Insert by a strict order test; equal keys keep their order. -/
def insertBy {α : Type} (lt : α → α → Bool) (x : α) : List α → List α
  | [] => [x]
  | y :: ys => if lt x y then x :: y :: ys else y :: insertBy lt x ys

/-- A stable sort. -/
def sortBy {α : Type} (lt : α → α → Bool) (xs : List α) : List α := xs.foldl (fun acc x => insertBy lt x acc) []

/-- The list without repeats, first members kept. -/
def nub {α : Type} [BEq α] (xs : List α) : List α := xs.foldl (fun acc x => if acc.contains x then acc else acc ++ [x]) []

end Sys2Proof.Machine
end

