-- ==== Sys2Proof/Machine/CoreParts.lean ====
section
/-!
DEFINITION. The parts of the state that belong to cores and to the memory tiers.
-/
namespace Sys2Proof.Machine

open Sys2Proof

/-! Cores (R28, R81, R159, R291, R297, R298, R321 to R323). -/

/-- A fabric operation outstanding under a job: its place in the source stream, where its reply goes, and its reply once it
has arrived (R310, R323). -/
structure ReplySlot where
  target : Nat
  eseq : Nat
  dst : Nat
  bytes : Nat
  data : Option (List Byte)
  admitted : Bool
  parked : Bool
deriving DecidableEq, Repr

/-- One job's context on a core (R298, R313, R322). -/
structure CoreJob where
  pos : Nat
  ctrs : Sp Nat
  atQuoin : Option Nat
  held : Bool
  lastIssue : Nat
  replies : List ReplySlot
deriving DecidableEq, Repr

/-- A job context right after its streams are loaded. -/
def CoreJob.fresh : CoreJob := ⟨0, [], none, false, 0, []⟩

/-- A command handed to an engine queue and not yet complete (R297, R298); `ovp` marks a tile that asks for the Overprint (R102). -/
structure Flight where
  job : Nat
  engine : Engine
  sig : Option Nat
  ovp : Bool
deriving DecidableEq, Repr

/-- Where rows of a staged operand came from: the offset in the half, the bytes that one row with its block scales takes there, the
descriptor, the tensor row of its first row, how many, and the rows that met damage with their status (R282, R303; logs 20, 21, 30). -/
structure Staged where
  half : Nat
  off : Nat
  stride : Nat
  desc : Nat
  row0 : Nat
  rows : Nat
  bad : List (Nat × Nat)
deriving DecidableEq, Repr

/-- A pick of the imposition record (R283): local index, expert, replica, position in its block, gate weight. -/
structure Pick where
  li : Nat
  expert : Nat
  replica : Nat
  pos : Nat
  gate : F32
deriving DecidableEq, Repr

/-- One core. -/
structure Core where
  -- sequencer
  streams : Sp (List (BitVec 512))
  saveOff : Sp Nat
  jobs : Sp CoreJob
  inflight : List Flight
  served : Sp Nat
  issues : Nat
  stopped : Bool
  -- local stores
  banks : Sp Byte
  staging : Sp Byte
  sets : Sp Byte
  tokens : Sp Byte
  staged : List Staged
  accP : Sp F32
  accR : Sp F32
  rank : Sp F32
  galley : Sp F32
  fonts : Sp (Option Font)
  -- the imposition record, by layer
  picks : Sp (List Pick)
  -- the lengths of DISPATCH lists sent, by layer, expert and replica, for R281
  sent : Sp (List Nat)
deriving DecidableEq, Repr

/-- A core with nothing loaded. -/
def Core.empty : Core :=
  { streams := [], saveOff := [], jobs := [], inflight := [], served := [], issues := 0, stopped := false, banks := [], staging := [], sets := [],
    tokens := [], staged := [], accP := [], accR := [], rank := [], galley := [], fonts := [], picks := [], sent := [] }

/-! Error reports (R231, R250, R254, R255, R516). -/

/-- The place a report names. -/
inductive Place where
  | t0 (addr : Nat)
  | t1 (ch line : Nat)
  | t2 (region unit : Nat)
  | slot (n : Nat)
  | request (handle : Nat)
  | tensor (desc : Nat)
  | font (id : Nat)
  | plate (slot plate : Nat)
deriving DecidableEq, Repr

/-- The command whose read or write met damage (R254): its core, its job, its place in the stream, and the requests whose rows or
sequence it works on, where its record tells them. -/
structure Reader where
  core : Nat
  job : Nat
  pos : Nat
  requests : Option (List Nat)
deriving DecidableEq, Repr

/-- A report of damage to the Compositor; no reader where a scrub, a transfer or the Compositor itself met it. -/
structure Report where
  imprint : Nat
  place : Place
  status : Nat
  reader : Option Reader
deriving DecidableEq, Repr

/-- An entry of the damage list (R516): the owning request, or the shared tensor. -/
inductive Owner where
  | request (handle : Nat)
  | shared (desc : Nat)
deriving DecidableEq, Repr

/-- A damage-list entry: owner, status, the place it came from, and for shared data the requests that its readers worked on (R152);
none: every request with a row in the impression. -/
structure Damage where
  owner : Owner
  status : Nat
  place : Place
  requests : Option (List Nat)
deriving DecidableEq, Repr

/-! Memory (R222 to R256). -/

/-- One T1 channel (R236, R238, R243, R249, R542): data bytes by local address, damaged bytes of each segment, the next segment
the scrub slot reads, segments to rewrite first, passes, counts, refreshes done, and whether a refresh is outstanding. -/
structure Channel where
  data : Sp Byte
  bad : List (Nat × Nat)
  scrub : Nat
  rewrite : List Nat
  passes : Nat
  corrected : Nat
  uncorrectable : Nat
  refreshed : Nat
  owing : Nat
deriving DecidableEq, Repr

/-- A channel at reset. -/
def Channel.empty : Channel := ⟨[], [], 0, [], 0, 0, 0, 0, 0⟩

/-- The T0 side: bytes by 34-bit address, flipped bits by word, scrub line and passes and counts by core. -/
structure Case where
  bytes : Sp Byte
  flips : List (Nat × Nat)
  scrub : Sp Nat
  passes : Sp Nat
  corrected : Sp Nat
  uncorrectable : Sp Nat
deriving DecidableEq, Repr

/-- T0 with nothing written. -/
def Case.empty : Case := ⟨[], [], [], [], [], []⟩

end Sys2Proof.Machine
end

