-- ==== Sys2Proof/Machine/RunParts.lean ====
section
/-!
DEFINITION. The parts of an imprint's state that its cores read and write while an impression runs: manifest, counters, trips,
decisions, fonts, densities.
-/
namespace Sys2Proof.Machine

open Sys2Proof

/-- What an imprint counts (R67, R122, R156, R193, R201, R256, R261, R266, R288, R352, R363, R378, R444). -/
inductive Ctr where
  | impressions | abandoned | promptTokens | outputTokens | leftOut | adapterStalls | chunking | proofs | accepted
  | cancelled | lateCancels | samplingFaults
  | convFaults | slugCheck | slugSize | trips | escalations | excess
  | kvSaturation | noFolio | residencyWait | morgueLate
  | freeDamage | morgueFailed
  | taken (layer expert : Nat) | overflow (layer expert : Nat)
  | staleReturns | staleBlocks | misdirected | nonFinite | renorm
  | fabSent | fabResent | fabLost | fabResponses (status : Nat) | fabOld | fabHeldDup | fabDupResponse
  | fabStaleResponse | fabStaleFlag | fabLifetime | fabRefused
  | voided (cause : Nat)
deriving DecidableEq, Repr

/-- The width a count wraps at (R363; every other count wraps modulo 2^32). -/
def Ctr.width : Ctr → Nat
  | .impressions | .promptTokens | .outputTokens | .leftOut | .proofs | .accepted => 64
  | _ => 32

/-- What a count holds. -/
def ctrGet (m : List (Ctr × Nat)) (c : Ctr) : Nat := ((m.find? fun x => x.1 == c).map (·.2)).getD 0

/-- A count rising by `n`, wrapping at its width. -/
def ctrAdd (m : List (Ctr × Nat)) (c : Ctr) (n : Nat) : List (Ctr × Nat) :=
  if m.any (fun x => x.1 == c) then m.map fun x => if x.1 == c then (c, wrapAdd c.width x.2 n) else x
  else m ++ [(c, n % 2 ^ c.width)]

/-- Kinds of manifest slot (R340). -/
inductive SlotKind where
  | empty | decode | draft | tree | prompt | chunk | rerun
deriving DecidableEq, Repr

/-- R340's codes. -/
def SlotKind.code : SlotKind → Nat
  | .empty => 0 | .decode => 1 | .draft => 2 | .tree => 3 | .prompt => 4 | .chunk => 5 | .rerun => 6

/-- A slot entry of the manifest (R340), with the rows its region gives it and its input. -/
structure Slot where
  request : Nat
  kind : SlotKind
  flags : Nat
  adapter : Nat
  nC : Nat
  width : Nat
  fresh : Nat
  seed : BitVec 64
  tau : F32
  topP : F32
  topK : Nat
  tokens : List Nat
  parents : List Nat
  tripMask : Nat
  adapterVer : Nat
  dcopy : Nat
  tokensAt : Nat
  parentsAt : Nat
  draftsAt : Nat
  row0 : Nat
  rows : Nat
  lead : Nat
deriving DecidableEq, Repr

/-- An empty slot (R340) whose region gives it the rows named. -/
def Slot.empty (row0 rows : Nat) : Slot :=
  ⟨0, .empty, 0, 0, 0, 0, 0, 0, 0, 0, 0, [], [], 0, 0, 0, 0, 0, 0, row0, rows, 0⟩

/-- A shard table entry (R341). -/
structure Shard where
  slot : Nat
  page : Nat
  null : Bool
deriving DecidableEq, Repr

/-- A Densitometer trip (R114, R121). -/
structure Trip where
  slot : Nat
  watch : Nat
  jump : Int
  nonfinite : Bool
  pos : Nat
  gradient : Bool
deriving DecidableEq, Repr

/-- A decision of SAMPLE (R354). -/
structure Decision where
  token : Nat
  child : Option Nat
  noLogit : Bool
deriving DecidableEq, Repr

/-- The squares a tile's columns give one row at a watch point (R112). -/
structure SquarePart where
  watch : Nat
  row : Nat
  core : Nat
  col : Nat
  sq : List F32
deriving DecidableEq, Repr

/-- Elements that a tile wrote into a fresh block for a folio that this impression opens, before their conversion (R192): the folio,
whether they are values, the position, the address of the first and the elements. -/
structure FreshPart where
  folio : Nat
  value : Bool
  pos : Nat
  addr : Nat
  xs : List F32
deriving DecidableEq, Repr

/-- The run state of an imprint's impression; `jobImp` counts the impressions that Interleaved jobs other than job 0
have completed (R319; log 47). -/
structure Run where
  impression : Nat
  epoch : Nat
  manifest : List Slot
  shards : List Shard
  header : List Byte
  routed : Nat
  nDom : Nat
  counters : List (Ctr × Nat)
  trips : List Trip
  decisions : Sp (List Decision)
  rowStatus : List (Nat × Nat)
  hurt : List (Nat × Nat)
  observed : List (Nat × Nat)
  fontActive : Sp Nat
  fontBuilt : Sp Bool
  fontSlots : Sp (Option Font)
  scales : Sp F32
  squares : List SquarePart
  sums : List (Nat × Nat × F32)
  freshParts : List FreshPart
  badRows : List (Nat × Nat)
  freeSeen : List Place
  cands : Sp Nat
  ports : List (Nat × Nat)
  jobImp : Sp Nat
deriving DecidableEq, Repr

/-- A run state with nothing opened. -/
def Run.fresh : Run :=
  { impression := 1, epoch := 0, manifest := [], shards := [], header := [], routed := 0, nDom := 0, counters := [], trips := [],
    decisions := [], rowStatus := [], hurt := [], observed := [], fontActive := [],
    fontBuilt := [], fontSlots := [], scales := [], squares := [], sums := [], freshParts := [], badRows := [], freeSeen := [], cands := [], ports := [], jobImp := [] }

end Sys2Proof.Machine
end

