-- ==== Sys2Proof/Machine/ServeParts.lean ====
section
/-!
DEFINITION. The parts of the state that the Compositor keeps: requests, folios, adapters, recovery, rings and tickets, editions.
-/
namespace Sys2Proof.Machine

open Sys2Proof

/-! Requests (R326, R327, R330, R342, R352, R358). -/

/-- R327's states; an ENDED request has no record. -/
inductive ReqState where
  | pending | prefill | decode | idle
deriving DecidableEq, Repr

/-- A request, or on a member of a span the shadow record of one (R342) (`spanWidth` is the width its lead last gave); `starved` marks one that blocks later sequences (R203),
`flr` one that a Function Level Reset ends (R478); `ended` holds the status of one that has ended and whose final record is not
yet written (R470). -/
structure Req where
  handle : Nat
  state : ReqState
  ring : Nat
  ret : Nat
  tag : Nat
  keep : Bool
  seed : BitVec 64
  tau : F32
  topP : F32
  topK : Nat
  k : Nat
  stop : List Nat
  outLimit : Nat
  adapterId : Nat
  adapterVer : Nat
  adapterSlot : Nat
  prompt : List Nat
  nC : Nat
  length : Nat
  turn : Nat
  lastOut : Option Nat
  dcopy : Nat
  cancel : Bool
  rerun : Nat
  starved : Bool
  stall : Option Nat
  resumed : Bool
  leftOut : Nat
  admitted : Nat
  runnableAt : Option Nat
  late : Nat
  prefixOf : Option (Nat × Nat)
  span : Option Nat
  spanWidth : Nat
  lead : Nat
  isLead : Bool
  isNew : Bool
  lastCommit : Nat
  ended : Option Nat
  flr : Bool
deriving DecidableEq, Repr

/-! Folios (R188, R195, R201). -/

/-- The state of a folio's slot (R201); a slot with no folio is Free. -/
inductive FolioState where
  | reserved | committed | transit | duplicate
deriving DecidableEq, Repr

/-- A transfer of a folio between tiers (R216, R218): to which tier and slot, whether its copy is complete or failed, and whether it is
with T2. One with T2 is `carried` once a window has taken its on-package side (R311) and `started` once its bytes have been sent or asked
for (R217); `left` counts the fabric operations of a lent region that are still to answer, and `image` holds the bytes under way. -/
structure Move where
  spill : Bool
  toTier : Nat
  slot : Nat
  done : Bool
  failed : Bool
  t2 : Bool
  carried : Bool
  started : Bool
  left : Nat
  image : List Byte
deriving DecidableEq, Repr

/-- A transfer that no window has taken yet. -/
def Move.new (spill : Bool) (toTier slot : Nat) (t2 : Bool) : Move := ⟨spill, toTier, slot, false, false, t2, false, false, 0, []⟩

/-- A folio: its identity, the slot that is its home, its header's fields with CHECK where it is valid, the font of its spilled copy, and
any transfer and duplicate. -/
structure Folio where
  cls : Nat
  layer : Nat
  head : Nat
  index : Nat
  tier : Nat
  slot : Nat
  addr : Nat
  state : FolioState
  fill : Nat
  sealed : Bool
  sK : F32
  sV : F32
  owner : Nat
  commitImp : Nat
  sharers : List Nat
  move : Option Move
  dup : Option Nat
  check : Option Nat
  font : Option Font
deriving DecidableEq, Repr

/-- A page of a sequence's folio table in the directory (R194): its number, its number of place, its address. -/
structure TablePage where
  request : Nat
  layer : Nat
  head : Nat
  page : Nat
  slot : Nat
  addr : Nat
deriving DecidableEq, Repr

/-! Adapters (R361, R362, R491). -/

/-- One matrix of an adapter image: its plates as the slug runs of the image (R135, R491). -/
structure AdapterMatrix where
  plate : Nat
  rank : Nat
  v : List Byte
  u : List Byte
deriving DecidableEq, Repr

/-- A version of an adapter in its slot; `cold` while its plates stand in T1 alone (R362). -/
structure AdapterVersion where
  id : Nat
  version : Nat
  alpha : F32
  mats : List AdapterMatrix
  loaded : Bool
  current : Bool
  pendingCurrent : Bool
  bound : Nat
  retired : Bool
  cold : Bool
deriving DecidableEq, Repr

/-! Rosters and recovery (R343, R344, R527 to R529). -/

/-- A roster entry (R343). -/
structure RosterEntry where
  handle : Nat
  lead : Nat
  isNew : Bool
  cancel : Bool
  full : Bool
  narrow : Bool
  status : Nat
  width : Nat
deriving DecidableEq, Repr

/-- A roster received: its type, source, impression, routed count and entries. -/
structure Roster where
  type : Nat
  source : Nat
  impression : Nat
  routed : Nat
  entries : List RosterEntry
deriving DecidableEq, Repr

/-- A RECOVER roster accepted: source, epoch, members, last committed impression. -/
structure Recover where
  source : Nat
  epoch : Nat
  mask : Nat
  last : Nat
deriving DecidableEq, Repr

/-- A running agreement (R528). -/
structure Agreement where
  e : Nat
  m : List Nat
  got : List Recover
deriving DecidableEq, Repr

/-- Where an impression stands (R315, R343 to R346, R356). -/
inductive Phase where
  | closed | openRosters | countRosters | running | closeRosters
deriving DecidableEq, Repr

/-- A step offered to a candidate at an opening. -/
structure Offer where
  handle : Nat
  kind : SlotKind
  width : Nat
  fresh : Nat
  narrowed : Bool
  isPrefix : Bool
  ready : Nat
deriving DecidableEq, Repr

/-- A ticket's completion waiting for the commit: its submission ring, opcode, tag, status, results, opening, and whether it writes
a record. -/
structure TicketDone where
  ring : Nat
  opcode : Nat
  tag : Nat
  status : Nat
  r0 : Nat
  r1 : Nat
  opening : Nat
  write : Bool
deriving DecidableEq, Repr

/-- The Compositor's state for one imprint. The fields from `leftNow` to `stallEvents` are what the opening of the impression in
flight decided and its commit makes good: candidates left out, those of them by R335, the chunking flag, sequences whose no-folio
stall begins, and their events. `spilling` holds the classes and tiers whose spill has not reached its high-water mark (R215).
`counts` holds the entries of QUERY pages 1 to 7 as the last commit left them (R474). -/
structure Serve where
  phase : Phase
  held : Option Nat
  drain : Option Nat
  drained : Bool
  drainEnds : Bool
  committed : Nat
  reqs : Sp (Option Req)
  gens : Sp Nat
  chunking : Bool
  prev : List Nat
  admits : Nat
  folios : Sp (Option Folio)
  pages : List TablePage
  adapters : Sp (Option AdapterVersion)
  adapterList : Option (List Nat)
  placement : Option Placement
  tensors : Sp (List (Nat × Nat))
  loading : List Nat
  t2bytes : Sp Byte
  rosters : List Roster
  offers : List Offer
  damage : List Damage
  events : List (List Byte)
  done : List TicketDone
  lateness : Sp Nat
  lagged : List Nat
  agreement : Option Agreement
  removed : List Nat
  lastReports : List (Nat × Nat)
  recovering : Bool
  recoverAt : Nat
  recoverUs : Nat
  newRemoved : List Nat
  retire : Bool
  leftNow : List Nat
  adStalls : Nat
  chunkNow : Bool
  stallNow : List Nat
  stallEvents : List (List Byte)
  lagWindow : Nat
  replies : List ReplySlot
  refusals : List (Nat × Nat)
  refused : List Nat
  arrivals : List Nat
  timingVoid : Nat
  begun : Bool
  stepped : Bool
  lastRing : Option Nat
  verNums : Sp Nat
  nextAdmit : Nat
  spilling : List (Nat × Nat)
  counts : List (List (Nat × Nat × Nat))
deriving DecidableEq, Repr

/-- A Compositor record for an imprint that a commit has just created. -/
def Serve.fresh : Serve :=
  { phase := .closed, held := none, drain := none, drained := false, drainEnds := false, committed := 0, reqs := [], gens := [], chunking := false,
    prev := [], admits := 0, folios := [], pages := [], adapters := [], adapterList := none, placement := none, tensors := [],
    loading := [], t2bytes := [], rosters := [], offers := [], damage := [], events := [], done := [], lateness := [],
    lagged := [], agreement := none, removed := [], lastReports := [], recovering := false, recoverAt := 0, recoverUs := 0,
    newRemoved := [], retire := false, leftNow := [],
    adStalls := 0, chunkNow := false, stallNow := [], stallEvents := [], lagWindow := 0, replies := [], refusals := [], refused := [], arrivals := [], timingVoid := 0,
    begun := false, stepped := false, lastRing := none, verNums := [], nextAdmit := 0, spilling := [], counts := [] }

/-- An imprint: what its edition gives it, its run state, its Compositor record, TEL_REPRO (R379), its operating wire
version W (R406), and the eight words of TEL_IMPRINT (R613). -/
structure Imprint where
  cfg : Option ImprintCfg
  run : Run
  serve : Serve
  step : Bool
  go : Bool
  report : Nat
  steps : Nat
  wire : Nat
  tel : List Nat
deriving DecidableEq, Repr

/-- An imprint number that no edition in force gives an entry. -/
def Imprint.absent : Imprint :=
  { cfg := none, run := Run.fresh, serve := Serve.fresh, step := false, go := false, report := 1, steps := 0,
    wire := 1, tel := [0, 0, 0, 0, 0, 0, 0, 0] }

/-! Rings and tickets (R451 to R463, R477). -/

/-- A ticket as fetched: its fields by R458 and R463 as bytes, the data its checks read, and the outcome of its checks so far. -/
structure Ticket where
  raw : List Byte
  data : List Byte
  image : List Byte
  status : Nat
deriving DecidableEq, Repr

/-- A ring in force: its entry, its indices, and the tickets fetched and not yet admitted. -/
structure Ring where
  entry : RingEntry
  faulted : Bool
  cons : BitVec 32
  prod : BitVec 32
  hostSeen : BitVec 32
  waiting : List Ticket
  backlog : List (List Byte)
  reserved : Nat
deriving DecidableEq, Repr

/-- An MSI-X table entry with its pending bit (R596, R605). -/
structure MsixEntry where
  addr : BitVec 64
  data : BitVec 32
  mask : Bool
  pending : Bool
deriving DecidableEq, Repr

/-- An MSI-X entry at reset: masked (PCI Express). -/
def MsixEntry.reset : MsixEntry := ⟨0, 0, true, false⟩

/-- One function's host side; `linkWait` holds between the host link's return and the imprint's next opening (R446). -/
structure Fn where
  tabBase : BitVec 64
  entries : Nat
  apply : Bool
  error : Bool
  errCode : Nat
  errEntry : Nat
  evtLost : BitVec 32
  lostSince : BitVec 32
  rings : Sp (Option Ring)
  newTable : Option (List (Option Ring))
  nudged : List Nat
  msix : Sp MsixEntry
  msixEnable : Bool
  msixMask : Bool
  linkWait : Bool
deriving DecidableEq, Repr

/-- A function at reset (R477). -/
def Fn.reset : Fn :=
  { tabBase := 0, entries := 0, apply := false, error := false, errCode := 0, errEntry := 0, evtLost := 0, lostSince := 0,
    rings := [], newTable := none, nudged := [], msix := [], msixEnable := false, msixMask := false, linkWait := false }

/-! Editions (R493 to R506, R514). -/

/-- An EDITION_STAGE under way (R493): the ring and tag of its ticket, its EDITION field, its image, and whether the discovery
timeout has passed (R404). -/
structure Staging where
  ring : Nat
  tag : Nat
  num : Nat
  image : Option Edition
  timedOut : Bool
deriving DecidableEq, Repr

/-- A commit or revert under way (R496 to R501). -/
inductive EdWork where
  | idle
  | rechecking (ring tag : Nat) (revert : Bool)
  | draining (ring tag : Nat) (revert : Bool) (image : Edition) (minors : List Edition)
  | applying (ring tag : Nat) (revert : Bool) (carried created : Nat) (other : Nat)
deriving DecidableEq, Repr

/-- The editions: in force, kept, staged, a minor one pending with the ring and tag of its ticket; one that has
applied and waits for the commit of its imprint, with that ring and tag; FENCE tickets of the PF that
wait for earlier tickets of their ring; the core map in force and cores lost since the last major commit. -/
structure Editions where
  inForce : Option Edition
  minors : List Edition
  number : Nat
  kept : Option Edition
  keptMinors : List Edition
  keptNumber : Nat
  staged : Option Edition
  stage : Option Staging
  pendingMinor : Option (Edition × Nat × Nat)
  minorDone : Option (Nat × Nat × Nat)
  work : EdWork
  fences : List (Nat × Nat)
  coreMap : List Nat
  disabled : List Nat
deriving DecidableEq, Repr

end Sys2Proof.Machine
end

