-- ==== Sys2Proof/Machine/LinkParts.lean ====
section
/-!
DEFINITION. The parts of the state that belong to the Tiltil ports and the fabric, and what the block sends out.
-/
namespace Sys2Proof.Machine

open Sys2Proof

/-- The states of a port (R399). -/
inductive PortState where
  | off | detect | train | lock | hello | up | held | retrain
deriving DecidableEq, Repr

/-- STATE codes (R415). -/
def PortState.code : PortState → Nat
  | .off => 0 | .detect => 1 | .train => 2 | .lock => 3 | .hello => 4 | .up => 5 | .held => 6 | .retrain => 7

/-- A packet ready at an output port, with the source it waits under: an input port, or 20 for the local queues (R398). -/
structure Ready where
  source : Nat
  p : Packet
deriving DecidableEq, Repr

/-- One Tiltil port: its state and status (R415), its sender and receiver of the link layer (R392 to R398), its counters, a
HELLO and whole pools that wait to be sent (`poolOwed`: not returned since HELLO was last entered), packets to send again, in
RETRAIN which of TRAIN, LOCK and HELLO runs, and the imprints to be told of a STATE change at their next commit (R416). -/
structure Port where
  state : PortState
  reason : Nat
  wire : Nat
  peer : Nat
  peerKind : Nat
  peerPort : Nat
  peerPlane : Nat
  en : Bool
  loopback : Bool
  lastHello : Option Hello
  before : Option Hello
  helloSent : Bool
  helloGot : Bool
  missing : Bool
  nextSeq : Nat
  unacked : List Packet
  credit : List Nat
  replays : Nat
  ready : List Ready
  served : List Nat
  expect : Nat
  nakSent : Bool
  freed : List Nat
  changed : Bool
  count : List Nat
  helloDue : Bool
  poolDue : Bool
  toReplay : List Packet
  substate : Nat
  poolOwed : Bool
  news : List Nat
deriving DecidableEq, Repr

/-- A port at reset (R415). -/
def Port.reset : Port :=
  { state := .detect, reason := 0, wire := 0, peer := 0, peerKind := 0, peerPort := 0, peerPlane := 0xFFFF, en := true,
    loopback := false, lastHello := none, before := none, helloSent := false, helloGot := false, missing := false, nextSeq := 0,
    unacked := [], credit := [0, 0, 0, 0, 0], replays := 0, ready := [], served := [20, 20], expect := 0, nakSent := false,
    freed := [0, 0, 0, 0, 0], changed := false, count := [0, 0, 0, 0, 0, 0, 0, 0],
    helloDue := false, poolDue := false, toReplay := [], substate := 0, poolOwed := false, news := [] }

/-- An operation outstanding at its source (R430 to R432): its request, how often it was sent, and what its reply is for;
`morgue` names the folio, and the offset in its copy, of an operation on a lent region (R251). -/
structure Outst where
  req : Request
  sends : Nat
  core : Nat
  job : Nat
  dst : Nat
  src : Nat
  roster : Bool
  morgue : Option (Nat × Nat)
deriving DecidableEq, Repr

/-- A source stream: source imprint, target package, generation, next number, what is outstanding and what waits (R429). -/
structure OutStream where
  imprint : Nat
  target : Nat
  sgen : BitVec 32
  next : BitVec 32
  dead : Bool
  holdoff : Bool
  outstanding : List Outst
  waiting : List Outst
deriving DecidableEq, Repr

/-- How far a request has come at its target (R431). -/
inductive EntryState where
  | held | queued
  | done (status : Nat) (result : BitVec 64)
deriving DecidableEq, Repr

/-- A replay-table entry (R431), with the request's packet while it is not done. -/
structure Entry where
  eseq : BitVec 32
  port : Nat
  p : Packet
  state : EntryState
deriving DecidableEq, Repr

/-- A replay table (R431, R433, R434): below `base` every number is complete. -/
structure InStream where
  source : Nat
  imprint : Nat
  sgen : BitVec 32
  base : BitVec 32
  highest : Option (BitVec 32)
  entries : List Entry
  lastAt : Nat
deriving DecidableEq, Repr

/-- An operation in a channel's fabric window queue (R246, R440), by the stream it came on and its number, with the input port
and pool that wait for its space while the queue is full. -/
structure T1Op where
  source : Nat
  imprint : Nat
  eseq : BitVec 32
  owed : Option (Nat × Nat × Nat)
deriving DecidableEq, Repr

/-- The fabric: location (R401), streams both ways, T1 queues, open bay gates (R277), resets left and generations passed (R429),
the ports usable for transit since the last impression boundary (R404), and packets
for the package itself (R410). -/
structure Fabric where
  endpoint : Nat
  valid : Bool
  streams : List OutStream
  tables : List InStream
  t1q : Sp (List T1Op)
  gates : List (Nat × Nat × Nat)
  boots : Nat
  gens : Nat
  transit : List Nat
  loop : List Packet
deriving DecidableEq, Repr

/-- The fabric at reset. -/
def Fabric.reset : Fabric := ⟨0, false, [], [], [], [], 0, 0, [], []⟩

/-- What the block sends out, in the order it is sent. -/
inductive Emission where
  | packet (port : Nat) (p : Packet)
  | hostWrite (fn addr : Nat) (bytes : List Byte)
  | msix (fn vector addr data : Nat)
  | doe (bytes : List Byte)
  | i3c (bytes : List Byte)
  | coreLine (ccore : Nat) (level : Bool)
  | supply (millivolts : Nat)
  | flash (bytes : List Byte)
  | alert (name : Nat) (level : Bool)
deriving DecidableEq, Repr

end Sys2Proof.Machine
end

