-- ==== Sys2Proof/Machine/PlatformParts.lean ====
section
/-!
DEFINITION. The parts of the state that belong to the package as a whole: power and heat, clocks and boot, the Colophon, SPDM,
I3C, the interrupt controller, the global registers.
-/
namespace Sys2Proof.Machine

open Sys2Proof

/-! Power (R535 to R561). Watts of the effective cap are held in hundredths. -/

/-- Rest and its request (R536, R537). -/
inductive RestState where
  | run | entering | rest
deriving DecidableEq, Repr

/-- A core's margin registers (R556, R557, R560). -/
structure Margin where
  margin : Int
  predicted : Int
  proposal : Nat
  value : Nat
  samples : Nat
deriving DecidableEq, Repr

/-- The power state. The estimate's terms and the measured power are in milliwatts, the correction K and the ramp allowance in 64ths
of one; `readings` are the totals of the last 1 ms, `overRun` counts samples in a row above the cap; `level` is the limiter's own
level, to which Floor, the thermal ceiling, a thermal hold and Rest apply (R545, R548, R552, R554). -/
structure Power where
  target : Nat
  cap : Nat
  rampUp : Nat
  rampDown : Nat
  level : Nat
  allowance : Nat
  lth : Nat
  kTrim : Int
  pFixed : Nat
  pLink : Nat
  pMem : Nat
  pCore : Nat
  trimmed : Bool
  capUnmet : Bool
  measured : Nat
  readings : List Nat
  overRun : Nat
  vrLow : Bool
  brkLow : Bool
  causes : Nat
  tj : Nat
  sensor : Nat
  sensors : Sp Nat
  hold : Bool
  timer : Bool
  orphaned : Bool
  req : Bool
  refused : Bool
  rest : RestState
  setpoint : Nat
  margins : Sp Margin
  monitors : Sp Nat
  rates : Sp Nat
  events : List (List Byte)
deriving DecidableEq, Repr

/-- A core's margins before any fit. -/
def Margin.none : Margin := ⟨0, 0, 0, 0, 0⟩

/-- Power at reset (R560). -/
def Power.reset : Power :=
  { target := 2600, cap := 260000, rampUp := 50, rampDown := 50, level := 64,
    allowance := 0, lth := 64, kTrim := 0, pFixed := 0, pLink := 0, pMem := 0, pCore := 0, trimmed := false, capUnmet := false,
    measured := 0, readings := [], overRun := 0, vrLow := false, brkLow := false, causes := 0, tj := 0, sensor := 0, sensors := [],
    hold := false, timer := false, orphaned := false, req := false, refused := false, rest := .run, setpoint := 0,
    margins := [], monitors := [], rates := [], events := [] }

/-! Clocks, reset, boot, Colophon (R562 to R586). -/

/-- STAGE of SEC_BOOT. -/
inductive Stage where
  | rom | loading | mailbox | running | updating
deriving DecidableEq, Repr

/-- STAGE codes (R586). -/
def Stage.code : Stage → Nat
  | .rom => 0 | .loading => 1 | .mailbox => 2 | .running => 3 | .updating => 4

/-- Reset inputs, boot state and the Colophon's measurements. -/
structure Boot where
  powerGood : Bool
  perstN : Bool
  coolOk : Bool
  released : Bool
  entropyGood : Bool
  slotId : Nat
  sysRefOk : Bool
  rootLock : Bool
  pcieRefOk : Bool
  stage : Stage
  ran : Bool
  source : Nat
  error : Nat
  fwVersion : Nat
  svn : Nat
  svnFused : Nat
  keyIndex : Nat
  imgAddr : Nat
  imgLen : Nat
  busy : Bool
  commitSvn : Bool
  meas : List (BitVec 384)
  log : List (Nat × BitVec 384)
  keySlots : Sp Nat
  drbg : Nat
  reseeds : Nat
deriving DecidableEq, Repr

/-- A measurement extended with a digest (R582). -/
def extendMeas (m d : BitVec 384) : BitVec 384 := Config.sha384 (leBytes 48 m.toNat ++ leBytes 48 d.toNat)

/-- The digest of the fuse state: KEY_INDEX, KEY_REVOKE, SVN_COUNT and DEBUG_LOCK, one byte each (R582; log 65). -/
def fuseDigest (svnFused : Nat) : BitVec 384 :=
  Config.sha384 (leBytes 1 0 ++ leBytes 1 (bit (Config.keyRevoked 0) + 2 * bit (Config.keyRevoked 1) + 4 * bit (Config.keyRevoked 2)
    + 8 * bit (Config.keyRevoked 3)) ++ leBytes 1 svnFused ++ leBytes 1 (bit Config.debugLock))

/-- Measurements right after release: the boot ROM and the fuse state have been extended (R582). -/
def releaseMeas (svnFused : Nat) : List (BitVec 384) :=
  [extendMeas 0 Config.romDigest, extendMeas 0 (fuseDigest svnFused), 0, 0, 0, 0]

/-- The attestation log right after release (R582). -/
def releaseLog (svnFused : Nat) : List (Nat × BitVec 384) := [(1, Config.romDigest), (2, fuseDigest svnFused)]

/-- Boot right after release, with every reset input high. -/
def Boot.reset : Boot :=
  { powerGood := true, perstN := true, coolOk := true, released := true, entropyGood := true, slotId := 0, sysRefOk := true,
    rootLock := true, pcieRefOk := true, stage := .rom, ran := false, source := 0, error := 0, fwVersion := 0, svn := 0,
    svnFused := 0, keyIndex := 0, imgAddr := 0, imgLen := 0, busy := false, commitSvn := false, meas := releaseMeas 0,
    log := releaseLog 0, keySlots := [], drbg := 0, reseeds := 0 }

/-- The SPDM responder's state (R583, R584). -/
structure Spdm where
  version : Bool
  caps : Bool
  algs : Bool
  answered : Nat
  transcript : List Byte
  handshake : Bool
  session : Bool
  keyUpdates : Nat
  signed : Option (List Byte)
  ideKeys : List (List Byte)
  ideActive : Bool
deriving DecidableEq, Repr

/-- SPDM at reset. -/
def Spdm.reset : Spdm :=
  { version := false, caps := false, algs := false, answered := 0, transcript := [], handshake := false, session := false,
    keyUpdates := 0, signed := none, ideKeys := [], ideActive := false }

/-- The I3C target (R609, R622). -/
structure I3cTarget where
  addr : Option (BitVec 7)
  pointer : Nat
  answered : Nat
deriving DecidableEq, Repr

/-- The I3C target at reset. -/
def I3cTarget.reset : I3cTarget := ⟨none, 0, 0⟩

/-! The interrupt controller (R587 to R602). Sets of sources are held as 1,024-bit numbers. -/

/-- The interrupt controller; `restSeen` is a write ignored in the present Rest, shown as REST_WRITE from the wake (R600). -/
structure Icu where
  en : Nat
  pend : Nat
  prev : Nat
  routes : Sp Nat
  lines : Nat
  restWrite : Bool
  restSeen : Bool
  msixOff : Bool
  offSource : Nat
  wake : Nat
deriving DecidableEq, Repr

/-- The interrupt controller at reset: COOL_OK is high (R602). -/
def Icu.reset : Icu :=
  { en := 0, pend := 0, prev := 2, routes := [], lines := 0, restWrite := false, restSeen := false, msixOff := false, offSource := 0, wake := 0 }

/-- GLB_FATAL's cause, Compositor core and edition (R532), and the scratch register (R611). -/
structure Glb where
  cause : Nat
  ccore : Nat
  edition : Nat
  scratch : BitVec 64
deriving DecidableEq, Repr

/-- The LPDDR5X side (R612): trained at boot, and the channels that failed. -/
structure Mem where
  ready : Bool
  failed : List Nat
deriving DecidableEq, Repr

end Sys2Proof.Machine
end

