-- ==== Sys2Proof/Machine/State.lean ====
section
/-!
DEFINITION. The whole state, its reset, and why a step stops.
-/
namespace Sys2Proof.Machine

open Sys2Proof

/-- The faults of the machine. -/
inductive Fault where
  /-- Raised by no command: the spec stops the LQ7 only by R531, which is a state the machine goes on from (PERST_N leaves it).
  Safe: nothing stops. -/
  | unreachable
deriving DecidableEq, Repr

/-- Why a command is refused. -/
inductive Refusal where
  /-- Raised by `exec` for a command whose meaning is not written. Safe: nothing is claimed of it. -/
  | notModelled (mnemonic : String)
deriving DecidableEq, Repr

/-- The state of the LQ7. -/
structure State where
  /-- Commands that wait, first in, first out. -/
  pending : List Instr
  /-- The ISSUE-cycle counter (R538, GLB_TIME). -/
  cycle : Nat
  /-- How many free values have been drawn (the model's own). -/
  draws : Nat
  /-- Case (R222 to R233). -/
  t0 : Case
  /-- Cabinet, by channel (R234 to R250). -/
  t1 : Sp Channel
  /-- Logical cores. -/
  cores : Sp Core
  /-- Imprints. -/
  imprints : Sp Imprint
  /-- Functions: 0 the PF, i + 1 the VF of imprint i. -/
  fns : Sp Fn
  /-- Editions and the core map in force. -/
  ed : Editions
  /-- Reports of damage waiting for the Compositor (R254). -/
  reports : List Report
  /-- STOPPED of GLB_FATAL (R531, R532). -/
  stopped : Bool
  /-- LINK_DEGRADED of HIF_CFG (R446). -/
  degraded : Bool
  /-- POLL of HIF_CFG (R477). -/
  poll : Nat
  /-- Tiltil ports. -/
  ports : Sp Port
  /-- The fabric. -/
  fab : Fabric
  /-- WIRE_MAX of the firmware in force (R405, R571). -/
  wireMax : Nat
  /-- WIRE_MIN of the firmware in force. -/
  wireMin : Nat
  /-- Causes of R521 met and not yet acted on: imprint, code, subject. -/
  causes : List (Nat × Nat × Nat)
  /-- Power, heat, ageing. -/
  power : Power
  /-- Clocks, resets, boot, Colophon. -/
  boot : Boot
  /-- The SPDM responder. -/
  spdm : Spdm
  /-- The I3C target. -/
  i3c : I3cTarget
  /-- The interrupt controller. -/
  icu : Icu
  /-- Global registers. -/
  glb : Glb
  /-- LPDDR5X training. -/
  mem : Mem
  /-- When each physical core last met a fault of causes 4 and 5: the count of committed impressions then, plus one (R524). -/
  coreFaults : Sp Nat
  /-- Logical cores that have met a second such fault and wait to be replaced, with the cause (R524, R525). -/
  lostCores : List (Nat × Nat)
  /-- What has left the block, in order. -/
  out : List Emission
deriving DecidableEq, Repr

/-- The state right after release (R567), with every reset input high and no command waiting. -/
def State.reset : State :=
  { pending := [], cycle := 0, draws := 0, t0 := Case.empty, t1 := [], cores := [], imprints := [], fns := [],
    ed := ⟨none, [], 0, none, [], 0, none, none, none, none, .idle, [], (List.range 208).map shippedCore, []⟩, reports := [],
    stopped := false, degraded := false, poll := 20, ports := [], fab := Fabric.reset, wireMax := 1, wireMin := 1, causes := [],
    power := { Power.reset with setpoint := Config.vFuse.toNat }, boot := Boot.reset, spdm := Spdm.reset,
    i3c := I3cTarget.reset, icu := Icu.reset, glb := ⟨0, 0, 0, 0⟩, mem := ⟨false, []⟩, coreFaults := [],
    lostCores := [], out := [] }

end Sys2Proof.Machine
end

