-- ==== Sys2Proof/Machine/Ops.lean ====
section
/-!
DEFINITION. The named operations over cores, imprints and T0: accessors, rights, coded reads and writes, counts.
-/
namespace Sys2Proof.Machine

open Sys2Proof

/-! The issue level (R535, R538, R548, R552, R554). -/

/-- L in force: 0 in Rest and in a thermal hold, 4 in Floor, else the lesser of the limiter's level and the thermal ceiling. -/
def State.issueLevel (s : State) : Nat :=
  if s.power.rest = .rest || s.power.hold then 0 else if s.power.causes ≠ 0 then 4 else min s.power.level s.power.lth

/-! Accessors. -/

/-- A logical core. -/
def State.core (s : State) (c : Nat) : Core := spGet Core.empty s.cores c

/-- Change a logical core. -/
def State.modCore (s : State) (c : Nat) (f : Core → Core) : State := { s with cores := spMod Core.empty s.cores c f }

/-- An imprint. -/
def State.imp (s : State) (i : Nat) : Imprint := spGet Imprint.absent s.imprints i

/-- Change an imprint. -/
def State.modImp (s : State) (i : Nat) (f : Imprint → Imprint) : State :=
  { s with imprints := spMod Imprint.absent s.imprints i f }

/-- Change an imprint's run state. -/
def State.modRun (s : State) (i : Nat) (f : Run → Run) : State := s.modImp i fun m => { m with run := f m.run }

/-- Change an imprint's Compositor record. -/
def State.modServe (s : State) (i : Nat) (f : Serve → Serve) : State := s.modImp i fun m => { m with serve := f m.serve }

/-- Change a folio. -/
def State.modFolio (s : State) (i id : Nat) (f : Folio → Folio) : State :=
  s.modServe i fun v => { v with folios := spPut none v.folios id ((spGet none v.folios id).map f) }

/-- A function (0 the PF, i + 1 the VF of imprint i). -/
def State.fn (s : State) (f : Nat) : Fn := spGet Fn.reset s.fns f

/-- Change a function. -/
def State.modFn (s : State) (f : Nat) (g : Fn → Fn) : State := { s with fns := spMod Fn.reset s.fns f g }

/-- Raise a count of an imprint. -/
def State.count (s : State) (i : Nat) (c : Ctr) (n : Nat) : State :=
  if n = 0 then s else s.modRun i fun r => { r with counters := ctrAdd r.counters c n }

/-- The imprints with an entry in the edition in force, ascending. -/
def State.imprintList (s : State) : List Nat := (List.range 16).filter fun i => (s.imp i).cfg.isSome

/-- The imprint that holds a logical core (R488). -/
def State.imprintOf (s : State) (c : Nat) : Option Nat :=
  s.imprintList.find? fun i => match (s.imp i).cfg with | some g => g.cores.contains c | none => false

/-- The imprint that holds a T1 channel (R234). -/
def State.channelOwner (s : State) (ch : Nat) : Option Nat :=
  s.imprintList.find? fun i => match (s.imp i).cfg with | some g => g.channels.contains ch | none => false

/-- Tell the Compositor of damage, once per place and imprint while it waits (R255). -/
def State.report (s : State) (r : Report) : State :=
  if s.reports.contains r then s else { s with reports := s.reports ++ [r] }

/-! T0 addresses and rights (R222, R224). -/

/-- The CORE field of a T0 address. -/
def t0Core (a : Nat) : Nat := bitsOf a 33 26

/-- The OFFSET field of a T0 address. -/
def t0Off (a : Nat) : Nat := bitsOf a 25 0

/-- A T0 address from its fields. -/
def t0Addr (core off : Nat) : Nat := 2 ^ 26 * core + off

/-- Is the address in a reserve part? -/
def isReserve (a : Nat) : Bool := decide (0xF0 ≤ t0Core a) && decide (t0Core a ≤ 0xF3)

/-- Does a T0 address exist? -/
def t0Exists (a : Nat) : Bool :=
  decide (a < 2 ^ 34) && ((decide (t0Core a < 192) && decide (t0Off a < 0x3000000)) || isReserve a)

/-- Is a near slice usable: does an active physical core stand above it (R27)? -/
def State.sliceOn (s : State) (c : Nat) : Bool := s.ed.coreMap.contains c

/-- Does an imprint hold the near slice of an address, with an active core above it (R27, R224)? -/
def State.ownSlice (s : State) (i a : Nat) : Bool :=
  s.sliceOn (t0Core a) && match (s.imp i).cfg with | some g => g.cores.contains (t0Core a) | none => false

/-- A core of imprint `i` may read: its imprint's near slices and the reserve parts. -/
def State.mayRead (s : State) (i a : Nat) : Bool := t0Exists a && (isReserve a || s.ownSlice i a)

/-- The reserve-part bytes that the draft group fills (R349, R350; log 22): token and draft lists of draft and tree slots. -/
def State.draftArea (s : State) (i a : Nat) : Bool :=
  (t0Core a == 0xF0 || t0Core a == 0xF2) && (s.imp i).run.manifest.any fun t =>
    (t.kind == .draft || t.kind == .tree) &&
      ((decide (t.tokensAt ≤ t0Off a) && decide (t0Off a < t.tokensAt + 4 * t.fresh))
        || (decide (t.draftsAt ≤ t0Off a) && decide (t0Off a < t.draftsAt + 8 * 1024 * t.fresh)))

/-- A core of imprint `i` may write: its imprint's near slices (R224). -/
def State.mayWrite (s : State) (i a : Nat) : Bool :=
  t0Exists a && (s.ownSlice i a || s.draftArea i a)

/-- May a core of imprint `i` read `n` bytes from `a`? A range never runs from one near slice into another. -/
def State.mayReadAll (s : State) (i a n : Nat) : Bool :=
  s.mayRead i a && s.mayRead i (a + n - 1) && (t0Core a == t0Core (a + n - 1) || (isReserve a && isReserve (a + n - 1)))

/-- May a core of imprint `i` write `n` bytes from `a`? -/
def State.mayWriteAll (s : State) (i a n : Nat) : Bool :=
  s.mayWrite i a && s.mayWrite i (a + n - 1)
    && (if isReserve a then (List.range n).all fun k => s.mayWrite i (a + k) else t0Core a == t0Core (a + n - 1))

/-! Coded T0 (R230 to R232, R254). -/

/-- Flipped bits in one 64-bit word. -/
def State.flipsAt (s : State) (w : Nat) : Nat := ((s.t0.flips.find? fun x => x.1 == w).map (·.2)).getD 0

/-- Words of a 256 B line. -/
def lineWords (l : Nat) : List Nat := (List.range 32).map (32 * l + ·)

/-- Does either code detect an error it cannot correct in the line? -/
def State.lineBad (s : State) (l : Nat) : Bool := (lineWords l).any fun w => decide (2 ≤ s.flipsAt w)

/-- Words of the line that the inner code corrects. -/
def State.lineFixes (s : State) (l : Nat) : Nat := ((lineWords l).filter fun w => s.flipsAt w == 1).length

/-- Lines that bytes from `a` touch. -/
def linesOf (a n : Nat) : List Nat :=
  if n = 0 then [] else (List.range ((a + n - 1) / 256 - a / 256 + 1)).map (a / 256 + ·)

/-- The imprint whose data stands at a T0 address: the core's, else 16 for the Compositor's. -/
def State.ownerImprint (s : State) (a : Nat) : Nat := (s.imprintOf (t0Core a)).getD 16

/-- Report a line as uncorrectable and count it. -/
def State.badLine (s : State) (l : Nat) : State :=
  let c := t0Core (256 * l)
  { s with t0 := { s.t0 with uncorrectable := spMod 0 s.t0.uncorrectable c fun n => wrapAdd 32 n 1 } }.report
    ⟨s.ownerImprint (256 * l), .t0 (256 * l), 0x0300, none⟩

/-- Count a corrected read of a line (R231). -/
def State.fixCount (s : State) (l : Nat) : State :=
  if s.lineFixes l = 0 then s else
  { s with t0 := { s.t0 with corrected := spMod 0 s.t0.corrected (t0Core (256 * l)) fun k => wrapAdd 32 k 1 } }

/-- What one line's read delivers: its bytes or 256 zeros, and the counts and report (R231). -/
def State.touchLine (s : State) (l : Nat) : State := if s.lineBad l then s.badLine l else s.fixCount l

/-- Read T0 bytes through the codes. -/
def State.t0Read (s : State) (a n : Nat) : List Byte × State :=
  let ls := linesOf a n
  let raw := memRead s.t0.bytes a n
  let bad := ls.filter s.lineBad
  let out := if bad.isEmpty then raw else raw.zipIdx.map fun x => if bad.contains ((a + x.2) / 256) then 0#8 else x.1
  (out, ls.foldl State.touchLine s)

/-- Drop the flips of a line: its codes are written afresh. -/
def State.freshLine (s : State) (l : Nat) : State :=
  { s with t0 := { s.t0 with flips := s.t0.flips.filter fun x => x.1 / 32 != l } }

/-- A line about to be written from `a` for `n` bytes: a partial write of an uncorrectable line zeros the rest and reports it
(R232). -/
def State.prepLine (s : State) (a n l : Nat) : State :=
  let whole := decide (a ≤ 256 * l) && decide (256 * l + 256 ≤ a + n)
  if whole then s.freshLine l
  else if s.lineBad l then
    let s := s.badLine l
    { s with t0 := { s.t0 with bytes := memWrite s.t0.bytes (256 * l) (List.replicate 256 0#8) } }.freshLine l
  else (s.fixCount l).freshLine l

/-- Write T0 bytes with their codes. -/
def State.t0Write (s : State) (a : Nat) (bs : List Byte) : State :=
  let s := (linesOf a bs.length).foldl (fun s l => s.prepLine a bs.length l) s
  { s with t0 := { s.t0 with bytes := memWrite s.t0.bytes a bs } }

/-- A core's read: outside its imprint's rights it delivers zeros (R225). The answer says whether it was inside. -/
def State.coreRead (s : State) (i a n : Nat) : List Byte × Bool × State :=
  if n = 0 then ([], true, s)
  else if s.mayReadAll i a n then let r := s.t0Read a n; (r.1, true, r.2)
  else (List.replicate n 0#8, false, s)

/-- A core's write: outside its imprint's rights it is dropped (R225). -/
def State.coreWrite (s : State) (i a : Nat) (bs : List Byte) : Bool × State :=
  if bs.isEmpty then (true, s)
  else if s.mayWriteAll i a bs.length then (true, s.t0Write a bs)
  else (false, s)

/-- FP32 patterns of bytes. -/
def f32s (bs : List Byte) : List F32 := (chunks 4 bs).map fun c => BitVec.ofNat 32 (ofLeBytes c)

/-- u32 values of bytes. -/
def u32s (bs : List Byte) : List Nat := (chunks 4 bs).map ofLeBytes

/-- The bytes of FP32 patterns. -/
def f32Bytes (xs : List F32) : List Byte := xs.flatMap fun x => leBytes 4 x.toNat

/-- The bytes of u32 values. -/
def u32Bytes (xs : List Nat) : List Byte := xs.flatMap (leBytes 4)

end Sys2Proof.Machine
end

