-- ==== Sys2Proof/Machine/Operands.lean ====
section
/-!
DEFINITION. Operand forms: the fields of command records (R296, R299 to R308), the rows of the batch, and reading and writing
tensors in T0, plain or as slugs.
-/
namespace Sys2Proof

open Sys2Proof.Machine

/-! Fields of a descriptor (R490). -/

/-- The element format of a descriptor. -/
def TensorDesc.fmt (d : TensorDesc) : Elem := (Elem.ofCode d.elem).getD .fp32

/-- The block-scale format of a descriptor. -/
def TensorDesc.sf (d : TensorDesc) : Scale := (Scale.ofCode d.scale).getD .none

/-- Is the tensor stored as a slug run (R490)? -/
def TensorDesc.slugged (d : TensorDesc) : Bool := bitOf d.flags 0

/-- Bytes of one row of elements. -/
def TensorDesc.rowBytes (d : TensorDesc) : Nat := d.fmt.bytes d.k

/-- Bytes of the plain element region. -/
def TensorDesc.elemBytes (d : TensorDesc) : Nat := d.rows * d.rowBytes

/-- Is the tensor shared by the imprint: a weight, plate or shadow weight (R490, R520)? -/
def TensorDesc.shared (d : TensorDesc) : Bool := d.cls != 2

end Sys2Proof

namespace Sys2Proof.Machine

open Sys2Proof

/-! Records (R296). A record is read as one natural, byte 0 least significant (R10). -/

/-- Bytes `lo` to `hi` of a record. -/
def recBytes (r : BitVec 512) (lo hi : Nat) : Nat := bitsOf r.toNat (8 * hi + 7) (8 * lo)

/-- R296's header. -/
structure CmdHead where
  opcode : Nat
  queue : Nat
  chain : Bool
  waitEn : Bool
  waitCtr : Nat
  waitVal : Nat
  sigEn : Bool
  sigCtr : Nat
  job : Nat
deriving DecidableEq, Repr

/-- The header of a record. -/
def cmdHead (r : BitVec 512) : CmdHead :=
  let h := r.toNat
  ⟨bitsOf h 7 0, bitsOf h 9 8, bitOf h 10, bitOf h 11, bitsOf h 16 12, bitsOf h 32 17, bitOf h 33, bitsOf h 38 34,
   bitsOf h 41 39⟩

/-- R301's body. -/
structure MatrixBody where
  wDesc : Nat
  aDesc : Nat
  wCol : Nat
  wK : Nat
  m : Nat
  passes : Nat
  n : Nat
  accBase : Nat
  half : Nat
  cont : Bool
  write : Bool
  down : Bool
  firstDown : Bool
  up : Bool
  outFmt : Nat
  outSf : Nat
  watch : Nat
  outFactor : F32
  outScale : F32
  outAddr : Nat
  plate : Nat
  downLo : Nat
  downLen : Nat
  aMax : Nat
  aOff : Nat
deriving DecidableEq, Repr

/-- Fields of a MATRIX record. -/
def matrixBody (r : BitVec 512) : MatrixBody :=
  let b := recBytes r
  let mode := b 32 32
  { wDesc := b 8 9, aDesc := b 10 11, wCol := b 12 15, wK := b 16 19, m := b 20 21, passes := b 22 23, n := b 24 27,
    accBase := b 28 31, half := bit (bitOf mode 0), cont := bitOf mode 1, write := bitOf mode 2, down := bitOf mode 3,
    firstDown := bitOf mode 4, up := bitOf mode 5, outFmt := b 33 33, outSf := b 34 34, watch := b 35 35,
    outFactor := BitVec.ofNat 32 (b 36 39), outScale := BitVec.ofNat 32 (b 40 43), outAddr := b 44 51 % 2 ^ 34,
    plate := b 52 53, downLo := 8 * b 54 54, downLen := 8 * b 55 55, aMax := b 56 56, aOff := 256 * b 57 58 }

/-- R303's body. -/
structure LoadBody where
  src : Nat
  desc : Nat
  rows : Nat
  k0 : Nat
  kLen : Nat
  half : Nat
  off : Nat
deriving DecidableEq, Repr

/-- Fields of a LOAD record. -/
def loadBody (r : BitVec 512) : LoadBody :=
  let b := recBytes r
  ⟨b 8 15 % 2 ^ 34, b 16 17, b 18 19, b 20 23, b 24 27, b 28 28 % 2, 256 * b 30 31⟩

/-- R304's body. -/
structure AttendBody where
  seq : Nat
  layer : Nat
  head : Nat
  h0 : Nat
  rows : Nat
  e : Nat
  cont : Bool
  final : Bool
  window : Bool
  document : Bool
  tree : Bool
  silent : Bool
  farCore : Nat
  outFmt : Nat
  outSf : Nat
  farMask : Nat
  c : F32
  outFactor : F32
  qOff : Nat
  freshOff : Nat
  nF : Nat
  stateRow : Nat
  segOff : Nat
  parOff : Nat
  outOff : Nat
  shard : Nat
deriving DecidableEq, Repr

/-- Fields of an ATTEND record. -/
def attendBody (r : BitVec 512) : AttendBody :=
  let b := recBytes r
  let f := b 19 19
  { seq := b 8 9, layer := b 10 11, head := b 12 13, h0 := b 14 15, rows := b 16 17, e := b 18 18, cont := bitOf f 0,
    final := bitOf f 1, window := bitOf f 2, document := bitOf f 3, tree := bitOf f 4, silent := bitOf f 5,
    farCore := b 20 20, outFmt := b 21 21, outSf := b 22 22, farMask := b 24 27, c := BitVec.ofNat 32 (b 28 31),
    outFactor := BitVec.ofNat 32 (b 32 35), qOff := b 36 39, freshOff := b 40 43, nF := b 44 45, stateRow := b 46 47,
    segOff := b 48 51, parOff := b 52 55, outOff := b 56 59, shard := b 60 61 }

/-- R306's body. -/
structure MergeBody where
  stateRow : Nat
  rows : Nat
  right : Nat
  final : Bool
  outFmt : Nat
  outSf : Nat
  outFactor : F32
  outOff : Nat
  layer : Nat
deriving DecidableEq, Repr

/-- Fields of a MERGE record. -/
def mergeBody (r : BitVec 512) : MergeBody :=
  let b := recBytes r
  ⟨b 8 9, b 10 11, b 12 15, bitOf (b 16 16) 1, b 17 17, b 18 18, BitVec.ofNat 32 (b 20 23), b 24 27, b 28 29⟩

/-- R307's body. -/
structure VectorBody where
  srcA : Nat
  srcB : Nat
  dst : Nat
  n : Nat
  subop : Nat
  inFmt : Nat
  outFmt : Nat
  outSf : Nat
  key : Nat
  k : Nat
  imm : F32
  outFactor : F32
  cap : Nat
  aux : Nat
deriving DecidableEq, Repr

/-- Fields of a VECTOR record. -/
def vectorBody (r : BitVec 512) : VectorBody :=
  let b := recBytes r
  ⟨b 8 15 % 2 ^ 34, b 16 23 % 2 ^ 34, b 24 31 % 2 ^ 34, b 32 35, b 36 37, b 38 38, b 39 39, b 40 40, b 41 41, b 42 43,
   BitVec.ofNat 32 (b 44 47), BitVec.ofNat 32 (b 48 51), b 52 55, b 56 59⟩

/-- R308's body. SRC and DST keep all 64 bits: a remote address is one of R421. -/
structure ChaseBody where
  src : Nat
  dst : Nat
  bytes : Nat
  count : Nat
  op : Nat
  size : Nat
  index : Nat
  endpoint : Nat
  operand : Nat
  compare : Nat
  planFirst : Nat
  wclass : Nat
deriving DecidableEq, Repr

/-- Fields of a CHASE record. -/
def chaseBody (r : BitVec 512) : ChaseBody :=
  let b := recBytes r
  ⟨b 8 15, b 16 23, b 24 27, b 28 29, b 30 30, b 31 31, b 32 35, b 36 39 % 2 ^ 18, b 40 47, b 48 55, b 56 59, b 60 60⟩

/-! Rows of the batch (R332, R338; log 21). -/

/-- The slot whose rows hold batch row `r`, when a token stands on that row. -/
def slotOfRow (m : List Slot) (r : Nat) : Option Nat :=
  (indexes (fun t => t.kind != .empty && decide (t.row0 ≤ r) && decide (r < t.row0 + t.fresh)) m).head?

/-- A slot of the manifest by number. -/
def slotAt (m : List Slot) (i : Nat) : Option Slot := (m[i]?).bind fun t => if t.kind == .empty then none else some t

/-- A node's depth under a parent vector, by fuel (R169). -/
def depthOf (par : List Nat) : Nat → Nat → Nat
  | 0, _ => 1
  | n + 1, i => if i = 0 then 1 else 1 + depthOf par n (par.getD i 0)

/-- R169's conditions on a parent vector. -/
def parentsValid (par : List Nat) : Bool :=
  decide (1 ≤ par.length) && decide (par.length ≤ 64) && par.getD 0 0 == 0xFF
    && (par.zipIdx.drop 1).all (fun x => decide (x.1 < x.2))
    && (List.range par.length).all (fun i => decide (depthOf par 64 i ≤ 16))

/-- The position of fresh entry `i` of a slot (R167, R169). -/
def freshPos (t : Slot) (i : Nat) : Nat :=
  if t.kind == .tree then t.nC + depthOf t.parents 64 i - 1 else t.nC + i

/-- Is fresh entry `i` of the slot a proof row (R114)? -/
def isProofRow (t : Slot) (i : Nat) : Bool := (t.kind == .draft || t.kind == .tree) && decide (1 ≤ i)

/-! Descriptors. -/

/-- The configuration of an imprint. -/
def State.cfg (s : State) (i : Nat) : Option ImprintCfg := (s.imp i).cfg

/-- A tensor descriptor of an imprint (R490). -/
def State.desc (s : State) (i d : Nat) : Option TensorDesc := (s.cfg i).bind fun g => g.formats.descs[d]?

/-- A layer of an imprint (R486). -/
def State.layer (s : State) (i l : Nat) : Option LayerCfg := (s.cfg i).bind fun g => g.formats.layers[l]?

/-- The tensor scale (R49): the descriptor's, or for a run-time tensor the OUT_SCALE of the last tile that wrote it (R302), 1.0 before
any. What ATTEND, MERGE, ELEMENT, REDUCE and COLLATE write keeps it: their records carry no OUT_SCALE, and the spec states no scale for what
they write (DESIGN CHOICE, log 113). -/
def State.tensorScale (s : State) (i d : Nat) : F32 :=
  match s.desc i d with
  | some t => if t.cls = 2 then spGet 0x3F800000#32 (s.imp i).run.scales d else t.tscale
  | none => 0x3F800000#32

/-- The run-time tensor whose stored image holds a T0 address, with its descriptor's index. -/
def State.runtimeAt (s : State) (i a : Nat) : Option (Nat × TensorDesc) :=
  match s.cfg i with
  | none => none
  | some g => (g.formats.descs.zipIdx.find? fun x =>
      x.1.cls == 2 && !bitOf x.1.flags 1 && decide (x.1.location ≤ a) && decide (a < x.1.location + x.1.stored)).map
      fun x => (x.2, x.1)

/-! Where a tensor's parts stand (R51, R125, R127, R137). -/

/-- Elements of every slug of a tensor's run but the last (R490); zero means one slug. The descriptor has one SLUG_ELEMS, and a scale
plane's slugs take it as their count of scale bytes (DESIGN CHOICE, log 118). -/
def slugElems (t : TensorDesc) (elems : Nat) : Nat := if t.slugElems = 0 then elems else t.slugElems

/-- Capacity of the slots of a run-time tensor's region of `elems` elements (R137). -/
def regionCap (t : TensorDesc) (format elems : Nat) : Nat := slotCapacity ((slugBytes format (slugElems t elems)).getD 0)

/-- Slugs of a region of `elems` elements. -/
def regionSlugs (t : TensorDesc) (elems : Nat) : Nat := ceilDiv elems (slugElems t elems)

/-- Scale bytes of a tensor (R51). -/
def planeBytes (t : TensorDesc) : Nat := if t.sf == .none then 0 else t.rows * (t.k / t.fmt.block)

/-- Format code of a scale plane's slugs (R123). -/
def planeFormat (t : TensorDesc) : Nat := if t.sf == .e4m3 then 0x82 else 0x81

/-- Where the scale plane of a plain or a run-time tensor starts (R51): after the plain elements, or after the last slot. -/
def slotPlane (t : TensorDesc) : Nat :=
  let n := t.rows * t.k
  roundUp (t.location + if t.slugged then regionSlugs t n * regionCap t t.elem n else t.elemBytes) 256

/-- Is the scale plane a slug run of its own (R127)? Each part of a tensor is plain or a run, and one flag stands for both: the plane is
plain where the stored image ends with exactly its bytes (log 102). -/
def planeIsRun (t : TensorDesc) (plane : Nat) : Bool := t.slugged && plane + planeBytes t != t.location + t.stored

/-- ENC_LEN of the slug that was stored at an address (R123). -/
def State.storedEnc (s : State) (a : Nat) : Nat := ofLeBytes (memRead s.t0.bytes (a + 4) 4)

/-- Where the slug `n` after the one at `a` starts, as the run was stored (R125): the schedule's operand ranges are those of the run as
it was loaded (log 29). -/
def State.slugPlace (s : State) : Nat → Nat → Nat
  | 0, a => a
  | n + 1, a => s.slugPlace n (a + footprint (s.storedEnc a))

/-- Where a tensor's scale plane starts (R51): after the last footprint of a run. -/
def State.planeBase (s : State) (t : TensorDesc) : Nat :=
  if t.slugged && t.cls != 2 then roundUp (s.slugPlace (regionSlugs t (t.rows * t.k)) t.location) 256 else slotPlane t

/-! Reading tensors (R51, R82, R125, R127, R150). -/

/-- What a read of an operand range found: its bytes, the decoded byte ranges whose slugs were wrong with their status, one for each
wrong slug. -/
structure Fetched where
  bytes : List Byte
  bad : List (Nat × Nat × Nat)
deriving DecidableEq, Repr

/-- Nothing read. -/
def Fetched.none : Fetched := ⟨[], []⟩

/-- Two ranges read one after the other. -/
def Fetched.append (x y : Fetched) : Fetched := ⟨x.bytes ++ y.bytes, x.bad ++ y.bad⟩

/-- Statuses of a slug's outcome (R475). -/
def SlugOutcome.status : SlugOutcome → Nat
  | .good => 0 | .check => 0x0301 | .size => 0x0302

/-- Read and decide the slug at `a`, with `room` bytes of the operand range from there (R150): row 1 reads no payload byte, and no byte
past the payload's end is read (R125). -/
def State.readSlug (s : State) (i : Nat) (fonts : List Font) (format dec a room : Nat) :
    (SlugOutcome × List Byte × Option Nat) × State :=
  let h := s.coreRead i a (if room < 16 then 0 else 16)
  let e := (SlugHeader.ofBytes h.1).enc
  let d := (slugBytes format dec).getD 0
  if room < 16 || e = 0 || d < e || room < footprint e then (decideSlug fonts format dec [], h.2.2)
  else
    let p := h.2.2.coreRead i (a + 16) e
    (decideSlug fonts format dec (h.1 ++ p.1 ++ List.replicate (footprint e - 16 - e) 0#8), p.2.2)

/-- Deliver `n` slugs of a region from slug `j` at `a`; `cap` is the slots' capacity, or none in a run, whose operand range ends at
`stop`. After a slug of row 1 the start of the next is unknown, and every later slug of the range takes SLUG_SIZE; slots stand at fixed
places, so there each slug has its own start (log 103). -/
def State.deliverSlugs (s : State) (i : Nat) (fonts : List Font) (format per elems : Nat) (cap : Option Nat) (stop : Nat) :
    Nat → Nat → Nat → Bool → Fetched × State
  | 0, _, _, _ => (Fetched.none, s)
  | n + 1, j, a, lost =>
    let dec := min per (elems - j * per)
    let d := (slugBytes format dec).getD 0
    let off := j * (slugBytes format per).getD 0
    let x := if lost then (decideSlug fonts format dec [], s) else s.readSlug i fonts format dec a (cap.getD (stop - a))
    let rest := x.2.deliverSlugs i fonts format per elems cap stop n (j + 1) (a + cap.getD (x.1.2.2.getD 0))
      (lost || (cap.isNone && x.1.2.2.isNone))
    (Fetched.append ⟨x.1.2.1, if x.1.1 == .good then [] else [(off, off + d, x.1.1.status)]⟩ rest.1, rest.2)

/-- Read the decoded bytes `[lo, hi)` of a region of `elems` elements at `base`: plain, or the slugs that hold them. -/
def State.readRange (s : State) (i : Nat) (fonts : List Font) (t : TensorDesc) (run : Bool) (format base elems lo hi : Nat) :
    Fetched × State :=
  if run then
    let per := slugElems t elems
    let d := max ((slugBytes format per).getD 0) 1
    let n := ceilDiv hi d - lo / d
    let cap := if t.cls = 2 then some (regionCap t format elems) else none
    let a := match cap with
      | some c => base + lo / d * c
      | none => s.slugPlace (lo / d) base
    let r := s.deliverSlugs i fonts format per elems cap (min (t.location + t.stored) (s.slugPlace n a)) n (lo / d) a false
    (⟨(r.1.bytes.drop (lo - lo / d * d)).take (hi - lo), r.1.bad⟩, r.2)
  else
    let r := s.coreRead i (base + lo) (hi - lo)
    (⟨r.1, []⟩, r.2.2)

/-- The decoded byte ranges of `n` rows of a region from row `r0`: bytes `lo` to `lo + len - 1` of each row of `stride` bytes; whole rows
are one range (R127). -/
def rowRanges (stride r0 n lo len : Nat) : List (Nat × Nat) :=
  if lo = 0 && len = stride then [(r0 * stride, (r0 + n) * stride)]
  else (List.range n).map fun j => ((r0 + j) * stride + lo, (r0 + j) * stride + lo + len)

/-- Read ranges in order. -/
def State.readRanges (s : State) (i : Nat) (fonts : List Font) (t : TensorDesc) (run : Bool) (format base elems : Nat) :
    List (Nat × Nat) → Fetched × State
  | [] => (Fetched.none, s)
  | x :: xs =>
    let r := s.readRange i fonts t run format base elems x.1 x.2
    let y := r.2.readRanges i fonts t run format base elems xs
    (r.1.append y.1, y.2)

/-- Rows of a tensor as read at a port: element codes (none where R47 or R53 calls them invalid), scale bytes, the rows in the decoded
ranges of wrong slugs with their status, and the status of each wrong slug. -/
structure RowsRead where
  codes : List (List (Option Nat))
  scales : List (List Nat)
  badRows : List (Nat × Nat)
  wrong : List Nat
deriving DecidableEq, Repr

/-- The rows that wrong slugs cover, by the bytes of a row in their region. -/
def rowsCovered (stride : Nat) (bad : List (Nat × Nat × Nat)) : List (Nat × Nat) :=
  if stride = 0 then []
  else bad.flatMap fun x => (List.range (ceilDiv x.2.1 stride - x.1 / stride)).map fun j => (x.1 / stride + j, x.2.2)

/-- Parts of `n` bytes of a list, `m` of them. -/
def parts (n m : Nat) (bs : List Byte) : List (List Byte) := (List.range m).map fun j => (bs.drop (j * n)).take n

/-- Rows `r0` to `r0 + n - 1` of a tensor, elements `k0` to `k0 + len - 1`, with their block scales: the element region and the scale
plane are ranges of their own (R127). -/
def State.readRows (s : State) (i : Nat) (fonts : List Font) (t : TensorDesc) (r0 n k0 len : Nat) : RowsRead × State :=
  let f := t.fmt
  let rb := f.bytes len
  let e := s.readRanges i fonts t t.slugged t.elem t.location (t.rows * t.k) (rowRanges t.rowBytes r0 n (f.bytes k0) rb)
  let codes := (parts rb n e.1.bytes).map (unpackRow f len)
  let bad := rowsCovered t.rowBytes e.1.bad
  if t.sf == .none then (⟨codes, codes.map fun _ => [], bad, e.1.bad.map (·.2.2)⟩, e.2)
  else
    let b := f.block
    let plane := s.planeBase t
    let p := e.2.readRanges i fonts t (planeIsRun t plane) (planeFormat t) plane (planeBytes t)
      (rowRanges (t.k / b) r0 n (k0 / b) (len / b))
    (⟨codes, (parts (len / b) n p.1.bytes).map fun bs => bs.map (·.toNat), bad ++ rowsCovered (t.k / b) p.1.bad,
      (e.1.bad ++ p.1.bad).map (·.2.2)⟩, p.2)

/-- The fonts a lane's registers hold (R142, R630). Lanes: 0 Platen W, 1 Platen A, 2 Roller W, 3 Roller A. -/
def Core.laneFonts (c : Core) (lane : Nat) : List Font :=
  (List.range 16).filterMap fun r => spGet none c.fonts (16 * lane + r)

/-! Recording damage (R152, R153, R55, R516). -/

/-- A slot's block failed its body check in this impression (R281). -/
def State.hurtSlot (s : State) (i n st : Nat) : State :=
  s.modRun i fun r => if r.hurt.contains (n, st) then r else { r with hurt := r.hurt ++ [(n, st)] }

/-- A slot's own data met damage: a report of its request, which outlasts the impression (R516, R517). -/
def State.damageSlot (s : State) (i n st : Nat) : State :=
  match slotAt (s.imp i).run.manifest n with
  | some t => s.report ⟨i, .request t.request, st, none⟩
  | none => s

/-- The slots whose rows a list of batch rows holds. -/
def State.hurtRows (s : State) (i : Nat) (rows : List Nat) (st : Nat) : State :=
  (nub (rows.filterMap (slotOfRow (s.imp i).run.manifest))).foldl (fun s n => s.damageSlot i n st) s

/-- A tensor shared by the imprint met damage (R153, R255). -/
def State.hurtTensor (s : State) (i d st : Nat) : State := s.report ⟨i, .tensor d, st, none⟩

/-- Damage of the data that supplied an index (R225, R254). -/
def State.badIndex (s : State) (i a : Nat) : State := s.report ⟨i, .t0 (a / 256 * 256), 0x0300, none⟩

/-- Marks of spoiled expert rows follow their bytes (R282; log 30): those of `n` bytes from `src` stand for the `m` bytes from `dst`, at
`num / den` of the distance, in place of what was noted there. -/
def State.moveMarks (s : State) (i src n dst m num den : Nat) : State :=
  if (s.imp i).run.badRows.isEmpty then s
  else s.modRun i fun r => { r with badRows :=
    (r.badRows.filter fun x => !(decide (dst ≤ x.1) && decide (x.1 < dst + m)))
      ++ (r.badRows.filter fun x => decide (src ≤ x.1) && decide (x.1 < src + n)).map fun x => (dst + (x.1 - src) * num / den, x.2) }

/-- Count slug outcomes (R156). -/
def State.countSlugs (s : State) (i : Nat) (sts : List Nat) : State :=
  (s.count i .slugCheck (sts.filter (· == 0x0301)).length).count i .slugSize (sts.filter (· == 0x0302)).length

/-- Wrong slugs of a tensor's rows: the counts, then the owner by the tensor's class. -/
def State.slugTrouble (s : State) (i d : Nat) (shared : Bool) (rowOf : Nat → Nat) (x : RowsRead) : State :=
  x.badRows.foldl (fun s y => if shared then s.hurtTensor i d y.2 else s.hurtRows i [rowOf y.1] y.2) (s.countSlugs i x.wrong)

/-! Writing results (R92, R93, R137, R138, R164). -/

/-- A block-scale code's blocks over a row. -/
def quantRow (f : Elem) (sf : Scale) (xs : List F32) : List Nat × List Nat × Nat :=
  if sf == .none then
    let ns := xs.map F32num
    (ns.map (convert f), [], (ns.filter (convFault f)).length)
  else
    let bs := (chunks f.block (xs.map F32num)).map (quantBlock sf f)
    (bs.flatMap (·.2.1), bs.map (·.1), (bs.map (·.2.2)).sum)

/-- The run-time font a stream encodes with: the active font of R140, or STORED. -/
def Run.activeFont (r : Run) (st : Nat) : Option Font :=
  match spGet 2 r.fontActive st with
  | 2 => none
  | p => spGet none r.fontSlots (2 * st + p)

/-- Add a block's symbol counts into the core's count table of a stream (R138). -/
def State.countBlock (s : State) (core i st : Nat) (bs : List Byte) : State :=
  match s.cfg i with
  | none => s
  | some g =>
    match g.formats.streams[st]? with
    | none => s
    | some fs =>
      match fs.tables.find? (fun x => x.1 == core) with
      | none => s
      | some x =>
        let n := 8 * fs.kind.alphabet
        let r := s.coreRead i x.2 n
        let cs := (chunks 8 r.1).map ofLeBytes
        (r.2.2.coreWrite i x.2 ((countSymbols fs.kind bs cs).flatMap (leBytes 8))).2

/-- Write one run of decoded bytes as the slug in the slot at `a`, `dec` elements (R137). -/
def State.writeSlug (s : State) (core i : Nat) (t : TensorDesc) (format a dec : Nat) (bs : List Byte) : State :=
  let font := if t.font = 0xFFFF then none else (s.imp i).run.activeFont t.font
  let s := (s.coreWrite i a (encodeSlug font format dec bs)).2
  if t.font = 0xFFFF then s else s.countBlock core i t.font bs

/-- Write decoded bytes from element `e0` of a region of `elems` elements: plain at their place, or slug by slug (R137). -/
def State.writeRegion (s : State) (core i : Nat) (t : TensorDesc) (run : Bool) (format base elems e0 : Nat) (bs : List Byte) :
    State :=
  if run then
    let per := slugElems t elems
    let j := e0 / max per 1
    ((chunks (max ((slugBytes format per).getD 0) 1) bs).zipIdx).foldl
      (fun s x => s.writeSlug core i t format (base + (j + x.2) * regionCap t format elems) (min per (elems - (j + x.2) * per)) x.1) s
  else (s.coreWrite i (base + (slugBytes format e0).getD 0) bs).2

/-- Rows of results as they are written: one run of elements where the rows are whole, else row by row. -/
def rowRuns (t : TensorDesc) (r e : Nat) (qs : List (List Nat × List Nat × Nat)) : List (Nat × List (List Nat × List Nat × Nat)) :=
  if e = 0 && qs.all (fun q => q.1.length == t.k) then [(r * t.k, qs)]
  else qs.zipIdx.map fun x => ((r + x.2) * t.k + e, [x.1])

/-- Write rows of results `xs` from row `r`, element `e` of a run-time tensor; conversion faults are counted (R67). -/
def State.writeTensorRows (s : State) (core i : Nat) (t : TensorDesc) (f : Elem) (sf : Scale) (r e : Nat) (xs : List (List F32)) :
    State :=
  let qs := xs.map (quantRow f sf)
  let s := s.count i .convFaults (qs.map (·.2.2)).sum
  (rowRuns t r e qs).foldl (fun s x =>
    let s := s.writeRegion core i t t.slugged t.elem t.location (t.rows * t.k) x.1 (x.2.flatMap fun q => packRow f q.1)
    if sf == .none then s
    else s.writeRegion core i t (planeIsRun t (slotPlane t)) (planeFormat t) (slotPlane t) (planeBytes t) (x.1 / f.block)
      (x.2.flatMap fun q => q.2.1.map (BitVec.ofNat 8))) s

/-- Write rows of results at a T0 address that no run-time tensor holds: rows one after another, then a scale plane at the
next 256 B boundary. -/
def State.writePlainRows (s : State) (i : Nat) (f : Elem) (sf : Scale) (a : Nat) (rows : List (List F32)) : State :=
  let qs := rows.map (quantRow f sf)
  let s := s.count i .convFaults (qs.map (·.2.2)).sum
  let body := qs.flatMap fun q => packRow f q.1
  let s := (s.coreWrite i a body).2
  if sf == .none then s
  else (s.coreWrite i (roundUp (a + body.length) 256) (qs.flatMap fun q => q.2.1.map (BitVec.ofNat 8))).2

/-- The element of a run-time tensor that an address of its element region starts at. -/
def elementAt (t : TensorDesc) (a : Nat) : Nat :=
  let n := t.rows * t.k
  if t.slugged then (a - t.location) / max (regionCap t t.elem n) 1 * slugElems t n
  else (a - t.location) * t.k / max t.rowBytes 1

/-- Write rows of results from an address: into the run-time tensor there, at its row stride, or plainly. -/
def State.writeRows (s : State) (core i : Nat) (f : Elem) (sf : Scale) (a : Nat) (rows : List (List F32)) : State :=
  match s.runtimeAt i a with
  | some (_, t) =>
    if t.fmt == f && t.sf == sf && 0 < t.rowBytes then
      s.writeTensorRows core i t f sf (elementAt t a / t.k) (elementAt t a % t.k) rows
    else s.writePlainRows i f sf a rows
  | none => s.writePlainRows i f sf a rows

/-! Numbers of rows. -/

/-- Element numbers of a row's codes under its block scales: each element's number (zero where invalid) and each block's scale;
the answer says whether anything was invalid (R55). -/
def rowNums (f : Elem) (sf : Scale) (codes : List (Option Nat)) (scales : List Nat) : List Num × List Num × Bool :=
  let sv := scales.map sf.value
  let nums := codes.zipIdx.map fun x =>
    let okS := sf == .none || ((sv[x.2 / f.block]?).getD none).isSome
    match x.1 with
    | some c => if okS then f.value c else .fin false 0 0
    | none => .fin false 0 0
  (nums, sv.map fun o => o.getD (.fin false 1 0), codes.any (·.isNone) || (sf != .none && sv.any (·.isNone)))

/-! Rows of a tile, and the requests that a record works on (R110, R152, R254, R303; logs 20, 21, 30). -/

/-- Bytes that one row of `k` elements with its block scales takes in a staging or token buffer. -/
def stagedStride (t : TensorDesc) (k : Nat) : Nat := t.fmt.bytes k + if t.sf == .none then 0 else k / t.fmt.block

/-- The placement in force for an imprint (R271, R504). -/
def State.placement (s : State) (i : Nat) : Option Placement :=
  match (s.imp i).serve.placement with
  | some p => some p
  | none => (s.cfg i).bind (·.placement)

/-- The bay slots in force. -/
def State.baySlots (s : State) (i : Nat) : List BaySlot := ((s.placement i).map (·.bays)).getD []

/-- The bay slot that a near-slice address lies in: its index, its half, the slot (R277). -/
def State.baySlotAt (s : State) (i a : Nat) : Option (Nat × Nat × BaySlot) :=
  (s.baySlots i).zipIdx.findSome? fun x =>
    let lo := t0Addr x.1.core x.1.offset
    if decide (lo ≤ a) && decide (a < lo + 2 * x.1.half) then some (x.2, (a - lo) / x.1.half, x.1) else none

/-- Strictly ascending. -/
def ascending (xs : List Nat) : Bool := (xs.zip (xs.drop 1)).all fun p => decide (p.1 < p.2)

/-- Does an address lie in the rows of a DISPATCH block whose index list is not strictly ascending (R274, R281)? -/
def State.badDispatch (s : State) (i a : Nat) : Bool :=
  match s.baySlotAt i a with
  | none => false
  | some x =>
    let base := t0Addr x.2.2.core x.2.2.offset + x.2.1 * x.2.2.half
    let f := fun o n => ofLeBytes (memRead s.t0.bytes (base + o) n)
    let n := f 8 4
    let rows := base + roundUp (64 + 2 * n) 256
    x.2.2.type == 0x13 && decide (rows ≤ a) && decide (a < rows + n * roundUp (f 16 4) 256)
      && !ascending ((List.range n).map fun j => f (64 + 2 * j) 2)

/-- The requests that stand on batch rows. -/
def State.requestsOn (s : State) (i : Nat) (rows : List Nat) : List Nat :=
  let m := (s.imp i).run.manifest
  nub (rows.filterMap fun r => (slotOfRow m r).bind fun n => (slotAt m n).map (·.request))

/-- The descriptor and the tensor row that a load has brought to an offset of a half. -/
def Core.stagedRow (c : Core) (half a : Nat) : Option (Nat × Nat) :=
  c.staged.findSome? fun g =>
    if g.half == half && decide (g.off ≤ a) && decide (a < g.off + g.rows * g.stride)
    then some (g.desc, g.row0 + (a - g.off) / g.stride) else none

/-- Does a tensor hold the input rows of an expert that the core serves, and not rows of the batch? Those tiles are sized for
ceil(C_max / r_e) rows (R282; log 30). -/
def State.expertRows (s : State) (i core : Nat) (t : TensorDesc) : Bool :=
  match s.placement i with
  | none => false
  | some p => p.layers.any fun l => l.experts.any fun x =>
      x.replicas.contains (s.fab.endpoint, core) && t.rows == ceilDiv l.cMax (max x.replicas.length 1)

/-- The batch row that stands at an offset of a half. -/
def State.batchRow (s : State) (i core half a : Nat) : Option Nat :=
  match (s.core core).stagedRow half a with
  | none => none
  | some x => match s.desc i x.1 with
    | some t => if t.cls == 2 && !s.expertRows i core t then some x.2 else none
    | none => none

/-- Elements of K that one pass of a tile takes (R77, R94). -/
def passElems (roller : Bool) (w a : TensorDesc) : Nat :=
  if roller then 512 else ((pairing w.fmt a.fmt).map (·.passLen)).getD 0

/-- The batch rows of a tile. -/
def State.tileBatch (s : State) (core i : Nat) (roller : Bool) (b : MatrixBody) (w a : TensorDesc) : List (Option Nat) :=
  let stride := stagedStride a (b.passes * passElems roller w a)
  (List.range b.m).map fun m => s.batchRow i core (b.half + if roller then 2 else 0) (b.aOff + m * stride)

/-- The requests that a record works on, where it tells them: those of a tile's rows, or the one of an attend tile's sequence. -/
def State.recordRequests (s : State) (core i : Nat) (r : BitVec 512) : Option (List Nat) :=
  let op := (cmdHead r).opcode
  if op = 0x10 || op = 0x20 then
    let b := matrixBody r
    match s.desc i b.wDesc, s.desc i b.aDesc with
    | some w, some a => some (s.requestsOn i ((s.tileBatch core i (op == 0x20) b w a).filterMap id))
    | _, _ => none
  else if op = 0x30 then some ((slotAt (s.imp i).run.manifest (attendBody r).seq).toList.map (·.request))
  else none

end Sys2Proof.Machine
end

