-- ==== Sys2Proof/Machine/Sequencer.lean ====
section
/-!
DEFINITION. The core sequencer: taking commands from a stream, completing them, quoins, font loads, signals, job switches
(R291 to R300, R313, R321 to R323, R630).
-/
namespace Sys2Proof.Machine

open Sys2Proof

/-- The records of a job's stream on a core (R291). -/
def Core.stream (c : Core) (job : Nat) : List (BitVec 512) := spGet [] c.streams job

/-- A job's context on a core. -/
def Core.job (c : Core) (j : Nat) : CoreJob := spGet CoreJob.fresh c.jobs j

/-- Change a job's context. -/
def Core.modJob (c : Core) (j : Nat) (f : CoreJob → CoreJob) : Core := { c with jobs := spMod CoreJob.fresh c.jobs j f }

/-- The record a job's stream position names (R291, R294). -/
def Core.next (c : Core) (j : Nat) : Option (BitVec 512) := (c.stream j)[(c.job j).pos]?

/-- The engine queue a record goes to (R297, R299); none for the sequencer's own commands. -/
def engineOf (h : CmdHead) : Option Engine :=
  if h.opcode = 0x02 then some .inker
  else match h.opcode / 16 with
    | 1 => some .platen | 2 => some .roller | 3 => some .galley | 4 => some .setter | 5 => some .imposer
    | 6 => some (.chase (Fin.ofNat 4 h.queue)) | _ => none

/-- Is the wait of a record met (R297)? -/
def Core.waitMet (c : Core) (j : Nat) (h : CmdHead) : Bool :=
  !h.waitEn || decide (h.waitVal ≤ spGet 0 (c.job j).ctrs h.waitCtr)

/-- Has the queue room (R297)? -/
def Core.queueRoom (c : Core) (h : CmdHead) : Bool :=
  match engineOf h with
  | none => true
  | some e => decide ((c.inflight.filter fun f => f.engine == e).length < 4)

/-- Is the context held by the sequencer? Contexts beyond the first two are held only after a switch (R322). -/
def Core.heldJob (c : Core) (j : Nat) : Bool := (c.job j).held || decide (c.streams.length ≤ 2)

/-- Does a tile ask for the Overprint (R102)? -/
def wantsOverprint (r : BitVec 512) : Bool :=
  ((cmdHead r).opcode == 0x10 || (cmdHead r).opcode == 0x20) && ((matrixBody r).down || (matrixBody r).up)

/-- The record that the sequencer can hand over now for a job, when its opcode is the one asked, with its imprint. -/
def State.ready (s : State) (core job opcode : Nat) : Option (Nat × BitVec 512) :=
  let c := s.core core
  match s.imprintOf core, c.next job with
  | some i, some r =>
    let h := cmdHead r
    if h.opcode = opcode && !s.stopped && s.issueLevel != 0 && !c.stopped && (c.job job).atQuoin.isNone && c.heldJob job && c.waitMet job h
        && c.queueRoom h then some (i, r) else none
  | _, _ => none

/-- Hand a record to its queue: the position moves on, wrapping after the last command (R294), and the command is in flight
until it completes (R298). -/
def State.handOver (s : State) (core job : Nat) (r : BitVec 512) : State :=
  s.modCore core fun c =>
    let h := cmdHead r
    let c := c.modJob job fun x =>
      { x with pos := if x.pos + 1 < (c.stream job).length then x.pos + 1 else 0, lastIssue := c.issues }
    let fl := match engineOf h with
      | some e => [Flight.mk job e (if h.sigEn then some h.sigCtr else none) (wantsOverprint r)]
      | none => []
    { c with inflight := c.inflight ++ fl, issues := c.issues + 1 }

/-- The reports since the first `n` name the command that met the damage (R254). -/
def State.stampReports (s : State) (n : Nat) (x : Reader) : State :=
  { s with reports := s.reports.take n ++ nub ((s.reports.drop n).map fun r => { r with reader := some x }) }

/-- The command that a record is, as the reports of the damage it meets name it. -/
def State.readerOf (s : State) (core job i : Nat) (r : BitVec 512) : Reader :=
  ⟨core, job, ((s.core core).job job).pos, s.recordRequests core i r⟩

/-- An engine command: when the sequencer can issue a record of the opcode, it is handed over and its effect takes place;
otherwise the step cannot occur and nothing changes (log 3). -/
def State.command (s : State) (core job opcode : Nat) (effect : Nat → BitVec 512 → State → State) :
    Host.Outcome State Fault Refusal :=
  match s.ready core job opcode with
  | some (i, r) => .next ((effect i r (s.handOver core job r)).stampReports s.reports.length (s.readerOf core job i r))
  | none => .next s

/-- Signal a counter of a job (R298): 16 bits. -/
def Core.signalCtr (c : Core) (j k : Nat) : Core :=
  c.modJob j fun x => { x with ctrs := spMod 0 x.ctrs k fun n => (n + 1) % 65536 }

/-- SEQ_NOP (R299): takes one cycle and does nothing. Its signal, if enabled, is given as it completes at once (R298). -/
def execSeqNop (core : Fin 192) (job : Fin 8) (s : State) : Host.Outcome State Fault Refusal :=
  s.command core.val job.val 0x00 fun _ r s =>
    let h := cmdHead r
    if h.sigEn then s.modCore core.val fun c => c.signalCtr job.val h.sigCtr else s

/-- QUOIN (R313): the sequencer takes the command and the job issues nothing more until the quoin releases. -/
def execQuoin (core : Fin 192) (job : Fin 8) (s : State) : Host.Outcome State Fault Refusal :=
  s.command core.val job.val 0x01 fun _ r s =>
    s.modCore core.val fun c => c.modJob job.val fun x => { x with atQuoin := some (recBytes r 8 9) }

/-- FONT_LOAD (R299, R630): the image goes into its register when it passes R132 and was read whole; otherwise the register is
loaded empty, and a fixed font's image is damaged data. Which font the image is goes by the ID stored in it, and the status of a fixed
font's damage is MEM_UNCORRECTABLE where a line was uncorrectable and SLUG_CHECK where R132 fails (log 104). -/
def execFontLoad (core : Fin 192) (job : Fin 8) (s : State) : Host.Outcome State Fault Refusal :=
  s.command core.val job.val 0x02 fun i r s =>
    let lane := recBytes r 8 8 % 4
    let reg := recBytes r 9 9 % 16
    let a := recBytes r 16 23 % 2 ^ 34
    let damaged := (linesOf a 512).any s.lineBad
    let x := s.coreRead i a 512
    let font := if damaged then none else Font.ofImage x.1
    let s := x.2.2.modCore core.val fun c => { c with fonts := spPut none c.fonts (16 * lane + reg) font }
    let id := ofLeBytes (memRead s.t0.bytes a 2)
    if font.isNone && !(decide (0x1000 ≤ id) && decide (id ≤ 0x10FF)) then
      s.report ⟨i, .font id, if damaged then 0x0300 else 0x0301, none⟩
    else s

/-- A key for each queue. -/
def engineKey : Engine → Nat
  | .inker => 0 | .platen => 1 | .roller => 2 | .galley => 3 | .setter => 4 | .imposer => 5 | .chase q => 6 + q.val

/-- The job an engine runs now: the jobs with commands in its queue in turn, after the job last served (R321). -/
def Core.serving (c : Core) (e : Engine) (key : Nat) : Option Nat :=
  let last := spGet 7 c.served key
  ((List.range 8).map fun k => (last + 1 + k) % 8).find? fun j => c.inflight.any fun f => f.engine == e && f.job == j

/-- Remove the first member that passes a test. -/
def dropFirst {α : Type} (p : α → Bool) : List α → List α
  | [] => []
  | x :: xs => if p x then xs else x :: dropFirst p xs

/-- Does the tile at the head of an engine's queue wait for the Overprint, because the other engine's tile, handed over before it and at
the head of its own queue, holds it (R102)? -/
def Core.overprintHeld (c : Core) (e : Engine) (job : Nat) : Bool :=
  let before := c.inflight.takeWhile fun f => !(f.engine == e && f.job == job)
  let own := (c.inflight.find? fun f => f.engine == e && f.job == job).any (·.ovp)
  own && before.any fun f => f.ovp && f.engine != e
    && (match c.serving f.engine (engineKey f.engine) with
        | some j => f.job == j && (c.inflight.find? fun x => x.engine == f.engine && x.job == j) == some f
        | none => false)

/-- COMMAND_COMPLETE (R102, R297, R298, R321): the oldest command of the job in the engine's queue completes and signals. -/
def execCommandComplete (core : Fin 192) (job : Fin 8) (e : Engine) (s : State) : Host.Outcome State Fault Refusal :=
  let c := s.core core.val
  if s.stopped || s.issueLevel = 0 || c.serving e (engineKey e) != some job.val || c.overprintHeld e job.val then .next s
  else
    match c.inflight.find? (fun f => f.engine == e && f.job == job.val) with
    | none => .next s
    | some f => .next (s.modCore core.val fun c =>
        let c := { c with inflight := dropFirst (fun f => f.engine == e && f.job == job.val) c.inflight,
                          served := spPut 7 c.served (engineKey e) job.val }
        match f.sig with
        | some k => c.signalCtr job.val k
        | none => c)

/-- Write replies that have arrived, in issue order, and keep the rest (R323). -/
def State.writeReplies (s : State) (i : Nat) : List ReplySlot → List ReplySlot × State
  | [] => ([], s)
  | r :: rs =>
    match r.data with
    | some bs =>
      if r.admitted then (s.coreWrite i r.dst bs).2.writeReplies i rs
      else let x := s.writeReplies i rs; (r :: x.1, x.2)
    | none => let x := s.writeReplies i rs; (r :: x.1, x.2)

/-- The held job that has issued least recently, other than `j` (R322). -/
def Core.oldestHeld (c : Core) (j : Nat) : Option Nat :=
  let held := (c.jobs.filter fun x => x.1 != j && x.2.held)
  (sortBy (fun a b => decide (a.2.lastIssue < b.2.lastIssue)) held).head?.map (·.1)

/-- JOB_SWITCH (R322, R323): the least recently issuing context is saved, its outstanding operations parked, and the ready
job's context restored; its parked replies are written before its next command. -/
def execJobSwitch (core : Fin 192) (job : Fin 8) (s : State) : Host.Outcome State Fault Refusal :=
  let c := s.core core.val
  let j := job.val
  match s.imprintOf core.val with
  | none => .next s
  | some i =>
    if s.stopped || s.issueLevel = 0 || c.stopped || (c.stream j).isEmpty || c.heldJob j || (c.job j).atQuoin.isSome then .next s
    else
      let n := (c.jobs.filter fun x => x.2.held).length
      let s := if n < 2 then s else
        match c.oldestHeld j with
        | none => s
        | some o => s.modCore core.val fun c => c.modJob o fun x =>
            { x with held := false, replies := x.replies.map fun r => { r with parked := true } }
      let w := s.writeReplies i (c.job j).replies
      .next (w.2.modCore core.val fun c => c.modJob j fun x =>
        { x with held := true, replies := w.1.map fun r => { r with parked := false } })

/-- SIGNAL (R309): one is added to counter DST[4:0] of logical core DST[33:26] of the same imprint and package. -/
def execSignal (core : Fin 192) (job : Fin 8) (s : State) : Host.Outcome State Fault Refusal :=
  s.command core.val job.val 0x6B fun i r s =>
    let d := (chaseBody r).dst
    let target := bitsOf d 33 26
    if s.imprintOf target = some i then s.modCore target fun c => c.signalCtr job.val (bitsOf d 4 0) else s

end Sys2Proof.Machine
end

