-- ==== Sys2Proof/Machine/Matrix.lean ====
section
/-!
DEFINITION. Platen and Roller: operand loads, tiles, the Overprint, the Densitometer, output (03_platen_roller.md).
-/
namespace Sys2Proof.Machine

open Sys2Proof

/-! Staged operands (R81, R85, R303). -/

/-- Bytes of one half of the staging buffer or the token buffer (R81). -/
def halfBytes (roller : Bool) : Nat := if roller then 262144 else 524288

/-- Store bytes in a staging or token buffer. -/
def Core.stage (c : Core) (roller : Bool) (a : Nat) (bs : List Byte) : Core :=
  if roller then { c with tokens := memWrite c.tokens a bs } else { c with staging := memWrite c.staging a bs }

/-- Bytes of a staging or token buffer. -/
def Core.stagedBytes (c : Core) (roller : Bool) (a n : Nat) : List Byte := memRead (if roller then c.tokens else c.staging) a n

/-- The tensor row that a T0 address starts in. -/
def TensorRow (t : TensorDesc) (a : Nat) : Nat := elementAt t a / max t.k 1

/-- The bytes of staged rows: each row's elements and then its block scales (R81; log 20). -/
def stagedRows (t : TensorDesc) (x : RowsRead) : List Byte :=
  (x.codes.zip x.scales).flatMap fun p => packRow t.fmt (p.1.map fun o => o.getD 0) ++ p.2.map (BitVec.ofNat 8)

/-- The status of damage that an expert's row brings with it (R281, R282): a status noted for bytes of the row, an uncorrectable line, or a
DISPATCH block whose list fails its check. -/
def State.rowMark (s : State) (i a n : Nat) : Option Nat :=
  match (s.imp i).run.badRows.find? fun x => decide (a ≤ x.1) && decide (x.1 < a + n) with
  | some x => some x.2
  | none => if (linesOf a n).any s.lineBad || s.badDispatch i a then some 0x0300 else none

/-- A_LOAD and T_LOAD: expand rows of an activation tensor into a half of the buffer: row after row, each with its block scales (R81,
R86, R303; log 20). Damage ends the requests of its rows, or spoils an expert's rows (R282). -/
def loadOperand (roller : Bool) (core i : Nat) (r : BitVec 512) (s : State) : State :=
  let b := loadBody r
  match s.desc i b.desc with
  | none => s
  | some t =>
    let fonts := (s.core core).laneFonts (if roller then 3 else 1)
    let row0 := TensorRow t b.src
    let expert := s.expertRows i core t
    let marks := if expert then (List.range b.rows).filterMap fun j =>
        (s.rowMark i (t.location + (row0 + j) * t.rowBytes) t.rowBytes).map fun st => (row0 + j, st) else []
    let x := s.readRows i fonts t row0 b.rows b.k0 b.kLen
    let bad := (indexes (fun p : List (Option Nat) × List Nat => (rowNums t.fmt t.sf p.1 p.2).2.2)
      (x.1.codes.zip x.1.scales)).map (row0 + ·)
    let s := if expert then x.2.countSlugs i x.1.wrong else x.2.slugTrouble i b.desc t.shared id x.1
    let s := if bad.isEmpty || expert then s else if t.shared then s.hurtTensor i b.desc 0x0300 else s.hurtRows i bad 0x0300
    s.modCore core fun c =>
      let c := c.stage roller (b.half * halfBytes roller + b.off) (stagedRows t x.1)
      let half := b.half + (if roller then 2 else 0)
      { c with staged := ⟨half, b.off, stagedStride t b.kLen, b.desc, row0, b.rows,
                          if expert then x.1.badRows ++ bad.map (fun q => (q, 0x0300)) ++ marks else []⟩
                 :: c.staged.filter (fun g => g.half != half || g.off != b.off) }

/-- A_LOAD (R82, R85, R303). -/
def execALoad (core : Fin 192) (job : Fin 8) (s : State) : Host.Outcome State Fault Refusal :=
  s.command core.val job.val 0x11 fun i r s => loadOperand false core.val i r s

/-- T_LOAD (R82, R85, R303). -/
def execTLoad (core : Fin 192) (job : Fin 8) (s : State) : Host.Outcome State Fault Refusal :=
  s.command core.val job.val 0x21 fun i r s => loadOperand true core.val i r s

/-! Products (R64, R65, R69). -/

/-- The pass results of one output element, in pass order. -/
def passResults (w a ws as : List Num) (wb ab : Nat) (tw ta : Num) (g len : Nat) : List F32 :=
  let one := Num.fin false 1 0
  (chunks len (w.zip a)).zipIdx.map fun x =>
    treeF ((chunks g x.1).zipIdx.map fun y =>
      let k := x.2 * len + y.2 * g
      groupValue (y.1.map fun p => p.1.mul p.2)
        [(ws[k / wb]?).getD one, (as[k / ab]?).getD one, tw, ta])

/-- An operand's rows as numbers. -/
structure OpRows where
  nums : List (List Num)
  scales : List (List Num)
deriving DecidableEq, Repr

/-- Numbers of rows read. -/
def opRows (f : Elem) (sf : Scale) (codes : List (List (Option Nat))) (scales : List (List Nat)) : OpRows × Bool :=
  let xs := (codes.zip scales).map fun p => rowNums f sf p.1 p.2
  (⟨xs.map (·.1), xs.map (·.2.1)⟩, xs.any (·.2.2))

/-- The activation rows a tile reads from its half. -/
def Core.tileRows (c : Core) (roller : Bool) (f : Elem) (sf : Scale) (base m k : Nat) : OpRows :=
  let rb := f.bytes k
  let sb := if sf == .none then 0 else k / f.block
  let codes := (List.range m).map fun r => unpackRow f k (c.stagedBytes roller (base + r * (rb + sb)) rb)
  let scales := (List.range m).map fun r => (c.stagedBytes roller (base + r * (rb + sb) + rb) sb).map (·.toNat)
  (opRows f sf codes scales).1

/-! Weight banks and weight sets (R81, R88, R94, R96). -/

/-- Weights of rows `r0` to `r0 + n - 1` of a read, elements `k0` to `k0 + len - 1`, and then their block scales. -/
def weightPart (w : TensorDesc) (x : RowsRead) (r0 n k0 len : Nat) : List Byte :=
  ((x.codes.drop r0).take n).flatMap (fun cs => packRow w.fmt (((cs.drop k0).take len).map fun o => o.getD 0))
    ++ if w.sf == .none then []
       else ((x.scales.drop r0).take n).flatMap fun ss => ((ss.drop (k0 / w.fmt.block)).take (len / w.fmt.block)).map (BitVec.ofNat 8)

/-- The bytes of one weight bank, and of one weight set's register (R81). -/
def bankBytes (roller : Bool) : Nat := if roller then 1088 else 32768

/-- The weights that a tile of `n` columns and `passes` passes leaves in its engine: pass p in bank p mod 2; on the Roller the sets, 8
rows by 512 elements, row group after row group, in registers by turns (R88, R94; log 20). -/
def Core.keepWeights (c : Core) (roller : Bool) (w : TensorDesc) (x : RowsRead) (n passes len : Nat) : Core :=
  let total := if roller then n / 8 * passes else passes
  let put := fun (m : Sp Byte) (q : Nat) => memWrite m (q % 2 * bankBytes roller)
    (if roller then weightPart w x (8 * (q / passes)) 8 (q % passes * 512) 512 else weightPart w x 0 n (q * len) len)
  let all := [total - 2, total - 1]
  if roller then { c with sets := all.foldl put c.sets } else { c with banks := all.foldl put c.banks }

/-! The Overprint (R102 to R111). -/

/-- The plate table entry of a command (R487). -/
def State.plate (s : State) (i p : Nat) : Option PlateEntry :=
  if p = 0xFFFF then none else (s.cfg i).bind fun g => g.formats.plates[p]?

/-- The matrix of an adapter version for a plate: the LQ7 pads the slot with zero rows beyond the rank that the image gives, and a
matrix that the image leaves out has rank 0 (R104). -/
def State.adapterMat (s : State) (i slot plate : Nat) : Option (AdapterMatrix × F32) :=
  (spGet none (s.imp i).serve.adapters slot).map fun v =>
    (((v.mats.find? fun m => m.plate == plate).getD ⟨plate, 0, [], []⟩), v.alpha)

/-- BF16 numbers of bytes. -/
def bf16Nums (bs : List Byte) : List Num := (chunks 2 bs).map fun c => Elem.value .bf16 (ofLeBytes c)

/-- Read rows of a correction plate as BF16 numbers through the tile's W lane. -/
def State.plateRows (s : State) (core i lane d r0 n k0 len : Nat) : List (List Num) × State :=
  match s.desc i d with
  | none => (List.replicate n (List.replicate len (.fin false 0 0)), s)
  | some t =>
    let x := s.readRows i ((s.core core).laneFonts lane) t r0 n k0 len
    let s := x.2.slugTrouble i d true id x.1
    (x.1.codes.map fun cs => cs.map fun c => t.fmt.value (c.getD 0), s)

/-- The rank buffer's index of entry `j` for row `m` of a tile (log 20). -/
def rankIndex (m j : Nat) : Nat := m * 256 + j

/-- One row's share of one rank entry: groups of 8 along K, each rounded once, by the fixed tree (R106). -/
def downShare (v x scales : List Num) (block : Nat) (ts : Num) : F32 :=
  let one := Num.fin false 1 0
  treeF ((chunks 8 (v.zip x)).zipIdx.map fun y =>
    groupValue (y.1.map fun p => p.1.mul p.2) [(scales[8 * y.2 / block]?).getD one, ts])

/-- The up-stage result over one part of the rank vector: each entry rounded to BF16, groups of 8, times alpha, by the fixed
tree (R107). -/
def upShare (u : List Num) (t : List F32) (alpha : F32) : F32 :=
  let ts := t.map fun x => Elem.value .bf16 (toBf16 x)
  treeF ((chunks 8 (u.zip ts)).map fun g => groupValue (g.map fun p => p.1.mul p.2) [F32num alpha])

/-- The slugs of an adapter plate's run: decoded offset, decoded bytes, DEC_LEN and stored bytes of each, by fuel (R125, R491). The
image gives no descriptor: DEC_LEN is that of the header, checked when the image was loaded (R136; log 105). -/
def plateSlugs : Nat → Nat → List Byte → List (Nat × Nat × Nat × List Byte)
  | 0, _, _ => []
  | n + 1, off, bs =>
    if bs.length < 16 then []
    else
      let h := SlugHeader.ofBytes bs
      let d := 2 * h.dec
      (off, d, h.dec, bs.take (footprint h.enc)) :: plateSlugs n (off + d) (bs.drop (footprint h.enc))

/-- Decoded bytes `[lo, hi)` of an adapter plate through a lane's fonts, and the status of each wrong slug among those that hold them. -/
def plateRead (fonts : List Font) (run : List Byte) (lo hi : Nat) : List Byte × List Nat :=
  let mine := (plateSlugs (run.length / 32) 0 run).filter fun x => decide (x.1 < hi) && decide (lo < x.1 + x.2.1)
  let xs := mine.map fun x => decideSlug fonts 0x02 x.2.2.1 x.2.2.2
  ((((xs.flatMap (·.2.1)).drop (lo - (mine.headD (lo, 0, 0, [])).1)).take (hi - lo)),
    (xs.filter fun x => x.1 != .good).map (·.1.status))

/-- A row of the V plate of an adapter matrix: zero rows beyond its rank (R104, R105). -/
def adapterRow (fonts : List Font) (m : AdapterMatrix) (j k0 len kTotal : Nat) : List Num :=
  if m.rank ≤ j then List.replicate len (.fin false 0 0)
  else bf16Nums (plateRead fonts m.v (2 * (j * kTotal + k0)) (2 * (j * kTotal + k0 + len))).1

/-- A row of the U plate of an adapter matrix. -/
def adapterURow (fonts : List Font) (m : AdapterMatrix) (n rank : Nat) : List Num :=
  bf16Nums (plateRead fonts m.u (2 * n * m.rank) (2 * (n + 1) * m.rank)).1 ++ List.replicate (rank - m.rank) (.fin false 0 0)

/-- The wrong slugs that a tile meets in the plates of one adapter: down rows `j0` to `j1 - 1` of the adapter part over the tile's K, and
the U rows of its columns. -/
def plateWrong (fonts : List Font) (m : AdapterMatrix) (down : Bool) (j0 j1 k0 len kTotal : Nat) (up : Bool) (n0 n : Nat) : List Nat :=
  (if down then (List.range (min j1 m.rank - j0)).flatMap fun j =>
      (plateRead fonts m.v (2 * ((j0 + j) * kTotal + k0)) (2 * ((j0 + j) * kTotal + k0 + len))).2 else [])
    ++ if up then (plateRead fonts m.u (2 * n0 * m.rank) (2 * (n0 + n) * m.rank)).2 else []

/-- The adapter slot that the manifest gives a batch row, if its sequence is bound (R109, R110). -/
def Run.rowAdapter (r : Run) (row : Option Nat) : Option Nat :=
  match row with
  | none => none
  | some x =>
    match slotOfRow r.manifest x with
    | none => none
    | some n => match r.manifest[n]? with
      | some t => if t.adapter = 0xFFFF then none else some t.adapter
      | none => none

/-- The down stage (R106): each rank entry of the command's range, for each row. -/
def State.downStage (s : State) (core i lane : Nat) (b : MatrixBody) (p : PlateEntry) (k kTotal : Nat) (rows : OpRows)
    (block : Nat) (ts : Num) (batch : Nat → Option Nat) : State :=
  let fonts := (s.core core).laneFonts lane
  let range := (List.range b.downLen).map (b.downLo + ·)
  let corr := range.filter (· < p.rc)
  let c := if corr.isEmpty then ([], s) else s.plateRows core i lane p.vDesc (corr.headD 0) corr.length b.wK k
  let s := c.2
  (rows.nums.zip rows.scales).zipIdx.foldl (fun s x =>
    let ad := match (s.imp i).run.rowAdapter (batch x.2) with
      | some a => s.adapterMat i a b.plate
      | none => none
    range.foldl (fun s j =>
      let share : Option F32 :=
        if j < p.rc then (c.1[j - corr.headD 0]?).map fun v => downShare v x.1.1 x.1.2 block ts
        else ad.map fun m => downShare (adapterRow fonts m.1 (j - p.rc) b.wK k kTotal) x.1.1 x.1.2 block ts
      s.modCore core fun c =>
        let q := rankIndex x.2 j
        let base := if b.firstDown then zeroF false else spGet 0#32 c.rank q
        { c with rank := spPut 0#32 c.rank q (match share with | some v => addF base v | none => base) }) s) s

/-- Slug errors in the adapter plates that a tile reads: the counts, and a report of each plate, which is shared by the imprint (R153). -/
def State.adapterTrouble (s : State) (core i lane : Nat) (b : MatrixBody) (p : PlateEntry) (k kTotal : Nat) (batch : List (Option Nat)) :
    State :=
  (nub (batch.filterMap (s.imp i).run.rowAdapter)).foldl (fun s q =>
    match s.adapterMat i q b.plate with
    | none => s
    | some m =>
      let wrong := plateWrong ((s.core core).laneFonts lane) m.1 b.down (max b.downLo p.rc - p.rc) (b.downLo + b.downLen - p.rc) b.wK k
        kTotal b.up b.wCol b.n
      wrong.foldl (fun s st => s.report ⟨i, .plate q b.plate, st, none⟩) (s.countSlugs i wrong)) s

/-- The Overprint contributions to one accumulator, correction first and adapter second (R70, R107, R109). -/
def overprintAdd (fonts : List Font) (rank : Sp F32) (m : Nat) (p : PlateEntry) (uCorr : List Num) (ad : Option (AdapterMatrix × F32)) (n : Nat)
    (acc : F32) : F32 :=
  let entries := fun lo len => (List.range len).map fun j => spGet 0#32 rank (rankIndex m (lo + j))
  let acc := if p.rc = 0 then acc else addF acc (upShare uCorr (entries 0 p.rc) 0x3F800000#32)
  match ad with
  | some a => if p.ra = 0 then acc else addF acc (upShare (adapterURow fonts a.1 n p.ra) (entries p.rc p.ra) a.2)
  | none => acc

/-! The Densitometer (R112 to R115). -/

/-- The T0 address of a request's density entry at a watch point: 8 B in the table of the home core's near slice, by the request's index
(R113, R326; log 23). -/
def densityAddr (w : WatchPoint) (handle : Nat) : Nat := t0Addr w.home (w.table + 8 * (handle % 2 ^ 18))

/-- Baseline and count of a density copy. -/
def densityGet (x : Nat) : Int × Nat := (signedOf 24 (x % 2 ^ 24), x / 2 ^ 24 % 256)

/-- A density copy from its baseline and count. -/
def densityPut (b : Int) (count : Nat) : Nat := (b % 2 ^ 24).toNat + count % 256 * 2 ^ 24

/-- One observation (R114): the new baseline and count, and the jump of a trip, with its mark for a non-finite sum. -/
def observe (d : Density) (proof : Bool) (sq : F32) (b : Int) (count : Nat) : (Int × Nat) × Option (Int × Bool) :=
  let e : Int := (bitsOf sq.toNat 30 23 : Nat)
  if e = 255 then ((b, count), some (0, true))
  else
    let x : Int := 16 * (16 * (e - 127) + (bitsOf sq.toNat 22 19 : Nat))
    if count = 0 then (if proof then ((b, count), none) else ((x, 1), none))
    else
      let j := x - b
      if d.warmup ≤ count && (decide (16 * (d.thetaUp : Int) < j) || decide (j < -(16 * (d.thetaDown : Int)))) then
        ((b, count), some (j, false))
      else if proof then ((b, count), none)
      else ((b + j.tdiv (2 ^ d.k), if count < 255 then count + 1 else count), none)

/-- The loads of a stream up to a record, as what they bring (R303). -/
def State.stagedBy (s : State) (i : Nat) (r : BitVec 512) (gs : List Staged) : List Staged :=
  let op := (cmdHead r).opcode
  if op = 0x11 || op = 0x21 then
    let b := loadBody r
    match s.desc i b.desc with
    | some t =>
      let half := b.half + (if op = 0x21 then 2 else 0)
      ⟨half, b.off, stagedStride t b.kLen, b.desc, TensorRow t b.src, b.rows, []⟩
        :: gs.filter (fun g => g.half != half || g.off != b.off)
    | none => gs
  else gs

/-- The WRITE tiles of a stream that a watch point names: core, first column, and the batch rows, by the loads before them. -/
def State.watchTilesOf (s : State) (i core w : Nat) : List (BitVec 512) → List Staged → List (Nat × Nat × List Nat)
  | [], _ => []
  | r :: rs, gs =>
    let op := (cmdHead r).opcode
    let b := matrixBody r
    let here := if (op = 0x10 || op = 0x20) && b.write && b.watch = w then
        match s.desc i b.wDesc, s.desc i b.aDesc with
        | some wt, some a =>
          let c := { Core.empty with staged := gs }
          [(core, b.wCol, ((s.modCore core fun _ => c).tileBatch core i (op == 0x20) b wt a).filterMap id)]
        | _, _ => []
      else []
    here ++ s.watchTilesOf i core w rs (s.stagedBy i r gs)

/-- The tiles that give a watch point its squares for one batch row, by core and first column: the participating cores (R112). -/
def State.watchTiles (s : State) (i w row : Nat) : List (Nat × Nat) :=
  match s.cfg i with
  | none => []
  | some g =>
    nub (((g.schedule.streams.flatMap fun x => s.watchTilesOf i x.core w x.cmds []).filter fun x => x.2.2.contains row).map
      fun x => (x.1, x.2.1))

/-- A density copy in T0, and its write (R113). -/
def State.densityRead (s : State) (i : Nat) (w : WatchPoint) (handle copy : Nat) : Nat × State :=
  let x := s.coreRead i (densityAddr w handle + 4 * copy) 4
  (ofLeBytes x.1, x.2.2)

/-- Write a density copy. -/
def State.densityWrite (s : State) (i : Nat) (w : WatchPoint) (handle copy x : Nat) : State :=
  (s.coreWrite i (densityAddr w handle + 4 * copy) (leBytes 4 x)).2

/-- The home core observes one row's sum of squares at a watch point (R114, R115). -/
def State.observeRow (s : State) (i w row : Nat) (sq : F32) (n : Nat) (t : Slot) : State :=
  match s.cfg i with
  | none => s
  | some g =>
    match g.formats.watch[w]? with
    | none => s
    | some p =>
      let rows := (List.range t.fresh).map (t.row0 + ·)
      let first := !(s.imp i).run.observed.any fun x => x.1 == w && rows.contains x.2
      let old := s.densityRead i p t.request (if first then t.dcopy else 1 - t.dcopy)
      let o := observe g.density (isProofRow t (row - t.row0)) sq (densityGet old.1).1 (densityGet old.1).2
      let trip := match o.2 with
        | some (j, nf) => [Trip.mk n w j nf (freshPos t (row - t.row0)) p.gradient]
        | none => []
      (old.2.densityWrite i p t.request (1 - t.dcopy) (densityPut o.1.1 o.1.2)).modRun i fun r =>
        { r with observed := r.observed ++ [(w, row)], trips := r.trips ++ trip }

/-- The rows of a slot that a watch point observes, in ascending token position (R114); rows at one position in their order. -/
def State.watchRows (s : State) (i w : Nat) (t : Slot) : List Nat :=
  ((sortBy (fun a b => decide (freshPos t a < freshPos t b)) (List.range t.fresh)).map (t.row0 + ·)).filter fun r =>
    !(s.watchTiles i w r).isEmpty

/-- Observe the rows of a slot whose sums are there, in order, up to the first that is not (R114). -/
def State.observeSlot (s : State) (i w n : Nat) (t : Slot) : List Nat → State
  | [] => s
  | row :: rows =>
    let r := (s.imp i).run
    if r.observed.contains (w, row) then s.observeSlot i w n t rows
    else match r.sums.find? fun x => x.1 == w && x.2.1 == row with
      | some x => (s.observeRow i w row x.2.2 n t).observeSlot i w n t rows
      | none => s

/-- Add one tile's squares for a row; when every participating core's columns are there, the cores' sums combine and the row waits for
its observation (R112, R71, R114). -/
def State.addSquares (s : State) (i w row core col : Nat) (sq : List F32) : State :=
  let s := s.modRun i fun r => { r with squares := r.squares ++ [⟨w, row, core, col, sq⟩] }
  let ps := (s.imp i).run.squares.filter fun p => p.watch == w && p.row == row
  if !(s.watchTiles i w row).all (fun x => ps.any fun p => p.core == x.1 && p.col == x.2) then s
  else
    let cores := nub ((sortBy (fun a b => decide (a.core < b.core)) ps).map (·.core))
    let sums := cores.map fun c =>
      treeF ((sortBy (fun a b => decide (a.col < b.col)) (ps.filter fun p => p.core == c)).flatMap (·.sq))
    let s := s.modRun i fun r => { r with squares := r.squares.filter fun p => !(p.watch == w && p.row == row),
                                          sums := r.sums ++ [(w, row, treeF sums)] }
    match slotOfRow (s.imp i).run.manifest row with
    | some n => match slotAt (s.imp i).run.manifest n with
      | some t => s.observeSlot i w n t (s.watchRows i w t)
      | none => s
    | none => s

/-! KV entries written under folio scales (R175, R192, R193). -/

/-- A stream from where its job stands, and then from its start (R294). -/
def Core.onward (c : Core) (job : Nat) : List (BitVec 512) :=
  (c.stream job).drop (c.job job).pos ++ (c.stream job).take (c.job job).pos

/-- The next attend tile of a core whose fresh block holds an OFFSET of its near slice: its body, whether the offset lies in the value
region, and the offset in the region (R175, R305). -/
def Core.freshAt (c : Core) (kvBytes : AttendBody → Nat) (off : Nat) : Option (AttendBody × Bool × Nat) :=
  (c.streams.flatMap fun x => c.onward x.1).findSome? fun r =>
    if (cmdHead r).opcode != 0x30 then none
    else
      let b := attendBody r
      let n := b.nF * kvBytes b
      let vBase := roundUp (b.freshOff + n) 256
      if n = 0 then none
      else if b.freshOff ≤ off && off < b.freshOff + n then some (b, false, off - b.freshOff)
      else if vBase ≤ off && off < vBase + n then some (b, true, off - vBase)
      else none

/-- R192: the scale of a folio from the largest magnitude of its fresh entries. -/
def folioScale (f : Elem) (h sMin : F32) (a : Nat × Int) : F32 :=
  let m := maxFin f
  match F32num h with
  | .fin _ hm he =>
    let q := quotSticky (a.1 * hm) (a.2 + he - m.2) m.1
    let c := (layout .fp32).codeBy ceilShift q.1 q.2
    let x : F32 := if 0x7F7FFFFF < c then infF false else BitVec.ofNat 32 c
    if ltF x sMin then sMin else x
  | _ => sMin

/-- The folio of a sequence that covers a position. -/
def Serve.folioAt (v : Serve) (handle layer head pos : Nat) : Option (Nat × Folio) :=
  v.folios.findSome? fun x => match x.2 with
    | some f => if f.sharers.contains handle && f.layer == layer && f.head == head && f.index == pos / 256
        && f.state != .duplicate then some (x.1, f) else none
    | none => none

/-- Convert elements into the KV format under a scale, at their address (R58, R66, R191). -/
def State.putFresh (s : State) (i : Nat) (kv : Elem) (scale : F32) (addr : Nat) (xs : List F32) : State :=
  let qs := xs.map fun v => if kv == .bf16 then F32num v else quantise kv (F32num scale) (F32num v)
  (s.coreWrite i addr (packRow kv (qs.map (convert kv)))).2

/-- Count what new elements of fresh entries saturate or convert wrongly (R67, R193). -/
def State.countFresh (s : State) (i : Nat) (kv : Elem) (scale : F32) (xs : List F32) : State :=
  let qs := xs.map fun v => if kv == .bf16 then F32num v else quantise kv (F32num scale) (F32num v)
  (s.count i .kvSaturation (qs.filter (saturates kv)).length).count i .convFaults (qs.filter (convFault kv)).length

/-- Write part of one fresh entry under the scales of the folio that will hold it (R175). A folio with committed entries keeps its
scales (R193). One that this impression opens takes its scale over all fresh entries that the impression writes for it (R192): what it
wrote before is converted afresh when a later tile raises the scale (log 24). -/
def State.writeEntry (s : State) (i : Nat) (b : AttendBody) (value : Bool) (l : LayerCfg) (handle pos addr : Nat) (xs : List F32) :
    State :=
  match (s.imp i).serve.folioAt handle b.layer b.head pos with
  | none => (s.countFresh i l.kv 0x3F800000#32 xs).putFresh i l.kv 0x3F800000#32 addr xs
  | some f =>
    let own := if value then f.2.sV else f.2.sK
    if l.kv == .bf16 || decide (0 < f.2.fill) then (s.countFresh i l.kv own xs).putFresh i l.kv own addr xs
    else
      let kept := (s.imp i).run.freshParts.filter fun p => !(p.folio == f.1 && p.value == value && p.addr == addr)
      let all := kept ++ [⟨f.1, value, pos, addr, xs⟩]
      let mine := all.filter fun p => p.folio == f.1 && p.value == value
      let scale := folioScale l.kv l.headroom l.sMin (amax (mine.flatMap fun p => p.xs.map F32num))
      let s := s.modRun i fun r => { r with freshParts := all }
      let s := s.modFolio i f.1 fun g => if value then { g with sV := scale } else { g with sK := scale }
      mine.foldl (fun s p => s.putFresh i l.kv scale p.addr p.xs) (s.countFresh i l.kv scale xs)

/-- Write rows of a fresh block from byte `off` of its key or value region, at address `a`: one fresh entry, or part of one, per row.
Rows past the slot's width are null rows, and their results are discarded (R332). -/
def State.writeFresh (s : State) (i : Nat) (b : AttendBody) (value : Bool) (l : LayerCfg) (off a : Nat) (rows : List (List F32)) :
    State :=
  match slotAt (s.imp i).run.manifest b.seq with
  | none => s
  | some t =>
    let kb := l.kv.bytes l.d
    ((rows.zipIdx).filter fun x => decide (off / kb + x.2 < t.fresh)).foldl (fun s x =>
      s.writeEntry i b value l t.request (freshPos t (off / kb + x.2)) (a + x.2 * kb) x.1) s

/-- Bytes of one KV entry of an attend tile's layer. -/
def State.kvBytes (s : State) (i : Nat) (b : AttendBody) : Nat :=
  match s.layer i b.layer with | some l => l.kv.bytes l.d | none => 0

/-- The fresh block of an attend tile that holds a T0 address: it always lies in the near slice of the core that attends (R175). -/
def State.freshBlock (s : State) (i a : Nat) : Option (AttendBody × Bool × Nat) :=
  if isReserve a then none else (s.core (t0Core a)).freshAt (s.kvBytes i) (t0Off a)

/-- Write a WRITE tile's or vector command's rows: into a fresh block under folio scales, else as R92 states. -/
def State.writeOut (s : State) (core i : Nat) (f : Elem) (sf : Scale) (a : Nat) (rows : List (List F32)) : State :=
  match s.freshBlock i a with
  | some (b, value, off) =>
    match s.layer i b.layer with
    | some l => if l.kv == f then s.writeFresh i b value l off a rows else s.writeRows core i f sf a rows
    | none => s.writeRows core i f sf a rows
  | none => s.writeRows core i f sf a rows

/-! Tiles (R69, R88, R91 to R99). -/

/-- The rows of a tile whose operands met damage that its source's RETURN status must tell (R282): each row's status, from its own
damage or that of the weights. -/
def Core.rowStatus (c : Core) (half a : Nat) : Option Nat :=
  c.staged.findSome? fun g =>
    if g.half == half && decide (g.off ≤ a) && decide (a < g.off + g.rows * g.stride)
    then (g.bad.find? fun x => x.1 == g.row0 + (a - g.off) / g.stride).map (·.2) else none

/-- A tile's output leaves: the Densitometer's squares, the output's tensor scale, the converted rows (R92, R112, R302); rows of an
expert that met damage are zeros and their statuses are noted (R282). -/
def State.writeTile (s : State) (core i : Nat) (b : MatrixBody) (batch marks : List (Option Nat)) (out : List (List F32)) :
    State :=
  let s := if b.watch = 0xFF then s else
    (out.zip batch).foldl (fun s x => match x.2 with
      | some row => s.addSquares i b.watch row core b.wCol (x.1.map fun v => mulF v v)
      | none => s) s
  let rowsOut := (out.zip marks).map fun x => x.1.map fun v => if x.2.isSome then zeroF false else mulF v b.outFactor
  let s := match s.runtimeAt i b.outAddr with
    | some (d, _) => s.modRun i fun r => { r with scales := spPut 0x3F800000#32 r.scales d b.outScale }
    | none => s
  let f := (Elem.ofCode b.outFmt).getD .fp32
  let stride := match s.runtimeAt i b.outAddr with | some (_, t) => t.rowBytes | none => f.bytes b.n
  let spoiled := marks.zipIdx.filterMap fun x => x.1.map fun st => (b.outAddr + x.2 * stride, st)
  let s := (List.range b.m).foldl (fun s m => s.moveMarks i 0 0 (b.outAddr + m * stride) (f.bytes b.n) 1 1) s
  let s := if spoiled.isEmpty then s else s.modRun i fun r => { r with badRows := r.badRows ++ spoiled }
  s.writeOut core i f ((Scale.ofCode b.outSf).getD .none) b.outAddr rowsOut

/-- A tile of the Platen, or of the Roller. -/
def matrixTile (roller : Bool) (core i : Nat) (r : BitVec 512) (s : State) : State :=
  let b := matrixBody r
  match s.desc i b.wDesc, s.desc i b.aDesc with
  | some w, some a =>
    match pairing w.fmt a.fmt with
    | none => s
    | some cl =>
      let len := passElems roller w a
      let k := b.passes * len
      let lane := if roller then 2 else 0
      let c := s.core core
      let known := s.reports.length
      let half := b.half + (if roller then 2 else 0)
      let rows := c.tileRows roller a.fmt a.sf (b.half * halfBytes roller + b.aOff) b.m k
      let batch := s.tileBatch core i roller b w a
      let wr := s.readRows i (c.laneFonts lane) w b.wCol b.n b.wK k
      let s := wr.2.slugTrouble i b.wDesc w.shared id wr.1
      let wx := opRows w.fmt w.sf wr.1.codes wr.1.scales
      let s := if wx.2 then s.hurtTensor i b.wDesc 0x0300 else s
      let s := s.modCore core fun c => c.keepWeights roller w wr.1 b.n b.passes len
      let g := groupSize cl w.fmt w.sf a.fmt a.sf
      let ta := F32num (s.tensorScale i b.aDesc)
      let tw := F32num w.tscale
      let plate := s.plate i b.plate
      let s := match plate with
        | some p => s.adapterTrouble core i lane b p k w.k batch
        | none => s
      let s := match plate with
        | some p => if b.down then s.downStage core i lane b p k w.k rows a.fmt.block ta (fun m => (batch[m]?).join) else s
        | none => s
      let ups := match plate with
        | some p => if b.up && 0 < p.rc then s.plateRows core i lane p.uDesc b.wCol b.n 0 p.rc else ([], s)
        | none => ([], s)
      let s := ups.2
      let accs := if roller then (s.core core).accR else (s.core core).accP
      let out := (List.range b.m).map fun m =>
        let x := rows.nums.getD m []
        let xs := rows.scales.getD m []
        let ad := match (s.imp i).run.rowAdapter ((batch[m]?).join) with
          | some q => s.adapterMat i q b.plate
          | none => none
        (List.range b.n).map fun n =>
          let acc0 := if b.cont then spGet 0#32 accs (b.accBase + m * b.n + n) else zeroF false
          let acc := (passResults (wx.1.nums.getD n []) x (wx.1.scales.getD n []) xs w.fmt.block a.fmt.block tw ta g len).foldl
            addF acc0
          match plate with
          | some p => if b.up then overprintAdd (c.laneFonts lane) (s.core core).rank m p (ups.1.getD n []) ad (b.wCol + n) acc else acc
          | none => acc
      let accs := out.zipIdx.foldl (fun q x => x.1.zipIdx.foldl (fun q y =>
        spPut 0#32 q (b.accBase + x.2 * b.n + y.2) y.1) q) accs
      let s := s.modCore core fun c => if roller then { c with accR := accs } else { c with accP := accs }
      if !b.write then s
      else
        let shared := (s.reports.drop known).findSome? fun x => match x.place with
          | .tensor _ => some x.status
          | _ => none
        let marks := (List.range b.m).map fun m =>
          if s.expertRows i core a then
            match c.rowStatus half (b.aOff + m * stagedStride a k) with
            | some st => some st
            | none => shared
          else none
        s.writeTile core i b batch marks out
  | _, _ => s

/-- PLATEN_TILE (R77 to R93). -/
def execPlatenTile (core : Fin 192) (job : Fin 8) (s : State) : Host.Outcome State Fault Refusal :=
  s.command core.val job.val 0x10 fun i r s => matrixTile false core.val i r s

/-- ROLLER_TILE (R94 to R99). -/
def execRollerTile (core : Fin 192) (job : Fin 8) (s : State) : Host.Outcome State Fault Refusal :=
  s.command core.val job.val 0x20 fun i r s => matrixTile true core.val i r s

/-! Times (R87, R88, R96, R98, R111), used by the edition's checks. -/

/-- b_col of R87: stored weight bytes of one column of one pass with its block scales. -/
def colBytes (w : Elem) (sf : Scale) (len : Nat) : Nat := w.bytes len + (if sf == .none then 0 else len / w.block)

/-- L_w of R87. -/
def loadCycles (w : Elem) (sf : Scale) (len n : Nat) : Nat := ceilDiv (n * colBytes w sf len) 256

/-- D_ov of R111. -/
def overprintCycles (m rd ru k n : Nat) : Nat := ceilDiv (m * rd * k) 4096 + ceilDiv (m * ru * n) 4096

/-- Plate bytes of R111. -/
def plateBytes (p : PlateEntry) (lo len aMax k n : Nat) (up : Bool) : Nat :=
  let corr := min (lo + len) p.rc - min lo p.rc
  let ad := len - corr
  2 * (corr * k + ad * aMax * k + (if up then p.rc * n + p.ra * aMax * n else 0))

/-- T of R88 for a tile over `m` rows whose passes load their weights in `lws` cycles; `dLast` is the previous tile's last pass of a chained
tile. -/
def platenCycles (h m : Nat) (lws : List Nat) (chained : Bool) (dLast dov plateCycles : Nat) : Nat :=
  let l0 := if chained then lws.headD 0 - dLast else lws.headD 0
  let main := l0 + ((lws.drop 1).map fun lw => max (m * h) lw).sum + m * h
  192 + max main (max dov (lws.sum + plateCycles))

/-- T_R of R98: `first` is the load of the first weight set, `loads` the sum of all set loads. -/
def rollerCycles (t n k first loads : Nat) (chained : Bool) (dov plateCycles : Nat) : Nat :=
  let main := (if chained then 0 else first) + n / 8 * (k / 512) * 4 * ceilDiv t 16
  48 + max main (max dov (loads + plateCycles))

end Sys2Proof.Machine
end

