-- ==== Sys2Proof/Machine/Attention.lean ====
section
/-!
DEFINITION. The Galley: attend tiles and merges (05_galley.md).
-/
namespace Sys2Proof.Machine

open Sys2Proof

/-- A row's state: running maximum, running sum, output accumulator (R159). -/
structure AttState where
  m : F32
  l : F32
  o : List F32
deriving DecidableEq, Repr

/-- The state that ZERO mode gives (R163). -/
def AttState.zero (d : Nat) : AttState := ⟨infF true, zeroF false, List.replicate d (zeroF false)⟩

/-- A key of a chunk as the Galley sees it: numbers, scales, position, fresh index, and whether it may be visible at all. -/
structure Key where
  k : List Num
  v : List Num
  sK : F32
  sV : F32
  pos : Nat
  fresh : Option Nat
  shown : Bool
deriving DecidableEq, Repr

/-- The score of a row against a key (R162). -/
def score (g block : Nat) (q qs : List Num) (tq c : F32) (k : Key) : F32 :=
  let one := Num.fin false 1 0
  treeF ((chunks g (q.zip k.k)).zipIdx.map fun x =>
    groupValue (x.1.map fun p => p.1.mul p.2)
      [(qs[g * x.2 / block]?).getD one, F32num tq, F32num k.sK, F32num c])

/-- Element `j` of group_pv (R163): the exact sum of exact products p × v over the visible keys, times s_V, rounded once. A fresh chunk
may hold the entries of two folios: then each product carries its own key's scale (log 25). -/
def groupPv (j : Nat) (xs : List (F32 × List Num × F32)) : F32 :=
  let prod := fun (x : F32 × List Num × F32) => (F32num x.1).mul ((x.2.1[j]?).getD (.fin false 0 0))
  match xs with
  | [] => groupValue [] []
  | x :: rest =>
    if rest.all fun y => y.2.2 == x.2.2 then groupValue (xs.map prod) [F32num x.2.2]
    else groupValue (xs.map fun y => (prod y).mul (F32num y.2.2)) []

/-- One chunk for one row (R163): for each key whether it is visible, its score, its values and its value scale. -/
def chunkUpdate (st : AttState) (keys : List (Bool × F32 × List Num × F32)) : AttState :=
  let vis := keys.filter (·.1)
  if vis.isEmpty then st
  else
    let mc := vis.foldl (fun a k => maxNan a k.2.1) (infF true)
    let mn := maxNan st.m mc
    if mn = infF true then st
    else
      let a := expF (subF st.m mn)
      let p := keys.map fun k => if k.1 then expF (subF k.2.1 mn) else zeroF false
      let l := addF (mulF st.l a) (treeF p)
      let seen := ((keys.zip p).filter fun y => y.1.1).map fun y => (y.2, y.1.2.2)
      let o := st.o.zipIdx.map fun x => addF (mulF x.1 a) (groupPv x.2 seen)
      ⟨mn, l, o⟩

/-- seg(p) of R168. -/
def segOf (starts : List Nat) (p : Nat) : Nat := (starts.filter (· ≤ p)).length - 1

/-- R168's conditions. -/
def segmentsValid (raw : List Nat) : Bool :=
  decide (1 ≤ raw.length) && decide (raw.length ≤ 4096) && raw.headD 1 == 0 && raw.all (· < 2 ^ 25)
    && (raw.zip (raw.drop 1)).all fun x => decide (x.1 < x.2)

/-- Is node `k` node `i` or one of its ancestors (R169)? -/
def isAncestor (par : List Nat) (k : Nat) : Nat → Nat → Bool
  | 0, i => decide (i = k)
  | n + 1, i => decide (i = k) || (decide (0 < i) && isAncestor par k n (par.getD i 0))

/-- What the masks of a tile read (R167 to R170). -/
structure Masks where
  nC : Nat
  window : Nat
  segs : Option (List Nat)
  tree : Option (List Nat)
  badSegs : Bool
  badTree : Bool
deriving DecidableEq, Repr

/-- Is a key visible to the row of query `q` at position `pq` (R167, R169, R170)? -/
def visible (mk : Masks) (q pq : Nat) (k : Key) : Bool :=
  let broken := mk.badSegs || mk.badTree
  let isFresh := k.fresh.isSome
  let nullRow := match mk.tree with | some par => decide (par.length ≤ q) | none => false
  k.shown && !(isFresh && (broken || nullRow)) && !mk.badSegs
    && (match mk.tree, k.fresh with
        | some par, some j => isAncestor par j 64 q
        | _, _ => decide (k.pos ≤ pq))
    && (isFresh || decide (k.pos < mk.nC))
    && (mk.window == 0 || decide ((pq : Int) - mk.window < k.pos))
    && (match mk.segs with | some sg => segOf sg k.pos == segOf sg pq | none => true)

/-- A folio's keys for a tile, in eight chunks of 32 (R163, R173, R174, R185, R187, R188), read in the slice that the far mask gives the
entry (R172). A null entry gives none; one whose address leaves the imprint's rights is damage of the page at `page` that supplied it
(R225). -/
def State.folioKeys (s : State) (i : Nat) (l : LayerCfg) (slice page entry : Nat) : List (List Key) × State :=
  let id := bitsOf entry 31 0
  let tier := bitsOf entry 59 58
  if tier = 3 || tier = 1 || tier = 2 || id = 0xFFFFFFFF then ([], s)
  else
    let a := t0Addr slice (256 * bitsOf entry 57 40)
    let rb := l.kv.bytes l.d
    let h := s.coreRead i a 256
    let f := fun lo n => ofLeBytes ((h.1.drop lo).take n)
    let base := f 16 4
    let sound := f 4 1 == (match l.kv with | .bf16 => 0x02 | .e4m3 => 0x10 | .e5m2 => 0x11 | _ => 0x21)
      && f 5 1 * 64 == l.d && base % 256 == 0 && decide (base < 2 ^ 25)
    if !h.2.1 then ([], h.2.2.badIndex i page)
    else if !sound then ([], if (linesOf a 256).any s.lineBad then h.2.2 else h.2.2.report ⟨i, .t0 a, 0x0300, none⟩)
    else
      let b := h.2.2.coreRead i (a + 256) (512 * rb)
      let row := fun n => (unpackRow l.kv l.d ((b.1.drop (n * rb)).take rb)).map fun c => l.kv.value (c.getD 0)
      let keys := (List.range 256).map fun e =>
        Key.mk (row e) (row (256 + e)) (BitVec.ofNat 32 (f 20 4)) (BitVec.ofNat 32 (f 24 4)) (base + e) none true
      (chunks 32 keys, b.2.2)

/-- The keys of the fresh block (R175, R305), with the scale of the folio that will hold each entry. -/
def State.freshKeys (s : State) (i core : Nat) (l : LayerCfg) (b : AttendBody) (t : Slot) : List (List Key) × State :=
  let rb := l.kv.bytes l.d
  let a := t0Addr core b.freshOff
  let va := t0Addr core (roundUp (b.freshOff + b.nF * rb) 256)
  let k := s.coreRead i a (b.nF * rb)
  let v := k.2.2.coreRead i va (b.nF * rb)
  let row := fun (bs : List Byte) n => (unpackRow l.kv l.d ((bs.drop (n * rb)).take rb)).map fun c => l.kv.value (c.getD 0)
  let keys := (List.range (min b.nF t.fresh)).map fun e =>
    let pos := freshPos t e
    let fo := (s.imp i).serve.folioAt t.request b.layer b.head pos
    let one : F32 := 0x3F800000#32
    let sk := match fo with | some f => if l.kv == .bf16 then one else f.2.sK | none => one
    let sv := match fo with | some f => if l.kv == .bf16 then one else f.2.sV | none => one
    Key.mk (row k.1 e) (row v.1 e) sk sv pos (some e) true
  (chunks 32 keys, v.2.2)

/-- The galley store's place of a row (R159; log 20). -/
def stateIndex (d row : Nat) : Nat := row * (d + 2)

/-- A row's state in the store. -/
def Core.attState (c : Core) (d row : Nat) : AttState :=
  let g := fun k => spGet 0#32 c.galley (stateIndex d row + k)
  ⟨g 0, g 1, (List.range d).map fun j => g (2 + j)⟩

/-- Keep a row's state in the store. -/
def Core.putAtt (c : Core) (d row : Nat) (x : AttState) : Core :=
  { c with galley := ((x.m :: x.l :: x.o).zipIdx).foldl (fun g y => spPut 0#32 g (stateIndex d row + y.2) y.1) c.galley }

/-- A triple's bytes (R165). -/
def AttState.triple (x : AttState) : List Byte := f32Bytes (x.m :: x.l :: x.o)

/-- A triple from bytes (R165). -/
def AttState.ofTriple (bs : List Byte) : AttState :=
  let xs := f32s bs
  ⟨xs.getD 0 0, xs.getD 1 0, xs.drop 2⟩

/-- The normalised output of FINAL mode, before its conversion to the output format: +0 where l is +0, else each element times the
reciprocal of l, times the output factor (R92, R164). -/
def AttState.final (x : AttState) (factor : F32) : List F32 :=
  if x.l = zeroF false then x.o.map fun _ => zeroF false
  else let rho := recipF x.l; x.o.map fun v => mulF (mulF v rho) factor

/-- Write states as triples or as final rows (R164). -/
def State.writeAtt (s : State) (core i : Nat) (final : Bool) (outFmt outSf : Nat) (factor : F32) (off : Nat)
    (rows : List AttState) : State :=
  let a := t0Addr core off
  if final then
    s.writeRows core i ((Elem.ofCode outFmt).getD .fp32) ((Scale.ofCode outSf).getD .none) a
      (rows.map fun x => x.final factor)
  else (s.coreWrite i a (rows.flatMap AttState.triple)).2

/-- Does a record write the query rows that start at a T0 address, and in which format: a WRITE tile's or ELEMENT's output. -/
def queryWriter (a : Nat) (r : BitVec 512) : Option (Elem × Scale × F32) :=
  let op := (cmdHead r).opcode
  let m := matrixBody r
  let v := vectorBody r
  let hit := fun (addr n fmt sf : Nat) (ts : F32) => match Elem.ofCode fmt, Scale.ofCode sf with
    | some f, some sc => if decide (addr ≤ a) && decide (a < addr + f.bytes n) then some (f, sc, ts) else none
    | _, _ => none
  if (op = 0x10 || op = 0x20) && m.write then hit m.outAddr (m.m * m.n) m.outFmt m.outSf m.outScale
  else if op = 0x40 then hit v.dst v.n v.outFmt v.outSf 0x3F800000#32
  else none

/-- The format, block scale and writer's tensor scale of the query rows at an OFFSET of a core's slice (R161): those of the run-time tensor
that holds them, else those of the record of the imprint's schedule that writes them; BF16 where neither is (log 26). The flag says that
the rows are stored as slugs. -/
def queryFormat (g : ImprintCfg) (core off : Nat) : Elem × Scale × F32 × Bool :=
  let a := t0Addr core off
  match g.formats.descs.find? fun d => d.cls == 2 && !bitOf d.flags 1 && decide (d.location ≤ a) && decide (a < d.location + d.stored) with
  | some d => (d.fmt, d.sf, 0x3F800000#32, d.slugged)
  | none => match g.schedule.streams.findSome? fun x => x.cmds.findSome? (queryWriter a) with
    | some x => (x.1, x.2.1, x.2.2, false)
    | none => (.bf16, .none, 0x3F800000#32, false)

/-- The query rows of a tile with their block scales (R157, R161; log 26), and whether any byte was invalid (R55). -/
def State.queryRows (s : State) (i core off d rows : Nat) : (OpRows × Elem × Scale × F32 × Bool) × State :=
  let q := ((s.cfg i).map (queryFormat · core off)).getD (.bf16, .none, 0x3F800000#32, false)
  let a := t0Addr core off
  let f := q.1
  let sf := q.2.1
  let ts := match s.runtimeAt i a with | some (n, _) => s.tensorScale i n | none => q.2.2.1
  let rb := f.bytes d
  let x := s.coreRead i a (rows * rb)
  let codes := (parts rb rows x.1).map (unpackRow f d)
  let nb := if sf == .none then 0 else d / f.block
  let p := x.2.2.coreRead i (roundUp (a + rows * rb) 256) (rows * nb)
  let o := opRows f sf codes ((parts nb rows p.1).map fun bs => bs.map (·.toNat))
  ((o.1, f, sf, ts, o.2), p.2.2)

/-- The group size of R160. -/
def scoreGroup (q : Elem) : Nat := if q == .bf16 then 8 else 32

/-- The keys of an attend tile's shard slot, entry after entry (R163, R172, R173, R341). -/
def State.shardKeys (s : State) (core i : Nat) (l : LayerCfg) (b : AttendBody) : List (List Key) × State :=
  let page := match (s.imp i).run.shards[b.shard]? with
    | some h => if h.null then none else some h.page
    | none => none
  match page with
  | none => ([], s)
  | some a =>
    let p := s.coreRead i a (8 * b.e)
    (((chunks 8 p.1).map ofLeBytes).zipIdx).foldl (fun (acc : List (List Key) × State) e =>
      let x := acc.2.folioKeys i l (if bitOf b.farMask e.2 then b.farCore else core) (a + 8 * e.2) e.1
      (acc.1 ++ x.1, x.2)) (([] : List (List Key)), p.2.2)

/-- The words of a segment list up to its end: no field gives its length, and the list ends before the first zero after its first word
(R168; log 107). -/
def segmentWords (raw : List Nat) : List Nat :=
  raw.head?.toList ++ ((raw.zip (raw.drop 1)).takeWhile fun x => x.2 != 0).map (·.2)

/-- The masks of a tile (R167 to R170). A parent vector has one node per fresh entry of the slot (R340), and stands for a slot of KIND 3
only; one of more nodes than the fresh block has entries is damage (log 106). -/
def State.tileMasks (s : State) (core i : Nat) (l : LayerCfg) (b : AttendBody) (slot : Option Slot) : Masks × State :=
  let sx := if b.document then s.coreRead i (t0Addr core b.segOff) (4 * 4096) else ([], true, s)
  let segs := segmentWords (u32s sx.1)
  let nodes := match slot with
    | some t => if b.tree && t.kind == .tree then t.fresh else 0
    | none => 0
  let tx := sx.2.2.coreRead i (t0Addr core b.parOff) nodes
  let par := tx.1.map (·.toNat)
  (⟨(slot.map (·.nC)).getD 0, if b.window then l.window else 0, if b.document then some segs else none,
    if nodes = 0 then none else some par, b.document && !segmentsValid segs,
    decide (0 < nodes) && !(parentsValid par && decide (nodes ≤ b.nF))⟩, tx.2.2)

/-- The position of the query of row group `q` (R167, R169, R170). -/
def Masks.position (mk : Masks) (q : Nat) : Nat :=
  if mk.badTree then mk.nC
  else match mk.tree with
    | some p => if q < p.length then mk.nC + depthOf p 64 q - 1 else mk.nC
    | none => mk.nC + q

/-- Run an attend tile (R157 to R175). -/
def attendTile (core i : Nat) (r : BitVec 512) (s : State) : State :=
  let b := attendBody r
  match s.layer i b.layer with
  | none => s
  | some l =>
    let slot := slotAt (s.imp i).run.manifest b.seq
    let qx := s.queryRows i core b.qOff l.d b.rows
    let fo := qx.2.shardKeys core i l b
    let fx := match slot with | some t => if b.nF = 0 then ([], fo.2) else fo.2.freshKeys i core l b t | none => ([], fo.2)
    let mx := fx.2.tileMasks core i l b slot
    let mk := mx.1
    let s := if mk.badSegs || mk.badTree || qx.1.2.2.2.2 then mx.2.damageSlot i b.seq 0x0300 else mx.2
    let c := s.core core
    let states := (List.range b.rows).map fun row =>
      let q := row / max l.g 1
      let qn := qx.1.1.nums.getD row []
      let qs := qx.1.1.scales.getD row []
      (fo.1 ++ fx.1).foldl (fun st ks => chunkUpdate st (ks.map fun k =>
          (visible mk q (mk.position q) k, score (scoreGroup qx.1.2.1) qx.1.2.1.block qn qs qx.1.2.2.2.1 b.c k, k.v, k.sV)))
        (if b.cont then c.attState l.d (b.stateRow + row) else AttState.zero l.d)
    let s := s.modCore core fun c => states.zipIdx.foldl (fun c x => c.putAtt l.d (b.stateRow + x.2) x.1) c
    if b.silent then s
    else s.writeAtt core i b.final b.outFmt b.outSf b.outFactor b.outOff states

/-- ATTEND (R157 to R176). -/
def execAttend (core : Fin 192) (job : Fin 8) (s : State) : Host.Outcome State Fault Refusal :=
  s.command core.val job.val 0x30 fun i r s => attendTile core.val i r s

/-- The merge of a left and a right triple (R181). -/
def mergeStates (a b : AttState) : AttState :=
  let m := maxNan a.m b.m
  if m = infF true then ⟨m, zeroF false, a.o.map fun _ => zeroF false⟩
  else
    let a1 := expF (subF a.m m)
    let a2 := expF (subF b.m m)
    ⟨m, addF (mulF a.l a1) (mulF b.l a2), (a.o.zip b.o).map fun x => addF (mulF x.1 a1) (mulF x.2 a2)⟩

/-- MERGE (R181 to R183, R306): the core's own state is the left operand, the right triple is read from its near slice. -/
def execMerge (core : Fin 192) (job : Fin 8) (s : State) : Host.Outcome State Fault Refusal :=
  s.command core.val job.val 0x31 fun i r s =>
    let b := mergeBody r
    match s.layer i b.layer with
    | none => s
    | some l =>
      let n := 4 * (l.d + 2)
      let x := s.coreRead i (t0Addr core.val b.right) (b.rows * n)
      let s := x.2.2
      let c := s.core core.val
      let states := (List.range b.rows).map fun row =>
        mergeStates (c.attState l.d (b.stateRow + row)) (AttState.ofTriple ((x.1.drop (row * n)).take n))
      let s := s.modCore core.val fun c => states.zipIdx.foldl (fun c x => c.putAtt l.d (b.stateRow + x.2) x.1) c
      s.writeAtt core.val i b.final b.outFmt b.outSf b.outFactor b.outOff states

/-! Times (R176, R183). -/

/-- Bytes of one token's key and value (R176). -/
def tokenBytes (kv : Elem) (d : Nat) : Nat := 2 * kv.bytes d

/-- b_f of R176. -/
def folioBytes (kv : Elem) (d : Nat) : Nat := 256 * tokenBytes kv d + 256

/-- Set bits of a mask below `n`. -/
def popBits (n x : Nat) : Nat := ((List.range n).filter (Nat.testBit x)).length

/-- T_G of R176, with no shortfall. -/
def attendCycles (q kv : Elem) (d rows e far nF : Nat) : Nat :=
  let bf := folioBytes kv d
  let bt := tokenBytes kv d
  let farN := popBits e far
  let near := (e - farN) * bf + nF * bt
  let farB := farN * bf
  let p := if q == .bf16 then 4096 else 16384
  96 + max (ceilDiv near 444) (max (ceilDiv farB 128) (max (ceilDiv (near + farB) 512) (ceilDiv (rows * (256 * e + nF) * d * 2) p)))

/-- T_M of R183. -/
def mergeCycles (rows d : Nat) (final : Bool) : Nat :=
  32 + ceilDiv (rows * (d + 2)) 16 + (if final then 32 + ceilDiv (rows * d) 64 else 0)

end Sys2Proof.Machine
end

