-- ==== Sys2Proof/Machine/Cabinet.lean ====
section
/-!
DEFINITION. Cabinet (T1): address mapping, segments with their outer code, reads, merged writes (R234 to R242, R249, R250).
Encryption is not visible in the bytes a requester meets, so segments are held in their plain form (log 4).
-/
namespace Sys2Proof.Machine

open Sys2Proof

/-- A T1 channel. -/
def State.ch (s : State) (c : Nat) : Channel := spGet Channel.empty s.t1 c

/-- Change a T1 channel. -/
def State.modCh (s : State) (c : Nat) (f : Channel → Channel) : State := { s with t1 := spMod Channel.empty s.t1 c f }

/-- Bytes of data that one channel holds (R235). -/
def channelBytes : Nat := 4026531840

/-- An imprint's channel set (R234). -/
def State.channelSet (s : State) (i : Nat) : List Nat := ((s.imp i).cfg.map (·.channels)).getD []

/-- R235: the channel and local line of an imprint's T1 line. -/
def t1Map (set : List Nat) (line : Nat) : Nat × Nat :=
  let n := set.length
  let q := line / n
  let f := (q ^^^ (q >>> 9) ^^^ (q >>> 18) ^^^ (q >>> 27)) &&& 0x1FF
  (set.getD ((line % n + f) % n) 0, q)

/-- Do `n` bytes from an imprint's T1 address lie inside its address space (R235)? -/
def State.t1Inside (s : State) (i a n : Nat) : Bool :=
  decide (a + n ≤ (s.channelSet i).length * channelBytes)

/-- The codeword that a byte of a segment belongs to (R238): 1,024 data bytes, then the check bytes. -/
def codewordOf (k : Nat) : Nat := if k < 1024 then k % 8 else (k - 1024) / 8

/-- The damaged bytes of a segment. -/
def Channel.badOf (c : Channel) (seg : Nat) : List Nat := (c.bad.filter fun x => x.1 == seg).map (·.2)

/-- R239: some codeword of the segment has more than one byte in error. -/
def Channel.segBad (c : Channel) (seg : Nat) : Bool :=
  (List.range 8).any fun w => decide (2 ≤ ((c.badOf seg).filter fun k => codewordOf k == w).length)

/-- R239: the segment has errors, and each codeword has at most one. -/
def Channel.segFixed (c : Channel) (seg : Nat) : Bool := !c.segBad seg && !(c.badOf seg).isEmpty

/-- Valid codes for a segment: its errors are gone. -/
def Channel.mend (c : Channel) (seg : Nat) : Channel :=
  { c with bad := c.bad.filter fun x => x.1 != seg, rewrite := c.rewrite.filter (· != seg) }

/-- Report lines of a channel's segment to the Compositor (R250, R254). -/
def State.reportLines (s : State) (ch : Nat) (lines : List Nat) : State :=
  lines.foldl (fun s q => s.report ⟨(s.channelOwner ch).getD 16, .t1 ch q, 0x0300, none⟩) s

/-- The four local lines of a segment. -/
def segLines (seg : Nat) : List Nat := (List.range 4).map (4 * seg + ·)

/-- What reading a segment for a requester does besides delivering: counts, reports and the rewrite to come (R250, R254). -/
def State.touchSeg (s : State) (ch seg : Nat) : State :=
  let c := s.ch ch
  if c.segBad seg then
    (s.modCh ch fun c => { c with uncorrectable := wrapAdd 32 c.uncorrectable 1,
                                  rewrite := if c.rewrite.contains seg then c.rewrite else c.rewrite ++ [seg] }).reportLines
      ch (segLines seg)
  else if c.segFixed seg then s.modCh ch fun c => { c with corrected := wrapAdd 32 c.corrected 1 }
  else s

/-- The imprint lines that bytes from a T1 address touch. -/
def t1Lines (a n : Nat) : List Nat := linesOf a n

/-- The segments that lines of a channel set lie in, in ascending imprint address of their first line named (R293). -/
def segsOf (set : List Nat) (a n : Nat) : List (Nat × Nat) := nub ((t1Lines a n).map fun l => ((t1Map set l).1, (t1Map set l).2 / 4))

/-- The segments that lines of an imprint lie in. -/
def State.t1Segs (s : State) (i a n : Nat) : List (Nat × Nat) := segsOf (s.channelSet i) a n

/-- What one line delivers: its bytes, or zeros. -/
def State.t1Line (s : State) (i l : Nat) : List Byte :=
  let m := t1Map (s.channelSet i) l
  let c := s.ch m.1
  if c.segBad (m.2 / 4) then List.replicate 256 0#8 else memRead c.data (256 * m.2) 256

/-- Bytes of an imprint's T1 as a requester meets them. -/
def State.t1Bytes (s : State) (i a n : Nat) : List Byte :=
  (((t1Lines a n).flatMap (s.t1Line i)).drop (a % 256)).take n

/-- Does the read of bytes meet an uncorrectable segment? -/
def State.t1Hurt (s : State) (i a n : Nat) : Bool := (s.t1Segs i a n).any fun x => (s.ch x.1).segBad x.2

/-- Read bytes of an imprint's T1; outside its addresses, zeros (R225). -/
def State.t1Read (s : State) (i a n : Nat) : List Byte × State :=
  if (s.channelSet i).isEmpty || !s.t1Inside i a n then (List.replicate n 0#8, s)
  else (s.t1Bytes i a n, (s.t1Segs i a n).foldl (fun s x => s.touchSeg x.1 x.2) s)

/-- The bytes of one segment that a write from imprint address `a` does not cover are kept, or zeroed and reported when the
segment is uncorrectable (R237, R250). -/
def State.mergeSeg (s : State) (i a n : Nat) (x : Nat × Nat) : State :=
  let set := s.channelSet i
  let whole := (segLines x.2).all fun q =>
    (t1Lines a n).any fun l => t1Map set l == (x.1, q) && decide (a ≤ 256 * l) && decide (256 * l + 256 ≤ a + n)
  let c := s.ch x.1
  if whole then s.modCh x.1 fun c => c.mend x.2
  else if c.segBad x.2 then
    let named := ((t1Lines a n).filter fun l => decide (a ≤ 256 * l) && decide (256 * l + 256 ≤ a + n)).map (t1Map set)
    let s := s.modCh x.1 fun c =>
      { (c.mend x.2) with data := memWrite c.data (1024 * x.2) (List.replicate 1024 0#8),
                          uncorrectable := wrapAdd 32 c.uncorrectable 1 }
    s.reportLines x.1 ((segLines x.2).filter fun q => !named.contains (x.1, q))
  else (s.touchSeg x.1 x.2).modCh x.1 fun c => c.mend x.2

/-- Write one line's share of bytes: the pieces of a write are cut at 256 B boundaries. -/
def State.t1Put (s : State) (i a : Nat) (bs : List Byte) : State :=
  let m := t1Map (s.channelSet i) (a / 256)
  s.modCh m.1 fun c => { c with data := memWrite c.data (256 * m.2 + a % 256) bs }

/-- Pieces of bytes cut at 256 B boundaries of the address, by fuel. -/
def cut256 : Nat → Nat → List Byte → List (Nat × List Byte)
  | 0, _, _ => []
  | _, _, [] => []
  | n + 1, a, bs =>
    let k := 256 - a % 256
    (a, bs.take k) :: cut256 n (a + k) (bs.drop k)

/-- Write bytes of an imprint's T1; outside its addresses they are dropped (R225). -/
def State.t1Write (s : State) (i a : Nat) (bs : List Byte) : State :=
  if (s.channelSet i).isEmpty || !s.t1Inside i a bs.length then s
  else
    let s := (s.t1Segs i a bs.length).foldl (fun s x => s.mergeSeg i a bs.length x) s
    (cut256 (bs.length + 1) a bs).foldl (fun s x => s.t1Put i x.1 x.2) s

end Sys2Proof.Machine
end

