-- ==== Sys2Proof/Machine/FabCore.lean ====
section
/-!
DEFINITION. The fabric's shared operations: a port's sender (R393 to R398), routing (R408 to R413), streams at the source
(R429 to R433, R441, R442).
-/
namespace Sys2Proof.Machine

open Sys2Proof

/-! Ports. -/

/-- A port. -/
def State.port (s : State) (p : Nat) : Port := spGet Port.reset s.ports p

/-- Change a port. -/
def State.modPort (s : State) (p : Nat) (f : Port → Port) : State := { s with ports := spMod Port.reset s.ports p f }

/-- Something leaves the block. -/
def State.emit (s : State) (e : Emission) : State := { s with out := s.out ++ [e] }

/-- Put a value at a place of a list. -/
def listSet {α : Type} (xs : List α) (i : Nat) (v : α) : List α := xs.set i v

/-- Add to a place of a list. -/
def listAdd (xs : List Nat) (i n : Nat) : List Nat := xs.set i (xs.getD i 0 + n)

/-- Raise one of a port's eight counters (R415): 0 corrected, 1 uncorrectable, 2 CRC, 3 replays, 4 retrains, 5 expired,
6 unroutable, 7 wrap violations. -/
def State.portCount (s : State) (p k : Nat) : State :=
  s.modPort p fun x => { x with count := x.count.set k (wrapAdd 64 (x.count.getD k 0) 1) }

/-- The credit pool of a sequenced packet (R392). -/
def poolOf (h : PktHead) : Nat := 2 * (h.vc % 2) + bit h.dl

/-- May the port send one more sequenced packet of `g` granules (R393)? -/
def Port.windowFree (x : Port) (g : Nat) : Bool :=
  decide (x.unacked.length < 2048) && decide (32 * ((x.unacked.map fun p => p.body.granules).sum + g) ≤ 262144)

/-- Credit for a packet (R397). -/
def Port.hasCredit (x : Port) (p : Packet) : Bool := decide (p.body.granules ≤ x.credit.getD (poolOf p.head) 0)

/-- The head packet of a source in a VC, with its place. -/
def Port.headOf (x : Port) (vc source : Nat) : Option (Nat × Packet) :=
  (x.ready.zipIdx.find? fun r => r.1.source == source && r.1.p.head.vc == vc).map fun r => (r.2, r.1.p)

/-- R398: the next packet of a VC, sources in turn after the one last served; only one the sender may send now. -/
def Port.pickVc (x : Port) (vc : Nat) : Option (Nat × Nat × Packet) :=
  let last := x.served.getD vc 20
  ((List.range 21).map fun k => (last + 1 + k) % 21).findSome? fun src =>
    match x.headOf vc src with
    | some (k, p) => if x.hasCredit p && x.windowFree p.body.granules then some (src, k, p) else none
    | none => none

/-- Number a packet (R393) and spend its credit (R397). -/
def Port.book (x : Port) (p : Packet) : Packet × Port :=
  let p' := { p with head := { p.head with lseq := x.nextSeq } }
  (p', { x with nextSeq := (x.nextSeq + 1) % 4096, unacked := x.unacked ++ [p'],
                credit := x.credit.set (poolOf p.head) (x.credit.getD (poolOf p.head) 0 - p.body.granules) })

/-- The block's own HELLO on a port (R402). -/
def State.helloOf (s : State) (p : Nat) : Hello :=
  let plan := match s.ed.inForce with
    | some e => match e.body with
      | .major m => m.topology.ports[p]?
      | .minor _ => none
    | none => none
  { uid := Config.pkgUid, node := s.fab.endpoint, isSwitch := false, port := p, wireMax := s.wireMax, wireMin := s.wireMin,
    role := if p < 7 then 0 else if p < 14 then 1 else 2, edition := s.ed.number, plane := 0xFFFF,
    owner := ((plan.bind fun e => e.wrap)).getD 0xFFFF }

/-- A header with only its kind and VC set. -/
def bareHead (kind vc source : Nat) : PktHead := ⟨kind, 0, vc, false, 0, source, 0, 0, 0, 0, 0, 0, 0, 0⟩

/-- One thing that a port in HELLO or beyond can send now, by the order of R398 (LINK packets leave when their timer says):
replays, HELLO, VC1, VC0. -/
def State.portSendOne (s : State) (p : Nat) : Option State :=
  let x := s.port p
  if s.stopped || x.loopback then none
  else
    match x.toReplay with
    | q :: rest =>
      if x.state == .up && s.power.rest != .rest && x.hasCredit q then
        some ((s.modPort p fun x =>
          { x with toReplay := rest,
                   credit := x.credit.set (poolOf q.head) (x.credit.getD (poolOf q.head) 0 - q.body.granules) }).emit
          (.packet p q))
      else none
    | [] =>
      if x.helloDue && decide (2 ≤ x.credit.getD 4 0)
          && (x.state == .hello || x.state == .up || x.state == .held || (x.state == .retrain && x.substate == 2)) then
        some ((s.modPort p fun x =>
          { x with helloDue := false, helloSent := true, credit := x.credit.set 4 (x.credit.getD 4 0 - 2) }).emit
          (.packet p ⟨bareHead 2 2 s.fab.endpoint, .hello (s.helloOf p)⟩))
      else if x.state == .up && s.power.rest != .rest then
        match (x.pickVc 1).map (fun r => (1, r)) <|> (x.pickVc 0).map (fun r => (0, r)) with
        | none => none
        | some (vc, src, k, q) =>
          let b := x.book q
          some ((s.modPort p fun _ =>
            { b.2 with ready := b.2.ready.eraseIdx k, served := b.2.served.set vc src }).emit (.packet p b.1))
      else none

/-- Send all that a port can send now, by fuel. -/
def State.portDrain (s : State) (p : Nat) : Nat → State
  | 0 => s
  | n + 1 => match s.portSendOne p with
    | some s' => s'.portDrain p n
    | none => s

/-- Does any port hold for forwarding a packet that came in on this port? -/
def State.holdsFrom (s : State) (p : Nat) : Bool :=
  (List.range 20).any fun q => (s.port q).ready.any fun r => r.source == p

/-- Return the whole VC0 and VC1 pools once nothing that came in earlier is held (R397). -/
def State.poolReturn (s : State) (p : Nat) : State :=
  if (s.port p).poolDue && !s.holdsFrom p then
    s.modPort p fun x => { x with poolDue := false, changed := true,
                                  freed := [1024, 1024, 1024, 1024, x.freed.getD 4 0] }
  else s

/-- Space of an input port's pool is free again (R397). -/
def State.free (s : State) (p pool g : Nat) : State :=
  if p < 20 then
    if (s.port p).poolDue && decide (pool < 4) then s.poolReturn p
    else s.modPort p fun x => { x with freed := listAdd x.freed pool g, changed := true }
  else s

/-- The sources of packets that left a port between two states of it. -/
def freedBy (before after : Port) : List Ready :=
  before.ready.filter fun r => !after.ready.any fun q => q.source == r.source && q.p == r.p

/-- Let a port send; the input ports whose packets left get their space back. -/
def State.pump (s : State) (p : Nat) : State :=
  let x := s.port p
  let s' := s.portDrain p (x.ready.length + x.toReplay.length + 1)
  (freedBy x (s'.port p)).foldl (fun s r => s.free r.source (poolOf r.p.head) r.p.body.granules) s'

/-- Give a packet to an output port from a source (20 is the local queues). -/
def State.enqueue (s : State) (p source : Nat) (q : Packet) : State :=
  (s.modPort p fun x => { x with ready := x.ready ++ [⟨source, q⟩] }).pump p

/-! Routing. -/

/-- The topology plan in force. -/
def State.topology (s : State) : Option Topology :=
  s.ed.inForce.bind fun e => match e.body with
    | .major m => some m.topology
    | .minor _ => none

/-- Fields of an endpoint ID (R401). -/
def podOf (e : Nat) : Nat := bitsOf e 17 11
def rackOf (e : Nat) : Nat := bitsOf e 10 7
def trayOf (e : Nat) : Nat := bitsOf e 6 3
def slotOf (e : Nat) : Nat := bitsOf e 2 0

/-- R409: the path hash before it is reduced. -/
def pathHash (flow dest source : Nat) : Nat :=
  let x := (flow ^^^ (dest &&& 0xFFFF) ^^^ (source &&& 0xFFFF) ^^^ ((dest >>> 16) <<< 8) ^^^ ((source >>> 16) <<< 10)) % 2 ^ 32
  x ^^^ (x >>> 7)

/-- R409: the h-th port of a usable set. -/
def pickPort (flow dest source : Nat) (ports : List Nat) : Option Nat :=
  if ports.isEmpty then none else ports[pathHash flow dest source % ports.length]?

/-- The wrap owner that the plan gives a port (R403, R412). -/
def State.wrapOwner (s : State) (p : Nat) : Option Nat := s.topology.bind fun t => (t.ports[p]?).bind (·.wrap)

end Sys2Proof.Machine

namespace Sys2Proof

/-- Does an imprint's route table allow a port (R408, R410)? -/
def Routes.allows (r : Routes) (t : Option Topology) (p : Nat) : Bool :=
  if p < 7 then bitOf r.tray p
  else if p < 14 then bitOf r.planes (p - 7)
  else match r.optical with
    | .none => false
    | .torus | .mesh => true
    | .tree => match t.bind (·.tree) with
      | some x => x.parent == p || x.children.any fun c => c.1 == p
      | none => false

end Sys2Proof

namespace Sys2Proof.Machine

open Sys2Proof

/-- R410's usable ports for an imprint, among those fixed at its last impression boundary (R404). -/
def State.usable (s : State) (i : Nat) : List Nat :=
  match (s.imp i).cfg with
  | none => []
  | some g =>
    ((s.imp i).run.ports.filter fun x =>
      decide ((s.imp i).wire ≤ x.2) && g.routes.allows s.topology x.1
        && (match s.wrapOwner x.1 with | some o => o == g.routes.tslice | none => true)).map (·.1)

/-- A direction of travel along a dimension (R411): 0 none, 1 plus, 2 minus. -/
def direction (torus : Bool) (own target n : Nat) : Nat :=
  if own = target then 0
  else if torus then
    let d := (target + n - own) % n
    if d ≤ n - d then 1 else 2
  else if own < target then 1 else 2

/-- Coordinates of a pod (R408). -/
def State.coords (s : State) (pod : Nat) : Option (Nat × Nat × Nat) := s.topology.bind fun t => t.podMap[pod]?

/-- The directions a packet to `dest` takes (R411). -/
def State.directions (s : State) (kind : Optical) (dest : Nat) : Nat × Nat × Nat :=
  match s.topology, s.coords (podOf s.fab.endpoint), s.coords (podOf dest) with
  | some t, some a, some b =>
    let f := direction (kind == .torus)
    if kind == .torus || kind == .mesh then
      (f a.1 b.1 t.dims.1, f a.2.1 b.2.1 t.dims.2.1, f a.2.2 b.2.2 t.dims.2.2)
    else (0, 0, 0)
  | _, _, _ => (0, 0, 0)

/-- The optical port of a dimension (0 X, 1 Y, 2 Z) and direction (R383). -/
def opticalPort (dim dir : Nat) : Nat := 14 + 2 * dim + (if dir = 1 then 0 else 1)

/-- The tree port towards a pod (R411). -/
def treePort (t : TreePlan) (pod : Nat) : Nat := ((t.children.find? fun c => c.2.contains pod).map (·.1)).getD t.parent

/-- The optical hop of a packet at a node whose directions still to run are given: the port and its dimension. -/
def opticalHop (d : Nat × Nat × Nat) : Option (Nat × Nat) :=
  if d.1 ≠ 0 then some (opticalPort 0 d.1, 0) else if d.2.1 ≠ 0 then some (opticalPort 1 d.2.1, 1)
  else if d.2.2 ≠ 0 then some (opticalPort 2 d.2.2, 2) else none

/-- The last three lines of R410, over a usable set. -/
def podHop (self dest flow source : Nat) (usable : List Nat) : Option Nat :=
  let planes := pickPort flow dest source (usable.filter fun p => decide (7 ≤ p) && decide (p < 14))
  if rackOf dest = rackOf self && trayOf dest = trayOf self then
    let p := (slotOf dest + 7 - slotOf self) % 8
    if usable.contains p then some p else planes
  else planes

/-- R410: the first hop of a packet of imprint `i`; none is UNREACHABLE. -/
def State.firstHop (s : State) (i dest flow : Nat) : Option Nat :=
  match (s.imp i).cfg with
  | none => none
  | some g =>
    let self := s.fab.endpoint
    let use := s.usable i
    if !(g.routes.reach.any fun e => dest &&& e.2 == e.1) then none
    else match g.routes.override.find? fun e => dest &&& e.2.1 == e.1 with
      | some e => pickPort flow dest self (use.filter fun p => bitOf e.2.2 p)
      | none =>
        if podOf dest ≠ podOf self then
          let p := match g.routes.optical with
            | .tree => (s.topology.bind (·.tree)).map fun t => treePort t (podOf dest)
            | k => (opticalHop (s.directions k dest)).map Prod.fst
          p.filter use.contains
        else podHop self dest flow self use

/-- A packet that starts here: its directions formed by R411, its hops 32, its DL 0, and 1 where the first hop is a wrap link
(R413; log 33). -/
def State.freshHead (s : State) (i kind vc dest flow tslice port : Nat) (opt : Optical) : PktHead :=
  let d := if podOf dest = podOf s.fab.endpoint then (0, 0, 0) else s.directions opt dest
  { kind := kind, lseq := 0, vc := vc, dl := (s.wrapOwner port).isSome, dest := dest, source := s.fab.endpoint, imprint := i,
    wire := (s.imp i).wire, hops := 32, flow := flow, tslice := tslice, xdir := d.1, ydir := d.2.1, zdir := d.2.2 }

/-! Streams at the source. -/

/-- The batch epoch of an imprint (R279). -/
def State.epoch (s : State) (i : Nat) : Nat := (s.imp i).run.epoch

/-- The stream of an imprint towards a package (R429). -/
def State.stream (s : State) (i target : Nat) : OutStream :=
  (s.fab.streams.find? fun x => x.imprint == i && x.target == target).getD
    { imprint := i, target := target,
      sgen := Config.sgenDraw s.fab.boots i target + BitVec.ofNat 32 s.fab.gens, next := 0, dead := false, holdoff := false,
      outstanding := [], waiting := [] }

/-- A stream put in its place in a list of streams, or at its end. -/
def putStream (xs : List OutStream) (x : OutStream) : List OutStream :=
  if xs.any (fun y => y.imprint == x.imprint && y.target == x.target) then
    xs.map fun y => if y.imprint == x.imprint && y.target == x.target then x else y
  else xs ++ [x]

/-- Put a stream back. -/
def State.setStream (s : State) (x : OutStream) : State :=
  { s with fab := { s.fab with streams := putStream s.fab.streams x } }

/-- R441: the flow key of the k-th send of a request. -/
def flowKey (addr k : Nat) : Nat :=
  let line := (addr &&& 0x1FFFFFFFFFF) >>> 8
  let f := (line ^^^ (line >>> 16) ^^^ (line >>> 32)) &&& 0xFFFF
  (f ^^^ (k * 0x9E37)) &&& 0xFFFF

/-- A cause of R521 for an imprint, with its subject, waiting to be acted on. -/
def State.cause (s : State) (i code subject : Nat) : State :=
  if s.causes.any (fun c => c.1 == i) then s else { s with causes := s.causes ++ [(i, code, subject)] }

/-- A reply slot that gets its bytes. -/
def ReplySlot.fill (target eseq : Nat) (bs : List Byte) (r : ReplySlot) : ReplySlot :=
  if r.target = target && r.eseq = eseq && r.data.isNone then { r with data := some bs } else r

/-- Record a reply's bytes for the quoin that admits it (R310, R323). -/
def State.replyTo (s : State) (core job target eseq : Nat) (bs : List Byte) : State :=
  s.modCore core fun c => c.modJob job fun x => { x with replies := x.replies.map (ReplySlot.fill target eseq bs) }

/-- R442 and R519: zeros for the reply bytes of a refused or lost operation. -/
def State.zeroReply (s : State) (target : Nat) (o : Outst) : State :=
  if o.req.op = 0x01 || decide (0x10 ≤ o.req.op) then
    s.replyTo o.core o.job target o.req.eseq.toNat
      (List.replicate (if o.req.op = 0x01 then o.req.length else 8) 0#8)
  else s

/-- R519: the local range of a refused operation, as line addresses, with the status that its owner ends with. -/
def State.refusalAt (s : State) (i : Nat) (o : Outst) (status : Nat) : State :=
  let st := if status = 0x0300 || status = 0x0600 then status else 0x0601
  let a := if o.req.op = 0x01 then o.dst else o.src
  let n := max 1 o.req.length
  let extra := if decide (0x10 ≤ o.req.op) then [(o.dst / 256 * 256, st)] else []
  s.modServe i fun v => { v with refusals := nub (v.refusals ++ (linesOf a n).map (fun l => (256 * l, st)) ++ extra) }

/-- An operation of a lent region that no longer counts for its folio's transfer. -/
def Outst.forget (folio : Nat) (o : Outst) : Outst :=
  { o with morgue := o.morgue.map fun m => if m.1 = folio then (2 ^ 32, m.2) else m }

/-- What is still under way of a folio's transfer with a lender no longer counts for it (R216, R253). -/
def State.forgetMorgue (s : State) (i folio : Nat) : State :=
  { s with fab := { s.fab with streams := s.fab.streams.map fun x =>
      if x.imprint = i then { x with outstanding := x.outstanding.map (Outst.forget folio), waiting := x.waiting.map (Outst.forget folio) }
      else x } }

/-- A folio's transfer is given up: a spill leaves the source copy the only home, a prefetch may be issued again (R216, R253). -/
def State.giveUpMove (s : State) (i folio : Nat) : State :=
  (s.forgetMorgue i folio).modFolio i folio fun f =>
    { f with move := f.move.bind fun m => if m.spill then none else some { m with failed := true } }

/-- A T2 transfer has failed (R253): it is counted and given up; a failure ends no request. -/
def State.failMove (s : State) (i folio : Nat) : State := (s.count i .morgueFailed 1).giveUpMove i folio

/-- Bytes put at an offset of a list. -/
def spliceBytes (bs : List Byte) (off : Nat) (xs : List Byte) : List Byte := bs.take off ++ xs ++ bs.drop (off + xs.length)

/-- A lender has answered one operation of a folio's transfer (R251). -/
def State.morgueAnswer (s : State) (i : Nat) (at_ : Nat × Nat) (bs : List Byte) : State :=
  s.modFolio i at_.1 fun f => { f with move := f.move.map fun m =>
    { m with left := m.left - 1, image := if m.spill then m.image else spliceBytes m.image at_.2 bs } }

/-- An operation is lost or finds no route (R410, R432, R442): its reply is zeros and the imprint has cause 1 of R521. Roster
traffic gives no cause: the target's arrivals are missing (log 34). One of a lent region fails its transfer as well (R253). -/
def State.loseOp (s : State) (i target : Nat) (o : Outst) : State :=
  let s := s.count i .fabLost 1
  match o.morgue with
  | some m => (s.failMove i m.1).cause i 1 target
  | none => if o.roster then s else (s.zeroReply target o).cause i 1 target

/-- Packets of a request as it is sent the k-th time (R425, R432). -/
def State.requestPacket (s : State) (i target : Nat) (o : Outst) (port : Nat) : Packet :=
  let opt := ((s.imp i).cfg.map (·.routes.optical)).getD .none
  let ts := ((s.imp i).cfg.map (·.routes.tslice)).getD 0xFFFF
  ⟨s.freshHead i 3 0 target (flowKey o.req.addr.toNat o.sends) ts port opt, .request { o.req with retry := decide (0 < o.sends) }⟩

/-- Send one request of a stream now: on its first hop, or lost where there is none; one to the package itself never enters the
fabric (R410) and goes straight to the edge die (log 35). -/
def State.transmit (s : State) (i target : Nat) (o : Outst) : State × Bool :=
  if target = s.fab.endpoint then
    ({ s with fab := { s.fab with loop := s.fab.loop ++ [s.requestPacket i target o 20] } }, true)
  else match s.firstHop i target (flowKey o.req.addr.toNat o.sends) with
  | none => (s, false)
  | some p => (s.enqueue p 20 (s.requestPacket i target o p), true)

/-- Is request `n - 4096` still unanswered (R430)? -/
def OutStream.full (x : OutStream) : Bool :=
  x.outstanding.any fun o => o.req.eseq == x.next - 4096#32

/-- Number a request and send it on its stream (R429, R430): a dead stream loses it at once, a window or a holdoff makes it
wait. -/
def State.sendOn (s : State) (i target : Nat) (o : Outst) : State :=
  let x := s.stream i target
  if x.dead then s.loseOp i target o
  else if x.holdoff || x.full || !x.waiting.isEmpty then s.setStream { x with waiting := x.waiting ++ [o] }
  else
    let o := { o with req := { o.req with eseq := x.next, sgen := x.sgen, epoch := BitVec.ofNat 32 (s.epoch i) } }
    let s := (s.count i .fabSent 1)
    let r := s.transmit i target o
    if r.2 then
      r.1.setStream { x with next := x.next + 1, outstanding := x.outstanding ++ [{ o with sends := 1 }] }
    else s.loseOp i target o

/-- The reply slot that an operation with a reply takes under its job (R310), numbered as it will be sent. -/
def State.claimReply (s : State) (core job target eseq dst n : Nat) : State :=
  s.modCore core fun c => c.modJob job fun x => { x with replies := x.replies ++ [⟨target, eseq, dst, n, none, false, false⟩] }

/-- The number that the next request on a stream will carry when those waiting have gone first. -/
def State.nextEseq (s : State) (i target : Nat) : Nat :=
  let x := s.stream i target
  (x.next + BitVec.ofNat 32 x.waiting.length).toNat

/-- Let waiting requests of a stream go, by fuel. -/
def State.drainStream (s : State) (i target : Nat) : Nat → State
  | 0 => s
  | n + 1 =>
    let x := s.stream i target
    match x.waiting with
    | [] => s
    | o :: rest =>
      if x.holdoff || (x.full && !x.dead) then s
      else
        let s := s.setStream { x with waiting := [] }
        let s := s.sendOn i target o
        let y := s.stream i target
        (s.setStream { y with waiting := rest }).drainStream i target n

end Sys2Proof.Machine
end

