-- ==== Sys2Proof/Machine/Setter.lean ====
section
/-!
DEFINITION. The Setter: ELEMENT, REDUCE, SAMPLE, FONT_STATS (R74 to R76, R138, R139, R307, R349 to R354).
-/
namespace Sys2Proof.Machine

open Sys2Proof

/-- Read `n` values in an element format from a T0 address, as FP32 (R75: BF16 promoted exactly). -/
def State.readVals (s : State) (i : Nat) (fmt a n : Nat) : List F32 × State :=
  let f := (Elem.ofCode fmt).getD .fp32
  let x := s.coreRead i a (f.bytes n)
  ((unpackRow f n x.1).map fun c => match f with
    | .fp32 => BitVec.ofNat 32 (c.getD 0)
    | f => roundF (f.value (c.getD 0)), x.2.2)

/-- The sub-operations of ELEMENT on one place (R307). -/
def elementOp (subop : Nat) (imm a b d : F32) : F32 :=
  match subop with
  | 0 => addF a b
  | 1 => mulF a b
  | 2 => fmaF a b d
  | 3 => minMaxF true a b
  | 4 => minMaxF false a b
  | 5 => expF a
  | 6 => recipF a
  | 7 => rsqrtF a
  | 8 => a
  | _ => mulF a imm

/-- ELEMENT (R75, R76, R137, R307): N elements; the result is written in OUT_FMT, for conversions under the blocks of R56 to
R58. -/
def execElement (core : Fin 192) (job : Fin 8) (s : State) : Host.Outcome State Fault Refusal :=
  s.command core.val job.val 0x40 fun i r s =>
    let b := vectorBody r
    let x := s.readVals i b.inFmt b.srcA b.n
    let two := decide (b.subop ≤ 4)
    let y := if two then x.2.readVals i b.inFmt b.srcB b.n else ([], x.2)
    let f := (Elem.ofCode b.outFmt).getD .fp32
    let z := if b.subop = 2 then y.2.readVals i b.outFmt b.dst b.n else ([], y.2)
    let out := x.1.zipIdx.map fun p =>
      elementOp b.subop b.imm p.1 (y.1.getD p.2 0#32) (z.1.getD p.2 0#32)
    let g := (Elem.ofCode b.inFmt).getD .fp32
    let s := z.2.moveMarks i b.srcA (g.bytes b.n) b.dst (f.bytes b.n) f.bits g.bits
    s.writeOut core.val i f (if b.subop = 8 then (Scale.ofCode b.outSf).getD .none else .none) b.dst [out]

/-- A tree of maxima in the shape of R68. -/
def pairMax : List F32 → List F32
  | a :: b :: xs => minMaxF true a b :: pairMax xs
  | xs => xs

/-- The maximum by the fixed tree, by fuel; of no elements the spec states no maximum: a free value (log 10). -/
def treeMaxAux : Nat → List F32 → F32
  | _, [] => Config.maxOfNone
  | _, [x] => x
  | 0, x :: _ => x
  | n + 1, xs => treeMaxAux n (pairMax xs)

/-- Horizontal reduction: the fixed tree over the 512 lanes of each vector, then over vectors in issue order (R74). -/
def lanesTree (tree : List F32 → F32) (xs : List F32) : F32 := tree ((chunks 512 xs).map tree)

/-- REDUCE (R74, R307): sum, maximum or sum of squares of N elements, written as one value. -/
def execReduce (core : Fin 192) (job : Fin 8) (s : State) : Host.Outcome State Fault Refusal :=
  s.command core.val job.val 0x41 fun i r s =>
    let b := vectorBody r
    let x := s.readVals i b.inFmt b.srcA b.n
    let v := match b.subop with
      | 0 => lanesTree treeF x.1
      | 1 => lanesTree (fun xs => treeMaxAux xs.length xs) x.1
      | _ => lanesTree treeF (x.1.map fun v => mulF v v)
    x.2.writeOut core.val i ((Elem.ofCode b.outFmt).getD .fp32) .none b.dst [[v]]

/-! Draws and decisions (R351 to R354). -/

/-- `mix` of R351. -/
def mix64 (z : BitVec 64) : BitVec 64 :=
  let z := (z ^^^ (z >>> 30)) * 0xBF58476D1CE4E5B9#64
  let z := (z ^^^ (z >>> 27)) * 0x94D049BB133111EB#64
  z ^^^ (z >>> 31)

/-- `draw` of R351. -/
def draw64 (seed : BitVec 64) (pos idx : Nat) : BitVec 64 :=
  let k := mix64 (seed + 0x9E3779B97F4A7C15#64)
  mix64 (k ^^^ (BitVec.ofNat 64 (pos % 2 ^ 32 * 2 ^ 32) ||| BitVec.ofNat 64 (idx % 2 ^ 32)))

/-- `uniform` of R351. -/
def uniformF (x : BitVec 64) : F32 := roundF (.fin false (x >>> 40).toNat (-24))

/-- What a draft or kept list gives a token: +0 where it is not listed. -/
def listGet (q : List (Nat × F32)) (x : Nat) : F32 := ((q.find? fun p => p.1 == x).map (·.2)).getD (zeroF false)

/-- `max(+0, x)` of R353's residual. -/
def posPart (x : F32) : F32 := if ltF (zeroF false) x then x else zeroF false

/-- The tests of a row's children (R353): the accepted child, or the residual list. -/
def childTests (greedy : Option Nat) (seed : BitVec 64) (pos : Nat) (q : List (Nat × F32)) :
    List (Nat × Nat) → Nat → List (Nat × F32) → Sum (Nat × Nat) (List (Nat × F32))
  | [], _, cur => .inr cur
  | (node, x) :: cs, j, cur =>
    match greedy with
    | some g => if x = g then .inl (node, x) else childTests greedy seed pos q cs (j + 1) cur
    | none =>
      let sm := treeF (cur.map (·.2))
      let qx := listGet q x
      let ratio := if ltF (zeroF false) qx then mulF (listGet cur x) (recipF (mulF qx sm)) else zeroF false
      if ltF (uniformF (draw64 seed pos j)) ratio then .inl (node, x)
      else childTests greedy seed pos q cs (j + 1) (cur.map fun p => (p.1, posPart (subF p.2 (listGet q p.1))))

/-- The final draw over a list (R353). -/
def finalDraw (t : F32) : List (Nat × F32) → F32 → Option Nat → Nat
  | [], _, last => last.getD 0
  | (i, v) :: xs, c, last =>
    if ltF (zeroF false) v then
      let c := addF c v
      if ltF t c then i else finalDraw t xs c (some i)
    else finalDraw t xs c last

/-- One row's decision (R353): the token, and the accepted child's node. -/
def decideRow (greedy : Bool) (p q : List (Nat × F32)) (children : List (Nat × Nat)) (seed : BitVec 64) (pos : Nat) :
    Nat × Option Nat :=
  let g := if greedy then
      some ((p.foldl (fun (a : Option (Nat × F32)) x => match a with
        | none => some x
        | some y => if ltF y.2 x.2 then some x else some y) none).map (·.1) |>.getD 0)
    else none
  match childTests g seed pos q children 0 p with
  | .inl (node, x) => (x, some node)
  | .inr cur =>
    match g with
    | some x => (x, none)
    | none =>
      let sm := treeF (cur.map (·.2))
      let cur' := if sm = zeroF false then p else cur
      let sm' := if sm = zeroF false then treeF (p.map (·.2)) else sm
      let t := mulF (uniformF (draw64 seed pos 64)) sm'
      (finalDraw t cur' (zeroF false) none, none)

/-- Pairs of a u32 token and an FP32 value up to the first place that does not ascend or is the filler of R287. -/
def pairList (bs : List Byte) : List (Nat × F32) :=
  let ps := (chunks 8 bs).map fun c => (ofLeBytes (c.take 4), (BitVec.ofNat 32 (ofLeBytes (c.drop 4)) : F32))
  let first := (ps.take 1).filter fun x => x.1 != 0xFFFFFFFF
  if first.isEmpty then [] else
  first ++ ((ps.zip (ps.drop 1)).takeWhile fun x => decide (x.1.1 < x.2.1) && x.2.1 != 0xFFFFFFFF).map (·.2)

/-- The children of fresh entry `n` of a slot, ascending (R349, R353). -/
def childrenOf (t : Slot) (n : Nat) : List Nat :=
  match t.kind with
  | .draft => if n + 1 < t.fresh then [n + 1] else []
  | .tree => (List.range t.fresh).filter fun c => decide (0 < c) && t.parents.getD c 0 == n
  | _ => []

/-- SAMPLE (R307, R353, R354): the decision of the slot's next row, written as a decision record (log 27). -/
def execSample (core : Fin 192) (job : Fin 8) (s : State) : Host.Outcome State Fault Refusal :=
  s.command core.val job.val 0x42 fun i r s =>
    let b := vectorBody r
    let x := s.coreRead i b.srcA (8 * b.n)
    let p := pairList x.1
    match slotAt (s.imp i).run.manifest b.aux with
    | none => (x.2.2.coreWrite i b.dst (leBytes 8 (0x7F * 2 ^ 32))).2
    | some t =>
      let done := spGet [] (s.imp i).run.decisions b.aux
      let row := if t.kind == .prompt || t.kind == .chunk then t.fresh - 1 else done.length
      let kids := childrenOf t row
      let dk := match s.cfg i with | some g => g.serving.draftK | none => 256
      let q := if kids.isEmpty then ([], true, x.2.2) else x.2.2.coreRead i b.srcB (8 * dk)
      let s := q.2.2
      let toks := s.coreRead i (t0Addr (if core.val < 96 then 0xF0 else 0xF2) t.tokensAt) (4 * t.fresh)
      let s := toks.2.2
      let ts := u32s toks.1
      let d := if p.isEmpty then (0, none)
        else decideRow (t.tau == zeroF false) p (pairList q.1) (kids.map fun c => (c, ts.getD c 0)) t.seed
          (freshPos t row + 1)
      let s := s.modRun i fun u => { u with decisions := spPut [] u.decisions b.aux (done ++ [⟨d.1, d.2, p.isEmpty⟩]) }
      let node := match d.2 with | some n => n | none => 0x7F
      (s.coreWrite i b.dst (leBytes 8 (d.1 + node * 2 ^ 32))).2

/-- FONT_STATS (R139): the count tables of the stream's writing cores are added element by element into DST, and each table is
zeroed after it is read. -/
def execFontStats (core : Fin 192) (job : Fin 8) (s : State) : Host.Outcome State Fault Refusal :=
  s.command core.val job.val 0x43 fun i r s =>
    let b := vectorBody r
    match (s.cfg i).bind fun g => g.formats.streams[b.aux]? with
    | none => s
    | some fs =>
      let n := fs.kind.alphabet
      let acc := fs.tables.foldl (fun (a : List Nat × State) t =>
        let x := a.2.coreRead i t.2 (8 * n)
        let cs := (chunks 8 x.1).map ofLeBytes
        ((a.1.zip cs).map fun p => wrapAdd 64 p.1 p.2, (x.2.2.coreWrite i t.2 (List.replicate (8 * n) 0#8)).2))
        (List.replicate n 0, s)
      (acc.2.coreWrite i b.dst (acc.1.flatMap (leBytes 8))).2

end Sys2Proof.Machine
end

