-- ==== Sys2Proof/Machine/Imposer.lean ====
section
/-!
DEFINITION. The Imposer and its Collator: expert choice, blocks, collation, ordering and gathering (08_imposition.md). Operand
layouts that the spec does not give are log 28.
-/
namespace Sys2Proof.Machine

open Sys2Proof

/-! Layers and capacity. -/

/-- An expert layer of the placement. -/
def State.expertLayer (s : State) (i l : Nat) : Option ExpertLayer :=
  (s.placement i).bind fun p => p.layers.find? fun x => x.layer == l

/-- C of R262. -/
def capacity (cMax f nDom e : Nat) : Nat := min cMax (max 1 (ceilDiv (f * nDom) (256 * e)))

/-- The routed tokens of a manifest as (slot, fresh entry), by local index (R257). -/
def routedTokens (m : List Slot) : List (Nat × Nat) :=
  m.zipIdx.flatMap fun x => if x.1.kind == .empty then [] else (List.range x.1.fresh).map fun e => (x.2, e)

/-- Affinity order: descending by value, NaN never a candidate (R264). -/
def affGt (a b : F32) : Bool := ltF b a

/-! Blocks (R273, R274). -/

/-- A block header's fields. -/
structure BlockHead where
  type : Nat
  wire : Nat
  layer : Nat
  expert : Nat
  replica : Nat
  count : Nat
  rowFmt : Nat
  scaleFmt : Nat
  rowBytes : Nat
  impression : Nat
  epoch : Nat
  source : Nat
  dest : Nat
deriving DecidableEq, Repr

/-- The 64 B of a header (R273). -/
def BlockHead.bytes (h : BlockHead) : List Byte :=
  leBytes 1 h.type ++ leBytes 1 h.wire ++ leBytes 2 h.layer ++ leBytes 2 h.expert ++ leBytes 1 h.replica ++ [0#8]
    ++ leBytes 4 h.count ++ leBytes 1 h.rowFmt ++ leBytes 1 h.scaleFmt ++ leBytes 2 0 ++ leBytes 4 h.rowBytes ++ leBytes 4 0
    ++ leBytes 8 h.impression ++ leBytes 4 h.epoch ++ leBytes 4 h.source ++ leBytes 4 h.dest ++ List.replicate 20 0#8

/-- A header from bytes. -/
def BlockHead.ofBytes (bs : List Byte) : BlockHead :=
  let f := fun i n => ofLeBytes ((bs.drop i).take n)
  ⟨f 0 1, f 1 1, f 2 2, f 4 2, f 6 1, f 8 4, f 12 1, f 13 1, f 16 4, f 24 8, f 32 4, f 36 4, f 40 4⟩

/-- A header of this package for the impression open. -/
def State.blockHead (s : State) (i type layer expert replica count dest : Nat) : BlockHead :=
  let r := (s.imp i).run
  ⟨type, (s.imp i).wire, layer, expert, replica, count, 0, 0, 0, r.impression, r.epoch, s.fab.endpoint, dest⟩

/-- Stride of CANDIDATES blocks in a list of them. -/
def candStride (cap : Nat) : Nat := roundUp (64 + 8 * cap) 256
/-- Stride of PICKS blocks. -/
def picksStride (cap : Nat) : Nat := roundUp (64 + 4 * cap) 256
/-- Stride of DISPATCH headers with their index lists. -/
def dispStride (cap : Nat) : Nat := roundUp (64 + 2 * cap) 256
/-- Bytes of a RETURN block for `cap` rows. -/
def retStride (cap rowBytes : Nat) : Nat := roundUp (64 + 4 * cap) 256 + cap * roundUp rowBytes 256

/-- ROUTE_LOCAL (R261, R264, R267): rank the package's tokens for each expert and write the CANDIDATES blocks. -/
def execRouteLocal (core : Fin 192) (job : Fin 8) (s : State) : Host.Outcome State Fault Refusal :=
  s.command core.val job.val 0x50 fun i r s =>
    let b := vectorBody r
    match s.expertLayer i b.aux with
    | none => s
    | some l =>
      let run := (s.imp i).run
      let n := min b.n run.routed
      let x := s.coreRead i b.srcA (4 * b.n * b.k)
      let a := f32s x.1
      let c := capacity b.cap l.f (if l.group then run.nDom else run.routed) l.experts.length
      (List.range b.k).foldl (fun s e =>
        let col := (List.range n).map fun t => (t, a.getD (t * b.k + e) nanF)
        let cand := col.filter fun p => isFin p.2
        let s := s.count i .nonFinite (col.length - cand.length)
        let ranked := (sortBy (fun p q => affGt p.2 q.2) cand).take c
        let dest := ((l.experts[e]?).bind fun p => p.replicas.head?).map (·.1) |>.getD s.fab.endpoint
        let h := s.blockHead i 0x11 b.aux e 0xFF ranked.length dest
        let s := s.modRun i fun u => { u with cands := spPut 0 u.cands (b.aux * 4096 + e) cand.length }
        (s.coreWrite i (b.dst + e * candStride b.cap)
          (h.bytes ++ ranked.flatMap fun p => leBytes 4 p.2.toNat ++ leBytes 2 p.1 ++ leBytes 2 0)).2) x.2.2

/-- ROUTE_MERGE (R264, R267 to R269): merge the CANDIDATES blocks of one expert, assign replicas, write the PICKS blocks. -/
def execRouteMerge (core : Fin 192) (job : Fin 8) (s : State) : Host.Outcome State Fault Refusal :=
  s.command core.val job.val 0x51 fun i r s =>
    let b := vectorBody r
    let layer := b.aux % 65536
    let e := b.aux / 65536
    match s.expertLayer i layer with
    | none => s
    | some l =>
      let reps := ((l.experts[e]?).map fun p => p.replicas.length).getD 1
      let x := s.coreRead i b.srcA (b.k * candStride b.cap)
      let blocks := (List.range b.k).map fun k =>
        let bs := (x.1.drop (k * candStride b.cap)).take (candStride b.cap)
        let h := BlockHead.ofBytes bs
        (h.source, (List.range (min h.count b.cap)).map fun j =>
          let f := fun o n => ofLeBytes ((bs.drop (64 + 8 * j + o)).take n)
          ((BitVec.ofNat 32 (f 0 4) : F32), f 4 2))
      let all := blocks.flatMap fun p => p.2.map fun q => (q.1, p.1, q.2)
      let rank := sortBy (fun p q => affGt p.1 q.1 || (eqF p.1 q.1 &&
        (decide (p.2.1 < q.2.1) || (p.2.1 == q.2.1 && decide (p.2.2 < q.2.2))))) all
      let c := capacity b.cap l.f (if l.group then (s.imp i).run.nDom else (s.imp i).run.routed) l.experts.length
      let taken := sortBy (fun p q => decide (p.2.1 < q.2.1) || (p.2.1 == q.2.1 && decide (p.2.2 < q.2.2))) (rank.take c)
      let picks := taken.zipIdx.map fun p => (p.1.2.1, p.1.2.2, p.2 % reps)
      blocks.zipIdx.foldl (fun s p =>
        let mine := picks.filter fun q => q.1 == p.1.1
        let h := s.blockHead i 0x12 layer e 0xFF mine.length p.1.1
        (s.coreWrite i (b.dst + p.2 * picksStride b.cap)
          (h.bytes ++ mine.flatMap fun q => leBytes 4 (q.2.1 + q.2.2 * 65536))).2) x.2.2

/-- The element-format code of R38. -/
def elemCode : Elem → Nat
  | .fp32 => 1 | .bf16 => 2 | .e4m3 => 0x10 | .e5m2 => 0x11 | .int8 => 0x12
  | .fp4 => 0x20 | .int4 => 0x21 | .w2 => 0x30 | .ternary => 0x31 | .binary => 0x32

/-- The block-scale code of R38. -/
def scaleCode : Scale → Nat
  | .none => 0 | .e8m0 => 1 | .e4m3 => 2

/-- The slots of routed tokens, by local index. -/
def State.tokenSlots (s : State) (i : Nat) (lis : List Nat) : List Nat :=
  let ts := routedTokens (s.imp i).run.manifest
  nub (lis.filterMap fun t => (ts[t]?).map (·.1))

/-- IMPOSE (R281, R283): build the imposition record and the DISPATCH index lists from PICKS blocks. -/
def execImpose (core : Fin 192) (job : Fin 8) (s : State) : Host.Outcome State Fault Refusal :=
  s.command core.val job.val 0x52 fun i r s =>
    let b := vectorBody r
    let h0 := s.coreRead i b.srcA 64
    let layer := (BlockHead.ofBytes h0.1).layer
    match h0.2.2.expertLayer i layer with
    | none => h0.2.2
    | some l =>
      let cap := max l.cMax 1
      let nb := ceilDiv b.n cap
      let nE := l.experts.length
      let run := (s.imp i).run
      let x := h0.2.2.coreRead i b.srcA (nb * picksStride cap)
      let g := x.2.2.coreRead i b.srcB (4 * run.routed * nE)
      let a := f32s g.1
      let out := (List.range nb).foldl (fun (acc : State × Nat) k =>
        let s := acc.1
        let bs := (x.1.drop (k * picksStride cap)).take (picksStride cap)
        let h := BlockHead.ofBytes bs
        let e := h.expert
        let reps := ((l.experts[e]?).map (·.replicas)).getD []
        let entries := (List.range (min h.count cap)).map fun j =>
          let v := ofLeBytes ((bs.drop (64 + 4 * j)).take 4)
          (v % 65536, bitsOf v 19 16)
        let okBody := entries.all (fun p => decide (p.1 < run.routed) && decide (p.2 < reps.length)) && ascending (entries.map (·.1))
        let s := if okBody then s else
          (s.tokenSlots i (entries.map (·.1))).foldl (fun s n => s.hurtSlot i n 0x0300) s
        let good := if okBody then entries else []
        let s := s.count i (.taken layer e) good.length
        let s := s.count i (.overflow layer e) (spGet 0 run.cands (layer * 4096 + e) - good.length)
        let s := (List.range reps.length).foldl (fun s q =>
          let mine := (good.filter fun p => p.2 == q).map (·.1)
          let rowB := l.rowFmt.bytes l.width + (if l.rowScale == .none then 0 else l.width / l.rowFmt.block)
          let dest := ((reps[q]?).map (·.1)).getD s.fab.endpoint
          let hd := { s.blockHead i 0x13 layer e q mine.length dest with
            rowFmt := elemCode l.rowFmt, scaleFmt := scaleCode l.rowScale, rowBytes := rowB }
          let s := (s.coreWrite i (b.dst + (acc.2 + q) * dispStride cap) (hd.bytes ++ mine.flatMap (leBytes 2))).2
          let recs := mine.zipIdx.map fun p => Pick.mk p.1 e q p.2 (a.getD (p.1 * nE + e) (zeroF false))
          s.modCore core.val fun c =>
            { c with picks := spMod [] c.picks layer fun old => old ++ recs,
                     sent := spPut [] c.sent ((layer * 4096 + e) * 16 + q) mine }) s
        (s, acc.2 + reps.length)) (g.2.2, 0)
      out.1

/-- The gate weights of a token's picks, ascending expert, under the layer's renormalisation (R266); whether it faulted. -/
def gatesOf (taken : Bool) (ps : List Pick) : List (Pick × F32) × Bool :=
  if !taken || ps.isEmpty then (ps.map fun p => (p, p.gate), false)
  else
    let sm := treeF (ps.map (·.gate))
    if !isFin sm || (F32num sm).isZero then (ps.map fun p => (p, zeroF false), true)
    else let rho := recipF sm; (ps.map fun p => (p, mulF p.gate rho), false)

/-- A RETURN block as the Collator reads it. -/
structure ReturnBlock where
  expert : Nat
  replica : Nat
  lis : List Nat
  statuses : List Nat
  rows : List (List F32)
deriving DecidableEq, Repr

/-- COLLATE (R281 to R285): the weighted sum of each token's returned rows in ascending expert index. -/
def execCollate (core : Fin 192) (job : Fin 8) (s : State) : Host.Outcome State Fault Refusal :=
  s.command core.val job.val 0x53 fun i r s =>
    let b := vectorBody r
    let h0 := s.coreRead i b.srcA 64
    let layer := (BlockHead.ofBytes h0.1).layer
    match h0.2.2.expertLayer i layer with
    | none => h0.2.2
    | some l =>
      let d := b.aux
      let rowB := l.retFmt.bytes d
      let places := l.experts.zipIdx.flatMap fun p => (List.range p.1.replicas.length).map fun q =>
        (p.2, q, ceilDiv l.cMax (max p.1.replicas.length 1))
      let got := places.foldl (fun (acc : List ReturnBlock × Nat × State) p =>
        let sz := retStride p.2.2 rowB
        let x := acc.2.2.coreRead i acc.2.1 sz
        let bs := x.1
        let s := x.2.2
        let h := BlockHead.ofBytes bs
        let n := min h.count p.2.2
        let u16 := fun o => ofLeBytes ((bs.drop o).take 2)
        let lis := (List.range n).map fun j => u16 (64 + 2 * j)
        let sts := (List.range n).map fun j => u16 (64 + 2 * n + 2 * j)
        let base := roundUp (64 + 4 * n) 256
        let rows := (List.range n).map fun j =>
          ((unpackRow l.retFmt d ((bs.drop (base + j * roundUp rowB 256)).take rowB)).map fun c => roundF (l.retFmt.value (c.getD 0)))
        let sent := spGet [] (s.core core.val).sent ((layer * 4096 + p.1) * 16 + p.2.1)
        let okBody := lis == sent
        let s := if okBody then s else (s.tokenSlots i (lis ++ sent)).foldl (fun s n => s.hurtSlot i n 0x0300) s
        let blk : ReturnBlock := if okBody then ⟨p.1, p.2.1, lis, sts, rows⟩ else ⟨p.1, p.2.1, [], [], []⟩
        (acc.1 ++ [blk], acc.2.1 + sz, s)) ([], b.srcA, h0.2.2)
      let s := got.2.2
      let ts := routedTokens (s.imp i).run.manifest
      let s := got.1.foldl (fun s k => (k.lis.zip k.statuses).foldl (fun s p =>
        if p.2 = 0 then s else
        match ts[p.1]? with
        | some t => s.modRun i fun u => { u with rowStatus := u.rowStatus ++ [(t.1, p.2)] }
        | none => s) s) s
      let recs := spGet [] (s.core core.val).picks layer
      let toks := (List.range (min b.n (s.imp i).run.routed)).map fun t =>
        gatesOf l.taken (sortBy (fun p q => decide (p.expert < q.expert)) (recs.filter fun p => p.li == t))
      let s := s.count i .renorm (toks.filter (·.2)).length
      let out := toks.map fun t =>
        (List.range d).map fun j =>
          t.1.foldl (fun c p =>
            let y := match got.1.find? (fun k => k.expert == p.1.expert && k.replica == p.1.replica) with
              | some k => if k.statuses.getD p.1.pos 0 = 0 then (k.rows.getD p.1.pos []).getD j (zeroF false) else zeroF false
              | none => zeroF false
            addF c (mulF p.2 y)) (zeroF false)
      let out := out ++ List.replicate (b.n - out.length) (List.replicate d (zeroF false))
      s.writeOut core.val i l.outFmt l.outScale b.dst out

/-! Ordering, gathering, scanning (R74, R287). -/

/-- A key's order: `a` before `b` ascending; NaN after every number in either direction. -/
def keyLt (kind a b : Nat) : Bool :=
  match kind with
  | 0 => decide (a < b)
  | 1 => decide (signedOf 32 a < signedOf 32 b)
  | _ =>
    let x : F32 := BitVec.ofNat 32 a
    let y : F32 := BitVec.ofNat 32 b
    ltF x y || (!isNaN x && isNaN y)

/-- A key's order descending, NaN still last. -/
def keyGt (kind a b : Nat) : Bool :=
  match kind with
  | 0 => decide (b < a)
  | 1 => decide (signedOf 32 b < signedOf 32 a)
  | _ =>
    let x : F32 := BitVec.ofNat 32 a
    let y : F32 := BitVec.ofNat 32 b
    ltF y x || (!isNaN x && isNaN y)

/-- Pairs of index and key as they are written. -/
def pairBytes (ps : List (Nat × Nat)) : List Byte := ps.flatMap fun p => leBytes 4 p.1 ++ leBytes 4 p.2

/-- SORT (R287): stable, ascending, the keys with their indices. -/
def execSort (core : Fin 192) (job : Fin 8) (s : State) : Host.Outcome State Fault Refusal :=
  s.command core.val job.val 0x54 fun i r s =>
    let b := vectorBody r
    let x := s.coreRead i b.srcA (4 * b.n)
    let ks := (u32s x.1).zipIdx.map fun p => (p.2, p.1)
    (x.2.2.coreWrite i b.dst (pairBytes (sortBy (fun p q => keyLt b.key p.2 q.2) ks))).2

/-- TOPK (R287): the k largest in rank order; places beyond n hold an all-ones index and a zero key. -/
def execTopk (core : Fin 192) (job : Fin 8) (s : State) : Host.Outcome State Fault Refusal :=
  s.command core.val job.val 0x55 fun i r s =>
    let b := vectorBody r
    let x := s.coreRead i b.srcA (4 * b.n)
    let ks := (u32s x.1).zipIdx.map fun p => (p.2, p.1)
    let top := (sortBy (fun p q => keyGt b.key p.2 q.2) ks).take b.k
    (x.2.2.coreWrite i b.dst (pairBytes (top ++ List.replicate (b.k - top.length) (0xFFFFFFFF, 0)))).2

/-- Bytes of an element of GATHER and SCATTER: 8 when no format is named. -/
def gatherBytes (fmt : Nat) : Nat := if fmt = 0 then 8 else max ((((Elem.ofCode fmt).map (·.bits)).getD 64) / 8) 1

/-- GATHER of the Imposer (R225, R287): N elements of SRC_A by the u32 index list at SRC_B. An index beyond the K elements of the source, or
whose address leaves the imprint's rights, reads zeros and is damage of the index data. -/
def execImposerGather (core : Fin 192) (job : Fin 8) (s : State) : Host.Outcome State Fault Refusal :=
  s.command core.val job.val 0x56 fun i r s =>
    let b := vectorBody r
    let w := gatherBytes b.inFmt
    let ix := s.coreRead i b.srcB (4 * b.n)
    let idx := u32s ix.1
    let out := idx.zipIdx.foldl (fun (acc : List Byte × State) k =>
      let x := acc.2.coreRead i (b.srcA + w * k.1) w
      if decide (k.1 < b.k) && x.2.1 then (acc.1 ++ x.1, x.2.2)
      else (acc.1 ++ List.replicate w 0#8, acc.2.badIndex i (b.srcB + 4 * k.2))) ([], ix.2.2)
    (out.2.coreWrite i b.dst out.1).2

/-- SCATTER of the Imposer (R225, R287): N elements of SRC_A to the places of DST that the index list at SRC_B names; an index beyond the K
elements of the destination, or whose address leaves the imprint's rights, writes nothing and is damage of the index data. -/
def execImposerScatter (core : Fin 192) (job : Fin 8) (s : State) : Host.Outcome State Fault Refusal :=
  s.command core.val job.val 0x57 fun i r s =>
    let b := vectorBody r
    let w := gatherBytes b.inFmt
    let ix := s.coreRead i b.srcB (4 * b.n)
    let idx := u32s ix.1
    let x := ix.2.2.coreRead i b.srcA (w * b.n)
    (idx.zipIdx.zip (chunks w x.1)).foldl (fun s p =>
      if decide (p.1.1 < b.k) && s.mayWriteAll i (b.dst + w * p.1.1) p.2.length then (s.coreWrite i (b.dst + w * p.1.1) p.2).2
      else s.badIndex i (b.srcB + 4 * p.1.2)) x.2.2

/-- Running sums of integers, wrapping at 32 bits (R18). -/
def scanInt : Nat → List Nat → List Nat
  | _, [] => []
  | acc, x :: xs => let y := (acc + x) % 2 ^ 32; y :: scanInt y xs

/-- Running FP32 sums whose first member stands as it is. -/
def scanFirst : List F32 → List F32
  | [] => []
  | x :: xs => x :: scanF x xs

/-- SCAN (R74, R287): inclusive sums in ascending index order. -/
def execScan (core : Fin 192) (job : Fin 8) (s : State) : Host.Outcome State Fault Refusal :=
  s.command core.val job.val 0x58 fun i r s =>
    let b := vectorBody r
    let x := s.coreRead i b.srcA (4 * b.n)
    let out := if b.key = 2 then f32Bytes (scanFirst (f32s x.1)) else u32Bytes (scanInt 0 (u32s x.1))
    (x.2.2.coreWrite i b.dst out).2

/-- SEGREDUCE (R74, R287): the sum of each of K segments, whose first indices stand at SRC_B, by the fixed tree. -/
def execSegreduce (core : Fin 192) (job : Fin 8) (s : State) : Host.Outcome State Fault Refusal :=
  s.command core.val job.val 0x59 fun i r s =>
    let b := vectorBody r
    let x := s.coreRead i b.srcA (4 * b.n)
    let y := x.2.2.coreRead i b.srcB (4 * b.k)
    let starts := u32s y.1
    let segs := (List.range b.k).map fun k =>
      let lo := starts.getD k b.n
      let hi := starts.getD (k + 1) b.n
      (((chunks 4 x.1).drop lo).take (hi - lo)).map ofLeBytes
    let out := segs.flatMap fun sg =>
      if b.key = 2 then leBytes 4 (treeF (sg.map (BitVec.ofNat 32))).toNat else leBytes 4 (sg.sum % 2 ^ 32)
    (y.2.2.coreWrite i b.dst out).2

/-- FONT_BUILD (R139 to R141): lengths from the counts at SRC_A; the image goes to DST, the stream's inactive slot. -/
def execFontBuild (core : Fin 192) (job : Fin 8) (s : State) : Host.Outcome State Fault Refusal :=
  s.command core.val job.val 0x5A fun i r s =>
    let b := vectorBody r
    match (s.cfg i).bind fun g => g.formats.streams[b.aux]? with
    | none => s
    | some fs =>
      let n := fs.kind.alphabet
      let x := s.coreRead i b.srcA (8 * n)
      let cs := (chunks 8 x.1).map ofLeBytes
      let parity := if spGet 2 (s.imp i).run.fontActive b.aux = 0 then 1 else 0
      let font : Font := ⟨0x1000 + 2 * b.aux + parity, fs.kind, fontLens fs.kind cs⟩
      let s := x.2.2.modRun i fun u =>
        { u with fontSlots := spPut none u.fontSlots (2 * b.aux + parity) (some font),
                 fontBuilt := spPut false u.fontBuilt b.aux true }
      (s.coreWrite i b.dst font.image).2

/-! Times (R286, R287). -/

/-- ceil(log2 n). -/
def clog2 (n : Nat) : Nat := if n ≤ 1 then 0 else Nat.log2 (n - 1) + 1

/-- Cycles of an Imposer record (R286, R287). -/
def imposerCycles (opcode : Nat) (b : VectorBody) : Nat :=
  let c := fun n => ceilDiv n 64
  match opcode with
  | 0x50 => 64 + b.k * (5 * c b.n + 2 * c b.cap)
  | 0x51 => 32 + c (b.k * b.cap) * (1 + clog2 b.k) + 4 * c b.cap
  | 0x52 => 32 + 2 * c b.n
  | 0x53 => 32 + c (b.cap * b.aux) + c (b.n * b.aux)
  | 0x54 => 32 + c b.n * (1 + clog2 (c b.n))
  | 0x55 => 32 + 5 * c b.n + 2 * c b.k
  | 0x59 => 32 + 2 * c b.n
  | 0x5A => 1024
  | _ => 32 + c b.n

/-- Cycles of a Setter record (R139, R307). -/
def setterCycles (opcode : Nat) (b : VectorBody) (alphabet : Nat) : Nat :=
  let v := ceilDiv b.n 512
  match opcode with
  | 0x40 => 16 + (if 5 ≤ b.subop && b.subop ≤ 7 then 2 else 1) * v
  | 0x41 => 16 + v + 9
  | 0x42 => 64 + 3 * v
  | _ => 32 + b.k * ceilDiv (8 * alphabet) 128

end Sys2Proof.Machine
end

