-- ==== Sys2Proof/Machine/FabTarget.lean ====
section
/-!
DEFINITION. The fabric's target side: exposure, the table of refusals, bays and their gates, replay tables, holds, T1 queues,
responses; and the source's handling of a response (R276 to R281, R343, R417 to R444).
-/
namespace Sys2Proof.Machine

open Sys2Proof

/-! Operations and addresses. -/

/-- The lowest wire version that carries an operation (R417); none where no version does. -/
def opVersion (op : Nat) : Option Nat :=
  if op = 0x01 || op = 0x02 || op = 0x03 || op = 0x10 || op = 0x11 || op = 0x12 || op = 0x15 || op = 0x16 then some 1
  else if op = 0x13 || op = 0x14 then some 2 else none

/-- Is it an atomic? -/
def isAtomic (op : Nat) : Bool := decide (0x10 ≤ op) && decide (op ≤ 0x16)

/-- Is it a commutative atomic (R419)? -/
def isCommutative (op : Nat) : Bool := decide (0x10 ≤ op) && decide (op ≤ 0x14)

/-- The OFFSET, IMPRINT and SPACE fields of a remote address (R421). -/
def remOff (a : BitVec 64) : Nat := bitsOf a.toNat 40 0
def remImp (a : BitVec 64) : Nat := bitsOf a.toNat 59 56
def remSpace (a : BitVec 64) : Nat := bitsOf a.toNat 63 60

/-- Bytes a request touches. -/
def Request_bytes (r : Request) : Nat := if r.op = 0x03 then 8 else r.length

/-- R418 and the sizes of R417; a T0 address has bits [40:34] zero and reserved bits are zero (R421). -/
def wellShaped (r : Request) : Bool :=
  let a := r.addr.toNat
  decide (bitsOf a 55 41 = 0) && (decide (remSpace r.addr ≠ 1) || decide (bitsOf a 40 34 = 0)) &&
    (if r.op = 0x01 || r.op = 0x02 then
      decide (8 ≤ r.length) && decide (r.length ≤ 256) && decide (r.length % 8 = 0) && decide (a % 8 = 0)
        && decide (a % 256 + r.length ≤ 256) && (decide (r.op = 0x01) || decide (r.data.length = r.length))
    else if r.op = 0x03 then decide (r.length = 8) && decide (a % 8 = 0) && decide (remSpace r.addr = 1)
    else (decide (r.length = 4) || decide (r.length = 8)) && decide (a % r.length = 0))

/-- An atomic's new word from the old one, at its size in bits (R417, R419). -/
def atomicNew (op w old operand compare : Nat) : Nat :=
  let m := 2 ^ w
  let a := old % m
  let b := operand % m
  let sg := fun (x : Nat) => if x < m / 2 then (x : Int) else (x : Int) - m
  if op = 0x10 then (a + b) % m
  else if op = 0x11 then min a b
  else if op = 0x12 then max a b
  else if op = 0x13 then (if sg a ≤ sg b then a else b)
  else if op = 0x14 then (if sg a ≤ sg b then b else a)
  else if op = 0x15 then b
  else if a = compare % m then b else a

/-! Bays (R277, R278, R343). -/

/-- A bay that bytes at a T0 address lie in: an imposition slot (index, half) or a member's roster bay. -/
inductive BayAt where
  | slot (idx parity : Nat) (b : BaySlot)
  | roster (member endpoint : Nat)
deriving DecidableEq, Repr

/-- The lock-step set of an imprint: its members in ascending endpoint ID (R342). -/
def State.lockSet (s : State) (i : Nat) : List Nat :=
  match (s.imp i).cfg, s.topology with
  | some g, some t => ((t.sets[g.entry.set]?).map (·.members)).getD [s.fab.endpoint]
  | _, _ => [s.fab.endpoint]

/-- The bay that a T0 address of imprint `i` lies in. -/
def State.bayAt (s : State) (i a : Nat) : Option BayAt :=
  if isReserve a then
    (s.lockSet i).zipIdx.findSome? fun x =>
      let base := (Config.rosterBay i x.2).toNat
      if decide (base ≤ a) && decide (a < base + (Config.rosterBytes i).toNat) && x.1 != s.fab.endpoint then
        some (.roster x.2 x.1) else none
  else
    (s.baySlotAt i a).map fun x => .slot x.1 x.2.1 x.2.2

/-- The bay whose flag word stands at a T0 address. -/
def State.flagOf (s : State) (i a : Nat) : Option BayAt :=
  if isReserve a then
    (s.lockSet i).zipIdx.findSome? fun x =>
      if (Config.rosterFlag i x.2).toNat = a && x.1 != s.fab.endpoint then some (.roster x.2 x.1) else none
  else (s.baySlots i).zipIdx.findSome? fun x => if x.1.flag = a then some (.slot x.2 0 x.1) else none

/-- The first byte of the bay's half. -/
def BayAt.base (i : Nat) : BayAt → Nat
  | .slot _ parity b => t0Addr b.core b.offset + parity * b.half
  | .roster m _ => (Config.rosterBay i m).toNat

/-- The gate of a bay's half. -/
def BayAt.gate (i : Nat) : BayAt → Nat × Nat × Nat
  | .slot idx parity _ => (i, idx, parity)
  | .roster m _ => (i, 65536 + m, 0)

/-- What a header comes to (R278). -/
inductive HeadCheck where
  | accept | misdirected | staleReturn | staleBlock
deriving DecidableEq, Repr

/-- R278 for the imposition types, R343 and R528 for the roster types. A header in the half of the other parity than its impression's does not
match the slot's plan (log 36). -/
def State.headCheck (s : State) (i : Nat) (at_ : BayAt) (h : BlockHead) : HeadCheck :=
  let r := (s.imp i).run
  let common := decide (h.wire ≤ (s.imp i).wire) && decide (h.dest = s.fab.endpoint)
  match at_ with
  | .slot _ parity b =>
    let fits := decide (parity = h.impression % 2) && (h.type == 0x11 || h.type == 0x12 || h.type == 0x13 || h.type == 0x14) && common
      && h.source == b.source && h.layer == b.layer && h.type == b.type && h.expert == b.expert && h.replica == b.replica
      && decide (h.count ≤ b.capacity)
    if !fits then .misdirected
    else if h.epoch = r.epoch && (h.impression = r.impression || (h.type ≠ 0x14 && h.impression = r.impression + 1)) then .accept
    else if h.type = 0x14 then .staleReturn else .staleBlock
  | .roster _ e =>
    let fits := common && h.source == e && (h.type == 0x21 || h.type == 0x22 || h.type == 0x23 || h.type == 0x24)
    if !fits then .misdirected
    else if h.type = 0x24 then (if r.epoch ≤ h.epoch then .accept else .staleBlock)
    else if h.epoch = r.epoch && h.impression = r.impression then .accept else .staleBlock

/-- Count a discarded header in its class (R278, R288). -/
def State.headCount (s : State) (i : Nat) : HeadCheck → State
  | .accept => s
  | .misdirected => s.count i .misdirected 1
  | .staleReturn => s.count i .staleReturns 1
  | .staleBlock => s.count i .staleBlocks 1

/-- A roster header's fields in a block header's places: COUNT is at byte 8 in both (R273, R343). -/
def rosterHead (bs : List Byte) : BlockHead := { BlockHead.ofBytes bs with layer := 0, expert := 0, replica := 0 }

/-- Open or close a gate. -/
def State.setGate (s : State) (g : Nat × Nat × Nat) (op : Bool) : State :=
  { s with fab := { s.fab with gates := if op then (if s.fab.gates.contains g then s.fab.gates else s.fab.gates ++ [g])
                                        else s.fab.gates.filter (· != g) } }

/-- Decide a store to a bay: does it apply? A header opens its half's gate or closes it (R277; log 36). -/
def State.bayStore (s : State) (i : Nat) (b : BayAt) (a : Nat) (bs : List Byte) : Bool × State :=
  if a = b.base i && decide (64 ≤ bs.length) then
    let c := s.headCheck i b (match b with | .slot _ _ _ => BlockHead.ofBytes bs | .roster _ _ => rosterHead bs)
    if c = .accept then (true, s.setGate (b.gate i) true) else (false, (s.headCount i c).setGate (b.gate i) false)
  else (s.fab.gates.contains (b.gate i), s)

/-- The entries of a roster (R343). -/
def rosterEntries (n : Nat) (bs : List Byte) : List RosterEntry :=
  (List.range n).map fun k =>
    let e := (bs.drop (16 * k)).take 16
    let f := fun o l => ofLeBytes ((e.drop o).take l)
    let w := f 4 4
    ⟨f 0 4, bitsOf w 17 0, bitOf w 18, bitOf w 19, bitOf w 20, bitOf w 21, f 8 2, f 10 2⟩

/-- A roster that its flag has completed joins those received. -/
def State.takeRoster (s : State) (i m : Nat) : State :=
  let a := (Config.rosterBay i m).toNat
  let h := rosterHead (memRead s.t0.bytes a 64)
  let hdr := memRead s.t0.bytes a 64
  let body := memRead s.t0.bytes (a + 64) (16 * h.count)
  if h.type = 0x24 then s
  else s.modServe i fun v => { v with rosters :=
    v.rosters ++ [⟨h.type, h.source, h.impression, ofLeBytes ((hdr.drop 12).take 4), rosterEntries h.count body⟩] }

/-- A flag store that applies (R277, R420): the word is written, its arrival noted, the gate closed. -/
def State.applyFlag (s : State) (i a : Nat) (v : BitVec 64) : State :=
  let s := (s.t0Write a (leBytes 8 v.toNat)).modServe i fun x =>
    { x with arrivals := if x.arrivals.contains a then x.arrivals else x.arrivals ++ [a] }
  match s.flagOf i a with
  | some (.slot idx _ _) => s.setGate (i, idx, v.toNat % 2) false
  | some (.roster m e) => (s.takeRoster i m).setGate ((BayAt.roster m e).gate i) false
  | none => s

/-! R424. -/

/-- The operating version that decides row 1 of R424. -/
def State.targetVersion (s : State) (i : Nat) : Nat :=
  if (s.imp i).cfg.isSome then (s.imp i).wire else s.wireMax

/-- R422: does the first entry that fits allow the request? Roster bays are reached by any member of the set. -/
def State.exposed (s : State) (i : Nat) (src simp : Nat) (r : Request) : Bool :=
  let off := remOff r.addr
  let n := Request_bytes r
  if remSpace r.addr = 1 && isReserve off then
    (r.op == 0x02 && match s.bayAt i off with | some (.roster _ e) => e == src | _ => false)
      || (r.op == 0x03 && match s.flagOf i off with | some (.roster _ e) => e == src | _ => false)
  else match (s.imp i).cfg with
    | none => false
    | some g =>
      match g.routes.exposure.find? fun e =>
          src &&& e.mask == e.source && (e.srcImprint == 0xFF || e.srcImprint == simp) && e.space == remSpace r.addr
            && decide (e.base ≤ off) && decide (off + n ≤ e.base + e.len) with
      | none => false
      | some e =>
        let shared := bitOf e.rights 4
        if r.op = 0x01 then bitOf e.rights 0 && !shared
        else if r.op = 0x02 then bitOf e.rights 1 && !shared
        else if r.op = 0x03 then bitOf e.rights 3 && !shared
        else bitOf e.rights 2 && (!shared || isCommutative r.op)

/-- Is the operation under SHARED rights, so that its result is zero (R423)? -/
def State.isShared (s : State) (i : Nat) (src simp : Nat) (r : Request) : Bool :=
  match (s.imp i).cfg with
  | none => false
  | some g =>
    match g.routes.exposure.find? fun e =>
        src &&& e.mask == e.source && (e.srcImprint == 0xFF || e.srcImprint == simp) && e.space == remSpace r.addr
          && decide (e.base ≤ remOff r.addr) && decide (remOff r.addr + Request_bytes r ≤ e.base + e.len) with
    | none => false
    | some e => bitOf e.rights 4

/-- Is the address inside the imprint's rights (R424, row 4)? -/
def State.inRights (s : State) (i : Nat) (r : Request) : Bool :=
  let off := remOff r.addr
  let n := Request_bytes r
  if remSpace r.addr = 0 then s.t1Inside i off n
  else (isReserve off || s.mayWriteAll i off n)

/-- Rows 1 to 4 of R424: the refusal of a request, if any. -/
def State.refusal (s : State) (src simp : Nat) (r : Request) : Option Nat :=
  let i := remImp r.addr
  match opVersion r.op with
  | none => some 0x0201
  | some v =>
    if s.targetVersion i < v then some 0x0600
    else if !wellShaped r then some 0x0201
    else if (s.imp i).cfg.isNone || (s.imp i).serve.held.isSome || !s.exposed i src simp r then some 0x0203
    else if !s.inRights i r then some 0x0200
    else none

/-! Applying (R419, R424 rows 5 to 7, R440). -/

/-- Read a request's bytes at the target: the bytes, whether the read met damage, the state. -/
def State.remRead (s : State) (i : Nat) (r : Request) (n : Nat) : List Byte × Bool × State :=
  let off := remOff r.addr
  if remSpace r.addr = 0 then
    let x := s.t1Read i off n
    (x.1, s.t1Hurt i off n, x.2)
  else
    let x := s.t0Read off n
    (x.1, (linesOf off n).any s.lineBad, x.2)

/-- Write bytes at the target. -/
def State.remWrite (s : State) (i : Nat) (r : Request) (bs : List Byte) : State :=
  if remSpace r.addr = 0 then s.t1Write i (remOff r.addr) bs else s.t0Write (remOff r.addr) bs

/-- What applying a request that rows 1 to 4 let through gives: status, result, data, state. -/
def State.applyReq (s : State) (src simp : Nat) (r : Request) : Nat × BitVec 64 × List Byte × State :=
  let i := remImp r.addr
  if r.op = 0x01 then
    let x := s.remRead i r r.length
    (if x.2.1 then 0x0300 else 0, 0, x.1, x.2.2)
  else if r.op = 0x02 then
    match (if remSpace r.addr = 1 then s.bayAt i (remOff r.addr) else none) with
    | some b =>
      let g := s.bayStore i b (remOff r.addr) r.data
      (0, 0, [], if g.1 then g.2.remWrite i r r.data else g.2)
    | none => (0, 0, [], s.remWrite i r r.data)
  else if r.op = 0x03 then
    if r.epoch.toNat ≠ s.epoch i then (0, 0, [], (s.count i .fabStaleFlag 1).count i .staleBlocks 1)
    else (0, 0, [], s.applyFlag i (remOff r.addr) r.operand)
  else
    let x := s.remRead i r r.length
    if x.2.1 then (0x0300, 0, [], x.2.2)
    else
      let old := ofLeBytes x.1
      let new := atomicNew r.op (8 * r.length) old r.operand.toNat r.compare.toNat
      let s := x.2.2.remWrite i r (leBytes r.length new)
      (0, if s.isShared i src simp r then 0 else BitVec.ofNat 64 old, [], s)

/-! Responses (R426, R440). -/

/-- The port a response leaves on: by the target imprint's routes, else by the transit rule (log 37). -/
def State.responsePort (s : State) (i dest flow : Nat) : Option Nat :=
  (s.firstHop i dest flow) <|>
    (if podOf dest ≠ podOf s.fab.endpoint then none
     else podHop s.fab.endpoint dest flow s.fab.endpoint s.fab.transit)

/-- Send the response to a request's packet. -/
def State.respond (s : State) (p : Packet) (r : Request) (status : Nat) (result : BitVec 64) (data : List Byte)
    (replayed : Bool) : State :=
  let i := remImp r.addr
  let body : PktBody := .response
    { eseq := r.eseq, op := r.op, replayed := replayed, length := if r.op = 0x01 then data.length else 0, status := status,
      epoch := r.epoch, sgen := r.sgen, result := result, data := data }
  let opt := ((s.imp i).cfg.map (·.routes.optical)).getD .none
  let head := fun port => { s.freshHead i 4 1 p.head.source p.head.flow p.head.tslice port opt with
    imprint := p.head.imprint, wire := s.targetVersion i }
  if p.head.source = s.fab.endpoint then { s with fab := { s.fab with loop := s.fab.loop ++ [⟨head 20, body⟩] } }
  else match s.responsePort i p.head.source p.head.flow with
    | some port => s.enqueue port 20 ⟨head port, body⟩
    | none => s

/-! Replay tables (R431, R433, R434). -/

/-- `a` is behind `b` in serial-number arithmetic (R431); none when it is ahead. -/
def behindBy (a b : BitVec 32) : Option Nat :=
  let d := (b - a).toNat
  if d < 2 ^ 31 then some d else none

/-- The table of a stream. -/
def State.table (s : State) (src simp : Nat) : Option InStream :=
  s.fab.tables.find? fun t => t.source == src && t.imprint == simp

/-- Change the list of tables. -/
def State.mapTables (s : State) (f : List InStream → List InStream) : State :=
  { s with fab := { s.fab with tables := f s.fab.tables } }

/-- Put a table back. -/
def State.setTable (s : State) (t : InStream) : State :=
  s.mapTables fun ts => ts.map fun u => if u.source == t.source && u.imprint == t.imprint then t else u

/-- A table with nothing received. -/
def InStream.fresh (src simp : Nat) (sgen : BitVec 32) (now : Nat) : InStream := ⟨src, simp, sgen, 0, none, [], now⟩

/-- The table that takes a new stream's place when none is free: the oldest, when its last request is more than 1 s old
(R434; ISSUE cycles). -/
def State.oldestTable (s : State) : Option InStream :=
  (sortBy (fun a b => decide (a.lastAt < b.lastAt)) s.fab.tables).head?.filter fun t =>
    decide (2700000000 < s.cycle - t.lastAt)

/-- Find or make the table of a stream in the generation of a request (R433, R434). -/
def State.openTable (s : State) (src simp : Nat) (sgen : BitVec 32) : Option State :=
  match s.table src simp with
  | some t =>
    if t.sgen = sgen then some (s.setTable { t with lastAt := s.cycle })
    else some (s.setTable (InStream.fresh src simp sgen s.cycle))
  | none =>
    let new := InStream.fresh src simp sgen s.cycle
    if s.fab.tables.length < 512 then some (s.mapTables fun ts => ts ++ [new])
    else match s.oldestTable with
      | some t => some (s.mapTables fun ts => (ts.filter fun u => !(u.source == t.source && u.imprint == t.imprint)) ++ [new])
      | none => none

/-- Is the request of an entry applied or refused? -/
def EntryState.isDone : EntryState → Bool
  | .done _ _ => true
  | _ => false

/-- The request of a packet. -/
def Packet_request (p : Packet) : Option Request :=
  match p.body with
  | .request r => some r
  | _ => none

/-- Is every request (or every STORE) of the stream with a lower number known and done (R436, R437)? Numbers not received
yet count as not done (log 38). -/
def InStream.clear (t : InStream) (e : BitVec 32) (storesOnly : Bool) : Bool :=
  let lower := (e - t.base).toNat
  if 2 ^ 31 ≤ lower then true
  else (List.range lower).all fun k =>
    match t.entries.find? fun x => x.eseq == t.base + BitVec.ofNat 32 k with
    | none => false
    | some x => x.state.isDone || (storesOnly && (Packet_request x.p).all fun r => r.op != 0x02)

/-- The base once `h` is the highest number received: every number 4,096 or more behind it has its response (R430), known to this
table or not. -/
def InStream.floor (t : InStream) (h : BitVec 32) : BitVec 32 :=
  match t.highest with
  | none => BitVec.ofNat 32 (h.toNat - 4095)
  | some _ => if (behindBy t.base (h - 4095#32)).isSome then h - 4095#32 else t.base

/-- Is an entry within 4,096 of the highest number received? -/
def InStream.keeps (t : InStream) (x : Entry) : Bool :=
  match t.highest with
  | some h => match behindBy x.eseq h with
    | some d => decide (d ≤ 4096)
    | none => true
  | none => true

/-- Move the base over numbers that are done, by fuel, and forget entries more than 4,096 behind the highest. -/
def InStream.advance (t : InStream) : Nat → InStream
  | 0 => t
  | n + 1 =>
    if t.entries.any fun x => x.eseq == t.base && x.state.isDone then InStream.advance { t with base := t.base + 1 } n
    else { t with entries := t.entries.filter t.keeps }

/-- Set an entry's state. -/
def State.setEntry (s : State) (src simp : Nat) (e : BitVec 32) (st : EntryState) : State :=
  match s.table src simp with
  | none => s
  | some t =>
    let es := t.entries.map fun x => if x.eseq = e then { x with state := st } else x
    s.setTable (InStream.advance { t with entries := es } 4097)

/-- Finish a request: record its status and result, and answer it (R431). -/
def State.finish (s : State) (x : Entry) (r : Request) (status : Nat) (result : BitVec 64) (data : List Byte) : State :=
  (s.setEntry x.p.head.source x.p.head.imprint x.eseq (.done status result)).respond x.p r status result data false

/-- Add an operation to its channel's fabric window queue (R246): its pool space waits while the queue is full. -/
def State.queueT1 (s : State) (x : Entry) (r : Request) : State :=
  let ch := (t1Map (s.channelSet (remImp r.addr)) (remOff r.addr / 256)).1
  let q := spGet [] s.fab.t1q ch
  let g := x.p.body.granules
  let full := decide (256 ≤ q.length)
  let op : T1Op := ⟨x.p.head.source, x.p.head.imprint, x.eseq, if full then some (x.port, poolOf x.p.head, g) else none⟩
  let s := { s with fab := { s.fab with t1q := spPut [] s.fab.t1q ch (q ++ [op]) } }
  let s := s.setEntry x.p.head.source x.p.head.imprint x.eseq .queued
  if full then s else s.free x.port (poolOf x.p.head) g

/-- Start a request that nothing holds: a T0 one is applied, a T1 one joins its queue (R440). -/
def State.start (s : State) (x : Entry) (r : Request) : State :=
  if remSpace r.addr = 0 then s.queueT1 x r
  else
    let a := s.applyReq x.p.head.source x.p.head.imprint r
    (a.2.2.2.free x.port (poolOf x.p.head) x.p.body.granules).finish x r a.1 a.2.1 a.2.2.1

/-- The lowest held request of a stream that nothing holds any more (R436, R437). -/
def InStream.ready (t : InStream) : Option (Entry × Request) :=
  t.entries.findSome? fun x =>
    if x.state = .held then
      (Packet_request x.p).bind fun r =>
        if t.clear x.eseq (r.op == 0x03) then some (x, r) else none
    else none

/-- Let held requests of a stream go, by fuel. -/
def State.release (s : State) (src simp : Nat) : Nat → State
  | 0 => s
  | n + 1 =>
    match (s.table src simp).bind InStream.ready with
    | none => s
    | some (x, r) => (s.start x r).release src simp n

/-- How many entries of a stream are held. -/
def State.heldCount (s : State) (src simp : Nat) : Nat :=
  ((s.table src simp).map fun t => (t.entries.filter fun x => x.state == .held).length).getD 0

/-- A REQUEST for this package, by R431 and R424; `port` is where it came in (20 from the package itself). -/
def State.arrive (s : State) (port : Nat) (p : Packet) (r : Request) : State :=
  let src := p.head.source
  let simp := p.head.imprint
  let i := remImp r.addr
  let pool := poolOf p.head
  let g := p.body.granules
  match s.openTable src simp r.sgen with
  | none => ((s.count i .fabRefused 1).free port pool g).respond p r 0x0203 0 [] false
  | some s =>
    match s.table src simp with
    | none => s
    | some t =>
      let old := match t.highest with
        | some h => match behindBy r.eseq h with
          | some d => decide (4096 < d)
          | none => false
        | none => false
      if old then (s.count i .fabOld 1).free port pool g
      else match t.entries.find? fun x => x.eseq == r.eseq with
        | some x =>
          match x.state with
          | .done status result =>
            let s := s.free port pool g
            if r.op = 0x01 && (status = 0 || status = 0x0300) then
              let d := s.remRead i r r.length
              d.2.2.respond p r status result d.1 true
            else s.respond p r status result [] true
          | _ => (s.count i .fabHeldDup 1).free port pool g
        | none =>
          let x : Entry := ⟨r.eseq, port, p, .held⟩
          let high := match t.highest with
            | some h => if (behindBy r.eseq h).isSome then h else r.eseq
            | none => r.eseq
          let es := insertBy (fun (a b : Entry) => (behindBy a.eseq b.eseq).isSome) x t.entries
          let t : InStream := { t with entries := es, highest := some high, base := t.floor high }
          let s := s.setTable t
          let s := match s.refusal src simp r with
            | some status => (s.free port pool g).finish x r status 0 []
            | none =>
              if (r.op = 0x03 || isAtomic r.op) && !t.clear r.eseq (r.op == 0x03)
              then s else s.start x r
          s.release src simp (s.heldCount src simp + 1)

/-! The source's side of a RESPONSE (R431, R432, R438, R442). -/

/-- A RESPONSE for this package. -/
def State.answer (s : State) (p : Packet) (r : Response) : State :=
  let i := p.head.imprint
  let target := p.head.source
  let x := s.stream i target
  match x.outstanding.find? fun o => o.req.eseq == r.eseq && o.req.sgen == r.sgen with
  | none => s.count i .fabDupResponse 1
  | some o =>
    let s := s.setStream { x with outstanding := x.outstanding.filter fun q => q.req.eseq != r.eseq }
    let s := s.count i (.fabResponses r.status) 1
    let s :=
      if r.epoch.toNat ≠ s.epoch i then s.count i .fabStaleResponse 1
      else if let some m := o.morgue then if r.status ≠ 0 then s.failMove i m.1 else s.morgueAnswer i m r.data
      else if r.status ≠ 0 then
        if o.roster then s.modServe i fun v => { v with refused := nub (v.refused ++ [target]) }
        else (s.zeroReply target o).refusalAt i o r.status
      else if r.op = 0x01 then s.replyTo o.core o.job target r.eseq.toNat r.data
      else if isAtomic r.op then s.replyTo o.core o.job target r.eseq.toNat (leBytes 8 r.result.toNat)
      else s
    s.drainStream i target (x.waiting.length + 1)

/-- Serve what the package has sent to itself, by fuel. -/
def State.runLoop (s : State) : Nat → State
  | 0 => s
  | n + 1 =>
    match s.fab.loop with
    | [] => s
    | p :: rest =>
      let s := { s with fab := { s.fab with loop := rest } }
      match p.body with
      | .request r => (s.arrive 20 p r).runLoop n
      | .response r => (s.answer p r).runLoop n
      | _ => s.runLoop n

end Sys2Proof.Machine
end

