-- ==== Sys2Proof/Machine/Records.lean ====
section
/-!
DEFINITION. Records and events towards the host: MSI-X, writes to return and event rings (R447, R453, R457, R469 to R473, R534,
R596).
-/
namespace Sys2Proof.Machine

open Sys2Proof

/-- Depth of a ring (R451). -/
def Ring.depth (r : Ring) : Nat := 2 ^ r.entry.log2

/-- Records a return or event ring holds, by the consumer index last read (R453, R457). -/
def Ring.used (r : Ring) : Nat := (r.prod - r.hostSeen).toNat

/-- Free slots of a return or event ring. -/
def Ring.room (r : Ring) : Nat := r.depth - r.used

/-- A ring of a function. -/
def Fn.ring (f : Fn) (k : Nat) : Option Ring := spGet none f.rings k

/-- Change a ring of a function. -/
def State.modRing (s : State) (f k : Nat) (g : Ring → Ring) : State :=
  s.modFn f fun x => { x with rings := spPut none x.rings k ((x.ring k).map g) }

/-- The event ring of a function (R451). -/
def Fn.eventRing (f : Fn) : Option (Nat × Ring) :=
  f.rings.findSome? fun x => x.2.bind fun r => if r.entry.kind = 3 then some (x.1, r) else none

/-- Raise a function's MSI-X vector: sent when the function and the entry let it, else left pending (R596). -/
def State.raiseVector (s : State) (f v : Nat) : State :=
  let x := s.fn f
  let e := spGet MsixEntry.reset x.msix v
  if !x.msixEnable then s
  else if x.msixMask || e.mask then
    s.modFn f fun x => { x with msix := spPut MsixEntry.reset x.msix v { e with pending := true } }
  else s.emit (.msix f v e.addr.toNat e.data.toNat)

/-- Does the host link serve a function: not below its least rate and width, and for a running imprint an opening has come since it
returned (R446, R531)? -/
def State.serving (s : State) (f : Nat) : Bool := !s.stopped && !s.degraded && !(s.fn f).linkWait

/-- Write records to a ring, its producer index after them, and raise its vector once (R457). The caller has seen to room. -/
def State.writeRing (s : State) (f k : Nat) (records : List (List Byte)) : State :=
  match (s.fn f).ring k with
  | none => s
  | some r =>
    if records.isEmpty then s
    else
      let s := records.zipIdx.foldl (fun s x =>
        s.emit (.hostWrite f (r.entry.base + 32 * ((r.prod.toNat + x.2) % r.depth)) x.1)) s
      let p := r.prod + BitVec.ofNat 32 records.length
      let s := s.emit (.hostWrite f r.entry.devWord (leBytes 4 p.toNat))
      let s := s.modRing f k fun r => { r with prod := p }
      if r.entry.vector = 0xFFFF then s else s.raiseVector f r.entry.vector

/-- An EVENTS_LOST event (R473). -/
def lostEvent (n impression : Nat) : List Byte :=
  leBytes 2 0x0002 ++ leBytes 2 0 ++ leBytes 4 n ++ leBytes 8 impression ++ List.replicate 16 0#8

/-- Sort events into those with room and those lost: the last free slot is never filled (R473). -/
def fitEvents : Nat → List (List Byte) → List (List Byte) × Nat
  | _, [] => ([], 0)
  | room, e :: es =>
    if 2 ≤ room then let x := fitEvents (room - 1) es; (e :: x.1, x.2)
    else let x := fitEvents room es; (x.1, x.2 + 1)

/-- Write events to a function's event ring now (R471, R473); with no ring in force, or while the link serves none, they count as
lost. -/
def State.writeEvents (s : State) (f impression : Nat) (events : List (List Byte)) : State :=
  match (if s.serving f then (s.fn f).eventRing else none) with
  | none => s.modFn f fun x => { x with evtLost := x.evtLost + BitVec.ofNat 32 events.length,
                                        lostSince := x.lostSince + BitVec.ofNat 32 events.length }
  | some (k, r) =>
    let lost := (s.fn f).lostSince.toNat
    let head := if lost ≠ 0 && decide (1 ≤ r.room) then [lostEvent lost impression] else []
    let x := fitEvents (r.room - head.length) events
    let s := s.writeRing f k (head ++ x.1)
    s.modFn f fun y => { y with evtLost := y.evtLost + BitVec.ofNat 32 x.2,
                                lostSince := (if head.isEmpty then y.lostSince else 0) + BitVec.ofNat 32 x.2 }

/-- Is an imprint Held or without an edition, so that its records are written at once (R460)? -/
def State.heldOrNone (s : State) (i : Nat) : Bool := (s.imp i).cfg.isNone || (s.imp i).serve.held.isSome

/-- An event of an imprint: written at its next commit, or at once while it is Held or has no edition (R457, R460). -/
def State.event (s : State) (i : Nat) (bytes : List Byte) : State :=
  if s.heldOrNone i then s.writeEvents (i + 1) 0 [bytes]
  else s.modServe i fun v => { v with events := v.events ++ [bytes] }

/-- An event on the PF's ring, written at once (R457). -/
def State.pfEvent (s : State) (bytes : List Byte) : State := s.writeEvents 0 0 [bytes]

/-- Does any imprint run? -/
def State.anyRuns (s : State) : Bool := s.imprintList.any fun i => !s.heldOrNone i

/-- Power events that wait go to the PF's ring (R561). -/
def State.flushPower (s : State) : State :=
  if s.power.events.isEmpty then s
  else ({ s with power := { s.power with events := [] } }).writeEvents 0 0 s.power.events

/-- A power event (R561): with the next commit of any imprint, at once while none runs. -/
def State.powerEvent (s : State) (bytes : List Byte) : State :=
  let s := { s with power := { s.power with events := s.power.events ++ [bytes] } }
  if s.anyRuns then s else s.flushPower

/-- A package event: the PF's ring and the VF of every imprint of the edition in force (R471). -/
def State.packageEvent (s : State) (bytes : List Byte) : State :=
  s.imprintList.foldl (fun s i => s.event i bytes) (s.pfEvent bytes)

/-- A fault event's layout (R534). -/
def faultEvent (type cause flags subject impression epoch detail ended members : Nat) : List Byte :=
  leBytes 2 type ++ leBytes 1 cause ++ leBytes 1 flags ++ leBytes 4 subject ++ leBytes 8 impression ++ leBytes 4 epoch
    ++ leBytes 4 detail ++ leBytes 4 ended ++ leBytes 4 members

/-- Write waiting records of a ring as far as there is room, and keep the rest (R470). -/
def State.writeBacklog (s : State) (f k : Nat) : State :=
  match (s.fn f).ring k with
  | none => s
  | some r =>
    let n := if s.serving f then min r.room r.backlog.length else 0
    (s.writeRing f k (r.backlog.take n)).modRing f k fun r => { r with backlog := r.backlog.drop n }

/-- Add records to what a ring has to write. -/
def State.queueRecords (s : State) (f k : Nat) (records : List (List Byte)) : State :=
  s.modRing f k fun r => { r with backlog := r.backlog ++ records }

/-- A ring that a new table disables: it is kept, with KIND 0, while tickets fetched from it wait to be admitted or refused (R456,
R460; log 98). -/
def Ring.retire (r : Ring) : Option Ring :=
  if r.waiting.isEmpty then none else some { r with entry := { r.entry with kind := 0 }, faulted := true }

/-- A ring of a new table as it comes into force: one that was enabled goes on as it is (R452). -/
def mergeRing (old new : Option Ring) : Option Ring :=
  match old, new with
  | some o, some n => if o.entry.kind = 0 then some { n with waiting := o.waiting } else some o
  | some o, none => o.retire
  | none, n => n

/-- An applied ring table takes effect (R452). -/
def State.takeTable (s : State) (f : Nat) : State :=
  s.modFn f fun x =>
    match x.newTable with
    | none => x
    | some t =>
      let rings := t.zipIdx.filterMap fun y => (mergeRing (x.ring y.2) y.1).map fun r => (y.2, some r)
      let beyond := x.rings.filterMap fun y => if t.length ≤ y.1 then (y.2.bind Ring.retire).map fun r => (y.1, some r) else none
      let y := { x with rings := rings ++ beyond, newTable := none, apply := false }
      { y with nudged := x.nudged.filter fun k => match y.ring k with | some r => r.entry.kind == 1 | none => false }

/-- A ticket's completion record (R467). -/
def ticketRecord (tag status opcode r0 r1 opening : Nat) (void : Bool) : List Byte :=
  leBytes 4 tag ++ leBytes 2 status ++ leBytes 1 0 ++ leBytes 1 (1 + 8 * bit void) ++ leBytes 4 opcode ++ leBytes 4 r0
    ++ leBytes 4 r1 ++ leBytes 4 0 ++ leBytes 8 opening

/-- A generation record (R467). -/
def genRecord (handle status : Nat) (outs : List Nat) (flags length : Nat) : List Byte :=
  leBytes 4 handle ++ leBytes 2 status ++ leBytes 1 outs.length ++ leBytes 1 flags ++ leBytes 4 (length % 2 ^ 25)
    ++ (List.range 5).flatMap fun k => leBytes 4 (outs.getD k 0)

/-- A step's records: five outputs each, MORE on all but the last (R469); the length field counts the outputs up to each. -/
def stepRecords (handle status flags lastFlags len0 : Nat) (outs : List Nat) : List (List Byte) :=
  let cs := if outs.isEmpty then [[]] else chunks 5 outs
  cs.zipIdx.map fun x =>
    let last := x.2 + 1 = cs.length
    genRecord handle (if last then status else 0) x.1 (if last then flags ||| lastFlags else flags ||| 4)
      (len0 + 5 * x.2 + x.1.length)

end Sys2Proof.Machine
end

