-- ==== Sys2Proof/Machine/Folios.lean ====
section
/-!
DEFINITION. Folio pools, reservations, commits, sharing, spills and prefetches (06_folios.md, R251 to R253, R311).
Where the spec leaves the Compositor a choice of ID, slot or place, the lowest free one is taken and its address is opaque
(log 40).
-/
namespace Sys2Proof.Machine

open Sys2Proof

/-! Layers, tiles that attend, shards. -/

/-- Every attend tile of an imprint, with its core. -/
def State.attends (s : State) (i : Nat) : List (Nat × AttendBody) :=
  match s.cfg i with
  | none => []
  | some g => g.schedule.streams.flatMap fun x =>
      (x.cmds.filter fun r => (cmdHead r).opcode == 0x30).map fun r => (x.core, attendBody r)

/-- The shard slots that attend a sequence slot's layer and head, ascending, with their cores and attend tiles (log 21). -/
def State.shardsOf (s : State) (i seq layer head : Nat) : List (Nat × Nat × AttendBody) :=
  let xs := ((s.attends i).filter fun x => x.2.seq == seq && x.2.layer == layer && x.2.head == head).map fun x => (x.2.shard, x)
  (sortBy (fun (a b : Nat) => decide (a < b)) (nub (xs.map (·.1)))).filterMap fun h => xs.find? fun x => x.1 == h

/-- The slices that the far mask of an attend tile names, entry by entry of its shard slot (R172). -/
def entrySlices (core : Nat) (b : AttendBody) : List Nat :=
  (List.range b.e).map fun j => if bitOf b.farMask j then b.farCore else core

/-- The layers of an imprint with their numbers (R486). -/
def State.layers (s : State) (i : Nat) : List (Nat × LayerCfg) :=
  match s.cfg i with
  | none => []
  | some g => g.formats.layers.zipIdx.map fun x => (x.2, x.1)

/-- Every layer and KV head. -/
def State.heads (s : State) (i : Nat) : List (Nat × LayerCfg × Nat) :=
  (s.layers i).flatMap fun x => (List.range x.2.heads).map fun h => (x.1, x.2, h)

/-- A folio class (R199). -/
def State.folioClass (s : State) (i c : Nat) : Option FolioClass := (s.cfg i).bind fun g => g.folio[c]?

/-! Pools (R200, R201). -/

/-- Is a request live? -/
def Req.live (q : Req) : Bool := q.ended.isNone

/-- The requests of an imprint with their keys, ascending. -/
def Serve.reqList (v : Serve) : List (Nat × Req) := v.reqs.filterMap fun x => x.2.map fun q => (x.1, q)

/-- The folios of an imprint. -/
def Serve.folioList (v : Serve) : List (Nat × Folio) := v.folios.filterMap fun x => x.2.map fun f => (x.1, f)

/-- The slots of a class and tier that a folio, a transfer's target or a Duplicate takes. -/
def Serve.taken (v : Serve) (c tier : Nat) : List Nat :=
  v.folioList.flatMap fun x =>
    if x.2.cls ≠ c then []
    else
      (if x.2.tier = tier then [x.2.slot] else [])
        ++ (match x.2.move with | some m => if m.toTier = tier then [m.slot] else [] | none => [])
        ++ (match x.2.dup with | some d => if tier = 1 then [d] else [] | none => [])

/-- Slots of a class and tier (R489). -/
def State.slotsOf (s : State) (i c tier : Nat) : Nat :=
  ((s.folioClass i c).map fun f => f.slots.getD tier 0).getD 0

/-- A line's offset inside a slice. -/
def sliceOff (x : BitVec 26) : Nat := x.toNat / 256 * 256 % 0x3000000

/-- The near slice that a T0 slot of a class lies in: every slice of the imprint has a folio area, and a class's slots are dealt to the
slices in turn (R200; log 40). -/
def State.slotSlice (s : State) (i slot : Nat) : Nat :=
  let cs := ((s.cfg i).map (·.cores)).getD []
  cs.getD (slot % max cs.length 1) 0

/-- The address of a T0 slot. -/
def State.slotAddr (s : State) (i c slot : Nat) : Nat :=
  t0Addr (s.slotSlice i slot) (sliceOff (Config.folioOffset i c (slot / max (((s.cfg i).map (·.cores)).getD []).length 1)))

/-- Does a T0 slot lie in a slice, where one is asked for? -/
def State.inSlice (s : State) (i slot : Nat) : Option Nat → Bool
  | some x => s.slotSlice i slot == x
  | none => true

/-- Free slots (R201). -/
def State.freeCount (s : State) (i c tier : Nat) : Nat := s.slotsOf i c tier - ((s.imp i).serve.taken c tier).length

/-- Free T0 slots of a class, in one slice where one is asked for. -/
def State.freeT0 (s : State) (i c : Nat) (slice : Option Nat) : Nat :=
  let t := (s.imp i).serve.taken c 0
  ((List.range (s.slotsOf i c 0)).filter fun k => !t.contains k && s.inSlice i k slice).length

/-- The lowest free slot; in T0, in one slice where one is asked for. -/
def State.freeSlot (s : State) (i c tier : Nat) (slice : Option Nat) : Option Nat :=
  let t := (s.imp i).serve.taken c tier
  (List.range (s.slotsOf i c tier)).find? fun k => !t.contains k && s.inSlice i k slice

/-- The lowest folio ID free among those of the imprint (R188, R198): each imprint has IDs of its own (log 40). -/
def State.freeFolio (s : State) (i : Nat) : Nat :=
  let used := (s.imp i).serve.folioList.map (·.1)
  2 ^ 28 * i + ((List.range (used.length + 1)).find? fun k => !used.contains (2 ^ 28 * i + k)).getD 0

/-- Folios per class and slot state, for QUERY (R201): 0 Free, 1 Reserved, 2 Committed, 3 In transit, 4 Duplicate. -/
def State.slotCount (s : State) (i c tier state : Nat) : Nat :=
  let fs := (s.imp i).serve.folioList.filter fun x => x.2.cls == c
  if state = 0 then s.freeCount i c tier
  else if state = 1 then (fs.filter fun x => x.2.tier == tier && x.2.state == .reserved).length
  else if state = 2 then (fs.filter fun x => x.2.tier == tier && x.2.state != .reserved).length
  else if state = 3 then (fs.filter fun x => match x.2.move with | some m => m.toTier == tier | none => false).length
  else if tier = 1 then (fs.filter fun x => x.2.dup.isSome).length else 0

/-! Headers and table entries (R188, R195). -/

/-- A folio's header in T0 or, with its slug run's length, in the copy that a spill writes (R188, R216). -/
def folioHeader (id : Nat) (f : Folio) (kv : Elem) (d : Nat) (check enc : Option Nat) : List Byte :=
  leBytes 4 id ++ leBytes 1 (elemCode kv) ++ leBytes 1 (d / 64)
    ++ leBytes 1 (bit f.sealed + 2 * bit enc.isSome + 4 * bit check.isSome + 8 * bit (decide (1 < f.sharers.length))) ++ [0#8]
    ++ leBytes 2 f.layer ++ leBytes 2 f.head ++ leBytes 2 f.fill ++ leBytes 2 f.sharers.length
    ++ leBytes 4 (256 * f.index % 2 ^ 25) ++ leBytes 4 f.sK.toNat ++ leBytes 4 f.sV.toNat ++ leBytes 4 f.owner
    ++ leBytes 8 f.commitImp ++ leBytes 4 (enc.getD 0) ++ leBytes 4 (check.getD 0) ++ List.replicate 208 0#8

/-- Write a T0 folio's header from its record. -/
def State.writeHeader (s : State) (i id : Nat) : State :=
  match spGet none (s.imp i).serve.folios id with
  | none => s
  | some f =>
    if f.tier ≠ 0 then s
    else match s.layer i f.layer with
      | none => s
      | some l => s.t0Write f.addr (folioHeader id f l.kv l.d f.check none)

/-- A folio-table entry (R195); none is a folio not allocated or released. -/
def tableEntry (x : Option (Nat × Folio)) : Nat :=
  match x with
  | none => 0xFFFFFFFF + 3 * 2 ^ 58
  | some (id, f) =>
    id + (if f.tier = 0 then t0Core f.addr * 2 ^ 32 + (t0Off f.addr / 256) * 2 ^ 40 else 0) + f.tier * 2 ^ 58
      + bit f.sealed * 2 ^ 60 + bit (decide (1 < f.sharers.length)) * 2 ^ 61

/-- The folio of a sequence's layer, head and index. -/
def Serve.folioOf (v : Serve) (handle layer head index : Nat) : Option (Nat × Folio) :=
  v.folioAt handle layer head (256 * index)

/-- A sequence's live folio indices of a layer and head, ascending. -/
def Serve.indicesOf (v : Serve) (handle layer head : Nat) : List Nat :=
  sortBy (fun a b => decide (a < b)) ((v.folioList.filter fun x =>
    x.2.sharers.contains handle && x.2.layer == layer && x.2.head == head).map (·.2.index))

/-- The 256 B of a page with these entries; what it does not use is null (R195, R196). -/
def Serve.pageBytes (v : Serve) (handle layer head : Nat) (ks : List (Option Nat)) : List Byte :=
  (List.range 32).flatMap fun j =>
    leBytes 8 (tableEntry ((ks.getD j none).bind fun k => v.folioOf handle layer head k))

/-- The indices of page `n` of a sequence's own table (R194). -/
def ownPage (n : Nat) : List (Option Nat) := (List.range 32).map fun j => some (32 * n + j)

/-! Places (R172, R196): which entry of a sequence's shard slots stands for which folio. -/

/-- The first folio that lies in a slice, and the others. -/
def takeSlice (slice : Nat) : List (Nat × Nat) → Option Nat × List (Nat × Nat)
  | [] => (none, [])
  | x :: xs =>
    if x.2 = slice then (some x.1, xs)
    else let r := takeSlice slice xs; (r.1, x :: r.2)

/-- Give each place in turn the first folio of its slice: the index at each place, and the folios that found none. -/
def fillPlaces : List Nat → List (Nat × Nat) → List (Option Nat) × List (Nat × Nat)
  | [], xs => ([], xs)
  | p :: ps, xs =>
    let x := takeSlice p xs
    let r := fillPlaces ps x.2
    (x.1 :: r.1, r.2)

/-- The slices of all places of a sequence slot's layer and head, shard slot after shard slot. -/
def State.places (s : State) (i seq layer head : Nat) : List Nat :=
  (s.shardsOf i seq layer head).flatMap fun x => entrySlices x.2.1 x.2.2

/-- A sequence's T0 folios of a layer and head that hold positions below `n`, with their slices. -/
def Serve.resident (v : Serve) (handle layer head n : Nat) : List (Nat × Nat) :=
  (v.indicesOf handle layer head).filterMap fun k => match v.folioOf handle layer head k with
    | some (_, f) => if f.tier = 0 && decide (256 * k < n) then some (k, t0Core f.addr) else none
    | none => none

/-- Can every committed folio of a sequence be placed where the far masks of a slot's attend tiles read it (R172)? A layer and head
that no tile of the slot attends asks for no place. -/
def State.placeable (s : State) (i seq handle n : Nat) : Bool :=
  (s.heads i).all fun x =>
    let ps := s.places i seq x.1 x.2.2
    ps.isEmpty || (fillPlaces ps ((s.imp i).serve.resident handle x.1 x.2.2 n)).2.isEmpty

/-- The indices at the places of one shard slot of a sequence's layer and head. -/
def State.shardIndices (s : State) (i shard seq handle layer head n : Nat) : List (Option Nat) :=
  let hs := s.shardsOf i seq layer head
  let all := (fillPlaces (s.places i seq layer head) ((s.imp i).serve.resident handle layer head n)).1
  let before := ((hs.takeWhile fun x => x.1 != shard).map fun x => x.2.2.e).sum
  (all.drop before).take (((hs.find? fun x => x.1 == shard).map fun x => x.2.2.e).getD 0)

/-- The page of the sequence's own table that reads as a shard slot's indices, if any (R196): the entries past the slot's are not
read. -/
def Serve.wholePage (v : Serve) (handle layer head : Nat) (ks : List (Option Nat)) : Option Nat :=
  match ks.findSome? id with
  | none => none
  | some k => if (ks.zip (ownPage (k / 32))).all fun x =>
      x.1 == x.2 || (x.1.isNone && (x.2.bind fun j => v.folioOf handle layer head j).isNone) then some (k / 32) else none

/-- The sequence slot whose places hold a request's resident folios: the lowest that does, else slot 0 (R172; log 40). -/
def State.homeSlot (s : State) (i handle : Nat) : Nat :=
  let n := (((s.imp i).run.manifest).length)
  match indexes (fun (t : Slot) => t.kind != .empty && t.request == handle) (s.imp i).run.manifest with
  | k :: _ => k
  | [] => ((List.range n).find? fun k => s.placeable i k handle (2 ^ 32)).getD 0

/-- The slices that new folios of a sequence's layer and head take: those of the first places still free, then those of the places in
turn; the imprint's first core where no tile attends them (log 40). -/
def State.newSlices (s : State) (i seq handle layer head : Nat) (ks : List Nat) : List Nat :=
  let ps := s.places i seq layer head
  let r := fillPlaces ps ((s.imp i).serve.resident handle layer head (2 ^ 32))
  let free := ((ps.zip r.1).filter fun x => x.2.isNone).map (·.1)
  ks.zipIdx.map fun x =>
    if ps.isEmpty then (((s.cfg i).map (·.cores)).getD []).headD 0
    else (free[x.2]?).getD (ps.getD (x.1 % ps.length) 0)

/-! Table pages (R194, R196). -/

/-- Every page that the tables of an imprint's live requests have: request, layer, head, number. -/
def State.pageList (s : State) (i : Nat) : List (Nat × Nat × Nat × Nat) :=
  let v := (s.imp i).serve
  v.reqs.flatMap fun q => if q.2.isNone then [] else (s.heads i).flatMap fun x =>
    let top := (v.indicesOf q.1 x.1 x.2.2).foldl (fun a k => max a (k / 32 + 1)) 0
    let had := (v.pages.filter fun p => p.request == q.1 && p.layer == x.1 && p.head == x.2.2).foldl (fun a p => max a (p.page + 1)) 0
    (List.range (max top had)).map fun n => (q.1, x.1, x.2.2, n)

/-- The core that attends the entries of a page: that of the shard slot that holds its first entry (R196). -/
def State.pageCore (s : State) (i seq layer head n : Nat) : Nat :=
  let hs := s.shardsOf i seq layer head
  let at_ := (hs.flatMap fun x => List.replicate x.2.2.e x.2.1)[32 * n]?
  (at_ <|> hs.head?.map (·.2.1)).getD ((((s.cfg i).map (·.cores)).getD []).headD 0)

/-- The directory of pages as it must stand: a page keeps its number of place, a new one takes the lowest free (R194; log 40). -/
def State.directory (s : State) (i : Nat) : List TablePage :=
  (s.pageList i).foldl (fun (d : List TablePage) x =>
    let same := fun (p : TablePage) => p.request == x.1 && p.layer == x.2.1 && p.head == x.2.2.1 && p.page == x.2.2.2
    let used := ((s.imp i).serve.pages ++ d).map (·.slot)
    let slot := match (s.imp i).serve.pages.find? same with
      | some p => p.slot
      | none => ((List.range (used.length + 1)).find? fun k => !used.contains k).getD 0
    let core := s.pageCore i (s.homeSlot i x.1) x.2.1 x.2.2.1 x.2.2.2
    d ++ [⟨x.1, x.2.1, x.2.2.1, x.2.2.2, slot, t0Addr core (sliceOff (Config.pageOffset i slot))⟩]) []

/-- Write a table page where its bytes change. -/
def State.putPage (s : State) (a : Nat) (bs : List Byte) : State := if memRead s.t0.bytes a 256 = bs then s else s.t0Write a bs

/-- The pages of every table as a quoin leaves them (R194, R195, R196, R208). -/
def State.syncPages (s : State) (i : Nat) : State :=
  let d := s.directory i
  let s := s.modServe i fun v => { v with pages := d }
  d.foldl (fun s p => s.putPage p.addr ((s.imp i).serve.pageBytes p.request p.layer p.head (ownPage p.page))) s

/-! Reserving (R202 to R205). -/

/-- New folio indices of one layer and head (R202). -/
def newIndices (nC w : Nat) : List Nat :=
  (List.range (ceilDiv (nC + w) 256 - ceilDiv nC 256)).map (ceilDiv nC 256 + ·)

/-- A new folio that a sequence needs: its class, layer, head, index, and the slice it goes to. -/
structure Need where
  cls : Nat
  layer : Nat
  head : Nat
  index : Nat
  slice : Nat
deriving DecidableEq, Repr

/-- The indices of a layer and head that the first impression copies (R213): those below the prefix that the source has and the request
does not name: a partial last folio, and folios that could take no sharer. -/
def State.prefixCopies (s : State) (i handle source n layer head : Nat) : List Nat :=
  let v := (s.imp i).serve
  (List.range (ceilDiv n 256)).filter fun k => (v.folioOf handle layer head k).isNone && (v.folioOf source layer head k).isSome

/-- What a sequence needs to be served in a slot: each new folio of each layer and head, and each that R213 copies. -/
def State.folioNeeds (s : State) (i seq handle nC w : Nat) (source : Option (Nat × Nat)) : List Need :=
  (s.heads i).flatMap fun x =>
    let copies := match source with
      | some (src, n) => s.prefixCopies i handle src n x.1 x.2.2
      | none => []
    let ks := copies ++ newIndices nC w
    (ks.zip (s.newSlices i seq handle x.1 x.2.2 ks)).map fun k => ⟨x.2.1.cls, x.1, x.2.2, k.1, k.2⟩

/-- The first class, with its slice, that has too few free T0 slots for what a sequence needs there. -/
def State.shortClass (s : State) (i : Nat) (needs : List Need) : Option (Nat × Nat) :=
  (sortBy (fun (a b : Nat × Nat) => decide (a.1 < b.1)) (nub (needs.map fun x => (x.cls, x.slice)))).find? fun c =>
    decide (s.freeT0 i c.1 (some c.2) < (needs.filter fun x => x.cls == c.1 && x.slice == c.2).length)

/-- Reserve one folio (R202): it is allocated, Reserved, with its scales not yet fixed. -/
def State.reserveFolio (s : State) (i handle : Nat) (x : Need) : State :=
  match s.freeSlot i x.cls 0 (some x.slice) with
  | none => s
  | some slot =>
    let id := s.freeFolio i
    let one : Bool := match s.layer i x.layer with | some l => l.kv == .bf16 | none => false
    let sc : F32 := if one then 0x3F800000#32 else 0
    let f : Folio :=
      { cls := x.cls, layer := x.layer, head := x.head, index := x.index, tier := 0, slot := slot,
        addr := s.slotAddr i x.cls slot, state := .reserved, fill := 0, sealed := false, sK := sc, sV := sc, owner := handle,
        commitImp := 0, sharers := [handle], move := none, dup := none, check := none, font := none }
    (s.modServe i fun v => { v with folios := spPut none v.folios id (some f) }).writeHeader i id

/-- Reserve all that a sequence needs. -/
def State.reserveAll (s : State) (i handle : Nat) (needs : List Need) : State :=
  needs.foldl (fun s x => s.reserveFolio i handle x) s

/-- A folio without one of its sharers; none when it was the last. -/
def Folio.without (handle : Nat) (f : Folio) : Option Folio :=
  let r := f.sharers.filter (· != handle)
  if r.isEmpty then none else some { f with sharers := r }

/-- A sequence gives up a folio (R211, R212): the last sharer frees it in every tier. -/
def State.dropFolio (s : State) (i handle id : Nat) : State :=
  let s := s.modServe i fun v => { v with folios := spPut none v.folios id ((spGet none v.folios id).bind (Folio.without handle)) }
  s.writeHeader i id

/-- A request's folios go (R212). -/
def State.dropFolios (s : State) (i handle : Nat) (p : Folio → Bool) : State :=
  ((s.imp i).serve.folioList.filter fun x => x.2.sharers.contains handle && p x.2).foldl
    (fun s x => s.dropFolio i handle x.1) s

/-- Reserved folios of a sequence return to Free (R210, R211). -/
def State.unreserve (s : State) (i handle : Nat) : State := s.dropFolios i handle fun f => f.state == .reserved

/-- Release folios behind a sliding window after a commit (R211). -/
def State.releaseWindow (s : State) (i handle nC : Nat) : State :=
  s.dropFolios i handle fun f =>
    match s.layer i f.layer with
    | some l => l.window ≠ 0 && decide (256 * f.index + 255 + 1 + l.window ≤ nC)
    | none => false

/-- R208 to R210 for one sequence whose results commit: folios up to the new length are filled and committed, the others of
this opening return to Free. -/
def State.commitFolios (s : State) (i handle nC0 nC imp : Nat) : State :=
  (s.imp i).serve.folioList.foldl (fun s x =>
    if !x.2.sharers.contains handle then s
    else
      let fill := min 256 (nC - 256 * x.2.index)
      if x.2.state == .reserved && fill = 0 then s.dropFolio i handle x.1
      else if decide (nC0 < 256 * (x.2.index + 1)) && decide (256 * x.2.index < nC) && nC0 != nC then
        (s.modFolio i x.1 fun f => { f with fill := fill, sealed := decide (fill = 256), state := .committed,
                                            commitImp := imp }).writeHeader i x.1
      else if x.2.state == .reserved then
        (s.modFolio i x.1 fun f => { f with fill := fill, sealed := decide (fill = 256), state := .committed,
                                            commitImp := imp }).writeHeader i x.1
      else s) s

/-! Sharing a prefix (R213). -/

/-- The folio indices that a prefix of length `n` shares whole. -/
def sharedIndices (n : Nat) : List Nat := List.range (n / 256)

/-- Share the source's sealed folios below the prefix; one with 65,535 sharers is left to be copied. -/
def State.sharePrefix (s : State) (i handle source n : Nat) : State :=
  (s.imp i).serve.folioList.foldl (fun s x =>
    if x.2.sharers.contains source && decide (x.2.index < n / 256) && decide (x.2.sharers.length < 65535) then
      (s.modFolio i x.1 fun f => { f with sharers := f.sharers ++ [handle] }).writeHeader i x.1
    else s) s

/-- Copy a source folio's entries and scales into the new request's own folio (R213). -/
def State.copyPrefix (s : State) (i handle source n : Nat) (k : Nat) : State :=
  (s.heads i).foldl (fun s x =>
    let v := (s.imp i).serve
    match v.folioOf source x.1 x.2.2 k, v.folioOf handle x.1 x.2.2 k with
    | some a, some b =>
      if a.1 = b.1 || b.2.state != .reserved then s
      else
        let body := folioBytes x.2.1.kv x.2.1.d - 256
        let r := s.t0Read (a.2.addr + 256) body
        let fill := min 256 (n - 256 * k)
        ((r.2.t0Write (b.2.addr + 256) r.1).modFolio i b.1 fun f =>
          { f with sK := a.2.sK, sV := a.2.sV, fill := fill, sealed := decide (fill = 256) }).writeHeader i b.1
    | _, _ => s) s

/-- The folios that a sequence's next step reads and that are not resident in T0: those it names, and those of its prefix source that it
will copy (R213, R220). -/
def State.away (s : State) (i key : Nat) : List (Nat × Folio) :=
  let v := (s.imp i).serve
  let own := v.folioList.filter fun x => x.2.sharers.contains key && x.2.tier != 0
  let copied := match (spGet none v.reqs key).bind (·.prefixOf) with
    | none => []
    | some (src, n) => (s.heads i).flatMap fun x =>
        (s.prefixCopies i key src n x.1 x.2.2).filterMap fun k => (v.folioOf src x.1 x.2.2 k).filter fun f => f.2.tier != 0
  own ++ copied

/-! Spill and prefetch (R214 to R221). -/

/-- The pieces of a folio's body: at most 65,536 bytes each (R124). -/
def folioPieces (n : Nat) : List Nat := (chunks 65536 (List.replicate n ())).map List.length

/-- A folio's body as a slug run under a run-time font (R135, R137, R216): pieces of at most 65,536 bytes. -/
def folioRun (font : Option Font) (kv : Elem) (body : List Byte) : List Byte :=
  (chunks 65536 body).flatMap fun c =>
    let x := encodeSlug font (elemCode kv) (c.length * 8 / kv.bits) c
    x ++ List.replicate (footprint (x.length - 16) - x.length) 0#8

/-- The run-time font of a spill (R216): the active font of a stream that the spec does not name (log 41). -/
def State.spillFont (s : State) (i c : Nat) : Option Font := (s.imp i).run.activeFont (Config.spillStream i c)

/-- R216 steps 2 and 3 from T0: CHECK and CHECK_VALID in the folio's header; then the header plain, with SLUG and ENC_TOTAL, and the slug
run. -/
def State.spillImage (s : State) (i id : Nat) (f : Folio) (l : LayerCfg) : List Byte × State :=
  let r := s.t0Read (f.addr + 256) (folioBytes l.kv l.d - 256)
  let font := s.spillFont i f.cls
  let run := folioRun font l.kv r.1
  let s := (r.2.modFolio i id fun f => { f with check := some (crc32c r.1), font := font }).writeHeader i id
  (folioHeader id f l.kv l.d (some (crc32c r.1)) (some run.length) ++ run, s)

/-- What the slugs of a prefetched image come to (R218 step 1). -/
def imageSlugs (f : Folio) (l : LayerCfg) (image : List Byte) : List (SlugOutcome × List Byte) :=
  decideRun f.font.toList (elemCode l.kv) ((folioPieces (folioBytes l.kv l.d - 256)).map fun n => n * 8 / l.kv.bits)
    ((image.drop 256).take (ofLeBytes ((image.drop 40).take 4)))

/-- R218: what a prefetched image comes to: the plain body, or the status that ends the sharers. -/
def checkImage (id : Nat) (f : Folio) (l : LayerCfg) (image : List Byte) : Except Nat (List Byte) :=
  let h := image.take 256
  let g := fun o n => ofLeBytes ((h.drop o).take n)
  let rs := imageSlugs f l image
  if rs.any fun r => r.1 == .check then .error 0x0301
  else if rs.any fun r => r.1 == .size then .error 0x0302
  else
    let body := rs.flatMap (·.2)
    if g 0 4 = id && g 4 1 = elemCode l.kv && g 5 1 * 64 = l.d && g 8 2 = f.layer && g 10 2 = f.head && bitOf (g 6 1) 2
        && g 44 4 = crc32c body then .ok body
    else .error 0x0300

/-- Is a sequence idle (R214's sense): in neither the current nor the previous manifest, and no admitted ticket makes it
runnable (a PREFILL or DECODE request stays runnable, R327). -/
def Serve.idleSeq (v : Serve) (r : Run) (handle : Nat) : Bool :=
  !(r.manifest.any fun t => t.kind != .empty && t.request == handle) && !v.prev.contains handle
    && match spGet none v.reqs handle with
      | some q => q.runnableAt.isNone && (q.state == .pending || q.state == .idle)
      | none => true

/-- The last commit of a folio's sequences: the latest among its sharers (R214). -/
def Serve.lastCommitOf (v : Serve) (f : Folio) : Nat :=
  (f.sharers.map fun h => ((spGet none v.reqs h).map (·.lastCommit)).getD 0).foldl max 0

/-- R214's order: last commit, lowest handle, index, layer, head. -/
def Serve.spillKey (v : Serve) (f : Folio) : List Nat :=
  [v.lastCommitOf f, f.sharers.foldl min (f.sharers.headD 0), f.index, f.layer, f.head]

/-- Lexicographic order. -/
def lexLt : List Nat → List Nat → Bool
  | [], [] => false
  | [], _ => true
  | _, [] => false
  | x :: xs, y :: ys => decide (x < y) || (decide (x = y) && lexLt xs ys)

/-- Folios in the order of R214. -/
def Serve.inOrder (v : Serve) (xs : List (Nat × Folio)) : List (Nat × Folio) :=
  sortBy (fun a b => lexLt (v.spillKey a.2) (v.spillKey b.2)) xs

/-- The spill candidates of a class and tier, in order (R214); in T0, of one slice where one is asked for. -/
def State.spillCandidates (s : State) (i c tier : Nat) (slice : Option Nat) : List (Nat × Folio) :=
  let v := (s.imp i).serve
  v.inOrder (v.folioList.filter fun x =>
    x.2.cls == c && x.2.tier == tier && s.inSlice i x.2.slot slice && x.2.state != .reserved && x.2.move.isNone
      && x.2.sharers.all fun h => v.idleSeq (s.imp i).run h)

/-- The Duplicates of a class, in the order in which they are freed (R219). -/
def Serve.dups (v : Serve) (c : Nat) : List (Nat × Folio) := v.inOrder (v.folioList.filter fun x => x.2.cls == c && x.2.dup.isSome)

/-- Free the first Duplicate of the class where its T1 pool has no Free slot (R219). -/
def State.freeDuplicate (s : State) (i c : Nat) : Option State :=
  if s.freeCount i c 1 ≠ 0 then none
  else ((s.imp i).serve.dups c).head?.map fun x => s.modFolio i x.1 fun f => { f with dup := none }

/-- Does the imprint spill to T2 as well (R205: SPILL code 2)? -/
def State.spillsT2 (s : State) (i : Nat) : Bool := decide (((s.cfg i).map (·.entry.spill)).getD 0 = 2)

/-- Does the imprint spill at all? -/
def State.spills (s : State) (i : Nat) : Bool := decide (((s.cfg i).map (·.entry.spill)).getD 0 ≠ 0)

/-- Start the spill of one folio (R216): the target slot is taken and In transit; a Duplicate's spill moves no bytes and is complete at the
next quoin (R219). -/
def State.startSpill (s : State) (i : Nat) (x : Nat × Folio) : Option State :=
  match x.2.dup with
  | some d => if x.2.tier = 0 then
      some (s.modFolio i x.1 fun f => { f with move := some { Move.new true 1 d false with done := true }, dup := none })
    else none
  | none =>
    let s := if x.2.tier = 0 then (s.freeDuplicate i x.2.cls).getD s else s
    let dst := if x.2.tier = 0 && decide (0 < s.freeCount i x.2.cls 1) then 1 else 2
    if dst = 2 && !s.spillsT2 i then none
    else (s.freeSlot i x.2.cls dst none).map fun k =>
      s.modFolio i x.1 fun f => { f with move := some (Move.new true dst k (decide (dst = 2))) }

/-- R215's available count; in T0, of one slice where one is asked for. -/
def State.available (s : State) (i c tier : Nat) (slice : Option Nat) : Nat :=
  (if tier = 0 then s.freeT0 i c slice else s.freeCount i c tier) + ((s.imp i).serve.folioList.filter fun x =>
    x.2.cls == c && x.2.tier == tier && s.inSlice i x.2.slot slice
      && match x.2.move with | some m => m.spill | none => false).length

/-- Spill from a tier until the count reaches a mark, by fuel; from T1 the Duplicates are freed first (R219). -/
def State.spillTo (s : State) (i c tier mark : Nat) (slice : Option Nat) : Nat → State
  | 0 => s
  | n + 1 =>
    if mark ≤ s.available i c tier slice then s
    else match (if tier = 1 then s.freeDuplicate i c else none) with
      | some s' => s'.spillTo i c tier mark slice n
      | none => match (s.spillCandidates i c tier slice).findSome? fun x => s.startSpill i x with
        | some s' => s'.spillTo i c tier mark slice n
        | none => s

/-- Passes that a spill can take. -/
def State.spillFuel (s : State) (i : Nat) : Nat := 2 * (s.imp i).serve.folios.length

/-- A mark in slots (R215). -/
def markSlots (slots v : Nat) : Nat := slots * v / 65536

/-- R215 for one class and tier: a spill starts below the low-water mark, and goes on, at later openings too, until the count reaches the
high-water mark. -/
def State.spillMark (s : State) (i c tier : Nat) (f : FolioClass) : State :=
  let low := markSlots (f.slots.getD tier 0) (f.low.getD tier 0)
  let high := markSlots (f.slots.getD tier 0) (f.high.getD tier 0)
  if (s.imp i).serve.spilling.contains (c, tier) || decide (s.available i c tier none < low) then
    let s := s.spillTo i c tier high none (s.spillFuel i)
    let short := decide (s.available i c tier none < high)
    s.modServe i fun v => { v with spilling := v.spilling.filter (· != (c, tier)) ++ if short then [(c, tier)] else [] }
  else s

/-- R215 for every class and tier that spills. -/
def State.spillMarks (s : State) (i : Nat) : State :=
  if !s.spills i then s
  else (((s.cfg i).map (·.folio)).getD []).zipIdx.foldl (fun s x =>
    let s := s.spillMark i x.2 0 x.1
    if s.spillsT2 i then s.spillMark i x.2 1 x.1 else s) s

/-- R205: could enough T0 slots of the class in a slice be freed by spilling candidates into room below? -/
def State.homeCanBeMade (s : State) (i c slice need : Nat) : Bool :=
  let room := s.freeCount i c 1 + ((s.imp i).serve.dups c).length + (if s.spillsT2 i then s.freeCount i c 2 else 0)
  s.spills i && decide (need ≤ s.available i c 0 (some slice) + min room (s.spillCandidates i c 0 (some slice)).length)

/-- Spill for a residency wait (R205). -/
def State.spillFor (s : State) (i c slice need : Nat) : State := s.spillTo i c 0 need (some slice) (s.spillFuel i)

/-! T2 (R217, R251 to R253). -/

/-- Bytes of the T1 copy of a folio, at most. -/
def spillBytes (l : LayerCfg) : Nat := 256 + ((folioPieces (folioBytes l.kv l.d - 256)).map footprint).sum

/-- Bytes of a T2 copy: whole units of 1 KiB (R252). -/
def unitBytes (l : LayerCfg) : Nat := roundUp (spillBytes l) 1024

/-- The first unit of a folio's T2 slot in its class's region (R200, R252). -/
def firstUnit (l : LayerCfg) (slot : Nat) : Nat := slot * (unitBytes l / 1024)

/-- The tweak of a unit (R252). -/
def unitTweak (region unit : Nat) : Nat := 2 ^ 63 + region * 2 ^ 32 + unit

/-- A copy in whole units, as it leaves the package (R252). -/
def State.sealUnits (s : State) (i region first : Nat) (image : List Byte) : List Byte :=
  let padded := image ++ List.replicate (roundUp image.length 1024 - image.length) 0#8
  (chunks 1024 padded).zipIdx.flatMap fun x => Config.xts i (spGet 0 s.boot.keySlots i) (unitTweak region (first + x.2)) x.1

/-- Units as they come back, decrypted (R252). -/
def State.openUnits (s : State) (i region first : Nat) (bytes : List Byte) : List Byte :=
  (chunks 1024 bytes).zipIdx.flatMap fun x => Config.xtsOpen i (spGet 0 s.boot.keySlots i) (unitTweak region (first + x.2)) x.1

/-- The T2 region of a class (R200, R251): the class's own. -/
def State.t2Region (s : State) (i c : Nat) : Option T2Region := (s.cfg i).bind fun g => g.t2[c]?

/-- An operation of a lent region (R251): up to 256 B of a folio's copy, at an offset of it. -/
def morgueOp (op folio off addr : Nat) (bs : List Byte) : Outst :=
  { req := { eseq := 0, op := op, retry := false, length := bs.length, addr := BitVec.ofNat 64 addr, epoch := 0, sgen := 0,
             operand := 0, compare := 0, data := if op = 0x02 then bs else [] },
    sends := 0, core := 0, job := 0, dst := 0, src := 0, roster := false, morgue := some (folio, off) }

/-- Start a transfer with T2 (R217, R251): a spill's units are written to host memory, or stored at the lender; a prefetch from a lender is
loaded from there. Host memory is read by the command that brings the bytes. -/
def State.startT2 (s : State) (i : Nat) (x : Nat × Folio) (m : Move) (l : LayerCfg) : State :=
  let c := x.2.cls
  let first := firstUnit l (if m.spill then m.slot else x.2.slot)
  let bs := if m.spill then s.sealUnits i c first m.image else List.replicate (unitBytes l) 0#8
  let go := fun (n : Nat) (s : State) => s.modFolio i x.1 fun f =>
    { f with move := some { m with started := true, left := n, image := if m.spill then m.image else bs } }
  match s.t2Region i c with
  | some (.host base _) =>
    if m.spill then
      (chunks 1024 bs).zipIdx.foldl (fun s y => s.emit (.hostWrite (i + 1) (base + 1024 * (first + y.2)) y.1)) (go 0 s)
    else go 0 s
  | some (.lent endpoint base _) =>
    let ps := cut256 (bs.length + 1) (base + 1024 * first) bs
    ps.foldl (fun s p => s.sendOn i endpoint
      (morgueOp (if m.spill then 0x02 else 0x01) x.1 (p.1 - (base + 1024 * first)) p.1 p.2)) (go ps.length s)
  | none => s

/-- Is the imprint in Fixed timing (R370)? -/
def State.fixedTiming (s : State) (i : Nat) : Bool := ((s.cfg i).map (·.entry.fixed)).getD true

/-- The transfers with T2 that windows have carried start (R217): in Fixed timing at quoins only. -/
def State.startCarried (s : State) (i : Nat) : State :=
  (s.imp i).serve.folioList.foldl (fun s x =>
    match x.2.move, s.layer i x.2.layer with
    | some m, some l => if m.t2 && m.carried && !m.started && !m.done then s.startT2 i x m l else s
    | _, _ => s) s

/-! Transfers (R216, R218, R311). -/

/-- Deliver a prefetched image into the folio's T0 slot: a good one is written; another is reported and ends the sharers (R218, R254). -/
def State.landImage (s : State) (i : Nat) (x : Nat × Folio) (m : Move) (image : List Byte) : State :=
  match s.layer i x.2.layer with
  | none => s
  | some l =>
    let s := s.countSlugs i ((imageSlugs x.2 l image).map fun r => r.1.status)
    match checkImage x.1 x.2 l image with
    | .ok body =>
      let a := s.slotAddr i x.2.cls m.slot
      (s.t0Write (a + 256) body).modFolio i x.1 fun f => { f with move := some { m with done := true, image := [] }, addr := a }
    | .error status =>
      let place : Place := if m.t2 then .t2 x.2.cls (firstUnit l x.2.slot) else .slot x.1
      (s.report ⟨i, place, status, none⟩).modFolio i x.1 fun f => { f with move := none }

/-- Run one transfer of a window (R216, R218, R311): a copy between T0 and T1, or the on-package side of one with T2, which in Free timing
starts at once. -/
def State.runMove (s : State) (i : Nat) (x : Nat × Folio) (m : Move) : State :=
  match s.layer i x.2.layer with
  | none => s
  | some l =>
    if m.spill then
      let r : List Byte × State := if x.2.tier = 0 then s.spillImage i x.1 x.2 l
        else s.t1Read i (Config.folioT1 i x.2.cls x.2.slot).toNat (spillBytes l)
      if m.t2 then
        let m' := { m with carried := true, image := r.1 }
        let s := r.2.modFolio i x.1 fun f => { f with move := some m' }
        if s.fixedTiming i then s else s.startT2 i x m' l
      else (r.2.t1Write i (Config.folioT1 i x.2.cls m.slot).toNat r.1).modFolio i x.1 fun f =>
        { f with move := some { m with done := true } }
    else if m.t2 then
      let m' := { m with carried := true }
      let s := s.modFolio i x.1 fun f => { f with move := some m' }
      if s.fixedTiming i then s else s.startT2 i x m' l
    else
      let r := s.t1Read i (Config.folioT1 i x.2.cls x.2.slot).toNat (spillBytes l)
      r.2.landImage i x m r.1

/-- The target impression that orders a transfer (R220): the earliest of its sharers' targets; a spill has none and comes after the
prefetches. -/
def Serve.moveTarget (v : Serve) (f : Folio) (m : Move) : Nat :=
  if m.spill then 2 ^ 64
  else (f.sharers.filterMap fun h => (spGet none v.reqs h).bind (·.runnableAt)).foldl min (2 ^ 63)

/-- The transfers waiting for a window of a class, in order: 0 between T0 and T1, 1 with T2, with their sizes (R220, R311). -/
def State.windowList (s : State) (i wclass : Nat) : List ((Nat × Folio) × Move × Nat) :=
  let v := (s.imp i).serve
  let xs := v.folioList.filterMap fun x =>
    match x.2.move, s.layer i x.2.layer with
    | some m, some l =>
      if !m.done && !m.carried && m.t2 == decide (wclass = 1) then some (x, m, if m.t2 then unitBytes l else spillBytes l) else none
    | _, _ => none
  sortBy (fun a b => decide (v.moveTarget a.1.2 a.2.1 < v.moveTarget b.1.2 b.2.1)) xs

/-- Run a window's list while its capacity lasts (R217, R311). -/
def State.runWindow (s : State) (i : Nat) : Nat → List ((Nat × Folio) × Move × Nat) → State
  | _, [] => s
  | cap, (x, m, n) :: rest => if n ≤ cap then (s.runMove i x m).runWindow i (cap - n) rest else s

/-- What the last answer of a lent region's operations completes (R251): a spill is done, a prefetch's bytes are decrypted and land. -/
def State.landLent (s : State) (i : Nat) : State :=
  (s.imp i).serve.folioList.foldl (fun s x =>
    match x.2.move, s.t2Region i x.2.cls, s.layer i x.2.layer with
    | some m, some (.lent _ _ _), some l =>
      if !m.started || m.done || m.failed || m.left ≠ 0 then s
      else if m.spill then s.modFolio i x.1 fun f => { f with move := some { m with done := true, image := [] } }
      else s.landImage i x m (s.openUnits i x.2.cls (firstUnit l x.2.slot) m.image)
    | _, _, _ => s) s

/-- At a quoin, finished transfers take effect (R216 step 4, R218 step 3, R219). -/
def State.settleMoves (s : State) (i : Nat) : State :=
  (s.imp i).serve.folioList.foldl (fun s x =>
    match x.2.move with
    | some m =>
      if !m.done then s
      else if m.spill then
        s.modFolio i x.1 fun f => { f with tier := m.toTier, slot := m.slot, move := none, state := .committed,
                                           addr := if m.toTier = 0 then f.addr else 0 }
      else (s.modFolio i x.1 fun f =>
          { f with tier := 0, slot := m.slot, move := none, state := .committed,
                   dup := if x.2.tier = 1 && f.sealed then some x.2.slot else none }).writeHeader i x.1
    | none => s) s

/-- Abandon spills of folios that a test picks: the source copy stays the only home (R216). -/
def State.abandonSpills (s : State) (i : Nat) (p : Folio → Bool) : State :=
  (s.imp i).serve.folioList.foldl (fun s x =>
    match x.2.move with
    | some m => if m.spill && p x.2 then s.giveUpMove i x.1 else s
    | none => s) s

/-- Prefetches from lenders that are under way are to be made again (R523). -/
def State.restartLent (s : State) (i : Nat) : State :=
  (s.imp i).serve.folioList.foldl (fun s x =>
    match x.2.move, s.t2Region i x.2.cls with
    | some m, some (.lent _ _ _) => if m.started && !m.spill && !m.done then s.giveUpMove i x.1 else s
    | _, _ => s) s

/-- A failed prefetch is issued again at a quoin (R221, R253). -/
def State.reissue (s : State) (i : Nat) : State :=
  (s.imp i).serve.folioList.foldl (fun s x =>
    match x.2.move with
    | some m => if m.failed then s.modFolio i x.1 fun f => { f with move := some { m with failed := false, started := false } } else s
    | none => s) s

/-- Everything that a quoin does for transfers: finished ones take effect, failed ones are issued again, carried ones start, and the pages
follow. -/
def State.quoinMoves (s : State) (i : Nat) : State := ((((s.landLent i).settleMoves i).reissue i).startCarried i).syncPages i

/-- Start the prefetch of a sequence's folios while T0 slots last, in the slices that its next step reads (R172, R218, R220). -/
def State.prefetch (s : State) (i handle : Nat) : State :=
  (s.away i handle).foldl (fun s x =>
    if x.2.move.isSome then s
    else
      let slice := ((s.newSlices i (s.homeSlot i handle) handle x.2.layer x.2.head [x.2.index]).head?)
      match s.freeSlot i x.2.cls 0 slice with
      | some k => s.modFolio i x.1 fun f => { f with move := some (Move.new false 0 k (decide (x.2.tier = 2))) }
      | none => s) s

/-- Does the command of a T2 transfer apply to a folio: one of a host region, started and not yet at an end? A lent region's operations
answer on the fabric. -/
def State.morgueWaits (s : State) (i : Nat) (f : Folio) (m : Move) : Bool :=
  m.t2 && m.started && !m.done && !m.failed && match s.t2Region i f.cls with
    | some (.host _ _) => true
    | _ => false

/-- MORGUE_TRANSFER_DONE (R218): a T2 spill is complete; the bytes of a prefetch are decrypted, checked and land, to take effect at the
next quoin. -/
def execMorgueTransferDone (i : Fin 16) (folio : Nat) (bytes : List Byte) (s : State) : Host.Outcome State Fault Refusal :=
  match spGet none (s.imp i.val).serve.folios folio with
  | none => .next s
  | some f =>
    match f.move, s.layer i.val f.layer with
    | some m, some l =>
      if s.stopped || !s.morgueWaits i.val f m then .next s
      else if m.spill then .next (s.modFolio i.val folio fun f => { f with move := some { m with done := true, image := [] } })
      else .next (s.landImage i.val (folio, f) m (s.openUnits i.val f.cls (firstUnit l f.slot) bytes))
    | _, _ => .next s

/-- MORGUE_TRANSFER_FAILED (R253): a prefetch is marked to be issued again at the next quoin, a spill is abandoned, and the
failure is counted. -/
def execMorgueTransferFailed (i : Fin 16) (folio : Nat) (s : State) : Host.Outcome State Fault Refusal :=
  match spGet none (s.imp i.val).serve.folios folio with
  | none => .next s
  | some f =>
    match f.move with
    | none => .next s
    | some m => if s.stopped || !s.morgueWaits i.val f m then .next s else .next (s.failMove i.val folio)

end Sys2Proof.Machine
end

