-- ==== Sys2Proof/Machine/Icu.lean ====
section
/-!
DEFINITION. The interrupt controller: inputs, senses, pending and enable bits, deliveries (R587 to R602).
-/
namespace Sys2Proof.Machine

open Sys2Proof

/-- STATE of EDN_IMPRINT_n (R514): 0 absent, 1 running, 2 Held, 3 at its drain quoin. -/
def State.ednState (s : State) (i : Nat) : Nat :=
  let m := s.imp i
  if m.cfg.isNone then 0 else if m.serve.held.isSome then 2 else if m.serve.drained then 3 else 1

/-- STAGE of EDN_STATE (R514): 0 none, 1 validating, 2 staged, 3 committing or reverting. -/
def Editions.stageCode (e : Editions) : Nat :=
  if e.work != .idle then 3 else if e.stage.isSome then 1 else if e.staged.isSome then 2 else 0

/-- EDN_STATE (R514). -/
def Editions.word (e : Editions) : Nat :=
  e.number + e.stageCode * 2 ^ 32 + bit e.inForce.isNone * 2 ^ 34 + bit e.kept.isSome * 2 ^ 35 + bit e.pendingMinor.isSome * 2 ^ 36

/-- Is the package in Floor (R535, R548)? -/
def State.inFloor (s : State) : Bool := s.power.causes != 0

/-- The level inputs of R587, as a number with one bit per source. -/
def State.levels (s : State) : Nat :=
  let b := fun n (x : Bool) => if x then 2 ^ n else 0
  b 0 s.stopped + b 1 s.boot.coolOk + b 2 s.power.vrLow + b 3 s.power.brkLow + b 4 (!s.boot.pcieRefOk) + b 5 s.degraded
    + b 64 s.inFloor + b 65 (decide (s.power.lth < 64)) + b 66 s.power.hold + b 67 s.power.orphaned + b 68 s.power.capUnmet
    + ((List.range 16).map fun i => b (96 + i) (s.ednState i == 2)).sum

/-- A source's default sense (R587). -/
def defaultSense (n : Nat) : Nat :=
  if n = 1 then 4
  else if (16 ≤ n && n < 36) || (69 ≤ n && n < 73) || (112 ≤ n && n < 128) || (256 ≤ n && n < 464) || (512 ≤ n && n < 1024) then 2
  else 0

/-- The reserved sources, whose input is 0 and which only a write of ICU_PEND_SET makes pending (R587, R592). -/
def reservedSource (n : Nat) : Bool :=
  (decide (6 ≤ n) && decide (n < 16)) || (decide (36 ≤ n) && decide (n < 64)) || (decide (73 ≤ n) && decide (n < 96))
    || (decide (128 ≤ n) && decide (n < 256)) || (decide (464 ≤ n) && decide (n < 512))

/-- A source's ROUTE register without LOCKED (R602). -/
def State.route (s : State) (n : Nat) : Nat := ((s.icu.routes.find? fun x => x.1 == n).map (·.2)).getD (defaultSense n)

/-- Is a source locked (R588)? -/
def isLocked (n : Nat) : Bool := decide (256 ≤ n) && decide (n < 896)

/-- Active sources: enabled and pending (R593). -/
def Icu.active (u : Icu) : Nat := u.en &&& u.pend

/-- The Compositor cores whose interrupt input is asserted (R595), one bit each. -/
def State.coreLines (s : State) : Nat :=
  if s.icu.active = 0 then 0
  else ((List.range 8).map fun k =>
    if (List.range 1024).any fun n => Nat.testBit s.icu.active n && s.route n / 8 % 2 == 0 && s.route n / 16 % 8 == k
    then 2 ^ k else 0).sum

/-- Deliver one source routed to a vector (R596). -/
def State.deliverVector (s : State) (n : Nat) : State :=
  let r := s.route n
  let f := r / 128 % 32
  if (s.fn f).msixEnable then s.raiseVector f (r / 4096 % 2048)
  else { s with icu := { s.icu with msixOff := true } }

/-- Tell the Compositor cores of a change of their interrupt inputs (R595). -/
def State.updateLines (s : State) : State :=
  let now := s.coreLines
  let s' := (List.range 8).foldl (fun s k =>
    if Nat.testBit now k != Nat.testBit s.icu.lines k then s.emit (.coreLine k (Nat.testBit now k)) else s) s
  { s' with icu := { s'.icu with lines := now } }

/-- Record the lowest of the sources that found MSI-X off (R596, R602). -/
def State.noteOff (s : State) : List Nat → State
  | n :: _ => { s with icu := { s.icu with offSource := n } }
  | [] => s

/-- Deliver every source that has become active since the active set was `before`: once each, one message per vector, and the
lowest source that finds MSI-X off is recorded (R593, R596, R597). -/
def State.deliver (s : State) (before : Nat) : State :=
  let new := if s.icu.active = 0 then []
    else (List.range 1024).filter fun n => Nat.testBit s.icu.active n && !Nat.testBit before n
  let vec := new.filter fun n => s.route n / 8 % 2 == 1
  let firsts := vec.filter fun n => !vec.any fun m => decide (m < n) && s.route m / 128 == s.route n / 128
  let off := vec.filter fun n => !(s.fn (s.route n / 128 % 32)).msixEnable
  ((firsts.foldl State.deliverVector s).noteOff off).updateLines

/-- Change the interrupt controller, and deliver what becomes active. -/
def State.icuChange (s : State) (f : Icu → Icu) : State := State.deliver { s with icu := f s.icu } s.icu.active

/-- Does an input that now reads `now` and read `was` set pending under a sense (R590)? -/
def senseMet (sense : Nat) (was now : Bool) : Bool :=
  if sense = 0 then now else if sense = 1 then !now else if sense = 2 then now && !was
  else if sense = 3 then was && !now else if sense = 4 then now != was else false

/-- Is the package in Rest, where only the wake watcher looks (R600)? -/
def State.inRest (s : State) : Bool := s.power.rest == .rest

/-- Evaluate the level inputs once (R590): in Rest, the watcher records sources 0 to 127 (R600). -/
def State.sample (s : State) : State :=
  let now := s.levels
  let met := ((List.range 1024).map fun n =>
    if !reservedSource n && senseMet (s.route n % 8) (Nat.testBit s.icu.prev n) (Nat.testBit now n) then 2 ^ n else 0).sum
  if s.inRest then
    { s with icu := { s.icu with prev := now, wake := s.icu.wake ||| (met % 2 ^ 128) } }
  else s.icuChange fun u => { u with prev := now, pend := u.pend ||| met }

/-- A pulse on a source (R587, R590): its input is 1 for one cycle. -/
def State.pulse (s : State) (n : Nat) : State :=
  let sense := s.route n % 8
  if sense = 1 || decide (5 ≤ sense) then s
  else if s.inRest then
    (if n < 128 then { s with icu := { s.icu with wake := s.icu.wake ||| 2 ^ n } } else s)
  else s.icuChange fun u => { u with pend := u.pend ||| 2 ^ n }

/-- Change the editions: any change of EDN_STATE pulses source 72 (R587). -/
def State.setEd (s : State) (f : Editions → Editions) : State :=
  let t := { s with ed := f s.ed }
  if t.ed.word = s.ed.word then t else t.pulse 72

/-- Do the registers outside the CLK and SEC blocks answer: has STAGE reached RUNNING since release (R569, R604)? A stop leaves
BAR0 answered (R531). -/
def State.answers (s : State) : Bool := s.boot.ran

/-- A host write to the interrupt controller: in Rest it is ignored and REST_WRITE will be set (R600); before the first RUNNING
the registers do not answer (R604). -/
def State.icuWrite (s : State) (f : State → State) : State :=
  if !s.answers then s
  else if s.inRest then { s with icu := { s.icu with restSeen := true } }
  else f s

/-- The unlocked bits of a group's write (R588). -/
def unlockedBits (n v : Nat) : Nat := if isLocked (64 * n) then 0 else v * 2 ^ (64 * n)

/-- Clear bits of a set of sources. -/
def clearBits (x m : Nat) : Nat := x &&& ((2 ^ 1024 - 1) ^^^ (m % 2 ^ 1024))

/-- The sources routed to a vector of a function that `p` holds of (R594). -/
def State.vectorSources (s : State) (p : Nat → Bool) : Nat :=
  ((List.range 1024).map fun n => if s.route n / 8 % 2 == 1 && p (s.route n / 128 % 32) then 2 ^ n else 0).sum

/-- R599: a Function Level Reset clears the enable bits of the sources routed to the function's vectors, and keeps their routes and
pending bits. -/
def State.muteVectors (s : State) (p : Nat → Bool) : State :=
  { s with icu := { s.icu with en := clearBits s.icu.en (s.vectorSources p) } }

/-- ICU_EN_SET (R592). -/
def execIcuEnSet (n : Fin 16) (v : BitVec 64) (s : State) : Host.Outcome State Fault Refusal :=
  .next (s.icuWrite fun s => s.icuChange fun u => { u with en := u.en ||| unlockedBits n.val v.toNat })

/-- ICU_EN_CLR (R592). -/
def execIcuEnClr (n : Fin 16) (v : BitVec 64) (s : State) : Host.Outcome State Fault Refusal :=
  .next (s.icuWrite fun s => s.icuChange fun u => { u with en := clearBits u.en (unlockedBits n.val v.toNat) })

/-- ICU_PEND_SET (R592). -/
def execIcuPendSet (n : Fin 16) (v : BitVec 64) (s : State) : Host.Outcome State Fault Refusal :=
  .next (s.icuWrite fun s => s.icuChange fun u => { u with pend := u.pend ||| unlockedBits n.val v.toNat })

/-- ICU_PEND_CLR (R592); a level that persists sets the bit again at the next evaluation (R590). -/
def execIcuPendClr (n : Fin 16) (v : BitVec 64) (s : State) : Host.Outcome State Fault Refusal :=
  .next (s.icuWrite fun s => s.icuChange fun u => { u with pend := clearBits u.pend (unlockedBits n.val v.toNat) })

/-- Does the ICU take a value for ROUTE (R594)? -/
def routeTaken (v : Nat) : Bool :=
  decide (v % 8 < 5) && decide (bitsOf v 31 23 = 0)
    && (v / 8 % 2 == 0 || (decide (v / 128 % 32 ≤ 16) && decide (v / 4096 % 2048 < (if v / 128 % 32 = 0 then 2048 else 128))))

/-- ICU_ROUTE_WRITE (R588, R594): bit 31 reads LOCKED and is not written. -/
def execIcuRouteWrite (source : Fin 1024) (v : BitVec 32) (s : State) : Host.Outcome State Fault Refusal :=
  .next (s.icuWrite fun s =>
    let x := v.toNat % 2 ^ 31
    if isLocked source.val || !routeTaken x then s
    else
      let rest := s.icu.routes.filter fun y => y.1 != source.val
      let routes := if x = defaultSense source.val then rest else spInsert source.val x rest
      State.updateLines { s with icu := { s.icu with routes := routes } })

/-- ICU_INPUT_EVENT (R590): in one NOC cycle the input of a source meets the sense mode: a pulse source pulses, a level source
is evaluated. -/
def execIcuInputEvent (source : Fin 1024) (s : State) : Host.Outcome State Fault Refusal :=
  let n := source.val
  let isPulse := (decide (16 ≤ n) && decide (n < 36)) || (decide (69 ≤ n) && decide (n < 73))
    || (decide (112 ≤ n) && decide (n < 128)) || (decide (256 ≤ n) && decide (n < 464)) || (decide (512 ≤ n) && decide (n < 896))
  .next (if isPulse then s.pulse n else s.sample)

/-- Physical core of a logical one, by the core map in force (R25, R26). -/
def State.physicalOf (s : State) (c : Nat) : Option Nat := (indexes (fun x => x == c) s.ed.coreMap).head?

/-- Report damage with its interrupt: source 256 + p for a T0 line, 512 + c for a T1 segment (R587). -/
def State.alarm (s : State) (r : Report) : State :=
  match r.place with
  | .t0 a => match s.physicalOf (t0Core a) with
    | some p => s.pulse (256 + p)
    | none => s
  | .t1 ch _ => s.pulse (512 + ch)
  | _ => s

/-- The LQ7 stops (R531, R532): engines halt, transmitters fall silent, key slots clear, the fatal source rises. -/
def State.stop (s : State) (cause ccore : Nat) : State :=
  if s.stopped then s
  else State.sample { s with stopped := true, glb := { s.glb with cause := cause, ccore := ccore, edition := s.ed.number },
                             boot := { s.boot with keySlots := [] } }

/-- COLOPHON_FAULT (R515, R531): the package stops with cause 1. -/
def execColophonFault (s : State) : Host.Outcome State Fault Refusal := .next (s.stop 1 0)

/-- COMPOSITOR_MEMORY_ERROR (R515, R532): cause 2 in its private SRAM, 3 in its structures in the reserve parts. -/
def execCompositorMemoryError (inReserve : Bool) (ccore : Fin 8) (s : State) : Host.Outcome State Fault Refusal :=
  .next (s.stop (if inReserve then 3 else 2) ccore.val)

/-- COMPOSITOR_WATCHDOG (R515, R532): cause 4. -/
def execCompositorWatchdog (ccore : Fin 8) (s : State) : Host.Outcome State Fault Refusal := .next (s.stop 4 ccore.val)

/-- One NOC cycle passes with nothing commanded: two ISSUE cycles are counted (R538, R563), and the interrupt controller looks
at its inputs (R590; log 5). Before release the counter stands. -/
def tick (s : State) : State :=
  if s.boot.released then State.sample { s with cycle := s.cycle + 2 } else s

end Sys2Proof.Machine
end

