-- ==== Sys2Proof/Machine/Damage.lean ====
section
/-!
DEFINITION. Damage: from a reported place to its owner and the damage list (R255, R516 to R520), the scrubs of both tiers
(R233, R249), refresh (R243, R542).
-/
namespace Sys2Proof.Machine

open Sys2Proof

/-- The requests that two entries for shared data affect. -/
def joinRequests : Option (List Nat) → Option (List Nat) → Option (List Nat)
  | some a, some b => some (nub (a ++ b))
  | _, _ => none

/-- A damage list with one more entry: one per owner, place and status (R152, R516). -/
def joinDamage (ds : List Damage) (d : Damage) : List Damage :=
  let same := fun (e : Damage) => e.owner == d.owner && e.place == d.place && e.status == d.status
  if ds.any same then ds.map fun e => if same e then { e with requests := joinRequests e.requests d.requests } else e
  else ds ++ [d]

/-- An owner's entry joins the damage list (R516). -/
def State.addDamage (s : State) (i : Nat) (d : Damage) : State := s.modServe i fun v => { v with damage := joinDamage v.damage d }

/-- The bytes that a folio's T1 copy takes. -/
def State.folioT1Range (s : State) (i : Nat) (f : Folio) : Option (Nat × Nat) :=
  match s.layer i f.layer with
  | some l =>
    if f.tier = 1 then some ((Config.folioT1 i f.cls f.slot).toNat, spillBytes l)
    else f.dup.map fun d => ((Config.folioT1 i f.cls d).toNat, spillBytes l)
  | none => none

/-- Does a range of bytes touch a 256 B line at an address? -/
def touches (lo n line : Nat) : Bool := decide (lo < line + 256) && decide (line < lo + n)

/-- The static tensor whose stored image touches a line; `t1` picks the tier (R490). -/
def State.tensorAt (s : State) (i line : Nat) (t1 : Bool) : Option Nat :=
  (s.cfg i).bind fun g => (g.formats.descs.zipIdx.find? fun x =>
    x.1.cls != 2 && bitOf x.1.flags 1 == t1 && touches x.1.location x.1.stored line).map (·.2)

/-- The rows of a region of a run-time tensor whose bytes touch a line: `stride` decoded bytes a row, `elems` elements in all. -/
def regionTouching (t : TensorDesc) (run : Bool) (format base elems stride line : Nat) : List Nat :=
  (List.range t.rows).filter fun r =>
    if run then
      let d := max ((slugBytes format (slugElems t elems)).getD 0) 1
      let cap := regionCap t format elems
      touches (base + r * stride / d * cap) ((ceilDiv ((r + 1) * stride) d - r * stride / d) * cap) line
    else touches (base + r * stride) stride line

/-- The batch rows of a run-time tensor whose bytes or block scales touch a line. -/
def rowsTouching (t : TensorDesc) (line : Nat) : List Nat :=
  regionTouching t t.slugged t.elem t.location (t.rows * t.k) t.rowBytes line
    ++ if t.sf == .none then []
       else regionTouching t (planeIsRun t (slotPlane t)) (planeFormat t) (slotPlane t) (planeBytes t) (t.k / t.fmt.block) line

/-- Does a line hold data shared by the imprint outside the descriptors: a font image that its schedule loads or builds, or a count
table (R131, R138, R255, R520)? -/
def sharedLine (g : ImprintCfg) (line : Nat) : Bool :=
  (g.schedule.streams.any fun x => x.cmds.any fun r =>
      ((cmdHead r).opcode == 0x02 && touches (recBytes r 16 23 % 2 ^ 34) 512 line)
        || ((cmdHead r).opcode == 0x5A && touches (vectorBody r).dst 1024 line))
    || g.formats.streams.any fun f => f.tables.any fun t => touches t.2 (8 * f.kind.alphabet) line

/-- The requests whose density entries a line holds (R113). -/
def State.densityOwners (s : State) (i line : Nat) : List Nat :=
  match s.cfg i with
  | none => []
  | some g => (s.imp i).serve.reqs.filterMap fun x =>
      if x.2.isSome && g.formats.watch.any fun w => touches (densityAddr w x.1) 8 line then some x.1 else none

/-- A T0 line's owners (R255): the sharers of a folio, the request of a table page or a density entry, shared data, the requests of
run-time rows, or free space. -/
def State.ownersT0 (s : State) (i line : Nat) : List Owner :=
  let v := (s.imp i).serve
  let fs := v.folioList.filter fun x => x.2.tier == 0 && match s.layer i x.2.layer with
    | some l => touches x.2.addr (folioBytes l.kv l.d) line
    | none => false
  if !fs.isEmpty then nub (fs.flatMap fun x => x.2.sharers.map .request)
  else match v.pages.filter fun p => touches p.addr 256 line with
    | p :: ps => nub ((p :: ps).map fun q => .request q.request)
    | [] =>
      match s.tensorAt i line false with
      | some d => [.shared d]
      | none =>
        if ((s.cfg i).map (sharedLine · line)).getD false then [.shared 0xFFFF]
        else match s.densityOwners i line with
        | q :: qs => (q :: qs).map .request
        | [] => match s.runtimeAt i line with
          | some (_, t) => (s.requestsOn i (rowsTouching t line)).map .request
          | none => []

/-- R235 backwards: the imprint line that stands at a channel's local line. -/
def t1Unmap (set : List Nat) (ch q : Nat) : Option Nat :=
  let n := set.length
  (indexes (fun c => c == ch) set).head?.map fun k =>
    let f := (q ^^^ (q >>> 9) ^^^ (q >>> 18) ^^^ (q >>> 27)) &&& 0x1FF
    q * n + (k + n - f % n) % n

/-- A T1 line's owners. -/
def State.ownersT1 (s : State) (i ch q : Nat) : List Owner :=
  match t1Unmap (s.channelSet i) ch q with
  | none => []
  | some l =>
    let fs := (s.imp i).serve.folioList.filter fun x => match s.folioT1Range i x.2 with
      | some r => touches r.1 r.2 (256 * l)
      | none => false
    if !fs.isEmpty then nub (fs.flatMap fun x => x.2.sharers.map .request)
    else match s.tensorAt i (256 * l) true with
      | some d => [.shared d]
      | none => []

/-- The owners of a report's place. A folio slot's report names its folio; a font's or an adapter plate's names no descriptor and is
shared data (R520). A line that no map entry holds, read by a command on behalf of requests, is theirs: a fresh block, a segment list, a
parent vector, a merged triple, a query (R185). -/
def State.owners (s : State) (r : Report) : List Owner :=
  match r.place with
  | .t0 a => match s.ownersT0 r.imprint a, r.reader with
    | [], some x => (x.requests.getD []).map .request
    | os, _ => os
  | .t1 ch q => s.ownersT1 r.imprint ch q
  | .t2 c u => nub (((s.imp r.imprint).serve.folioList.filter fun x => x.2.cls == c && x.2.tier == 2
      && ((s.layer r.imprint x.2.layer).map fun l => firstUnit l x.2.slot == u).getD false).flatMap fun x => x.2.sharers.map .request)
  | .slot id => match spGet none (s.imp r.imprint).serve.folios id with
    | some f => f.sharers.map .request
    | none => []
  | .request h => [.request h]
  | .tensor d => [.shared d]
  | .font _ => [.shared 0xFFFF]
  | .plate _ _ => [.shared 0xFFFF]

/-- What R519 gives a request: refusals whose local range holds its rows; `rows` says that it has a row in the impression, which
shared data then touches. -/
def State.refusedFor (s : State) (i key : Nat) (rows : Bool) : List Nat :=
  (s.imp i).serve.refusals.filterMap fun x =>
    let os := s.ownersT0 i x.1
    if os.contains (.request key) then some x.2
    else if rows && os.any (fun o => match o with | .shared _ => true | .request _ => false) then some x.2
    else none

/-- The refusals that the operations of an abandoned impression met stay, as entries of the damage list (R517, R519): each request whose
rows the refused operation carried, or, for shared data, each that has a row in the impression. -/
def State.keepRefusals (s : State) (i : Nat) : State :=
  let m := (s.imp i).run.manifest
  let hits : List (Nat × Nat) := (s.imp i).serve.reqList.flatMap fun x =>
    if x.2.live then
      (s.refusedFor i x.1 (m.any fun t => t.kind != .empty && t.request == x.1)).map fun st => (x.1, st)
    else []
  hits.foldl (fun s h => s.addDamage i ⟨.request h.1, h.2, .request h.1, none⟩) s

/-- The requests that damage to shared data affects (R152): those the reading command works on; with no reading command, or one whose
record tells none, every request with a row in the impression. -/
def Report.affected (r : Report) : Option (List Nat) := r.reader.bind (·.requests)

/-- Resolve one report (R255, R516): its owners' entries, or a count of free space, once for a line in one impression. Damage in the
reserve parts is in the Compositor's own structures, and the package stops (R224, R515). -/
def State.resolve (s : State) (r : Report) : State :=
  let inReserve := match r.place with
    | .t0 a => isReserve a
    | _ => false
  if inReserve then s.stop 3 0
  else if 16 ≤ r.imprint then s
  else
    let os := s.owners r
    if os.isEmpty then
      if (s.imp r.imprint).run.freeSeen.contains r.place then s
      else (s.modRun r.imprint fun u => { u with freeSeen := u.freeSeen ++ [r.place] }).count r.imprint .freeDamage 1
    else os.foldl (fun s o => s.addDamage r.imprint ⟨o, r.status, r.place, r.affected⟩) s

/-- DAMAGE_REPORT (R516): the Compositor resolves the oldest report waiting. -/
def execDamageReport (s : State) : Host.Outcome State Fault Refusal :=
  if s.stopped then .next s
  else match s.reports with
    | [] => .next s
    | r :: rest => .next ((State.alarm { s with reports := rest } r).resolve r)

/-- Resolve every report of an imprint, and every report with no imprint. -/
def State.resolveAll (s : State) (i : Nat) : State :=
  let mine := s.reports.filter fun r => r.imprint == i || decide (16 ≤ r.imprint)
  mine.foldl (fun s r => (s.alarm r).resolve r)
    { s with reports := s.reports.filter fun r => !(r.imprint == i || decide (16 ≤ r.imprint)) }

/-- T0_SCRUB (R233): the next line of a core's slice; what the inner code corrects is written back, what it cannot becomes
zeros with valid codes and is reported. -/
def execT0Scrub (core : Fin 192) (s : State) : Host.Outcome State Fault Refusal :=
  if s.stopped || s.issueLevel = 0 || !s.sliceOn core.val then .next s
  else
    let c := core.val
    let n := spGet 0 s.t0.scrub c
    let l := t0Addr c 0 / 256 + n
    let bad := s.lineBad l
    let s := s.touchLine l
    let s := s.freshLine l
    let s := if bad then
      { s with t0 := { s.t0 with bytes := memWrite s.t0.bytes (256 * l) (List.replicate 256 0#8) } } else s
    let last := decide (n + 1 = 196608)
    let t := s.t0
    .next { s with t0 := { t with scrub := spPut 0 t.scrub c (if last then 0 else n + 1),
                                  passes := if last then spMod 0 t.passes c fun k => wrapAdd 32 k 1 else t.passes } }

/-- Segments of a channel (R236, R249). -/
def channelSegs : Nat := 3932160

/-- T1_SCRUB_SLOT (R249, R250): a segment that waits to be rewritten goes first; else the next in order. -/
def execT1ScrubSlot (ch : Fin 384) (s : State) : Host.Outcome State Fault Refusal :=
  let k := ch.val
  let c := s.ch k
  if s.stopped || s.issueLevel = 0 || (s.channelOwner k).isNone then .next s
  else
    match c.rewrite with
    | seg :: _ =>
      .next (s.modCh k fun c => { (c.mend seg) with data := memWrite c.data (1024 * seg) (List.replicate 1024 0#8) })
    | [] =>
      let seg := c.scrub
      let last := decide (seg + 1 = channelSegs)
      let bad := c.segBad seg
      let s := s.touchSeg k seg
      .next (s.modCh k fun c =>
        let d := if bad then memWrite c.data (1024 * seg) (List.replicate 1024 0#8) else c.data
        { (c.mend seg) with data := d, scrub := if last then 0 else seg + 1,
                            passes := if last then wrapAdd 32 c.passes 1 else c.passes })

/-- Is a channel refreshed by its timetable: its imprint runs, out of Rest (R234, R243)? -/
def State.refreshing (s : State) (ch : Nat) : Bool := !s.stopped && !s.inRest && (s.channelOwner ch).isSome

/-- REFRESH_WINDOW (R243, R244): one all-bank refresh; it answers one that was owing. -/
def execRefreshWindow (ch : Fin 384) (s : State) : Host.Outcome State Fault Refusal :=
  if !s.refreshing ch.val || s.issueLevel = 0 then .next s
  else .next (s.modCh ch.val fun c => { c with refreshed := wrapAdd 64 c.refreshed 1, owing := c.owing - 1 })

/-- REFRESH_INTERVAL_EXPIRY (R542): in removed cycles the controller starts an all-bank refresh; with no removed cycles the
timetable's window comes in time, and the refresh is postponed, at most two (R244). An imprint whose impression runs carries the
cause of the cycles removed further (R543). -/
def execRefreshIntervalExpiry (ch : Fin 384) (s : State) : Host.Outcome State Fault Refusal :=
  if !s.refreshing ch.val then .next s
  else if s.issueLevel < 64 then
    let s := s.modCh ch.val fun c => { c with refreshed := wrapAdd 64 c.refreshed 1 }
    .next (s.imprintList.foldl (fun s i =>
      if (s.imp i).serve.phase == .running then
        s.modServe i fun v => { v with timingVoid := v.timingVoid ||| (if s.inFloor then 2 else 1) } else s) s)
  else .next (s.modCh ch.val fun c => { c with owing := min 2 (c.owing + 1) })

end Sys2Proof.Machine
end

