-- ==== Sys2Proof/Machine/Recovery.lean ====
section
/-!
DEFINITION. Rosters, abandonment, core loss, peer loss (R318, R343, R521 to R529).
-/
namespace Sys2Proof.Machine

open Sys2Proof

/-! Rosters (R343, R527). -/

/-- The bytes of a roster. -/
def State.rosterBytes (s : State) (i type count routed impression epoch dest : Nat) (entries : List Byte) : List Byte :=
  leBytes 1 type ++ leBytes 1 (s.imp i).wire ++ leBytes 6 0 ++ leBytes 4 count ++ leBytes 4 routed ++ leBytes 8 0
    ++ leBytes 8 impression ++ leBytes 4 epoch ++ leBytes 4 s.fab.endpoint ++ leBytes 4 dest ++ List.replicate 20 0#8 ++ entries

/-- The bytes of a roster's entries (R343). -/
def rosterEntryBytes (es : List RosterEntry) : List Byte :=
  es.flatMap fun e => leBytes 4 e.handle
    ++ leBytes 4 (e.lead + bit e.isNew * 2 ^ 18 + bit e.cancel * 2 ^ 19 + bit e.full * 2 ^ 20 + bit e.narrow * 2 ^ 21)
    ++ leBytes 2 e.status ++ leBytes 2 e.width ++ leBytes 4 0

/-- An operation of the Compositor's roster traffic. -/
def rosterOp (i op addr : Nat) (operand : Nat) (data : List Byte) : Outst :=
  { req := { eseq := 0, op := op, retry := false, length := if op = 0x03 then 8 else data.length,
             addr := BitVec.ofNat 64 (addr + i * 2 ^ 56 + 2 ^ 60), epoch := 0, sgen := 0, operand := BitVec.ofNat 64 operand,
             compare := 0, data := data },
    sends := 0, core := 0, job := 0, dst := 0, src := 0, roster := true, morgue := none }

/-- This package's place in the imprint's lock-step set. -/
def State.ownIndex (s : State) (i : Nat) : Nat := ((indexes (fun x => x == s.fab.endpoint) (s.lockSet i)).head?).getD 0

/-- Send a roster to a member: stores into its bay, then the flag (R343). -/
def State.sendRoster (s : State) (i target : Nat) (bytes : List Byte) : State :=
  let k := s.ownIndex i
  let base := (Config.rosterBay i k).toNat
  let s := (cut256 (bytes.length + 1) base bytes).foldl (fun s x => s.sendOn i target (rosterOp i 0x02 x.1 0 x.2)) s
  s.sendOn i target (rosterOp i 0x03 (Config.rosterFlag i k).toNat (s.imp i).run.impression [])

/-- The members of the set that have not been removed, this package among them (R528). -/
def State.liveMembers (s : State) (i : Nat) : List Nat :=
  (s.lockSet i).filter fun e => !(s.imp i).serve.removed.contains e

/-- A mask of members over the set in ascending endpoint (R527). -/
def State.maskOf (s : State) (i : Nat) (m : List Nat) : Nat :=
  ((s.lockSet i).zipIdx.map fun x => if m.contains x.1 then 2 ^ x.2 else 0).sum

/-- The members that a mask names. -/
def State.membersOf (s : State) (i mask : Nat) : List Nat :=
  ((s.lockSet i).zipIdx.filter fun x => Nat.testBit mask x.2).map (·.1)

/-- Send this package's RECOVER roster to the other members of `m` (R527, R528). -/
def State.sendRecover (s : State) (i e : Nat) (m : List Nat) : State :=
  let mask := s.maskOf i m
  (m.filter (· != s.fab.endpoint)).foldl (fun s t =>
    s.sendRoster i t (s.rosterBytes i 0x24 2 0 (s.imp i).serve.committed e t (leBytes 32 mask))) s

/-! Held (R508, R513, R520). -/

/-- An edition event's layout (R513). -/
def edEvent (type code imprint edition impression sec item other carried created : Nat) : List Byte :=
  leBytes 2 type ++ leBytes 1 code ++ leBytes 1 imprint ++ leBytes 4 edition ++ leBytes 8 impression ++ leBytes 2 sec
    ++ leBytes 2 0 ++ leBytes 4 item ++ leBytes 4 other ++ leBytes 2 carried ++ leBytes 2 created

/-- The imprint enters Held (R508): it runs nothing; its live requests stay. -/
def State.enterHeld (s : State) (i code : Nat) : State :=
  let s := (s.modServe i fun v => { v with held := some code, phase := .closed, agreement := none, begun := false }).takeTable (i + 1)
  State.sample (if s.anyRuns then s else s.flushPower)

/-- A HELD event for an imprint, on its VF's ring and the PF's (R513). -/
def State.heldEvent (s : State) (i code : Nat) : State :=
  let b := fun n => edEvent 0x0016 code i s.ed.number n 0xFFFF 0 s.ed.number 0 0
  (s.event i (b (s.imp i).run.impression)).pfEvent (b (s.imp i).run.impression)

/-! Abandonment (R318, R522, R523). -/

/-- The cores of an imprint. -/
def State.coresOf (s : State) (i : Nat) : List Nat := ((s.cfg i).map (·.cores)).getD []

/-- Steps 1 to 5 of R318 on one core: queues empty, counters zero, parked operations dropped; each job waits at its OPEN
quoin. -/
def Core.abandon (c : Core) : Core :=
  { c with inflight := [], issues := 0,
           jobs := c.streams.zipIdx.map fun x =>
             let q := (x.1.2.head?.map fun r => recBytes r 8 9).getD 0
             (x.1.1, { CoreJob.fresh with pos := 1, atQuoin := some q, held := decide (x.2 < 2) }) }

/-- Step 4 of R318: every count table of the imprint's font streams is zeroed. -/
def State.zeroTables (s : State) (i : Nat) : State :=
  match s.cfg i with
  | none => s
  | some g => g.formats.streams.foldl (fun s x =>
      x.tables.foldl (fun s t => s.t0Write t.2 (List.replicate (8 * x.kind.alphabet) 0#8)) s) s

/-- What an abandoned impression leaves behind is dropped (R517, R523); cancel marks, admissions, damage entries, lateness and
density copies stay. -/
def Run.discard (r : Run) : Run :=
  { r with trips := [], decisions := [], rowStatus := [], hurt := [], observed := [], squares := [], sums := [], freshParts := [],
           badRows := [], freeSeen := [], cands := [], fontBuilt := [] }

/-- Folios reserved by the impression return to Free, its spills are given up (R211, R216, R523), and loads from lenders, whose answers are
of an old epoch now, are made again. -/
def State.returnFolios (s : State) (i : Nat) : State :=
  let s := ((s.imp i).serve.folioList.filter fun x => x.2.state == .reserved).foldl (fun s x =>
    x.2.sharers.foldl (fun s h => s.dropFolio i h x.1) s) s
  (s.abandonSpills i fun _ => true).restartLent i

/-- Everything of R318, R522 items 1 and 2, and R523. -/
def State.dropImpression (s : State) (i cause subject : Nat) : State :=
  let n := (s.imp i).run.impression
  let s := (s.coresOf i).foldl (fun s c => s.modCore c Core.abandon) s
  let s := ((s.keepRefusals i).zeroTables i).returnFolios i
  let between := (s.imp i).serve.phase == .closed && !(s.imp i).serve.begun
  let s := s.modRun i fun r =>
    { r.discard with epoch := (r.epoch + 1) % 2 ^ 32, fontBuilt := if between then r.fontBuilt else [] }
  let now := s.cycle
  let s := s.modServe i fun v =>
    let t := if v.recovering then v.recoverAt else now
    { v with phase := .closed, begun := false, rosters := [], refused := [], arrivals := [], offers := [], refusals := [], recovering := true,
             recoverAt := t, leftNow := [], adStalls := 0, stallNow := [], stallEvents := [] }
  let s := (s.count i .abandoned 1).pulse (112 + i)
  s.event i (faultEvent 0x0020 cause 0 subject n (s.imp i).run.epoch 0 0 0)

/-- The agreement has ended on members `m` at epoch `e` (R528, R529). -/
def State.agreed (s : State) (i e : Nat) (m : List Nat) (got : List Recover) : State :=
  let v := (s.imp i).serve
  let own := v.committed
  let lasts := (s.fab.endpoint, own) :: (got.filter fun r => r.epoch == e && m.contains r.source).map fun r => (r.source, r.last)
  let k := (lasts.map (·.2)).foldl max 0 + 1
  let gone := (s.lockSet i).filter fun x => !m.contains x && !v.removed.contains x
  let s := s.modServe i fun v => { v with agreement := none, removed := v.removed ++ gone, newRemoved := v.newRemoved ++ gone,
                                          lastReports := lasts }
  let s := s.count i .abandoned (k - 1 - (own + 1))
  s.modRun i fun r => { r with epoch := e, impression := k }

/-- Run R528's loop as far as what has arrived takes it; `timeout` ends one wait. By fuel. -/
def State.agree (s : State) (i : Nat) (timeout : Bool) : Nat → State
  | 0 => s
  | n + 1 =>
    match (s.imp i).serve.agreement with
    | none => s
    | some a =>
      let self := s.fab.endpoint
      let others := a.m.filter (· != self)
      let have_ := fun e x => a.got.any fun r => r.source == x && r.epoch == e
      let high := (a.got.map (·.epoch)).foldl max a.e
      let cut := fun e (m : List Nat) => m.filter fun x => x == self ||
        (a.got.filter fun r => r.epoch == e).all fun r => (s.membersOf i r.mask).contains x
      if !timeout && !others.all (have_ a.e) then s
      else if a.e < high then
        let m := cut high a.m
        let s := s.modServe i fun v => { v with agreement := some { a with e := high, m := m } }
        (s.sendRecover i high m).agree i false n
      else
        let r := cut a.e (self :: others.filter (have_ a.e))
        let r := a.m.filter r.contains
        if r = a.m then s.agreed i a.e a.m a.got
        else
          let s := s.modServe i fun v => { v with agreement := some { a with e := a.e + 1, m := r } }
          (s.sendRecover i (a.e + 1) r).agree i false n

/-- How many passes the loop can take at once. -/
def State.agreeFuel (s : State) (i : Nat) : Nat := 2 * (s.lockSet i).length + 4

/-- Start the agreement (R528) with the rosters accepted so far. -/
def State.startAgreement (s : State) (i : Nat) (got : List Recover) : State :=
  let e := (got.map (·.epoch)).foldl max (s.imp i).run.epoch
  let m := s.liveMembers i
  let s := s.modServe i fun v => { v with agreement := some ⟨e, m, got⟩ }
  (s.sendRecover i e m).agree i false (s.agreeFuel i)

/-- Abandon an imprint's impression for a cause of R521 and run the agreement (R522). -/
def State.abandon (s : State) (i cause subject : Nat) (got : List Recover) : State :=
  if s.heldOrNone i || s.stopped then s
  else (s.dropImpression i cause subject).startAgreement i got

/-- Act on the causes met (R521): one abandonment each. -/
def State.runCauses (s : State) : Nat → State
  | 0 => s
  | n + 1 =>
    match s.causes with
    | [] => s
    | (i, code, subject) :: rest =>
      let s := { s with causes := rest }
      if (s.imp i).serve.agreement.isSome then s.runCauses n
      else (s.abandon i code subject []).runCauses n

/-- Serve what the package sent itself and act on the causes met. -/
def State.settle (s : State) : State := (s.runLoop (4 * s.fab.loop.length + 16)).runCauses 64

/-- Is something that imprint `i` awaits from a member missing: a roster of its phase, or the flag of a quoin its cores wait at
(R521 cause 2)? A member that refused roster traffic counts as one whose arrivals are missing (R519). -/
def State.missingFrom (s : State) (i e : Nat) : Bool :=
  let v := (s.imp i).serve
  let roster := fun t => !v.rosters.any fun r => r.source == e && r.type == t
  v.refused.contains e || match v.phase with
  | .openRosters => roster 0x21
  | .countRosters => roster 0x23
  | .closeRosters => roster 0x22
  | _ => match s.cfg i with
    | none => false
    | some g => g.schedule.quoins.any fun q =>
        (s.coresOf i).any (fun c => ((s.core c).job q.job).atQuoin == some q.index)
          && q.arrivals.any fun a => a.2 == e && !(v.arrivals.contains a.1
              && ofLeBytes (memRead s.t0.bytes a.1 8) == (s.imp i).run.impression)

/-- PEER_TIMEOUT (R521 cause 2, R528): a wait has lasted too long without a member's arrival: the impression is abandoned, or
the agreement's wait ends. -/
def execPeerTimeout (i : Fin 16) (endpoint : Nat) (s : State) : Host.Outcome State Fault Refusal :=
  let v := (s.imp i.val).serve
  if s.stopped || s.heldOrNone i.val then .next s
  else if v.agreement.isSome then .next (s.agree i.val true (s.agreeFuel i.val)).settle
  else if (s.liveMembers i.val).contains endpoint && endpoint != s.fab.endpoint && s.missingFrom i.val endpoint then
    .next (s.abandon i.val 2 endpoint []).settle
  else .next s

/-- RECOVER_ROSTER (R527, R528): a roster that passes the checks joins a running agreement; with none running, one of a higher
epoch is cause 3, and one of the agreed epoch is ignored. -/
def execRecoverRoster (i : Fin 16) (source dest : Nat) (epoch : BitVec 32) (members : BitVec 256) (last : Nat) (s : State) :
    Host.Outcome State Fault Refusal :=
  let v := (s.imp i.val).serve
  let e := epoch.toNat
  let r : Recover := ⟨source, e, members.toNat, last⟩
  if s.stopped || s.heldOrNone i.val then .next s
  else if dest ≠ s.fab.endpoint || !(s.lockSet i.val).contains source || source = s.fab.endpoint then
    .next (s.count i.val .misdirected 1)
  else if e < (s.imp i.val).run.epoch then .next (s.count i.val .staleBlocks 1)
  else match v.agreement with
    | some a =>
      let s := s.modServe i.val fun v => { v with agreement := some { a with got := a.got ++ [r] } }
      .next (s.agree i.val false (s.agreeFuel i.val)).settle
    | none =>
      if e = (s.imp i.val).run.epoch then .next s
      else .next (s.abandon i.val 3 source [r]).settle

/-! Cores (R521 causes 4 and 5, R524, R525). -/

/-- A core fault: remembered per physical core; the second within 1,024 committed impressions makes the core lost (R524). -/
def State.noteFault (s : State) (core i cause : Nat) : State :=
  match s.physicalOf core with
  | none => s
  | some p =>
    let now := ctrGet (s.imp i).run.counters .impressions
    let first := spGet 0 s.coreFaults p
    if first ≠ 0 && decide (now + 1 - first ≤ 1024) then
      { s with lostCores := s.lostCores ++ [(core, cause)], coreFaults := spPut 0 s.coreFaults p 0 }
    else { s with coreFaults := spPut 0 s.coreFaults p (now + 1) }

/-- CORE_CHECK_FAULT (R521 cause 4): the impression of the core's imprint is abandoned. -/
def execCoreCheckFault (core : Fin 192) (s : State) : Host.Outcome State Fault Refusal :=
  match s.imprintOf core.val with
  | none => .next s
  | some i =>
    if s.stopped then .next s
    else
      let s := match s.physicalOf core.val with
        | some p => s.pulse (256 + p)
        | none => s
      .next ((s.noteFault core.val i 4).abandon i 4 core.val []).settle

/-- CORE_TIMEOUT (R521 cause 5): a core whose job has not reached its next quoin in time. -/
def execCoreTimeout (core : Fin 192) (s : State) : Host.Outcome State Fault Refusal :=
  match s.imprintOf core.val with
  | none => .next s
  | some i =>
    let late := (s.core core.val).streams.any fun x => ((s.core core.val).job x.1).atQuoin.isNone
      || (s.core core.val).inflight.any fun f => f.job == x.1
    if s.stopped || !late || (s.imp i).serve.phase != .running then .next s
    else .next ((s.noteFault core.val i 5).abandon i 5 core.val []).settle

/-- The spare that takes a lost core's place: the lowest physical number on its die (R525). -/
def State.spareFor (s : State) (p : Nat) : Option Nat :=
  (List.range 208).find? fun q => q / 104 == p / 104 && s.ed.coreMap.getD q 0xFF == 0xFE

/-- Extend a measurement and the attestation log (R582). -/
def State.extend (s : State) (k : Nat) (d : BitVec 384) : State :=
  let x := extendMeas (s.boot.meas.getD (k - 1) 0) d
  { s with boot := { s.boot with meas := s.boot.meas.set (k - 1) x, log := s.boot.log ++ [(k, d)] } }

/-- Lines of a slice that the copy finds uncorrectable: reported, and zeros with valid codes in the spare's slice (R525). -/
def State.copySlice (s : State) (core : Nat) : State :=
  let bad := nub ((s.t0.flips.map fun x => x.1 / 32).filter fun l => t0Core (256 * l) == core && s.lineBad l)
  bad.foldl (fun s l =>
    let s := (s.badLine l).freshLine l
    { s with t0 := { s.t0 with bytes := memWrite s.t0.bytes (256 * l) (List.replicate 256 0#8) } }) s

/-- The core map as CORE_MAP's 208 u16 entries (R486): the logical core, 0xFF where there is none, and 0 disabled, 1 spare, 2
active. -/
def coreMapBytes (m : List Nat) : List Byte :=
  m.flatMap fun x => leBytes 2 (if x < 192 then x + 512 else if x = 0xFE then 0x1FF else 0xFF)

/-- CORE_LOST (R525): a spare takes the lost core's logical number; with no spare, the imprint enters Held. -/
def execCoreLost (core : Fin 192) (s : State) : Host.Outcome State Fault Refusal :=
  let c := core.val
  match s.lostCores.find? (fun x => x.1 == c), s.physicalOf c, s.imprintOf c with
  | some (_, cause), some p, some i =>
    if s.stopped then .next s
    else
      let s := { s with lostCores := s.lostCores.filter fun x => x.1 != c }
      let ev := fun (s : State) sub held =>
        faultEvent 0x0023 cause (bit held) (c + p * 2 ^ 8 + sub * 2 ^ 16) (s.imp i).run.impression (s.imp i).run.epoch 0 0 0
      match s.spareFor p with
      | some q =>
        let s := s.copySlice c
        let s := s.modCore c fun x => { Core.empty with streams := x.streams, saveOff := x.saveOff, jobs := x.jobs }
        let s := { s with ed := { s.ed with coreMap := (s.ed.coreMap.set q c).set p 0xFF, disabled := s.ed.disabled ++ [p] } }
        let s := s.imprintList.foldl (fun s j => s.modServe j fun v => { v with retire := true }) s
        let s := s.extend 6 (Config.sha384 (coreMapBytes s.ed.coreMap))
        .next (s.event i (ev s q false))
      | none =>
        let s := { s with ed := { s.ed with coreMap := s.ed.coreMap.set p 0xFF, disabled := s.ed.disabled ++ [p] } }
        .next (((s.event i (ev s 0xFF true)).heldEvent i 2).enterHeld i 2)
  | _, _, _ => .next s

end Sys2Proof.Machine
end

