-- ==== Sys2Proof/Machine/Chase.lean ====
section
/-!
DEFINITION. Chase: copies in T0, transfers with T1, fabric commands, transfer windows (R276, R293, R308 to R311, R428).
-/
namespace Sys2Proof.Machine

open Sys2Proof

/-- The impression number of a job (R319): job 0's is the imprint's own (log 47). -/
def State.jobNumber (s : State) (i job : Nat) : Nat :=
  if job = 0 then (s.imp i).run.impression else 1 + spGet 0 (s.imp i).run.jobImp job

/-- The status list of a RETURN block of this package, filled in as the block leaves (R282; log 30): 0x0000, or the status of the damage that
touched the row. `a` is where the block stands. -/
def State.stampReturn (s : State) (i a : Nat) (bs : List Byte) : List Byte :=
  let h := BlockHead.ofBytes (bs.take 64)
  if bs.length < 64 || h.type ≠ 0x14 || h.source ≠ s.fab.endpoint then bs
  else
    let stride := roundUp h.rowBytes 256
    let rows := roundUp (64 + 4 * h.count) 256
    let sts := (List.range h.count).map fun k =>
      (((s.imp i).run.badRows.find? fun x => decide (a + rows + k * stride ≤ x.1) && decide (x.1 < a + rows + k * stride + stride)).map
        (·.2)).getD 0
    let at_ := 64 + 2 * h.count
    bs.take at_ ++ (sts.flatMap (leBytes 2)).take (bs.length - at_) ++ bs.drop (at_ + 2 * h.count)

/-- Read bytes that Chase moves to `dst`: rows of a DISPATCH block whose list fails its check are zeros, and their damage goes with them
(R281). The answer says whether the range is inside the imprint's rights. -/
def State.chaseRead (s : State) (i a n dst : Nat) : List Byte × Bool × State :=
  let bad := (linesOf a n).filter fun l => s.badDispatch i (max a (256 * l))
  let x := s.coreRead i a n
  if bad.isEmpty then (x.1, x.2.1, x.2.2.moveMarks i a n dst n 1 1)
  else (x.1.zipIdx.map fun y => if bad.contains ((a + y.2) / 256) then 0#8 else y.1, x.2.1,
    (x.2.2.moveMarks i a n dst n 1 1).modRun i fun r =>
      { r with badRows := r.badRows ++ bad.map fun l => (dst + (max a (256 * l) - a), 0x0300) })

/-- Write bytes that Chase moves within the package: into a bay slot they are checked as a block from the fabric is (R276). -/
def State.chasePut (s : State) (i a : Nat) (bs : List Byte) : State :=
  match s.bayAt i a with
  | some b =>
    let g := s.bayStore i b a bs
    if g.1 then (g.2.coreWrite i a bs).2 else g.2
  | none => (s.coreWrite i a bs).2

/-- COPY (R309). -/
def execChaseCopy (core : Fin 192) (job : Fin 8) (s : State) : Host.Outcome State Fault Refusal :=
  s.command core.val job.val 0x60 fun i r s =>
    let b := chaseBody r
    let x := s.chaseRead i b.src b.bytes b.dst
    x.2.2.chasePut i b.dst (s.stampReturn i b.src x.1)

/-- The index list of a GATHER or SCATTER: u16 entries, as the Imposer builds them (R274; log 39). -/
def State.indexList (s : State) (core i : Nat) (b : ChaseBody) : List Nat × State :=
  let x := s.coreRead i (t0Addr core b.index) (2 * b.count)
  ((chunks 2 x.1).map ofLeBytes, x.2.2)

/-- GATHER (R225, R309): row k comes from SRC plus index k rows; an address outside the rights reads zeros. -/
def execChaseGather (core : Fin 192) (job : Fin 8) (s : State) : Host.Outcome State Fault Refusal :=
  s.command core.val job.val 0x61 fun i r s =>
    let b := chaseBody r
    let l := s.indexList core.val i b
    l.1.zipIdx.foldl (fun s x =>
      let y := s.chaseRead i (b.src + x.1 * b.bytes) b.bytes (b.dst + x.2 * b.bytes)
      let s := if y.2.1 then y.2.2 else y.2.2.badIndex i (t0Addr core.val (b.index + 2 * x.2))
      s.chasePut i (b.dst + x.2 * b.bytes) y.1) l.2

/-- SCATTER (R225, R309): row k goes to DST plus index k rows; an address outside the rights is dropped. -/
def execChaseScatter (core : Fin 192) (job : Fin 8) (s : State) : Host.Outcome State Fault Refusal :=
  s.command core.val job.val 0x62 fun i r s =>
    let b := chaseBody r
    let l := s.indexList core.val i b
    l.1.zipIdx.foldl (fun s x =>
      let a := b.dst + x.1 * b.bytes
      let y := s.chaseRead i (b.src + x.2 * b.bytes) b.bytes a
      if s.mayWriteAll i a b.bytes then y.2.2.chasePut i a y.1
      else y.2.2.badIndex i (t0Addr core.val (b.index + 2 * x.2))) l.2

/-- BCAST (R225, R309): the bytes go to the same offset of each listed core, in list order; to a core outside the rights they are dropped. -/
def execBcast (core : Fin 192) (job : Fin 8) (s : State) : Host.Outcome State Fault Refusal :=
  s.command core.val job.val 0x63 fun i r s =>
    let b := chaseBody r
    let l := s.indexList core.val i b
    let x := l.2.coreRead i b.src b.bytes
    l.1.zipIdx.foldl (fun s c =>
      let y := s.coreWrite i (t0Addr c.1 (t0Off b.dst)) x.1
      if y.1 then y.2 else y.2.badIndex i (t0Addr core.val (b.index + 2 * c.2))) x.2.2

/-- The slugs of a stored run from offset `off`: place, DEC_LEN and stored bytes of each, by fuel (R125, R127). -/
def runSlugs (per elems : Nat) : Nat → Nat → Nat → List Byte → List (Nat × Nat × List Byte)
  | 0, _, _, _ => []
  | n + 1, j, off, bs =>
    if elems ≤ j * per || bs.length < 16 then []
    else
      let m := footprint (SlugHeader.ofBytes bs).enc
      (off, min per (elems - j * per), bs.take m) :: runSlugs per elems n (j + 1) (off + m) (bs.drop m)

/-- Slug errors of a cold image that Chase brings back from T1 (R135, R146, R154): the slugs of the imprint's tensors in T1 that the bytes
hold whole are decided under the fixed fonts of the edition, counted, and reported as the tensor's. -/
def State.coldSlugs (s : State) (i a n : Nat) : State :=
  match s.cfg i with
  | none => s
  | some g =>
    let fonts := g.formats.fonts.filterMap Font.ofImage
    g.formats.descs.zipIdx.foldl (fun s x =>
      let t := x.1
      if t.cls = 2 || !bitOf t.flags 1 || !t.slugged || !(decide (a < t.location + t.stored) && decide (t.location < a + n)) then s
      else
        let image := s.t1Bytes i t.location t.stored
        let region := fun (format elems off : Nat) =>
          (runSlugs (slugElems t elems) elems (regionSlugs t elems) 0 off (image.drop off)).map fun y => (y, format)
        let elemsRun := region t.elem (t.rows * t.k) 0
        let plane := roundUp ((elemsRun.getLast?.map fun y => y.1.1 + y.1.2.2.length).getD 0) 256
        let all := elemsRun ++ if t.sf == .none || t.stored = plane + planeBytes t then [] else region (planeFormat t) (planeBytes t) plane
        let wrong := (all.filter fun y => decide (a ≤ t.location + y.1.1) && decide (t.location + y.1.1 + y.1.2.2.length ≤ a + n)).map
          (fun y => (decideSlug fonts y.2 y.1.2.1 y.1.2.2).1) |>.filter (· != .good)
        (wrong.foldl (fun s o => s.hurtTensor i x.2 o.status) (s.countSlugs i (wrong.map (·.status))))) s

/-- T1_READ (R154, R248, R293, R309): the lines that SRC and BYTES name, through the segments of the plan. The bytes of a cold image arrive as
they are stored. -/
def execT1Read (core : Fin 192) (job : Fin 8) (s : State) : Host.Outcome State Fault Refusal :=
  s.command core.val job.val 0x64 fun i r s =>
    let b := chaseBody r
    let x := s.t1Read i b.src b.bytes
    (x.2.coldSlugs i b.src b.bytes).chasePut i b.dst x.1

/-- T1_WRITE (R237, R248, R309). -/
def execT1Write (core : Fin 192) (job : Fin 8) (s : State) : Host.Outcome State Fault Refusal :=
  s.command core.val job.val 0x65 fun i r s =>
    let b := chaseBody r
    let x := s.coreRead i b.src b.bytes
    x.2.2.t1Write i b.dst x.1

/-- A fabric operation of a Chase command. -/
def chaseOp (op core job addr length operand compare : Nat) (data : List Byte) (src dst : Nat) : Outst :=
  { req := { eseq := 0, op := op, retry := false, length := length, addr := BitVec.ofNat 64 addr, epoch := 0, sgen := 0,
             operand := BitVec.ofNat 64 operand, compare := BitVec.ofNat 64 compare, data := data },
    sends := 0, core := core, job := job, dst := dst, src := src, roster := false, morgue := none }

/-- Send an operation whose reply a job awaits (R310). -/
def State.sendAwaited (s : State) (i core job target n : Nat) (o : Outst) : State :=
  let e := s.nextEseq i target
  (s.claimReply core job target e o.dst n).sendOn i target { o with req := { o.req with eseq := BitVec.ofNat 32 e } }

/-- FAB_STORE (R428): pieces at every 256 B boundary of the remote address, in ascending order. -/
def execFabStore (core : Fin 192) (job : Fin 8) (s : State) : Host.Outcome State Fault Refusal :=
  s.command core.val job.val 0x66 fun i r s =>
    let b := chaseBody r
    let x := s.coreRead i b.src b.bytes
    let bs := s.stampReturn i b.src x.1
    ((cut256 (b.bytes + 1) b.dst bs).foldl (fun s p =>
      s.sendOn i b.endpoint (chaseOp 0x02 core.val job.val p.1 p.2.length 0 0 p.2 (b.src + (p.1 - b.dst)) 0)) x.2.2).settle

/-- FAB_LOAD (R310, R428): each piece's reply lands at the matching offset from DST, at the quoin that admits it. -/
def execFabLoad (core : Fin 192) (job : Fin 8) (s : State) : Host.Outcome State Fault Refusal :=
  s.command core.val job.val 0x67 fun i r s =>
    let b := chaseBody r
    ((cut256 (b.bytes + 1) b.src (List.replicate b.bytes 0#8)).foldl (fun s p =>
      s.sendAwaited i core.val job.val b.endpoint p.2.length
        (chaseOp 0x01 core.val job.val p.1 p.2.length 0 0 [] 0 (b.dst + (p.1 - b.src)))) s).settle

/-- FAB_ATOMIC (R309, R310, R419): the old value comes back to the T0 address in SRC. -/
def execFabAtomic (core : Fin 192) (job : Fin 8) (s : State) : Host.Outcome State Fault Refusal :=
  s.command core.val job.val 0x68 fun i r s =>
    let b := chaseBody r
    (s.sendAwaited i core.val job.val b.endpoint 8
      (chaseOp b.op core.val job.val b.dst b.size b.operand b.compare [] b.src b.src)).settle

/-- FAB_FLAG (R420): the operand is the impression number of the issuing job. -/
def execFabFlag (core : Fin 192) (job : Fin 8) (s : State) : Host.Outcome State Fault Refusal :=
  s.command core.val job.val 0x69 fun i r s =>
    let b := chaseBody r
    (s.sendOn i b.endpoint (chaseOp 0x03 core.val job.val b.dst 8 (s.jobNumber i job.val) 0 [] b.src b.src)).settle

/-- WINDOW (R217, R311): the Compositor's list for the window's class runs while its capacity lasts. -/
def execWindow (core : Fin 192) (job : Fin 8) (s : State) : Host.Outcome State Fault Refusal :=
  s.command core.val job.val 0x6A fun i r s =>
    let b := chaseBody r
    (s.runWindow i b.planFirst (s.windowList i b.wclass)).settle

end Sys2Proof.Machine
end

