-- ==== Sys2Proof/Machine/Links.lean ====
section
/-!
DEFINITION. Tiltil ports and links, and the arrival of packets (R383 to R416, R424 to R444).
-/
namespace Sys2Proof.Machine

open Sys2Proof

/-- Is the package out of reset and not stopped, so that its ports run (R531, R567)? -/
def State.live (s : State) : Bool := s.boot.released && !s.stopped

/-! Port states (R399). -/

/-- Do an imprint's routes or masks name a port (R416)? -/
def State.names (s : State) (i p : Nat) : Bool :=
  match s.cfg i with
  | none => false
  | some g => g.routes.allows s.topology p || g.routes.override.any fun e => bitOf e.2.2 p

/-- A port's new STATE and REASON: a change of STATE pulses its interrupt source and is told to the imprints that name the port
at their next commits (R416). -/
def State.portTo (s : State) (p : Nat) (st : PortState) (reason : Nat) : State :=
  let was := (s.port p).state
  if was = st then s.modPort p fun x => { x with reason := reason }
  else
    let told := s.imprintList.filter fun i => s.names i p
    (s.modPort p fun x => { x with state := st, reason := reason, news := nub (x.news ++ told) }).pulse (16 + p)

/-- A port starts again from DETECT or OFF: its link layer forgets both numbers and what was unacknowledged (R400; log 42). -/
def State.portDown (s : State) (p : Nat) (st : PortState) (reason : Nat) : State :=
  (s.modPort p fun x =>
    { x with wire := 0, lastHello := none, before := none, helloSent := false, helloGot := false, nextSeq := 0, unacked := [],
             credit := [0, 0, 0, 0, 0], replays := 0, expect := 0, nakSent := false, freed := [0, 0, 0, 0, 0], changed := false,
             helloDue := false, poolDue := false, toReplay := [], substate := 0, poolOwed := false }).portTo p st reason

/-- The link enters HELLO, from LOCK or in RETRAIN (R397). -/
def Port.intoHello (x : Port) : Port :=
  { x with credit := [0, 0, 0, 0, 32], freed := [0, 0, 0, 0, 0], changed := false, helloDue := true, helloSent := false,
           helloGot := false, poolDue := false, poolOwed := true, toReplay := [] }

/-- A port enters RETRAIN (R395, R399): its replay buffer and expected number stay; the entry is counted. -/
def State.portRetrain (s : State) (p : Nat) : State :=
  ((s.modPort p fun x => { x with before := x.lastHello, substate := 0, replays := 0, toReplay := [], nakSent := false,
                                  helloDue := false }).portTo p .retrain 0).portCount p 4

/-- The role that R383 gives a port. -/
def portRole (p : Nat) : Nat := if p < 7 then 0 else if p < 14 then 1 else 2

/-- The version a link runs at, if there is one (R405). -/
def wireOf (maxA minA : Nat) (h : Hello) : Option Nat :=
  let v := min maxA h.wireMax
  if minA ≤ v && h.wireMin ≤ v then some v else none

/-- Does a neighbour's HELLO match a plan entry (R403)? -/
def planMatches (e : PortPlan) (p : Nat) (h : Hello) : Bool :=
  h.role == portRole p && match e.plane with
    | some k => h.isSwitch && h.plane == k
    | none => !h.isSwitch && h.node == e.peer && h.port == e.peerPort

/-- The outcome of a HELLO by the plan (R400, R403): UP, or HELD with its reason, and whether the planned link counts as
missing. -/
def State.outcome (s : State) (p : Nat) (h : Hello) : PortState × Nat × Bool :=
  match s.topology with
  | none => (.held, 4, false)
  | some t =>
    match t.ports[p]? with
    | none => (.held, 1, false)
    | some e =>
      if e.need = .unused then (.held, 1, false)
      else if !planMatches e p h then (.held, 2, true)
      else if (wireOf s.wireMax s.wireMin h).isNone then (.held, 3, true)
      else (.up, 0, false)

/-- Reason 8 for an UP port below the operating version of an imprint that names it (R406). -/
def State.upReason (s : State) (p v : Nat) : Nat :=
  if s.imprintList.any fun i => s.names i p && decide (v < (s.imp i).wire) then 8 else 0

/-- A port enters UP: what it had not yet been acknowledged goes again after RETRAIN, and the pools that it owes since HELLO are
returned once nothing from the port is held (R397, R400). -/
def State.portUp (s : State) (p : Nat) : State :=
  let x := s.port p
  let again := if x.state = .retrain then x.unacked else x.toReplay
  let s := (s.modPort p fun x => { x with missing := false, toReplay := again, poolDue := x.poolOwed, poolOwed := false }).portTo
    p .up (s.upReason p x.wire)
  (s.poolReturn p).pump p

/-- Set a port by the outcome of its last HELLO (R403); RETRAIN first asks for the peer of before, and a port that goes from it
to HELD loses its replay buffer (R399, R400). -/
def State.settlePort (s : State) (p : Nat) : State :=
  let x := s.port p
  match x.lastHello with
  | none => s
  | some h =>
    let same := match x.before with
      | some b => b.uid == h.uid && b.node == h.node && b.port == h.port
      | none => true
    let o := if x.state = .retrain && !same then (PortState.held, 2, true) else s.outcome p h
    if o.1 = .up then (if x.state = .up then s else s.portUp p)
    else
      (s.modPort p fun x =>
        { x with missing := o.2.2, toReplay := [], unacked := if x.state = .retrain then [] else x.unacked }).portTo p .held o.2.1

/-- Has a port in HELLO, or in RETRAIN's HELLO, sent and received one, with the location valid (R399)? -/
def State.helloDone (s : State) (p : Nat) : Bool :=
  let x := s.port p
  x.helloSent && x.helloGot && s.fab.valid && (x.state == .hello || (x.state == .retrain && x.substate == 2))

/-- Leave HELLO when it is complete. -/
def State.tryHello (s : State) (p : Nat) : State := if s.helloDone p then s.settlePort p else s

/-- Does the port exchange LINK and HELLO packets? -/
def Port.talks (x : Port) : Bool :=
  !x.loopback && (x.state == .hello || x.state == .up || x.state == .held || (x.state == .retrain && x.substate == 2))

/-! Training and timers. -/

/-- SIGNAL_DETECT: DETECT to TRAIN. -/
def execSignalDetect (port : Fin 20) (s : State) : Host.Outcome State Fault Refusal :=
  if s.live && (s.port port.val).state == .detect then .next (s.portTo port.val .train 0) else .next s

/-- TRAIN_DONE: TRAIN to LOCK, also inside RETRAIN. -/
def execTrainDone (port : Fin 20) (s : State) : Host.Outcome State Fault Refusal :=
  let x := s.port port.val
  if !s.live then .next s
  else if x.state = .train then .next (s.portTo port.val .lock 0)
  else if x.state = .retrain && x.substate = 0 then .next (s.modPort port.val fun x => { x with substate := 1 })
  else .next s

/-- TRAIN_TIMEOUT: TRAIN to DETECT. -/
def execTrainTimeout (port : Fin 20) (s : State) : Host.Outcome State Fault Refusal :=
  if s.live && (s.port port.val).state == .train then .next (s.portDown port.val .detect 0) else .next s

/-- LOCK_ACHIEVED: LOCK to HELLO, also inside RETRAIN; a looped port stays in LOCK (R415). -/
def execLockAchieved (port : Fin 20) (s : State) : Host.Outcome State Fault Refusal :=
  let p := port.val
  let x := s.port p
  if !s.live || x.loopback then .next s
  else if x.state = .lock then .next (((s.modPort p Port.intoHello).portTo p .hello 0).pump p)
  else if x.state = .retrain && x.substate = 1 then
    .next ((s.modPort p fun x => { x.intoHello with substate := 2 }).pump p)
  else .next s

/-- LOCK_TIMEOUT: LOCK to DETECT. A looped port has its own signal, locks on it and stays. -/
def execLockTimeout (port : Fin 20) (s : State) : Host.Outcome State Fault Refusal :=
  let x := s.port port.val
  if s.live && x.state == .lock && !x.loopback then .next (s.portDown port.val .detect 0) else .next s

/-- HELLO_TIMEOUT: HELLO to DETECT, 2 ms after the location is valid. -/
def execHelloTimeout (port : Fin 20) (s : State) : Host.Outcome State Fault Refusal :=
  if s.live && (s.port port.val).state == .hello && s.fab.valid then .next (s.portDown port.val .detect 0) else .next s

/-- RETRAIN_TIMEOUT: RETRAIN to DETECT, and the replay buffer is lost (R399, R400). -/
def execRetrainTimeout (port : Fin 20) (s : State) : Host.Outcome State Fault Refusal :=
  if s.live && (s.port port.val).state == .retrain then .next (s.portDown port.val .detect 5) else .next s

/-- UNCORRECTABLE_CODEWORD_RUN: 16 uncorrectable codewords in a row are counted and put an UP port into RETRAIN. -/
def execUncorrectableCodewordRun (port : Fin 20) (s : State) : Host.Outcome State Fault Refusal :=
  let p := port.val
  if s.live && (s.port p).state == .up then
    .next ((s.modPort p fun x => { x with count := x.count.set 1 (wrapAdd 64 (x.count.getD 1 0) 16) }).portRetrain p)
  else .next s

/-- ALIGNMENT_LOSS: UP to RETRAIN, HELD to DETECT with reason LOCK_LOST. -/
def execAlignmentLoss (port : Fin 20) (s : State) : Host.Outcome State Fault Refusal :=
  let p := port.val
  if !s.live then .next s
  else if (s.port p).state = .up then .next (s.portRetrain p)
  else if (s.port p).state = .held then .next (s.portDown p .detect 6)
  else .next s

/-- HELLO_TIMER (R399, R402): the port sends its HELLO; in HELLO only until it has sent and received one. -/
def execHelloTimer (port : Fin 20) (s : State) : Host.Outcome State Fault Refusal :=
  let p := port.val
  let x := s.port p
  if !s.live || !x.talks then .next s
  else if (x.state = .hello || x.state = .retrain) && x.helloSent && x.helloGot then .next s
  else .next (((s.modPort p fun x => { x with helloDue := true }).pump p).tryHello p).settle

/-- HELLO_RECEIVE (R402, R403): the peer's fields are kept, its pool space is free again, and the outcome follows. -/
def execHelloReceive (port : Fin 20) (h : Hello) (s : State) : Host.Outcome State Fault Refusal :=
  let p := port.val
  let x := s.port p
  if !s.live || !x.talks then .next s
  else
    let v := (wireOf s.wireMax s.wireMin h).getD 0
    let s := s.modPort p fun x =>
      { x with lastHello := some h, helloGot := true, peer := h.node, peerKind := bit h.isSwitch, peerPort := h.port,
               peerPlane := h.plane, wire := v, freed := listAdd x.freed 4 2, changed := true }
    let s := if x.state = .up || x.state = .held then s.settlePort p else s.tryHello p
    .next s.settle

/-! The link layer (R392 to R398). -/

/-- What is left unacknowledged after an ACK of number `n`; an ACK of a number not outstanding acknowledges nothing. -/
def ackTo (n : Nat) (xs : List Packet) : List Packet :=
  match indexes (fun (q : Packet) => q.head.lseq == n) xs with
  | k :: _ => xs.drop (k + 1)
  | [] => xs

/-- Start a replay of everything unacknowledged, in order (R395): it is counted. The space that it takes at the peer is the space
the first sending paid for; what still waits for credit since RETRAIN goes when it has it (R397). -/
def State.replay (s : State) (p : Nat) : State :=
  let x := s.port p
  if x.state != .up || x.unacked.isEmpty then s
  else
    let s := (s.portCount p 3).modPort p fun x => { x with replays := x.replays + 1 }
    (x.unacked.filter fun q => !x.toReplay.contains q).foldl (fun s q => s.emit (.packet p q)) s

/-- LINK_PACKET_RECEIVE (R392, R395, R397): acknowledgements and credits are taken; a NAK starts a replay. -/
def execLinkPacketReceive (port : Fin 20) (l : LinkPkt) (s : State) : Host.Outcome State Fault Refusal :=
  let p := port.val
  let x := s.port p
  if !s.live || !x.talks then .next s
  else
    let left := ackTo l.ack x.unacked
    let moved := decide (left.length < x.unacked.length)
    let s := s.modPort p fun x =>
      { x with unacked := left, replays := if moved then 0 else x.replays,
               toReplay := x.toReplay.filter fun q => left.contains q,
               credit := (x.credit.zip l.credits).map fun c => c.1 + c.2 }
    let s := if l.nak then s.replay p else s
    .next ((s.pump p).tryHello p).settle

/-- The LINK packet that a port sends: the last number received in order, and the credits to return (R392). -/
def State.sendLink (s : State) (p : Nat) (nak : Bool) : State :=
  let x := s.port p
  (s.modPort p fun x => { x with freed := [0, 0, 0, 0, 0], changed := false }).emit
    (.packet p ⟨bareHead 1 2 0, .link ⟨(x.expect + 4095) % 4096, nak, x.freed⟩⟩)

/-- LINK_PACKET_TIMER (R396): a LINK packet while there are acknowledgements or credits to return. -/
def execLinkPacketTimer (port : Fin 20) (s : State) : Host.Outcome State Fault Refusal :=
  let x := s.port port.val
  if s.live && x.talks && x.changed then .next (s.sendLink port.val false) else .next s

/-- REPLAY_TIMEOUT (R395): 8 µs with packets outstanding and no ACK advancing. -/
def execReplayTimeout (port : Fin 20) (s : State) : Host.Outcome State Fault Refusal :=
  if s.live then .next (s.replay port.val) else .next s

/-- REPLAY_LIMIT (R395): after 8 replays in a row without the ACK advancing the port enters RETRAIN. -/
def execReplayLimit (port : Fin 20) (s : State) : Host.Outcome State Fault Refusal :=
  let x := s.port port.val
  if s.live && x.state == .up && decide (8 ≤ x.replays) then .next (s.portRetrain port.val) else .next s

/-- A NAK, once until the expected number arrives good (R394). -/
def State.nak (s : State) (p : Nat) : State :=
  if (s.port p).nakSent then s else (s.modPort p fun x => { x with nakSent := true }).sendLink p true

/-- NAK_SEND (R394): a sequenced packet fails its CRC or overlaps an uncorrectable codeword (no number to read), or is later than
expected. -/
def execNakSend (port : Fin 20) (lseq : Option (BitVec 12)) (s : State) : Host.Outcome State Fault Refusal :=
  let p := port.val
  let x := s.port p
  if !s.live || x.loopback || x.state != .up then .next s
  else match lseq with
    | none => .next ((s.portCount p 2).nak p)
    | some l =>
      let d := (l.toNat + 4096 - x.expect) % 4096
      if d = 0 || 2048 ≤ d then .next s else .next (s.nak p)

/-- Take a sequenced packet by R394: only the expected number is accepted. -/
def State.takeSeq (s : State) (p : Nat) (q : Packet) : Bool × State :=
  let x := s.port p
  if !s.live || x.loopback || x.state != .up then (false, s)
  else
    let d := (q.head.lseq + 4096 - x.expect) % 4096
    if d = 0 then
      (true, s.modPort p fun x => { x with expect := (x.expect + 1) % 4096, nakSent := false, changed := true })
    else if 2048 ≤ d then (false, s)
    else (false, s.nak p)

/-! Arrivals. -/

/-- FAB_REQUEST_ARRIVAL (R394, R424, R431): a REQUEST for this package. -/
def execFabRequestArrival (port : Fin 20) (p : Packet) (s : State) : Host.Outcome State Fault Refusal :=
  match p.body with
  | .request r =>
    if p.head.dest ≠ s.fab.endpoint then .next s
    else
      let t := s.takeSeq port.val p
      if t.1 then .next (t.2.arrive port.val p r).settle else .next t.2
  | _ => .next s

/-- FAB_RESPONSE_ARRIVAL (R394, R431, R438): a RESPONSE for this package. -/
def execFabResponseArrival (port : Fin 20) (p : Packet) (s : State) : Host.Outcome State Fault Refusal :=
  match p.body with
  | .response r =>
    if p.head.dest ≠ s.fab.endpoint then .next s
    else
      let t := s.takeSeq port.val p
      if t.1 then .next ((t.2.free port.val (poolOf p.head) p.body.granules).answer p r).settle else .next t.2
  | _ => .next s

/-- The request that a queued operation stands for. -/
def State.t1Entry (s : State) (o : T1Op) : Option (Entry × Request) :=
  (s.table o.source o.imprint).bind fun t =>
    (t.entries.find? fun x => x.eseq == o.eseq && x.state == .queued).bind fun x => (Packet_request x.p).map fun r => (x, r)

/-- The segment that a queued operation touches. -/
def State.t1OpSeg (s : State) (o : T1Op) : Option Nat :=
  (s.t1Entry o).map fun x => (t1Map (s.channelSet (remImp x.2.addr)) (remOff x.2.addr / 256)).2 / 4

/-- One queued operation takes effect and is answered; what it held in its stream goes on. -/
def State.runT1 (s : State) (o : T1Op) : State :=
  match s.t1Entry o with
  | none => s
  | some (x, r) =>
    let a := s.applyReq o.source o.imprint r
    let s := a.2.2.2.finish x r a.1 a.2.1 a.2.2.1
    s.release o.source o.imprint (s.heldCount o.source o.imprint + 1)

/-- Operations that now have room in a channel's queue of 256 give back the link space they held (R246). -/
def State.queueRoom (s : State) (ch : Nat) : State :=
  let q := spGet [] s.fab.t1q ch
  let owed := (q.take 256).filterMap (·.owed)
  let q' := (q.take 256).map (fun o => { o with owed := none }) ++ q.drop 256
  let s := { s with fab := { s.fab with t1q := spPut [] s.fab.t1q ch q' } }
  owed.foldl (fun s w => s.free w.1 w.2.1 w.2.2) s

/-- T1_FABRIC_SLOT (R246, R440): the first operation of the channel's queue, with those behind it on the same segment, in one slot
or slot pair. -/
def execT1FabricSlot (ch : Fin 384) (s : State) : Host.Outcome State Fault Refusal :=
  let c := ch.val
  let q := spGet [] s.fab.t1q c
  match q with
  | [] => .next s
  | o :: _ =>
    if !s.live || s.issueLevel = 0 then .next s
    else
      let seg := s.t1OpSeg o
      let run := q.takeWhile fun x => s.t1OpSeg x == seg
      let s := { s with fab := { s.fab with t1q := spPut [] s.fab.t1q c (q.drop run.length) } }
      .next ((run.foldl State.runT1 s).queueRoom c).settle

/-! Time at the source (R432, R433). -/

/-- Resends that the imprint's edition allows. -/
def State.retryLimit (s : State) (i : Nat) : Nat := ((s.cfg i).map (·.routes.retryLimit)).getD 8

/-- FAB_RETRY_TIMEOUT (R432, R441): the request goes again with RETRY and a new FLOW; one that now finds no route ends (R410). -/
def execFabRetryTimeout (i : Fin 16) (target : Nat) (eseq : BitVec 32) (s : State) : Host.Outcome State Fault Refusal :=
  let x := s.stream i.val target
  match x.outstanding.find? (fun o => o.req.eseq == eseq) with
  | none => .next s
  | some o =>
    if !s.live || s.retryLimit i.val < o.sends then .next s
    else
      let t := (s.count i.val .fabResent 1).transmit i.val target o
      if t.2 then
        let y := t.1.stream i.val target
        let up := fun (q : Outst) => if q.req.eseq = eseq then { q with sends := q.sends + 1 } else q
        .next (t.1.setStream { y with outstanding := y.outstanding.map up }).settle
      else
        let s := s.setStream { x with outstanding := x.outstanding.filter fun q => q.req.eseq != eseq }
        .next ((s.loseOp i.val target o).drainStream i.val target (x.waiting.length + 1)).settle

/-- OPERATION_LOST (R432, R442): past the retry limit the operation, and every other of its stream until the next generation, ends
with REMOTE_UNREACHABLE. -/
def execOperationLost (i : Fin 16) (target : Nat) (eseq : BitVec 32) (s : State) : Host.Outcome State Fault Refusal :=
  let x := s.stream i.val target
  match x.outstanding.find? (fun o => o.req.eseq == eseq) with
  | none => .next s
  | some o =>
    if !s.live || o.sends ≤ s.retryLimit i.val then .next s
    else
      let rest := (x.outstanding.filter fun q => q.req.eseq != eseq) ++ x.waiting
      let s := s.setStream { x with dead := true, outstanding := [], waiting := [] }
      .next ((o :: rest).foldl (fun s q => s.loseOp i.val target q) s).settle

/-- GENERATION_HOLDOFF_END (R433): 4 ms after the last send of the old generation the stream sends again. -/
def execGenerationHoldoffEnd (i : Fin 16) (target : Nat) (s : State) : Host.Outcome State Fault Refusal :=
  let x := s.stream i.val target
  if !s.live || !x.holdoff then .next s
  else .next ((s.setStream { x with holdoff := false }).drainStream i.val target (x.waiting.length + 1)).settle

/-! Forwarding (R391, R411 to R413, R433). -/

/-- PACKET_LIFETIME_EXPIRY (R433): the oldest packet that an output port holds for forwarding is discarded. -/
def execPacketLifetimeExpiry (port : Fin 20) (s : State) : Host.Outcome State Fault Refusal :=
  let p := port.val
  match (s.port p).ready.zipIdx.find? (fun x => x.1.source != 20) with
  | none => .next s
  | some x =>
    if !s.live then .next s
    else
      let s := s.modPort p fun y => { y with ready := y.ready.eraseIdx x.2 }
      let s := s.count x.1.p.head.imprint .fabLifetime 1
      .next ((s.free x.1.source (poolOf x.1.p.head) x.1.p.body.granules).poolReturn x.1.source)

/-- The dimension that an optical port belongs to; none for other ports. -/
def dimOf (p : Nat) : Option Nat := if 14 ≤ p && p < 20 then some ((p - 14) / 2) else none

/-- The first dimension, X then Y then Z, in which two places differ, with the direction that a packet gives for it (R411). -/
def nextDim (a b : Nat × Nat × Nat) (h : PktHead) : Option (Nat × Nat) :=
  if a.1 ≠ b.1 then some (0, h.xdir) else if a.2.1 ≠ b.2.1 then some (1, h.ydir)
  else if a.2.2 ≠ b.2.2 then some (2, h.zdir) else none

/-- The next port of a packet in transit (R411); none when it has none. -/
def State.transitPort (s : State) (h : PktHead) : Option Nat :=
  let self := s.fab.endpoint
  if podOf h.dest = podOf self then podHop self h.dest h.flow h.source s.fab.transit
  else if h.xdir = 0 && h.ydir = 0 && h.zdir = 0 then
    (s.topology.bind (·.tree)).map fun t => treePort t (podOf h.dest)
  else match s.coords (podOf self), s.coords (podOf h.dest) with
    | some a, some b => (nextDim a b h).bind fun d => if d.2 = 1 || d.2 = 2 then some (opticalPort d.1 d.2) else none
    | _, _ => none

/-- The DL bit on the next hop (R413). -/
def State.nextDl (s : State) (inPort outPort : Nat) (dl : Bool) : Bool :=
  (s.wrapOwner outPort).isSome || (dl && (dimOf outPort).isSome && dimOf outPort == dimOf inPort)

/-- PACKET_FORWARD (R391, R394, R411 to R413): a packet for another endpoint goes on, or is discarded and counted on the port it
came in on; a wrap violation is counted on the wrap port (log 44). -/
def execPacketForward (port : Fin 20) (p : Packet) (s : State) : Host.Outcome State Fault Refusal :=
  let inp := port.val
  let isSeq : Bool := match p.body with
    | .request _ => true
    | .response _ => true
    | _ => false
  if !isSeq || p.head.dest = s.fab.endpoint then .next s
  else
    let t := s.takeSeq inp p
    if !t.1 then .next t.2
    else
      let s := t.2
      let drop := fun (s : State) => s.free inp (poolOf p.head) p.body.granules
      if p.head.hops = 0 then .next (drop (s.portCount inp 5))
      else match s.transitPort p.head with
        | none => .next (drop (s.portCount inp 6))
        | some out =>
          match s.wrapOwner out with
          | some o =>
            if o ≠ p.head.tslice then .next (drop (s.portCount out 7))
            else if !s.fab.transit.contains out then .next (drop (s.portCount inp 6))
            else .next (s.enqueue out inp
              { p with head := { p.head with hops := p.head.hops - 1, dl := s.nextDl inp out p.head.dl } })
          | none =>
            if !s.fab.transit.contains out then .next (drop (s.portCount inp 6))
            else .next (s.enqueue out inp
              { p with head := { p.head with hops := p.head.hops - 1, dl := s.nextDl inp out p.head.dl } })

/-! Port and location registers (R415). -/

/-- PORT_ENABLE (R415): clearing EN puts the port in OFF with reason DISABLED, setting it leads back to DETECT. -/
def execPortEnable (port : Fin 20) (en : Bool) (s : State) : Host.Outcome State Fault Refusal :=
  let p := port.val
  let x := s.port p
  if !s.answers then .next s
  else
    let s := s.modPort p fun x => { x with en := en }
    if s.stopped || x.en = en then .next s
    else if en then .next (s.portDown p .detect 0)
    else .next (s.portDown p .off 7)

/-- PORT_RETRAIN (R415): an UP or HELD port enters RETRAIN. -/
def execPortRetrain (port : Fin 20) (s : State) : Host.Outcome State Fault Refusal :=
  let x := s.port port.val
  if s.answers && s.live && (x.state == .up || x.state == .held) then .next (s.portRetrain port.val) else .next s

/-- PORT_LOOPBACK (R415): with transmit looped to receive the port meets its own signal, so that a port beyond LOCK starts again
from DETECT and reaches LOCK; a port taken out of the loop starts again too (log 45). -/
def execPortLoopback (port : Fin 20) (on : Bool) (s : State) : Host.Outcome State Fault Refusal :=
  let p := port.val
  let x := s.port p
  if !s.answers then .next s
  else
    let s := s.modPort p fun x => { x with loopback := on }
    if s.stopped || x.loopback = on || x.state = .off then .next s
    else .next (s.portDown p .detect 0)

/-- FAB_LOCATION_VALID (R401, R415): VALID set puts the endpoint ID in force, and ports may leave HELLO. The PF and the I3C
target reach the register (R608). -/
def execFabLocationValid (p : RegPath) (s : State) : Host.Outcome State Fault Refusal :=
  if !s.answers || s.fab.valid || !(p == .pf || p == .i3c) then .next s
  else
    let s := { s with fab := { s.fab with valid := true } }
    if s.stopped then .next s
    else .next ((List.range 20).foldl (fun s p => s.tryHello p) s).settle

end Sys2Proof.Machine
end

