-- ==== Sys2Proof/Machine/Query.lean ====
section
/-!
DEFINITION. QUERY (R474): the pages of counts and their entries.
-/
namespace Sys2Proof.Machine

open Sys2Proof

/-- One entry of a page: ITEM, INSTANCE, value. -/
structure QEntry where
  item : Nat
  inst : Nat
  val : Nat
deriving DecidableEq, Repr

/-- Entries of one item for a list of instances. -/
def itemOver (item : Nat) (insts : List Nat) (v : Nat → Nat) : List QEntry := insts.map fun n => ⟨item, n, v n⟩

/-- A count of an imprint. -/
def State.ctr (s : State) (i : Nat) (c : Ctr) : Nat := ctrGet (s.imp i).run.counters c

/-- Page 0 (R474): firmware version, edition number, digest in six parts, core map, wire versions spoken (lowest, highest), each
link's version (log 48). -/
def State.page0 (s : State) : List QEntry :=
  let digest := (s.ed.inForce.map fun e => leBytes 48 e.digest.toNat).getD (List.replicate 48 0#8)
  [⟨0, 0, s.boot.fwVersion⟩, ⟨1, 0, s.ed.number⟩]
    ++ itemOver 2 (List.range 6) (fun k => ofLeBytes ((digest.drop (8 * k)).take 8))
    ++ itemOver 3 (List.range 208) (fun p => s.ed.coreMap.getD p 0xFF)
    ++ [⟨4, 0, s.wireMin⟩, ⟨4, 1, s.wireMax⟩]
    ++ itemOver 5 (List.range 20) (fun p => (s.port p).wire)

/-- Page 1: R363, in its order. -/
def State.page1 (s : State) (i : Nat) : List QEntry :=
  ([Ctr.impressions, .abandoned, .promptTokens, .outputTokens, .leftOut, .adapterStalls, .chunking, .proofs, .accepted,
    .cancelled, .lateCancels, .samplingFaults].zipIdx).map fun x => ⟨x.2, 0, s.ctr i x.1⟩

/-- Page 2: R201's counts by slot state, class and tier, then its three counts, then R193's. -/
def State.page2 (s : State) (i : Nat) : List QEntry :=
  let n := ((s.cfg i).map (·.folio.length)).getD 0
  ((List.range 5).flatMap fun st => itemOver st (List.range (4 * n) |>.filter fun k => k % 4 ≠ 3)
      fun k => s.slotCount i (k / 4) (k % 4) st)
    ++ [⟨5, 0, s.ctr i .noFolio⟩, ⟨6, 0, s.ctr i .residencyWait⟩, ⟨7, 0, s.ctr i .morgueLate⟩, ⟨8, 0, s.ctr i .kvSaturation⟩]

/-- Page 3: R256, then R233. -/
def State.page3 (s : State) (i : Nat) : List QEntry :=
  let cores := sortBy (fun a b => decide (a < b)) (((s.cfg i).map (·.cores)).getD [])
  let chs := sortBy (fun a b => decide (a < b)) (s.channelSet i)
  itemOver 0 cores (fun c => spGet 0 s.t0.corrected c) ++ itemOver 1 cores (fun c => spGet 0 s.t0.uncorrectable c)
    ++ itemOver 2 chs (fun c => (s.ch c).corrected) ++ itemOver 3 chs (fun c => (s.ch c).uncorrectable)
    ++ [⟨4, 0, s.ctr i .freeDamage⟩] ++ itemOver 5 chs (fun c => (s.ch c).passes) ++ [⟨6, 0, s.ctr i .morgueFailed⟩]
    ++ itemOver 7 cores (fun c => spGet 0 s.t0.passes c)

/-- Page 4: R67, R156, R122. -/
def State.page4 (s : State) (i : Nat) : List QEntry :=
  ([Ctr.convFaults, .slugCheck, .slugSize, .trips, .escalations, .excess].zipIdx).map fun x => ⟨x.2, 0, s.ctr i x.1⟩

/-- Page 5: R288. -/
def State.page5 (s : State) (i : Nat) : List QEntry :=
  let ls := ((s.placement i).map (·.layers)).getD []
  let all := ls.flatMap fun l => (List.range l.experts.length).map fun e => 4096 * l.layer + e
  itemOver 0 all (fun k => s.ctr i (.taken (k / 4096) (k % 4096)))
    ++ itemOver 1 all (fun k => s.ctr i (.overflow (k / 4096) (k % 4096)))
    ++ [⟨2, 0, s.ctr i .staleReturns⟩, ⟨3, 0, s.ctr i .staleBlocks⟩, ⟨4, 0, s.ctr i .misdirected⟩, ⟨5, 0, s.ctr i .nonFinite⟩,
        ⟨6, 0, s.ctr i .renorm⟩]

/-- Page 6: R444. -/
def State.page6 (s : State) (i : Nat) : List QEntry :=
  [⟨0, 0, s.ctr i .fabSent⟩, ⟨1, 0, s.ctr i .fabResent⟩, ⟨2, 0, s.ctr i .fabLost⟩]
    ++ itemOver 3 [0, 0x0200, 0x0201, 0x0203, 0x0300, 0x0600] (fun st => s.ctr i (.fabResponses st))
    ++ [⟨4, 0, s.ctr i .fabOld⟩, ⟨5, 0, s.ctr i .fabHeldDup⟩, ⟨6, 0, s.ctr i .fabDupResponse⟩,
        ⟨7, 0, s.ctr i .fabStaleResponse⟩, ⟨8, 0, s.ctr i .fabStaleFlag⟩, ⟨9, 0, s.ctr i .fabLifetime⟩,
        ⟨10, 0, s.ctr i .fabRefused⟩]

/-- Page 7: R378: the impressions of each void cause, those of any, each job's validated segment total. -/
def State.page7 (s : State) (i : Nat) : List QEntry :=
  itemOver 0 (List.range 5) (fun k => s.ctr i (.voided k)) ++ [⟨1, 0, s.ctr i (.voided 5)⟩]
    ++ itemOver 2 (List.range (((s.cfg i).map (·.schedule.jobs)).getD 0))
        (fun j => (Config.segmentTotal s.ed.number i j).toNat % 2 ^ 32)

/-- A page of function `f` (0 the PF), by the values of this moment. -/
def State.pageNow (s : State) (f page : Nat) : List QEntry :=
  let i := f - 1
  if page = 0 then s.page0 else if page = 1 then s.page1 i else if page = 2 then s.page2 i else if page = 3 then s.page3 i
  else if page = 4 then s.page4 i else if page = 5 then s.page5 i else if page = 6 then s.page6 i else s.page7 i

/-- The counts of pages 1 to 7 as a commit leaves them are kept for the QUERY tickets that follow it (R474). -/
def State.keepCounts (s : State) (i : Nat) : State :=
  s.modServe i fun v => { v with counts := (List.range 7).map fun k => (s.pageNow (i + 1) (k + 1)).map fun e => (e.item, e.inst, e.val) }

/-- A page as QUERY gives it: an imprint's counts are those after its previous commit (R474); before its first commit, and for the
identity of page 0, the values of this moment (log 122). -/
def State.page (s : State) (f page : Nat) : List QEntry :=
  match (if page = 0 then none else (s.imp (f - 1)).serve.counts[page - 1]?) with
  | some es => es.map fun e => ⟨e.1, e.2.1, e.2.2⟩
  | none => s.pageNow f page

/-- The 16 B of an entry. -/
def QEntry.bytes (page : Nat) (e : QEntry) : List Byte :=
  leBytes 2 page ++ leBytes 2 e.item ++ leBytes 4 e.inst ++ leBytes 8 e.val

end Sys2Proof.Machine
end

