-- ==== Sys2Proof/Machine/Tickets.lean ====
section
/-!
DEFINITION. Tickets: their checks in the order of R461 and their effects at admission (R326 to R330, R347, R348, R352, R360 to
R362, R458 to R466, R474, R491, R502).
-/
namespace Sys2Proof.Machine

open Sys2Proof

/-! Fields (R458, R463). -/

/-- Bytes `o` to `o + n - 1` of a ticket, as a number. -/
def Ticket.f (t : Ticket) (o n : Nat) : Nat := ofLeBytes ((t.raw.drop o).take n)

/-- Is a range of bytes zero? -/
def Ticket.zero (t : Ticket) (o n : Nat) : Bool := t.f o n == 0

/-- OPCODE. -/
def Ticket.op (t : Ticket) : Nat := t.f 0 1

/-- BY_TAG and NOTIFY. -/
def Ticket.byTag (t : Ticket) : Bool := bitOf (t.f 1 1) 0
def Ticket.notify (t : Ticket) : Bool := bitOf (t.f 1 1) 1

/-- TAG and TARGET. -/
def Ticket.tag (t : Ticket) : Nat := t.f 4 4
def Ticket.target (t : Ticket) : Nat := t.f 8 4

/-- The opcodes of R462. -/
def knownTicket (op : Nat) : Bool :=
  decide (op ≤ 0x04) || (decide (0x10 ≤ op) && decide (op ≤ 0x12)) || (decide (0x20 ≤ op) && decide (op ≤ 0x22))
    || op == 0x30 || op == 0x3E

/-- Is it an edition ticket? -/
def editionTicket (op : Nat) : Bool := decide (0x20 ≤ op) && decide (op ≤ 0x22)

/-- Does a completion record follow an accepted ticket (R462)? -/
def alwaysRecord (op : Nat) : Bool := !(op == 0x00 || (decide (0x02 ≤ op) && decide (op ≤ 0x04)))

/-- Row 2 of R461 (R458, R463): reserved fields, fields that must be zero, alignment. -/
def Ticket.wellFormed (t : Ticket) : Bool :=
  let op := t.op
  let named := op == 0x02 || op == 0x03 || op == 0x04
  t.raw.length == 64 && t.f 1 1 / 4 == 0 && t.zero 2 2 && t.zero 12 4 && (named || (t.zero 8 4 && !t.byTag)) &&
    (if op = 0x01 then
      let opt := t.f 19 1
      opt / 32 == 0 && t.zero 54 2 && (bitOf opt 1 || (t.zero 44 4 && t.zero 48 4)) && (bitOf opt 2 || t.zero 52 2)
    else if op = 0x02 then t.f 16 8 % 4 == 0 && t.zero 32 32
    else if op = 0x04 then
      let m := t.f 16 1
      m / 16 == 0 && t.zero 36 4 && t.zero 52 12 && (bitOf m 0 || t.zero 24 12) && (bitOf m 1 || t.zero 17 1)
        && (bitOf m 2 || (t.zero 18 2 && t.zero 40 12)) && (bitOf m 3 || t.zero 20 4)
    else if op = 0x10 then t.f 16 8 % 4096 == 0 && t.zero 34 30
    else if op = 0x11 then t.zero 16 16 && t.zero 34 30
    else if op = 0x12 then t.f 16 8 % 4096 == 0 && t.f 36 8 % 4096 == 0 && t.zero 34 2 && t.zero 44 20
    else if op = 0x20 then t.f 16 8 % 4096 == 0 && t.zero 36 28
    else if op = 0x21 || op = 0x22 then t.zero 16 16 && t.zero 36 28
    else if op = 0x30 then t.f 16 8 % 8 == 0 && t.zero 30 2 && t.zero 36 28
    else t.zero 16 48)

/-- R352's ranges of TAU, TOP_P and TOP_K. -/
def samplingInRange (tau topP topK : Nat) : Bool :=
  (tau == 0 || (decide (0x3A800000 ≤ tau) && decide (tau ≤ 0x44800000)))
    && decide (1 ≤ topP) && decide (topP ≤ 0x3F800000) && decide (1 ≤ topK)

/-! Requests. -/

/-- A request of an imprint. -/
def State.req (s : State) (i key : Nat) : Option Req := spGet none (s.imp i).serve.reqs key

/-- Change a request of an imprint. -/
def State.modReq (s : State) (i key : Nat) (f : Req → Req) : State :=
  s.modServe i fun v => { v with reqs := spPut none v.reqs key ((spGet none v.reqs key).map f) }

/-- The live requests opened here. -/
def Serve.ownLive (v : Serve) : List (Nat × Req) := v.reqList.filter fun x => x.2.live && x.2.isLead

/-- What TARGET names (R326, R458, R459): the key of a live request. -/
def State.resolveTarget (s : State) (i ring : Nat) (t : Ticket) : Option Nat :=
  (((s.imp i).serve.ownLive.find? fun x =>
    if t.byTag then x.2.ring == ring && x.2.tag == t.target else x.1 == t.target)).map (·.1)

/-- The key under which a member keeps the shadow record of a lead's request (R342). -/
def shadowKey (lead handle : Nat) : Nat := handle + 2 ^ 32 * (lead + 1)

/-- R326's handle. -/
def mkHandle (i index gen : Nat) : Nat := index + i * 2 ^ 18 + gen * 2 ^ 22

/-- The lowest free index of an imprint. -/
def Serve.freeIndex (v : Serve) : Nat :=
  let used := (v.reqList.filter fun x => x.2.isLead).map fun x => x.1 % 2 ^ 18
  ((List.range (used.length + 1)).find? fun k => !used.contains k).getD 0

/-! Adapters (R361, R362). -/

/-- The adapter versions of an imprint with their slots. -/
def Serve.versions (v : Serve) : List (Nat × AdapterVersion) := v.adapters.filterMap fun x => x.2.map fun a => (x.1, a)

/-- The current version of an ID. -/
def Serve.currentOf (v : Serve) (id : Nat) : Option (Nat × AdapterVersion) :=
  v.versions.find? fun x => x.2.id == id && x.2.current

/-- The lowest free adapter slot. -/
def State.freeAdapterSlot (s : State) (i : Nat) : Option Nat :=
  let n := ((s.cfg i).map (·.entry.adapterSlots)).getD 0
  (List.range n).find? fun k => (spGet none (s.imp i).serve.adapters k).isNone

/-- The adapter list in force (R486, R504). -/
def State.adapterList (s : State) (i : Nat) : Option (List Nat) :=
  match (s.imp i).serve.adapterList with
  | some l => some l
  | none => (s.cfg i).bind (·.adapters)

/-- The imprint's fixed fonts (R128). -/
def State.fixedFonts (s : State) (i : Nat) : List Font := (((s.cfg i).map (·.formats.fonts)).getD []).filterMap Font.ofImage

/-- Decode a whole slug run whose slugs name their own lengths, each by R124, R126 and in full (R136); by fuel. -/
def decodeRun (fonts : List Font) (format : Nat) : Nat → List Byte → Option (List Byte)
  | 0, _ => none
  | _, [] => some []
  | n + 1, bs =>
    let h := SlugHeader.ofBytes bs
    let r := decideSlug fonts format h.dec bs
    match r.1, r.2.2 with
    | .good, some fp => (decodeRun fonts format n (bs.drop fp)).map (r.2.1 ++ ·)
    | _, _ => none

/-- One matrix entry of an adapter image (R491, R104): the matrix, or the status that refuses the ticket. -/
def adapterEntry (fonts : List Font) (plates : List PlateEntry) (image : List Byte) (k : Nat) : Except Nat AdapterMatrix :=
  let e := (image.drop (64 + 32 * k)).take 32
  let f := fun o n => ofLeBytes ((e.drop o).take n)
  let rank := 8 * f 2 1
  match plates[f 0 2]? with
  | none => .error 0x0201
  | some p =>
    if e.length < 32 || f 3 5 ≠ 0 || f 24 8 ≠ 0 then .error 0x0201
    else if p.ra < rank then .error 0x0200
    else if image.length < f 8 4 + f 12 4 || image.length < f 16 4 + f 20 4 then .error 0x0200
    else match decodeRun fonts 0x02 (image.length + 1) ((image.drop (f 8 4)).take (f 12 4)),
        decodeRun fonts 0x02 (image.length + 1) ((image.drop (f 16 4)).take (f 20 4)) with
      | some v, some u =>
        if rank ≠ 0 && (v.length % (2 * rank) ≠ 0 || u.length % (2 * rank) ≠ 0) then .error 0x0201
        else .ok ⟨f 0 2, rank, (image.drop (f 8 4)).take (f 12 4), (image.drop (f 16 4)).take (f 20 4)⟩
      | _, _ => .error 0x0201

/-- All matrix entries, in ascending PLATE_DESC. -/
def adapterEntries (fonts : List Font) (plates : List PlateEntry) (image : List Byte) : List Nat → Except Nat (List AdapterMatrix)
  | [] => .ok []
  | k :: ks =>
    match adapterEntry fonts plates image k, adapterEntries fonts plates image ks with
    | .ok m, .ok ms => if ms.all fun x => decide (m.plate < x.plate) then .ok (m :: ms) else .error 0x0201
    | .error e, _ => .error e
    | _, .error e => .error e

/-- An adapter image (R491): its scale and matrices. -/
def State.adapterImage (s : State) (i id : Nat) (image : List Byte) : Except Nat (F32 × List AdapterMatrix) :=
  let f := fun o n => ofLeBytes ((image.drop o).take n)
  if image.length < 64 || f 0 4 ≠ 0x54504441 || f 4 2 ≠ id || f 12 52 ≠ 0 then .error 0x0201
  else match adapterEntries (s.fixedFonts i) (((s.cfg i).map (·.formats.plates)).getD []) image (List.range (f 6 2)) with
    | .ok ms => .ok (BitVec.ofNat 32 (f 8 4), ms)
    | .error e => .error e

/-! Weights (R52, R53, R136, R465, R466, R502). -/

/-- Tensors that one command of a schedule reads by descriptor (R301, R303), with those of its plate. -/
def readsOf (plates : List PlateEntry) (r : BitVec 512) : List Nat :=
  let h := cmdHead r
  if h.opcode = 0x10 || h.opcode = 0x20 then
    let b := matrixBody r
    let p := if b.plate = 0xFFFF then [] else match plates[b.plate]? with
      | some e => if e.rc = 0 then [] else [e.vDesc, e.uDesc]
      | none => []
    b.wDesc :: p
  else if h.opcode = 0x11 || h.opcode = 0x21 then [(loadBody r).desc]
  else []

/-- Does a command of the schedule read T1 bytes of a tensor whose home is there (R309)? -/
def readsT1 (t : TensorDesc) (r : BitVec 512) : Bool :=
  (cmdHead r).opcode == 0x64 && bitOf t.flags 1 &&
    (let b := chaseBody r; decide (b.src < t.location + t.stored) && decide (t.location < b.src + b.bytes))

/-- Tensors other than run-time ones that the schedule image in force reads. -/
def State.tensorsRead (s : State) (i : Nat) : List Nat :=
  match s.cfg i with
  | none => []
  | some g =>
    let cmds := g.schedule.streams.flatMap (·.cmds)
    let named := nub (cmds.flatMap (readsOf g.formats.plates))
    indexes (fun (x : Nat × TensorDesc) => x.2.cls != 2 && (named.contains x.1 || cmds.any (readsT1 x.2)))
      (g.formats.descs.zipIdx.map fun x => (x.2, x.1))

/-- Is every byte of `[0, n)` in a list of ranges? -/
def covered (rs : List (Nat × Nat)) (n : Nat) : Bool :=
  let bs := sortBy (fun (a b : Nat × Nat) => decide (a.1 < b.1)) rs
  decide (n ≤ bs.foldl (fun hi r => if r.1 ≤ hi then max hi r.2 else hi) 0)

/-- How far from 0 a list of ranges reaches without a gap. -/
def reach (rs : List (Nat × Nat)) : Nat :=
  (sortBy (fun (a b : Nat × Nat) => decide (a.1 < b.1)) rs).foldl (fun hi r => if r.1 ≤ hi then max hi r.2 else hi) 0

/-- Is a tensor loaded (R502)? -/
def State.loaded (s : State) (i d : Nat) : Bool :=
  match s.desc i d with
  | none => true
  | some t => covered (spGet [] (s.imp i).serve.tensors d) t.stored

/-- R502: some tensor that the schedule reads is unloaded. -/
def State.unloaded (s : State) (i : Nat) : Bool := (s.tensorsRead i).any fun d => !s.loaded i d

/-- Is a byte of a scale plane valid (R53)? -/
def scaleByteOk (t : TensorDesc) (b : Byte) : Bool :=
  if t.sf == .e8m0 then b != 0xFF#8 else if t.sf == .e4m3 then decide (b.toNat < 0x7F) else true

/-- Is a decoded byte of an element region valid (R47)? -/
def elemByteOk (t : TensorDesc) (b : Byte) : Bool := t.fmt != .ternary || decide (b.toNat ≤ 242)

/-- Is a plain byte at an offset of a stored image valid (R47, R53)? -/
def byteValid (t : TensorDesc) (off : Nat) (b : Byte) : Bool :=
  if off < t.elemBytes then elemByteOk t b else if off < roundUp t.elemBytes 256 then true else scaleByteOk t b

/-- Check the slugs of a stored run that lie whole in the bytes given and reach past `lo` (R136; log 49): every slug good, every decoded
byte valid; and where the run ends, when every slug of it is there. By the element counts of the slugs. -/
def slugsGood (fonts : List Font) (format : Nat) (valid : Byte → Bool) (lo : Nat) :
    List Nat → Nat → List Byte → Bool × Option Nat
  | [], off, _ => (true, some off)
  | n :: ns, off, bs =>
    let h := SlugHeader.ofBytes bs
    if bs.length < 16 || (decide (h.enc ≤ (slugBytes format n).getD 0) && decide (bs.length < footprint h.enc)) then (true, none)
    else
      let r := decideSlug fonts format n bs
      match r.2.2 with
      | none => (false, none)
      | some fp =>
        let rest := slugsGood fonts format valid lo ns (off + fp) (bs.drop fp)
        ((decide (off + fp ≤ lo) || (r.1 == .good && r.2.1.all valid)) && rest.1, rest.2)

/-- The element counts of a run's slugs (R490). -/
def slugLens (total per : Nat) : List Nat :=
  if per = 0 then [total] else List.replicate (total / per) per ++ (if total % per = 0 then [] else [total % per])

/-- May a part of a tensor's stored image be written at `off`: R52, R53, R136? `whole` is what the image then holds from 0 without a gap,
and `lo` how much of it was checked before: a part that closes a gap brings the slugs past the gap to their check. -/
def State.partGood (s : State) (i : Nat) (t : TensorDesc) (lo off : Nat) (whole part : List Byte) : Bool :=
  let block := if t.sf == .none then 32 else t.fmt.block
  decide (t.k % block = 0) &&
    if t.slugged then
      let fonts := s.fixedFonts i
      let e := slugsGood fonts t.elem (elemByteOk t) lo (slugLens (t.rows * t.k) t.slugElems) 0 whole
      e.1 && match e.2 with
        | none => true
        | some stop =>
          let plane := roundUp (t.location + stop) 256 - t.location
          if t.sf == .none then true
          else if planeIsRun t (t.location + plane) then
            (slugsGood fonts (planeFormat t) (scaleByteOk t) lo (slugLens (planeBytes t) t.slugElems) plane (whole.drop plane)).1
          else (whole.drop plane).zipIdx.all fun x => decide (x.2 + plane < lo) || scaleByteOk t x.1
    else part.zipIdx.all fun x => byteValid t (off + x.2) x.1

/-! The decision of R461. -/

/-- The image that a ticket carries, cut to the bytes it declares; none where the read failed or gave too few. -/
def Ticket.imageBytes (t : Ticket) : Option (List Byte) :=
  let n := t.f 24 8
  if n ≤ t.image.length && t.status = 0 then some (t.image.take n) else none

/-- K in OPEN and PARAMS (R464): is it within the speculation mode's limit? -/
def kAllowed (g : ImprintCfg) (k : Nat) : Bool :=
  if g.entry.spec = 0 then k == 0 else if g.entry.spec = 1 then decide (k ≤ g.serving.kMax) else decide (k ≤ 1)

/-- Row 3 of R461 for an OPEN. -/
def State.openBounds (s : State) (i : Nat) (t : Ticket) : Bool :=
  let opt := t.f 19 1
  let stopN := opt / 8 % 4
  decide (stopN ≤ 2) && samplingInRange (t.f 32 4) (t.f 36 4) (t.f 40 4) && decide (t.f 20 4 ≤ 16777216)
    && (match s.cfg i with
      | none => true
      | some g => kAllowed g (t.f 18 1)
          && (!bitOf opt 2 || decide (t.f 52 2 < ((s.topology.map fun x => x.spans.length).getD 0)))
          && (!bitOf opt 1 || (decide (1 ≤ t.f 48 4) && match s.req i (t.f 44 4) with
              | some q => !q.live || decide (t.f 48 4 ≤ q.nC)
              | none => true)))

/-- Row 3 of R461: counts and lengths. -/
def State.inBounds (s : State) (f ring : Nat) (t : Ticket) : Bool :=
  let i := f - 1
  let op := t.op
  if op = 0x01 then s.openBounds i t
  else if op = 0x02 then
    decide (4 * t.f 24 4 ≤ t.f 28 4) && decide (t.f 24 4 ≤ 65535)
      && (match (s.resolveTarget i ring t).bind (s.req i) with
        | some q => decide (q.length + t.f 24 4 < 16777216)
        | none => true)
  else if op = 0x04 then
    let m := t.f 16 1
    (!bitOf m 0 || samplingInRange (t.f 24 4) (t.f 28 4) (t.f 32 4))
      && (!bitOf m 1 || match s.cfg i with | some g => kAllowed g (t.f 17 1) | none => true)
      && (!bitOf m 2 || (decide (t.f 18 2 ≤ 64) && decide (4 * t.f 18 2 ≤ t.f 48 4)))
      && (!bitOf m 3 || (decide (t.f 20 4 ≤ 16777216) && match (s.resolveTarget i ring t).bind (s.req i) with
          | some q => q.state != .decode || decide (q.turn < t.f 20 4)
          | none => true))
  else if op = 0x10 || op = 0x11 then t.f 32 2 != 0xFFFF
  else if op = 0x12 then
    match s.desc i (t.f 32 2) with
    | some d => d.cls != 2 && decide (t.f 36 8 + t.f 24 8 ≤ d.stored)
    | none => (s.cfg i).isNone
  else if op = 0x20 then decide (1 ≤ t.f 24 8) && decide (t.f 24 8 ≤ 2 ^ 28)
  else if op = 0x30 then decide (64 ≤ t.f 24 4) && decide (t.f 28 2 ≤ 7)
  else true

/-- Row 5 of R461: function, target, state and resources (R462, R463). -/
def State.allowed (s : State) (f ring : Nat) (t : Ticket) : Bool :=
  let i := f - 1
  let op := t.op
  let v := (s.imp i).serve
  if op = 0x00 || op = 0x3E then true
  else if op = 0x30 then f != 0 || t.f 28 2 == 0
  else if editionTicket op then f == 0
  else if f = 0 then false
  else if op = 0x01 then
    let opt := t.f 19 1
    !(v.ownLive.any fun x => x.2.ring == ring && x.2.tag == t.tag)
      && (t.f 16 2 == 0xFFFF || (v.currentOf (t.f 16 2)).isSome)
      && decide (v.ownLive.length < ((s.cfg i).map (·.entry.liveLimit)).getD 0)
      && (!bitOf opt 1 || (match s.req i (t.f 44 4) with | some q => q.live && q.isLead | none => false))
      && (!bitOf opt 2 || ((s.topology.bind fun x => x.spans[t.f 52 2]?).map fun m => m.contains s.fab.endpoint).getD false)
      && v.loading.isEmpty && !s.unloaded i
  else if op = 0x02 then
    match (s.resolveTarget i ring t).bind (s.req i) with
    | some q => q.state != .decode
    | none => false
  else if op = 0x03 then true
  else if op = 0x04 then (s.resolveTarget i ring t).isSome
  else if op = 0x10 then
    (s.freeAdapterSlot i).isSome && ((s.adapterList i).map fun l => l.contains (t.f 32 2)).getD true
  else if op = 0x12 then !((s.tensorsRead i).contains (t.f 32 2) && !v.ownLive.isEmpty)
  else true

/-- Row 7 of R461: the data. A refusal by a rank is BOUNDS (R104, R491). -/
def State.dataCheck (s : State) (f : Nat) (t : Ticket) : Nat :=
  let i := f - 1
  let vocab := ((s.cfg i).map (·.formats.vocab)).getD 0
  let toks := fun n => (u32s (t.data.take (4 * n))).all fun x => decide (x < vocab)
  if t.op = 0x01 then
    let n := t.f 19 1 / 8 % 4
    if (n = 0 || decide (t.f 56 4 < vocab)) && (n ≤ 1 || decide (t.f 60 4 < vocab)) then 0 else 0x0201
  else if t.op = 0x02 then (if toks (t.f 24 4) then 0 else 0x0201)
  else if t.op = 0x04 then (if !bitOf (t.f 16 1) 2 || toks (t.f 18 2) then 0 else 0x0201)
  else if t.op = 0x10 then
    match s.adapterImage i (t.f 32 2) (t.imageBytes.getD []) with
    | .ok _ => 0
    | .error e => e
  else if t.op = 0x12 then
    match s.desc i (t.f 32 2) with
    | none => 0
    | some d =>
      let off := t.f 36 8
      let part := t.imageBytes.getD []
      let ranges := spGet [] (s.imp i).serve.tensors (t.f 32 2)
      let n := reach (ranges ++ [(off, off + part.length)])
      let old := if bitOf d.flags 1 then s.t1Bytes i d.location n else memRead s.t0.bytes d.location n
      let whole := if off ≤ n then (old.take off ++ part ++ old.drop (off + part.length)).take n else old
      if s.partGood i d (min off (reach ranges)) off whole part then 0 else 0x0201
  else 0

/-- Bytes of host data that a ticket's checks need (R455). -/
def Ticket.needs (t : Ticket) : Nat :=
  if t.op = 0x02 then 4 * t.f 24 4 else if t.op = 0x04 && bitOf (t.f 16 1) 2 then 4 * t.f 18 2 else 0

/-- R461: the status of a ticket, 0 for accepted. An edition ticket's own rules come after (R493, R496, R506). -/
def State.judge (s : State) (f ring : Nat) (t : Ticket) : Nat :=
  let op := t.op
  if !knownTicket op then 0x0202
  else if !t.wellFormed then 0x0201
  else if !s.inBounds f ring t then 0x0200
  else if f ≠ 0 && s.heldOrNone (f - 1) && !(editionTicket op || op == 0x30 || op == 0x3E || op == 0x00) then 0x0500
  else if !s.allowed f ring t then 0x0203
  else if t.status ≠ 0 || t.data.length < t.needs || ((op = 0x10 || op = 0x12) && t.imageBytes.isNone) then 0x0300
  else s.dataCheck f t

/-! Effects at admission (R330). -/

/-- OPEN (R330): the request, its handle, its adapter binding, its density entries, its prefix. -/
def State.admitOpen (s : State) (i ring : Nat) (t : Ticket) : Nat × State :=
  let v := (s.imp i).serve
  let idx := v.freeIndex
  let gen := spGet 0 v.gens idx
  let h := mkHandle i idx gen
  let opt := t.f 19 1
  let ad := if t.f 16 2 = 0xFFFF then none else v.currentOf (t.f 16 2)
  let span := if bitOf opt 2 then some (t.f 52 2) else none
  let pre := if bitOf opt 1 then some (t.f 44 4, t.f 48 4) else none
  let np := (pre.map (·.2)).getD 0
  let stops := ([t.f 56 4, t.f 60 4]).take (opt / 8 % 4)
  let q : Req :=
    { handle := h, state := .pending, ring := ring, ret := (((s.fn (i + 1)).ring ring).map (·.entry.ret)).getD 0, tag := t.tag, keep := bitOf opt 0, seed := BitVec.ofNat 64 (t.f 24 8),
      tau := BitVec.ofNat 32 (t.f 32 4), topP := BitVec.ofNat 32 (t.f 36 4), topK := t.f 40 4, k := t.f 18 1, stop := stops,
      outLimit := t.f 20 4, adapterId := t.f 16 2, adapterVer := (ad.map (·.2.version)).getD 0,
      adapterSlot := (ad.map (·.1)).getD 0xFFFF, prompt := [], nC := np, length := np, turn := 0, lastOut := none, dcopy := 0,
      cancel := false, rerun := 0, starved := false, stall := none, resumed := false, leftOut := 0, admitted := v.nextAdmit,
      runnableAt := none, late := 0, prefixOf := pre, span := span, spanWidth := 0, lead := s.fab.endpoint, isLead := true,
      isNew := span.isSome, lastCommit := 0, ended := none, flr := false }
  let bind := fun (a : AdapterVersion) => { a with bound := a.bound + 1 }
  let s := s.modServe i fun v =>
    { v with reqs := spPut none v.reqs h (some q), gens := spPut 0 v.gens idx ((gen + 1) % 1024), nextAdmit := v.nextAdmit + 1,
             adapters := match ad with
               | some a => spPut none v.adapters a.1 ((spGet none v.adapters a.1).map bind)
               | none => v.adapters }
  let s := (((s.cfg i).map (·.formats.watch)).getD []).foldl (fun s w => (s.densityWrite i w h 0 0).densityWrite i w h 1 0) s
  (h, match pre with
    | some (src, n) => s.sharePrefix i h src n
    | none => s)

/-- A request moves to PREFILL with tokens added (R327, R330, R358, R360): a turn begins, and a sequence whose folios are not all in
T0 is runnable with target n + L; the opening that admits it starts the prefetches, in order of target (R220). -/
def State.admitAppend (s : State) (i key : Nat) (toks : List Nat) : State :=
  match s.req i key with
  | none => s
  | some q =>
    if toks.isEmpty then s
    else
      let enters := q.state == .pending || q.state == .idle
      let s := s.modReq i key fun q =>
        { q with prompt := (if enters then q.lastOut.toList else []) ++ q.prompt ++ toks, length := q.length + toks.length,
                 state := .prefill, turn := if enters then 0 else q.turn, lastOut := if enters then none else q.lastOut }
      if enters && !(s.away i key).isEmpty then
        let look := ((s.cfg i).map (·.entry.lookahead)).getD 2
        s.modReq i key fun q => { q with runnableAt := some ((s.imp i).run.impression + look), late := 0 }
      else s

/-- PARAMS (R330). -/
def admitParams (t : Ticket) (q : Req) : Req :=
  let m := t.f 16 1
  { q with tau := if bitOf m 0 then BitVec.ofNat 32 (t.f 24 4) else q.tau,
           topP := if bitOf m 0 then BitVec.ofNat 32 (t.f 28 4) else q.topP,
           topK := if bitOf m 0 then t.f 32 4 else q.topK,
           k := if bitOf m 1 then t.f 17 1 else q.k,
           stop := if bitOf m 2 then u32s (t.data.take (4 * t.f 18 2)) else q.stop,
           outLimit := if bitOf m 3 then t.f 20 4 else q.outLimit }

/-- ADAPTER_LOAD (R361): the version fills the lowest free slot and waits to become current. -/
def State.admitAdapter (s : State) (i : Nat) (t : Ticket) : Nat × State :=
  let id := t.f 32 2
  match s.freeAdapterSlot i, s.adapterImage i id (t.imageBytes.getD []) with
  | some k, .ok (alpha, mats) =>
    let n := spGet 0 (s.imp i).serve.verNums id + 1
    (n, s.modServe i fun v =>
      { v with verNums := spPut 0 v.verNums id n,
               adapters := spPut none v.adapters k (some
                 { id := id, version := n, alpha := alpha, mats := mats, loaded := true, current := false,
                   pendingCurrent := true, bound := 0, retired := false, cold := Config.adapterCold i k }) })
  | _, _ => (0, s)

/-- ADAPTER_RETIRE (R362): no current version; one whose load has just completed never becomes current and its slot frees. -/
def State.admitRetire (s : State) (i id : Nat) : State :=
  s.modServe i fun v =>
    { v with adapters := v.adapters.filterMap fun x => match x.2 with
        | none => none
        | some a =>
          if a.id ≠ id then some x
          else if a.pendingCurrent then none
          else some (x.1, some { a with current := false, retired := true }) }

/-- WEIGHTS_LOAD (R466, R502): the part is written at its place, and its bytes are loaded. -/
def State.admitWeights (s : State) (i : Nat) (t : Ticket) : Nat × State :=
  let d := t.f 32 2
  let off := t.f 36 8
  match s.desc i d, t.imageBytes with
  | some x, some bs =>
    let s := if bitOf x.flags 1 then s.t1Write i (x.location + off) bs
      else (cut256 (bs.length + 1) (x.location + off) bs).foldl (fun s y => s.t0Write y.1 y.2) s
    (bs.length, s.modServe i fun v =>
      { v with tensors := spMod [] v.tensors d fun rs => rs ++ [(off, off + bs.length)],
               loading := if (s.tensorsRead i).contains d then v.loading ++ [d] else v.loading })
  | _, _ => (0, s)

/-- QUERY (R474): entries from FIRST while they fit are written to the host buffer. -/
def State.admitQuery (s : State) (f : Nat) (t : Ticket) : Nat × Nat × State :=
  let page := t.f 28 2
  let es := s.page f page
  let part := (es.drop (t.f 32 4)).take (t.f 24 4 / 16)
  (part.length, es.length,
    if part.isEmpty then s else s.emit (.hostWrite f (t.f 16 8) (part.flatMap (QEntry.bytes page))))

/-- What an accepted ticket other than an edition ticket does, with its two results (R468). -/
def State.admitEffect (s : State) (f ring : Nat) (t : Ticket) : Nat × Nat × State :=
  let i := f - 1
  let op := t.op
  if op = 0x01 then let x := s.admitOpen i ring t; (x.1, 0, x.2)
  else if op = 0x02 then
    match s.resolveTarget i ring t with
    | some key => (0, 0, s.admitAppend i key (u32s (t.data.take (4 * t.f 24 4))))
    | none => (0, 0, s)
  else if op = 0x03 then
    match s.resolveTarget i ring t with
    | some key => (0, 0, s.modReq i key fun q => { q with cancel := true })
    | none => (0, 0, s)
  else if op = 0x04 then
    match s.resolveTarget i ring t with
    | some key => (0, 0, s.modReq i key (admitParams t))
    | none => (0, 0, s)
  else if op = 0x10 then let x := s.admitAdapter i t; (x.1, 0, x.2)
  else if op = 0x11 then (0, 0, s.admitRetire i (t.f 32 2))
  else if op = 0x12 then let x := s.admitWeights i t; (x.1, 0, x.2)
  else if op = 0x30 then s.admitQuery f t
  else (0, 0, s)

/-! The front ticket of a ring. -/

/-- Tickets of the PF's ring whose work has not ended (R492). -/
def State.pfBusy (s : State) (ring : Nat) : Bool :=
  (match s.ed.stage with | some x => x.ring == ring | none => false)
    || (match s.ed.pendingMinor with | some x => x.2.1 == ring | none => false)
    || (match s.ed.minorDone with | some x => x.2.1 == ring | none => false)
    || (match s.ed.work with
      | .idle => false
      | .rechecking r _ _ => r == ring
      | .draining r _ _ _ _ => r == ring
      | .applying r _ _ _ _ _ => r == ring)

/-- Does a function write its records at once: the PF, or a VF whose imprint is Held or has no edition (R460, R492)? -/
def State.atOnce (s : State) (f : Nat) : Bool := f == 0 || s.heldOrNone (f - 1)

/-- Records of the PF and of such VFs, written now as far as there is room, then DEV_WORD of the submission ring once none of its
tickets is under way (R460, R492). -/
def State.recordNow (s : State) (f ring : Nat) (record : Option (List Byte)) : State :=
  match (s.fn f).ring ring with
  | none => s
  | some r =>
    let s := match record with
      | some bs => (s.queueRecords f r.entry.ret [bs]).writeBacklog f r.entry.ret
      | none => s
    if (f = 0 && s.pfBusy ring) || !s.serving f || r.entry.kind = 0 then s
    else s.emit (.hostWrite f r.entry.devWord (leBytes 4 (r.cons - BitVec.ofNat 32 r.waiting.length).toNat))

/-- FENCE tickets of the PF whose ring has no ticket under way complete (R330). -/
def State.pfFences (s : State) : State :=
  s.ed.fences.foldl (fun s x =>
    if s.pfBusy x.1 then s
    else ({ s with ed := { s.ed with fences := s.ed.fences.filter (· != x) } }).recordNow 0 x.1
      (some (ticketRecord x.2 0 0x3E 0 0 0 false))) s

/-- A ticket's completion: written at once, or with the commit (R460, R466, R467, R469). -/
def State.completeTicket (s : State) (f ring : Nat) (t : Ticket) (status r0 r1 : Nat) : State :=
  let r0 := if editionTicket t.op then s.ed.number else r0
  let write := status ≠ 0 || alwaysRecord t.op || t.notify
  if s.atOnce f then
    s.recordNow f ring (if write then some (ticketRecord t.tag status t.op r0 r1 0 false) else none)
  else s.modServe (f - 1) fun v =>
    { v with done := v.done ++ [⟨ring, t.op, t.tag, status, r0, r1, (s.imp (f - 1)).run.impression, write⟩] }

/-- Has a return ring room for `n` more records (R470)? -/
def State.retRoom (s : State) (f ret n : Nat) : Bool :=
  match (s.fn f).ring ret with
  | none => false
  | some k => decide (k.reserved + k.backlog.length + n ≤ k.room)

/-- Reserve room on a return ring (R470). -/
def State.reserveRet (s : State) (f ret n : Nat) : State := s.modRing f ret fun k => { k with reserved := k.reserved + n }

/-- Has the return ring of a submission ring room for `n` more records (R460, R470)? -/
def State.recordRoom (s : State) (f ring n : Nat) : Bool :=
  match (s.fn f).ring ring with
  | none => false
  | some r => s.retRoom f r.entry.ret n

/-- Reserve room on the return ring of a submission ring. -/
def State.reserveRecords (s : State) (f ring n : Nat) : State :=
  match (s.fn f).ring ring with
  | none => s
  | some r => s.reserveRet f r.entry.ret n

/-- Take the front ticket of a ring. -/
def State.popTicket (s : State) (f ring : Nat) : State := s.modRing f ring fun r => { r with waiting := r.waiting.drop 1 }

/-- The front ticket of a ring. -/
def State.frontTicket (s : State) (f ring : Nat) : Option Ticket := ((s.fn f).ring ring).bind fun r => r.waiting.head?

/-- Admit or refuse the front ticket of a ring (R460, R461), unless its return ring lacks room or it is an edition ticket of the PF
that is not refused by R461's rows: those have commands of their own. Answers whether a ticket was taken. -/
def State.admitFront (s : State) (f ring : Nat) : Bool × State :=
  match s.frontTicket f ring with
  | none => (false, s)
  | some t =>
    let status := s.judge f ring t
    if editionTicket t.op && status = 0 then (false, s)
    else
      let n := if status ≠ 0 || alwaysRecord t.op || t.notify then 1 else 0
      if !s.recordRoom f ring n then (false, s)
      else
        let s := s.popTicket f ring
        let s := if s.atOnce f then s else s.reserveRecords f ring n
        if status ≠ 0 then (true, s.completeTicket f ring t status 0 0)
        else if f = 0 && t.op = 0x3E && s.pfBusy ring then
          (true, { s with ed := { s.ed with fences := s.ed.fences ++ [(ring, t.tag)] } })
        else
          let x := s.admitEffect f ring t
          (true, x.2.2.completeTicket f ring t 0 x.1 x.2.1)

/-- Admit the tickets of a ring that waits for no opening, as far as they go, by fuel (R460, R492). -/
def State.admitAll (s : State) (f ring : Nat) : Nat → State
  | 0 => s
  | n + 1 => let x := s.admitFront f ring; if x.1 then x.2.admitAll f ring n else x.2

/-- Submission rings of a function, ascending, with those disabled while tickets of theirs wait. -/
def Fn.submissions (x : Fn) : List Nat :=
  x.rings.filterMap fun r => r.2.bind fun k => if k.entry.kind ≤ 1 then some r.1 else none

/-- Can a ring's front ticket be admitted at this opening (R329, R460)? -/
def State.admissible (s : State) (f ring : Nat) : Bool :=
  match s.frontTicket f ring with
  | none => false
  | some t =>
    let n := if s.judge f ring t ≠ 0 || alwaysRecord t.op || t.notify then 1 else 0
    s.recordRoom f ring n

/-- The ring whose turn it is in the rounds of R329: the next after the one last served, else the lowest. -/
def State.nextRing (s : State) (i : Nat) : Option Nat :=
  let rs := (s.fn (i + 1)).submissions.filter fun k => s.admissible (i + 1) k
  match (s.imp i).serve.lastRing with
  | some l => (rs.find? fun k => decide (l < k)) <|> rs.head?
  | none => rs.head?

/-- Is the admission budget of the opening spent (R329)? -/
def State.budgetLeft (s : State) (i : Nat) : Bool :=
  decide ((s.imp i).serve.admits < ((s.cfg i).map (·.entry.admitBudget)).getD 4096)

/-- Admit one ticket at an opening. -/
def State.admitOne (s : State) (i ring : Nat) : State :=
  let x := s.admitFront (i + 1) ring
  if x.1 then x.2.modServe i fun v => { v with admits := v.admits + 1, lastRing := some ring } else x.2

/-- Admission in rounds until none is left or the budget is spent (R329), by fuel. -/
def State.admitRounds (s : State) (i : Nat) : Nat → State
  | 0 => s
  | n + 1 =>
    if !s.budgetLeft i then s
    else match s.nextRing i with
      | some k => (s.admitOne i k).admitRounds i n
      | none => s

end Sys2Proof.Machine
end

