-- ==== Sys2Proof/Machine/HostIf.lean ====
section
/-!
DEFINITION. The host side: doorbells, nudges, ticket fetches, ring tables, the tickets' own commands, stepped admission, function
resets, the host link, MSI-X masks (R379 to R381, R445 to R460, R472, R477 to R480, R596, R631).
-/
namespace Sys2Proof.Machine

open Sys2Proof

/-! Doorbells and fetches (R450, R455, R456). -/

/-- Submission rings whose doorbell may be read: enabled and not faulted. -/
def Fn.readable (x : Fn) : List Nat := x.submissions.filter fun k => match x.ring k with | some r => !r.faulted | none => false

/-- Reads of a function's doorbells become pending; one that is pending stays one (R455). -/
def State.askDoorbells (s : State) (f : Nat) (ks : List Nat) : State :=
  s.modFn f fun x => { x with nudged := nub (x.nudged ++ ks.filter x.readable.contains) }

/-- DOORBELL_POLL (R446, R455): every doorbell is read, unless POLL is 0. -/
def execDoorbellPoll (s : State) : Host.Outcome State Fault Refusal :=
  if !s.answers || s.poll = 0 then .next s
  else .next ((List.range 17).foldl (fun s f => if s.serving f then s.askDoorbells f (s.fn f).readable else s) s)

/-- NUDGE (R450): a doorbell read for an enabled submission ring. -/
def execNudge (f : Fin 17) (slot : Fin 1024) (s : State) : Host.Outcome State Fault Refusal :=
  if s.answers && s.serving f.val then .next (s.askDoorbells f.val [slot.val]) else .next s

/-- A RING_ERROR event (R472), on the function's ring. -/
def State.ringError (s : State) (f k cause doorbell cons : Nat) : State :=
  let b := fun n => leBytes 2 0x0001 ++ leBytes 2 k ++ leBytes 1 cause ++ leBytes 3 0 ++ leBytes 8 n ++ leBytes 4 doorbell
    ++ leBytes 4 cons ++ leBytes 8 0
  if s.atOnce f then s.writeEvents f 0 [b 0] else s.event (f - 1) (b (s.imp (f - 1)).run.impression)

/-- A ring becomes faulted (R456). -/
def State.faultRing (s : State) (f k cause doorbell : Nat) : State :=
  let cons := (((s.fn f).ring k).map fun r => r.cons.toNat).getD 0
  (s.modRing f k fun r => { r with faulted := true }).ringError f k cause doorbell cons

/-- Take the tickets that a fetch has read, in ring order, while they are covered by the doorbell; a failed read of the ring faults
it (R455, R456). -/
def State.takeTickets (s : State) (f k : Nat) : Nat → List TicketRead → State
  | 0, _ => s
  | _, [] => s
  | n + 1, x :: xs =>
    if x.raw.bad then s.faultRing f k 2 0
    else
      let raw := x.raw.bytes
      let t : Ticket := ⟨raw, x.data.bytes, x.image.bytes, 0⟩
      let bad := (x.data.bad && decide (0 < t.needs)) || (x.image.bad && (t.op == 0x10 || t.op == 0x12))
      let t := { t with status := if bad then 0x0300 else 0 }
      (s.modRing f k fun r => { r with cons := r.cons + 1, waiting := r.waiting ++ [t] }).takeTickets f k n xs

/-- A HOST_WORD read of a ring of a function without openings, and the records that now have room (R457, R470; log 55). -/
def State.wordRead (s : State) (f k : Nat) (r : Ring) (word : Option (BitVec 32)) : State :=
  match word with
  | some w => (s.modRing f k fun r => { r with hostSeen := w }).writeBacklog f k
  | none => s.ringError f k 2 0 r.hostSeen.toNat

/-- TICKET_FETCH (R455, R456, R460, R492): a pending doorbell read completes, and the tickets up to it are fetched. For a running
imprint DEV_WORD goes past them and they wait for an opening; in Rest they wait for the wake (R537). Named with a return or event
ring of a function that has no openings, it is that ring's HOST_WORD read (log 55). -/
def execTicketFetch (f : Fin 17) (ring : Nat) (doorbell : Option (BitVec 32)) (reads : List TicketRead) (s : State) :
    Host.Outcome State Fault Refusal :=
  let x := s.fn f.val
  match x.ring ring with
  | none => .next s
  | some r =>
    if s.answers && s.serving f.val && 2 ≤ r.entry.kind && s.atOnce f.val then .next (s.wordRead f.val ring r doorbell)
    else if !s.answers || !s.serving f.val || r.faulted || r.entry.kind ≠ 1 || !x.nudged.contains ring then .next s
    else
      let s := s.modFn f.val fun x => { x with nudged := x.nudged.filter (· != ring) }
      match doorbell with
      | none => .next (s.faultRing f.val ring 2 0)
      | some d =>
        let n := (d - r.cons).toNat
        if r.depth < n then .next (s.faultRing f.val ring 1 d.toNat)
        else
          let s := s.takeTickets f.val ring n reads
          if s.atOnce f.val then
            if s.inRest then .next s else .next (s.admitAll f.val ring (n + 1))
          else
            let c := (((s.fn f.val).ring ring).map (·.cons)).getD 0
            if c = r.cons then .next s else .next (s.emit (.hostWrite f.val r.entry.devWord (leBytes 4 c.toNat)))

/-! Ring tables (R451, R452, R631). -/

/-- Limits of rings of a kind on a function (R451). -/
def kindLimit (f kind : Nat) : Nat := if kind = 3 then 1 else if f = 0 then 16 else 256

/-- Rings of a kind in force on the other VFs, which count against the package's limit of 4,096 (R451). -/
def State.otherRings (s : State) (f kind : Nat) : Nat :=
  ((List.range 17).map fun g => if g = 0 || g = f then 0
    else ((s.fn g).rings.filter fun x => match x.2 with | some r => r.entry.kind == kind | none => false).length).sum

/-- Is a return ring needed: is a live request or an unadmitted ticket bound to it (R452, code 8)? -/
def State.ringBound (s : State) (f k : Nat) : Bool :=
  let x := s.fn f
  (x.rings.any fun r => match r.2 with
    | some q => decide (q.entry.kind ≤ 1) && q.entry.ret == k && !q.waiting.isEmpty
    | none => false)
  || (f != 0 && (s.imp (f - 1)).serve.ownLive.any fun y => y.2.ret == k)

/-- The failing code of one entry of a new table, 0 for none (R452). -/
def State.entryCode (s : State) (f : Nat) (table : List RingRead) (k : Nat) (x : RingRead) : Nat :=
  let old := (((s.fn f).ring k).map (·.entry)).filter fun e => e.kind != 0
  match x.entry with
  | none => 9
  | some e =>
    let kinds := (table.take (k + 1)).filter fun y => match y.entry with | some z => z.kind == e.kind | none => false
    if e.reserved || 3 < e.kind || (e.kind = 1 && e.vector ≠ 0) || ((e.kind = 2 || e.kind = 3) && e.ret ≠ 0) then 1
    else if e.kind ≠ 0 && (e.log2 < (if e.kind = 1 then 1 else 3) || 16 < e.log2) then 2
    else if e.kind ≠ 0 && (e.base % 4096 ≠ 0 || e.hostWord % 4 ≠ 0 || e.devWord % 4 ≠ 0) then 3
    else if e.kind ≠ 0 && (kindLimit f e.kind < kinds.length
        || (f ≠ 0 && e.kind ≠ 3 && 4096 < kinds.length + s.otherRings f e.kind)) then 4
    else if e.kind = 1 && (match (table[e.ret]?).bind (·.entry) with | some z => z.kind != 2 | none => true) then 5
    else if (e.kind = 2 || e.kind = 3) && e.vector ≠ 0xFFFF && (if f = 0 then 2048 else 128) ≤ e.vector then 6
    else match old with
      | some o =>
        if e ≠ o && e ≠ { o with kind := 0 } then 7
        else if e.kind = 0 && o.kind = 2 && s.ringBound f k then 8 else 0
      | none =>
        if e.kind ≠ 0 && (x.devVal.isNone || (e.kind ≠ 1 && x.hostVal.isNone)) then 9 else 0

/-- The first failing entry of a new table with its code; enabled rings beyond its end go to KIND 0 (R452). -/
def State.tableError (s : State) (f n : Nat) (table : List RingRead) : Option (Nat × Nat) :=
  match (table.zipIdx.map fun x => (x.2, s.entryCode f table x.2 x.1)).find? fun x => x.2 != 0 with
  | some x => some x
  | none =>
    ((s.fn f).rings.find? fun x => decide (n ≤ x.1) && (match x.2 with | some r => r.entry.kind == 2 | none => false)
      && s.ringBound f x.1).map fun x => (x.1, 8)

/-- A ring as a new table starts it (R631). -/
def startRing (x : RingRead) : Option Ring :=
  match x.entry with
  | some e =>
    if e.kind = 0 then none
    else
      let d := x.devVal.getD 0
      some ⟨e, false, d, d, x.hostVal.getD 0, [], [], 0⟩
  | none => none

/-- A read of an entry that was not given counts as a failed one. -/
def noRead : RingRead := ⟨.failed, none, none⟩

/-- Which path reaches a function's HIF group (R607, R608)? -/
def reachesFn (p : RegPath) (f : Nat) : Bool :=
  match p with
  | .pf => true
  | .vf g => g.val + 1 == f
  | _ => false

/-- RINGTAB_APPLY (R452, R477, R631): the table is refused whole, or takes effect at the next opening, at once where the function
has none. An apply still under way keeps its course. -/
def execRingtabApply (p : RegPath) (f : Fin 17) (entries : Fin 1024) (reads : List RingRead) (s : State) :
    Host.Outcome State Fault Refusal :=
  if !s.answers || !reachesFn p f.val then .next s
  else
    let busy := (s.fn f.val).apply && (s.fn f.val).newTable.isSome
    let s := s.modFn f.val fun x => { x with entries := entries.val, apply := true }
    if s.stopped || busy then .next s
    else
      let table := (List.range entries.val).map fun k => reads.getD k noRead
      match s.tableError f.val entries.val table with
      | some (k, code) =>
        .next (s.modFn f.val fun x => { x with apply := false, error := true, errCode := code, errEntry := k })
      | none =>
        let s := s.modFn f.val fun x => { x with error := false, newTable := some (table.map startRing) }
        .next (if s.atOnce f.val then s.takeTable f.val else s)

/-- HIF_EVT_LOST read (R12, R477): the field clears. -/
def execHifEvtLostRead (p : RegPath) (f : Fin 17) (s : State) : Host.Outcome State Fault Refusal :=
  if s.answers && reachesFn p f.val then .next (s.modFn f.val fun x => { x with evtLost := 0 }) else .next s

/-! Openings as tickets meet them (R329, R379 to R381). -/

/-- The quoin that a job has reached on a core: its QUOIN command is taken and its earlier commands have completed (R313). -/
def Core.reached (c : Core) (job : Nat) : Option Nat :=
  if c.inflight.any fun f => f.job == job then none else (c.job job).atQuoin

/-- Has a job reached a quoin of a kind on all of its cores (R313)? -/
def State.jobAt (s : State) (i job : Nat) (kind : QuoinKind) : Bool :=
  match s.cfg i with
  | none => false
  | some g =>
    let cores := (g.schedule.streams.filter fun x => x.job == job).map (·.core)
    !cores.isEmpty && cores.all fun c =>
      match (s.core c).reached job with
      | none => false
      | some k => g.schedule.quoins.any fun q => q.job == job && q.index == k && q.kind == kind

/-- Does the imprint wait at its OPEN quoin with nothing in the way but a step (R315, R380, R499)? Once a Rest request is accepted no
opening begins until the package runs again (R536). -/
def State.opensHere (s : State) (i : Nat) : Bool :=
  let v := (s.imp i).serve
  !s.stopped && !s.inRest && (v.begun || s.power.rest == .run) && !s.heldOrNone i && v.phase == .closed && v.agreement.isNone && !v.drained && s.jobAt i 0 .opening

/-- May its work begin, or has it begun (R380)? -/
def State.mayOpen (s : State) (i : Nat) : Bool :=
  s.opensHere i && ((s.imp i).serve.begun || !(s.imp i).step || (s.imp i).go)

/-- Adapter versions whose load has completed become current (R361). -/
def promote (xs : Sp (Option AdapterVersion)) : Sp (Option AdapterVersion) :=
  let ids := xs.filterMap fun x => x.2.bind fun a => if a.pendingCurrent then some (a.id, a.version) else none
  xs.map fun x => (x.1, x.2.map fun a =>
    match (ids.filter fun y => y.1 == a.id).map (·.2) with
    | [] => a
    | v :: vs => { a with current := a.version == (v :: vs).foldl max 0, pendingCurrent := false })

/-- The OPEN quoin's work begins: GO clears and is counted, a ring table takes effect, adapter versions become current, and under
a step every doorbell of the imprint is to be read first (R361, R379, R380, R446, R452). -/
def State.beginOpening (s : State) (i : Nat) (release : Bool) : State :=
  let m := s.imp i
  if m.serve.begun then s
  else
    let stepped := m.step && m.go
    let s := s.modImp i fun m =>
      { m with go := false, steps := if stepped then (m.steps + 1) % 2 ^ 32 else m.steps,
               serve := { m.serve with begun := true, stepped := stepped, admits := 0, lastRing := none,
                                       adapters := promote m.serve.adapters } }
    let s := (s.takeTable (i + 1)).modFn (i + 1) fun x =>
      { x with linkWait := false, rings := x.rings.map fun r => (r.1, r.2.map fun k => { k with reserved := 0 }) }
    if (stepped || release) && s.serving (i + 1) then s.askDoorbells (i + 1) (s.fn (i + 1)).readable else s

/-- Doorbells that a stepped opening waits for (R380). -/
def State.stepWaits (s : State) (i : Nat) : Bool := (s.imp i).serve.begun && (s.imp i).step && !(s.fn (i + 1)).nudged.isEmpty

/-- A ticket's own command: at an opening, the front ticket of the ring whose turn it is, when it has the opcode (R329, R330). -/
def State.ticketStep (s : State) (i ring op : Nat) : Host.Outcome State Fault Refusal :=
  if !s.mayOpen i then .next s
  else
    let t := s.beginOpening i false
    let front := (t.frontTicket (i + 1) ring).map Ticket.op
    if t.stepWaits i || !t.budgetLeft i || t.nextRing i != some ring || front != some op then .next s
    else .next (t.admitOne i ring)

/-- OPEN (R330). -/
def execOpenReq (i : Fin 16) (ring : Nat) (s : State) : Host.Outcome State Fault Refusal := s.ticketStep i.val ring 0x01

/-- APPEND (R330). -/
def execAppend (i : Fin 16) (ring : Nat) (s : State) : Host.Outcome State Fault Refusal := s.ticketStep i.val ring 0x02

/-- CANCEL (R330, R359). -/
def execCancel (i : Fin 16) (ring : Nat) (s : State) : Host.Outcome State Fault Refusal := s.ticketStep i.val ring 0x03

/-- PARAMS (R330). -/
def execParams (i : Fin 16) (ring : Nat) (s : State) : Host.Outcome State Fault Refusal := s.ticketStep i.val ring 0x04

/-- ADAPTER_LOAD (R361). -/
def execAdapterLoad (i : Fin 16) (ring : Nat) (s : State) : Host.Outcome State Fault Refusal := s.ticketStep i.val ring 0x10

/-- ADAPTER_RETIRE (R362). -/
def execAdapterRetire (i : Fin 16) (ring : Nat) (s : State) : Host.Outcome State Fault Refusal := s.ticketStep i.val ring 0x11

/-- WEIGHTS_LOAD (R466). -/
def execWeightsLoad (i : Fin 16) (ring : Nat) (s : State) : Host.Outcome State Fault Refusal := s.ticketStep i.val ring 0x12

/-- A command of a ticket that functions without openings take too (R460, R462). -/
def State.anyTicket (s : State) (f ring op : Nat) : Host.Outcome State Fault Refusal :=
  if !s.atOnce f then s.ticketStep (f - 1) ring op
  else if !s.answers || !s.serving f || s.inRest || (s.frontTicket f ring).map Ticket.op ≠ some op then .next s
  else .next (s.admitFront f ring).2

/-- NOP (R330). -/
def execNopTicket (f : Fin 17) (ring : Nat) (s : State) : Host.Outcome State Fault Refusal := s.anyTicket f.val ring 0x00

/-- QUERY (R474). -/
def execQuery (f : Fin 17) (ring : Nat) (s : State) : Host.Outcome State Fault Refusal := s.anyTicket f.val ring 0x30

/-- FENCE (R330). -/
def execFence (f : Fin 17) (ring : Nat) (s : State) : Host.Outcome State Fault Refusal := s.anyTicket f.val ring 0x3E

/-- Which path reaches TEL_REPRO of an imprint (R607, R608)? -/
def reachesTel (p : RegPath) (i : Nat) : Bool := reachesFn p (i + 1)

/-- REPRO_STEP (R379, R381): STEP is written; cleared while an opening waits, that opening begins at once, reading every doorbell
first. -/
def execReproStep (p : RegPath) (i : Fin 16) (on : Bool) (s : State) : Host.Outcome State Fault Refusal :=
  if !s.answers || !reachesTel p i.val then .next s
  else
    let waits := (s.imp i.val).step && !on && s.opensHere i.val && !(s.imp i.val).serve.begun
    let t := if waits then s.beginOpening i.val true else s
    .next (t.modImp i.val fun m => { m with step := on })

/-- REPRO_GO (R379 to R381). -/
def execReproGo (p : RegPath) (i : Fin 16) (s : State) : Host.Outcome State Fault Refusal :=
  if !s.answers || !reachesTel p i.val then .next s else .next (s.modImp i.val fun m => { m with go := true })

/-- A read of BAR2, the nudge window, of any width (R450). -/
def nudgeRead (_offset _width : Nat) : Nat := 0

/-! Function Level Reset (R478 to R480). -/

/-- R478 on one VF: its host side returns to reset, what was not yet written is dropped, and every live request of its imprint ends
with CANCELLED at the next commit. -/
def State.resetVf (s : State) (i : Nat) : State :=
  let s := { s with fns := spPut Fn.reset s.fns (i + 1) Fn.reset }
  s.modServe i fun v =>
    { v with done := [], events := [],
             reqs := v.reqs.map fun x => (x.1, x.2.map fun q => if q.isLead then { q with cancel := true, flr := true } else q) }

/-- VF_FLR (R478, R599). -/
def execVfFlr (i : Fin 16) (s : State) : Host.Outcome State Fault Refusal :=
  .next ((s.muteVectors fun f => f == i.val + 1).resetVf i.val)

/-- Imprints that waited at their drain quoins go on (R480). -/
def State.undrain (s : State) : State :=
  s.imprintList.foldl (fun s i => s.modServe i fun v => { v with drain := none, drained := false, drainEnds := false }) s

/-- PF_FLR (R479, R480, R599): every VF and the PF's rings; a staged edition and a pending minor one are dropped; a commit or revert
before its point of no return is given up. -/
def execPfFlr (s : State) : Host.Outcome State Fault Refusal :=
  let s := (List.range 16).foldl State.resetVf (s.muteVectors fun _ => true)
  let s := { s with fns := spPut Fn.reset s.fns 0 Fn.reset, power := { s.power with events := [] } }
  let s := s.setEd fun e => { e with staged := none, stage := none, pendingMinor := none, minorDone := none, fences := [] }
  match s.ed.work with
  | .applying _ _ _ _ _ _ => .next s
  | _ => .next (State.sample (s.setEd fun e => { e with work := .idle }).undrain)

/-! The host link and MSI-X. -/

/-- PCIE_LINK_CHANGE (R446): below 32 GT/s or x8 the LQ7 stops serving; a running imprint's function serves again from its first
opening after the link returns. -/
def execPcieLinkChange (gts width : Nat) (s : State) : Host.Outcome State Fault Refusal :=
  let bad := decide (gts < 32) || decide (width < 8)
  let t := if s.degraded && !bad then
      (List.range 16).foldl (fun s i => if s.heldOrNone i then s else s.modFn (i + 1) fun x => { x with linkWait := true }) s
    else s
  .next (State.sample { t with degraded := bad })

/-- Send a pending message of a vector that nothing masks any more (R596). -/
def State.sendPending (s : State) (f v : Nat) : State :=
  let x := s.fn f
  let e := spGet MsixEntry.reset x.msix v
  if x.msixEnable && !x.msixMask && !e.mask && e.pending then
    (s.modFn f fun x => { x with msix := spPut MsixEntry.reset x.msix v { e with pending := false } }).emit
      (.msix f v e.addr.toNat e.data.toNat)
  else s

/-- MSIX_MASK_CLEAR (R596): one vector's Mask bit, or the Function Mask, is cleared, and what was pending is sent. -/
def execMsixMaskClear (f : Fin 17) (vector : Option Nat) (s : State) : Host.Outcome State Fault Refusal :=
  let n := if f.val = 0 then 2048 else 128
  match vector with
  | some v =>
    if n ≤ v then .next s
    else
      let e := spGet MsixEntry.reset (s.fn f.val).msix v
      .next ((s.modFn f.val fun x => { x with msix := spPut MsixEntry.reset x.msix v { e with mask := false } }).sendPending
        f.val v)
  | none =>
    let s := s.modFn f.val fun x => { x with msixMask := false }
    .next ((s.fn f.val).msix.foldl (fun s x => s.sendPending f.val x.1) s)

end Sys2Proof.Machine
end

