-- ==== Sys2Proof/Machine/Opening.lean ====
section
/-!
DEFINITION. The OPEN quoin's work: admission, the order and placement of steps, folios, rosters, the manifest, the binding of shard
slots (R140, R196, R202 to R207, R220, R221, R315, R325 to R348, R470, R504).
-/
namespace Sys2Proof.Machine

open Sys2Proof

/-! Regions of the manifest (R331, R332, R338). -/

/-- The four regions, in slot order. -/
inductive Region where
  | decode | prompt | chunk | rerun
deriving DecidableEq, Repr

/-- The region of a kind of step. -/
def SlotKind.region : SlotKind → Region
  | .prompt => .prompt
  | .chunk => .chunk
  | .rerun => .rerun
  | _ => .decode

/-- A region's number in the row map. -/
def Region.code : Region → Nat
  | .decode => 0 | .prompt => 1 | .chunk => 2 | .rerun => 3

/-- Rows of a decode slot (R332). -/
def decodeRows (g : ImprintCfg) : Nat :=
  if g.entry.spec = 1 then 1 + g.serving.kMax else if g.entry.spec = 2 then g.serving.template.length else 1

/-- Slots of a region. -/
def Region.slots (g : ImprintCfg) : Region → Nat
  | .decode => g.serving.dCap | .prompt => g.serving.pSeq | .chunk => g.serving.cSeq | .rerun => g.serving.rRes

/-- The first batch row of a region (log 21). -/
def Region.firstRow (g : ImprintCfg) : Region → Nat
  | .decode => 0
  | .prompt => g.serving.dCap * decodeRows g
  | .chunk => g.serving.dCap * decodeRows g + g.serving.pCap
  | .rerun => g.serving.dCap * decodeRows g + g.serving.pCap + g.serving.cSeq * g.serving.lC

/-- Rows that a step takes in its region. -/
def stepRows (g : ImprintCfg) (k : SlotKind) (fresh : Nat) : Nat :=
  match k.region with
  | .decode => decodeRows g
  | .rerun => 1
  | _ => fresh

/-- Records that R470 reserves for a slot. -/
def recordsFor (k : SlotKind) : Nat := if k = .tree then 4 else if k = .draft then 2 else 1

/-- Does a region whose slots have these adapters and rows, in order, keep to the budgets of its row groups (R110, R335)? -/
def runsFit (g : ImprintCfg) (reg : Region) (xs : List (Nat × Nat)) : Bool :=
  let spans := (xs.foldl (fun (a : List (Nat × Nat × Nat) × Nat) x => (a.1 ++ [(a.2, a.2 + x.2, x.1)], a.2 + x.2)) ([], 0)).1
  let groups := g.serving.rowMap.filter fun r => r.region == reg.code
  (groups.foldl (fun (a : Bool × Nat) r =>
    let hi := a.2 + r.rows
    let ads := nub ((spans.filter fun x => x.2.2 != 0xFFFF && decide (x.1 < hi) && decide (a.2 < x.2.1)).map (·.2.2))
    (a.1 && decide (ads.length ≤ r.aMax), hi)) (true, 0)).1

/-! Inputs of the opening. -/

/-- One read of a HOST_WORD at the opening (R457): none is a failed read, after which the last value stays. -/
def State.readHostWord (s : State) (i : Nat) (x : Nat × Option (BitVec 32)) : State :=
  match (s.fn (i + 1)).ring x.1 with
  | none => s
  | some r =>
    if r.entry.kind ≤ 1 then s
    else match x.2 with
      | some w => s.modRing (i + 1) x.1 fun r => { r with hostSeen := w }
      | none => s.ringError (i + 1) x.1 2 0 r.hostSeen.toNat

/-- R140: a font built in the impression that has committed becomes its stream's active font. -/
def Run.switchFonts (r : Run) : Run :=
  { r with fontActive := r.fontBuilt.foldl (fun m x =>
             if x.2 then spPut 2 m x.1 (if spGet 2 r.fontActive x.1 = 0 then 1 else 0) else m) r.fontActive,
           fontBuilt := [] }

/-- Ports that are UP, with their versions: the usable set of the impression to come (R404, R410). -/
def State.upPorts (s : State) : List (Nat × Nat) :=
  ((List.range 20).filter fun p => (s.port p).state == .up).map fun p => (p, (s.port p).wire)

/-- Does the transit rule allow a port (R408, R411)? -/
def State.transits (s : State) (p : Nat) : Bool :=
  match s.topology with
  | none => true
  | some t => if p < 7 then bitOf t.transitTray p else if p < 14 then bitOf t.transitPlanes (p - 7) else true

/-- Ports are fixed at an impression boundary (R404). -/
def State.fixPorts (s : State) (i : Nat) : State :=
  let up := s.upPorts
  let s := s.modRun i fun r => { r with ports := up }
  { s with fab := { s.fab with transit := (up.map (·.1)).filter s.transits } }

/-- What one impression leaves in the run state is cleared for the next: trips, decisions, damage of rows, squares, imposition
records. -/
def State.clearRun (s : State) (i : Nat) : State :=
  let s := s.modRun i fun r => (r.switchFonts).discard
  (s.coresOf i).foldl (fun s c => s.modCore c fun c => { c with picks := [], sent := [] }) s

/-! Candidates (R203, R327, R333). -/

/-- Is a request a candidate: PREFILL or DECODE, and not NEW at this opening (R327, R344)? -/
def Req.candidate (q : Req) : Bool := q.live && (q.state == .prefill || q.state == .decode) && !q.isNew

/-- Earlier stall first, then lower handle (R203). -/
def stallLt (a b : Nat × Req) : Bool :=
  let x := a.2.stall.getD 0
  let y := b.2.stall.getD 0
  decide (x < y) || (decide (x = y) && decide (a.1 < b.1))

/-- The candidates in the order of R203. -/
def State.candidates (s : State) (i : Nat) : List Nat :=
  let v := (s.imp i).serve
  let c := v.reqList.filter fun x => x.2.candidate
  let prev := v.prev.filter fun k => c.any fun x => x.1 == k
  let rest := c.filter fun x => !prev.contains x.1
  let stalled := sortBy stallLt (rest.filter fun x => x.2.stall.isSome)
  let new := sortBy (fun (a b : Nat × Req) => decide (a.2.admitted < b.2.admitted)) (rest.filter fun x => x.2.stall.isNone)
  prev ++ stalled.map (·.1) ++ new.map (·.1)

/-- Prompt tokens awaiting commit over all PREFILL requests (R336). -/
def Serve.waitingTokens (v : Serve) : Nat :=
  ((v.ownLive.filter fun x => x.2.state == .prefill).map fun x => x.2.prompt.length).sum

/-- The chunking flag (R336). -/
def chunkFlag (g : ImprintCfg) (was : Bool) (q : Nat) : Bool :=
  if g.serving.pSeq = 0 then true else if g.serving.qHi < q then true else if q ≤ g.serving.qLo then false else was

/-! Waking sequences whose folios are away (R216, R220, R221). -/

/-- R221 at one opening: past its target, a sequence with a T2 transfer still to come counts one. -/
def State.lateStep (s : State) (i key : Nat) : State :=
  match s.req i key with
  | none => s
  | some q =>
    let waits := (s.away i key).any fun x => match x.2.move with
      | some m => m.t2 && !m.spill && !m.done
      | none => false
    match q.runnableAt with
    | some t => if decide (t ≤ (s.imp i).run.impression) && waits then s.modReq i key fun q => { q with late := q.late + 1 } else s
    | none => s

/-- Give a runnable sequence whose folios are away its target (R220). -/
def State.setTarget (s : State) (i key : Nat) : State :=
  let look := ((s.cfg i).map (·.entry.lookahead)).getD 2
  let now := (s.imp i).run.impression
  if (s.away i key).isEmpty then s
  else s.modReq i key fun q =>
    { q with runnableAt := some (q.runnableAt.getD (now + look)), late := if q.runnableAt.isNone then 0 else q.late }

/-- The transfers of an opening: spills of runnable sequences are abandoned, finished ones take effect, prefetches start in order
of target, lateness counts (R216, R218, R220, R221). -/
def State.wake (s : State) (i : Nat) (keys : List Nat) : State :=
  let s := s.abandonSpills i fun f => f.sharers.any keys.contains
  let s := ((s.landLent i).settleMoves i).reissue i
  let s := keys.foldl (fun s k => s.setTarget i k) s
  let target := fun k => ((s.req i k).bind (·.runnableAt)).getD 0
  let away := keys.filter fun k => !(s.away i k).isEmpty
  let s := away.foldl (fun s k => s.lateStep i k) s
  (sortBy (fun a b => decide (target a < target b)) away).foldl (fun s k => s.prefetch i k) s

/-! Steps (R333, R334, R336, R337, R347, R348). -/

/-- The template that a tree step uses: cut when chunks run (R337). -/
def treeTemplate (g : ImprintCfg) (cut : Bool) : List Nat :=
  if cut then g.serving.template.take g.serving.tChunk else g.serving.template

/-- The width of a tree step: its deepest node's depth. -/
def treeWidth (t : List Nat) : Nat := ((List.range t.length).map (depthOf t 64)).foldl max 1

/-- Prompt tokens already placed at this opening. -/
def Serve.promptPlaced (v : Serve) : Nat := ((v.offers.filter fun o => o.kind == .prompt).map (·.fresh)).sum

/-- The steps that a candidate may be offered, in turn; one with its proofs dropped comes last (R204). A member of a span offers
the width that the lead last gave (log 52). -/
def stepsFor (g : ImprintCfg) (v : Serve) (cut isPrefix : Bool) (key : Nat) (q : Req) : List Offer :=
  let mk := fun kind w fresh narrowed => (⟨key, kind, w, fresh, narrowed, isPrefix, 2⟩ : Offer)
  let t := treeTemplate g cut
  let left := g.serving.pCap - v.promptPlaced
  let proofs := if g.entry.spec = 2 then mk .tree (treeWidth t) t.length false else mk .draft (1 + q.k) (1 + q.k) false
  if q.rerun ≠ 0 then [mk .rerun 1 1 false]
  else if !q.isLead then
    let w := max 1 q.spanWidth
    if w = 1 then [mk .decode 1 1 false]
    else if w ≤ decodeRows g then
      [if g.entry.spec = 2 then mk .tree w t.length false else mk .draft w w false, mk .decode 1 1 true]
    else [if g.serving.pSeq = 0 then mk .chunk w w false else mk .prompt w w false]
  else if q.state == .decode then
    if g.entry.spec ≠ 0 && q.k ≠ 0 then [proofs, mk .decode 1 1 true] else [mk .decode 1 1 false]
  else
    let n := min (min q.prompt.length 4096) left
    let m := min q.prompt.length g.serving.lC
    (if n = 0 then [] else [mk .prompt n n false]) ++ (if v.chunkNow && m ≠ 0 then [mk .chunk m m false] else [])

/-- What stands against a step, if anything. -/
inductive Fit where
  | ok | slot | adapter | room | place
  | folio (cls slice : Nat)
deriving DecidableEq, Repr

/-- The adapter slot of a request. -/
def State.adapterOf (s : State) (i key : Nat) : Nat := ((s.req i key).map (·.adapterSlot)).getD 0xFFFF

/-- A region's offers in slot order: ascending adapter slot, unbound last, ties by R203 (R335). -/
def State.regionOffers (s : State) (i : Nat) (reg : Region) (xs : List Offer) : List Offer :=
  sortBy (fun (a b : Offer) => decide (s.adapterOf i a.handle < s.adapterOf i b.handle))
    (xs.filter fun o => o.kind.region == reg)

/-- The first sequence slot of a region (R331, R338). -/
def Region.firstSlot (g : ImprintCfg) : Region → Nat
  | .decode => 0
  | .prompt => g.serving.dCap
  | .chunk => g.serving.dCap + g.serving.pSeq
  | .rerun => g.serving.dCap + g.serving.pSeq + g.serving.cSeq

/-- The sequence slot that a region's order gives a request (R335). -/
def regionSlot (g : ImprintCfg) (reg : Region) (ordered : List Offer) (key : Nat) : Nat :=
  reg.firstSlot g + ordered.findIdx fun x => x.handle == key

/-- Can the folios of every sequence of a region be read from the slot that the order gives it (R172)? -/
def State.regionPlaced (s : State) (i : Nat) (g : ImprintCfg) (reg : Region) (ordered : List Offer) : Bool :=
  ordered.all fun x => s.placeable i (regionSlot g reg ordered x.handle) x.handle (((s.req i x.handle).map (·.nC)).getD 0)

/-- Does a step copy folios of a prefix source (R213)? -/
def State.copiesPrefix (s : State) (i key : Nat) (q : Req) : Bool :=
  match q.prefixOf with
  | some (src, n) => (s.heads i).any fun x => !(s.prefixCopies i key src n x.1 x.2.2).isEmpty
  | none => false

/-- Try one step (R334, R335, R470, R203): placed with its folios and record room, or what stands against it. -/
def State.tryOffer (s : State) (i : Nat) (q : Req) (o : Offer) : Fit × State :=
  match s.cfg i with
  | none => (.slot, s)
  | some g =>
    let v := (s.imp i).serve
    let reg := o.kind.region
    let same := v.offers.filter fun x => x.kind.region == reg
    let ordered := s.regionOffers i reg (v.offers ++ [o])
    let seq := regionSlot g reg ordered o.handle
    if reg.slots g ≤ same.length || (reg == .prompt && decide (g.serving.pCap < v.promptPlaced + o.fresh))
        || (reg == .chunk && decide (g.serving.lC < o.fresh)) then (.slot, s)
    else if !runsFit g reg (ordered.map fun x => (s.adapterOf i x.handle, stepRows g x.kind x.fresh)) then (.adapter, s)
    else if !s.regionPlaced i g reg ordered then (.place, s)
    else if q.isLead && !s.retRoom (i + 1) q.ret (recordsFor o.kind) then (.room, s)
    else
      let needs := s.folioNeeds i seq o.handle q.nC o.width q.prefixOf
      match s.shortClass i needs with
      | some c => (.folio c.1 c.2, s)
      | none =>
        let s := s.reserveAll i o.handle needs
        let s := if q.isLead then s.reserveRet (i + 1) q.ret (recordsFor o.kind) else s
        (.ok, s.modServe i fun v => { v with offers := v.offers ++ [o] })

/-- Try steps in turn; one with its proofs dropped only for want of folios (R204). Answers what stood against the last one tried,
and that step. -/
def State.trySteps (s : State) (i : Nat) (q : Req) : List Offer → Fit → Option Offer → Fit × Option Offer × State
  | [], f, last => (f, last, s)
  | o :: os, f, last =>
    let folio := match f with
      | .folio _ _ => true
      | _ => false
    if o.narrowed && !folio then s.trySteps i q os f last
    else match s.tryOffer i q o with
      | (.ok, s') => (.ok, some o, s')
      | (f', s') => s'.trySteps i q os f' (some o)

/-- A NO_FOLIO event (R206). -/
def noFolioEvent (cls : Nat) (dropped spans : Bool) (handle impression needed free0 freeLow nC : Nat) : List Byte :=
  leBytes 2 0x0030 ++ leBytes 1 cls ++ leBytes 1 (bit dropped + 2 * bit spans) ++ leBytes 4 handle ++ leBytes 8 impression
    ++ leBytes 4 needed ++ leBytes 4 free0 ++ leBytes 4 freeLow ++ leBytes 4 (nC % 2 ^ 25)

/-- A sequence that could not be served for want of folios of a class in a slice (R205). -/
def State.wantFolio (s : State) (i key : Nat) (q : Req) (c slice : Nat) (o : Offer) : State :=
  let seq := match s.cfg i with
    | some g => regionSlot g o.kind.region (s.regionOffers i o.kind.region ((s.imp i).serve.offers ++ [o])) key
    | none => 0
  let needs := (s.folioNeeds i seq key q.nC o.width q.prefixOf).filter fun x => x.cls == c
  let need := (needs.filter fun x => x.slice == slice).length
  if s.homeCanBeMade i c slice need then (s.spillFor i c slice need).count i .residencyWait 1
  else if q.stall.isSome then s
  else
    let ev := noFolioEvent c o.narrowed q.span.isSome q.handle (s.imp i).run.impression needs.length (s.freeCount i c 0)
      (s.freeCount i c 1 + s.freeCount i c 2) q.nC
    s.modServe i fun v => { v with stallNow := v.stallNow ++ [key], stallEvents := v.stallEvents ++ [ev] }

/-- A candidate left out of the impression. -/
def State.leaveOut (s : State) (i key : Nat) (q : Req) (f : Fit) (last : Option Offer) : State :=
  let s := s.modServe i fun v =>
    { v with leftNow := v.leftNow ++ [key], adStalls := if f = .adapter then v.adStalls + 1 else v.adStalls }
  match f, last with
  | .folio c x, some o => s.wantFolio i key q c x o
  | _, _ => s

/-- Does a request wait for an adapter version whose plates stand in T1 (R362)? -/
def State.coldAdapter (s : State) (i : Nat) (q : Req) : Bool :=
  ((spGet none (s.imp i).serve.adapters q.adapterSlot).map (·.cold)).getD false

/-- The versions that candidates wait for are brought into T0 before the next opening (R362; log 121). -/
def State.warmAdapters (s : State) (i : Nat) (keys : List Nat) : State :=
  let slots := keys.filterMap fun k => (s.req i k).map (·.adapterSlot)
  s.modServe i fun v => { v with adapters := v.adapters.map fun x =>
    (x.1, x.2.map fun a => { a with cold := a.cold && !slots.contains x.1 }) }

/-- Serve one candidate; `x.2` says that a starved one before it blocks it (R203, R334). -/
def State.serveOne (i : Nat) (cut : Bool) (x : State × Bool) (key : Nat) : State × Bool :=
  match x.1.cfg i, x.1.req i key with
  | some g, some q =>
    let cold := x.1.coldAdapter i q
    let away := cold || !(x.1.away i key).isEmpty
    let isPrefix := x.1.copiesPrefix i key q
    let r : Fit × Option Offer × State :=
      if x.2 || away then (.slot, none, x.1)
      else x.1.trySteps i q (stepsFor g (x.1.imp i).serve cut isPrefix key q) .slot none
    if r.1 = .ok then (r.2.2, x.2)
    else ((r.2.2.leaveOut i key q r.1 r.2.1).count i .residencyWait (bit cold), x.2 || q.starved || decide (g.entry.starvation ≤ q.leftOut))
  | _, _ => x

/-- Offer steps to every candidate; when a chunk slot is taken, trees are cut and the offering is made again from the start (R337;
log 54). -/
def State.offerAll (s : State) (i : Nat) (keys : List Nat) : State :=
  let t := (keys.foldl (State.serveOne i false) (s, false)).1
  let tree := ((s.cfg i).map fun g => g.entry.spec == 2).getD false
  if tree && (t.imp i).serve.offers.any (fun o => o.kind == .chunk) then (keys.foldl (State.serveOne i true) (s, false)).1 else t

/-- Room for the final record of each cancel-marked request without a slot (R470). -/
def State.reserveCancels (s : State) (i : Nat) : State :=
  let v := (s.imp i).serve
  (v.ownLive.filter fun x => x.2.cancel && !(v.offers.any fun o => o.handle == x.1)).foldl
    (fun s x => s.reserveRet (i + 1) x.2.ret 1) s

/-! Rosters (R342 to R345; log 52). -/

/-- The members of a span. -/
def State.spanMembers (s : State) (k : Nat) : List Nat := ((s.topology.bind fun t => t.spans[k]?)).getD []

/-- The OPEN roster's entries. -/
def State.openEntries (s : State) (i : Nat) : List RosterEntry :=
  let v := (s.imp i).serve
  let es := (v.reqList.filter fun x => x.2.live && x.2.span.isSome).map fun x =>
    let q := x.2
    let o := v.offers.find? fun o => o.handle == x.1
    let full := match o with | some o => !o.narrowed | none => false
    let narrow := match o with | some o => o.narrowed | none => false
    (⟨q.handle, q.lead, q.isLead && q.isNew, q.isLead && q.cancel, full, narrow, 0,
      if q.isLead then (o.map (·.width)).getD 0 else 0⟩ : RosterEntry)
  sortBy (fun a b => decide (a.lead < b.lead) || (decide (a.lead = b.lead) && decide (a.handle < b.handle))) es

/-- Send a roster of a type to every other live member. -/
def State.sendRosters (s : State) (i type routed : Nat) (es : List RosterEntry) : State :=
  ((s.liveMembers i).filter (· != s.fab.endpoint)).foldl (fun s t =>
    s.sendRoster i t (s.rosterBytes i type es.length routed (s.imp i).run.impression (s.imp i).run.epoch t
      (rosterEntryBytes es))) s

/-- The roster of a type that a member has sent for this impression. -/
def State.rosterFrom (s : State) (i type e : Nat) : Option Roster :=
  (s.imp i).serve.rosters.find? fun r => r.type == type && r.source == e && r.impression == (s.imp i).run.impression

/-- Have all rosters of a type come? A member that refused this package's counts as missing (R519). -/
def State.rostersIn (s : State) (i type : Nat) : Bool :=
  ((s.liveMembers i).filter (· != s.fab.endpoint)).all fun e =>
    (s.rosterFrom i type e).isSome && !(s.imp i).serve.refused.contains e

/-- The entry for a spanning request in a member's OPEN roster. -/
def State.rosterEntry (s : State) (i type e : Nat) (q : Req) : Option RosterEntry :=
  (s.rosterFrom i type e).bind fun r => r.entries.find? fun x => x.handle == q.handle && x.lead == q.lead

/-- A spanning candidate's tentative folios return to Free (R344). -/
def State.dropOffer (s : State) (i key : Nat) : State :=
  (s.unreserve i key).modServe i fun v => { v with offers := v.offers.filter fun o => o.handle != key }

/-- Place a spanning candidate again with its proofs dropped, as the rosters ask; it is left out where that does not fit. -/
def State.reoffer (s : State) (i key : Nat) (q : Req) (o : Offer) : State :=
  match (s.dropOffer i key).tryOffer i q o with
  | (.ok, t) => t
  | (f, t) => t.leaveOut i key q f (some o)

/-- R344 for one spanning request that was offered a step here. A member offers the width that the lead gave last, which every package of
the span knows; where the lead's width is another now, no member's READY_FULL is for it, and the sequence is left out on every package
alike (R207; log 52). -/
def State.resolveSpan (s : State) (i : Nat) (o : Offer) : State :=
  match s.req i o.handle with
  | none => s
  | some q =>
    match q.span with
    | none => s
    | some k =>
      let others := ((s.spanMembers k).filter (· != s.fab.endpoint)).map fun e => s.rosterEntry i 0x21 e q
      let all := fun (p : RosterEntry → Bool) => others.all fun x => match x with | some e => p e | none => false
      let told := s.rosterEntry i 0x21 q.lead q
      let lead := if q.isLead then o.width else (told.map (·.width)).getD o.width
      let narrow := if q.isLead then o.narrowed else (told.map (·.narrow)).getD false
      let same := narrow || lead = max 1 q.spanWidth
      if same && !o.narrowed && all (·.full) then s
      else if same && all (fun e => e.full || e.narrow) then
        if o.narrowed then s
        else s.reoffer i o.handle q { o with kind := .decode, width := 1, fresh := 1, narrowed := true }
      else ((s.dropOffer i o.handle).leaveOut i o.handle q .slot none)

/-- The shadow record that a NEW entry makes (R342, R344): what a roster does not carry stays at zero. -/
def shadowOf (e : RosterEntry) (span admitted : Nat) : Req :=
  { handle := e.handle, state := .decode, ring := 0, ret := 0, tag := 0, keep := false, seed := 0, tau := 0, topP := 0, topK := 0, k := 0,
    stop := [], outLimit := 0, adapterId := 0xFFFF, adapterVer := 0, adapterSlot := 0xFFFF, prompt := [], nC := 0, length := 0,
    turn := 0, lastOut := none, dcopy := 0, cancel := false, rerun := 0, starved := false, stall := none, resumed := false,
    leftOut := 0, admitted := admitted, runnableAt := none, late := 0, prefixOf := none, span := some span, spanWidth := 0,
    lead := e.lead, isLead := false, isNew := false, lastCommit := 0, ended := none, flr := false }

/-- What one entry of a lead's roster tells a member: NEW, CANCEL, WIDTH. -/
def State.takeEntry (s : State) (i : Nat) (source : Nat) (e : RosterEntry) : State :=
  if e.lead ≠ source then s
  else
    let key := shadowKey e.lead e.handle
    let spans := (s.topology.map (·.spans)).getD []
    match s.req i key with
    | some _ => s.modReq i key fun q => { q with cancel := q.cancel || e.cancel, spanWidth := e.width }
    | none =>
      match (indexes (fun (m : List Nat) => m.contains source && m.contains s.fab.endpoint) spans).head? with
      | some k =>
        if !e.isNew then s
        else s.modServe i fun v =>
          { v with reqs := spPut none v.reqs key (some (shadowOf e k v.nextAdmit)), nextAdmit := v.nextAdmit + 1 }
      | none => s

/-- The OPEN rosters have come: spanning candidates are placed or left out, and the leads' entries are taken. -/
def State.takeOpenRosters (s : State) (i : Nat) : State :=
  let given := (s.imp i).serve.offers
  let s := given.foldl (fun s o => s.resolveSpan i o) s
  let s := given.foldl (fun s o => s.modReq i o.handle fun q => if q.isLead then { q with spanWidth := o.width } else q) s
  let rs := (s.imp i).serve.rosters.filter fun r => r.type == 0x21 && r.impression == (s.imp i).run.impression
  rs.foldl (fun s r => r.entries.foldl (fun s e => s.takeEntry i r.source e) s) s

/-- After the exchange no request is NEW any more (R344). -/
def State.clearNew (s : State) (i : Nat) : State :=
  s.modServe i fun v => { v with reqs := v.reqs.map fun x => (x.1, x.2.map fun q => { q with isNew := false }) }

/-! Minor editions (R504, R505). -/

/-- An edition event of an imprint (R513): on its VF's ring and the PF's. -/
def State.editionEvent (s : State) (i : Nat) (bytes : List Byte) : State := (s.event i bytes).pfEvent bytes

/-- A pending minor edition is dropped (R500, R505, R506): its COMMIT completes with DENIED, and a MINOR_DROPPED event is
written. -/
def State.dropMinor (s : State) : State :=
  match s.ed.pendingMinor with
  | none => s
  | some (e, ring, tag) =>
    let i := e.head.imprint
    let s := s.setEd fun d => { d with pendingMinor := none }
    ((s.editionEvent i (edEvent 0x0015 0 i e.head.edition (s.imp i).run.impression 0xFFFF 0 s.ed.number 0 0)).recordNow 0 ring
      (some (ticketRecord tag 0x0203 0x21 s.ed.number 0 0 false))).pfFences

/-- A pending minor edition applies at the opening of its EFFECTIVE impression, and is dropped when that has passed. -/
def State.applyMinor (s : State) (i : Nat) : State :=
  match s.ed.pendingMinor with
  | none => s
  | some (e, ring, tag) =>
    let n := (s.imp i).run.impression
    if e.head.imprint ≠ i || n < e.head.effective then s
    else if e.head.effective < n then s.dropMinor
    else match e.body with
      | .major _ => s
      | .minor m =>
        let s := s.modServe i fun v =>
          { v with placement := match m.placement with | some p => some p | none => v.placement,
                   adapterList := match m.adapters with | some a => some a | none => v.adapterList }
        (s.setEd fun d => { d with minors := d.minors ++ [e], number := e.head.edition, pendingMinor := none,
                                   minorDone := some (i, ring, tag) }).extend 5 e.digest

/-! The manifest (R196, R338 to R341). -/

/-- The slot entry of a placed step. -/
def slotFor (g : ImprintCfg) (cut : Bool) (o : Offer) (q : Req) (row0 area : Nat) : Slot :=
  let prompt := o.kind == .prompt || o.kind == .chunk
  let toks := if prompt then q.prompt.take o.fresh
    else (q.lastOut.getD 0) :: List.replicate (o.fresh - 1) 0
  let toks := toks ++ List.replicate (o.fresh - toks.length) 0
  let pars := if o.kind = .tree then treeTemplate g cut else []
  let proofs := o.kind == .tree || o.kind == .draft
  let parAt := area + 4 * o.fresh
  let last := prompt && q.isLead && decide (o.fresh = q.prompt.length)
  { request := o.handle, kind := o.kind,
    flags := bit q.cancel + 2 * bit q.span.isSome + 4 * bit (q.span.isSome && q.isLead) + 8 * bit o.narrowed + 16 * bit last
      + 32 * bit o.isPrefix,
    adapter := q.adapterSlot, nC := q.nC, width := o.width, fresh := o.fresh, seed := q.seed, tau := q.tau, topP := q.topP,
    topK := q.topK, tokens := toks, parents := pars, tripMask := if o.kind = .rerun then q.rerun else 0,
    adapterVer := q.adapterVer, dcopy := q.dcopy, tokensAt := area, parentsAt := if o.kind = .tree then parAt else 0,
    draftsAt := if proofs then roundUp (parAt + pars.length) 8 else 0, row0 := row0, rows := stepRows g o.kind o.fresh,
    lead := q.lead }

/-- Reserve-part bytes of a slot's lists: tokens, parents, and room for its draft lists. -/
def slotArea (t : Slot) : Nat :=
  if t.draftsAt = 0 then 4 * t.fresh else t.draftsAt - t.tokensAt + 8192 * t.fresh

/-- The slots of a region, the placed ones first, and the area after their lists. -/
def State.regionSlots (s : State) (i : Nat) (g : ImprintCfg) (cut : Bool) (reg : Region) (area : Nat) : List Slot × Nat :=
  let os := s.regionOffers i reg (s.imp i).serve.offers
  let x := os.foldl (fun (a : List Slot × Nat × Nat) o =>
    match s.req i o.handle with
    | none => a
    | some q =>
      let t := slotFor g cut o q a.2.1 a.2.2
      (a.1 ++ [t], a.2.1 + t.rows, a.2.2 + slotArea t)) ([], reg.firstRow g, area)
  let per := if reg = .decode then decodeRows g else if reg = .rerun then 1 else 0
  let rest := (List.range (reg.slots g - x.1.length)).map fun k => Slot.empty (x.2.1 + k * per) per
  (x.1 ++ rest, x.2.2)

/-- All slots, in region order. -/
def State.allSlots (s : State) (i : Nat) (g : ImprintCfg) (cut : Bool) (area : Nat) : List Slot :=
  ([Region.decode, .prompt, .chunk, .rerun].foldl (fun (a : List Slot × Nat) reg =>
    let x := s.regionSlots i g cut reg a.2
    (a.1 ++ x.1, x.2)) ([], area)).1

/-- R340's bytes. -/
def Slot.bytes (t : Slot) : List Byte :=
  if t.kind = .empty then List.replicate 64 0#8
  else leBytes 4 t.request ++ leBytes 1 t.kind.code ++ leBytes 1 t.flags ++ leBytes 2 t.adapter ++ leBytes 4 (t.nC % 2 ^ 25)
    ++ leBytes 2 t.width ++ leBytes 2 t.fresh ++ leBytes 8 t.seed.toNat ++ leBytes 4 t.tau.toNat ++ leBytes 4 t.topP.toNat
    ++ leBytes 4 t.topK ++ leBytes 4 t.tokensAt ++ leBytes 4 t.parentsAt ++ leBytes 4 t.draftsAt ++ leBytes 8 t.tripMask
    ++ leBytes 4 t.adapterVer ++ leBytes 4 t.dcopy

/-- R341's bytes. -/
def Shard.bytes (h : Shard) : List Byte := leBytes 8 (h.slot % 65536 + h.page % 2 ^ 34 * 2 ^ 16 + bit h.null * 2 ^ 50)

/-- The number of shard table entries: those that the attend tiles index (R304). -/
def State.shardCount (s : State) (i : Nat) : Nat := ((s.attends i).map fun x => x.2.shard + 1).foldl max 0

/-- Bind one shard slot (R196, R341): to the page of its sequence's own table that reads as its places, else to a composed page, whose
entries are answered with its address. -/
def State.bindShard (s : State) (i : Nat) (m : List Slot) (h : Nat) : Shard × Option (Nat × List Byte) :=
  match (s.attends i).find? fun x => x.2.shard == h with
  | none => (⟨0, 0, true⟩, none)
  | some (core, b) =>
    match slotAt m b.seq with
    | none => (⟨b.seq, 0, true⟩, none)
    | some t =>
      let v := (s.imp i).serve
      let ks := s.shardIndices i h b.seq t.request b.layer b.head t.nC
      let own := (v.wholePage t.request b.layer b.head ks).bind fun n => v.pages.find? fun p =>
        p.request == t.request && p.layer == b.layer && p.head == b.head && p.page == n
      match own with
      | some p => (⟨b.seq, p.addr, false⟩, none)
      | none =>
        let a := t0Addr core (sliceOff (Config.composedOffset i h))
        (⟨b.seq, a, false⟩, some (a, v.pageBytes t.request b.layer b.head ks))

/-- The header of R339. -/
def headerBytes (impression epoch edition mode : Nat) (counts : List Nat) (routed nDom tab n : Nat) : List Byte :=
  leBytes 8 impression ++ leBytes 4 epoch ++ leBytes 4 edition ++ leBytes 1 mode ++ leBytes 3 0
    ++ counts.flatMap (leBytes 2) ++ leBytes 4 routed ++ leBytes 4 nDom ++ leBytes 4 tab ++ leBytes 4 n
    ++ List.replicate 20 0#8

/-- Write bytes at an offset of the reserve parts 0 and 2 (R338). -/
def State.writeReserve (s : State) (off : Nat) (bs : List Byte) : State :=
  if bs.isEmpty then s else (s.t0Write (t0Addr 0xF0 off) bs).t0Write (t0Addr 0xF2 off) bs

/-- The occupied slots of each region. -/
def occupied (m : List Slot) : List Nat :=
  [Region.decode, .prompt, .chunk, .rerun].map fun r => (m.filter fun t => t.kind != .empty && t.kind.region == r).length

/-- The slots are final: they and the shard slots are bound, with the routed tokens of this package (R257). -/
def State.bindManifest (s : State) (i : Nat) : State :=
  match s.cfg i with
  | none => s
  | some g =>
    let total := g.serving.dCap + g.serving.pSeq + g.serving.cSeq + g.serving.rRes
    let n := s.shardCount i
    let cut := g.entry.spec == 2 && (s.imp i).serve.offers.any fun o => o.kind == .chunk
    let m := s.allSlots i g cut (g.entry.manifest + 64 + 64 * total + 8 * n)
    let s := (s.modRun i fun r => { r with manifest := m }).syncPages i
    let hs := (List.range n).map fun h => s.bindShard i m h
    let routed := (routedTokens m).length
    let s := (hs.filterMap (·.2)).foldl (fun s p => s.putPage p.1 p.2) s
    s.modRun i fun r => { r with manifest := m, shards := hs.map (·.1), routed := routed, nDom := routed }

/-- Write the manifest (R338, R339). -/
def State.writeManifest (s : State) (i : Nat) : State :=
  match s.cfg i with
  | none => s
  | some g =>
    let r := (s.imp i).run
    let cut := g.entry.spec == 2 && r.manifest.any fun t => t.kind == .chunk
    let mode := bit (s.imp i).serve.chunkNow + 2 * bit cut
    let tab := 64 + 64 * r.manifest.length
    let h := headerBytes r.impression r.epoch s.ed.number mode (occupied r.manifest) r.routed r.nDom tab r.shards.length
    let s := s.modRun i fun r => { r with header := h }
    let s := s.writeReserve g.entry.manifest (h ++ r.manifest.flatMap Slot.bytes ++ r.shards.flatMap Shard.bytes)
    r.manifest.foldl (fun s t =>
      (s.writeReserve t.tokensAt (u32Bytes t.tokens)).writeReserve t.parentsAt (t.parents.map (BitVec.ofNat 8))) s

/-- The first impression's copies of prefixes (R213). -/
def State.copyPrefixes (s : State) (i : Nat) : State :=
  (s.imp i).serve.offers.foldl (fun s o =>
    match (s.req i o.handle).bind (·.prefixOf) with
    | some (src, n) =>
      if o.isPrefix then (List.range (ceilDiv n 256)).foldl (fun s k => s.copyPrefix i o.handle src n k) s else s
    | none => s) s

/-! The command. -/

/-- Does a layer of the placement have the GROUP domain? -/
def State.groupDomain (s : State) (i : Nat) : Bool := ((s.placement i).map fun p => p.layers.any (·.group)).getD false

/-- The manifest is final and its counts are known: it is written, spills start, and the impression runs. -/
def State.finishOpening (s : State) (i : Nat) : State :=
  let s := (s.writeManifest i).modServe i fun v => { v with phase := .running }
  (s.spillMarks i)

/-- COUNT rosters have come (R345). -/
def State.takeCounts (s : State) (i : Nat) : State :=
  let rs := (s.imp i).serve.rosters.filter fun r => r.type == 0x23 && r.impression == (s.imp i).run.impression
  s.modRun i fun r => { r with nDom := r.routed + (rs.map (·.routed)).sum }

/-- After the exchange of OPEN rosters. -/
def State.afterRosters (s : State) (i : Nat) : State :=
  let s := (((s.clearNew i).applyMinor i).copyPrefixes i).bindManifest i
  if s.groupDomain i && decide (1 < (s.liveMembers i).length) then
    (s.sendRosters i 0x23 (s.imp i).run.routed []).modServe i fun v => { v with phase := .countRosters }
  else s.finishOpening i

/-- Go on with an opening as far as the rosters received take it. -/
def State.continueOpening (s : State) (i : Nat) : State :=
  let s := if (s.imp i).serve.phase = .openRosters && s.rostersIn i 0x21 then (s.takeOpenRosters i).afterRosters i else s
  if (s.imp i).serve.phase = .countRosters && s.rostersIn i 0x23 then (s.takeCounts i).finishOpening i else s

/-- The opening's decisions up to the rosters (R315, R325). -/
def State.planOpening (s : State) (i : Nat) : State :=
  match s.cfg i with
  | none => s
  | some g =>
    let s := (s.fixPorts i).clearRun i
    let s := s.admitRounds i (g.entry.admitBudget + 1)
    let v := (s.imp i).serve
    let s := s.modServe i fun v =>
      { v with chunkNow := chunkFlag g v.chunking v.waitingTokens, offers := [], leftNow := [], adStalls := 0, stallNow := [],
               stallEvents := [], rosters := v.rosters.filter fun r => r.impression == (s.imp i).run.impression }
    let keys := s.candidates i
    let s := (((s.wake i keys).offerAll i keys).warmAdapters i keys).reserveCancels i
    if decide (1 < (s.liveMembers i).length) && v.phase = .closed then
      (s.sendRosters i 0x21 0 (s.openEntries i)).modServe i fun v => { v with phase := .openRosters }
    else s.afterRosters i

/-- IMPRESSION_OPENING (R315, R325 to R348): the OPEN quoin's work. It is done at once where the package is alone in its lock-step
set; otherwise it waits for rosters, and the command given again goes on with it. -/
def execImpressionOpening (i : Fin 16) (hostWords : List (Nat × Option (BitVec 32))) (s : State) :
    Host.Outcome State Fault Refusal :=
  let p := (s.imp i.val).serve.phase
  if !s.stopped && !s.heldOrNone i.val && (p == .openRosters || p == .countRosters) then .next (s.continueOpening i.val).settle
  else if !s.mayOpen i.val then .next s
  else
    let s := s.beginOpening i.val false
    if s.stepWaits i.val then .next s
    else
      let s := hostWords.foldl (fun s x => s.readHostWord i.val x) s
      .next ((s.planOpening i.val).settle.continueOpening i.val).settle

/-- STARVATION_LIMIT (R203, R334): a sequence left out for the imprint's starvation limit blocks later ones until it is served. -/
def execStarvationLimit (i : Fin 16) (handle : Nat) (s : State) : Host.Outcome State Fault Refusal :=
  match s.cfg i.val, s.req i.val handle with
  | some g, some q =>
    if !s.stopped && decide (g.entry.starvation ≤ q.leftOut) then .next (s.modReq i.val handle fun q => { q with starved := true })
    else .next s
  | _, _ => .next s

/-- MORGUE_LATE (R221): a request whose lateness count has reached the limit joins the damage list with that status, and ends at
the impression's commit. -/
def execMorgueLate (i : Fin 16) (handle : Nat) (s : State) : Host.Outcome State Fault Refusal :=
  match s.cfg i.val, s.req i.val handle with
  | some g, some q =>
    if !s.stopped && decide (g.entry.lateness ≤ q.late) then
      .next (s.addDamage i.val ⟨.request handle, 0x0303, .request handle, none⟩)
    else .next s
  | _, _ => .next s

end Sys2Proof.Machine
end

