-- ==== Sys2Proof/Machine/Commit.lean ====
section
/-!
DEFINITION. Quoins and the commit (R113 to R122, R208 to R212, R313 to R319, R346, R355 to R363, R375 to R378, R416, R467 to R470,
R499, R516 to R520, R529, R530, R614).
-/
namespace Sys2Proof.Machine

open Sys2Proof

/-! Quoins (R310, R313 to R315, R530). -/

/-- The quoin at which a job stands on all of its cores (R313). -/
def State.jobQuoin (s : State) (i job : Nat) : Option QuoinEntry :=
  match s.cfg i with
  | none => none
  | some g =>
    let cores := (g.schedule.streams.filter fun x => x.job == job).map (·.core)
    if cores.isEmpty then none
    else g.schedule.quoins.find? fun q => q.job == job && cores.all fun c => (s.core c).reached job == some q.index

/-- The cores of a job. -/
def State.jobCores (s : State) (i job : Nat) : List Nat :=
  match s.cfg i with
  | none => []
  | some g => (g.schedule.streams.filter fun x => x.job == job).map (·.core)

/-- Have a quoin's flag words received their stores in this impression and epoch (R314, R420)? -/
def State.arrived (s : State) (i job : Nat) (q : QuoinEntry) : Bool :=
  q.arrivals.all fun a => (s.imp i).serve.arrivals.contains a.1
    && ofLeBytes (memRead s.t0.bytes a.1 8) == s.jobNumber i job

/-- Have all replies of a job come (R310)? -/
def State.repliesIn (s : State) (i job : Nat) : Bool :=
  (s.jobCores i job).all fun c => ((s.core c).job job).replies.all fun r => r.data.isSome

/-- In Fixed timing, has every T2 transfer that an earlier quoin started completed or failed (R217, R314)? -/
def State.t2Settled (s : State) (i : Nat) : Bool :=
  match s.cfg i with
  | none => true
  | some g => !g.entry.fixed || (s.imp i).serve.folioList.all fun x => match x.2.move with
    | some m => !m.t2 || !m.started || m.done || m.failed
    | none => true

/-- Has the Compositor finished its work at a quoin (R315)? Jobs other than job 0 have none (log 47). -/
def State.workDone (s : State) (i job : Nat) (k : QuoinKind) : Bool :=
  let p := (s.imp i).serve.phase
  if job ≠ 0 then true else match k with
    | .opening => p == .running
    | .mid => p == .running
    | .closing => p == .closed && !(s.imp i).serve.begun

/-- A core resumes: its counters are zero, its replies are admitted, and those of a held context written (R310, R314, R323). -/
def State.resumeCore (s : State) (i job core : Nat) : State :=
  let s := s.modCore core fun c => c.modJob job fun x =>
    { x with atQuoin := none, ctrs := [], replies := x.replies.map fun r => { r with admitted := true } }
  if (s.core core).heldJob job then
    let w := s.writeReplies i ((s.core core).job job).replies
    w.2.modCore core fun c => c.modJob job fun x => { x with replies := w.1 }
  else s

/-- The lock-step set of an imprint, with its settings (R342, R530). -/
def State.setCfg (s : State) (i : Nat) : Option LockSet :=
  match s.cfg i, s.topology with
  | some g, some t => t.sets[g.entry.set]?
  | _, _ => none

/-- R530: a wait beyond LAG_WAIT that ended on a member's arrival counts against it. -/
def State.countLag (s : State) (i waitUs : Nat) (last : Option Nat) : State :=
  match s.setCfg i, last with
  | some t, some e =>
    if t.lagWaitUs < waitUs && t.members.contains e && e ≠ s.fab.endpoint then
      s.modServe i fun v => { v with lateness := spMod 0 v.lateness e (· + 1) }
    else s
  | _, _ => s

/-- Issue cycles removed while an impression runs void its timing (R372). -/
def State.noteLimiter (s : State) : State :=
  if s.issueLevel = 64 then s
  else s.imprintList.foldl (fun s i =>
    if (s.imp i).serve.phase == .running then
      s.modServe i fun v =>
        { v with timingVoid := v.timingVoid ||| (if s.inFloor then 2 else 1) }
    else s) s

/-- QUOIN_RELEASE (R314, R315, R530): when everything a quoin waits for has come, every core of the job resumes. `waitUs` and `last`
say how long the wait was and which member's arrival ended it. -/
def execQuoinRelease (i : Fin 16) (job : Fin 8) (waitUs : Nat) (last : Option Nat) (s : State) :
    Host.Outcome State Fault Refusal :=
  let i := i.val
  let j := job.val
  match s.jobQuoin i j with
  | none => .next s
  | some q =>
    if s.stopped || s.heldOrNone i || !s.workDone i j q.kind || !s.arrived i j q || !s.repliesIn i j || !s.t2Settled i then
      .next s
    else
      let s := (s.jobCores i j).foldl (fun s c => s.resumeCore i j c) s
      let s := s.countLag i waitUs last
      let s := if j ≠ 0 then s else if q.kind = .opening then s.startCarried i else s.quoinMoves i
      let s := if j ≠ 0 && q.kind = .closing then s.modRun i fun r => { r with jobImp := spMod 0 r.jobImp j (· + 1) } else s
      let s := if j = 0 && q.kind = .opening && (s.imp i).serve.recovering then
          s.modServe i fun v => { v with recoverUs := ceilDiv (s.cycle - v.recoverAt) 2700 } else s
      .next s.noteLimiter.settle

/-- LAGGARD (R530): a member's count has reached LAG_COUNT in this window: one event. -/
def execLaggard (i : Fin 16) (endpoint : Nat) (s : State) : Host.Outcome State Fault Refusal :=
  let v := (s.imp i.val).serve
  match s.setCfg i.val with
  | none => .next s
  | some t =>
    let n := spGet 0 v.lateness endpoint
    if s.stopped || s.heldOrNone i.val || n < t.lagCount || v.lagged.contains endpoint then .next s
    else
      let s := s.modServe i.val fun v => { v with lagged := v.lagged ++ [endpoint] }
      .next (s.event i.val
        (faultEvent 0x0025 0 0 endpoint (s.imp i.val).run.impression (s.imp i.val).run.epoch n 0 0))

/-- LAG_WINDOW_RESTART (R530): the counts restart once at each impression whose number is a multiple of 1,024. -/
def execLagWindowRestart (i : Fin 16) (s : State) : Host.Outcome State Fault Refusal :=
  let n := (s.imp i.val).run.impression
  if s.stopped || s.heldOrNone i.val || n % 1024 ≠ 0 || (s.imp i.val).serve.lagWindow = n / 1024 then .next s
  else .next (s.modServe i.val fun v => { v with lateness := [], lagged := [], lagWindow := n / 1024 })

/-! Statuses (R518, R519, R520). -/

/-- The place of a status in R518's order. -/
def statusRank (st : Nat) : Nat := [0x0300, 0x0301, 0x0302, 0x0600, 0x0601, 0x0303, 0x0101, 0x0700, 0x0100].idxOf st

/-- The status that comes first. -/
def worst : List Nat → Option Nat
  | [] => none
  | x :: xs => match worst xs with
    | none => some x
    | some y => some (if statusRank x ≤ statusRank y then x else y)

/-- The shared tensors that the damage list names, with their statuses. -/
def Serve.sharedDamage (v : Serve) : List (Nat × Nat) :=
  v.damage.filterMap fun d => match d.owner with
    | .shared t => some (t, d.status)
    | .request _ => none

/-- The statuses that damage to shared data gives a request with rows in the impression (R152, R516). -/
def Serve.sharedFor (v : Serve) (key : Nat) : List Nat :=
  v.damage.filterMap fun d => match d.owner with
    | .shared _ => if (d.requests.map (·.contains key)).getD true then some d.status else none
    | .request _ => none

/-- The statuses that the damage list gives a request. -/
def Serve.damageOf (v : Serve) (key : Nat) : List Nat :=
  (v.damage.filter fun d => d.owner == .request key).map (·.status)

/-- R529: is a spanning request ended by the recovery that this impression completes? -/
def State.spanLost (s : State) (i : Nat) (q : Req) : Bool :=
  let v := (s.imp i).serve
  match q.span with
  | none => false
  | some k =>
    let ms := s.spanMembers k
    let lasts := ms.filterMap fun e => (v.lastReports.find? fun x => x.1 == e).map (·.2)
    v.recovering && (ms.any (fun e => v.removed.contains e) || lasts.any fun x => x != lasts.headD 0)

/-- Statuses other than DENSITY_TRIP and CANCELLED that end a request at this commit; `n` is its slot. -/
def State.reasons (s : State) (i key : Nat) (q : Req) (n : Option Nat) : List Nat :=
  let v := (s.imp i).serve
  let r := (s.imp i).run
  let late := ((s.cfg i).map (·.entry.lateness)).getD 4
  v.damageOf key ++ s.refusedFor i key n.isSome
    ++ (match n with
      | some n => (r.hurt.filter fun x => x.1 == n).map (·.2) ++ (r.rowStatus.filter fun x => x.1 == n && x.2 != 0).map (·.2)
          ++ v.sharedFor key
      | none => [])
    ++ (if late ≤ q.late then [0x0303] else []) ++ (if s.spanLost i q then [0x0101] else [])

/-! Trips (R114 to R121). -/

/-- One slot's trips, summed up (R121). -/
structure TripSum where
  mask : Nat
  pos : Nat
  watch : Nat
  jump : Nat
  nonfinite : Bool
  gradient : Bool
deriving DecidableEq, Repr

/-- JUMP of R121, as its 16 bits. -/
def jumpBits (t : Trip) : Nat :=
  if t.nonfinite then 0x7FFF
  else
    let j := t.jump.tdiv 16
    let j := if 32767 < j then 32767 else if j < -32768 then -32768 else j
    (j % 65536).toNat

/-- The trips of a slot. Where several rows or watch points trip, JUMP and the gradient flag are those of the first trip at the lowest watch
point, and the non-finite flag is set by any (DESIGN CHOICE, log 116). -/
def sumTrips (ts : List Trip) (n : Nat) : Option TripSum :=
  match ts.filter fun t => t.slot == n with
  | [] => none
  | t :: us =>
    let all := t :: us
    let w := (all.map (·.watch)).foldl min t.watch
    let first := (all.find? fun x => x.watch == w).getD t
    some { mask := ((nub (all.map (·.watch))).map fun w => 2 ^ w).sum, pos := (all.map (·.pos)).foldl min t.pos, watch := w,
           jump := jumpBits first, nonfinite := all.any (·.nonfinite), gradient := first.gradient }

/-- What a commit decides for a slot: its request, trips, R121's ACTION and excess flag, the status that ends it, and whether it
owes a re-run. -/
structure SlotEnd where
  n : Nat
  t : Slot
  q : Req
  trip : Option TripSum
  action : Nat
  excess : Bool
  status : Option Nat
  owes : Bool
deriving DecidableEq, Repr

/-- A slot's outcome before R118's reserve is counted (R117, R119, R120). A cancelled request whose trip R118 makes an
end takes DENSITY_TRIP by the order of R120 (DEDUCED, log 115). -/
def State.slotEnd (s : State) (i : Nat) (g : ImprintCfg) (n : Nat) (t : Slot) (q : Req) : SlotEnd :=
  let own := s.reasons i t.request q (some n)
  let trip := sumTrips (s.imp i).run.trips n
  let d := g.density
  let prompt := t.kind == .prompt || t.kind == .chunk
  match trip with
  | none => ⟨n, t, q, none, 0, false, worst own, false⟩
  | some x =>
    match d.action with
    | .flag => ⟨n, t, q, trip, 0, false, worst own, false⟩
    | .endReq => ⟨n, t, q, trip, 2, false, worst (own ++ [0x0700]), false⟩
    | .escalate =>
      if prompt then ⟨n, t, q, trip, 0, false, worst own, false⟩
      else if t.kind = .rerun || x.mask &&& d.shadow ≠ x.mask then ⟨n, t, q, trip, 3, false, worst (own ++ [0x0700]), false⟩
      else ⟨n, t, q, trip, 1, false, worst own, true⟩

/-- Count the escalated sequences against the reserve, in manifest order (R118). -/
def countReserve : Nat → List SlotEnd → List SlotEnd
  | _, [] => []
  | left, x :: xs =>
    if !x.owes then x :: countReserve left xs
    else if x.status.isSome || x.q.cancel then { x with owes := false } :: countReserve left xs
    else match left with
      | 0 => { x with owes := false, action := 3, excess := true, status := some 0x0700 } :: countReserve 0 xs
      | k + 1 => x :: countReserve k xs

/-- What the CLOSE rosters give a slot's request (R346). -/
def State.rosterStatus (s : State) (i : Nat) (q : Req) : List Nat :=
  if q.span.isNone then []
  else ((s.imp i).serve.rosters.filter fun r => r.type == 0x22 && r.impression == (s.imp i).run.impression).filterMap fun r =>
    (r.entries.find? fun e => e.handle == q.handle && e.lead == q.lead && e.status != 0).map (·.status)

/-- The outcomes of the occupied slots, in slot order (R357 steps 1 and 2). -/
def State.slotEnds (s : State) (i : Nat) : List SlotEnd :=
  match s.cfg i with
  | none => []
  | some g =>
    let xs := (s.imp i).run.manifest.zipIdx.filterMap fun x =>
      if x.1.kind = .empty then none else (s.req i x.1.request).bind fun q => if q.live then some (s.slotEnd i g x.2 x.1 q) else none
    let xs := xs.map fun x => { x with status := worst (x.status.toList ++ s.rosterStatus i x.q) }
    countReserve (min g.density.reserve g.schedule.reserve) xs

/-! Outputs (R354, R355, R358). -/

/-- The decisions along the accepted path of a step, by fuel. -/
def acceptedPath (ds : List Decision) : Nat → Nat → List Decision
  | 0, _ => []
  | k + 1, node =>
    match ds[node]? with
    | none => []
    | some d => match d.child with
      | some c => if c ≤ node then [d] else d :: acceptedPath ds k c
      | none => [d]

/-- The decisions whose tokens are a step's outputs (R355). -/
def pathOf (t : Slot) (ds : List Decision) : List Decision :=
  if t.kind = .prompt || t.kind = .chunk then (if bitOf t.flags 4 then ds.getLast?.toList else [])
  else acceptedPath ds 65 0

/-- Outputs up to the first that ends generation (R358): those returned, how many of them accepted proofs gave, the status that ended
generation (OK or OK_AT_LIMIT), and the last output when it was sampled. -/
structure Outputs where
  outs : List Nat
  accepted : Nat
  ended : Option Nat
  last : Option Nat
deriving DecidableEq, Repr

/-- Take outputs in order (R358). -/
def takeOutputs (q : Req) : List Decision → Outputs → Outputs
  | [], o => o
  | d :: ds, o =>
    let n := o.outs.length + 1
    let o' : Outputs := { outs := o.outs ++ [d.token], accepted := o.accepted + bit d.child.isSome, ended := none,
                          last := if d.child.isSome then none else some d.token }
    if 16777216 ≤ q.length + n then { o' with ended := some 2 }
    else if q.stop.contains d.token || decide (q.outLimit ≤ q.turn + n) then { o' with ended := some 0 }
    else takeOutputs q ds o'

/-- The outputs of a committing slot; a turn whose output limit is 0 ends with its last prompt token (R358). -/
def slotOutputs (t : Slot) (q : Req) (ds : List Decision) : Outputs :=
  let p := pathOf t ds
  if bitOf t.flags 4 && q.outLimit = 0 then ⟨[], 0, some 0, none⟩ else takeOutputs q p ⟨[], 0, none, none⟩

/-! Records (R467, R469, R470, R377). -/

/-- The records of a step: RESUMED on the first, FINAL or IDLE on the last, MORE on the others. -/
def slotRecords (handle status flags first last len0 : Nat) (outs : List Nat) : List (List Byte) :=
  let cs := if outs.isEmpty then [[]] else chunks 5 outs
  cs.zipIdx.map fun x =>
    let isLast := x.2 + 1 = cs.length
    genRecord handle (if isLast then status else 0) x.1
      (flags ||| (if x.2 = 0 then first else 0) ||| (if isLast then last else 4)) (len0 + 5 * x.2 + x.1.length)

/-- A slot's effect on what a commit writes: the state, the records in order with their rings, and the requests that end with
their statuses. -/
structure Closing where
  s : State
  records : List (Nat × List Byte)
  ended : List (Nat × Nat)

/-- Does a record cover its request's end? One that a Function Level Reset ends writes none (R478). -/
def Closing.put (c : Closing) (q : Req) (rs : List (List Byte)) : Closing :=
  if q.flr || !q.isLead then c else { c with records := c.records ++ rs.map fun r => (q.ret, r) }

/-- A slot whose results are discarded (R211, R357 step 2). -/
def Closing.discard (c : Closing) (i : Nat) (x : SlotEnd) (st flags : Nat) : Closing :=
  let first := if x.q.resumed || x.q.stall.isSome then 16 else 0
  let c := c.put x.q (slotRecords x.q.handle st flags first 2 x.q.length [])
  { c with s := c.s.unreserve i x.t.request, ended := c.ended ++ [(x.t.request, st)] }

/-- R115: a slot that had no row at a watch point has that entry copied. -/
def State.keepDensity (s : State) (i : Nat) (t : Slot) : State :=
  (((s.cfg i).map (·.formats.watch)).getD []).zipIdx.foldl (fun s x =>
    if (s.imp i).run.observed.any fun o => o.1 == x.2 && decide (t.row0 ≤ o.2) && decide (o.2 < t.row0 + t.fresh) then s
    else let r := s.densityRead i x.1 t.request t.dcopy; r.2.densityWrite i x.1 t.request (1 - t.dcopy) r.1) s

/-- A slot whose results commit (R208, R209, R115, R211, R358, R363). -/
def Closing.commit (c : Closing) (i : Nat) (x : SlotEnd) (o : Outputs) (ended : Option Nat) (flags : Nat) : Closing :=
  let t := x.t
  let q := x.q
  let key := t.request
  let imp := (c.s.imp i).run.impression
  let prompt := t.kind == .prompt || t.kind == .chunk
  let proofs := t.kind == .draft || t.kind == .tree
  let path := pathOf t (spGet [] (c.s.imp i).run.decisions x.n)
  let kept := if prompt then t.fresh else 1 + o.accepted
  let idle := ended = some 0 && q.keep
  let final := if idle then none else ended
  let s := (c.s.commitFolios i key q.nC (q.nC + kept) imp).releaseWindow i key (q.nC + kept)
  let s := s.keepDensity i t
  let resumed := q.resumed || q.stall.isSome
  let writes := !o.outs.isEmpty || ended.isSome || resumed
  let s := s.modReq i key fun q =>
    { q with nC := q.nC + kept, prompt := if prompt then q.prompt.drop t.fresh else q.prompt,
             length := q.length + o.outs.length, turn := q.turn + o.outs.length,
             state := if idle then .idle else if prompt && bitOf t.flags 4 then .decode else q.state,
             lastOut := if o.outs.isEmpty then (if prompt then none else q.lastOut) else o.last,
             dcopy := 1 - t.dcopy, prefixOf := none, rerun := if t.kind = .rerun then 0 else q.rerun, lastCommit := imp,
             resumed := resumed && !writes }
  let s := s.count i .promptTokens (if prompt then t.fresh else 0)
  let s := s.count i .outputTokens o.outs.length
  let s := s.count i .proofs (if proofs then t.fresh - 1 else 0)
  let s := s.count i .accepted (if proofs then (path.filter fun d => d.child.isSome).length else 0)
  let s := s.count i .samplingFaults (path.filter (·.noLogit)).length
  let last := if idle then 64 else if final.isSome then 2 else 0
  let c := { c with s := s, ended := match final with | some st => c.ended ++ [(key, st)] | none => c.ended }
  if writes then c.put q (slotRecords q.handle (final.getD 0) flags (if resumed then 16 else 0) last q.length o.outs) else c

/-- Decide one slot (R357 steps 2 and 3, R359, R499). What a function level reset ends is CANCELLED, never late (R478, R483). -/
def Closing.slot (i : Nat) (void drain : Bool) (c : Closing) (x : SlotEnd) : Closing :=
  let flags := 8 * bit void + 32 * bit (bitOf x.t.flags 3)
  match x.status with
  | some st => c.discard i x st flags
  | none =>
    if x.owes && !drain then
      let s := (c.s.unreserve i x.t.request).modReq i x.t.request fun q =>
        { q with rerun := (x.trip.map (·.mask)).getD 0, resumed := q.resumed || q.stall.isSome }
      { c with s := s.count i .escalations 1 }
    else
      let o := slotOutputs x.t x.q (spGet [] (c.s.imp i).run.decisions x.n)
      if drain then c.discard i x 0x0100 flags
      else if x.q.cancel then
        if !x.q.flr && o.ended.isSome && !o.outs.isEmpty && (x.trip.isNone || x.action == 0) then
          c.commit i { x with q := { x.q with keep := false } } o (some 1) flags
        else c.discard i x 0x0100 flags
      else c.commit i x o o.ended flags

/-- Requests that end without a slot in this impression, in ascending handle (R357 step 4, R359, R516, R499). -/
def State.slotless (s : State) (i : Nat) (drain : Bool) : List (Nat × Req × Nat) :=
  let m := (s.imp i).run.manifest
  ((s.imp i).serve.reqList.filter fun x => x.2.live && !(m.any fun t => t.kind != .empty && t.request == x.1)).filterMap fun x =>
    (worst (s.reasons i x.1 x.2 none ++ (if x.2.cancel || drain then [0x0100] else []))).map fun st => (x.1, x.2, st)

/-- End one without a slot. -/
def Closing.slotless (i : Nat) (void : Bool) (c : Closing) (x : Nat × Req × Nat) : Closing :=
  let c := c.put x.2.1 (slotRecords x.2.1.handle x.2.2 (8 * bit void) (if x.2.1.resumed || x.2.1.stall.isSome then 16 else 0) 2
    x.2.1.length [])
  { c with s := c.s.unreserve i x.1, ended := c.ended ++ [(x.1, x.2.2)] }

/-! Ended requests (R212, R362, R470, R478). -/

/-- Adapter versions that are no longer current and that no request is bound to free their slots (R362). -/
def State.freeAdapters (s : State) (i : Nat) : State :=
  s.modServe i fun v => { v with adapters := v.adapters.filter fun x => match x.2 with
    | some a => a.current || a.pendingCurrent || decide (0 < a.bound)
    | none => false }

/-- A request has ended: its folios go, its adapter is released, it is counted, and it waits for its final record. -/
def State.endRequest (s : State) (i : Nat) (x : Nat × Nat) : State :=
  match s.req i x.1 with
  | none => s
  | some q =>
    let s := s.dropFolios i x.1 fun _ => true
    let s := if q.isLead && q.adapterId ≠ 0xFFFF then
        s.modServe i fun v => { v with adapters := v.adapters.map fun y =>
          if y.1 = q.adapterSlot then (y.1, y.2.map fun a => { a with bound := a.bound - 1 }) else y }
      else s
    let s := s.modReq i x.1 fun q => { q with ended := some x.2 }
    if !q.isLead then s
    else if x.2 = 0x0100 then s.count i .cancelled 1
    else if x.2 = 0x0001 then s.count i .lateCancels 1
    else if x.2 = 0x0303 then s.count i .morgueLate 1 else s

/-- Does a generation record with FINAL for a handle still wait for room (R470)? -/
def Fn.waitsFinal (x : Fn) (handle : Nat) : Bool :=
  x.rings.any fun r => match r.2 with
    | some k => k.backlog.any fun b =>
        !bitOf (ofLeBytes ((b.drop 7).take 1)) 0 && bitOf (ofLeBytes ((b.drop 7).take 1)) 1 && ofLeBytes (b.take 4) == handle
    | none => false

/-- Free the handles of ended requests whose final record is written (R470, R478). -/
def State.freeHandles (s : State) (i : Nat) : State :=
  let x := s.fn (i + 1)
  let gone := ((s.imp i).serve.reqList.filter fun y =>
    y.2.ended.isSome && (y.2.flr || !y.2.isLead || !x.waitsFinal y.2.handle)).map (·.1)
  s.modServe i fun v => { v with reqs := v.reqs.filter fun y => !gone.contains y.1 }

/-! Events of the commit. -/

/-- A DENSITY event (R121). -/
def densityEvent (x : SlotEnd) (t : TripSum) (impression : Nat) : List Byte :=
  leBytes 2 0x0040 ++ leBytes 1 x.action ++ leBytes 1 (bit t.gradient + 2 * bit t.nonfinite + 4 * bit x.excess)
    ++ leBytes 4 x.q.handle ++ leBytes 8 impression ++ leBytes 8 t.mask ++ leBytes 4 (t.pos % 2 ^ 25) ++ leBytes 2 t.watch
    ++ leBytes 2 t.jump

/-- DENSITY events of a commit, by the lead alone (R342), of the trips that it saw: a CLOSE roster carries a status alone, so a trip on
another member of a span writes none (DESIGN CHOICE, log 114). -/
def densityEvents (xs : List SlotEnd) (impression : Nat) : List (List Byte) :=
  xs.filterMap fun x => match x.trip with
    | some t => if x.q.isLead then some (densityEvent x t impression) else none
    | none => none

/-- DAMAGE events (R520): the first says that the imprint entered Held. -/
def damageEvents (xs : List (Nat × Nat)) (ended : List (Nat × Nat)) (impression epoch : Nat) : List (List Byte) :=
  xs.zipIdx.map fun x => faultEvent 0x0022 0 (bit (decide (x.2 = 0))) x.1.1 impression epoch x.1.2
    (ended.filter fun e => e.2 == x.1.2).length 0

/-- PEER_LOST and RECOVERED events (R529). -/
def State.recoverEvents (s : State) (i : Nat) (ended : List (Nat × Nat)) : List (List Byte) :=
  let v := (s.imp i).serve
  let r := (s.imp i).run
  if !v.recovering then []
  else (v.newRemoved.map fun e => faultEvent 0x0024 0 0 e r.impression r.epoch 0 0 0)
    ++ [faultEvent 0x0021 0 0 0 r.impression r.epoch v.recoverUs (ended.filter fun e => e.2 == 0x0101).length
        (s.liveMembers i).length]

/-- A LINK event (R416). -/
def State.linkEvent (s : State) (p impression : Nat) : List Byte :=
  let x := s.port p
  leBytes 2 0x0060 ++ leBytes 1 p ++ leBytes 1 x.state.code ++ leBytes 1 x.reason ++ leBytes 1 x.wire ++ leBytes 2 0
    ++ leBytes 8 impression ++ leBytes 4 x.peer ++ leBytes 1 x.peerPort ++ leBytes 1 x.peerKind ++ List.replicate 10 0#8

/-- Ports whose change of STATE an imprint has still to be told (R416). -/
def State.newsFor (s : State) (i : Nat) : List Nat := (List.range 20).filter fun p => (s.port p).news.contains i

/-- Void causes of the impression (R372). -/
def State.voidBits (s : State) (i : Nat) (t : ImpTiming) : Nat :=
  let v := (s.imp i).serve
  let inter := ((s.cfg i).map (·.entry.interleaved)).getD false
  v.timingVoid ||| 4 * bit v.retire ||| 8 * bit inter ||| 16 * bit t.neighbour

/-- MANIFEST_CRC (R376), over the manifest as the opening wrote it (log 57). -/
def Run.manifestCrc (r : Run) : Nat :=
  crc32c (List.replicate 12 0#8 ++ r.header.drop 12 ++ r.manifest.flatMap Slot.bytes ++ r.shards.flatMap Shard.bytes
    ++ r.manifest.flatMap fun t => u32Bytes t.tokens ++ t.parents.map (BitVec.ofNat 8))

/-- OUTPUT_CRC (R376), over the generation records in the order written. -/
def outputCrc (rs : List (List Byte)) : Nat :=
  crc32c (rs.flatMap fun b => b.take 6 ++ (b.drop 6).take 1 ++ [0#8] ++ (b.drop 12).take (4 * ofLeBytes ((b.drop 6).take 1)))

/-- An IMPRESSION event of a job (R376). -/
def State.impressionEvent (s : State) (i job : Nat) (t : ImpTiming) (void outCrc : Nat) : List Byte :=
  let fixed := ((s.cfg i).map (·.entry.fixed)).getD true
  leBytes 2 0x0050 ++ leBytes 1 (bit fixed + 2 * bit (fixed && void != 0) + 4 * bit (s.imp i).serve.stepped + 8 * bit t.localWork
      + 16 * job)
    ++ leBytes 1 void ++ leBytes 4 t.segment ++ leBytes 8 (s.imp i).run.impression ++ leBytes 4 t.wait
    ++ leBytes 4 (t.longest % 1024 + (if t.localWork then 0 else t.endpoint % 2 ^ 18 * 1024)) ++ leBytes 4 (s.imp i).run.manifestCrc
    ++ leBytes 4 outCrc

/-- A measured timing that the command does not give counts as nothing on local work. -/
def noTiming : ImpTiming := ⟨0, 0, 0, 0, true, false⟩

/-- The IMPRESSION events that REPORT asks for; 0b11 acts as 0b10 (R375, R379). -/
def State.impressionEvents (s : State) (i : Nat) (ts : List ImpTiming) (outCrc : Nat) : List (List Byte) :=
  let n := max 1 (((s.cfg i).map (·.schedule.jobs)).getD 1)
  let report := (s.imp i).report
  (List.range n).filterMap fun j =>
    let t := ts.getD j noTiming
    let void := s.voidBits i t
    if 2 ≤ report || (report = 1 && void ≠ 0) then some (s.impressionEvent i j t void outCrc) else none

/-! The commit step (R208, R209; log 108). -/

/-- The fresh entries that a step keeps, in the order of their positions (R209): all of a plain or prompt step's; of a draft or tree step's
the root and the accepted proofs along the accepted path. -/
def keptEntries (t : Slot) (ds : List Decision) : List Nat :=
  if t.kind == .draft || t.kind == .tree then 0 :: (acceptedPath ds 65 0).filterMap (·.child) else List.range t.fresh

/-- Copy one fresh entry of an attend tile's block to a position of the sequence's folios: its key and its value. -/
def State.keepEntry (s : State) (i core : Nat) (b : AttendBody) (l : LayerCfg) (handle e pos : Nat) : State :=
  match (s.imp i).serve.folioAt handle b.layer b.head pos with
  | none => s
  | some (_, f) =>
    let rb := l.kv.bytes l.d
    let from_ := [t0Addr core (b.freshOff + e * rb), t0Addr core (roundUp (b.freshOff + b.nF * rb) 256 + e * rb)]
    let to_ := [f.addr + 256 + pos % 256 * rb, f.addr + 256 + (256 + pos % 256) * rb]
    if f.tier ≠ 0 then s else (from_.zip to_).foldl (fun s x => let r := s.t0Read x.1 rb; r.2.t0Write x.2 r.1) s

/-- The commit step of one slot: for every layer and head, from the fresh block of its last shard (R175). -/
def State.keepSlot (s : State) (i n : Nat) (t : Slot) : State :=
  let ks := keptEntries t (spGet [] (s.imp i).run.decisions n)
  ((s.attends i).filter fun x => x.2.seq == n && x.2.nF != 0).foldl (fun s x =>
    match s.layer i x.2.layer with
    | none => s
    | some l => ks.zipIdx.foldl (fun s k => s.keepEntry i x.1 x.2 l t.request k.1 (t.nC + k.2)) s) s

/-- The commit step of the closing segment (R208). -/
def State.commitStep (s : State) (i : Nat) : State :=
  (s.imp i).run.manifest.zipIdx.foldl (fun s x => if x.1.kind = .empty then s else s.keepSlot i x.2 x.1) s

/-! The commit (R356, R357). -/

/-- The CLOSE roster's entries (R346). -/
def State.closeEntries (s : State) (i : Nat) : List RosterEntry :=
  let es := ((s.slotEnds i).filter fun x => x.q.span.isSome).map fun x =>
    (⟨x.q.handle, x.q.lead, false, false, false, false, x.status.getD 0, if x.q.isLead then x.t.width else 0⟩ : RosterEntry)
  sortBy (fun a b => decide (a.lead < b.lead) || (decide (a.lead = b.lead) && decide (a.handle < b.handle))) es

/-- Bookkeeping of the candidates: those placed and those left out (R203, R205). -/
def State.settleCandidates (s : State) (i : Nat) : State :=
  let v := (s.imp i).serve
  let m := (s.imp i).run.manifest
  let imp := (s.imp i).run.impression
  s.modServe i fun w => { w with reqs := w.reqs.map fun x => (x.1, x.2.map fun q =>
    if m.any fun t => t.kind != .empty && t.request == x.1 then
      { q with leftOut := 0, starved := false, stall := none, runnableAt := none, late := 0 }
    else if v.leftNow.contains x.1 then
      { q with leftOut := q.leftOut + 1, stall := if v.stallNow.contains x.1 then some imp else q.stall }
    else q) }

/-- Write an imprint's records (R357 step 4, R469, R470): tickets first, then generation records; each ring's producer index and
vector once. -/
def State.writeRecords (s : State) (i : Nat) (void : Bool) (records : List (Nat × List Byte)) : State :=
  let done := (s.imp i).serve.done.filter (·.write)
  let s := done.foldl (fun s d =>
    match (s.fn (i + 1)).ring d.ring with
    | some r => s.queueRecords (i + 1) r.entry.ret [ticketRecord d.tag d.status d.opcode d.r0 d.r1 d.opening void]
    | none => s) s
  let s := records.foldl (fun s x => s.queueRecords (i + 1) x.1 [x.2]) s
  (s.fn (i + 1)).rings.foldl (fun s x => s.writeBacklog (i + 1) x.1) s

/-- A minor edition that applied at this impression's opening completes its COMMIT (R504, R513). -/
def State.finishMinor (s : State) (i : Nat) : State × List (List Byte) :=
  match s.ed.minorDone with
  | none => (s, [])
  | some (j, ring, tag) =>
    if j ≠ i then (s, [])
    else
      let base := ((s.ed.minors.getLast?).map (·.head.base)).getD 0
      let ev := edEvent 0x0014 0 i s.ed.number (s.imp i).run.impression 0xFFFF 0 base 0 0
      let s := { s with ed := { s.ed with minorDone := none } }
      (((s.recordNow 0 ring (some (ticketRecord tag 0 0x21 s.ed.number 0 0 false))).pfFences).pfEvent ev, [ev])

/-- The eight words of TEL_IMPRINT (R613, R614). -/
def State.telWords (s : State) (i : Nat) : List Nat :=
  [(s.imp i).serve.committed, s.ctr i .impressions, s.ctr i .promptTokens, s.ctr i .outputTokens, s.ctr i .leftOut,
   s.ctr i .abandoned, (s.imp i).serve.ownLive.length, 0]

/-- R529's third row: does a GROUP layer name a package that recovery has removed? -/
def State.groupLost (s : State) (i : Nat) : Bool :=
  let gone := (s.imp i).serve.newRemoved
  (((s.placement i).map (·.layers)).getD []).any fun l => l.group && l.experts.any fun e =>
    e.replicas.any (fun r => gone.contains r.1)

/-- The place of a write in a commit: every record, then the ring indices, then the vectors (R356, R457). -/
def Emission.phase : Emission → Nat
  | .hostWrite _ _ bs => if bs.length = 4 then 1 else 0
  | .msix _ _ _ _ => 2
  | _ => 0

/-- Put what left the block after its first `n` emissions in the order of a commit. -/
def State.commitOrder (s : State) (n : Nat) : State :=
  { s with out := s.out.take n ++ sortBy (fun a b => decide (a.phase < b.phase)) (s.out.drop n) }

/-- Steps 1 to 6 of R357 once every roster has come. The counts of R122 take one trip for each sequence that tripped, and one escalation for
each that is to run again (DESIGN CHOICE, log 117). -/
def State.commitNow (s : State) (i : Nat) (ts : List ImpTiming) : State :=
  let v := (s.imp i).serve
  let sent := s.out.length
  let imp := (s.imp i).run.impression
  let fixed := ((s.cfg i).map (·.entry.fixed)).getD true
  let bits := s.voidBits i (ts.getD 0 noTiming)
  let void := fixed && bits != 0
  let drains := match v.drain with | some d => decide (d ≤ imp) | none => false
  let ends := drains && v.drainEnds
  let xs := s.slotEnds i
  -- steps 2 and 3
  let c := xs.foldl (Closing.slot i void ends) ⟨s, [], []⟩
  let less := s.slotless i ends
  let c := less.foldl (Closing.slotless i void) c
  let s := c.s
  -- events, then step 5
  let s := s.count i .trips (xs.filter fun x => x.trip.isSome).length
  let s := s.count i .excess (xs.filter (·.excess)).length
  let s := c.ended.foldl (fun s x => s.endRequest i x) s
  let s := (s.settleCandidates i).freeAdapters i
  -- step 4
  let s := s.writeRecords i void c.records
  let s := s.freeHandles i
  let mi := s.finishMinor i
  let s := mi.1
  let news := s.newsFor i
  let links := news.map fun p => s.linkEvent p (imp + 1)
  let lost := v.recovering && s.groupLost i
  let held := edEvent 0x0016 2 i s.ed.number imp 0xFFFF 0 s.ed.number 0 0
  let events := v.events ++ v.stallEvents ++ densityEvents xs imp
    ++ damageEvents v.sharedDamage c.ended imp (s.imp i).run.epoch ++ s.recoverEvents i c.ended
    ++ (if lost then [held] else []) ++ mi.2 ++ links ++ s.impressionEvents i ts (outputCrc (c.records.map (·.2)))
  let s := s.writeEvents (i + 1) imp events
  let s := (links ++ (if lost then [held] else [])).foldl (fun s b => s.pfEvent b) s
  let s := s.flushPower
  let s := news.foldl (fun s p => s.modPort p fun x => { x with news := x.news.filter (· != i) }) s
  -- step 6
  let s := ((s.count i .impressions 1).count i .leftOut v.leftNow.length).count i .adapterStalls v.adStalls
  let s := (s.count i .chunking (bit v.chunkNow)).count i .noFolio v.stallNow.length
  let s := ((List.range 5).foldl (fun s k => if bitOf bits k then s.count i (.voided k) 1 else s) s).count i (.voided 5)
    (bit (decide (bits ≠ 0)))
  let prev := ((s.imp i).run.manifest.filter fun t => t.kind != .empty).map (·.request)
  let s := s.modServe i fun w =>
    { w with phase := .closed, begun := false, stepped := false, committed := imp, prev := prev, damage := [], refusals := [],
             loading := [], done := [], events := [], offers := [], leftNow := [], adStalls := 0, stallNow := [], stallEvents := [],
             chunking := v.chunkNow, recovering := false, newRemoved := [], timingVoid := 0, rosters := [],
             drained := w.drained || drains }
  let s := s.modRun i fun r => { r with impression := imp + 1 }
  let s := (((s.syncPages i).modImp i fun m => { m with tel := s.telWords i }).keepCounts i).commitOrder sent
  if !v.sharedDamage.isEmpty || lost then s.enterHeld i 2 else s

/-- Go on with a commit as far as the CLOSE rosters take it. -/
def State.continueCommit (s : State) (i : Nat) (ts : List ImpTiming) : State :=
  if (s.imp i).serve.phase = .closeRosters && s.rostersIn i 0x22 then s.commitNow i ts else s

/-- IMPRESSION_COMMIT (R315, R356, R357): the CLOSE quoin's work, when the job has reached it and its arrivals and replies have come.
With other members in the set it sends its CLOSE roster and waits for theirs; the command given again goes on. -/
def execImpressionCommit (i : Fin 16) (t : List ImpTiming) (s : State) : Host.Outcome State Fault Refusal :=
  let n := i.val
  if s.stopped || s.heldOrNone n then .next s
  else if (s.imp n).serve.phase = .closeRosters then .next ((s.resolveAll n).continueCommit n t).settle
  else match s.jobQuoin n 0 with
    | none => .next s
    | some q =>
      if (s.imp n).serve.phase ≠ .running || q.kind ≠ .closing || !s.arrived n 0 q || !s.repliesIn n 0 || !s.t2Settled n then .next s
      else
        let s := (s.commitStep n).resolveAll n
        if s.stopped then .next s
        else if decide (1 < (s.liveMembers n).length) then
          let s := (s.sendRosters n 0x22 0 (s.closeEntries n)).modServe n fun v => { v with phase := .closeRosters }
          .next (s.settle.continueCommit n t).settle
        else .next (s.commitNow n t).settle

end Sys2Proof.Machine
end

