-- ==== Sys2Proof/Machine/Mesh.lean ====
section
/-!
DEFINITION. The mesh: routers, attachments, paths and latencies; which edge die serves a device, a channel and a port (R20 to R22, R35,
R36, R227, R228, R410).
-/
namespace Sys2Proof.Machine

open Sys2Proof

/-! Routers and attachments (R20, R35, R227). -/

/-- Die, row and column. -/
abbrev MeshAt := Nat × Nat × Nat

/-- The router of a physical core (R35). -/
def meshCore (p : Nat) : MeshAt := (p / 104, p % 104 / 8, p % 8)

/-- The router of a reserve part (R227). -/
def meshReserve (n : Nat) : MeshAt := (n / 2, 6, if n < 2 then 0 else 7)

/-- The Compositor's router (R227). -/
def meshCompositor : MeshAt := (0, 6, 0)

/-- The column of the bridge's routers on a die (R227). -/
def bridgeColumn (die : Nat) : Nat := if die = 0 then 7 else 0

/-- The compute die that an edge die attaches to (R20). -/
def edgeHost (e : Nat) : Nat := e / 2

/-- The row of an edge die's attach routers (R227). -/
def edgeRow (e : Nat) : Nat := if e % 2 = 0 then 0 else 12

/-- The edge die that serves an LPDDR5X device (R21). -/
def deviceEdge (d : Nat) : Nat := d / 12

/-- The edge die that serves a T1 channel (R21). -/
def channelEdge (c : Nat) : Nat := c / 96

/-- The edge die of a Tiltil port (R22). -/
def portEdge (p : Nat) : Nat := p % 4

/-- The attach router that a path between a place and an edge die takes: an edge die attaches in all 8 columns of its row, and the path,
along the row first, comes in the column it starts in, or in the bridge's column from the other die (R36, R227; log 109). -/
def attachRouter (e : Nat) (a : MeshAt) : MeshAt :=
  (edgeHost e, edgeRow e, if a.1 = edgeHost e then a.2.2 else bridgeColumn (edgeHost e))

/-! Latency (R36, R228). -/

/-- A distance. -/
def apart (a b : Nat) : Nat := (a - b) + (b - a)

/-- h of R228: hops along the row, then along the column, crossing the bridge at the source's row (R36). -/
def meshHops (a b : MeshAt) : Nat :=
  if a.1 = b.1 then apart a.2.2 b.2.2 + apart a.2.1 b.2.1
  else apart a.2.2 (bridgeColumn a.1) + apart (bridgeColumn b.1) b.2.2 + apart a.2.1 b.2.1

/-- R228's latency from a physical core to a far place. -/
def farLatency (a b : MeshAt) : Nat := (if a.1 = b.1 then 24 else 72) + 4 * meshHops a b

/-- The physical core that a core map gives a logical one. -/
def physicalOf (map : List Nat) (c : Nat) : Nat := ((indexes (fun x => x == c) map).head?).getD 0

/-- Where a T0 address stands under a core map. -/
def t0Place (map : List Nat) (a : Nat) : MeshAt :=
  if isReserve a then meshReserve (t0Core a - 0xF0) else meshCore (physicalOf map (t0Core a))

/-- Read latency of a core to a T0 address under a core map (R228). -/
def readLatency (map : List Nat) (core a : Nat) : Nat :=
  if !isReserve a && t0Core a = core then 16 else farLatency (meshCore (physicalOf map core)) (t0Place map a)

/-- R228's latency from a core to an edge die's attach router. -/
def edgeLatency (map : List Nat) (core e : Nat) : Nat :=
  let a := meshCore (physicalOf map core)
  farLatency a (attachRouter e a)

/-! Paths (R36, R227, R229, R512). -/

/-- A link of the package: between two routers, the bridge's pair of a row, or an attach router and its edge die's place. -/
abbrev Link := MeshAt × MeshAt

/-- The numbers from one to another. -/
def lane (a b : Nat) : List Nat :=
  if a ≤ b then (List.range (b - a + 1)).map (a + ·) else (List.range (a - b + 1)).map (a - ·)

/-- Links between neighbours of a list of routers. -/
def linksOf2 (xs : List MeshAt) : List Link := xs.zip (xs.drop 1)

/-- The links of a path within one die: along the row, then along the column. -/
def diePath (a b : MeshAt) : List Link :=
  linksOf2 ((lane a.2.2 b.2.2).map fun c => (a.1, a.2.1, c)) ++ linksOf2 ((lane a.2.1 b.2.1).map fun r => (a.1, r, b.2.2))

/-- The bridge's pair of routers of a row: one link, whichever way it is crossed. -/
def bridgeLink (row : Nat) : Link := ((0, row, bridgeColumn 0), (1, row, bridgeColumn 1))

/-- The links of the path from one router to another (R36): to the other die across the bridge at the source's row. -/
def meshPath (a b : MeshAt) : List Link :=
  if a.1 = b.1 then diePath a b
  else diePath a (a.1, a.2.1, bridgeColumn a.1) ++ [bridgeLink a.2.1] ++ diePath (b.1, a.2.1, bridgeColumn b.1) b

/-- The link between an attach router and its edge die. -/
def edgeLink (e : Nat) (r : MeshAt) : Link := (r, (2 + e, 0, r.2.2))

/-- The links that an access of a core to a place uses, there and back. -/
def placeLinks (map : List Nat) (core : Nat) (b : MeshAt) : List Link :=
  let a := meshCore (physicalOf map core)
  meshPath a b ++ meshPath b a

/-- The links that an access of a core to a T0 address uses: none for its own slice. -/
def t0Links (map : List Nat) (core a : Nat) : List Link :=
  if !isReserve a && t0Core a = core then [] else placeLinks map core (t0Place map a)

/-- The links that an access of a core to an edge die uses. -/
def edgeLinks (map : List Nat) (core e : Nat) : List Link :=
  let r := attachRouter e (meshCore (physicalOf map core))
  edgeLink e r :: placeLinks map core r

/-! Ports that a plan gives a request (R403, R408, R410). -/

/-- Does a plan let an imprint use a port, were its link up (R408, R410)? -/
def plannedUse (t : Topology) (r : Routes) (p : Nat) : Bool :=
  r.allows (some t) p && match t.ports[p]? with
    | some x => x.need != .unused && (match x.wrap with | some o => o == r.tslice | none => true)
    | none => false

/-- The optical port that a plan gives a package towards another pod (R410, R411). -/
def plannedPod (t : Topology) (r : Routes) (self pod : Nat) : Option Nat :=
  match r.optical with
  | .none => none
  | .tree => t.tree.map fun x => treePort x pod
  | k => match t.podMap[podOf self]?, t.podMap[pod]? with
    | some a, some b =>
      let f := direction (k == .torus)
      (opticalHop (f a.1 b.1 t.dims.1, f a.2.1 b.2.1 t.dims.2.1, f a.2.2 b.2.2 t.dims.2.2)).map (·.1)
    | _, _ => none

/-- The first hops that a plan leaves open to a request of an imprint for an endpoint (R410). -/
def plannedPorts (t : Topology) (r : Routes) (self dest : Nat) : List Nat :=
  let planes := (List.range 7).map (7 + ·)
  let ports := match r.override.find? fun e => dest &&& e.2.1 == e.1 with
    | some e => (List.range 20).filter fun p => bitOf e.2.2 p
    | none =>
      if podOf dest ≠ podOf self then (plannedPod t r self (podOf dest)).toList
      else
        let p := (slotOf dest + 7 - slotOf self) % 8
        if rackOf dest = rackOf self && trayOf dest = trayOf self && plannedUse t r p then [p] else planes
  ports.filter (plannedUse t r)

end Sys2Proof.Machine
end

