-- ==== Sys2Proof/Machine/ImageChecks.lean ====
section
/-!
DEFINITION. What validation asks of each command record of a schedule image by the record's own fields: reserved fields, tile
limits, times, addresses, signals and fabric requests (R83, R86 to R89, R92, R97, R98, R103, R111, R127, R147, R159, R161, R224, R257,
R296, R298 to R312, R430, R435, R443).
-/
namespace Sys2Proof.Machine

open Sys2Proof

/-! Records with their place. -/

/-- A record of an image: its index among the imprint's commands, its stream's core and job, the segment of the stream it stands in
(quoins passed before it), and the last pass of the Platen tile before it. -/
structure Placed where
  index : Nat
  core : Nat
  job : Nat
  segment : Nat
  dLast : Nat
  word : BitVec 512
deriving DecidableEq, Repr

/-- A tile's weight and activation formats with their scales, and the class of the pairing (R60). -/
def tileFormats (g : ImprintCfg) (b : MatrixBody) : Option (Elem × Scale × Elem × Scale × MClass) :=
  match g.formats.descs[b.wDesc]?, g.formats.descs[b.aDesc]? with
  | some w, some a =>
    match Elem.ofCode w.elem, Scale.ofCode w.scale, Elem.ofCode a.elem, Scale.ofCode a.scale with
    | some wf, some ws, some af, some sf => (pairing wf af).map fun c => (wf, ws, af, sf, c)
    | _, _, _, _ => none
  | _, _ => none

/-- Cycles between activation rows (R80). -/
def rowInterval (c : MClass) : Nat := if c == .bf16 then 4 else 1

/-- D_last of R88: the length of a tile's last pass. -/
def lastPass (g : ImprintCfg) (r : BitVec 512) : Nat :=
  match tileFormats g (matrixBody r) with
  | some f => (matrixBody r).m * rowInterval f.2.2.2.2
  | none => 0

/-- The records of one stream in order. -/
def placeStream (g : ImprintCfg) (x : CoreStream) : Nat → Nat → Nat → List (BitVec 512) → List Placed
  | _, _, _, [] => []
  | n, seg, d, r :: rs =>
    let op := (cmdHead r).opcode
    ⟨n, x.core, x.job, seg, d, r⟩ :: placeStream g x (n + 1) (if op = 0x01 then seg + 1 else seg) (if op = 0x10 then lastPass g r else d) rs

/-- The records of all streams, numbered through. -/
def placeAll (g : ImprintCfg) : Nat → List CoreStream → List Placed
  | _, [] => []
  | n, x :: xs => placeStream g x n 0 0 x.cmds ++ placeAll g (n + x.cmds.length) xs

/-! Reserved fields (R296, R299 to R308). -/

/-- Are bytes `lo` to `hi` of a record zero? -/
def zeroBytes (r : BitVec 512) (lo hi : Nat) : Bool := recBytes r lo hi == 0

/-- The reserved fields of a record's header (R296). -/
def headerClean (r : BitVec 512) : Bool :=
  let h := cmdHead r
  bitsOf r.toNat 63 42 == 0 && ((decide (0x60 ≤ h.opcode) && decide (h.opcode ≤ 0x6B)) || h.queue == 0)
    && (h.opcode == 0x10 || h.opcode == 0x20 || !h.chain)

/-- A MATRIX body's reserved fields, and R302 on its output fields. -/
def matrixClean (r : BitVec 512) : Bool :=
  let b := matrixBody r
  zeroBytes r 59 63 && decide (recBytes r 32 32 < 64) && decide (recBytes r 44 51 < 2 ^ 34)
    && (if b.write then !ltF b.outScale (zeroF false) && isFin b.outScale && b.outFactor == recipF b.outScale
        else zeroBytes r 33 34 && zeroBytes r 36 51 && b.watch == 0xFF)

/-- The fields of a VECTOR body that R307's table does not give the command are zero; sub-operations are those of the table (log 28). -/
def vectorClean (op : Nat) (r : BitVec 512) : Bool :=
  let b := vectorBody r
  let z := fun (n k cap aux : Bool) => (n || b.n == 0) && (k || b.k == 0) && (cap || b.cap == 0) && (aux || b.aux == 0)
  zeroBytes r 60 63 && decide (recBytes r 8 15 < 2 ^ 34) && decide (recBytes r 16 23 < 2 ^ 34) && decide (recBytes r 24 31 < 2 ^ 34)
    && b.outFactor == 0#32 && (b.imm == 0#32 || (op == 0x40 && b.subop == 9))
    && decide (b.key ≤ (if op = 0x54 || op = 0x55 || op = 0x58 || op = 0x59 then 2 else 0)) && decide (b.subop ≤ (if op = 0x40 then 9 else if op = 0x41 then 2 else 0))
    && (if op = 0x40 || op = 0x41 then z true false false false
        else if op = 0x42 then z true false false true
        else if op = 0x43 then z false true false true
        else if op = 0x50 then z true true true true
        else if op = 0x51 then z false true true true
        else if op = 0x52 then z true false false false
        else if op = 0x53 then z true false true true
        else if op = 0x5A then z false false false true
        else z true true false false)

/-- Does a record keep every reserved field at zero and use a known opcode (R299, R300)? -/
def recordClean (r : BitVec 512) : Bool :=
  let op := (cmdHead r).opcode
  headerClean r &&
    (if op = 0x00 then zeroBytes r 8 63
    else if op = 0x01 then zeroBytes r 10 63
    else if op = 0x02 then zeroBytes r 10 15 && zeroBytes r 24 63 && decide (recBytes r 8 8 < 4) && decide (recBytes r 9 9 < 16)
      && decide (recBytes r 16 23 < 2 ^ 34)
    else if op = 0x10 || op = 0x20 then matrixClean r
    else if op = 0x11 || op = 0x21 then zeroBytes r 29 29 && zeroBytes r 32 63 && decide (recBytes r 28 28 < 2) && decide (recBytes r 8 15 < 2 ^ 34)
    else if op = 0x30 then
      let b := attendBody r
      zeroBytes r 23 23 && zeroBytes r 62 63 && decide (recBytes r 19 19 < 64) && (b.document || b.segOff == 0) && (b.tree || b.parOff == 0)
        && !(b.silent && b.final)
    else if op = 0x31 then zeroBytes r 19 19 && zeroBytes r 30 63 && (recBytes r 16 16 == 0 || recBytes r 16 16 == 2)
    else if (decide (0x40 ≤ op) && decide (op ≤ 0x43)) || (decide (0x50 ≤ op) && decide (op ≤ 0x5A)) then vectorClean op r
    else if decide (0x60 ≤ op) && decide (op ≤ 0x6B) then zeroBytes r 61 63 && decide (recBytes r 36 39 < 2 ^ 18)
      && (op != 0x6A || decide (recBytes r 60 60 ≤ 1))
    else false)

/-- What validation knows beside an imprint: the core map, the topology plan and the package's own endpoint. -/
structure Site where
  map : List Nat
  topo : Topology
  self : Nat
deriving DecidableEq, Repr

/-! Operand ranges and their Inker budget (R83, R89, R127, R147). -/

/-- The parts of a tensor that an operand range takes: the element region and the scale plane, each with whether it is a slug run, its
format, its number of elements and the decoded byte ranges read (R127). The last says which slug of the tensor its first is. -/
def operandParts (t : TensorDesc) (r0 n k0 len : Nat) : List (Bool × Nat × Nat × List (Nat × Nat) × Nat) :=
  let f := t.fmt
  let elems := t.rows * t.k
  let e := (t.slugged, t.elem, elems, rowRanges t.rowBytes r0 n (f.bytes k0) (f.bytes len), 0)
  if t.sf == .none then [e]
  else [e, (t.slugged && (t.cls == 2 || planeIsRun t (slotPlane t)), planeFormat t, planeBytes t,
    rowRanges (t.k / f.block) r0 n (k0 / f.block) (len / f.block), regionSlugs t elems)]

/-- The slugs of a run that decoded byte ranges meet. -/
def slugsMet (t : TensorDesc) (format elems : Nat) (rs : List (Nat × Nat)) : List Nat :=
  let d := max ((slugBytes format (slugElems t elems)).getD 0) 1
  nub (rs.flatMap fun x => (List.range (ceilDiv x.2 d - x.1 / d)).map fun j => x.1 / d + j)

/-- Does an operand range begin and end at slugs' bounds (R127)? -/
def wholeSlugs (t : TensorDesc) (p : Bool × Nat × Nat × List (Nat × Nat) × Nat) : Bool :=
  let d := max ((slugBytes p.2.1 (slugElems t p.2.2.1)).getD 0) 1
  let total := (slugBytes p.2.1 p.2.2.1).getD 0
  !p.1 || (match p.2.2.2.1.head?, p.2.2.2.1.getLast? with
    | some x, some y => x.1 % d == 0 && (y.2 % d == 0 || y.2 == total)
    | _, _ => true)

/-- W, D and F of R147 for one slug of a tensor: a weight's or plate's declared ENC_LEN (log 110), a run-time slot's worst case. -/
def slugTerms (i desc : Nat) (t : TensorDesc) (format elems first k : Nat) : Nat × Nat × Nat :=
  let per := slugElems t elems
  let d := (slugBytes format (min per (elems - k * per))).getD 0
  let e := if t.cls = 2 then d else min (Config.declaredEnc i desc (first + k)) d
  (decodeCycles (t.cls == 2 || t.font != 0xFFFF) e d, d, footprint e)

/-- The Inker budget of an operand range on a port of `p` bytes per cycle, read from a far slice or not; 0 for a plain one (R147). -/
def rangeBudget (i desc : Nat) (t : TensorDesc) (p : Nat) (far : Bool) (ps : List (Bool × Nat × Nat × List (Nat × Nat) × Nat)) : Nat :=
  let slugs := ps.flatMap fun x =>
    if x.1 then (slugsMet t x.2.1 x.2.2.1 x.2.2.2.1).map (slugTerms i desc t x.2.1 x.2.2.1 x.2.2.2.2) else []
  if slugs.isEmpty then 0 else inkerBudget p (if far then 128 else 444) slugs

/-- Decoded bytes of an operand range's plain parts. -/
def plainBytes (ps : List (Bool × Nat × Nat × List (Nat × Nat) × Nat)) : Nat :=
  (ps.map fun x => if x.1 then 0 else (x.2.2.2.1.map fun r => r.2 - r.1).sum).sum

/-- Is a tensor read through the mesh port (R83)? -/
def tensorFar (core : Nat) (t : TensorDesc) : Bool := isReserve t.location || t0Core t.location != core

/-- Cycles that an operand range takes at its port: the port's rate, the mesh port's where it is far, and in Fixed timing the Inker's
(R83, R89, R147, R303). -/
def portCycles (g : ImprintCfg) (core desc : Nat) (t : TensorDesc) (p r0 n k0 len base : Nat) : Nat :=
  let ps := operandParts t r0 n k0 len
  let far := tensorFar core t
  let mesh := if far then ceilDiv (plainBytes ps) 128 else 0
  max base (max mesh (if g.entry.fixed then rangeBudget g.entry.imprint desc t p far ps else 0))

/-! Times of commands (R88, R98, R111, R139, R176, R183, R286, R287, R303, R307, R309). -/

/-- Cycles of the plates of a tile (R111), with the Inker budget of a correction plate's slugs (R89). -/
def plateCyclesOf (g : ImprintCfg) (core : Nat) (b : MatrixBody) (k port : Nat) : Nat :=
  match g.formats.plates[b.plate]? with
  | none => 0
  | some p =>
    let down := if b.down then b.downLen else 0
    let corr := min (b.downLo + down) p.rc - min b.downLo p.rc
    let part := fun (desc r0 n k0 len : Nat) => match g.formats.descs[desc]? with
      | some t => if t.slugged && n * len ≠ 0 then portCycles g core desc t port r0 n k0 len 0 else 0
      | none => 0
    max (ceilDiv (plateBytes p b.downLo down b.aMax k b.n b.up) port)
      (part p.vDesc b.downLo corr b.wK k + part p.uDesc b.wCol (if b.up then b.n else 0) 0 p.rc)

/-- Cycles of a Platen tile (R88), each pass's load lengthened by R83 and R89. -/
def platenTime (g : ImprintCfg) (x : Placed) : Nat :=
  let b := matrixBody x.word
  match tileFormats g b, g.formats.descs[b.wDesc]? with
  | some f, some w =>
    let len := f.2.2.2.2.passLen
    let k := b.passes * len
    let plate := g.formats.plates[b.plate]?
    let ru := if b.up then (plate.map fun p => p.rc + p.ra).getD 0 else 0
    let lw := fun p => portCycles g x.core b.wDesc w 256 b.wCol b.n (b.wK + p * len) len (loadCycles f.1 f.2.1 len b.n)
    platenCycles (rowInterval f.2.2.2.2) b.m ((List.range b.passes).map lw) (cmdHead x.word).chain x.dLast
      (overprintCycles b.m (if b.down then b.downLen else 0) ru k b.n) (plateCyclesOf g x.core b k 256)
  | _, _ => 0

/-- Cycles of a Roller tile (R98), its set loads lengthened by R83 and R89: a set is 8 rows of 512 elements (R94). -/
def rollerTime (g : ImprintCfg) (x : Placed) : Nat :=
  let b := matrixBody x.word
  match tileFormats g b, g.formats.descs[b.wDesc]? with
  | some f, some w =>
    let k := b.passes * 512
    let plate := g.formats.plates[b.plate]?
    let ru := if b.up then (plate.map fun p => p.rc + p.ra).getD 0 else 0
    let base := ceilDiv (f.1.bytes 4096 + 64) 512
    let sets := (List.range (b.n / 8)).flatMap fun j => (List.range b.passes).map fun p =>
      portCycles g x.core b.wDesc w 512 (b.wCol + 8 * j) 8 (b.wK + 512 * p) 512 base
    rollerCycles b.m b.n k (sets.headD 0) sets.sum (cmdHead x.word).chain
      (overprintCycles b.m (if b.down then b.downLen else 0) ru k b.n) (plateCyclesOf g x.core b k 512)
  | _, _ => 0

/-- Cycles of an attend tile (R176), before R177 lengthens it. -/
def attendTime (g : ImprintCfg) (x : Placed) : Nat :=
  let b := attendBody x.word
  match g.formats.layers[b.layer]? with
  | none => 0
  | some l =>
    attendCycles (queryFormat g x.core b.qOff).1 l.kv l.d b.rows b.e b.farMask b.nF

/-- Cycles of a load (R303). -/
def loadTime (map : List Nat) (g : ImprintCfg) (x : Placed) : Nat :=
  let b := loadBody x.word
  16 + readLatency map x.core b.src + match g.formats.descs[b.desc]? with
    | some d => portCycles g x.core b.desc d 256 (TensorRow d b.src) b.rows b.k0 b.kLen
        (ceilDiv (b.rows * stagedStride d b.kLen) 256)
    | none => 0

/-- The edge dies that the requests of a fabric command may go through: those of the ports that the plan leaves open to them; a request to
the package itself goes to its channels' edge dies, and one to its own T0 to any (log 109). -/
def fabricEdges (k : Site) (g : ImprintCfg) (x : Placed) : List Nat :=
  let b := chaseBody x.word
  if b.endpoint ≠ k.self then nub ((plannedPorts k.topo g.routes k.self b.endpoint).map portEdge)
  else
    let far := if (cmdHead x.word).opcode = 0x67 then b.src else b.dst
    if bitsOf far 63 60 = 0 && bitsOf far 59 56 = g.entry.imprint then
      nub ((segsOf g.channels (bitsOf far 40 0) (max b.bytes 1)).map fun y => channelEdge y.1)
    else [0, 1, 2, 3]

/-- The edge dies that serve the segments of a T1 transfer. -/
def t1Edges (g : ImprintCfg) (x : Placed) : List Nat :=
  let b := chaseBody x.word
  nub ((segsOf g.channels (if (cmdHead x.word).opcode = 0x64 then b.src else b.dst) b.bytes).map fun y => channelEdge y.1)

/-- Cycles of a Chase command (R309), with the latency to the farthest target or to the farthest attach router of the edge dies it may use.
The listed cores of BCAST and the slots of a T1 transfer are not in the record; they are left to the whole schedule (log 50). -/
def chaseTime (k : Site) (g : ImprintCfg) (x : Placed) : Nat :=
  let op := (cmdHead x.word).opcode
  let b := chaseBody x.word
  let far := max (readLatency k.map x.core b.src) (readLatency k.map x.core b.dst)
  let edge := maxList ((fabricEdges k g x).map (edgeLatency k.map x.core))
  if op = 0x60 then 16 + far + ceilDiv b.bytes 128
  else if op = 0x61 || op = 0x62 then 16 + far + ceilDiv (b.count * b.bytes) 128
  else if op = 0x63 then 16 + b.count * ceilDiv b.bytes 128
  else if op = 0x66 || op = 0x67 then 16 + edge + ceilDiv b.bytes 128
  else if op = 0x68 || op = 0x69 then 16 + edge + 1
  else if op = 0x6A then 16 + ceilDiv b.planFirst 128
  else if op = 0x6B then 16 + readLatency k.map x.core b.dst
  else 16

/-- Cycles of a command by its own fields; NOP and QUOIN have none (R312). -/
def commandTime (k : Site) (g : ImprintCfg) (x : Placed) : Nat :=
  let op := (cmdHead x.word).opcode
  let v := vectorBody x.word
  if op = 0x00 || op = 0x01 then 0
  else if op = 0x02 then 12 + readLatency k.map x.core (recBytes x.word 16 23)
  else if op = 0x10 then platenTime g x
  else if op = 0x20 then rollerTime g x
  else if op = 0x11 || op = 0x21 then loadTime k.map g x
  else if op = 0x30 then attendTime g x
  else if op = 0x31 then
    let b := mergeBody x.word
    ((g.formats.layers[b.layer]?).map fun l => mergeCycles b.rows l.d b.final).getD 0
  else if decide (op ≤ 0x43) then setterCycles op v (((g.formats.streams[v.aux]?).map fun f => f.kind.alphabet).getD 0)
  else if decide (op ≤ 0x5A) then imposerCycles op v
  else chaseTime k g x

/-! Tile limits (R86, R92, R97, R103, R159, R301). -/

/-- The run-time tensor of an imprint that holds a T0 address. -/
def tensorHolding (g : ImprintCfg) (a : Nat) : Option TensorDesc :=
  g.formats.descs.find? fun d => d.cls == 2 && !bitOf d.flags 1 && decide (d.location ≤ a) && decide (a < d.location + d.stored)

/-- The position of the element at a tile's OUT_ADDR along the output row: that of the run-time tensor there, else the row starts there. -/
def outPosition (g : ImprintCfg) (a : Nat) : Nat :=
  match tensorHolding g a with
  | some t => elementAt t a % max t.k 1
  | none => 0

/-- R92: the output format is one that is written, and a block-scaled output's blocks lie whole in the tile. -/
def outputBlocks (g : ImprintCfg) (b : MatrixBody) : Bool :=
  match Elem.ofCode b.outFmt, Scale.ofCode b.outSf with
  | some f, some sf => !b.write || (scaleAllowed f sf && !(f == .w2 || f == .ternary || f == .binary)
      && (sf == .none || (outPosition g b.outAddr % f.block == 0 && b.n % f.block == 0)))
  | _, _ => !b.write

/-- The down range lies in the rank vector (R103, R301). -/
def downInside (g : ImprintCfg) (b : MatrixBody) : Bool :=
  match g.formats.plates[b.plate]? with
  | some p => !b.down || decide (b.downLo + b.downLen ≤ p.rc + p.ra)
  | none => !b.down && !b.up

/-- Limits of a Platen tile (R86) but its time: its staged bytes stand from A_OFF in one half. -/
def platenOk (g : ImprintCfg) (b : MatrixBody) : Bool :=
  match tileFormats g b with
  | some f =>
    let k := b.passes * f.2.2.2.2.passLen
    decide (1 ≤ b.m) && decide (b.m ≤ 1024) && decide (1 ≤ b.n) && decide (b.n ≤ 128) && decide (1 ≤ b.passes) && decide (b.passes ≤ 64)
      && decide (b.aOff + b.m * f.2.2.1.bytes k + (if f.2.2.2.1 == .none then 0 else b.m * k / 32) ≤ 524288)
      && decide (b.accBase + b.m * b.n ≤ 262144) && b.wK % f.2.2.2.2.passLen == 0 && outputBlocks g b && downInside g b
  | none => true

/-- Limits of a Roller tile (R97) but its time: PASSES counts steps of 512 (R301). -/
def rollerOk (g : ImprintCfg) (b : MatrixBody) : Bool :=
  match tileFormats g b with
  | some f =>
    let k := 512 * b.passes
    decide (1 ≤ b.m) && decide (b.m ≤ 64) && decide (8 ≤ b.n) && b.n % 8 == 0 && decide (1 ≤ b.passes)
      && decide (b.aOff + b.m * f.2.2.1.bytes k + (if f.2.2.2.1 == .none then 0 else b.m * k / 32) ≤ 262144)
      && decide (b.accBase + b.m * b.n ≤ 65536) && b.wK % 512 == 0 && outputBlocks g b && downInside g b
  | none => true

/-- Limits of an attend tile (R159) but its time. -/
def attendOk (g : ImprintCfg) (b : AttendBody) : Bool :=
  match g.formats.layers[b.layer]? with
  | none => true
  | some l =>
    decide (1 ≤ b.rows) && decide (b.rows ≤ 1024) && decide ((b.stateRow + b.rows) * (l.d + 2) ≤ 264192) && decide (b.e ≤ 32)
      && decide (b.nF ≤ 4096) && decide (0 < b.e + b.nF)

/-- A plate's ranks (R103, R487). -/
def plateOk (p : PlateEntry) : Bool :=
  p.rc % 8 == 0 && p.ra % 8 == 0 && decide (p.rc ≤ 64) && decide (p.rc + p.ra ≤ 256)

/-- Query and key formats of an attend tile (R160, R161). -/
def queryOk (g : ImprintCfg) (x : Placed) : Bool :=
  let b := attendBody x.word
  if (cmdHead x.word).opcode ≠ 0x30 then true
  else match g.formats.layers[b.layer]? with
    | some l =>
      let q := queryFormat g x.core b.qOff
      if q.1 == .bf16 then q.2.1 == .none else q.1.is8 && !(l.kv == .bf16)
    | none => true

/-! T0 ranges of a record (R224, R295, R310). -/

/-- A T0 range that a record reads or writes, by its own fields; `kept` where R295 asks for no write before a read of it: weights, plates and
font images. -/
structure Span where
  addr : Nat
  bytes : Nat
  writes : Bool
  kept : Bool
deriving DecidableEq, Repr

/-- Do two ranges share a byte? -/
def Span.meets (x y : Span) : Bool := decide (x.addr < y.addr + y.bytes) && decide (y.addr < x.addr + x.bytes)

/-- The ranges of units `lo` to `lo + n - 1` of a part of a run-time or plain tensor at `base`: plain, or the slots that hold them. -/
def partSpans (t : TensorDesc) (w run : Bool) (format base elems lo n : Nat) : List Span :=
  if run then
    let per := max (slugElems t elems) 1
    let cap := regionCap t format elems
    (List.range (ceilDiv (lo + n) per - lo / per)).map fun j => ⟨base + (lo / per + j) * cap, cap, w, t.shared⟩
  else [⟨base + (slugBytes format lo).getD 0, (slugBytes format n).getD 0, w, t.shared⟩]

/-- The ranges of elements `e` to `e + n - 1` of a tensor with their block scales; of a weight's run, the whole stored image. -/
def elemSpans (t : TensorDesc) (w : Bool) (e n : Nat) : List Span :=
  if t.slugged && t.shared then [⟨t.location, t.stored, w, true⟩]
  else partSpans t w t.slugged t.elem t.location (t.rows * t.k) e n
    ++ if t.sf == .none then []
       else partSpans t w (planeIsRun t (slotPlane t)) (planeFormat t) (slotPlane t) (planeBytes t) (e / t.fmt.block) (n / t.fmt.block)

/-- Rows of a tensor: elements `k0` to `k0 + len - 1` of each. -/
def rowSpans (t : TensorDesc) (w : Bool) (r0 n k0 len : Nat) : List Span :=
  (List.range n).flatMap fun j => elemSpans t w ((r0 + j) * t.k + k0) len

/-- What writing rows of `n` results from an address covers: the run-time tensor there at its row stride, or the plain rows and their scale
plane. -/
def outSpans (g : ImprintCfg) (f : Elem) (sf : Scale) (a rows n : Nat) : List Span :=
  let plain := ⟨a, rows * f.bytes n, true, false⟩
    :: if sf == .none then [] else [⟨roundUp (a + rows * f.bytes n) 256, rows * (n / f.block), true, false⟩]
  match tensorHolding g a with
  | some t => if t.fmt == f && t.sf == sf && 0 < t.rowBytes then rowSpans t true (elementAt t a / t.k) rows (elementAt t a % t.k) n
    else plain
  | none => plain

/-- The T0 ranges of a MATRIX, LOAD, ATTEND or MERGE record. -/
def tileSpans (g : ImprintCfg) (x : Placed) : List Span :=
  let r := x.word
  let op := (cmdHead r).opcode
  let near := t0Addr x.core
  let rd := fun a n => Span.mk a n false false
  let out := fun fmt sf => outSpans g ((Elem.ofCode fmt).getD .fp32) ((Scale.ofCode sf).getD .none)
  if op = 0x10 || op = 0x20 then
    let b := matrixBody r
    if b.write then out b.outFmt b.outSf b.outAddr b.m b.n else []
  else if op = 0x11 || op = 0x21 then
    let b := loadBody r
    rd b.src 1 :: ((g.formats.descs[b.desc]?).map fun d => rowSpans d false (TensorRow d b.src) b.rows b.k0 b.kLen).getD []
  else if op = 0x30 then
    let b := attendBody r
    match g.formats.layers[b.layer]? with
    | none => []
    | some l =>
      let q := queryFormat g x.core b.qOff
      let qn := b.rows * q.1.bytes l.d
      let fn := b.nF * l.kv.bytes l.d
      [rd (near b.qOff) qn]
        ++ (if q.2.1 == .none then [] else [rd (roundUp (near b.qOff + qn) 256) (b.rows * (l.d / q.1.block))])
        ++ (if b.nF = 0 then [] else [rd (near b.freshOff) fn, rd (near (roundUp (b.freshOff + fn) 256)) fn])
        ++ (if b.document then [rd (near b.segOff) 4] else []) ++ (if b.tree then [rd (near b.parOff) 1] else [])
        ++ if b.silent then [] else if b.final then out b.outFmt b.outSf (near b.outOff) b.rows l.d
          else [⟨near b.outOff, b.rows * (4 * (l.d + 2)), true, false⟩]
  else if op = 0x31 then
    let b := mergeBody r
    match g.formats.layers[b.layer]? with
    | none => []
    | some l => rd (near b.right) (b.rows * (4 * (l.d + 2)))
        :: if b.final then out b.outFmt b.outSf (near b.outOff) b.rows l.d
           else [⟨near b.outOff, b.rows * (4 * (l.d + 2)), true, false⟩]
  else []

/-- The T0 ranges of a Setter or Imposer record. Of IMPOSE and COLLATE, whose layer stands in the data, and of the places that an index list
names, the first bytes. -/
def vectorSpans (g : ImprintCfg) (x : Placed) : List Span :=
  let op := (cmdHead x.word).opcode
  let v := vectorBody x.word
  let rd := fun a n => Span.mk a n false false
  let wr := fun a n => Span.mk a n true false
  let f := (Elem.ofCode v.outFmt).getD .fp32
  let ins := ((Elem.ofCode v.inFmt).getD .fp32).bytes v.n
  let symbols := ((g.formats.streams[v.aux]?).map fun t => t.kind.alphabet).getD 0
  let w := gatherBytes v.inFmt
  match op with
  | 0x40 => [rd v.srcA ins] ++ (if v.subop ≤ 4 then [rd v.srcB ins] else []) ++ (if v.subop = 2 then [rd v.dst (f.bytes v.n)] else [])
      ++ outSpans g f (if v.subop = 8 then (Scale.ofCode v.outSf).getD .none else .none) v.dst 1 v.n
  | 0x41 => rd v.srcA ins :: outSpans g f .none v.dst 1 1
  | 0x42 => [rd v.srcA (8 * v.n), wr v.dst 8] ++ if g.entry.spec = 0 then [] else [rd v.srcB (8 * g.serving.draftK)]
  | 0x43 => [wr v.dst (8 * symbols)]
  | 0x50 => [rd v.srcA (4 * v.n * v.k), wr v.dst (v.k * candStride v.cap)]
  | 0x51 => [rd v.srcA (v.k * candStride v.cap), wr v.dst (v.k * picksStride v.cap)]
  | 0x52 => [rd v.srcA 64, rd v.srcB 4, wr v.dst 64]
  | 0x53 => [rd v.srcA 64, wr v.dst 1]
  | 0x54 => [rd v.srcA (4 * v.n), wr v.dst (8 * v.n)]
  | 0x55 => [rd v.srcA (4 * v.n), wr v.dst (8 * v.k)]
  | 0x56 => [rd v.srcB (4 * v.n), rd v.srcA (w * v.k), wr v.dst (w * v.n)]
  | 0x57 => [rd v.srcB (4 * v.n), rd v.srcA (w * v.n), wr v.dst (w * v.k)]
  | 0x58 => [rd v.srcA (4 * v.n), wr v.dst (4 * v.n)]
  | 0x59 => [rd v.srcA (4 * v.n), rd v.srcB (4 * v.k), wr v.dst (4 * v.k)]
  | 0x5A => [rd v.srcA (8 * symbols), ⟨v.dst, 512, true, true⟩]
  | _ => []

/-- The T0 ranges of a Chase record: a broadcast may write its offset in every core of the imprint. -/
def chaseSpans (g : ImprintCfg) (x : Placed) : List Span :=
  let c := chaseBody x.word
  let rd := fun a n => Span.mk a n false false
  let wr := fun a n => Span.mk a n true false
  let list := rd (t0Addr x.core c.index) (2 * c.count)
  match (cmdHead x.word).opcode with
  | 0x60 => [rd c.src c.bytes, wr c.dst c.bytes]
  | 0x61 => [list, rd c.src 1, wr c.dst (c.count * c.bytes)]
  | 0x62 => [list, rd c.src (c.count * c.bytes), wr c.dst 1]
  | 0x63 => [list, rd c.src c.bytes] ++ g.cores.map fun k => wr (t0Addr k (t0Off c.dst)) c.bytes
  | 0x64 => [wr c.dst c.bytes]
  | 0x65 => [rd c.src c.bytes]
  | 0x66 => [rd c.src c.bytes]
  | 0x67 => [wr c.dst c.bytes]
  | 0x68 => [wr c.src 8]
  | _ => []

/-- The T0 ranges of a record, but for its weights and plates. -/
def recordSpans (g : ImprintCfg) (x : Placed) : List Span :=
  let op := (cmdHead x.word).opcode
  if op = 0x02 then [⟨recBytes x.word 16 23, 512, false, true⟩]
  else if op < 0x40 then tileSpans g x
  else if op < 0x60 then vectorSpans g x
  else chaseSpans g x

/-! Addresses (R224). -/

/-- A read address within an imprint's rights. -/
def readable (g : ImprintCfg) (a : Nat) : Bool := t0Exists a && (isReserve a || g.cores.contains (t0Core a))

/-- A write address within an imprint's rights: its near slices, and with speculation the Compositor's lists from the manifest on in the
parts that hold it (R338; log 22). -/
def writable (g : ImprintCfg) (a : Nat) : Bool :=
  t0Exists a && (g.cores.contains (t0Core a) || (decide (g.entry.spec ≠ 0) && (t0Core a == 0xF0 || t0Core a == 0xF2)
    && decide (g.entry.manifest ≤ t0Off a)))

/-- An offset in a near slice. -/
def offsetOk (o : Nat) : Bool := decide (o < 0x3000000)

/-- A range within an imprint's rights: its first and its last byte, which lie in one slice or part. -/
def spanOk (g : ImprintCfg) (x : Span) : Bool :=
  let last := x.addr + (x.bytes - 1)
  t0Core x.addr == t0Core last
    && if x.writes then writable g x.addr && writable g last else readable g x.addr && readable g last

/-- Static addresses of a record (R224): its OFFSETs, and its T0 ranges. -/
def addressesOk (g : ImprintCfg) (x : Placed) : Bool :=
  let r := x.word
  let op := (cmdHead r).opcode
  let c := chaseBody r
  (if op = 0x30 then
    let b := attendBody r
    offsetOk b.qOff && offsetOk b.freshOff && offsetOk b.segOff && offsetOk b.parOff && offsetOk b.outOff
      && (b.farMask == 0 || g.cores.contains b.farCore)
  else if op = 0x31 then offsetOk (mergeBody r).right && offsetOk (mergeBody r).outOff
  else if op = 0x61 || op = 0x62 || op = 0x63 then offsetOk c.index
  else if op = 0x6B then decide (c.dst < 2 ^ 34) && g.cores.contains (t0Core c.dst)
  else true) && (recordSpans g x).all (spanOk g)

/-! Signals (R298). -/

/-- The counters that a record raises when it completes: core, job, counter. -/
def raises (x : Placed) : List (Nat × Nat × Nat) :=
  let h := cmdHead x.word
  (if h.sigEn then [(x.core, x.job, h.sigCtr)] else [])
    ++ if h.opcode = 0x6B then [(t0Core (chaseBody x.word).dst, x.job, (chaseBody x.word).dst % 32)] else []

/-- Signals that one counter can get in one segment. -/
def signalsIn (xs : List Placed) (core job ctr seg : Nat) : Nat :=
  (((xs.filter fun x => x.segment == seg).flatMap raises).filter fun y => y == (core, job, ctr)).length

/-- Do the counters that a record raises stay within 16 bits, by the number of signals in its segment (R298)? -/
def signalsOk (xs : List Placed) (x : Placed) : Bool :=
  (raises x).all fun y => decide (signalsIn xs y.1 y.2.1 y.2.2 x.segment ≤ 65535)

/-! Fabric requests (R417, R418, R428, R430, R435, R443). -/

/-- The requests of a record: target endpoint, first remote byte, bytes, and whether it writes (R428). -/
def requestsOf (x : Placed) : List (Nat × Nat × Nat × Bool) :=
  let op := (cmdHead x.word).opcode
  let b := chaseBody x.word
  let cut := fun (a : Nat) (w : Bool) =>
    (cut256 (b.bytes + 1) a (List.replicate b.bytes 0#8)).map fun p => (b.endpoint, p.1, p.2.length, w)
  if op = 0x66 then cut b.dst true
  else if op = 0x67 then cut b.src false
  else if op = 0x68 then [(b.endpoint, b.dst, b.size, true)]
  else if op = 0x69 then [(b.endpoint, b.dst, 8, true)]
  else []

/-- Do two requests of a stream touch a common byte that either writes (R435)? -/
def requestsMeet (a b : Nat × Nat × Nat × Bool) : Bool :=
  a.1 == b.1 && (a.2.2.2 || b.2.2.2) && decide (a.2.1 < b.2.1 + b.2.2.1) && decide (b.2.1 < a.2.1 + a.2.2.1)

/-- No two requests of a list meet. -/
def noneMeet : List (Nat × Nat × Nat × Bool) → Bool
  | [] => true
  | a :: as => as.all (fun b => !requestsMeet a b) && noneMeet as

/-- Requests of the other records of a record's segment that come before it. -/
def requestsBefore (xs : List Placed) (x : Placed) : List (Nat × Nat × Nat × Bool) :=
  (xs.filter fun y => y.job == x.job && y.segment == x.segment && decide (y.index < x.index)).flatMap requestsOf

/-- R418, R430 and R435 on a record: the form of its requests, at most 4,096 on one stream in its segment, and no two that meet. -/
def fabricOk (xs : List Placed) (x : Placed) : Bool :=
  let op := (cmdHead x.word).opcode
  let b := chaseBody x.word
  if op = 0x66 || op = 0x67 || op = 0x68 || op = 0x69 then
    let own := requestsOf x
    let old := requestsBefore xs x
    let far := if op = 0x67 then b.src else b.dst
    (if op = 0x68 then (b.size == 4 || b.size == 8) && far % b.size == 0
     else if op = 0x69 then far % 8 == 0 && bitsOf far 63 60 == 1
     else b.bytes % 8 == 0 && far % 8 == 0 && decide (0 < b.bytes))
      && bitsOf far 55 41 == 0 && decide (bitsOf far 63 60 < 2)
      && decide (own.length + (old.filter fun y => y.1 == b.endpoint).length ≤ 4096) && noneMeet own
      && own.all fun a => old.all fun c => !requestsMeet a c
  else true

/-- Is the operation of a fabric atomic one that wire version `w` carries (R417, R443)? -/
def operationOk (w : Nat) (x : Placed) : Bool :=
  if (cmdHead x.word).opcode ≠ 0x68 then true
  else
    let op := (chaseBody x.word).op
    (decide (1 ≤ w) && (op == 0x10 || op == 0x11 || op == 0x12 || op == 0x15 || op == 0x16))
      || (decide (2 ≤ w) && (op == 0x13 || op == 0x14))

/-! All limits of one record. -/

/-- The operand ranges of a record begin and end at slugs' bounds (R127). -/
def slugsWhole (g : ImprintCfg) (r : BitVec 512) : Bool :=
  let op := (cmdHead r).opcode
  if op = 0x10 || op = 0x20 then
    let b := matrixBody r
    match tileFormats g b, g.formats.descs[b.wDesc]? with
    | some f, some w =>
      (operandParts w b.wCol b.n b.wK (b.passes * if op = 0x20 then 512 else f.2.2.2.2.passLen)).all (wholeSlugs w)
    | _, _ => true
  else if op = 0x11 || op = 0x21 then
    let b := loadBody r
    match g.formats.descs[b.desc]? with
    | some d => (operandParts d (TensorRow d b.src) b.rows b.k0 b.kLen).all (wholeSlugs d)
    | none => true
  else true

/-- Limits of one record (R86, R92, R97, R127, R159, R224, R286, R287, R298, R300, R302, R307, R312, R430, R435). -/
def recordLimits (k : Site) (g : ImprintCfg) (xs : List Placed) (x : Placed) : Bool :=
  let h := cmdHead x.word
  recordClean x.word && h.job == x.job && decide (commandTime k g x ≤ 4096)
    && (if h.opcode = 0x10 then platenOk g (matrixBody x.word)
        else if h.opcode = 0x20 then rollerOk g (matrixBody x.word)
        else if h.opcode = 0x30 then attendOk g (attendBody x.word)
        else h.opcode != 0x54 || decide ((vectorBody x.word).n ≤ 65536))
    && slugsWhole g x.word && addressesOk g x && signalsOk xs x && fabricOk xs x

end Sys2Proof.Machine
end

