-- ==== Sys2Proof/Machine/StaticFlow.lean ====
section
/-!
DEFINITION. What validation asks of a schedule image as a whole, as far as its records decide it: waits, the order of reads and writes,
replies, count tables, rank vectors, ranges of jobs, the Cabinet plan, expert tiles, and the mesh traffic of Fixed timing (R108, R138, R246,
R272, R282, R293, R295, R298, R310, R320, R423, R440, R511, R512). Order that only the timing of a run decides stays with
`Config.staticCheck` (log 50).
-/
namespace Sys2Proof.Machine

open Sys2Proof

/-! Progress of a segment (R297, R298). -/

/-- The records of a job's segment, stream by stream. -/
def lanesOf (xs : List Placed) (job seg : Nat) : List (List Placed) :=
  let ys := xs.filter fun x => x.job == job && x.segment == seg
  (nub (ys.map (·.core))).map fun c => ys.filter fun x => x.core == c

/-- Issue a stream's records as far as their waits are met, with the counters raised so far; the record `hold` is never issued. -/
def advanceLane (hold : Option Nat) (raised : List (Nat × Nat × Nat)) : List Placed → List Placed × List (Nat × Nat × Nat)
  | [] => ([], raised)
  | x :: xs =>
    let h := cmdHead x.word
    if hold == some x.index
        || (h.waitEn && decide ((raised.filter fun y => y == (x.core, x.job, h.waitCtr)).length < h.waitVal)) then (x :: xs, raised)
    else advanceLane hold (raised ++ raises x) xs

/-- Advance all streams in turn. -/
def advanceAll (hold : Option Nat) (lanes : List (List Placed)) (raised : List (Nat × Nat × Nat)) :
    List (List Placed) × List (Nat × Nat × Nat) :=
  lanes.foldl (fun acc l => let y := advanceLane hold acc.2 l; (acc.1 ++ [y.1], y.2)) ([], raised)

/-- What is left of streams after some rounds. Counters only rise within a segment, so the order of issue does not matter. -/
def progress (hold : Option Nat) : Nat → List (List Placed) → List (Nat × Nat × Nat) → List (List Placed)
  | 0, lanes, _ => lanes
  | n + 1, lanes, raised => let y := advanceAll hold lanes raised; progress hold n y.1 y.2

/-- What is left of a job's segment when everything that can issue has issued. -/
def leftover (hold : Option Nat) (xs : List Placed) (job seg : Nat) : List (List Placed) :=
  let lanes := lanesOf xs job seg
  progress hold ((lanes.map List.length).sum) lanes []

/-- Is a record one whose wait could never be met (R298)? -/
def stuck (xs : List Placed) (x : Placed) : Bool := (leftover none xs x.job x.segment).any fun l => l.head? == some x

/-- Does record `y` issue only after record `x` has: later in x's stream, in a later segment of its job, or held by waits that x leads
to? -/
def comesAfter (xs : List Placed) (x y : Placed) : Bool :=
  x.job == y.job && (decide (x.segment < y.segment)
    || (x.segment == y.segment && x.index != y.index && (leftover (some x.index) xs x.job x.segment).any fun l => l.contains y))

/-! Near slices and local stores (R81, R138, R159, R295, R310, R320). -/

/-- Do ranges cover `[lo, hi)`? By fuel. -/
def coversFrom : Nat → List (Nat × Nat) → Nat → Nat → Bool
  | 0, _, lo, hi => decide (hi ≤ lo)
  | n + 1, rs, lo, hi => decide (hi ≤ lo) || match rs.find? fun r => decide (r.1 ≤ lo) && decide (lo < r.2) with
    | some r => coversFrom n rs r.2 hi
    | none => false

/-- Do ranges cover `[lo, hi)`? -/
def covers (rs : List (Nat × Nat)) (lo hi : Nat) : Bool := coversFrom (rs.length + 1) rs lo hi

/-- Is the destination of a record written by its reply, at the next quoin (R310)? -/
def byReply (x : Placed) : Bool := (cmdHead x.word).opcode == 0x67 || (cmdHead x.word).opcode == 0x68

/-- May the writes of `y` stand before record `x` reads? -/
def mayPrecede (xs : List Placed) (y x : Placed) : Bool :=
  y.index != x.index && if byReply y then decide (y.segment < x.segment) || y.job != x.job else !comesAfter xs x y

/-- R295 on T0: bytes that the schedule writes are read only where a write of the impression may stand before. -/
def readsWritten (g : ImprintCfg) (xs : List Placed) (x : Placed) : Bool :=
  ((recordSpans g x).filter fun a => !a.writes && !a.kept).all fun a =>
    let ws := xs.flatMap fun y => ((recordSpans g y).filter fun b => b.writes && a.meets b).map fun b => (y, b)
    let early := (ws.filter fun w => mayPrecede xs w.1 x).map fun w => (w.2.addr, w.2.addr + w.2.bytes)
    ws.all fun w => covers early (max a.addr w.2.addr) (min (a.addr + a.bytes) (w.2.addr + w.2.bytes))

/-- R310: no record of the segment that may run after a FAB_LOAD or FAB_ATOMIC reads where its reply goes. -/
def repliesUnread (g : ImprintCfg) (xs : List Placed) (x : Placed) : Bool :=
  !byReply x || (xs.filter fun y => y.job == x.job && y.segment == x.segment && y.index != x.index && !comesAfter xs y x).all fun y =>
    ((recordSpans g y).filter fun a => !a.writes).all fun a => ((recordSpans g x).filter (·.writes)).all fun b => !a.meets b

/-- Does a record write into a run-time tensor of a font stream? -/
def writesStream (g : ImprintCfg) (st : Nat) (x : Placed) : Bool :=
  (recordSpans g x).any fun a => a.writes && g.formats.descs.any fun d =>
    d.cls == 2 && !bitOf d.flags 1 && d.font == st && a.meets ⟨d.location, d.stored, true, false⟩

/-- R138: no write of a stream comes after its FONT_STATS. -/
def statsLast (g : ImprintCfg) (xs : List Placed) (x : Placed) : Bool :=
  (cmdHead x.word).opcode != 0x43 || (xs.filter (writesStream g (vectorBody x.word).aux)).all fun y => !comesAfter xs x y

/-- A use of a core's local stores: the store, a range in it, whether the record reads it and whether it writes it. Stores: 0 staging
buffer, 1 token buffer, 2 and 3 Platen and Roller accumulators, 4 rank buffer, 5 Galley state store, 6 font registers, 7 near slice. -/
structure LocalUse where
  store : Nat
  lo : Nat
  hi : Nat
  reads : Bool
  writes : Bool
deriving DecidableEq, Repr

/-- Bytes of a tile's staged operand. -/
def stagedSize (g : ImprintCfg) (roller : Bool) (b : MatrixBody) : Nat :=
  match g.formats.descs[b.wDesc]?, g.formats.descs[b.aDesc]? with
  | some w, some a => b.m * stagedStride a (b.passes * passElems roller w a)
  | _, _ => 0

/-- The local stores that a record uses. -/
def localUses (g : ImprintCfg) (x : Placed) : List LocalUse :=
  let op := (cmdHead x.word).opcode
  let roller := op == 0x20 || op == 0x21
  if op = 0x02 then
    let n := 16 * recBytes x.word 8 8 + recBytes x.word 9 9
    [⟨6, n, n + 1, false, true⟩]
  else if op = 0x10 || op = 0x20 then
    let b := matrixBody x.word
    let at_ := b.half * halfBytes roller + b.aOff
    let plate := g.formats.plates[b.plate]?
    let rows := fun lo n rd wr => if n = 0 then [] else
      (List.range b.m).map fun m => LocalUse.mk 4 (rankIndex m lo) (rankIndex m lo + n) rd wr
    [⟨bit roller, at_, at_ + stagedSize g roller b, true, false⟩, ⟨2 + bit roller, b.accBase, b.accBase + b.m * b.n, b.cont, true⟩]
      ++ (if b.down then rows b.downLo b.downLen (!b.firstDown) true else [])
      ++ if b.up then rows 0 ((plate.map fun p => p.rc + p.ra).getD 0) (!b.down) false else []
  else if op = 0x11 || op = 0x21 then
    let b := loadBody x.word
    let at_ := b.half * halfBytes roller + b.off
    [⟨bit roller, at_, at_ + ((g.formats.descs[b.desc]?).map fun d => b.rows * stagedStride d b.kLen).getD 0, false, true⟩]
  else if op = 0x30 then
    let b := attendBody x.word
    ((g.formats.layers[b.layer]?).map fun l =>
      LocalUse.mk 5 (stateIndex l.d b.stateRow) (stateIndex l.d (b.stateRow + b.rows)) b.cont true).toList
  else if op = 0x31 then
    let b := mergeBody x.word
    ((g.formats.layers[b.layer]?).map fun l =>
      LocalUse.mk 5 (stateIndex l.d b.stateRow) (stateIndex l.d (b.stateRow + b.rows)) true true).toList
  else []

/-- R295 on the local stores: what a record reads there, earlier records of its stream have written. -/
def storesWritten (g : ImprintCfg) (xs : List Placed) (x : Placed) : Bool :=
  let old := (xs.filter fun y => y.core == x.core && y.job == x.job && decide (y.index < x.index)).flatMap (localUses g)
  ((localUses g x).filter (·.reads)).all fun u =>
    covers ((old.filter fun v => v.writes && v.store == u.store).map fun v => (v.lo, v.hi)) u.lo u.hi

/-- The stores and the own near slice that a record of a job uses (R320). -/
def jobUses (g : ImprintCfg) (x : Placed) : List LocalUse :=
  localUses g x ++ ((recordSpans g x).filter fun a => t0Core a.addr == x.core && !a.kept).map fun a =>
    ⟨7, a.addr, a.addr + a.bytes, !a.writes, a.writes⟩

/-- R320: no other job of the core uses what a record uses. -/
def jobsApart (g : ImprintCfg) (xs : List Placed) (x : Placed) : Bool :=
  let others := (xs.filter fun y => y.core == x.core && y.job != x.job).flatMap (jobUses g)
  (jobUses g x).all fun u => others.all fun v => v.store != u.store || decide (v.hi ≤ u.lo) || decide (u.hi ≤ v.lo)

/-! Rank vectors (R108). -/

/-- The K ranges that down stages have added into entry `j` of row `m` of a plate's rank vector, latest tile first, back to the first-down
tile; none where the entry holds no such sum. -/
def downRanges (plate j m : Nat) : List (MatrixBody × Nat) → Option (List (Nat × Nat))
  | [] => none
  | (b, k) :: bs =>
    if b.down && decide (b.downLo ≤ j) && decide (j < b.downLo + b.downLen) && decide (m < b.m) then
      if b.plate ≠ plate then none
      else if b.firstDown then some [(b.wK, b.wK + k)] else (downRanges plate j m bs).map ((b.wK, b.wK + k) :: ·)
    else downRanges plate j m bs

/-- A tile's body and the K elements that it takes. -/
def tileK (g : ImprintCfg) (x : Placed) : MatrixBody × Nat :=
  let b := matrixBody x.word
  match g.formats.descs[b.wDesc]?, g.formats.descs[b.aDesc]? with
  | some w, some a => (b, b.passes * passElems ((cmdHead x.word).opcode == 0x20) w a)
  | _, _ => (b, 0)

/-- Is a record a tile? -/
def isTile (x : Placed) : Bool := (cmdHead x.word).opcode == 0x10 || (cmdHead x.word).opcode == 0x20

/-- R108: an up stage reads rank vectors to which this and earlier tiles of the core's Overprint have made every contribution over the
whole K of the matrix. -/
def rankWhole (g : ImprintCfg) (xs : List Placed) (x : Placed) : Bool :=
  let b := matrixBody x.word
  match g.formats.plates[b.plate]?, g.formats.descs[b.wDesc]? with
  | some p, some w =>
    !(isTile x && b.up) ||
      let tiles := ((xs.filter fun y => isTile y && y.core == x.core && y.job == x.job && decide (y.index ≤ x.index)).reverse).map (tileK g)
      (List.range b.m).all fun m => (List.range (p.rc + p.ra)).all fun j =>
        ((downRanges b.plate j m tiles).map fun rs => covers rs 0 w.k).getD false
  | _, _ => true

/-! Expert tiles (R269, R272, R282). -/

/-- Is a record a tile on the input rows of an expert that its core serves, whatever package holds the replica (log 30)? -/
def expertTile (g : ImprintCfg) (p : Placement) (self : Nat) (x : Placed) : Bool :=
  isTile x && match g.formats.descs[(matrixBody x.word).aDesc]? with
    | some a => a.cls == 2 && p.layers.any fun l => l.experts.any fun e =>
        e.replicas.contains (self, x.core) && a.rows == ceilDiv l.cMax (max e.replicas.length 1)
    | none => false

/-- R272 and R282 on a tile: an expert's matrix has no adapter slot, and no watch point names what a replica computes. -/
def expertOk (g : ImprintCfg) (p : Placement) (self : Nat) (x : Placed) : Bool :=
  let b := matrixBody x.word
  !expertTile g p self x || (b.watch == 0xFF && match g.formats.plates[b.plate]? with | some q => q.ra == 0 | none => true)

/-! The Cabinet plan (R235, R243, R246, R293). -/

/-- The segments of a T1 transfer in order, by channel, and whether it writes. -/
def transferSegs (g : ImprintCfg) (x : Placed) : List Nat :=
  let b := chaseBody x.word
  let op := (cmdHead x.word).opcode
  if op = 0x64 || op = 0x65 then (segsOf g.channels (if op = 0x64 then b.src else b.dst) b.bytes).map (·.1) else []

/-- The plan entries that a transfer uses. -/
def planEntries (g : ImprintCfg) (x : Placed) : List (BitVec 64) :=
  (g.schedule.plan.drop (chaseBody x.word).planFirst).take (transferSegs g x).length

/-- Channel, slot, period and direction of a plan entry (R293). -/
def planFields (e : BitVec 64) : Nat × Nat × Nat × Bool :=
  (bitsOf e.toNat 8 0, bitsOf e.toNat 13 9, bitsOf e.toNat 29 14, bitOf e.toNat 30)

/-- R246, R293: each segment has an entry of its channel and direction, whose slot no other transfer of the segment between quoins
takes. -/
def planOk (g : ImprintCfg) (xs : List Placed) (x : Placed) : Bool :=
  let segs := transferSegs g x
  let es := planEntries g x
  let place := fun e => let f := planFields e; (f.1, f.2.1, f.2.2.1)
  let others := ((xs.filter fun y => y.job == x.job && y.segment == x.segment && y.index != x.index).flatMap (planEntries g)).map place
  es.length == segs.length && (es.zip segs).all (fun y => (planFields y.1).1 == y.2
      && (planFields y.1).2.2.2 == ((cmdHead x.word).opcode == 0x65) && bitsOf y.1.toNat 63 31 == 0)
    && (nub (es.map place)).length == es.length && (es.map place).all fun p => !others.contains p

/-- Do transfers of one segment take, in some period of a channel, a slot of every two adjacent ones, so that no pair is left to the fabric
window (R246, R440)? -/
def windowTaken (g : ImprintCfg) (xs : List Placed) (ch : Nat) : Bool :=
  xs.any fun x => (planEntries g x).any fun e =>
    (planFields e).1 == ch &&
      let used := ((xs.filter fun y => y.job == x.job && y.segment == x.segment).flatMap (planEntries g)).filterMap fun d =>
        if (planFields d).1 = ch && (planFields d).2.2.1 = (planFields e).2.2.1 then some (planFields d).2.1 else none
      (List.range 29).all fun k => used.contains k || used.contains (k + 1)

/-- R440: a channel whose bytes are exposed with STORE, FLAG or ATOMIC rights keeps two adjacent slots. -/
def exposedWindows (g : ImprintCfg) (xs : List Placed) : Bool :=
  (g.routes.exposure.filter fun x => x.space == 1 && (bitOf x.rights 1 || bitOf x.rights 2 || bitOf x.rights 3)).all fun x =>
    (nub ((segsOf g.channels x.base x.len).map (·.1))).all fun ch => !windowTaken g xs ch

/-- R423: does the schedule write a byte that an entry exposes with STORE, FLAG or ATOMIC rights? -/
def writesExposed (g : ImprintCfg) (xs : List Placed) (e : Exposure) : Bool :=
  (bitOf e.rights 1 || bitOf e.rights 2 || bitOf e.rights 3) && xs.any fun x =>
    if e.space = 0 then (recordSpans g x).any fun a => a.writes && a.meets ⟨e.base, e.len, true, false⟩
    else (cmdHead x.word).opcode == 0x65 && Span.meets ⟨(chaseBody x.word).dst, (chaseBody x.word).bytes, true, false⟩ ⟨e.base, e.len, true, false⟩

/-! Tensors that the Galley reads (R135, R511). -/

/-- No tensor that a record of the Galley reads is stored as slugs. -/
def galleyPlain (g : ImprintCfg) (x : Placed) : Bool :=
  let op := (cmdHead x.word).opcode
  !(op == 0x30 || op == 0x31) || ((recordSpans g x).filter fun a => !a.writes).all fun a => g.formats.descs.all fun d =>
    !(d.cls == 2 && !bitOf d.flags 1 && d.slugged && a.meets ⟨d.location, d.stored, false, false⟩)

/-! Mesh traffic (R36, R229, R511, R512). -/

/-- The links that a record's accesses use, but for the attachments of the reserve parts and the Compositor, which R512 exempts. A
broadcast's targets stand in its list, and are left to the whole schedule (log 50). -/
def recordLinks (k : Site) (g : ImprintCfg) (x : Placed) : List Link :=
  let op := (cmdHead x.word).opcode
  let to_ := fun a => if isReserve a then [] else t0Links k.map x.core a
  let spans := if op = 0x63 then (recordSpans g x).filter (!·.writes) else recordSpans g x
  let tensor := fun n => ((g.formats.descs[n]?).map fun d => to_ d.location).getD []
  spans.flatMap (fun a => to_ a.addr)
    ++ (if isTile x then
        let b := matrixBody x.word
        tensor b.wDesc ++ ((g.formats.plates[b.plate]?).map fun p => if p.rc = 0 then [] else tensor p.vDesc ++ tensor p.uDesc).getD []
      else if op = 0x30 && (attendBody x.word).farMask != 0 then to_ (t0Addr (attendBody x.word).farCore 0)
      else if op = 0x64 || op = 0x65 then (t1Edges g x).flatMap (edgeLinks k.map x.core)
      else if decide (0x66 ≤ op) && decide (op ≤ 0x69) then (fabricEdges k g x).flatMap (edgeLinks k.map x.core)
      else if op = 0x6B then to_ (t0Addr (t0Core (chaseBody x.word).dst) 0)
      else [])

/-- The links that an imprint's validated traffic uses. -/
def imprintLinks (k : Site) (g : ImprintCfg) : List Link := nub ((placeAll g 0 g.schedule.streams).flatMap (recordLinks k g))

/-- R511, R512: two Fixed-timing imprints share no link. -/
def linksApart (k : Site) (a b : ImprintCfg) : Bool :=
  !(a.entry.fixed && b.entry.fixed) || (imprintLinks k a).all fun l => !(imprintLinks k b).contains l

/-! All of these on one record. -/

/-- The rules of check 6 on a record among those of its imprint. -/
def recordFlow (k : Site) (g : ImprintCfg) (xs : List Placed) (x : Placed) : Bool :=
  !stuck xs x && readsWritten g xs x && repliesUnread g xs x && statsLast g xs x && storesWritten g xs x && jobsApart g xs x
    && rankWhole g xs x && planOk g xs x && ((g.placement.map fun p => expertOk g p k.self x).getD true)

end Sys2Proof.Machine
end

