-- ==== Sys2Proof/Machine/Validate.lean ====
section
/-!
DEFINITION. The checks of an edition (R24 to R26, R39, R60 to R62, R86, R97, R132, R159 to R161, R199, R251, R269, R272, R275, R312, R331,
R403 to R406, R412, R422, R423, R484 to R490, R495, R504, R510 to R512, R559). What the timing of a run alone decides is
`Config.staticCheck` (log 50).
-/
namespace Sys2Proof.Machine

open Sys2Proof

/-- A failing place: the directory index of a section and an item. -/
abbrev Spot := Nat × Nat

/-- The directory index of a section. -/
def secIndex (e : Edition) (type imprint : Nat) : Nat :=
  ((indexes (fun (x : SecEntry) => x.type == type && x.imprint == imprint) e.dir).head?).getD 0xFFFF

/-- The earliest of some failing places: sections in directory order, items ascending (R495). -/
def firstSpot : List Spot → Option Spot
  | [] => none
  | x :: xs => match firstSpot xs with
    | none => some x
    | some y => some (if x.1 < y.1 || (decide (x.1 = y.1) && decide (x.2 ≤ y.2)) then x else y)

/-- A failing place unless a condition holds. -/
def need (ok : Bool) (sec item : Nat) : List Spot := if ok then [] else [(sec, item)]

/-! Checks 1 to 3. -/

/-- Check 1 (R484). -/
def headerOk (e : Edition) : Bool :=
  let h := e.head
  let minor := match e.body with
    | .minor _ => true
    | .major _ => false
  h.magic == 0x4E544445 && h.version == 1 && h.kind == bit minor
    && (if minor then decide (h.imprint < 16) else h.imprint == 0xFF && h.base == 0 && h.effective == 0)
    && decide (1 ≤ h.edition) && decide (1 ≤ h.sections) && decide (h.sections ≤ 64) && decide (128 + 16 * h.sections ≤ e.bytes.length)
    && decide (h.imageBytes ≤ 2 ^ 28) && h.imageBytes == e.bytes.length && h.reservedZero

/-- The section types of package scope. -/
def packageSections : List Nat := [1, 2, 3, 4]

/-- Are directory entries in order and in place, from an offset on (R485)? -/
def dirOrder (size : Nat) : Nat → List SecEntry → Bool
  | _, [] => true
  | lo, x :: xs => x.offset % 256 == 0 && decide (lo ≤ x.offset) && decide (x.offset + x.bytes ≤ size)
      && dirOrder size (x.offset + x.bytes) xs

/-- Sections that R486 requires. -/
def requiredSections (m : Major) : List (Nat × Nat) :=
  packageSections.map (fun t => (t, 0xFF))
    ++ m.imprints.flatMap fun g => [(0x10, g.entry.imprint), (0x11, g.entry.imprint), (0x12, g.entry.imprint)]
        ++ (if g.placement.isSome || (g.schedule.streams.any fun x => x.cmds.any fun r => (cmdHead r).opcode == 0x50) then
          [(0x13, g.entry.imprint)] else [])

/-- Check 3 (R485, R486). -/
def directoryOk (e : Edition) : Bool :=
  let known := e.dir.all fun x => x.reserved == 0 &&
    if packageSections.contains x.type then x.imprint == 0xFF
    else decide (0x10 ≤ x.type) && decide (x.type ≤ 0x14) && decide (x.imprint < 16)
  let pairs := e.dir.map fun x => (x.type, x.imprint)
  known && dirOrder e.head.imageBytes (128 + 16 * e.dir.length) e.dir && (nub pairs).length == pairs.length
    && match e.body with
      | .major m => (requiredSections m).all pairs.contains
      | .minor _ => true

/-! Check 4: references. -/

/-- Sequence slots of an imprint (R331, R338). -/
def slotCount (g : ImprintCfg) : Nat := g.serving.dCap + g.serving.pSeq + g.serving.cSeq + g.serving.rRes

/-- Does a record name descriptors, plates, watch points, layers, heads, sequence slots, font streams and expert layers that exist? -/
def recordRefs (g : ImprintCfg) (r : BitVec 512) : Bool :=
  let h := cmdHead r
  let n := g.formats.descs.length
  let v := vectorBody r
  let expert := fun (l e : Nat) => match g.placement with
    | some p => p.layers.any fun x => x.layer == l && decide (e < x.experts.length)
    | none => false
  if h.opcode = 0x10 || h.opcode = 0x20 then
    let b := matrixBody r
    decide (b.wDesc < n) && decide (b.aDesc < n) && (b.plate == 0xFFFF || decide (b.plate < g.formats.plates.length))
      && (b.watch == 0xFF || decide (b.watch < g.formats.watch.length))
  else if h.opcode = 0x11 || h.opcode = 0x21 then decide ((loadBody r).desc < n)
  else if h.opcode = 0x30 then
    let b := attendBody r
    decide (b.seq < slotCount g) && ((g.formats.layers[b.layer]?).map fun l => decide (b.head < l.heads)).getD false
  else if h.opcode = 0x31 then decide ((mergeBody r).layer < g.formats.layers.length)
  else if h.opcode = 0x42 then decide (v.aux < slotCount g)
  else if h.opcode = 0x43 || h.opcode = 0x5A then decide (v.aux < g.formats.streams.length)
  else if h.opcode = 0x50 then expert v.aux 0
  else if h.opcode = 0x51 then expert (v.aux % 65536) (v.aux / 65536)
  else true

/-- Commands of an imprint's streams, numbered. -/
def allRecords (g : ImprintCfg) : List (Nat × BitVec 512) :=
  (g.schedule.streams.flatMap (·.cmds)).zipIdx.map fun x => (x.2, x.1)

/-- Is a descriptor's font there (R490)? -/
def fontRef (g : ImprintCfg) (d : TensorDesc) : Bool :=
  d.font == 0xFFFF || (if d.cls = 2 then decide (d.font < g.formats.streams.length)
    else (g.formats.fonts.filterMap Font.ofImage).any fun f => f.id == d.font)

/-- Check 4 on a placement: replicas lie on cores of the domain's packages (R269, R271). -/
def placementRefs (p : Placement) (plc : Nat) : List Spot :=
  p.layers.zipIdx.flatMap fun x => need (x.1.experts.all fun ex => ex.replicas.all fun r =>
    p.members.contains r.1 && decide (r.2 < 192)) plc x.2

/-- Check 4 for one imprint. -/
def imprintRefs (e : Edition) (t : Topology) (g : ImprintCfg) : List Spot :=
  let i := g.entry.imprint
  let map := secIndex e 3 0xFF
  let fmt := secIndex e 0x10 i
  let sch := secIndex e 0x11 i
  let plc := secIndex e 0x13 i
  need (g.cores.all fun c => decide (c < 192)) map i ++ need (g.channels.all fun c => decide (c < 384)) map i
    ++ need (g.entry.set == 0xFFFF || decide (g.entry.set < t.sets.length)) map i
    ++ g.formats.descs.zipIdx.flatMap (fun x => need (fontRef g x.1) fmt x.2)
    ++ g.formats.plates.zipIdx.flatMap (fun x => need (x.1.rc == 0 ||
        (decide (x.1.vDesc < g.formats.descs.length) && decide (x.1.uDesc < g.formats.descs.length))) fmt x.2)
    ++ g.formats.watch.zipIdx.flatMap (fun x => need (g.cores.contains x.1.home && decide (x.1.layer < g.formats.layers.length))
        fmt x.2)
    ++ g.formats.layers.zipIdx.flatMap (fun x => need (decide (x.1.cls < g.folio.length)) fmt x.2)
    ++ g.schedule.streams.zipIdx.flatMap (fun x => need (g.cores.contains x.1.core && decide (x.1.job < g.schedule.jobs)) sch x.2)
    ++ (allRecords g).flatMap (fun x => need (recordRefs g x.2) sch x.1)
    ++ (g.placement.map fun p => placementRefs p plc).getD []

/-! Check 5: formats. -/

/-- A tensor's formats and row length (R38, R39, R50, R52), and its tensor scale, finite and not negative (R49). -/
def descOk (d : TensorDesc) : Bool :=
  match Elem.ofCode d.elem, Scale.ofCode d.scale with
  | some f, some sf =>
    scaleAllowed f sf && d.k % (if sf == .none then 32 else f.block) == 0 && isFin d.tscale && !ltF d.tscale (zeroF false)
      && decide (d.cls < 4) && decide (d.flags < 4)
  | _, _ => false

/-- The formats of a matrix or load record's operands (R60, R62): a pairing of the table, of the W2A8 class on the Roller; a load
brings an activation that such a pairing takes. -/
def pairOk (g : ImprintCfg) (r : BitVec 512) : Bool :=
  let h := cmdHead r
  let elem := fun n => (g.formats.descs[n]?).bind fun d => Elem.ofCode d.elem
  if h.opcode = 0x10 || h.opcode = 0x20 then
    match elem (matrixBody r).wDesc, elem (matrixBody r).aDesc with
    | some wf, some af => match pairing wf af with
      | some c => h.opcode == 0x10 || c == .w2a8
      | none => false
    | _, _ => false
  else if h.opcode = 0x11 || h.opcode = 0x21 then
    match elem (loadBody r).desc with
    | some f => f.is8 || f.is4 || (f == .bf16 && h.opcode == 0x11)
    | none => false
  else true

/-- May the LQ7 write an element format with a block scale (R39, R50, R59)? -/
def writableFormat (fmt sf : Nat) : Bool :=
  match Elem.ofCode fmt, Scale.ofCode sf with
  | some f, some x => !f.isCoded && scaleAllowed f x
  | _, _ => false

/-- The format codes that a Galley, Setter or Imposer record names (R38, R39, R59, R164, R307). -/
def outputOk (r : BitVec 512) : Bool :=
  let op := (cmdHead r).opcode
  let v := vectorBody r
  if op = 0x30 then !(attendBody r).final || writableFormat (attendBody r).outFmt (attendBody r).outSf
  else if op = 0x31 then !(mergeBody r).final || writableFormat (mergeBody r).outFmt (mergeBody r).outSf
  else if op = 0x40 then (Elem.ofCode v.inFmt).isSome && writableFormat v.outFmt v.outSf && (v.subop == 8 || v.outSf == 0)
  else if op = 0x41 then (Elem.ofCode v.inFmt).isSome && writableFormat v.outFmt 0 && v.outSf == 0
  else if (decide (0x42 ≤ op) && decide (op ≤ 0x43)) || (decide (0x50 ≤ op) && decide (op ≤ 0x5A)) then
    (v.inFmt == 0 || (Elem.ofCode v.inFmt).isSome) && v.outFmt == 0 && v.outSf == 0
  else true

/-- A layer's formats (R158, R159, R161), its headroom from 1.0 to 256.0 and its floor above zero (R192). -/
def layerOk (l : LayerCfg) : Bool :=
  [1, 2, 4, 8, 16].contains l.g && [64, 128, 256].contains l.d
    && (l.kv == .bf16 || l.kv == .e4m3 || l.kv == .e5m2 || l.kv == .int4)
    && isFin l.headroom && !ltF l.headroom 0x3F800000#32 && !ltF 0x43800000#32 l.headroom && isFin l.sMin && ltF (zeroF false) l.sMin

/-- A layer's folio class is that of its KV format and head dimension (R199). -/
def classOk (g : ImprintCfg) (l : LayerCfg) : Bool := ((g.folio[l.cls]?).map fun c => c.fmt == l.kv && c.d == l.d).getD true

/-- The formats of an expert layer: an activation format of R60 with a block scale of R50, RETURN rows in BF16 or FP32, and an output that the
LQ7 writes (R275). -/
def expertFormats (l : ExpertLayer) : Bool :=
  (l.rowFmt.is8 || l.rowFmt.is4 || l.rowFmt == .bf16) && scaleAllowed l.rowFmt l.rowScale && l.width % l.rowFmt.block == 0
    && (l.retFmt == .bf16 || l.retFmt == .fp32) && !l.outFmt.isCoded && scaleAllowed l.outFmt l.outScale

/-- A fixed font: a sound image with an ID of its own from 0x0001 to 0x0FFF (R128, R132). -/
def fixedFontOk (before : List (List Byte)) (image : List Byte) : Bool :=
  match Font.ofImage image with
  | some f => decide (1 ≤ f.id) && decide (f.id ≤ 0xFFF) && !((before.filterMap Font.ofImage).any fun x => x.id == f.id)
  | none => false

/-- Check 5 for one imprint. -/
def imprintFormats (e : Edition) (g : ImprintCfg) : List Spot :=
  let i := g.entry.imprint
  let fmt := secIndex e 0x10 i
  let sch := secIndex e 0x11 i
  g.formats.descs.zipIdx.flatMap (fun x => need (descOk x.1) fmt x.2)
    ++ g.formats.fonts.zipIdx.flatMap (fun x => need (fixedFontOk (g.formats.fonts.take x.2) x.1) fmt x.2)
    ++ need (decide (g.formats.streams.length ≤ 128)) fmt 0
    ++ g.formats.layers.zipIdx.flatMap (fun x => need (layerOk x.1 && classOk g x.1) fmt x.2)
    ++ (g.placement.map fun p => p.layers.zipIdx.flatMap fun x => need (expertFormats x.1) (secIndex e 0x13 i) x.2).getD []
    ++ (allRecords g).flatMap (fun x => need (pairOk g x.2 && outputOk x.2) sch x.1)
    ++ (placeAll g 0 g.schedule.streams).flatMap fun x => need (queryOk g x) sch x.index

/-! Check 6: limits. -/

/-- The most tokens that the serving settings can put in one manifest (R257, R331, R332, R337). -/
def manifestTokens (g : ImprintCfg) : Nat :=
  let v := g.serving
  let wide := if g.entry.spec = 1 then 1 + v.kMax else if g.entry.spec = 2 then v.template.length else 1
  let narrow := if g.entry.spec = 2 then v.tChunk else wide
  min v.pCap (4096 * v.pSeq) + max (v.dCap * wide) (v.dCap * narrow + v.cSeq * v.lC) + v.rRes

/-- The quoins that a stream names, in order. -/
def streamQuoins (x : CoreStream) : List Nat := x.cmds.filterMap fun r => if (cmdHead r).opcode = 0x01 then some (recBytes r 8 9) else none

/-- R290, R292, R294 on one stream: it begins with its job's OPEN quoin and ends with its CLOSE quoin, and names every quoin of its job in
order; in an Interleaved image its save area lies in the near slice. -/
def streamOk (g : ImprintCfg) (x : CoreStream) : Bool :=
  let qs := g.schedule.quoins.filter fun q => q.job == x.job
  let op := fun (r : Option (BitVec 512)) => (r.map fun r => (cmdHead r).opcode) == some 0x01
  decide (2 ≤ x.cmds.length) && decide (x.cmds.length ≤ 16384) && decide (x.saveOff + 8192 ≤ 0x3000000)
    && (g.schedule.interleaved || (x.job == 0 && x.saveOff == 0))
    && op x.cmds.head? && op x.cmds.getLast? && streamQuoins x == List.range qs.length && qs.map (·.index) == List.range qs.length
    && (qs.head?.map (·.kind)) == some .opening && (qs.getLast?.map (·.kind)) == some .closing
    && ((qs.drop 1).dropLast).all fun q => q.kind == .mid

/-- R290, R291, R320 on all streams: one entry for each core and job, at most 16,384 commands on a core, save areas apart from one another and
from what the records of the core use. -/
def streamsOk (g : ImprintCfg) (xs : List Placed) : Bool :=
  let ss := g.schedule.streams
  let apart := fun (a b m n : Nat) => decide (a + m ≤ b) || decide (b + n ≤ a)
  (nub (ss.map fun x => (x.core, x.job))).length == ss.length
    && (nub (ss.map (·.core))).all (fun c => decide ((((ss.filter fun x => x.core == c).map fun x => x.cmds.length).sum) ≤ 16384))
    && (!g.schedule.interleaved || ss.all fun x =>
      (ss.all fun y => y.core != x.core || y.job == x.job || apart x.saveOff y.saveOff 8192 8192)
        && xs.all fun y => y.core != x.core || (recordSpans g y).all fun a =>
          t0Core a.addr != x.core || apart x.saveOff (t0Off a.addr) 8192 a.bytes)

/-- Check 6 on a placement (R262, R269, R270, R3). -/
def placementLimits (p : Placement) (plc : Nat) : List Spot :=
  p.layers.zipIdx.flatMap (fun x => need (decide (1 ≤ x.1.cMax) && decide (x.1.cMax ≤ 16384) && decide (1 ≤ x.1.f)
      && decide (x.1.f ≤ 65535) && decide (1 ≤ x.1.experts.length) && decide (x.1.experts.length ≤ 4096)
      && x.1.experts.all fun ex => decide (1 ≤ ex.replicas.length) && decide (ex.replicas.length ≤ 16)) plc x.2)
    ++ need (decide ((p.layers.map fun x => x.experts.length).sum ≤ 16384)) plc 0

/-- Check 6 for one imprint. -/
def imprintLimits (k : Site) (e : Edition) (g : ImprintCfg) : List Spot :=
  let i := g.entry.imprint
  let xs := placeAll g 0 g.schedule.streams
  let sch := secIndex e 0x11 i
  let plc := secIndex e 0x13 i
  need (e.sectionSays 0x11 i scheduleClean) sch 0
    ++ g.schedule.streams.zipIdx.flatMap (fun x => need (streamOk g x.1) sch x.2) ++ need (streamsOk g xs) sch 0
    ++ xs.flatMap (fun x => need (recordLimits k g xs x && recordFlow k g xs x) sch x.index)
    ++ g.formats.plates.zipIdx.flatMap (fun x => need (plateOk x.1) (secIndex e 0x10 i) x.2)
    ++ (g.placement.map fun p => need (decide (manifestTokens g ≤ 65536)) plc 0 ++ placementLimits p plc).getD []

/-! Check 7: resources. -/

/-- Disjointness of lists of numbers. -/
def disjointAll (xs : List (List Nat)) : Bool :=
  let all := xs.flatMap id
  (nub all).length == all.length

/-- Is a value in a range? -/
def within (lo x hi : Nat) : Bool := decide (lo ≤ x) && decide (x ≤ hi)

/-- The serving settings (R331). -/
def servingOk (g : ImprintCfg) : Bool :=
  let v := g.serving
  within 1 v.dCap 4096 && within 0 v.pSeq 256 && within 0 v.pCap 65536 && within 0 v.cSeq 256 && within 1 v.lC 4096
    && within 0 v.rRes 16 && v.rRes == g.schedule.reserve && decide (v.qLo < v.qHi) && decide (v.qHi < 2 ^ 32)
    && within 0 v.kMax 8 && within 1 v.draftK 1024 && decide (v.dCap + v.pSeq + v.cSeq + v.rRes ≤ 4096)
    && (g.entry.spec != 2 || (parentsValid v.template && within 1 v.tChunk 64))

/-- A T2 region (R251): a host range is aligned to 4 KiB, a whole number of KiB long and at most 4 TiB; a lent one is reached in pieces of
256 B. -/
def regionOk : T2Region → Bool
  | .host base len => base % 4096 == 0 && len % 1024 == 0 && decide (len ≤ 2 ^ 42) && decide (base + len ≤ 2 ^ 64)
  | .lent e base len => decide (e < 2 ^ 18) && base % 256 == 0 && len % 256 == 0

/-- The ranges of an entry (R489) and of the Densitometer (R116). -/
def entryOk (g : ImprintCfg) : Bool :=
  let x := g.entry
  let d := g.density
  decide (x.imprint < 16) && decide (x.spec ≤ 2) && decide (x.spill ≤ 2) && within 1 x.lookahead 64 && within 1 x.lateness 255
    && within 1 x.starvation 255 && within 1 x.admitBudget 65535 && within 0 x.adapterSlots 4095
    && within 1 g.channels.length 384 && within 0 g.t2.length 64 && g.t2.all regionOk && within 1 d.thetaUp 255 && within 1 d.thetaDown 255
    && within 1 d.k 8 && within 1 d.warmup 255 && within 0 d.reserve 16 && decide (g.formats.watch.length ≤ 64)
    && decide (g.folio.length ≤ 16) && decide (x.manifest < 2 ^ 26)
    && g.folio.all (fun f => [0, 1, 2].all fun t => decide (f.low.getD t 0 < f.high.getD t 0))

/-- The bytes of the reserve parts that an imprint's manifest and its lists may take from its base (R338, R340, R350): the header, the slots,
the shard table, and for each slot its tokens, its parent vector and its draft lists of 1,024 pairs for each entry. -/
def manifestBytes (g : ImprintCfg) : Nat :=
  let v := g.serving
  let shards := (g.schedule.streams.flatMap (·.cmds)).foldl (fun n r =>
    if (cmdHead r).opcode = 0x30 then max n ((attendBody r).shard + 1) else n) 0
  let list := fun n => 5 * n + 8 + (if g.entry.spec = 0 then 0 else 8192 * n)
  64 + 64 * slotCount g + 8 * shards + v.dCap * list (max (1 + v.kMax) v.template.length) + 4 * (v.pCap + v.cSeq * v.lC + v.rRes)

/-- Reserve-part space (R338, R495): each imprint's manifest area lies in the part, and the areas are apart. -/
def reserveOk (gs : List ImprintCfg) : Bool :=
  gs.zipIdx.all fun x => decide (x.1.entry.manifest + manifestBytes x.1 ≤ 0x4000000) && (gs.take x.2).all fun y =>
    decide (x.1.entry.manifest + manifestBytes x.1 ≤ y.entry.manifest) || decide (y.entry.manifest + manifestBytes y ≤ x.1.entry.manifest)

/-- The POWER section's ranges (R559). -/
def powerOk (p : PowerCfg) : Bool :=
  within 400 p.orphanCap 2600 && within 1 p.rampUp 2600 && within 1 p.rampDown 2600 && within 0 p.guard 200
    && within 2 p.floorHold 255 && within 1 p.marginLow 100 && decide (p.marginRetire < p.marginLow) && within 24 p.horizon 65535

/-- Check 7. -/
def State.resources (s : State) (e : Edition) (m : Major) : List Spot :=
  let map := secIndex e 3 0xFF
  let nums := m.imprints.map fun g => g.entry.imprint
  need (e.packageClean && within 1 m.imprints.length 16 && (nub nums).length == nums.length) map 0
    ++ need (m.partitioned || (nums == [0] && m.imprints.all fun g => g.cores.length == 192)) map 0
    ++ need (disjointAll (m.imprints.map fun g => g.cores)) map 0 ++ need (disjointAll (m.imprints.map fun g => g.channels)) map 0
    ++ need (decide ((m.imprints.map fun g => g.entry.liveLimit).sum ≤ 262144)) map 0
    ++ m.imprints.zipIdx.flatMap (fun x => need (servingOk x.1 && entryOk x.1) map x.2)
    ++ m.imprints.flatMap (fun g => need (exposedWindows g (placeAll g 0 g.schedule.streams)) (secIndex e 0x12 g.entry.imprint) 0)
    ++ need (m.imprints.all fun g => g.channels.all fun c => !s.mem.failed.contains c) map 0
    ++ need (reserveOk m.imprints) map 0
    ++ need (powerOk m.power && within 600 (Config.vFuse.toNat + m.power.guard) 800) (secIndex e 4 0xFF) 0

/-! Checks 8 to 12. -/

/-- Check 8 (R24 to R26, R525): the physical cores whose entry is wrong, against the map in force. -/
def State.coreMapFails (s : State) (e : Edition) (m : Major) : List Spot :=
  let sec := secIndex e 1 0xFF
  let wrong := fun p =>
    let x := m.coreMap.getD p 0xFF
    let old := s.ed.coreMap.getD p 0xFF
    (x != 0xFF && (coreFuse p || s.ed.disabled.contains p)) || (decide (192 ≤ x) && x != 0xFE && x != 0xFF)
      || (decide (x < 192) && (x / 96 != p / 104 || (old != x && old != 0xFE)
          || ((List.range 208).any fun q => q != p && m.coreMap.getD q 0xFF == x)))
  need (m.coreMap.length == 208) sec 0
    ++ ((List.range 208).filter wrong).map (fun p => (sec, p))
    ++ need ((List.range 192).all m.coreMap.contains) sec 0

/-- Does a port's last HELLO give the plan entry its link (R403)? -/
def State.linkFound (s : State) (p : Nat) (x : PortPlan) : Bool :=
  match (s.port p).lastHello with
  | none => false
  | some h => planMatches x p h && (wireOf s.wireMax s.wireMin h).isSome

/-- Check 9 (R403, R404): REQUIRED ports whose link is missing. -/
def State.topologyFails (s : State) (e : Edition) (m : Major) : List Spot :=
  m.topology.ports.zipIdx.flatMap fun x => need (x.1.need != .required || s.linkFound x.2 x.1) (secIndex e 2 0xFF) x.2

/-- Has every REQUIRED port an outcome (R404)? -/
def State.discovered (s : State) (m : Major) : Bool :=
  m.topology.ports.zipIdx.all fun x => x.1.need != .required || (s.port x.2).lastHello.isSome

/-- Do two exposure ranges meet? -/
def exposeMeet (a b : Exposure) : Bool := a.space == b.space && decide (a.base < b.base + b.len) && decide (b.base < a.base + a.len)

/-- Do two entries name the same streams (R423)? -/
def sameStream (a b : Exposure) : Bool := a.source == b.source && a.mask == b.mask && a.srcImprint == b.srcImprint

/-- May one byte be exposed by both entries (R423)? RIGHTS bits: 0 LOAD, 1 STORE, 2 ATOMIC, 3 FLAG, 4 SHARED. -/
def exposePair (a b : Exposure) : Bool :=
  let shared := fun (x : Exposure) => bitOf x.rights 2 && bitOf x.rights 4
  let writes := fun (x : Exposure) => bitOf x.rights 1 || bitOf x.rights 3 || (bitOf x.rights 2 && !bitOf x.rights 4)
  let changes := fun (x : Exposure) => bitOf x.rights 1 || bitOf x.rights 2 || bitOf x.rights 3
  let plain := fun (x : Exposure) => bitOf x.rights 0 || bitOf x.rights 1 || bitOf x.rights 3
  !exposeMeet a b ||
    ((sameStream a b || !(writes a && writes b)) && !(shared a && plain b) && !(shared b && plain a)
      && (sameStream a b || (!(bitOf a.rights 0 && changes b) && !(bitOf b.rights 0 && changes a))))

/-- A range inside the imprint (R423). -/
def exposeInside (g : ImprintCfg) (x : Exposure) : Bool :=
  if x.space = 0 then decide (x.base + x.len ≤ g.channels.length * channelBytes)
  else g.cores.contains (t0Core x.base) && decide (t0Off x.base + x.len ≤ 0x3000000)

/-- Does a plan give a package a first hop to an endpoint (R410)? -/
def plannedHop (t : Topology) (r : Routes) (self dest : Nat) : Bool := dest == self || !(plannedPorts t r self dest).isEmpty

/-- Can the planned ports reach every destination of a pod that a REACH entry includes (R410)? -/
def podReached (t : Topology) (r : Routes) (self : Nat) (e : Nat × Nat) (pod : Nat) : Bool :=
  let whole := if pod = podOf self then (List.range 7).any (fun k => plannedUse t r (7 + k))
    else ((plannedPod t r self pod).map (plannedUse t r)).getD false
  if r.override.isEmpty && whole then true
  else (List.range 2048).all fun k => (2048 * pod + k) &&& e.2 != e.1 || plannedHop t r self (2048 * pod + k)

/-- Can the planned ports reach every destination that a REACH entry includes (R410)? -/
def entryReached (t : Topology) (r : Routes) (self : Nat) (e : Nat × Nat) : Bool :=
  ((List.range 128).filter fun pod => pod &&& (e.2 >>> 11) == e.1 >>> 11).all (podReached t r self e)

/-- Does an override send an imprint over the wrap link of port `p` (R412)? -/
def overridden (r : Routes) (p : Nat) : Bool := r.override.any fun y => bitOf y.2.2 p

/-- Check 10 for one imprint (R408, R410, R412, R422, R423, R443). -/
def State.routeFails (s : State) (e : Edition) (m : Major) (g : ImprintCfg) : List Spot :=
  let sec := secIndex e 0x12 g.entry.imprint
  let r := g.routes
  need (within 1 r.reach.length 64 && decide (r.override.length ≤ 256) && decide (r.exposure.length ≤ 256)) sec 0
    ++ r.reach.zipIdx.flatMap (fun x => need (entryReached m.topology r s.fab.endpoint x.1) sec x.2)
    ++ (List.range 7).flatMap (fun p =>
      need (!bitOf r.tray p || ((m.topology.ports[p]?).map fun x => x.need != .unused).getD false) sec p)
    ++ m.topology.ports.zipIdx.flatMap (fun x => match x.1.wrap with
      | some o => need (!overridden r x.2 || (r.optical == .torus && o == r.tslice)) sec x.2
      | none => [])
    ++ r.exposure.zipIdx.flatMap fun x =>
      need (exposeInside g x.1 && !(bitOf x.1.rights 4 && bitOf x.1.rights 2 && (bitOf x.1.rights 0 || bitOf x.1.rights 1
          || bitOf x.1.rights 3)) && !writesExposed g (placeAll g 0 g.schedule.streams) x.1
          && (r.exposure.take x.2).all fun y => exposePair y x.1) sec x.2

/-- W of R406 under a plan: the least of the package's, the entry's and those of the UP links that the routes or the transit rule
can use. -/
def State.wireFor (s : State) (t : Topology) (g : ImprintCfg) : Nat :=
  let transit := fun p => if p < 7 then bitOf t.transitTray p else if p < 14 then bitOf t.transitPlanes (p - 7) else true
  let up := (List.range 20).filter fun p => ((s.port p).state == .up || (s.port p).state == .held)
    && (((t.ports[p]?).map fun x => x.need != .unused && s.linkFound p x).getD false) && (g.routes.allows (some t) p || transit p)
  (up.map fun p => (s.port p).wire).foldl min (min s.wireMax g.entry.wireCap)

/-- Members of an entry's lock-step set. -/
def setMembers (t : Topology) (g : ImprintCfg) : List Nat := ((t.sets[g.entry.set]?).map (·.members)).getD []

/-- Has an imprint spans, GROUP layers, or a set of more than one package (R511)? -/
def coupled (t : Topology) (g : ImprintCfg) : Bool :=
  decide (1 < (setMembers t g).length) || ((g.placement.map fun p => p.layers.any (·.group)).getD false)

/-- Check 10, operations (R443): a fabric atomic above the imprint's operating wire version. -/
def State.operationFails (s : State) (e : Edition) (m : Major) (g : ImprintCfg) : List Spot :=
  (placeAll g 0 g.schedule.streams).flatMap fun x =>
    need (operationOk (s.wireFor m.topology g) x) (secIndex e 0x11 g.entry.imprint) x.index

/-- Check 11 (R406, R511). -/
def State.wireFails (s : State) (e : Edition) (m : Major) : List Spot :=
  m.imprints.zipIdx.flatMap fun x =>
    need (decide (s.wireMin ≤ s.wireFor m.topology x.1)
      && (!coupled m.topology x.1 || s.wireFor m.topology x.1 == x.1.entry.wireCap)) (secIndex e 3 0xFF) x.2

/-- Check 12 for one imprint (R511). -/
def modeOk (m : Major) (g : ImprintCfg) : Bool :=
  let x := g.entry
  let v := g.serving
  let rdec := ((v.rowMap.filter fun r => r.region == 0 || r.region == 2).map (·.rows)).sum
  let n := v.template.length
  x.interleaved == g.schedule.interleaved
    && (!x.interleaved || (!x.fixed && x.spec != 2 && !coupled m.topology g))
    && (x.spec != 1 || decide (v.dCap * (1 + v.kMax) + v.cSeq * v.lC ≤ rdec))
    && (x.spec != 2 || (within 1 v.tChunk n && decide (v.dCap * n ≤ rdec) && decide (v.dCap * v.tChunk + v.cSeq * v.lC ≤ rdec)
        && (v.cSeq != 0 || v.tChunk == n)))
    && (v.pSeq != 0 || decide (1 ≤ v.cSeq))
    && (if x.spec = 0 then v.draftCores == 0 && v.kMax == 0 else v.draftCores != 0)
    && (g.density.action != .escalate || decide (1 ≤ v.rRes))
    && (x.spill != 2 || decide (g.folio.length ≤ g.t2.length))
    && (placeAll g 0 g.schedule.streams).all (galleyPlain g)

/-- Check 12 (R511, R512). -/
def modeFails (k : Site) (e : Edition) (m : Major) : List Spot :=
  m.imprints.zipIdx.flatMap fun x =>
    need (modeOk m x.1 && (m.imprints.take x.2).all fun y => linksApart k y x.1) (secIndex e 3 0xFF) x.2

/-! Checks 13 to 15. -/

/-- Does a placement revision keep what only a major edition may change (R272)? -/
def placementKeeps (old new : Placement) : Bool :=
  old.members == new.members && old.layers.length == new.layers.length &&
    (old.layers.zip new.layers).all fun x => x.1.layer == x.2.layer && x.1.group == x.2.group && x.1.cMax == x.2.cMax
      && x.1.f == x.2.f && x.1.experts.length == x.2.experts.length && x.1.rowFmt == x.2.rowFmt && x.1.rowScale == x.2.rowScale
      && x.1.retFmt == x.2.retFmt && x.1.outFmt == x.2.outFmt && x.1.outScale == x.2.outScale && x.1.width == x.2.width

/-- The impression that counts as open: the number to come until its opening begins (R272). -/
def State.openImpression (s : State) (i : Nat) : Nat :=
  let m := s.imp i
  if m.serve.begun || m.serve.phase ≠ .closed then m.run.impression else m.run.impression - 1

/-- Check 13 (R272, R504). -/
def State.minorFails (s : State) (e : Edition) (m : Minor) : List Spot :=
  let i := e.head.imprint
  need (e.head.base == s.ed.number && (s.imp i).cfg.isSome && !s.heldOrNone i && m.onlyThese
      && (m.placement.isSome || m.adapters.isSome) && e.dir.all (fun x => (x.type == 0x13 || x.type == 0x14) && x.imprint == i)
      && decide (s.openImpression i < e.head.effective)) 0xFFFF 0
    ++ (match m.placement, s.placement i with
      | some p, some q => need (placementKeeps q p) (secIndex e 0x13 i) 0
      | some _, none => need false (secIndex e 0x13 i) 0
      | none, _ => [])

/-- Edition numbers in use (R495 row 14): the two majors and their minors. -/
def State.numbersInUse (s : State) : List Nat :=
  (s.ed.inForce.toList ++ s.ed.minors ++ s.ed.kept.toList ++ s.ed.keptMinors).map fun e => e.head.edition

/-- Check 14. -/
def State.numberOk (s : State) (e : Edition) : Bool := !s.numbersInUse.contains e.head.edition

/-- Check 15 (R497): imprints whose DRAIN_AT has already opened. -/
def State.drainFails (s : State) (e : Edition) (m : Major) : List Spot :=
  m.imprints.zipIdx.flatMap fun x =>
    let i := x.1.entry.imprint
    need (x.1.entry.drainAt == 0 || s.heldOrNone i || decide (s.openImpression i < x.1.entry.drainAt)) (secIndex e 3 0xFF) x.2

/-! All checks (R495). -/

/-- The failing places of a check of a major edition, by code; check 14 is not applied to a revert (R506). -/
def State.majorFails (s : State) (e : Edition) (m : Major) (revert : Bool) (code : Nat) : List Spot :=
  let k : Site := ⟨m.coreMap, m.topology, s.fab.endpoint⟩
  let own : List Spot :=
    if code = 4 then m.imprints.flatMap (imprintRefs e m.topology)
    else if code = 5 then m.imprints.flatMap (imprintFormats e)
    else if code = 6 then m.imprints.flatMap (imprintLimits k e)
    else if code = 7 then s.resources e m
    else if code = 8 then s.coreMapFails e m
    else if code = 9 then s.topologyFails e m
    else if code = 10 then m.imprints.flatMap fun g => s.routeFails e m g ++ s.operationFails e m g
    else if code = 11 then s.wireFails e m
    else if code = 12 then modeFails k e m
    else if code = 14 then need (revert || s.numberOk e) 0xFFFF 0
    else if code = 15 then s.drainFails e m
    else []
  own ++ (if 4 ≤ code && code ≤ 12 then (Config.staticCheck code e.bytes).toList else [])

/-- What a placement revision is checked for against the imprint's sections in force (R269, R272, R282): places and limits of its replicas,
and the tiles of its experts. -/
def State.placementFails (s : State) (e : Edition) (p : Placement) (code : Nat) : List Spot :=
  let i := e.head.imprint
  let plc := secIndex e 0x13 i
  if code = 4 then placementRefs p plc
  else if code = 5 then p.layers.zipIdx.flatMap fun x => need (expertFormats x.1) plc x.2
  else if code = 6 then placementLimits p plc ++ match s.cfg i with
    | some g => need ((placeAll g 0 g.schedule.streams).all (expertOk g p s.fab.endpoint)) plc 0
    | none => []
  else []

/-- The failing places of a check of a minor edition. -/
def State.minorCheck (s : State) (e : Edition) (m : Minor) (code : Nat) : List Spot :=
  if code = 13 then s.minorFails e m
  else if code = 14 then need (s.numberOk e) 0xFFFF 0
  else if 4 ≤ code && code ≤ 7 then
    (m.placement.map fun p => s.placementFails e p code).getD [] ++ (Config.staticCheck code e.bytes).toList
  else []

/-- The first failing check of a list of codes: its code, section and item. -/
def State.runChecks (s : State) (e : Edition) (revert : Bool) : List Nat → Option (Nat × Nat × Nat)
  | [] => none
  | c :: cs =>
    let fails : List Spot :=
      if c = 1 then need (headerOk e) 0xFFFF 0
      else if c = 2 then need (decide (Config.sha384 e.covered = e.digest)) 0xFFFF 0
      else if c = 3 then need (directoryOk e) 0xFFFF 0
      else match e.body with
        | .major m => s.majorFails e m revert c
        | .minor m => s.minorCheck e m c
    match firstSpot fails with
    | some x => some (c, x.1, x.2)
    | none => s.runChecks e revert cs

/-- Checks 1 to 15. -/
def allChecks : List Nat := (List.range 15).map (· + 1)

/-- The checks that a commit repeats (R496). -/
def recheckCodes : List Nat := (List.range 8).map (· + 8)

end Sys2Proof.Machine
end

