-- ==== Sys2Proof/Machine/EditionsOps.lean ====
section
/-!
DEFINITION. Editions: staging, committing, the point of no return, reverting (R197, R226, R242, R291, R404, R492 to R506).
-/
namespace Sys2Proof.Machine

open Sys2Proof

/-! The PF's edition tickets. -/

/-- The front ticket of a PF ring, when it is an accepted edition ticket of the opcode and its record has room (R461, R492). -/
def State.edTicket (s : State) (ring op : Nat) : Option Ticket :=
  if !s.answers || s.stopped || !s.serving 0 || s.inRest then none
  else match s.frontTicket 0 ring with
    | none => none
    | some t => if t.op = op && s.judge 0 ring t = 0 && s.recordRoom 0 ring 1 then some t else none

/-- The tickets behind an edition ticket are admitted or refused too (R492). -/
def State.pfRest (s : State) (ring : Nat) : State :=
  s.admitAll 0 ring ((((s.fn 0).ring ring).map fun r => r.waiting.length).getD 0)

/-- An edition ticket ends at once with a status. -/
def State.edEnd (s : State) (ring : Nat) (t : Ticket) (status : Nat) : State :=
  ((s.popTicket 0 ring).completeTicket 0 ring t status 0 0).pfRest ring

/-- An edition ticket whose work ran ends: its record, DEV_WORD, and the fences behind it (R330, R468, R492). -/
def State.edFinish (s : State) (ring tag op status : Nat) : State :=
  (s.recordNow 0 ring (some (ticketRecord tag status op s.ed.number 0 0 false))).pfFences

/-- An event of an edition: a minor edition's imprint, else the package (R513). -/
def State.edNotice (s : State) (e : Edition) (type code edition sec item : Nat) : State :=
  let b := fun i n => edEvent type code i edition n sec item s.ed.number 0 0
  match e.body with
  | .minor _ =>
    let i := e.head.imprint
    if i < 16 then s.editionEvent i (b i (s.imp i).run.impression) else s.pfEvent (b 0xFF 0)
  | .major _ => s.pfEvent (b 0xFF 0)

/-- EDITION_STAGE (R493): with another STAGE validating or a commit in progress it is refused; else its image is taken for
validation. -/
def execEditionStage (ring : Nat) (image : Option Edition) (s : State) : Host.Outcome State Fault Refusal :=
  match s.edTicket ring 0x20 with
  | none => .next s
  | some t =>
    if s.ed.stage.isSome || s.ed.work ≠ .idle then .next (s.edEnd ring t 0x0203)
    else match image with
      | none => .next (s.edEnd ring t 0x0300)
      | some e =>
        if t.f 32 4 ≠ e.head.edition then .next (s.edEnd ring t 0x0201)
        else
          let s := (s.popTicket 0 ring).setEd fun d => { d with stage := some ⟨ring, t.tag, t.f 32 4, some e, false⟩ }
          .next (s.pfRest ring)

/-- Is validation free to decide (R404)? -/
def State.mayValidate (s : State) (x : Staging) (e : Edition) : Bool :=
  match e.body with
  | .major m => x.timedOut || s.discovered m
  | .minor _ => true

/-- EDITION_VALIDATED (R493, R495): the checks decide; the edition is staged or refused, with a VALIDATED event and the ticket's
record. -/
def execEditionValidated (s : State) : Host.Outcome State Fault Refusal :=
  match s.ed.stage with
  | none => .next s
  | some x =>
    match x.image with
    | none => .next s
    | some e =>
      if s.stopped || !s.mayValidate x e then .next s
      else
        let r := s.runChecks e false allChecks
        let f := r.getD (0, 0xFFFF, 0)
        let s := s.edNotice e 0x0010 f.1 x.num f.2.1 f.2.2
        let s := s.setEd fun d => { d with stage := none, staged := if r.isNone then some e else d.staged }
        .next (s.edFinish x.ring x.tag 0x20 (if r.isNone then 0 else 0x0501))

/-- DISCOVERY_TIMEOUT (R404): validation waits no longer; a planned port with no neighbour is missing. -/
def execDiscoveryTimeout (s : State) : Host.Outcome State Fault Refusal :=
  match s.ed.stage with
  | none => .next s
  | some x =>
    match x.image.map Edition.body with
    | some (EdBody.major m) =>
      if s.stopped then .next s
      else
        let s := { s with ed := { s.ed with stage := some { x with timedOut := true } } }
        .next (m.topology.ports.zipIdx.foldl (fun s y =>
          if y.1.need ≠ .unused && (s.port y.2).lastHello.isNone && decide (y.2 < 20) then
            let told := s.imprintList.filter fun i => s.names i y.2
            s.modPort y.2 fun z => { z with reason := 9, missing := true, news := nub (z.news ++ told) }
          else s) s)
    | _ => .next s

/-! Committing (R496 to R499, R504, R506). -/

/-- EDITION_COMMIT (R496, R504): a minor edition that still passes check 13 becomes pending; a major one is read again and
rechecked. -/
def execEditionCommit (ring : Nat) (s : State) : Host.Outcome State Fault Refusal :=
  match s.edTicket ring 0x21 with
  | none => .next s
  | some t =>
    match s.ed.staged with
    | none => .next (s.edEnd ring t 0x0203)
    | some e =>
      if e.head.edition ≠ t.f 32 4 || s.ed.work ≠ .idle then .next (s.edEnd ring t 0x0203)
      else match e.body with
        | .minor _ =>
          if s.ed.pendingMinor.isSome then .next (s.edEnd ring t 0x0203)
          else match s.runChecks e false [13] with
            | some f => .next ((s.edNotice e 0x0012 f.1 e.head.edition f.2.1 f.2.2).edEnd ring t 0x0501)
            | none =>
              let s := (s.popTicket 0 ring).setEd fun d => { d with staged := none, pendingMinor := some (e, ring, t.tag) }
              .next (s.pfRest ring)
        | .major _ =>
          .next (((s.popTicket 0 ring).setEd fun d => { d with work := .rechecking ring t.tag false }).pfRest ring)

/-- EDITION_REVERT (R506): a pending minor edition is dropped; else the kept edition is committed; else it is refused. -/
def execEditionRevert (ring : Nat) (s : State) : Host.Outcome State Fault Refusal :=
  match s.edTicket ring 0x22 with
  | none => .next s
  | some t =>
    if s.ed.pendingMinor.isSome then .next (s.dropMinor.edEnd ring t 0)
    else if s.ed.work ≠ .idle || s.ed.kept.isNone then .next (s.edEnd ring t 0x0203)
    else .next (((s.popTicket 0 ring).setEd fun d => { d with work := .rechecking ring t.tag true }).pfRest ring)

/-- Are images read again those that validation took (R494, R496)? -/
def sameImages (read : List (Option Edition)) (held : List Edition) : Bool :=
  read.length == held.length && (read.zip held).all fun x => match x.1 with
    | some e => Config.sha384 e.covered == x.2.digest
    | none => false

/-- An entry with what R498 lets change set to one value. -/
def entryCore (e : EntryCfg) : EntryCfg :=
  { e with drainAt := 0, liveLimit := 0, admitBudget := 0, lookahead := 0, lateness := 0, starvation := 0, wireCap := 0 }

/-- Does a new edition's imprint keep everything that R498 asks for? -/
def carries (a b : ImprintCfg) : Bool :=
  a.formats == b.formats && a.schedule == b.schedule && entryCore a.entry == entryCore b.entry && a.cores == b.cores
    && a.channels == b.channels && a.t2 == b.t2 && a.serving == b.serving && a.density == b.density && a.folio == b.folio

/-- Is an imprint of a new edition carried (R498)? -/
def State.carried (s : State) (g : ImprintCfg) : Bool :=
  let i := g.entry.imprint
  !s.heldOrNone i && match s.cfg i with
    | some old => carries old g
    | none => false

/-- The drain impression of a running imprint (R497), and whether its requests end there (R499). -/
def State.setDrain (s : State) (m : Major) (i : Nat) : State :=
  if s.heldOrNone i then s
  else
    let g := m.imprints.find? fun g => g.entry.imprint == i
    let at_ := (g.map (·.entry.drainAt)).getD 0
    let n := if at_ = 0 then s.openImpression i + 1 else at_
    let ends := match g with
      | some g => !s.carried g
      | none => true
    s.modServe i fun v => { v with drain := some n, drained := false, drainEnds := ends }

/-- EDITION_RECHECK_DONE (R496, R497, R506): a recheck that fails ends the commit or revert with EDITION_INVALID and changes
nothing; else every running imprint gets its drain quoin. -/
def execEditionRecheckDone (image : Option Edition) (minors : List Edition) (s : State) : Host.Outcome State Fault Refusal :=
  match s.ed.work with
  | .rechecking ring tag rev =>
    if s.stopped then .next s
    else match if rev then s.ed.kept else s.ed.staged with
      | none => .next s
      | some e =>
        let held := if rev then s.ed.keptMinors else []
        let same := sameImages (image :: minors.map some) (e :: held)
        match if same then s.runChecks e rev recheckCodes else some (2, 0xFFFF, 0) with
        | some f =>
          let s := (s.edNotice e 0x0012 f.1 e.head.edition f.2.1 f.2.2).setEd fun d => { d with work := .idle }
          .next (s.edFinish ring tag (if rev then 0x22 else 0x21) 0x0501)
        | none =>
          match e.body with
          | .minor _ => .next s
          | .major m =>
            let s := s.setEd fun d => { d with work := .draining ring tag rev e held }
            .next (State.sample (s.imprintList.foldl (fun s i => s.setDrain m i) s))
  | _ => .next s

/-! The point of no return (R500). -/

/-- Logical cores whose physical core changes between two core maps (R26, R197). -/
def retirements (old new : List Nat) : List Nat :=
  (List.range 192).filter fun c =>
    (indexes (fun x => x == c) old).head? ≠ (indexes (fun x => x == c) new).head?

/-- A core with its command store loaded (R291, R294): every job at its first command; two contexts are held (R322). -/
def loadedCore (base : Core) (xs : List CoreStream) : Core :=
  let ys := sortBy (fun (a b : CoreStream) => decide (a.job < b.job)) xs
  { base with streams := ys.foldl (fun m x => spPut [] m x.job x.cmds) [],
              saveOff := ys.foldl (fun m x => spPut 0 m x.job x.saveOff) [],
              jobs := ys.zipIdx.foldl (fun m x =>
                spPut CoreJob.fresh m x.1.job { CoreJob.fresh with held := decide (1 < ys.length) && decide (x.2 < 2) }) [],
              inflight := [], served := [], issues := 0, stopped := false }

/-- Step 3: slices are copied for retirements, the core map takes effect, and the set-point is sent (R558). -/
def State.newMap (s : State) (m : Major) : State :=
  let gone := retirements s.ed.coreMap m.coreMap
  let s := gone.foldl (fun s c => (s.copySlice c).modCore c fun _ => Core.empty) s
  let v := Config.vFuse.toNat + m.power.guard
  let s := { s with ed := { s.ed with coreMap := m.coreMap, disabled := [] }, lostCores := [],
                    power := { s.power with setpoint := v } }
  let s := s.emit (.supply v)
  if gone.isEmpty then s
  else m.imprints.foldl (fun s g => s.modServe g.entry.imprint fun v => { v with timingVoid := v.timingVoid ||| 4 }) s

/-- Step 4: the slices and channels of created imprints are filled with zeros (R226, R242). -/
def State.zeroFor (s : State) (created : List ImprintCfg) : State :=
  let cs := created.flatMap (·.cores)
  let s := { s with t0 := { s.t0 with bytes := s.t0.bytes.filter (fun x => !cs.contains (t0Core x.1)),
                                      flips := s.t0.flips.filter (fun x => !cs.contains (t0Core (8 * x.1))) },
                    cores := s.cores.filter (fun x => !cs.contains x.1) }
  (created.flatMap (·.channels)).foldl (fun s c => s.modCh c fun x => { x with data := [], bad := [], rewrite := [] }) s

/-- What a carried imprint keeps (R501), with its new entry. -/
def Imprint.carry (g : ImprintCfg) (m : Imprint) : Imprint :=
  { m with
    cfg := some g
    run := { m.run with epoch := 0, fontActive := [], fontBuilt := [], fontSlots := [] }
    serve := { m.serve with drain := none, drained := false, drainEnds := false, retire := false, removed := [],
                            lastReports := [], lateness := [], rosters := [], placement := none, adapterList := none } }

/-- A created imprint (R498, R501): its first impression is number 1. TEL_REPRO, a register, keeps what was written. -/
def Imprint.create (g : ImprintCfg) (m : Imprint) : Imprint :=
  { Imprint.absent with cfg := some g, step := m.step, go := m.go, report := m.report, steps := m.steps,
                        serve := { Serve.fresh with timingVoid := m.serve.timingVoid } }

/-- An ended imprint that the new edition gives no entry (R508). -/
def Imprint.finish (m : Imprint) : Imprint :=
  { Imprint.absent with step := m.step, go := m.go, report := m.report, steps := m.steps }

/-- Step 2, and what R498 and R499 do to the imprints themselves. -/
def State.newImprints (s : State) (m : Major) (carried : List Nat) : State :=
  (List.range 16).foldl (fun s i =>
    match m.imprints.find? fun g => g.entry.imprint == i with
    | some g =>
      if carried.contains i then s.modImp i (Imprint.carry g)
      else
        let n := s.boot.drbg
        let s := { s with boot := { s.boot with drbg := n + 1, keySlots := spPut 0 s.boot.keySlots i (n + 1) } }
        s.modImp i (Imprint.create g)
    | none =>
      ({ s with boot := { s.boot with keySlots := spErase s.boot.keySlots i } }).modImp i Imprint.finish) s

/-- Step 5: command stores of every core of the package. -/
def State.loadStores (s : State) (m : Major) : State :=
  (List.range 192).foldl (fun s c =>
    match m.imprints.find? fun g => g.cores.contains c with
    | some g => s.modCore c fun x => loadedCore x (g.schedule.streams.filter fun y => y.core == c)
    | none => s.modCore c fun _ => Core.empty) s

/-- Step 5: port outcomes by the new plan (R403), HELLO at once (R402), W of each imprint (R406), the ports in use (R404). -/
def State.newRoutes (s : State) (m : Major) : State :=
  let s := (List.range 20).foldl (fun s p =>
    let x := s.port p
    if x.state = .up || x.state = .held then s.settlePort p
    else if ((m.topology.ports[p]?).map fun e => e.need != .unused && x.lastHello.isNone).getD false then
      s.modPort p fun x => { x with reason := 9, missing := true }
    else s) s
  let s := m.imprints.foldl (fun s g => s.modImp g.entry.imprint fun x => { x with wire := s.wireFor m.topology g }) s
  let s := (List.range 20).foldl (fun s p =>
    let x := s.port p
    if x.state = .up || x.state = .held then
      (s.modPort p fun y =>
        { y with helloDue := true, reason := if y.state = .up then s.upReason p y.wire else y.reason }).pump p
    else s) s
  m.imprints.foldl (fun s g => s.fixPorts g.entry.imprint) s

/-- A source stream in its next generation (R429, R433). -/
def OutStream.advance (x : OutStream) : OutStream :=
  { x with sgen := x.sgen + 1, next := 0, dead := false, holdoff := x.holdoff || x.next != 0, outstanding := [], waiting := [] }

/-- Step 6: generations; no bay keeps a gate of an earlier epoch. -/
def State.newGenerations (s : State) : State :=
  { s with fab := { s.fab with streams := s.fab.streams.map OutStream.advance, gens := s.fab.gens + 1, gates := [] } }

/-- A kept minor edition that comes back with its major (R506). -/
def State.putMinor (s : State) (e : Edition) : State :=
  match e.body with
  | .major _ => s
  | .minor m =>
    let s := s.modServe e.head.imprint fun v =>
      { v with placement := match m.placement with | some p => some p | none => v.placement,
               adapterList := match m.adapters with | some a => some a | none => v.adapterList }
    s.extend 5 e.digest

/-- One bit per imprint number. -/
def maskBits (xs : List Nat) : Nat := (xs.map fun i => 2 ^ i).sum

/-- Everything of R500 for a major edition with the minor editions that come with it. -/
def State.pass (s : State) (ring tag : Nat) (rev : Bool) (e : Edition) (minors : List Edition) (m : Major) : State :=
  let other := s.ed.number
  let carried := (m.imprints.filter s.carried).map fun g => g.entry.imprint
  let created := m.imprints.filter fun g => !carried.contains g.entry.imprint
  -- step 1
  let s := s.dropMinor
  let number := ((minors.getLast?).map (·.head.edition)).getD e.head.edition
  let s := s.setEd fun d =>
    { d with inForce := some e, minors := minors, number := number, kept := d.inForce, keptMinors := d.minors,
             keptNumber := d.number, staged := if rev then d.staged else none,
             work := .applying ring tag rev (maskBits carried) (maskBits (created.map fun g => g.entry.imprint)) other }
  let s := { s with reports := s.reports.filter fun r => carried.contains r.imprint || decide (16 ≤ r.imprint) }
  -- steps 2 to 5
  let s := (((s.newMap m).newImprints m carried).zeroFor created).loadStores m
  let s := s.newRoutes m
  -- step 6
  let s := s.newGenerations
  let s := { s with power := { s.power with rampUp := m.power.rampUp, rampDown := m.power.rampDown } }
  let s := if s.anyRuns then s else s.flushPower
  let s := (s.extend 5 e.digest).extend 6 (Config.sha384 (coreMapBytes m.coreMap))
  let s := minors.foldl State.putMinor s
  -- functions that no opening will serve admit as they fetch
  let s := ((List.range 16).filter fun i => s.heldOrNone i).foldl (fun s i =>
    let s := s.takeTable (i + 1)
    (s.fn (i + 1)).submissions.foldl (fun s k =>
      s.admitAll (i + 1) k ((((s.fn (i + 1)).ring k).map fun r => r.waiting.length).getD 0)) s) s
  State.sample s

/-- Has every imprint reached its drain quoin (R497, R500)? -/
def State.allDrained (s : State) : Bool := s.imprintList.all fun i => s.heldOrNone i || (s.imp i).serve.drained

/-- POINT_OF_NO_RETURN (R500). -/
def execPointOfNoReturn (s : State) : Host.Outcome State Fault Refusal :=
  match s.ed.work with
  | .draining ring tag rev e minors =>
    match e.body with
    | .major m => if s.stopped || !s.allDrained then .next s else .next (s.pass ring tag rev e minors m).settle
    | .minor _ => .next s
  | _ => .next s

/-- EDITION_COMMIT_DONE (R501, R513): the COMMITTED or REVERTED event, with the µs since the point of no return, and the record. -/
def execEditionCommitDone (micros : Nat) (s : State) : Host.Outcome State Fault Refusal :=
  match s.ed.work with
  | .applying ring tag rev carried created other =>
    if s.stopped then .next s
    else
      let s := s.pfEvent (edEvent (if rev then 0x0013 else 0x0011) 0 0xFF s.ed.number 0 0xFFFF micros other carried created)
      let s := s.setEd fun d => { d with work := .idle }
      .next (s.edFinish ring tag (if rev then 0x22 else 0x21) 0)
  | _ => .next s

end Sys2Proof.Machine
end

