-- ==== Sys2Proof/Machine/Power.lean ====
section
/-!
DEFINITION. Power, heat and ageing (R535 to R537, R544 to R561).
-/
namespace Sys2Proof.Machine

open Sys2Proof

/-- Change the power state. -/
def State.modPower (s : State) (f : Power → Power) : State := { s with power := f s.power }

/-- STATE of PWR_STATE (R560). -/
def State.powerCode (s : State) : Nat :=
  match s.power.rest with
  | .rest => 3
  | .entering => 2
  | .run => if s.inFloor then 1 else 0

/-- Measured power in W. -/
def Power.watts (p : Power) : Nat := min 4095 (p.measured / 1000)

/-- A power event's layout (R561). -/
def State.powerBytes (s : State) (type cause subject value : Nat) (predicted : Int) : List Byte :=
  leBytes 2 type ++ leBytes 1 cause ++ leBytes 1 s.issueLevel ++ leBytes 2 (s.power.cap / 100) ++ leBytes 2 s.power.watts
    ++ leBytes 8 0 ++ leBytes 1 (min 255 s.power.tj) ++ leBytes 1 0 ++ leBytes 2 subject ++ leBytes 2 value
    ++ leBytes 2 (BitVec.ofInt 16 predicted).toNat ++ leBytes 8 0

/-- A power event of the package as it stands: its cause field holds the causes of Floor, its subject the hottest sensor. -/
def State.powerNotice (s : State) (type : Nat) : State :=
  s.powerEvent (s.powerBytes type s.power.causes s.power.sensor 0 0)

/-- A STATE event (R561; log 61). -/
def State.stateNotice (s : State) : State := s.powerEvent (s.powerBytes 0x0077 s.powerCode s.power.sensor 0 0)

/-! Throttled time (R538, R541). -/

/-- How many cycles a segment of a validated length lasts at one issue level, 1 to 64, throughout (R541). -/
def segmentCycles (validated level : Nat) : Nat := validated + (64 - level) * (ceilDiv validated level - 1)

/-! The cap path (R544, R550). -/

/-- The POWER section in force. -/
def State.powerCfg (s : State) : Option PowerCfg :=
  s.ed.inForce.bind fun e => match e.body with
    | .major m => some m.power
    | .minor _ => none

/-- The target, in hundredths of a watt (R544, R550). -/
def State.capTarget (s : State) : Nat :=
  let t := min s.power.target 2600
  100 * (if s.power.orphaned then match s.powerCfg with | some c => min t c.orphanCap | none => t else t)

/-- A FAST target lower than C_eff takes effect (R544; log 60). -/
def State.fastCap (s : State) : State :=
  if s.capTarget < s.power.cap then s.modPower fun p => { p with cap := s.capTarget } else s

/-- Which paths write PWR_CAP, PWR_RAMP and PWR_HEARTBEAT (R560, R608)? -/
def reachesPower (p : RegPath) : Bool := p == .pf || p == .i3c

/-- PWR_CAP_WRITE (R544): the write replaces the target. -/
def execPwrCapWrite (p : RegPath) (target : BitVec 12) (s : State) : Host.Outcome State Fault Refusal :=
  if !s.answers || !reachesPower p then .next s else .next (s.modPower fun x => { x with target := target.toNat })

/-- PWR_CAP_FAST (R544): a target below C_eff is C_eff at the next window boundary (log 60). -/
def execPwrCapFast (p : RegPath) (target : BitVec 12) (s : State) : Host.Outcome State Fault Refusal :=
  if !s.answers || !reachesPower p then .next s else .next (s.modPower fun x => { x with target := target.toNat }).fastCap

/-- Do the limiter and the firmware's power loops run? -/
def State.powered (s : State) : Bool := s.boot.released && !s.stopped

/-- CAP_STEP (R544): every 10 µs C_eff steps towards the target. -/
def execCapStep (s : State) : Host.Outcome State Fault Refusal :=
  let t := s.capTarget
  if !s.powered then .next s
  else .next (s.modPower fun p =>
    { p with cap := if p.cap < t then min t (p.cap + max 1 p.rampUp) else max t (p.cap - max 1 p.rampDown) })

/-! The limiter (R545). -/

/-- Does a level satisfy the inequality? In 64ths of a milliwatt. -/
def Power.fits (p : Power) (l : Nat) : Bool :=
  decide ((64 * (p.pFixed + p.pLink + p.pMem) + p.pCore * l : Int) + p.kTrim ≤ 640 * p.cap)

/-- The largest level from 4 to 64 that the inequality permits. -/
def Power.permitted (p : Power) : Option Nat := ((List.range 61).map fun k => 64 - k).find? p.fits

/-- The limiter's level after 10 µs at a permitted level: it falls at once, and rises by the steps that the ramp allowance
covers. -/
def Power.moveLevel (p : Power) (perm : Nat) : Power :=
  if perm ≤ p.level then { p with level := perm, allowance := 0 }
  else
    let a := p.allowance + 640 * max 1 p.rampUp
    let n := if p.pCore = 0 then perm - p.level else min (perm - p.level) (a / p.pCore)
    { p with level := p.level + n, allowance := if p.level + n = perm then 0 else a - n * p.pCore }

/-- LIMITER_EVAL (R545): the estimate's four terms, then L at the next window boundary (log 60). In Floor the level rests at 4. -/
def execLimiterEval (pFixed pLink pMem pCore : Nat) (s : State) : Host.Outcome State Fault Refusal :=
  if !s.powered || s.inRest then .next s
  else
    let p := { s.power with pFixed := pFixed, pLink := pLink, pMem := pMem, pCore := pCore }
    let best := p.permitted
    let unmet := best.isNone
    let p := if s.inFloor then { p with level := 4, allowance := 0 } else p.moveLevel (min (best.getD 4) p.lth)
    let s' := ({ s with power := { p with capUnmet := unmet } }).noteLimiter
    .next (State.sample (if unmet && !s.power.capUnmet then s'.powerNotice 0x0075 else s'))

/-- AVS_SAMPLE (R546): the regulators' total is averaged over the last 1 ms, and K makes the estimate at the level in force equal
the measured power. -/
def execAvsSample (milliwatts : List Nat) (s : State) : Host.Outcome State Fault Refusal :=
  if !s.powered then .next s
  else
    let r := (milliwatts.sum :: s.power.readings).take 20
    let m := r.sum / r.length
    let l := s.issueLevel
    .next (s.modPower fun p =>
      { p with readings := r, measured := m, trimmed := true, overRun := if 10 * p.cap < m then p.overRun + 1 else 0,
               kTrim := (64 * m : Int) - (64 * (p.pFixed + p.pLink + p.pMem) + p.pCore * l : Nat) })

/-! Floor (R547, R548, R553). -/

/-- A cause of Floor appears: bit 0 VR_ALERT, 1 PWRBRK, 2 OVER_CAP, 3 THERMAL, 4 DRAM_HOT. L falls to 4, from which it rises
again. -/
def State.addCause (s : State) (bit : Nat) : State :=
  if bitOf s.power.causes bit then s
  else
    let first := !s.inFloor
    let s := (s.modPower fun p => { p with causes := p.causes + 2 ^ bit, level := 4, allowance := 0 }).noteLimiter
    State.sample (if first then s.powerNotice 0x0070 else s)

/-- A cause of Floor clears. -/
def State.clearCause (s : State) (bit : Nat) : State :=
  if !bitOf s.power.causes bit then s
  else
    let s := s.modPower fun p => { p with causes := p.causes - 2 ^ bit }
    State.sample (if s.inFloor then s else s.powerNotice 0x0071)

/-- OVER_CAP (R547): the measured power has exceeded C_eff at every sample for 2 ms, 40 samples of 50 µs. -/
def execOverCap (s : State) : Host.Outcome State Fault Refusal :=
  if !s.powered || s.power.overRun < 40 then .next s
  else .next ((s.addCause 2).modPower fun p => { p with trimmed := false, overRun := 0 })

/-- OVER_CAP_CLEAR (R548): FLOOR_HOLD has passed, and K has been set afresh. -/
def execOverCapClear (s : State) : Host.Outcome State Fault Refusal :=
  if !s.powered || !s.power.trimmed then .next s else .next (s.clearCause 2)

/-- VR_ALERT_ASSERT (R548, R567). -/
def execVrAlertAssert (s : State) : Host.Outcome State Fault Refusal :=
  let s := s.modPower fun p => { p with vrLow := true }
  if !s.boot.released then .next s else .next (State.sample (s.addCause 0))

/-- VR_ALERT_DEASSERT (R548): the cause clears 1 ms later. -/
def execVrAlertDeassert (s : State) : Host.Outcome State Fault Refusal :=
  let s := s.modPower fun p => { p with vrLow := false }
  if !s.boot.released then .next s else .next (State.sample s)

/-- VR_ALERT_CLEAR (R548). -/
def execVrAlertClear (s : State) : Host.Outcome State Fault Refusal :=
  if !s.boot.released || s.power.vrLow then .next s else .next (s.clearCause 0)

/-- PWRBRK_ASSERT (R548). -/
def execPwrbrkAssert (s : State) : Host.Outcome State Fault Refusal :=
  let s := s.modPower fun p => { p with brkLow := true }
  if !s.boot.released then .next s else .next (State.sample (s.addCause 1))

/-- PWRBRK_DEASSERT (R548): the cause clears 1 ms later. -/
def execPwrbrkDeassert (s : State) : Host.Outcome State Fault Refusal :=
  let s := s.modPower fun p => { p with brkLow := false }
  if !s.boot.released then .next s else .next (State.sample s)

/-- PWRBRK_CLEAR (R548). -/
def execPwrbrkClear (s : State) : Host.Outcome State Fault Refusal :=
  if !s.boot.released || s.power.brkLow then .next s else .next (s.clearCause 1)

/-! Heat (R551 to R554). -/

/-- The hottest reading and its sensor, the lowest of equals (R551; log 62). -/
def hottest : Sp Nat → Nat × Nat
  | [] => (0, 0)
  | (k, t) :: m =>
    let r := hottest m
    if r.1 ≤ t then (t, k) else r

/-- A THROTTLE event when L_th leaves 64 or returns to it (R552). -/
def State.setLth (s : State) (n : Nat) : State :=
  let was := s.power.lth
  let s := (s.modPower fun p => { p with lth := n }).noteLimiter
  State.sample (if (was = 64) ≠ (n = 64) then s.powerNotice 0x0072 else s)

/-- T_j as the sensors read (R551, R553, R554). -/
def State.heat (s : State) : State :=
  let h := hottest s.power.sensors
  let s := s.modPower fun p => { p with tj := h.1, sensor := h.2, hold := p.hold && decide (100 < h.1) }
  if 105 ≤ h.1 then State.sample (s.addCause 3)
  else if h.1 ≤ 97 && bitOf s.power.causes 3 then State.sample ((s.clearCause 3).setLth 4)
  else State.sample s

/-- SENSOR_READ (R551). Sensors: 0 to 207 cores that are active or spare, 208 to 211 SRAM dies, 212 to 219 edge dies. -/
def execSensorRead (readings : List (Nat × Nat)) (s : State) : Host.Outcome State Fault Refusal :=
  if !s.powered then .next s
  else
    let known := readings.filter fun x => decide (x.1 < 220) && (decide (208 ≤ x.1) || s.ed.coreMap.getD x.1 0xFF != 0xFF)
    .next (s.modPower fun p => { p with sensors := known.foldl (fun m x => spPut 0 m x.1 x.2) p.sensors }).heat

/-- LTH_STEP (R552): every 1 ms. -/
def execLthStep (s : State) : Host.Outcome State Fault Refusal :=
  let p := s.power
  if !s.powered then .next s
  else if 100 ≤ p.tj then .next (s.setLth (if 4 < p.lth then p.lth - 1 else p.lth))
  else if p.tj ≤ 97 then .next (s.setLth (min 64 (p.lth + 1)))
  else .next s

/-- THERMAL_HOLD (R554): T_j has stayed at or above 105 °C for 50 ms in Floor. -/
def execThermalHold (s : State) : Host.Outcome State Fault Refusal :=
  if !s.powered || !s.inFloor || s.power.tj < 105 || s.power.hold then .next s
  else .next (State.sample ((s.modPower fun p => { p with hold := true }).noteLimiter.powerNotice 0x0073))

/-- DRAM_TEMP_REPORT (R553, R612): above twice its base rate a device is hot. -/
def execDramTempReport (dev : Fin 48) (rate : Fin 4) (s : State) : Host.Outcome State Fault Refusal :=
  let s := s.modPower fun p => { p with rates := spPut 0 p.rates dev.val rate.val }
  if !s.powered then .next s
  else if s.power.rates.any (fun x => decide (2 ≤ x.2)) then .next (s.addCause 4) else .next (s.clearCause 4)

/-! The heartbeat (R550). -/

/-- HEARTBEAT (R550): any write restarts the timer, and clears ORPHANED. -/
def execHeartbeat (p : RegPath) (_value : BitVec 32) (s : State) : Host.Outcome State Fault Refusal :=
  if !s.answers || !reachesPower p then .next s
  else .next (State.sample (s.modPower fun x => { x with timer := true, orphaned := false }))

/-- HEARTBEAT_EXPIRY (R550): 500 ms after the last write the package is orphaned; the orphan cap is a FAST target. -/
def execHeartbeatExpiry (s : State) : Host.Outcome State Fault Refusal :=
  if !s.powered || !s.power.timer then .next s
  else
    let s := s.modPower fun p => { p with timer := false, orphaned := true }
    let s := if s.powerCfg.isSome then s.fastCap else s
    .next (State.sample (s.powerNotice 0x0074))

/-! Rest (R536, R537, R600, R601). -/

/-- Has an imprint no live request and no admitted ticket outstanding (R536)? -/
def State.idle (s : State) (i : Nat) : Bool :=
  let v := (s.imp i).serve
  (v.reqList.all fun x => !x.2.live) && v.done.isEmpty

/-- Is a Rest request refused (R536)? -/
def State.restRefused (s : State) : Bool :=
  s.imprintList.any fun i => !s.heldOrNone i && (decide (1 < (s.lockSet i).length) || !s.idle i)

/-- PWR_REQ_REST (R536): REQ = 1. -/
def execPwrReqRest (s : State) : Host.Outcome State Fault Refusal :=
  if !s.answers then .next s
  else
    let bad := s.restRefused
    let s := s.modPower fun p => { p with req := true, refused := p.rest == .run && bad }
    if s.stopped || s.power.rest ≠ .run || bad then .next s
    else .next (s.modPower fun p => { p with rest := .entering }).stateNotice

/-- PWR_REQ_RUN (R537): REQ = 0; a Rest not yet entered is given up. -/
def execPwrReqRun (s : State) : Host.Outcome State Fault Refusal :=
  if !s.answers then .next s
  else
    let s := s.modPower fun p => { p with req := false, refused := false }
    if s.power.rest = .entering then .next (s.modPower fun p => { p with rest := .run }).stateNotice else .next s

/-- Does every job of an imprint wait at its OPEN quoin, with no opening begun (R536)? -/
def State.atOpen (s : State) (i : Nat) : Bool :=
  let v := (s.imp i).serve
  s.heldOrNone i || (v.phase == .closed && !v.begun && v.agreement.isNone
    && (List.range (((s.cfg i).map (·.schedule.jobs)).getD 1)).all fun j => s.jobAt i j .opening)

/-- REST_ENTRY (R536, R600). -/
def execRestEntry (s : State) : Host.Outcome State Fault Refusal :=
  if s.stopped || s.power.rest ≠ .entering || !s.imprintList.all s.atOpen then .next s
  else .next (s.modPower fun p => { p with rest := .rest }).stateNotice

/-- Does a fetched ticket wait for any function (R537)? -/
def State.ticketWaits (s : State) : Bool :=
  (List.range 17).any fun f => (s.fn f).rings.any fun r => match r.2 with
    | some k => !k.waiting.isEmpty
    | none => false

/-- REST_WAKE (R537, R601): the interrupt controller takes what its wake watcher recorded, source 70 pulses, ports send what
waited, and tickets of functions without openings are handled. -/
def execRestWake (s : State) : Host.Outcome State Fault Refusal :=
  if s.stopped || s.power.rest ≠ .rest || (s.power.req && !s.ticketWaits) then .next s
  else
    let s := s.modPower fun p => { p with rest := .run }
    let seen := s.icu.wake
    let s := s.icuChange fun u =>
      { u with pend := u.pend ||| seen, wake := 0, restWrite := u.restWrite || u.restSeen, restSeen := false }
    let s := State.sample (s.pulse 70).stateNotice
    let s := (List.range 20).foldl (fun s p => s.pump p) s
    let s := ((List.range 17).filter s.atOnce).foldl (fun s f =>
      (s.fn f).submissions.foldl (fun s k =>
        s.admitAll f k ((((s.fn f).ring k).map fun r => r.waiting.length).getD 0)) s) s
    .next s.settle

/-! Ageing (R555 to R558). -/

/-- The monitors of a core: eight path-delay monitors and a ring oscillator, numbered 9 × core and on (R555). -/
def State.takeMonitors (s : State) (mark : Nat → Bool) (samples : List (Nat × Nat)) : State :=
  let good := samples.filter fun x => decide (x.1 < 9 * 208) && mark (s.ed.coreMap.getD (x.1 / 9) 0xFF)
  s.modPower fun p => { p with monitors := good.foldl (fun m x => spPut 0 m x.1 x.2) p.monitors }

/-- MONITOR_SAMPLE (R555): active cores. -/
def execMonitorSample (samples : List (Nat × Nat)) (s : State) : Host.Outcome State Fault Refusal :=
  if !s.powered then .next s else .next (s.takeMonitors (fun x => decide (x < 192)) samples)

/-- SPARE_MONITOR_SAMPLE (R555): spare cores. -/
def execSpareMonitorSample (samples : List (Nat × Nat)) (s : State) : Host.Outcome State Fault Refusal :=
  if !s.powered then .next s else .next (s.takeMonitors (fun x => x == 0xFE) samples)

/-- A core's margin registers. -/
def State.margin (s : State) (p : Nat) : Margin := spGet Margin.none s.power.margins p

/-- The active cores of a die whose margin has been fitted. -/
def State.fitted (s : State) (die : Nat) : List Nat :=
  (List.range 208).filter fun p => p / 104 == die && decide (s.ed.coreMap.getD p 0xFF < 192) && decide (0 < (s.margin p).samples)

/-- The core with the worst predicted margin, the lowest of equals. -/
def State.worst (s : State) : List Nat → Option Nat
  | [] => none
  | p :: ps => match s.worst ps with
    | none => some p
    | some q => some (if (s.margin p).predicted ≤ (s.margin q).predicted then p else q)

/-- The die's lowest-numbered spare. -/
def State.dieSpare (s : State) (die : Nat) : Option Nat :=
  (List.range 208).find? fun q => q / 104 == die && s.ed.coreMap.getD q 0xFF == 0xFE

/-- R557 for one die: the core, the proposal and its value. -/
def State.proposalFor (s : State) (c : PowerCfg) (die : Nat) : Option (Nat × Nat × Nat) :=
  let ps := s.fitted die
  let low := fun p => decide ((s.margin p).predicted < (c.marginLow : Int))
  match s.worst ps with
  | none => none
  | some w =>
    let m := (s.margin w).predicted
    let spare := s.dieSpare die
    if decide (m < (c.marginRetire : Int)) && spare.isSome && !(ps.any fun p => p != w && low p) then
      some (w, 2, spare.getD 0)
    else if low w then
      let g := c.guard + roundUp ((c.marginLow : Int) - m).toNat 5
      if Config.vFuse.toNat + g ≤ 800 then some (w, 1, g)
      else match spare with
        | some q => some (w, 2, q)
        | none => some (w, 3, 0)
    else none

/-- Put a die's proposal into the margin registers; a new one pulses source 69 and writes a MARGIN event. -/
def State.propose (s : State) (c : PowerCfg) (die : Nat) : State :=
  let x := s.proposalFor c die
  let has := x.map (·.1)
  let s' := s.modPower fun p =>
    { p with margins := p.margins.map fun y =>
        if y.1 / 104 = die && some y.1 ≠ has then (y.1, { y.2 with proposal := 0, value := 0 }) else y }
  match x with
  | none => s'
  | some (p, k, v) =>
    let m := s.margin p
    let s' := s'.modPower fun w => { w with margins := spPut Margin.none w.margins p { m with proposal := k, value := v } }
    if m.proposal = k && m.value = v then s'
    else (s'.powerEvent (s'.powerBytes 0x0076 k p v m.predicted)).pulse 69

/-- MARGIN_FIT (R556, R557): the margins that the firmware has fitted (log 63), then its proposals for each die. -/
def execMarginFit (fits : List (Nat × Int × Int)) (s : State) : Host.Outcome State Fault Refusal :=
  if !s.powered then .next s
  else
    let s := (fits.filter fun x => decide (x.1 < 208) && s.ed.coreMap.getD x.1 0xFF != 0xFF).foldl (fun s x =>
      s.modPower fun p =>
        let m := spGet Margin.none p.margins x.1
        { p with margins := spPut Margin.none p.margins x.1
                   { m with margin := x.2.1, predicted := x.2.2, samples := min 255 (m.samples + 1) } }) s
    match s.powerCfg with
    | none => .next s
    | some c => .next (State.sample ((s.propose c 0).propose c 1))

end Sys2Proof.Machine
end

