-- ==== Sys2Proof/Machine/Boot.lean ====
section
/-!
DEFINITION. Clocks, resets, boot, firmware updates, the Colophon, SPDM (R565 to R585).
-/
namespace Sys2Proof.Machine

open Sys2Proof

/-! Resets (R566, R567, R569). -/

/-- Everything at its reset value but for what comes from outside (the levels of the balls, the queue, what has left) and what the
always-on domain and the fuses keep (R566). -/
def State.cleared (s : State) : State :=
  let b := s.boot
  { State.reset with
    pending := s.pending, out := s.out, draws := s.draws
    boot := { Boot.reset with
      powerGood := b.powerGood, perstN := b.perstN, coolOk := b.coolOk, released := false, entropyGood := b.entropyGood,
      slotId := b.slotId, pcieRefOk := b.pcieRefOk, svnFused := b.svnFused, drbg := b.drbg, reseeds := b.reseeds,
      meas := [0, 0, 0, 0, 0, 0], log := [] }
    power := { State.reset.power with vrLow := s.power.vrLow, brkLow := s.power.brkLow }
    fab := { Fabric.reset with boots := s.fab.boots + 1 }
    icu := { Icu.reset with prev := if b.coolOk then 2 else 0 } }

/-- The synchronous clocks (R562). -/
inductive Clock where
  | root
  | wck
  | issue
  | noc
  | slow
deriving DecidableEq, Repr

/-- What a clock divides ROOT by (R562). -/
def Clock.divider : Clock → Nat
  | .root => 1
  | .wck => 2
  | .issue => 4
  | .noc => 8
  | .slow => 64

/-- A clock's frequency in kHz: ROOT is 108 times SYS_REFCLK's 100 MHz (R562). -/
def Clock.kHz (c : Clock) : Nat := 108 * 100000 / c.divider

/-- Release (R567), once POWER_GOOD, PERST_N and COOL_OK are all high: measurements 1 and 2 are extended (R582); V_FUSE goes to the
VDD_CORE regulator (R616); the supply's alerts act at once; an entropy source that failed its tests stops the package (R581). -/
def State.tryRelease (s : State) : State :=
  let b := s.boot
  if b.released || !b.powerGood || !b.perstN || !b.coolOk then s
  else
    let s := { s with boot := { b with released := true, meas := releaseMeas b.svnFused, log := releaseLog b.svnFused } }
    let s := s.emit (.supply Config.vFuse.toNat)
    let s := if s.power.vrLow then s.addCause 0 else s
    let s := if s.power.brkLow then s.addCause 1 else s
    if b.entropyGood then State.sample s else s.stop 1 0

/-- POWER_GOOD_RISE (R569, R581, R622): the Colophon reads its fuses and tests its entropy source; SLOT_ID is taken. -/
def execPowerGoodRise (slotId : Fin 8) (entropyGood : Bool) (s : State) : Host.Outcome State Fault Refusal :=
  if s.boot.powerGood then .next s
  else
    let s := { s with boot := { s.boot with powerGood := true, slotId := slotId.val, entropyGood := entropyGood } }
    if entropyGood then .next s.tryRelease else .next (s.stop 1 0)

/-- POWER_GOOD_FALL (R566): everything resets, the always-on domain included. -/
def execPowerGoodFall (s : State) : Host.Outcome State Fault Refusal :=
  .next ({ s with boot := { s.boot with powerGood := false, entropyGood := true } }).cleared

/-- PERST_N_ASSERT (R481, R531, R566): the fundamental reset. -/
def execPerstNAssert (s : State) : Host.Outcome State Fault Refusal :=
  .next ({ s with boot := { s.boot with perstN := false } }).cleared

/-- RELEASE (R567): PERST_N rises, with the levels of the other balls; with COOL_OK low the release waits for it. -/
def execRelease (coolOk vrAlertN pwrbrkN : Bool) (s : State) : Host.Outcome State Fault Refusal :=
  if s.boot.released then .next s
  else
    let s := { s with boot := { s.boot with perstN := true, coolOk := coolOk },
                      power := { s.power with vrLow := !vrAlertN, brkLow := !pwrbrkN },
                      icu := { s.icu with prev := if coolOk then 2 else 0 } }
    .next s.tryRelease

/-- COOL_OK_CHANGE (R567): before release it permits it; after it, the level is only reported. -/
def execCoolOkChange (level : Bool) (s : State) : Host.Outcome State Fault Refusal :=
  let t := { s with boot := { s.boot with coolOk := level } }
  if s.boot.released then .next (State.sample t)
  else .next ({ t with icu := { t.icu with prev := if level then 2 else 0 } }).tryRelease

/-! Clocks (R565). -/

/-- CLOCK_MONITOR_TRIP (R565): a Colophon fault. The PLL's lock counts after release alone. -/
def execClockMonitorTrip (refLost : Bool) (s : State) : Host.Outcome State Fault Refusal :=
  if !s.boot.powerGood || (!refLost && !s.boot.released) then .next s
  else
    let b := if refLost then { s.boot with sysRefOk := false } else { s.boot with rootLock := false }
    .next (State.stop { s with boot := b } 1 0)

/-- PCIE_REFCLK_LOSS (R565): the PCIe link goes down; ring reads then fail by R456. -/
def execPcieRefclkLoss (s : State) : Host.Outcome State Fault Refusal :=
  .next (State.sample { s with boot := { s.boot with pcieRefOk := false } })

/-- PCIE_REFCLK_RETURN (R565). -/
def execPcieRefclkReturn (s : State) : Host.Outcome State Fault Refusal :=
  .next (State.sample { s with boot := { s.boot with pcieRefOk := true } })

/-! Firmware images (R570 to R574). -/

/-- A field of an image. -/
def imgField (img : List Byte) (o n : Nat) : Nat := ofLeBytes ((img.drop o).take n)

/-- PAYLOAD_BYTES. -/
def imgPayloadLen (img : List Byte) : Nat := imgField img 16 8

/-- The payload. -/
def imgPayload (img : List Byte) : List Byte := (img.drop 8192).take (imgPayloadLen img)

/-- Check 2. -/
def imgFormOk (img : List Byte) : Bool :=
  let n := imgPayloadLen img
  let e := imgField img 24 8
  decide (8192 ≤ img.length) && imgField img 0 4 == 0x57465952 && imgField img 4 2 == 1 && imgField img 6 2 == 0
    && imgField img 80 176 == 0 && imgField img 5613 2579 == 0 && decide (1 ≤ n) && decide (n ≤ 2 ^ 25) && e % 8 == 0 && decide (e < n)

/-- Check 3: the vendor keys. -/
def imgKeyOk (img : List Byte) : Bool :=
  let k := imgField img 13 1
  decide (k < 4) && !Config.keyRevoked (Fin.ofNat 4 k)
    && Config.sha384 ((img.drop 256).take 32 ++ (img.drop 352).take 1952) == Config.keyHash (Fin.ofNat 4 k)

/-- ERROR after checks 2 to 7 of R573; 0 for none. -/
def imgError (svnFused : Nat) (img : List Byte) : Nat :=
  let msg := img.take 256
  if !imgFormOk img then 2
  else if !imgKeyOk img then 3
  else if !Config.edVerify ((img.drop 256).take 32) msg ((img.drop 288).take 64) then 4
  else if !Config.mlVerify ((img.drop 352).take 1952) msg ((img.drop 2304).take 3309) then 5
  else if Config.sha384 (imgPayload img) ≠ BitVec.ofNat 384 (imgField img 32 48) then 6
  else if imgField img 12 1 < svnFused then 7
  else 0

/-- The payload is copied to reserve part 0 as it is read (R574): once checks 1 to 5 have passed. -/
def State.copyPayload (s : State) (img : List Byte) (error : Nat) : State :=
  if error = 0 || 6 ≤ error then s.t0Write (t0Addr 0xF0 0) (imgPayload img) else s

/-- An image that passed starts (R574): measurements 3 and 4, the running image's registers, STAGE LOADING. -/
def State.startImage (s : State) (img : List Byte) (source : Nat) : State :=
  let s := (s.extend 3 (Config.sha384 (img.take 256))).extend 4 (BitVec.ofNat 384 (imgField img 32 48))
  { s with wireMax := imgField img 14 1, wireMin := imgField img 15 1,
           boot := { s.boot with stage := .loading, source := source, error := 0, fwVersion := imgField img 8 4,
                                 svn := imgField img 12 1, keyIndex := imgField img 13 1 } }

/-- BOOT_IMAGE_CHECKED (R573, R574): the flash image starts, or the ROM waits at the mailbox. -/
def execBootImageChecked (identified : Bool) (image : List Byte) (s : State) : Host.Outcome State Fault Refusal :=
  if !s.boot.released || s.stopped || s.boot.stage ≠ .rom then .next s
  else
    let e := if identified then imgError s.boot.svnFused image else 1
    let s := s.copyPayload image e
    if e = 0 then .next (s.startImage image 1)
    else .next { s with boot := { s.boot with stage := .mailbox, error := e } }

/-- FIRMWARE_INIT_DONE (R569, R574, R612): T0 codes filled, channels trained but for those that failed, Held; STAGE is RUNNING. -/
def execFirmwareInitDone (failed : List (Fin 384)) (s : State) : Host.Outcome State Fault Refusal :=
  if !s.boot.released || s.stopped || s.boot.stage ≠ .loading then .next s
  else
    let bad := sortBy (fun a b => decide (a < b)) (nub (failed.map (·.val)))
    .next (State.sample { s with t0 := { s.t0 with flips := [] }, mem := { ready := true, failed := bad },
                                 boot := { s.boot with stage := .running, ran := true } })

/-! The mailbox and updates (R575 to R577). -/

/-- BUSY falls: source 71 pulses (R587). -/
def State.imgDone (s : State) (stage : Stage) (error : Nat) : State :=
  ({ s with boot := { s.boot with stage := stage, error := error, busy := false } }).pulse 71

/-- GO of SEC_IMG_CTRL: a mailbox load, or an update; ignored while BUSY is 1 (R575 to R577). -/
def State.imgGo (s : State) : State :=
  if !s.boot.released || s.stopped || s.boot.busy then s
  else if s.boot.stage = .mailbox then { s with boot := { s.boot with busy := true } }
  else if s.boot.stage = .running then { s with boot := { s.boot with busy := true, stage := .updating } }
  else s

/-- MAILBOX_LOAD (R575). -/
def execMailboxLoad (s : State) : Host.Outcome State Fault Refusal :=
  if s.boot.stage = .mailbox then .next s.imgGo else .next s

/-- The error of an image read from host memory: 9 for a failed read (R576; log 66), 2 for a length beyond the limit. -/
def State.hostImgError (s : State) (image : HostRead) : Nat :=
  if 2 ^ 25 + 8192 < s.boot.imgLen then 2
  else if image.bad then 9
  else imgError s.boot.svnFused (image.bytes.take s.boot.imgLen)

/-- MAILBOX_IMAGE_CHECKED (R575): the image starts with SOURCE 2, or ERROR is set and the ROM waits again. -/
def execMailboxImageChecked (image : HostRead) (s : State) : Host.Outcome State Fault Refusal :=
  if s.stopped || s.boot.stage ≠ .mailbox || !s.boot.busy then .next s
  else
    let e := s.hostImgError image
    let img := image.bytes.take s.boot.imgLen
    let s := if e = 9 then s else s.copyPayload img e
    if e = 0 then .next ((s.startImage img 2).imgDone .loading 0) else .next (s.imgDone .mailbox e)

/-- FIRMWARE_UPDATE (R576). -/
def execFirmwareUpdate (s : State) : Host.Outcome State Fault Refusal :=
  if s.boot.stage = .running then .next s.imgGo else .next s

/-- FIRMWARE_UPDATE_DONE (R576): an image that passes is programmed and read back; the fused count may advance; the firmware in force
does not change. -/
def execFirmwareUpdateDone (image : HostRead) (readBack : List Byte) (s : State) : Host.Outcome State Fault Refusal :=
  if s.stopped || s.boot.stage ≠ .updating then .next s
  else
    let e := s.hostImgError image
    let img := image.bytes.take s.boot.imgLen
    if e ≠ 0 then .next (s.imgDone .running e)
    else
      let s := s.emit (.flash img)
      if imgError s.boot.svnFused readBack ≠ 0 then .next (s.imgDone .running 10)
      else
        let svn := imgField img 12 1
        let b := if s.boot.commitSvn && decide (s.boot.svnFused < svn) then { s.boot with svnFused := svn } else s.boot
        .next (State.imgDone { s with boot := b } .running 0)

/-- DRBG_RESEED (R581). -/
def execDrbgReseed (s : State) : Host.Outcome State Fault Refusal :=
  if !s.boot.powerGood || s.stopped then .next s
  else .next { s with boot := { s.boot with reseeds := s.boot.reseeds + 1 } }

/-! SPDM (R580, R583, R584). What the DMTF's specification gives a response is `Config.spdmBody`; response and error codes are that
specification's (log 67). -/

/-- What selects the alias keys of a boot: measurements 1 to 4 (R580). -/
def State.aliasOf (s : State) : BitVec 384 :=
  Config.sha384 ((s.boot.meas.take 4).flatMap fun m => leBytes 48 m.toNat)

/-- Does the responder answer: firmware has started, so that the alias keys exist, and nothing has stopped? -/
def State.spdmUp (s : State) : Bool := s.boot.released && !s.stopped && s.boot.source != 0

/-- Change the responder. -/
def State.modSpdm (s : State) (f : Spdm → Spdm) : State := { s with spdm := f s.spdm }

/-- A response: its code, what the DMTF's specification puts in it, and what this one carries. -/
def State.reply (s : State) (code : Nat) (bytes : List Byte) : State :=
  (s.modSpdm fun x => { x with answered := x.answered + 1 }).emit
    (.doe (leBytes 1 code ++ Config.spdmBody code s.spdm.answered ++ bytes))

/-- An SPDM ERROR: 0x01 InvalidRequest, 0x04 UnexpectedRequest, 0x06 DecryptError. -/
def State.spdmError (s : State) (code : Nat) : State := s.reply 0x7F (leBytes 1 code)

/-- Answer a request, if the responder is up and the request is in order. -/
def State.answerIf (s : State) (inOrder : Bool) (f : State → State) : Host.Outcome State Fault Refusal :=
  if !s.spdmUp then .next s else if inOrder then .next (f s) else .next (s.spdmError 0x04)

/-- A signed response over a message: the Ed25519 alias signature; the message stays for GET_PQ_SIGNATURE (R584). -/
def State.replySigned (s : State) (code : Nat) (bytes msg : List Byte) : State :=
  (s.modSpdm fun x => { x with signed := some msg }).reply code (bytes ++ Config.edSign s.aliasOf msg)

/-- GET_VERSION: the negotiation, and any session, starts again. -/
def execGetVersion (s : State) : Host.Outcome State Fault Refusal :=
  s.answerIf true fun s => (s.modSpdm fun x =>
    { x with version := true, caps := false, algs := false, transcript := [], handshake := false, session := false,
             ideKeys := [], ideActive := false }).reply 0x04 []

/-- GET_CAPABILITIES. -/
def execGetCapabilities (s : State) : Host.Outcome State Fault Refusal :=
  s.answerIf s.spdm.version fun s => (s.modSpdm fun x => { x with caps := true }).reply 0x61 []

/-- NEGOTIATE_ALGORITHMS: Ed25519, SHA-384, secp384r1, AES-256-GCM (R583). -/
def execNegotiateAlgorithms (s : State) : Host.Outcome State Fault Refusal :=
  s.answerIf s.spdm.caps fun s => (s.modSpdm fun x => { x with algs := true }).reply 0x63 []

/-- GET_DIGESTS: the digest of slot 0's chain. -/
def execGetDigests (s : State) : Host.Outcome State Fault Refusal :=
  s.answerIf s.spdm.algs fun s => s.reply 0x01 (leBytes 48 (Config.sha384 (Config.edChain s.aliasOf)).toNat)

/-- GET_CERTIFICATE: part of slot 0's chain, the only slot (R583). -/
def execGetCertificate (slot offset length : Nat) (s : State) : Host.Outcome State Fault Refusal :=
  s.answerIf s.spdm.algs fun s =>
    let chain := Config.edChain s.aliasOf
    if slot ≠ 0 || chain.length ≤ offset then s.spdmError 0x01 else s.reply 0x02 ((chain.drop offset).take length)

/-- CHALLENGE. -/
def execChallenge (msg : List Byte) (s : State) : Host.Outcome State Fault Refusal :=
  s.answerIf s.spdm.algs fun s => s.replySigned 0x03 [] msg

/-- GET_MEASUREMENTS (R582): index 0 asks how many, 1 to 6 one, 0xFF all. -/
def execGetMeasurements (msg : List Byte) (signed : Bool) (index : Nat) (s : State) : Host.Outcome State Fault Refusal :=
  s.answerIf s.spdm.algs fun s =>
    let m := s.boot.meas
    let part := if index = 0 then some [BitVec.ofNat 8 m.length]
      else if index = 0xFF then some (m.flatMap fun x => leBytes 48 x.toNat)
      else (m[index - 1]?).map fun x => leBytes 48 x.toNat
    match part with
    | none => s.spdmError 0x01
    | some bs => if signed then s.replySigned 0x60 bs msg else s.reply 0x60 bs

/-- KEY_EXCHANGE: one session's keys are drawn from the DRBG (R580). -/
def execKeyExchange (msg : List Byte) (s : State) : Host.Outcome State Fault Refusal :=
  s.answerIf (s.spdm.algs && !s.spdm.session) fun s =>
    (({ s with boot := { s.boot with drbg := s.boot.drbg + 1 } }).modSpdm fun x => { x with handshake := true }).replySigned 0x64 [] msg

/-- FINISH: a good MAC establishes the session. -/
def execFinish (macGood : Bool) (s : State) : Host.Outcome State Fault Refusal :=
  s.answerIf s.spdm.handshake fun s =>
    let s := s.modSpdm fun x => { x with handshake := false, session := macGood }
    if macGood then s.reply 0x65 [] else s.spdmError 0x06

/-- KEY_UPDATE, within a session: 1 and 2 update keys, 3 verifies the new one. -/
def execKeyUpdate (which : Nat) (s : State) : Host.Outcome State Fault Refusal :=
  s.answerIf s.spdm.session fun s =>
    if which = 1 || which = 2 then (s.modSpdm fun x => { x with keyUpdates := x.keyUpdates + 1 }).reply 0x69 []
    else if which = 3 then s.reply 0x69 [] else s.spdmError 0x01

/-- HEARTBEAT, within a session. -/
def execSpdmHeartbeat (s : State) : Host.Outcome State Fault Refusal := s.answerIf s.spdm.session fun s => s.reply 0x68 []

/-- END_SESSION: the session's keys and the IDE keys end (R580). -/
def execEndSession (s : State) : Host.Outcome State Fault Refusal :=
  s.answerIf s.spdm.session fun s =>
    (s.modSpdm fun x => { x with session := false, ideKeys := [], ideActive := false, keyUpdates := 0 }).reply 0x6C []

/-- GET_PQ_CHAIN (R584): part of the ML-DSA-65 chain, at most 65,536 B. -/
def execGetPqChain (offset length : Nat) (s : State) : Host.Outcome State Fault Refusal :=
  s.answerIf s.spdm.version fun s =>
    if 65536 < length then s.spdmError 0x01
    else s.reply 0x7E (((Config.mlChain s.aliasOf).drop offset).take length)

/-- GET_PQ_SIGNATURE (R584): the digest and the ML-DSA-65 signature of the message that the last signed response covered. -/
def execGetPqSignature (s : State) : Host.Outcome State Fault Refusal :=
  match s.spdm.signed with
  | none => s.answerIf false id
  | some msg => s.answerIf true fun s =>
      s.reply 0x7E (leBytes 48 (Config.sha384 msg).toNat ++ Config.mlSign s.aliasOf msg)

/-- IDE_KM (R580): within a session, the keys of the one Link IDE stream are programmed, then activated. -/
def execIdeKm (prog : Bool) (key : List Byte) (s : State) : Host.Outcome State Fault Refusal :=
  s.answerIf s.spdm.session fun s =>
    if prog then (s.modSpdm fun x => { x with ideKeys := x.ideKeys ++ [key] }).reply 0x7E []
    else (s.modSpdm fun x => { x with ideActive := !x.ideKeys.isEmpty }).reply 0x7E []

end Sys2Proof.Machine
end

