-- ==== Sys2Proof/Machine/Regs.lean ====
section
/-!
DEFINITION. The setup registers: where they stand, what they read, what a write does, by each path (R12 to R15, R477, R514, R532, R560,
R565, R586, R602 to R614).
-/
namespace Sys2Proof.Machine

open Sys2Proof

/-- The setup registers (R610). -/
inductive Reg where
  | glbId | glbStatus | glbScratch | glbTime | glbFatal | glbCore (n : Nat)
  | hifCfg | tabBase (f : Nat) | tabCtrl (f : Nat) | evtLost (f : Nat)
  | icuEnSet (n : Nat) | icuEnClr (n : Nat) | icuPendSet (n : Nat) | icuPendClr (n : Nat) | icuActive (n : Nat)
  | icuInput (n : Nat) | icuClaim (k : Nat) | icuStatus | icuRoute (n : Nat)
  | clkStatus
  | pwrCap | pwrRamp | pwrHeartbeat | pwrState | pwrStatus | pwrVcore | pwrMargin (n : Nat)
  | fabLocation | portCtrl (n : Nat) | portStatus (n : Nat) | portCount (n k : Nat)
  | memStatus | memDev (n : Nat) | memCh (n : Nat)
  | secBoot | secFw | secImgAddr | secImgCtrl | secUid
  | ednState | ednNumbers | ednImprint (n : Nat)
  | telRepro (n : Nat) | telImprint (n k : Nat)
deriving DecidableEq, Repr

/-- Width in bits (R610). -/
def regWidth : Reg → Nat
  | .glbId | .glbScratch | .glbTime | .glbFatal | .tabBase _ => 64
  | .icuEnSet _ | .icuEnClr _ | .icuPendSet _ | .icuPendClr _ | .icuActive _ | .icuInput _ => 64
  | .pwrStatus | .pwrMargin _ | .portStatus _ | .portCount _ _ | .memDev _ => 64
  | .secFw | .secImgAddr | .secUid | .ednState | .ednNumbers | .telRepro _ | .telImprint _ _ => 64
  | .glbStatus | .glbCore _ | .hifCfg | .tabCtrl _ | .evtLost _ | .icuClaim _ | .icuStatus | .icuRoute _ | .clkStatus => 32
  | .pwrCap | .pwrRamp | .pwrHeartbeat | .pwrState | .pwrVcore | .fabLocation | .portCtrl _ => 32
  | .memStatus | .memCh _ | .secBoot | .secImgCtrl | .ednImprint _ => 32

/-- The place of an offset in an array of registers. -/
def strided (off base stride count : Nat) : Option Nat :=
  if base ≤ off && (off - base) % stride = 0 && (off - base) / stride < count then some ((off - base) / stride) else none

/-- GLB block (R611). -/
def glbReg (o : Nat) : Option Reg :=
  if o = 0 then some .glbId else if o = 8 then some .glbStatus else if o = 0x10 then some .glbScratch
  else if o = 0x18 then some .glbTime else if o = 0x200 then some .glbFatal else (strided o 0x400 4 208).map .glbCore

/-- HIF block (R477). -/
def hifReg (o : Nat) : Option Reg :=
  if o = 0 then some .hifCfg
  else (strided o 0x100 32 17).map .tabBase <|> (strided o 0x108 32 17).map .tabCtrl <|> (strided o 0x110 32 17).map .evtLost

/-- ICU block (R602). -/
def icuReg (o : Nat) : Option Reg :=
  if o = 0x700 then some .icuStatus
  else (strided o 0 8 16).map .icuEnSet <|> (strided o 0x100 8 16).map .icuEnClr <|> (strided o 0x200 8 16).map .icuPendSet
    <|> (strided o 0x300 8 16).map .icuPendClr <|> (strided o 0x400 8 16).map .icuActive <|> (strided o 0x500 8 16).map .icuInput
    <|> (strided o 0x600 8 8).map .icuClaim <|> (strided o 0x1000 4 1024).map .icuRoute

/-- PWR block (R560). -/
def pwrReg (o : Nat) : Option Reg :=
  if o = 0 then some .pwrCap else if o = 8 then some .pwrRamp else if o = 0x10 then some .pwrHeartbeat
  else if o = 0x18 then some .pwrState else if o = 0x20 then some .pwrStatus else if o = 0x28 then some .pwrVcore
  else (strided o 0x400 8 208).map .pwrMargin

/-- FAB block (R415). -/
def fabReg (o : Nat) : Option Reg :=
  if o = 0 then some .fabLocation
  else (strided o 0x100 8 20).map .portCtrl <|> (strided o 0x200 16 20).map .portStatus
    <|> (strided o 0x400 8 160).map fun k => .portCount (k / 8) (k % 8)

/-- MEM block (R612). -/
def memReg (o : Nat) : Option Reg :=
  if o = 0 then some .memStatus else (strided o 0x100 8 48).map .memDev <|> (strided o 0x800 4 384).map .memCh

/-- SEC block (R586). -/
def secReg (o : Nat) : Option Reg :=
  if o = 0 then some .secBoot else if o = 8 then some .secFw else if o = 0x10 then some .secImgAddr
  else if o = 0x18 then some .secImgCtrl else if o = 0x20 then some .secUid else none

/-- EDN block (R514). -/
def ednReg (o : Nat) : Option Reg :=
  if o = 0 then some .ednState else if o = 8 then some .ednNumbers else (strided o 0x100 8 16).map .ednImprint

/-- TEL block (R379, R613). -/
def telReg (o : Nat) : Option Reg :=
  (strided o 0x400 8 16).map .telRepro <|> (strided o 0x1000 8 128).map fun k => .telImprint (k / 8) (k % 8)

/-- The register at an offset of the PF's BAR0 (R603). -/
def pfReg (off : Nat) : Option Reg :=
  let o := off % 0x10000
  match off / 0x10000 with
  | 0 => glbReg o
  | 1 => hifReg o
  | 2 => icuReg o
  | 3 => if o = 0 then some .clkStatus else none
  | 4 => pwrReg o
  | 5 => fabReg o
  | 6 => memReg o
  | 7 => secReg o
  | 8 => ednReg o
  | 9 => telReg o
  | _ => none

/-- The register at an offset of the BAR0 of the VF of imprint `i` (R607). -/
def vfReg (i off : Nat) : Option Reg :=
  if off = 0 then some .glbId else if off = 0x1000 then some (.tabBase (i + 1)) else if off = 0x1008 then some (.tabCtrl (i + 1))
  else if off = 0x1010 then some (.evtLost (i + 1)) else if off = 0x2000 then some (.ednImprint i)
  else if off = 0x3000 then some (.telRepro i) else if off = 0x4000 then some .pwrStatus
  else (strided off 0x3040 8 8).map (.telImprint i)

/-- Does I3C read a register (R608)? -/
def i3cReads : Reg → Bool
  | .glbId | .glbStatus | .glbTime | .glbFatal | .clkStatus | .secBoot | .secFw | .secUid => true
  | .pwrCap | .pwrRamp | .pwrHeartbeat | .pwrState | .pwrStatus | .pwrVcore | .pwrMargin _ => true
  | .fabLocation | .portStatus _ | .memStatus | .memDev _ | .ednState | .ednImprint _ | .telImprint _ _ => true
  | _ => false

/-- Does I3C write a register (R608)? -/
def i3cWrites : Reg → Bool
  | .pwrCap | .pwrRamp | .pwrHeartbeat | .fabLocation => true
  | _ => false

/-- Does a register answer now (R532, R569, R604): CLK, SEC and GLB_FATAL from release, the others once STAGE has reached RUNNING? -/
def State.regAnswers (s : State) (r : Reg) : Bool :=
  match r with
  | .clkStatus | .secBoot | .secFw | .secImgAddr | .secImgCtrl | .secUid | .glbFatal => s.boot.released
  | _ => s.answers

/-! What registers read. -/

/-- CAUSE of EDN_IMPRINT_n (R513, R514): 1 NO_EDITION, 2 DAMAGE, 3 ABSENT. -/
def State.ednCause (s : State) (i : Nat) : Nat :=
  if s.ed.inForce.isNone then 1
  else match (s.imp i).serve.held with
    | some c => c
    | none => if s.ednState i = 0 then 3 else 0

/-- EDN_IMPRINT_n (R514). -/
def State.ednImprint (s : State) (i : Nat) : Nat :=
  let e := (s.cfg i).map (·.entry)
  s.ednState i + 4 * bit (s.unloaded i) + 8 * bit ((e.map (·.fixed)).getD false) + 16 * bit ((e.map (·.interleaved)).getD false)
    + 32 * s.ednCause i

/-- PWR_STATUS (R560). -/
def State.pwrStatus (s : State) : Nat :=
  let p := s.power
  s.issueLevel + p.causes * 2 ^ 7 + p.cap / 100 * 2 ^ 12 + p.watts * 2 ^ 24 + min 255 p.tj * 2 ^ 36 + p.sensor * 2 ^ 44
    + bit p.orphaned * 2 ^ 54 + bit p.capUnmet * 2 ^ 55 + bit p.hold * 2 ^ 56 + p.lth * 2 ^ 57

/-- An i8 field, kept within its range (log 63). -/
def i8 (x : Int) : Nat := (BitVec.ofInt 8 (max (-128) (min 127 x))).toNat

/-- ICU_CLAIM_k (R602): the lowest active source routed to a Compositor core. -/
def State.claim (s : State) (k : Nat) : Nat :=
  match (List.range 1024).find? fun n => Nat.testBit s.icu.active n && s.route n / 8 % 2 == 0 && s.route n / 16 % 8 == k with
  | some n => n + 2 ^ 15
  | none => 0

/-- FAB_PORT_STATUS_n (R415). -/
def State.portStatus (s : State) (p : Nat) : Nat :=
  let x := s.port p
  x.state.code + x.reason * 2 ^ 4 + x.wire * 2 ^ 8 + x.peer * 2 ^ 16 + x.peerKind * 2 ^ 34 + x.peerPort * 2 ^ 36
    + x.peerPlane * 2 ^ 44

/-- Is a channel trained (R612)? -/
def State.trained (s : State) (c : Nat) : Bool := s.mem.ready && !s.mem.failed.contains c

/-- MEM_DEV_d (R612). -/
def State.memDev (s : State) (d : Nat) : Nat :=
  let r := spGet 0 s.power.rates d
  r + 4 * bit (decide (2 ≤ r)) + 8 * ((List.range 8).map fun k => bit (s.trained (8 * d + k)) * 2 ^ k).sum

/-- GLB_CORE_n (R611). -/
def State.glbCore (s : State) (p : Nat) : Nat :=
  let x := s.ed.coreMap.getD p 0xFF
  (if x < 192 then x + 2 * 2 ^ 8 else if x = 0xFE then 0xFF + 2 ^ 8 else 0xFF) + bit (s.ed.disabled.contains p) * 2 ^ 10
    + bit (coreFuse p) * 2 ^ 11

/-- What a register that answers reads. GO of SEC_IMG_CTRL reads 0: a write of 1 starts the load or update in the same step, which BUSY
then shows, and the spec does not say when GO clears (DESIGN CHOICE, log 101). -/
def State.regValue (s : State) : Reg → Nat
  | .glbId => 0x0007 + 0xB0 * 2 ^ 16 + bit Config.sampleFuse * 2 ^ 24 + 208 * 2 ^ 32 + 192 * 2 ^ 40
  | .glbStatus => bit s.boot.coolOk + 2 * bit (s.boot.stage == .running || s.boot.stage == .updating)
      + 4 * bit s.ed.inForce.isNone + 8 * bit s.inRest
  | .glbScratch => s.glb.scratch.toNat
  | .glbTime => s.cycle % 2 ^ 64
  | .glbFatal => bit s.stopped + 2 * s.glb.cause + 16 * s.glb.ccore + s.glb.edition * 2 ^ 32
  | .glbCore n => s.glbCore n
  | .hifCfg => s.poll + bit s.degraded * 2 ^ 16
  | .tabBase f => (s.fn f).tabBase.toNat
  | .tabCtrl f =>
    let x := s.fn f
    x.entries + bit x.apply * 2 ^ 10 + bit x.error * 2 ^ 11 + x.errCode * 2 ^ 12 + x.errEntry * 2 ^ 16
  | .evtLost f => (s.fn f).evtLost.toNat
  | .icuEnSet n | .icuEnClr n => s.icu.en / 2 ^ (64 * n) % 2 ^ 64
  | .icuPendSet n | .icuPendClr n => s.icu.pend / 2 ^ (64 * n) % 2 ^ 64
  | .icuActive n => s.icu.active / 2 ^ (64 * n) % 2 ^ 64
  | .icuInput n => (if s.inRest then s.icu.prev else s.levels) / 2 ^ (64 * n) % 2 ^ 64
  | .icuClaim k => s.claim k
  | .icuStatus => bit s.icu.restWrite + 2 * bit s.icu.msixOff + 4 * s.icu.offSource
  | .icuRoute n => s.route n + bit (isLocked n) * 2 ^ 31
  | .clkStatus => bit s.boot.sysRefOk + 2 * bit s.boot.rootLock + 4 * bit s.boot.pcieRefOk
  | .pwrCap => s.power.target
  | .pwrRamp => s.power.rampUp + s.power.rampDown * 2 ^ 12
  | .pwrHeartbeat => 0
  | .pwrState => bit s.power.req + 2 * s.powerCode + 8 * bit s.power.refused
  | .pwrStatus => s.pwrStatus
  | .pwrVcore => Config.vFuse.toNat + s.power.setpoint * 2 ^ 10
  | .pwrMargin n =>
    let m := s.margin n
    i8 m.margin + i8 m.predicted * 2 ^ 8 + m.proposal * 2 ^ 16 + m.samples * 2 ^ 18
  | .fabLocation => s.fab.endpoint + bit s.fab.valid * 2 ^ 31
  | .portCtrl n => bit (s.port n).en + 4 * bit (s.port n).loopback
  | .portStatus n => s.portStatus n
  | .portCount n k => (s.port n).count.getD k 0
  | .memStatus => bit (s.mem.ready && s.mem.failed.isEmpty) + 2 * s.mem.failed.length
  | .memDev n => s.memDev n
  | .memCh n => (s.channelOwner n).getD 0x1F + bit (s.trained n) * 2 ^ 5 + bit (s.mem.failed.contains n) * 2 ^ 6
  | .secBoot => s.boot.stage.code + s.boot.source * 2 ^ 4 + s.boot.error * 2 ^ 8 + bit Config.debugLock * 2 ^ 12
  | .secFw => s.boot.fwVersion + s.boot.svn * 2 ^ 32 + s.boot.svnFused * 2 ^ 40 + s.boot.keyIndex * 2 ^ 48
  | .secImgAddr => s.boot.imgAddr
  | .secImgCtrl => s.boot.imgLen + bit s.boot.busy * 2 ^ 27 + bit s.boot.commitSvn * 2 ^ 28
  | .secUid => Config.pkgUid.toNat
  | .ednState => s.ed.word
  | .ednNumbers => ((s.ed.staged.map (·.head.edition)).getD 0) + s.ed.keptNumber * 2 ^ 32
  | .ednImprint n => s.ednImprint n
  | .telRepro n =>
    let m := s.imp n
    bit m.step + 2 * bit m.go + 4 * m.report + m.steps * 2 ^ 32
  | .telImprint n k => (s.imp n).tel.getD k 0

/-- What a register reads now: zero before it answers (R604). -/
def State.regRead (s : State) (r : Reg) : Nat := if s.regAnswers r then s.regValue r else 0

/-- The register that a path's offset names, for an access of a width (R15, R603, R607, R608). -/
def regOn (p : RegPath) (off width : Nat) (write : Bool) : Option Reg :=
  let r := match p with
    | .pf => pfReg off
    | .vf g => vfReg g.val off
    | .i3c => (pfReg off).filter (if write then i3cWrites else i3cReads)
    | .config _ => none
  r.filter fun r => regWidth r == width

/-! The MSI-X regions and Message Control (R605). -/

/-- One DWORD of a function's MSI-X region: the table, then the Pending Bit Array at `pba`. -/
def State.msixRead (s : State) (f pba off : Nat) : Nat :=
  let at_ := fun n => spGet MsixEntry.reset (s.fn f).msix n
  if off < pba then
    let e := at_ (off / 16)
    match off % 16 / 4 with
    | 0 => e.addr.toNat % 2 ^ 32
    | 1 => e.addr.toNat / 2 ^ 32
    | 2 => e.data.toNat
    | _ => bit e.mask
  else ((List.range 32).map fun k => bit (at_ (8 * (off - pba) + k)).pending * 2 ^ k).sum

/-- An aligned DWORD or QWORD read of a function's MSI-X region; any other read returns zero (R605). -/
def State.msixBus (s : State) (f pba off width : Nat) : Nat :=
  if !s.boot.released then 0
  else if width = 32 && off % 4 = 0 then s.msixRead f pba off
  else if width = 64 && off % 8 = 0 then s.msixRead f pba off + s.msixRead f pba (off + 4) * 2 ^ 32
  else 0

/-- What a read by a path returns, at an offset in bytes, of a width in bits: the register there, the MSI-X region, or zero
(R12, R15, R603 to R608). The clearing that an RC read does is HIF_EVT_LOST_READ. -/
def State.busRead (s : State) (p : RegPath) (off width : Nat) : Nat :=
  let reg := ((regOn p off width false).map s.regRead).getD 0
  match p with
  | .pf => if 0xA0000 ≤ off && off < 0xA8100 then s.msixBus 0 0x8000 (off - 0xA0000) width else reg
  | .vf g => if 0x8000 ≤ off && off < 0x8810 then s.msixBus (g.val + 1) 0x800 (off - 0x8000) width else reg
  | .i3c => reg
  | .config _ => 0

/-- One DWORD of an MSI-X entry. -/
def MsixEntry.write (e : MsixEntry) (k v : Nat) : MsixEntry :=
  if k = 0 then { e with addr := BitVec.ofNat 64 (e.addr.toNat / 2 ^ 32 * 2 ^ 32 + v % 2 ^ 32 / 4 * 4) }
  else if k = 1 then { e with addr := BitVec.ofNat 64 (e.addr.toNat % 2 ^ 32 + v % 2 ^ 32 * 2 ^ 32) }
  else if k = 2 then { e with data := BitVec.ofNat 32 v }
  else { e with mask := bitOf v 0 }

/-- Write one DWORD of a function's table; a mask that clears sends what was pending (R596). -/
def State.msixDword (s : State) (f off v : Nat) : State :=
  let n := off / 16
  let e := spGet MsixEntry.reset (s.fn f).msix n
  (s.modFn f fun x => { x with msix := spPut MsixEntry.reset x.msix n (e.write (off % 16 / 4) v) }).sendPending f n

/-- An aligned DWORD or QWORD write to a function's MSI-X table; any other write is ignored (R605). -/
def State.msixWrite (s : State) (f off width v : Nat) : State :=
  if !s.boot.released then s
  else if width = 32 && off % 4 = 0 then s.msixDword f off v
  else if width = 64 && off % 8 = 0 then (s.msixDword f off v).msixDword f (off + 4) (v / 2 ^ 32)
  else s

/-- Message Control of a function's MSI-X capability: bit 15 enables, bit 14 masks the function (log 64). -/
def State.msixControl (s : State) (f v : Nat) : State :=
  let s := s.modFn f fun x => { x with msixEnable := bitOf v 15, msixMask := bitOf v 14 }
  (s.fn f).msix.foldl (fun s x => s.sendPending f x.1) s

/-! What a write does. -/

/-- Go on after a step. -/
def thenDo (o : Host.Outcome State Fault Refusal) (f : State → Host.Outcome State Fault Refusal) :
    Host.Outcome State Fault Refusal :=
  match o with
  | .next s => f s
  | x => x

/-- A write to TEL_REPRO_n (R379). -/
def State.reproWrite (s : State) (p : RegPath) (n v : Nat) : Host.Outcome State Fault Refusal :=
  let i := Fin.ofNat 16 n
  let s := s.modImp n fun m => { m with report := v / 4 % 4 }
  thenDo (execReproStep p i (bitOf v 0) s) fun s => if bitOf v 1 then execReproGo p i s else .next s

/-- A write to FAB_LOCATION (R401, R415): ENDPOINT is ignored while VALID is 1. -/
def State.locationWrite (s : State) (p : RegPath) (v : Nat) : Host.Outcome State Fault Refusal :=
  let s := if s.fab.valid then s else { s with fab := { s.fab with endpoint := v % 2 ^ 18 } }
  if bitOf v 31 then execFabLocationValid p s else .next s

/-- A write to FAB_PORT_CTRL_n (R415). -/
def State.portWrite (s : State) (n v : Nat) : Host.Outcome State Fault Refusal :=
  let q := Fin.ofNat 20 n
  thenDo (execPortEnable q (bitOf v 0) s) fun s =>
    thenDo (execPortLoopback q (bitOf v 2) s) fun s => if bitOf v 1 then execPortRetrain q s else .next s

/-- A write to SEC_IMG_CTRL (R575 to R577, R586): one that would start something while BUSY is 1 is ignored. -/
def State.imgWrite (s : State) (v : Nat) : State :=
  let go := bitOf v 26
  if go && s.boot.busy then s
  else
    let s := { s with boot := { s.boot with imgLen := v % 2 ^ 26, commitSvn := bitOf v 28 } }
    if go then s.imgGo else s

/-- A write to HIF_RINGTAB_CTRL_f (R477): ENTRIES is written and APPLY set. The Compositor's reading of the table that an apply starts
is RINGTAB_APPLY, which carries the reads (log 64). -/
def State.ctrlWrite (s : State) (f v : Nat) : State :=
  s.modFn f fun x => { x with entries := v % 2 ^ 10, apply := x.apply || bitOf v 10 }

/-- A write to ICU_STATUS (R602): both flags are W1C. -/
def State.icuStatusWrite (s : State) (v : Nat) : State :=
  s.icuWrite fun s => { s with icu := { s.icu with restWrite := s.icu.restWrite && !bitOf v 0,
                                                   msixOff := s.icu.msixOff && !bitOf v 1 } }

/-- What a write to a register that answers does; a register with no written field is unchanged (R12, R13). -/
def State.regWrite (s : State) (p : RegPath) (r : Reg) (v : Nat) : Host.Outcome State Fault Refusal :=
  match r with
  | .glbScratch => .next { s with glb := { s.glb with scratch := BitVec.ofNat 64 v } }
  | .hifCfg => .next { s with poll := v % 2 ^ 16 }
  | .tabBase f => .next (s.modFn f fun x => { x with tabBase := BitVec.ofNat 64 (v / 4096 * 4096) })
  | .tabCtrl f => .next (s.ctrlWrite f v)
  | .icuEnSet n => execIcuEnSet (Fin.ofNat 16 n) (BitVec.ofNat 64 v) s
  | .icuEnClr n => execIcuEnClr (Fin.ofNat 16 n) (BitVec.ofNat 64 v) s
  | .icuPendSet n => execIcuPendSet (Fin.ofNat 16 n) (BitVec.ofNat 64 v) s
  | .icuPendClr n => execIcuPendClr (Fin.ofNat 16 n) (BitVec.ofNat 64 v) s
  | .icuStatus => .next (s.icuStatusWrite v)
  | .icuRoute n => execIcuRouteWrite (Fin.ofNat 1024 n) (BitVec.ofNat 32 v) s
  | .pwrCap =>
    if bitOf v 12 then execPwrCapFast p (BitVec.ofNat 12 v) s else execPwrCapWrite p (BitVec.ofNat 12 v) s
  | .pwrRamp => .next (s.modPower fun x => { x with rampUp := v % 2 ^ 12, rampDown := v / 2 ^ 12 % 2 ^ 12 })
  | .pwrHeartbeat => execHeartbeat p (BitVec.ofNat 32 v) s
  | .pwrState => if bitOf v 0 then execPwrReqRest s else execPwrReqRun s
  | .fabLocation => s.locationWrite p v
  | .portCtrl n => s.portWrite n v
  | .secImgAddr => .next { s with boot := { s.boot with imgAddr := v / 4096 * 4096 } }
  | .secImgCtrl => .next (s.imgWrite v)
  | .telRepro n => s.reproWrite p n v
  | _ => .next s

/-- A write by a path to an offset, in bytes, of a width in bits (R15, R603, R605, R607, R608). -/
def State.busWrite (s : State) (p : RegPath) (off width v : Nat) : Host.Outcome State Fault Refusal :=
  let reg : Host.Outcome State Fault Refusal :=
    match regOn p off width true with
    | none => .next s
    | some r => if s.regAnswers r then s.regWrite p r v else .next s
  match p with
  | .pf => if 0xA0000 ≤ off && off < 0xA8000 then .next (s.msixWrite 0 (off - 0xA0000) width v) else reg
  | .vf g => if 0x8000 ≤ off && off < 0x8800 then .next (s.msixWrite (g.val + 1) (off - 0x8000) width v) else reg
  | .i3c => reg
  | .config f => if off = 2 && width = 16 then .next (s.msixControl f.val v) else .next s

/-- REGISTER_WRITE (R12, R603 to R608). -/
def execRegisterWrite (p : RegPath) (offset : Nat) (width : Nat) (v : BitVec 64) (s : State) : Host.Outcome State Fault Refusal :=
  s.busWrite p offset width (v.toNat % 2 ^ min width 64)

/-! The I3C target (R608, R609, R622). -/

/-- Does the target answer on the bus: released, so that its supply and SLOW clock run? -/
def State.i3cUp (s : State) : Bool := s.boot.released

/-- Change the target. -/
def State.modI3c (s : State) (f : I3cTarget → I3cTarget) : State := { s with i3c := f s.i3c }

/-- I3C_PRIVATE_WRITE (R609): four address bytes set the pointer; data of exactly the register's width writes it. A target with no
dynamic address is not addressed (R622). -/
def execI3cPrivateWrite (bytes : List Byte) (s : State) : Host.Outcome State Fault Refusal :=
  if !s.i3cUp || s.i3c.addr.isNone || bytes.length < 4 then .next s
  else
    let a := ofLeBytes (bytes.take 4)
    let data := bytes.drop 4
    let s := s.modI3c fun x => { x with pointer := a }
    if 2 ^ 20 ≤ a || data.isEmpty then .next s
    else s.busWrite .i3c a (8 * data.length) (ofLeBytes data)

/-- What a private read returns (R609): the register at the pointer, or four zero bytes. -/
def State.i3cRead (s : State) : List Byte :=
  match (if s.i3c.pointer < 2 ^ 20 then (pfReg s.i3c.pointer).filter i3cReads else none) with
  | some r => leBytes (regWidth r / 8) (s.regRead r)
  | none => List.replicate 4 0#8

/-- The provisioned ID, most significant byte first (R622). -/
def State.i3cPid (s : State) : List Byte := (leBytes 6 (Config.i3cPid.toNat * 8 + s.boot.slotId)).reverse

/-- ENTDAA (R622): a target with no dynamic address sends its provisioned ID and characteristics and takes the address. -/
def execEntdaa (addr : BitVec 7) (s : State) : Host.Outcome State Fault Refusal :=
  if !s.i3cUp || s.i3c.addr.isSome then .next s
  else .next ((s.emit (.i3c (s.i3cPid ++ [Config.i3cBcr, Config.i3cDcr]))).modI3c fun x => { x with addr := some addr })

/-- SETDASA (R622): the static address is 0x50 + SLOT_ID. -/
def execSetdasa (static : BitVec 7) (addr : BitVec 7) (s : State) : Host.Outcome State Fault Refusal :=
  if !s.i3cUp || s.i3c.addr.isSome || static.toNat ≠ 0x50 + s.boot.slotId then .next s
  else .next (s.modI3c fun x => { x with addr := some addr })

/-- RSTDAA (R622). -/
def execRstdaa (s : State) : Host.Outcome State Fault Refusal :=
  if s.i3cUp then .next (s.modI3c fun x => { x with addr := none }) else .next s

/-- The answer to a CCC that is directed to the dynamic address. -/
def State.cccAnswer (s : State) (bytes : List Byte) : Host.Outcome State Fault Refusal :=
  if !s.i3cUp || s.i3c.addr.isNone then .next s
  else .next ((s.emit (.i3c bytes)).modI3c fun x => { x with answered := x.answered + 1 })

/-- GETPID (R622): bits [2:0] carry SLOT_ID. -/
def execGetpid (s : State) : Host.Outcome State Fault Refusal := s.cccAnswer s.i3cPid

/-- GETBCR: the spec gives no value (log 68). -/
def execGetbcr (s : State) : Host.Outcome State Fault Refusal := s.cccAnswer [Config.i3cBcr]

/-- GETDCR: the spec gives no value (log 68). -/
def execGetdcr (s : State) : Host.Outcome State Fault Refusal := s.cccAnswer [Config.i3cDcr]

/-- GETSTATUS: the spec gives no value (log 68). -/
def execGetstatus (s : State) : Host.Outcome State Fault Refusal :=
  s.cccAnswer (leBytes 2 (Config.i3cStatus s.i3c.answered).toNat).reverse

/-- GETMWL: the spec gives no value (log 68). -/
def execGetmwl (s : State) : Host.Outcome State Fault Refusal := s.cccAnswer (leBytes 2 Config.i3cMwl.toNat).reverse

/-- GETMRL: the spec gives no value (log 68). -/
def execGetmrl (s : State) : Host.Outcome State Fault Refusal := s.cccAnswer (leBytes 2 Config.i3cMrl.toNat).reverse

end Sys2Proof.Machine
end

