-- ==== Sys2Proof/Machine/Dispatch.lean ====
section
/-!
DEFINITION. One arm per command: each is one direct call of its meaning.
-/
namespace Sys2Proof.Machine

open Sys2Proof

/-- The effect of a command on everything but the queue. -/
def exec (i : Instr) (s : State) : Host.Outcome State Fault Refusal :=
  match i with
  | .seqNop core job => Sys2Proof.Machine.execSeqNop core job s
  | .quoin core job => Sys2Proof.Machine.execQuoin core job s
  | .fontLoad core job => Sys2Proof.Machine.execFontLoad core job s
  | .platenTile core job => Sys2Proof.Machine.execPlatenTile core job s
  | .aLoad core job => Sys2Proof.Machine.execALoad core job s
  | .rollerTile core job => Sys2Proof.Machine.execRollerTile core job s
  | .tLoad core job => Sys2Proof.Machine.execTLoad core job s
  | .attend core job => Sys2Proof.Machine.execAttend core job s
  | .merge core job => Sys2Proof.Machine.execMerge core job s
  | .element core job => Sys2Proof.Machine.execElement core job s
  | .reduce core job => Sys2Proof.Machine.execReduce core job s
  | .sample core job => Sys2Proof.Machine.execSample core job s
  | .fontStats core job => Sys2Proof.Machine.execFontStats core job s
  | .routeLocal core job => Sys2Proof.Machine.execRouteLocal core job s
  | .routeMerge core job => Sys2Proof.Machine.execRouteMerge core job s
  | .impose core job => Sys2Proof.Machine.execImpose core job s
  | .collate core job => Sys2Proof.Machine.execCollate core job s
  | .sort core job => Sys2Proof.Machine.execSort core job s
  | .topk core job => Sys2Proof.Machine.execTopk core job s
  | .imposerGather core job => Sys2Proof.Machine.execImposerGather core job s
  | .imposerScatter core job => Sys2Proof.Machine.execImposerScatter core job s
  | .scan core job => Sys2Proof.Machine.execScan core job s
  | .segreduce core job => Sys2Proof.Machine.execSegreduce core job s
  | .fontBuild core job => Sys2Proof.Machine.execFontBuild core job s
  | .chaseCopy core job => Sys2Proof.Machine.execChaseCopy core job s
  | .chaseGather core job => Sys2Proof.Machine.execChaseGather core job s
  | .chaseScatter core job => Sys2Proof.Machine.execChaseScatter core job s
  | .bcast core job => Sys2Proof.Machine.execBcast core job s
  | .t1Read core job => Sys2Proof.Machine.execT1Read core job s
  | .t1Write core job => Sys2Proof.Machine.execT1Write core job s
  | .fabStore core job => Sys2Proof.Machine.execFabStore core job s
  | .fabLoad core job => Sys2Proof.Machine.execFabLoad core job s
  | .fabAtomic core job => Sys2Proof.Machine.execFabAtomic core job s
  | .fabFlag core job => Sys2Proof.Machine.execFabFlag core job s
  | .window core job => Sys2Proof.Machine.execWindow core job s
  | .signal core job => Sys2Proof.Machine.execSignal core job s
  | .commandComplete core job e => Sys2Proof.Machine.execCommandComplete core job e s
  | .jobSwitch core job => Sys2Proof.Machine.execJobSwitch core job s
  | .impressionOpening imp hostWords => Sys2Proof.Machine.execImpressionOpening imp hostWords s
  | .starvationLimit imp handle => Sys2Proof.Machine.execStarvationLimit imp handle s
  | .quoinRelease imp job waitUs last => Sys2Proof.Machine.execQuoinRelease imp job waitUs last s
  | .laggard imp endpoint => Sys2Proof.Machine.execLaggard imp endpoint s
  | .lagWindowRestart imp => Sys2Proof.Machine.execLagWindowRestart imp s
  | .impressionCommit imp t => Sys2Proof.Machine.execImpressionCommit imp t s
  | .doorbellPoll => Sys2Proof.Machine.execDoorbellPoll s
  | .nudge f slot => Sys2Proof.Machine.execNudge f slot s
  | .ticketFetch f ring doorbell reads => Sys2Proof.Machine.execTicketFetch f ring doorbell reads s
  | .nopTicket f ring => Sys2Proof.Machine.execNopTicket f ring s
  | .openReq imp ring => Sys2Proof.Machine.execOpenReq imp ring s
  | .append imp ring => Sys2Proof.Machine.execAppend imp ring s
  | .cancel imp ring => Sys2Proof.Machine.execCancel imp ring s
  | .params imp ring => Sys2Proof.Machine.execParams imp ring s
  | .adapterLoad imp ring => Sys2Proof.Machine.execAdapterLoad imp ring s
  | .adapterRetire imp ring => Sys2Proof.Machine.execAdapterRetire imp ring s
  | .weightsLoad imp ring => Sys2Proof.Machine.execWeightsLoad imp ring s
  | .editionStage ring image => Sys2Proof.Machine.execEditionStage ring image s
  | .editionValidated => Sys2Proof.Machine.execEditionValidated s
  | .editionCommit ring => Sys2Proof.Machine.execEditionCommit ring s
  | .editionRecheckDone image minors => Sys2Proof.Machine.execEditionRecheckDone image minors s
  | .pointOfNoReturn => Sys2Proof.Machine.execPointOfNoReturn s
  | .editionCommitDone micros => Sys2Proof.Machine.execEditionCommitDone micros s
  | .editionRevert ring => Sys2Proof.Machine.execEditionRevert ring s
  | .query f ring => Sys2Proof.Machine.execQuery f ring s
  | .fence f ring => Sys2Proof.Machine.execFence f ring s
  | .ringtabApply p f entries reads => Sys2Proof.Machine.execRingtabApply p f entries reads s
  | .hifEvtLostRead p f => Sys2Proof.Machine.execHifEvtLostRead p f s
  | .vfFlr imp => Sys2Proof.Machine.execVfFlr imp s
  | .pfFlr => Sys2Proof.Machine.execPfFlr s
  | .pcieLinkChange gts width => Sys2Proof.Machine.execPcieLinkChange gts width s
  | .fabRequestArrival port p => Sys2Proof.Machine.execFabRequestArrival port p s
  | .t1FabricSlot ch => Sys2Proof.Machine.execT1FabricSlot ch s
  | .fabResponseArrival port p => Sys2Proof.Machine.execFabResponseArrival port p s
  | .fabRetryTimeout imp target eseq => Sys2Proof.Machine.execFabRetryTimeout imp target eseq s
  | .operationLost imp target eseq => Sys2Proof.Machine.execOperationLost imp target eseq s
  | .generationHoldoffEnd imp target => Sys2Proof.Machine.execGenerationHoldoffEnd imp target s
  | .packetLifetimeExpiry port => Sys2Proof.Machine.execPacketLifetimeExpiry port s
  | .packetForward port p => Sys2Proof.Machine.execPacketForward port p s
  | .linkPacketReceive port l => Sys2Proof.Machine.execLinkPacketReceive port l s
  | .linkPacketTimer port => Sys2Proof.Machine.execLinkPacketTimer port s
  | .replayTimeout port => Sys2Proof.Machine.execReplayTimeout port s
  | .replayLimit port => Sys2Proof.Machine.execReplayLimit port s
  | .helloReceive port h => Sys2Proof.Machine.execHelloReceive port h s
  | .helloTimer port => Sys2Proof.Machine.execHelloTimer port s
  | .signalDetect port => Sys2Proof.Machine.execSignalDetect port s
  | .trainDone port => Sys2Proof.Machine.execTrainDone port s
  | .trainTimeout port => Sys2Proof.Machine.execTrainTimeout port s
  | .lockAchieved port => Sys2Proof.Machine.execLockAchieved port s
  | .lockTimeout port => Sys2Proof.Machine.execLockTimeout port s
  | .helloTimeout port => Sys2Proof.Machine.execHelloTimeout port s
  | .retrainTimeout port => Sys2Proof.Machine.execRetrainTimeout port s
  | .uncorrectableCodewordRun port => Sys2Proof.Machine.execUncorrectableCodewordRun port s
  | .alignmentLoss port => Sys2Proof.Machine.execAlignmentLoss port s
  | .discoveryTimeout => Sys2Proof.Machine.execDiscoveryTimeout s
  | .portEnable port en => Sys2Proof.Machine.execPortEnable port en s
  | .portRetrain port => Sys2Proof.Machine.execPortRetrain port s
  | .portLoopback port on => Sys2Proof.Machine.execPortLoopback port on s
  | .fabLocationValid p => Sys2Proof.Machine.execFabLocationValid p s
  | .morgueTransferDone imp folio bytes => Sys2Proof.Machine.execMorgueTransferDone imp folio bytes s
  | .morgueTransferFailed imp folio => Sys2Proof.Machine.execMorgueTransferFailed imp folio s
  | .morgueLate imp handle => Sys2Proof.Machine.execMorgueLate imp handle s
  | .refreshWindow ch => Sys2Proof.Machine.execRefreshWindow ch s
  | .refreshIntervalExpiry ch => Sys2Proof.Machine.execRefreshIntervalExpiry ch s
  | .t1ScrubSlot ch => Sys2Proof.Machine.execT1ScrubSlot ch s
  | .t0Scrub core => Sys2Proof.Machine.execT0Scrub core s
  | .damageReport => Sys2Proof.Machine.execDamageReport s
  | .coreCheckFault core => Sys2Proof.Machine.execCoreCheckFault core s
  | .coreTimeout core => Sys2Proof.Machine.execCoreTimeout core s
  | .peerTimeout imp endpoint => Sys2Proof.Machine.execPeerTimeout imp endpoint s
  | .recoverRoster imp source dest epoch members last => Sys2Proof.Machine.execRecoverRoster imp source dest epoch members last s
  | .coreLost core => Sys2Proof.Machine.execCoreLost core s
  | .compositorMemoryError inReserve ccore => Sys2Proof.Machine.execCompositorMemoryError inReserve ccore s
  | .compositorWatchdog ccore => Sys2Proof.Machine.execCompositorWatchdog ccore s
  | .colophonFault => Sys2Proof.Machine.execColophonFault s
  | .pwrCapWrite p target => Sys2Proof.Machine.execPwrCapWrite p target s
  | .pwrCapFast p target => Sys2Proof.Machine.execPwrCapFast p target s
  | .capStep => Sys2Proof.Machine.execCapStep s
  | .limiterEval pFixed pLink pMem pCore => Sys2Proof.Machine.execLimiterEval pFixed pLink pMem pCore s
  | .avsSample milliwatts => Sys2Proof.Machine.execAvsSample milliwatts s
  | .overCap => Sys2Proof.Machine.execOverCap s
  | .overCapClear => Sys2Proof.Machine.execOverCapClear s
  | .vrAlertAssert => Sys2Proof.Machine.execVrAlertAssert s
  | .vrAlertDeassert => Sys2Proof.Machine.execVrAlertDeassert s
  | .vrAlertClear => Sys2Proof.Machine.execVrAlertClear s
  | .pwrbrkAssert => Sys2Proof.Machine.execPwrbrkAssert s
  | .pwrbrkDeassert => Sys2Proof.Machine.execPwrbrkDeassert s
  | .pwrbrkClear => Sys2Proof.Machine.execPwrbrkClear s
  | .sensorRead readings => Sys2Proof.Machine.execSensorRead readings s
  | .lthStep => Sys2Proof.Machine.execLthStep s
  | .thermalHold => Sys2Proof.Machine.execThermalHold s
  | .dramTempReport dev rate => Sys2Proof.Machine.execDramTempReport dev rate s
  | .heartbeat p value => Sys2Proof.Machine.execHeartbeat p value s
  | .heartbeatExpiry => Sys2Proof.Machine.execHeartbeatExpiry s
  | .pwrReqRest => Sys2Proof.Machine.execPwrReqRest s
  | .pwrReqRun => Sys2Proof.Machine.execPwrReqRun s
  | .restEntry => Sys2Proof.Machine.execRestEntry s
  | .restWake => Sys2Proof.Machine.execRestWake s
  | .monitorSample samples => Sys2Proof.Machine.execMonitorSample samples s
  | .spareMonitorSample samples => Sys2Proof.Machine.execSpareMonitorSample samples s
  | .marginFit fits => Sys2Proof.Machine.execMarginFit fits s
  | .powerGoodRise slotId entropyGood => Sys2Proof.Machine.execPowerGoodRise slotId entropyGood s
  | .powerGoodFall => Sys2Proof.Machine.execPowerGoodFall s
  | .perstNAssert => Sys2Proof.Machine.execPerstNAssert s
  | .release coolOk vrAlertN pwrbrkN => Sys2Proof.Machine.execRelease coolOk vrAlertN pwrbrkN s
  | .coolOkChange level => Sys2Proof.Machine.execCoolOkChange level s
  | .bootImageChecked identified image => Sys2Proof.Machine.execBootImageChecked identified image s
  | .firmwareInitDone failed => Sys2Proof.Machine.execFirmwareInitDone failed s
  | .mailboxLoad => Sys2Proof.Machine.execMailboxLoad s
  | .mailboxImageChecked image => Sys2Proof.Machine.execMailboxImageChecked image s
  | .firmwareUpdate => Sys2Proof.Machine.execFirmwareUpdate s
  | .firmwareUpdateDone image readBack => Sys2Proof.Machine.execFirmwareUpdateDone image readBack s
  | .clockMonitorTrip refLost => Sys2Proof.Machine.execClockMonitorTrip refLost s
  | .pcieRefclkLoss => Sys2Proof.Machine.execPcieRefclkLoss s
  | .drbgReseed => Sys2Proof.Machine.execDrbgReseed s
  | .getVersion => Sys2Proof.Machine.execGetVersion s
  | .getCapabilities => Sys2Proof.Machine.execGetCapabilities s
  | .negotiateAlgorithms => Sys2Proof.Machine.execNegotiateAlgorithms s
  | .getDigests => Sys2Proof.Machine.execGetDigests s
  | .getCertificate slot offset length => Sys2Proof.Machine.execGetCertificate slot offset length s
  | .challenge msg => Sys2Proof.Machine.execChallenge msg s
  | .getMeasurements msg signed index => Sys2Proof.Machine.execGetMeasurements msg signed index s
  | .keyExchange msg => Sys2Proof.Machine.execKeyExchange msg s
  | .finish macGood => Sys2Proof.Machine.execFinish macGood s
  | .keyUpdate which => Sys2Proof.Machine.execKeyUpdate which s
  | .spdmHeartbeat => Sys2Proof.Machine.execSpdmHeartbeat s
  | .endSession => Sys2Proof.Machine.execEndSession s
  | .getPqChain offset length => Sys2Proof.Machine.execGetPqChain offset length s
  | .getPqSignature => Sys2Proof.Machine.execGetPqSignature s
  | .i3cPrivateWrite bytes => Sys2Proof.Machine.execI3cPrivateWrite bytes s
  | .entdaa addr => Sys2Proof.Machine.execEntdaa addr s
  | .setdasa static addr => Sys2Proof.Machine.execSetdasa static addr s
  | .rstdaa => Sys2Proof.Machine.execRstdaa s
  | .getpid => Sys2Proof.Machine.execGetpid s
  | .getbcr => Sys2Proof.Machine.execGetbcr s
  | .getdcr => Sys2Proof.Machine.execGetdcr s
  | .getstatus => Sys2Proof.Machine.execGetstatus s
  | .getmwl => Sys2Proof.Machine.execGetmwl s
  | .getmrl => Sys2Proof.Machine.execGetmrl s
  | .icuInputEvent source => Sys2Proof.Machine.execIcuInputEvent source s
  | .icuEnSet n v => Sys2Proof.Machine.execIcuEnSet n v s
  | .icuEnClr n v => Sys2Proof.Machine.execIcuEnClr n v s
  | .icuPendSet n v => Sys2Proof.Machine.execIcuPendSet n v s
  | .icuPendClr n v => Sys2Proof.Machine.execIcuPendClr n v s
  | .icuRouteWrite source v => Sys2Proof.Machine.execIcuRouteWrite source v s
  | .reproStep p imp on => Sys2Proof.Machine.execReproStep p imp on s
  | .reproGo p imp => Sys2Proof.Machine.execReproGo p imp s
  | .registerWrite p offset width v => Sys2Proof.Machine.execRegisterWrite p offset width v s
  | .nakSend port lseq => Sys2Proof.Machine.execNakSend port lseq s
  | .msixMaskClear f vector => Sys2Proof.Machine.execMsixMaskClear f vector s
  | .pcieRefclkReturn => Sys2Proof.Machine.execPcieRefclkReturn s
  | .ideKm prog key => Sys2Proof.Machine.execIdeKm prog key s

end Sys2Proof.Machine
end

