-- ==== Sys2Proof/Safety.lean ====
section
/-!
DEFINITION. The terms that claims about the machine use: canonical memories and tables, what a T0 byte reads as, which command is an
engine's, and what a step leaves alone.
-/
namespace Sys2Proof.Machine

open Sys2Proof

/-- The canonical form of T0, and of every channel's data (R222, R235; log 1). -/
def State.memoryWf (s : State) : Bool := spWf 0#8 s.t0.bytes && s.t1.all fun x => spWf 0#8 x.2.data

/-- The tables by core, imprint, function, port and channel, in their canonical form. -/
def State.tablesWf (s : State) : Bool :=
  spWf Core.empty s.cores && spWf Imprint.absent s.imprints && spWf Fn.reset s.fns && spWf Port.reset s.ports
    && spWf Channel.empty s.t1

/-- A step that neither faults nor refuses. -/
def Runs (o : Host.Outcome State Fault Refusal) : Prop := ∃ t, o = .next t

/-- The byte that stands at a T0 address. -/
def State.byteAt (s : State) (a : Nat) : Byte := spGet 0#8 s.t0.bytes a

/-- Bytes stand at a T0 address. -/
def State.holds (s : State) (a : Nat) (bs : List Byte) : Prop := memRead s.t0.bytes a bs.length = bs

/-- T0 outside `n` bytes from `a` is as it was. -/
def State.sameOutside (s t : State) (a n : Nat) : Prop := ∀ x, x < a ∨ a + n ≤ x → t.byteAt x = s.byteAt x

/-- No T0 word has a flipped bit, so that every read is good (R230, R231). -/
def State.sound (s : State) : Bool := s.t0.flips.isEmpty

/-- May a core of imprint `i` read these bytes (R224)? -/
def State.readable (s : State) (i a n : Nat) : Bool := decide (0 < n) && s.mayReadAll i a n

/-- May a core of imprint `i` write these bytes (R224)? -/
def State.writable (s : State) (i a n : Nat) : Bool := decide (0 < n) && s.mayWriteAll i a n

/-- The core, job and opcode of a command that a core's sequencer takes from its stream (R299). -/
def engineOp : Instr → Option (Nat × Nat × Nat)
  | .seqNop c j => some (c.val, j.val, 0x00)
  | .quoin c j => some (c.val, j.val, 0x01)
  | .fontLoad c j => some (c.val, j.val, 0x02)
  | .platenTile c j => some (c.val, j.val, 0x10)
  | .aLoad c j => some (c.val, j.val, 0x11)
  | .rollerTile c j => some (c.val, j.val, 0x20)
  | .tLoad c j => some (c.val, j.val, 0x21)
  | .attend c j => some (c.val, j.val, 0x30)
  | .merge c j => some (c.val, j.val, 0x31)
  | .element c j => some (c.val, j.val, 0x40)
  | .reduce c j => some (c.val, j.val, 0x41)
  | .sample c j => some (c.val, j.val, 0x42)
  | .fontStats c j => some (c.val, j.val, 0x43)
  | .routeLocal c j => some (c.val, j.val, 0x50)
  | .routeMerge c j => some (c.val, j.val, 0x51)
  | .impose c j => some (c.val, j.val, 0x52)
  | .collate c j => some (c.val, j.val, 0x53)
  | .sort c j => some (c.val, j.val, 0x54)
  | .topk c j => some (c.val, j.val, 0x55)
  | .imposerGather c j => some (c.val, j.val, 0x56)
  | .imposerScatter c j => some (c.val, j.val, 0x57)
  | .scan c j => some (c.val, j.val, 0x58)
  | .segreduce c j => some (c.val, j.val, 0x59)
  | .fontBuild c j => some (c.val, j.val, 0x5A)
  | .chaseCopy c j => some (c.val, j.val, 0x60)
  | .chaseGather c j => some (c.val, j.val, 0x61)
  | .chaseScatter c j => some (c.val, j.val, 0x62)
  | .bcast c j => some (c.val, j.val, 0x63)
  | .t1Read c j => some (c.val, j.val, 0x64)
  | .t1Write c j => some (c.val, j.val, 0x65)
  | .fabStore c j => some (c.val, j.val, 0x66)
  | .fabLoad c j => some (c.val, j.val, 0x67)
  | .fabAtomic c j => some (c.val, j.val, 0x68)
  | .fabFlag c j => some (c.val, j.val, 0x69)
  | .window c j => some (c.val, j.val, 0x6A)
  | .signal c j => some (c.val, j.val, 0x6B)
  | _ => none

/-- Does the command's opcode leave the package alone, so that nothing else than its core, memory and imprint can change? The
fabric's commands and the transfer windows may lose an operation, which ends the impression (R521). -/
def onPackage (op : Nat) : Bool := decide (op < 0x66) || op == 0x6B

/-- What an engine command of an opcode may change of its own core once it is handed over: `y` is `x` but for that. -/
def Core.sameBut (op : Nat) (x y : Core) : Prop :=
  if op = 0x02 then y = { x with fonts := y.fonts }
  else if op = 0x10 then y = { x with accP := y.accP, rank := y.rank, banks := y.banks }
  else if op = 0x11 then y = { x with staging := y.staging, staged := y.staged }
  else if op = 0x20 then y = { x with accR := y.accR, rank := y.rank, sets := y.sets }
  else if op = 0x21 then y = { x with tokens := y.tokens, staged := y.staged }
  else if op = 0x30 ∨ op = 0x31 then y = { x with galley := y.galley }
  else if op = 0x52 then y = { x with picks := y.picks, sent := y.sent }
  else if op = 0x00 ∨ op = 0x01 ∨ op = 0x6B then y = { x with jobs := y.jobs }
  else y = x

/-- What the engine commands on the package may change of their imprint: its counters, what the impression has gathered so far, its
run-time fonts and scales, and the scales that its folios take. -/
def Imprint.sameBut (x y : Imprint) : Prop :=
  y = { x with
    run := { x.run with counters := y.run.counters, trips := y.run.trips, decisions := y.run.decisions,
                        rowStatus := y.run.rowStatus, hurt := y.run.hurt, observed := y.run.observed,
                        fontBuilt := y.run.fontBuilt, fontSlots := y.run.fontSlots, scales := y.run.scales,
                        squares := y.run.squares, sums := y.run.sums, freshParts := y.run.freshParts,
                        badRows := y.run.badRows, cands := y.run.cands },
    serve := { x.serve with folios := y.serve.folios } }

/-- Where a stream goes on after a command (R294). -/
def Core.nextPos (c : Core) (job : Nat) : Nat :=
  if (c.job job).pos + 1 < (c.stream job).length then (c.job job).pos + 1 else 0

/-- What a record leaves in its engine's queue (R297, R298). -/
def flightOf (job : Nat) (r : BitVec 512) : List Flight :=
  match engineOf (cmdHead r) with
  | some e => [⟨job, e, if (cmdHead r).sigEn then some (cmdHead r).sigCtr else none, wantsOverprint r⟩]
  | none => []

/-- A sync counter of a job (R298). -/
def Core.ctr (c : Core) (job k : Nat) : Nat := spGet 0 (c.job job).ctrs k

end Sys2Proof.Machine
end

