-- ==== Sys2Proof/Certificates/Slice0/Obligations.lean ====
section
/-!
DEFINITION. The statements about the machine, for the provers.
-/
open Sys2Proof Sys2Proof.Machine

/-- The block's step: the command at the front of the queue runs, with the queue's rest. -/
def Obligations.StepRunsTheFrontCommand : Prop :=
  ∀ (s : State) (c : Instr) (rest : List Instr), s.pending = c :: rest → step s = exec c { s with pending := rest }

/-- The model's choice (log 5): with nothing waiting, one NOC cycle passes: after release the ISSUE counter rises by two and the
interrupt controller looks at its inputs; nothing of cores, memories, imprints or links changes. -/
def Obligations.IdleStepIsOneNocCycle : Prop :=
  ∀ (s : State), s.pending = [] →
    (s.boot.released = false → step s = .next s)
    ∧ (s.boot.released = true → ∃ t, step s = .next t ∧ t.cycle = s.cycle + 2 ∧ t.cores = s.cores ∧ t.imprints = s.imprints
        ∧ t.t0 = s.t0 ∧ t.t1 = s.t1 ∧ t.ports = s.ports ∧ t.fab = s.fab ∧ t.power = s.power ∧ t.boot = s.boot ∧ t.ed = s.ed
        ∧ t.pending = [] ∧ t.icu.en = s.icu.en ∧ ∀ n, Nat.testBit s.icu.pend n = true → s.inRest = false → Nat.testBit t.icu.pend n = true)

/-- R379, R477, R514, R560, R586, R602, R611: what the registers read right after release, where their tables give it. -/
def Obligations.RegistersReadTheirResetValues : Prop :=
  let s := State.reset
  s.regValue .glbScratch = 0 ∧ s.regValue .glbFatal = 0 ∧ s.regValue .hifCfg = 20 ∧ s.regValue .pwrCap = 2600
    ∧ s.regValue .pwrRamp = 50 + 50 * 2 ^ 12 ∧ s.regValue .pwrState = 0
    ∧ s.regValue .pwrStatus = 64 + 2600 * 2 ^ 12 + 64 * 2 ^ 57
    ∧ s.regValue .clkStatus = 7 ∧ s.regValue .ednState = 2 ^ 34 ∧ s.regValue .ednNumbers = 0 ∧ s.regValue .icuStatus = 0
    ∧ (∀ n, n < 16 → s.regValue (.icuEnSet n) = 0 ∧ s.regValue (.icuPendSet n) = 0 ∧ s.regValue (.telRepro n) = 4
        ∧ s.regValue (.ednImprint n) = 32)
    ∧ (∀ f, f < 17 → s.regValue (.tabBase f) = 0 ∧ s.regValue (.tabCtrl f) = 0 ∧ s.regValue (.evtLost f) = 0)
    ∧ (∀ k, k < 8 → s.regValue (.icuClaim k) = 0)
    ∧ ∀ r, s.regAnswers r = true ↔ r ∈ [Reg.clkStatus, .secBoot, .secFw, .secImgAddr, .secImgCtrl, .secUid, .glbFatal]

/-- The model's own invariant at reset: memories and tables are in their canonical form. -/
def Obligations.ResetIsInCanonicalForm : Prop := State.reset.memoryWf = true ∧ State.reset.tablesWf = true

/-- The model's own invariant (log 1): whatever command runs, every memory and every table stays in its canonical form, so that equal
contents are equal data. -/
def Obligations.EveryStepKeepsTheCanonicalForm : Prop :=
  ∀ (s t : State), s.memoryWf = true → s.tablesWf = true → step s = .next t → t.memoryWf = true ∧ t.tablesWf = true

/-- R222, R224, R225, R234, R488: a command of an engine on the package, issued by a core of one imprint, changes nothing of any other
imprint: not its record, its cores, its near slices or its channels. -/
def Obligations.EngineCommandsLeaveOtherImprintsAlone : Prop :=
  ∀ (c : Instr) (core job op i : Nat) (r : BitVec 512) (g : ImprintCfg) (s : State),
    engineOp c = some (core, job, op) → onPackage op = true → s.ready core job op = some (i, r) → s.cfg i = some g →
    ∃ t, exec c s = .next t
      ∧ (∀ j, j ≠ i → t.imp j = s.imp j)
      ∧ (∀ k, ¬ k ∈ g.cores → t.core k = s.core k)
      ∧ (∀ x, t0Core x < 192 → ¬ t0Core x ∈ g.cores → t.byteAt x = s.byteAt x)
      ∧ ∀ ch, ¬ ch ∈ g.channels → t.ch ch = s.ch ch

/-- R123 to R137, R150: what an encoder writes, with any valid font or with none, decodes to the same bytes. -/
def Obligations.SlugsDecodeToTheirBytes : Prop :=
  ∀ (font : Option Font) (fonts : List Font) (format dec : Nat) (bs pad : List Byte),
    slugBytes format dec = some bs.length → 1 ≤ bs.length → bs.length ≤ 65536 → 31 ≤ pad.length →
    (∀ f, font = some f → lensValid f.kind f.lens = true ∧ f.lens.length = f.kind.alphabet ∧ 0 < f.id ∧ f.id ≤ 0x10FF
      ∧ fonts.find? (fun g => g.id == f.id) = some f) →
    (decideSlug fonts format dec (encodeSlug font format dec bs ++ pad)).1 = .good
      ∧ (decideSlug fonts format dec (encodeSlug font format dec bs ++ pad)).2.1 = bs

/-- R124: a slug's decoded byte count D is DEC_LEN × (bits per element) / 8, or 13 × DEC_LEN / 64 for TERNARY, and it is well formed
only when D is a whole number from 1 to 65,536, DEC_LEN a multiple of 64 for TERNARY, ENC_LEN from 1 to D, and D itself for STORED. One
element is one byte in a scale plane. -/
def Obligations.SlugHeadersAreWellFormed : Prop :=
  ∀ (h : SlugHeader),
    (∀ f, Elem.ofCode h.format = some f →
      (h.wellFormed = true ↔ ∃ d, (if f = .ternary then h.dec % 64 = 0 ∧ 64 * d = 13 * h.dec else 8 * d = h.dec * f.bits)
        ∧ 1 ≤ d ∧ d ≤ 65536 ∧ 1 ≤ h.enc ∧ h.enc ≤ d ∧ (h.font = 0 → h.enc = d)))
    ∧ ((h.format = 0x81 ∨ h.format = 0x82) →
      (h.wellFormed = true ↔ 1 ≤ h.dec ∧ h.dec ≤ 65536 ∧ 1 ≤ h.enc ∧ h.enc ≤ h.dec ∧ (h.font = 0 → h.enc = h.dec)))
    ∧ (Elem.ofCode h.format = none → h.format ≠ 0x81 → h.format ≠ 0x82 → h.wellFormed = false)

/-- R405: a link runs at the highest version that both ends allow, the lesser of the two maxima; with no such version the port is HELD
with reason WIRE. -/
def Obligations.LinksRunAtTheHighestCommonVersion : Prop :=
  ∀ (maxA minA : Nat) (h : Hello),
    let both := fun v : Nat => minA ≤ v ∧ v ≤ maxA ∧ h.wireMin ≤ v ∧ v ≤ h.wireMax
    (∀ v, wireOf maxA minA h = some v ↔ both v ∧ ∀ w, both w → w ≤ v)
    ∧ (∀ v, wireOf maxA minA h = some v → v = min maxA h.wireMax)
    ∧ ∀ (s : State) (p : Nat) (t : Topology) (e : PortPlan), s.topology = some t → t.ports[p]? = some e → e.need ≠ .unused →
        planMatches e p h = true → s.wireMax = maxA → s.wireMin = minA →
        ((¬ ∃ v, both v) → s.outcome p h = (.held, 3, true)) ∧ ((∃ v, both v) → s.outcome p h = (.up, 0, false))

/-- R222, R231, R232, R235: T0 reads back what was written, whatever flips its lines had; a write to lines without uncorrectable words
changes no other byte; a read that meets an uncorrectable line delivers zeros and reports it; a corrected read counts once. No two T1 lines share a home, and n
consecutive lines of one stripe fall on n different channels. -/
def Obligations.MemoriesReadWhatWasWritten : Prop :=
  (∀ (s : State) (a : Nat) (bs : List Byte), ((s.t0Write a bs).t0Read a bs.length).1 = bs
    ∧ ((∀ l ∈ linesOf a bs.length, s.lineBad l = false) → s.sameOutside (s.t0Write a bs) a bs.length))
  ∧ (∀ (s : State) (a n : Nat), 0 < n → a / 256 = (a + n - 1) / 256 →
    (s.lineBad (a / 256) = true → (s.t0Read a n).1 = List.replicate n 0#8
      ∧ (⟨s.ownerImprint (a / 256 * 256), .t0 (a / 256 * 256), 0x0300, none⟩ : Report) ∈ (s.t0Read a n).2.reports)
    ∧ (s.lineBad (a / 256) = false → (s.t0Read a n).1 = memRead s.t0.bytes a n ∧ (s.t0Read a n).2.reports = s.reports
      ∧ ∀ c, spGet 0 (s.t0Read a n).2.t0.corrected c = if c = t0Core a ∧ s.lineFixes (a / 256) ≠ 0
          then (spGet 0 s.t0.corrected c + 1) % 2 ^ 32 else spGet 0 s.t0.corrected c))
  ∧ ∀ cs : List Nat, cs.Nodup → cs ≠ [] →
    (∀ l, (t1Map cs l).1 ∈ cs) ∧ (∀ l m, t1Map cs l = t1Map cs m → l = m)
    ∧ ∀ q r r', r < cs.length → r' < cs.length → (t1Map cs (cs.length * q + r)).1 = (t1Map cs (cs.length * q + r')).1 → r = r'

/-- R417, R419: what each atomic leaves in its word, for words of 32 and 64 bits; the upper half of an operand of a 32-bit one is
ignored; two commutative atomics of one kind leave the same word in either order. -/
def Obligations.AtomicsComputeTheirWord : Prop :=
  ∀ (w old a b c : Nat), w = 32 ∨ w = 64 → old < 2 ^ w → a < 2 ^ 64 → b < 2 ^ 64 → c < 2 ^ 64 →
    let x := a % 2 ^ w
    let low := fun op => atomicNew op w old a c
    low 0x10 = (old + x) % 2 ^ w ∧ low 0x11 = min old x ∧ low 0x12 = max old x
    ∧ (BitVec.ofNat w (low 0x13)).toInt = min (BitVec.ofNat w old).toInt (BitVec.ofNat w x).toInt
    ∧ (BitVec.ofNat w (low 0x14)).toInt = max (BitVec.ofNat w old).toInt (BitVec.ofNat w x).toInt
    ∧ low 0x15 = x ∧ (low 0x16 = if old = c % 2 ^ w then x else old)
    ∧ (∀ op, isAtomic op = true → low op < 2 ^ w ∧ low op = atomicNew op w old x (c % 2 ^ w))
    ∧ ∀ op, isCommutative op = true → atomicNew op w (low op) b c = atomicNew op w (atomicNew op w old b c) a c

/-- R297 and log 3: while the sequencer cannot hand over a record of the opcode, the command changes nothing. -/
def Obligations.EngineCommandWaitsUntilReady : Prop :=
  ∀ (c : Instr) (core job op : Nat) (s : State),
    engineOp c = some (core, job, op) → s.ready core job op = none → exec c s = .next s

/-- R29, R294, R297: a command of an engine on the package is handed over: the stream position moves on, wrapping after the last
command, and the command is in flight in its engine's queue. Beyond the hand-over it changes of its own core only what its opcode owns,
of other cores nothing but a SIGNAL's sync counters, of its imprint only what the impression gathers, and of the rest only memory, its
error reports and the gates of bays. -/
def Obligations.EngineCommandIsHandedOver : Prop :=
  ∀ (c : Instr) (core job op i : Nat) (r : BitVec 512) (s : State),
    engineOp c = some (core, job, op) → onPackage op = true → s.ready core job op = some (i, r) →
    ∃ t, exec c s = .next t
      ∧ ((t.core core).job job).pos = (s.core core).nextPos job
      ∧ (t.core core).inflight = (s.core core).inflight ++ flightOf job r
      ∧ (∀ j, (t.core core).stream j = (s.core core).stream j)
      ∧ (∀ j, j ≠ job → ((t.core core).job j).pos = ((s.core core).job j).pos)
      ∧ Core.sameBut op ((s.handOver core job r).core core) (t.core core)
      ∧ (∀ k, k ≠ core → { t.core k with jobs := (s.core k).jobs } = s.core k ∧ (op ≠ 0x6B → t.core k = s.core k)
          ∧ ∀ j, { (t.core k).job j with ctrs := ((s.core k).job j).ctrs } = (s.core k).job j)
      ∧ (s.imp i).sameBut (t.imp i)
      ∧ { t with t0 := s.t0, t1 := s.t1, reports := s.reports, imprints := s.imprints, cores := s.cores,
                 fab := { t.fab with gates := s.fab.gates } } = s

/-- R299, R309, R313: NOP changes nothing but the position and its own signal; QUOIN stops the job until the quoin releases; SIGNAL
adds one to the counter it names of a core of the same imprint, and to none of another. -/
def Obligations.SequencerCommandResults : Prop :=
  ∀ (core : Fin 192) (job : Fin 8) (s : State) (i : Nat) (r : BitVec 512),
    (s.ready core.val job.val 0x00 = some (i, r) →
      ∃ t, exec (.seqNop core job) s = .next t ∧ { t with cores := s.cores } = s
        ∧ (∀ c, c ≠ core.val → t.core c = s.core c)
        ∧ ((t.core core.val).job job.val).pos = (s.core core.val).nextPos job.val
        ∧ ∀ k, (t.core core.val).ctr job.val k =
            if (cmdHead r).sigEn = true ∧ k = (cmdHead r).sigCtr then ((s.core core.val).ctr job.val k + 1) % 65536
            else (s.core core.val).ctr job.val k)
    ∧ (s.ready core.val job.val 0x01 = some (i, r) →
      ∃ t, exec (.quoin core job) s = .next t ∧ { t with cores := s.cores } = s
        ∧ (∀ c, c ≠ core.val → t.core c = s.core c)
        ∧ ((t.core core.val).job job.val).atQuoin = some (recBytes r 8 9)
        ∧ ∀ op, t.ready core.val job.val op = none)
    ∧ (s.ready core.val job.val 0x6B = some (i, r) →
      ∃ t, exec (.signal core job) s = .next t ∧ { t with cores := s.cores } = s
        ∧ ∀ c k, (t.core c).ctr job.val k =
            if c = bitsOf (chaseBody r).dst 33 26 ∧ k = bitsOf (chaseBody r).dst 4 0 ∧ s.imprintOf c = some i then
              ((s.core c).ctr job.val k + 1) % 65536
            else (s.core c).ctr job.val k)

/-- R299, R630: FONT_LOAD puts the image it reads into the register its body names; an image that fails R132, or one of whose bytes is
read with an uncorrectable error, leaves the register empty; no other register changes. -/
def Obligations.FontLoadFillsItsRegister : Prop :=
  ∀ (core : Fin 192) (job : Fin 8) (s : State) (i : Nat) (r : BitVec 512),
    s.ready core.val job.val 0x02 = some (i, r) →
    s.readable i (recBytes r 16 23 % 2 ^ 34) 512 = true →
    ∃ t, exec (.fontLoad core job) s = .next t
      ∧ spGet none (t.core core.val).fonts (16 * (recBytes r 8 8 % 4) + recBytes r 9 9 % 16) =
          (if (linesOf (recBytes r 16 23 % 2 ^ 34) 512).any s.lineBad then none
           else Font.ofImage (memRead s.t0.bytes (recBytes r 16 23 % 2 ^ 34) 512))
      ∧ (∀ k, k ≠ 16 * (recBytes r 8 8 % 4) + recBytes r 9 9 % 16 →
          spGet none (t.core core.val).fonts k = spGet none (s.core core.val).fonts k)
      ∧ (∀ c, c ≠ core.val → t.core c = s.core c)
      ∧ (∀ x, t.byteAt x = s.byteAt x)

/-- R102, R298, R321: the oldest command of the job that an engine serves completes; with SIG_EN it adds one to its counter, and to no
other. A tile that waits for the Overprint, which the other engine holds, does not complete. -/
def Obligations.CompletionSignalsItsCounter : Prop :=
  ∀ (core : Fin 192) (job : Fin 8) (e : Engine) (f : Flight) (s : State),
    s.stopped = false → s.issueLevel ≠ 0 → (s.core core.val).serving e (engineKey e) = some job.val →
    (s.core core.val).inflight.find? (fun f => f.engine == e && f.job == job.val) = some f →
    ((s.core core.val).overprintHeld e job.val = true → exec (.commandComplete core job e) s = .next s) ∧
    ((s.core core.val).overprintHeld e job.val = false →
    ∃ t, exec (.commandComplete core job e) s = .next t ∧ { t with cores := s.cores } = s
      ∧ (∀ c, c ≠ core.val → t.core c = s.core c)
      ∧ (t.core core.val).inflight = dropFirst (fun f => f.engine == e && f.job == job.val) (s.core core.val).inflight
      ∧ (∀ k, (t.core core.val).ctr job.val k =
          if f.sig = some k then ((s.core core.val).ctr job.val k + 1) % 65536 else (s.core core.val).ctr job.val k)
      ∧ ∀ j, j ≠ job.val → (t.core core.val).job j = (s.core core.val).job j)

/-- R322, R323: a ready job whose context is not held takes the place of the context that has issued least recently; its position
and counters come back as they were saved, and the outstanding operations of the other are parked. -/
def Obligations.JobSwitchRestoresTheReadyContext : Prop :=
  ∀ (core : Fin 192) (job : Fin 8) (s : State) (i : Nat),
    s.imprintOf core.val = some i → s.stopped = false → s.issueLevel ≠ 0 → (s.core core.val).stopped = false →
    ((s.core core.val).stream job.val).isEmpty = false → (s.core core.val).heldJob job.val = false →
    ((s.core core.val).job job.val).atQuoin = none →
    ∃ t, exec (.jobSwitch core job) s = .next t
      ∧ { t with cores := s.cores, t0 := s.t0, reports := s.reports } = s
      ∧ ((t.core core.val).job job.val).held = true
      ∧ ((t.core core.val).job job.val).pos = ((s.core core.val).job job.val).pos
      ∧ ((t.core core.val).job job.val).ctrs = ((s.core core.val).job job.val).ctrs
      ∧ (∀ o, 2 ≤ ((s.core core.val).jobs.filter fun x => x.2.held).length → (s.core core.val).oldestHeld job.val = some o →
          ((t.core core.val).job o).held = false ∧ ((t.core core.val).job o).replies.all (·.parked) = true)
      ∧ ∀ c, c ≠ core.val → t.core c = s.core c

/-- R69, R91, R92: without UP, each accumulator of a tile takes, in pass order, the FP32 sum of its start (+0 in ZERO mode, its old
value in CONTINUE mode) and the tile's pass results; no other accumulator changes. Without WRITE no byte of memory changes; with it the
accumulators times OUT_FACTOR are stored at OUT_ADDR, where no fresh block and no run-time tensor stands and the rows are no expert's
(those of an expert that met damage are zeros, R282); no other byte changes where no watch point is named. -/
def Obligations.TileAccumulatesItsPasses : Prop :=
  ∀ (roller : Bool) (core : Fin 192) (job : Fin 8) (s : State) (i : Nat) (r : BitVec 512) (w a : TensorDesc) (cl : MClass),
    s.ready core.val job.val (if roller then 0x20 else 0x10) = some (i, r) →
    (matrixBody r).up = false →
    s.desc i (matrixBody r).wDesc = some w → s.desc i (matrixBody r).aDesc = some a → pairing w.fmt a.fmt = some cl →
    let b := matrixBody r
    let h := s.handOver core.val job.val r
    let len := passElems roller w a
    let rows := (h.core core.val).tileRows roller a.fmt a.sf (b.half * halfBytes roller + b.aOff) b.m (b.passes * len)
    let wr := (h.readRows i ((h.core core.val).laneFonts (if roller then 2 else 0)) w b.wCol b.n b.wK (b.passes * len)).1
    let ws := opRows w.fmt w.sf wr.codes wr.scales
    let old := if roller then (s.core core.val).accR else (s.core core.val).accP
    let acc := fun m n =>
      (passResults (ws.1.nums.getD n []) (rows.nums.getD m []) (ws.1.scales.getD n []) (rows.scales.getD m []) w.fmt.block
        a.fmt.block (F32num w.tscale) (F32num (s.tensorScale i b.aDesc)) (groupSize cl w.fmt w.sf a.fmt a.sf) len).foldl
        addF (if b.cont then spGet 0#32 old (b.accBase + m * b.n + n) else zeroF false)
    let f := (Elem.ofCode b.outFmt).getD .fp32
    let bs := (List.range b.m).flatMap fun m =>
      packRow f (quantRow f .none ((List.range b.n).map fun n => mulF (acc m n) b.outFactor)).1
    ∃ t, exec (if roller then .rollerTile core job else .platenTile core job) s = .next t
      ∧ (let new := if roller then (t.core core.val).accR else (t.core core.val).accP
         (∀ m n, m < b.m → n < b.n → spGet 0#32 new (b.accBase + m * b.n + n) = acc m n)
         ∧ ∀ q, (q < b.accBase ∨ b.accBase + b.m * b.n ≤ q) → spGet 0#32 new q = spGet 0#32 old q)
      ∧ (b.write = false → ∀ x, t.byteAt x = s.byteAt x)
      ∧ (b.write = true → s.expertRows i core.val a = false → (Scale.ofCode b.outSf).getD .none = .none →
          s.freshBlock i b.outAddr = none → s.runtimeAt i b.outAddr = none → s.writable i b.outAddr bs.length = true →
          t.holds b.outAddr bs ∧ (s.sound = true → b.watch = 0xFF → s.sameOutside t b.outAddr bs.length))

/-- R81, R303, and log 20: A_LOAD and T_LOAD leave the rows they read, each with its block scales, at their place in the half of the
buffer, and remember which rows they are; the rest of the buffer, the other buffer and memory are as they were. -/
def Obligations.OperandLoadStagesRows : Prop :=
  ∀ (roller : Bool) (core : Fin 192) (job : Fin 8) (s : State) (i : Nat) (r : BitVec 512) (d : TensorDesc),
    s.ready core.val job.val (if roller then 0x21 else 0x11) = some (i, r) →
    s.desc i (loadBody r).desc = some d →
    ∃ t, exec (if roller then .tLoad core job else .aLoad core job) s = .next t
      ∧ (let b := loadBody r
         let h := s.handOver core.val job.val r
         let x := (h.readRows i ((h.core core.val).laneFonts (if roller then 3 else 1)) d (TensorRow d b.src) b.rows b.k0 b.kLen).1
         let bytes := stagedRows d x
         (t.core core.val).stagedBytes roller (b.half * halfBytes roller + b.off) bytes.length = bytes
         ∧ (t.core core.val).stagedBytes (!roller) = (s.core core.val).stagedBytes (!roller)
         ∧ (∀ q n, (q + n ≤ b.half * halfBytes roller + b.off ∨ b.half * halfBytes roller + b.off + bytes.length ≤ q) →
             (t.core core.val).stagedBytes roller q n = (s.core core.val).stagedBytes roller q n)
         ∧ ∃ bad, (⟨b.half + (if roller then 2 else 0), b.off, stagedStride d b.kLen, b.desc, TensorRow d b.src, b.rows, bad⟩ : Staged) ∈
              (t.core core.val).staged ∧ (s.expertRows i core.val d = false → bad = []))
      ∧ ∀ x, t.byteAt x = s.byteAt x

/-- R164, R165, R181: a tile of the Galley in TRIPLE mode writes, row by row, the state that its store then holds; in FINAL mode, where
no run-time tensor stands, the rows of o / l times OUT_FACTOR, and +0 where l is +0; in NONE mode nothing. No other byte changes. -/
def Obligations.GalleyWritesItsStateAsTriples : Prop :=
  ∀ (core : Fin 192) (job : Fin 8) (s : State) (i : Nat) (r : BitVec 512) (l : LayerCfg),
    let states := fun (t : State) (row rows : Nat) => (List.range rows).map fun k => (t.core core.val).attState l.d (row + k)
    let final := fun (fmt : Nat) (factor : F32) (xs : List AttState) =>
      xs.flatMap fun x => packRow ((Elem.ofCode fmt).getD .fp32) (quantRow ((Elem.ofCode fmt).getD .fp32) .none
        (x.final factor)).1
    (s.ready core.val job.val 0x30 = some (i, r) → s.layer i (attendBody r).layer = some l →
      let b := attendBody r
      let at_ := t0Addr core.val b.outOff
      ∃ t, exec (.attend core job) s = .next t
        ∧ (b.silent = true → ∀ x, t.byteAt x = s.byteAt x)
        ∧ (b.silent = false → b.final = false → s.writable i at_ (b.rows * (4 * (l.d + 2))) = true →
            t.holds at_ ((states t b.stateRow b.rows).flatMap AttState.triple))
        ∧ (b.silent = false → b.final = false → s.sound = true → s.sameOutside t at_ (b.rows * (4 * (l.d + 2))))
        ∧ (b.silent = false → b.final = true → (Scale.ofCode b.outSf).getD .none = .none → s.runtimeAt i at_ = none →
            let bs := final b.outFmt b.outFactor (states t b.stateRow b.rows)
            (s.writable i at_ bs.length = true → t.holds at_ bs) ∧ (s.sound = true → s.sameOutside t at_ bs.length))
        ∧ ∀ row, (row < b.stateRow ∨ b.stateRow + b.rows ≤ row) → (t.core core.val).attState l.d row = (s.core core.val).attState l.d row)
    ∧ (s.ready core.val job.val 0x31 = some (i, r) → s.layer i (mergeBody r).layer = some l →
      let b := mergeBody r
      let at_ := t0Addr core.val b.outOff
      let right := (s.handOver core.val job.val r).coreRead i (t0Addr core.val b.right) (b.rows * (4 * (l.d + 2)))
      ∃ t, exec (.merge core job) s = .next t
        ∧ (∀ k, k < b.rows → (t.core core.val).attState l.d (b.stateRow + k) =
            mergeStates ((s.core core.val).attState l.d (b.stateRow + k))
              (AttState.ofTriple ((right.1.drop (k * (4 * (l.d + 2)))).take (4 * (l.d + 2)))))
        ∧ (b.final = false → s.writable i at_ (b.rows * (4 * (l.d + 2))) = true →
            t.holds at_ ((states t b.stateRow b.rows).flatMap AttState.triple))
        ∧ (b.final = false → s.sound = true → s.sameOutside t at_ (b.rows * (4 * (l.d + 2))))
        ∧ (b.final = true → (Scale.ofCode b.outSf).getD .none = .none → s.runtimeAt i at_ = none →
            let bs := final b.outFmt b.outFactor (states t b.stateRow b.rows)
            (s.writable i at_ bs.length = true → t.holds at_ bs) ∧ (s.sound = true → s.sameOutside t at_ bs.length))
        ∧ ∀ row, (row < b.stateRow ∨ b.stateRow + b.rows ≤ row) → (t.core core.val).attState l.d row = (s.core core.val).attState l.d row)

/-- R74, R75, R139, R307, R353, R354: what the Setter writes. An ELEMENT or REDUCE whose DST no fresh block and no run-time tensor
holds writes its result codes there; SAMPLE adds one decision to its slot's, and writes an unused slot's record as no node; FONT_STATS
leaves the count tables it read at zero and their sums at DST. -/
def Obligations.SetterResults : Prop :=
  ∀ (core : Fin 192) (job : Fin 8) (s : State) (i : Nat) (r : BitVec 512),
    let b := vectorBody r
    let h := s.handOver core.val job.val r
    let f := (Elem.ofCode b.outFmt).getD .fp32
    (s.ready core.val job.val 0x40 = some (i, r) → b.subop ≠ 8 →
      s.freshBlock i b.dst = none → s.runtimeAt i b.dst = none →
      let x := h.readVals i b.inFmt b.srcA b.n
      let y := if b.subop ≤ 4 then x.2.readVals i b.inFmt b.srcB b.n else ([], x.2)
      let z := if b.subop = 2 then y.2.readVals i b.outFmt b.dst b.n else ([], y.2)
      let out := x.1.zipIdx.map fun p => elementOp b.subop b.imm p.1 (y.1.getD p.2 0#32) (z.1.getD p.2 0#32)
      let bs := packRow f (quantRow f .none out).1
      s.writable i b.dst bs.length = true → ∃ t, exec (.element core job) s = .next t ∧ t.holds b.dst bs
        ∧ (s.sound = true → s.sameOutside t b.dst bs.length))
    ∧ (s.ready core.val job.val 0x41 = some (i, r) →
      s.freshBlock i b.dst = none → s.runtimeAt i b.dst = none →
      let x := (h.readVals i b.inFmt b.srcA b.n).1
      let v := if b.subop = 0 then lanesTree treeF x else if b.subop = 1 then lanesTree (fun xs => treeMaxAux xs.length xs) x
        else lanesTree treeF (x.map fun v => mulF v v)
      let bs := packRow f (quantRow f .none [v]).1
      s.writable i b.dst bs.length = true → ∃ t, exec (.reduce core job) s = .next t ∧ t.holds b.dst bs
        ∧ (s.sound = true → s.sameOutside t b.dst bs.length))
    ∧ (s.ready core.val job.val 0x42 = some (i, r) →
      (slotAt (s.imp i).run.manifest b.aux = none → s.writable i b.dst 8 = true →
        ∃ t, exec (.sample core job) s = .next t ∧ t.holds b.dst (leBytes 8 (0x7F * 2 ^ 32))
          ∧ (s.sound = true → s.sameOutside t b.dst 8))
      ∧ (∀ e, slotAt (s.imp i).run.manifest b.aux = some e →
        ∃ t d, exec (.sample core job) s = .next t
          ∧ spGet [] (t.imp i).run.decisions b.aux = spGet [] (s.imp i).run.decisions b.aux ++ [d]
          ∧ (s.writable i b.dst 8 = true → t.holds b.dst (leBytes 8 (d.token + (d.child.getD 0x7F) * 2 ^ 32)))
          ∧ (s.sound = true → s.sameOutside t b.dst 8)))
    ∧ (∀ fs, s.ready core.val job.val 0x43 = some (i, r) →
      ((s.cfg i).bind fun g => g.formats.streams[b.aux]?) = some fs →
      ∃ t, exec (.fontStats core job) s = .next t
        ∧ ∀ x ∈ fs.tables, s.writable i x.2 (8 * fs.kind.alphabet) = true →
          (b.dst + 8 * fs.kind.alphabet ≤ x.2 ∨ x.2 + 8 * fs.kind.alphabet ≤ b.dst) → s.sound = true →
          ∀ k, k < 8 * fs.kind.alphabet → t.byteAt (x.2 + k) = 0#8)
    ∧ (∀ fs, s.ready core.val job.val 0x43 = some (i, r) → s.sound = true →
      ((s.cfg i).bind fun g => g.formats.streams[b.aux]?) = some fs →
      let n := 8 * fs.kind.alphabet
      ∃ t, exec (.fontStats core job) s = .next t
        ∧ ((∀ x ∈ fs.tables, s.readable i x.2 n = true) → (fs.tables.Pairwise fun x y => x.2 + n ≤ y.2 ∨ y.2 + n ≤ x.2) →
          s.writable i b.dst n = true → ∀ k, k < fs.kind.alphabet → ofLeBytes (memRead t.t0.bytes (b.dst + 8 * k) 8) =
            (fs.tables.map fun x => ofLeBytes (memRead s.t0.bytes (x.2 + 8 * k) 8)).sum % 2 ^ 64)
        ∧ ∀ y, (y < b.dst ∨ b.dst + n ≤ y) → (∀ x ∈ fs.tables, y < x.2 ∨ x.2 + n ≤ y) → t.byteAt y = s.byteAt y)

/-- R287: SORT writes all its keys with their indices, ascending for integer keys with equal keys in index order; TOPK writes K pairs,
the first ones in its order; SCAN of integers writes the running sums; GATHER and SCATTER move each element by its index. -/
def Obligations.ImposerOrdersAndGathers : Prop :=
  ∀ (core : Fin 192) (job : Fin 8) (s : State) (i : Nat) (r : BitVec 512), s.sound = true →
    let b := vectorBody r
    let keys := (u32s (memRead s.t0.bytes b.srcA (4 * b.n))).zipIdx.map fun p => (p.2, p.1)
    let idx := u32s (memRead s.t0.bytes b.srcB (4 * b.n))
    let w := gatherBytes b.inFmt
    (s.ready core.val job.val 0x54 = some (i, r) → s.readable i b.srcA (4 * b.n) = true →
      s.writable i b.dst (8 * b.n) = true →
      ∃ t out, exec (.sort core job) s = .next t ∧ t.holds b.dst (pairBytes out) ∧ s.sameOutside t b.dst (8 * b.n) ∧ out.Perm keys
        ∧ (b.key = 0 → out.Pairwise fun p q => p.2 < q.2 ∨ (p.2 = q.2 ∧ p.1 < q.1))
        ∧ (b.key = 1 → out.Pairwise fun p q =>
            signedOf 32 p.2 < signedOf 32 q.2 ∨ (signedOf 32 p.2 = signedOf 32 q.2 ∧ p.1 < q.1)))
    ∧ (s.ready core.val job.val 0x55 = some (i, r) → s.readable i b.srcA (4 * b.n) = true →
      s.writable i b.dst (8 * b.k) = true →
      ∃ t top, exec (.topk core job) s = .next t ∧ top.length = min b.k b.n ∧ top.IsPrefix (sortBy (fun p q => keyGt b.key p.2 q.2) keys)
        ∧ t.holds b.dst (pairBytes (top ++ List.replicate (b.k - b.n) (0xFFFFFFFF, 0))) ∧ s.sameOutside t b.dst (8 * b.k))
    ∧ (s.ready core.val job.val 0x58 = some (i, r) → b.key ≠ 2 → s.readable i b.srcA (4 * b.n) = true →
      s.writable i b.dst (4 * b.n) = true →
      ∃ t, exec (.scan core job) s = .next t ∧ s.sameOutside t b.dst (4 * b.n)
        ∧ ∀ k, k < b.n → ofLeBytes (memRead t.t0.bytes (b.dst + 4 * k) 4) =
            ((u32s (memRead s.t0.bytes b.srcA (4 * b.n))).take (k + 1)).sum % 2 ^ 32)
    ∧ (s.ready core.val job.val 0x56 = some (i, r) → s.readable i b.srcB (4 * b.n) = true →
      s.writable i b.dst (w * b.n) = true →
      (∀ k ∈ idx, k < b.k ∧ s.readable i (b.srcA + w * k) w = true) →
      ∃ t, exec (.imposerGather core job) s = .next t
        ∧ t.holds b.dst (idx.flatMap fun k => memRead s.t0.bytes (b.srcA + w * k) w) ∧ s.sameOutside t b.dst (w * b.n))
    ∧ (s.ready core.val job.val 0x57 = some (i, r) → s.readable i b.srcB (4 * b.n) = true →
      s.readable i b.srcA (w * b.n) = true → idx.Nodup →
      ∃ t, exec (.imposerScatter core job) s = .next t
        ∧ (∀ k, k < b.n → idx.getD k 0 < b.k → s.writable i (b.dst + w * idx.getD k 0) w = true →
          t.holds (b.dst + w * idx.getD k 0) (memRead s.t0.bytes (b.srcA + w * k) w))
        ∧ ∀ x, (∀ k ∈ idx, x < b.dst + w * k ∨ b.dst + w * k + w ≤ x) → t.byteAt x = s.byteAt x)

/-- R74, R139, R264, R266, R267, R287: the sums of SEGREDUCE's integer segments; the counts of finite affinities that ROUTE_LOCAL
keeps and the headers of its CANDIDATES blocks; the PICKS headers of ROUTE_MERGE, whose counts are at most the capacity; zeros for
every token that COLLATE finds without a pick; the font that FONT_BUILD puts into the stream's inactive slot. -/
def Obligations.ImposerRoutesAndBuilds : Prop :=
  ∀ (core : Fin 192) (job : Fin 8) (s : State) (i : Nat) (r : BitVec 512), s.sound = true →
    let b := vectorBody r
    (s.ready core.val job.val 0x59 = some (i, r) → b.key ≠ 2 → s.readable i b.srcA (4 * b.n) = true →
      s.readable i b.srcB (4 * b.k) = true → s.writable i b.dst (4 * b.k) = true →
      let xs := u32s (memRead s.t0.bytes b.srcA (4 * b.n))
      let starts := u32s (memRead s.t0.bytes b.srcB (4 * b.k))
      ∃ t, exec (.segreduce core job) s = .next t ∧ s.sameOutside t b.dst (4 * b.k)
        ∧ ∀ k, k < b.k → ofLeBytes (memRead t.t0.bytes (b.dst + 4 * k) 4) =
            ((xs.drop (starts.getD k b.n)).take (starts.getD (k + 1) b.n - starts.getD k b.n)).sum % 2 ^ 32)
    ∧ (∀ l, s.ready core.val job.val 0x50 = some (i, r) → s.expertLayer i b.aux = some l →
      s.readable i b.srcA (4 * b.n * b.k) = true →
      let a := f32s (memRead s.t0.bytes b.srcA (4 * b.n * b.k))
      let finite := fun e => ((List.range (min b.n (s.imp i).run.routed)).filter fun k => isFin (a.getD (k * b.k + e) nanF)).length
      let c := capacity b.cap l.f (if l.group then (s.imp i).run.nDom else (s.imp i).run.routed) l.experts.length
      let home := fun e => ((l.experts[e]?).bind fun p => p.replicas.head?).map (·.1) |>.getD s.fab.endpoint
      ∃ t, exec (.routeLocal core job) s = .next t
        ∧ (∀ e, e < b.k → spGet 0 (t.imp i).run.cands (b.aux * 4096 + e) = finite e)
        ∧ ((∀ x, b.dst ≤ x → x < b.dst + b.k * candStride b.cap → s.mayWrite i x = true) → ∀ e, e < b.k →
            t.holds (b.dst + e * candStride b.cap) (s.blockHead i 0x11 b.aux e 0xFF (min c (finite e)) (home e)).bytes)
        ∧ s.sameOutside t b.dst (b.k * candStride b.cap))
    ∧ (∀ l, s.ready core.val job.val 0x51 = some (i, r) → s.expertLayer i (b.aux % 65536) = some l →
      s.readable i b.srcA (b.k * candStride b.cap) = true →
      (∀ x, b.dst ≤ x → x < b.dst + b.k * picksStride b.cap → s.mayWrite i x = true) →
      ∃ t, ∃ ns : List Nat, exec (.routeMerge core job) s = .next t ∧ ns.length = b.k
        ∧ (∀ n ∈ ns, n ≤ capacity b.cap l.f (if l.group then (s.imp i).run.nDom else (s.imp i).run.routed) l.experts.length)
        ∧ (∀ k, k < b.k →
          t.holds (b.dst + k * picksStride b.cap)
            (s.blockHead i 0x12 (b.aux % 65536) (b.aux / 65536) 0xFF (ns.getD k 0)
              (BlockHead.ofBytes (memRead s.t0.bytes (b.srcA + k * candStride b.cap) 64)).source).bytes)
          ∧ s.sameOutside t b.dst (b.k * picksStride b.cap))
    ∧ (∀ l, s.ready core.val job.val 0x52 = some (i, r) → s.readable i b.srcA 64 = true →
      s.expertLayer i (BlockHead.ofBytes (memRead s.t0.bytes b.srcA 64)).layer = some l →
      ∃ t, exec (.impose core job) s = .next t
        ∧ (∀ y, y ≠ (BlockHead.ofBytes (memRead s.t0.bytes b.srcA 64)).layer →
            spGet [] (t.core core.val).picks y = spGet [] (s.core core.val).picks y)
        ∧ ∃ ps, spGet [] (t.core core.val).picks (BlockHead.ofBytes (memRead s.t0.bytes b.srcA 64)).layer =
            spGet [] (s.core core.val).picks (BlockHead.ofBytes (memRead s.t0.bytes b.srcA 64)).layer ++ ps
          ∧ ∀ p ∈ ps, p.li < (s.imp i).run.routed ∧ p.replica < (((l.experts[p.expert]?).map (·.replicas)).getD []).length)
    ∧ (∀ l, s.ready core.val job.val 0x53 = some (i, r) → s.readable i b.srcA 64 = true →
      s.expertLayer i (BlockHead.ofBytes (memRead s.t0.bytes b.srcA 64)).layer = some l →
      spGet [] (s.core core.val).picks (BlockHead.ofBytes (memRead s.t0.bytes b.srcA 64)).layer = [] →
      s.freshBlock i b.dst = none → s.runtimeAt i b.dst = none → l.outScale = .none →
      let bs := (List.range b.n).flatMap fun _ => packRow l.outFmt (quantRow l.outFmt .none (List.replicate b.aux (zeroF false))).1
      s.writable i b.dst bs.length = true →
      ∃ t, exec (.collate core job) s = .next t ∧ t.holds b.dst bs ∧ s.sameOutside t b.dst bs.length)
    ∧ (∀ fs, s.ready core.val job.val 0x5A = some (i, r) →
      ((s.cfg i).bind fun g => g.formats.streams[b.aux]?) = some fs →
      s.readable i b.srcA (8 * fs.kind.alphabet) = true →
      let font : Font := ⟨0x1000 + 2 * b.aux + (if spGet 2 (s.imp i).run.fontActive b.aux = 0 then 1 else 0), fs.kind,
        fontLens fs.kind ((chunks 8 (memRead s.t0.bytes b.srcA (8 * fs.kind.alphabet))).map ofLeBytes)⟩
      ∃ t, exec (.fontBuild core job) s = .next t
        ∧ spGet none (t.imp i).run.fontSlots
            (2 * b.aux + (if spGet 2 (s.imp i).run.fontActive b.aux = 0 then 1 else 0)) = some font
        ∧ spGet false (t.imp i).run.fontBuilt b.aux = true
        ∧ (s.writable i b.dst font.image.length = true → t.holds b.dst font.image) ∧ s.sameOutside t b.dst font.image.length)

/-- R235, R237, R276, R282, R309: what Chase moves within the package, outside bays. Each destination holds the bytes that its source
held, where no source row lies in a DISPATCH block whose list fails its check (such rows are zeros, R281), and T0 is otherwise as it was.
COPY writes the status list of a RETURN block of this package as it goes (log 30). A T1 range read back after T1_WRITE is what was
written. -/
def Obligations.ChaseMovesBytes : Prop :=
  ∀ (core : Fin 192) (job : Fin 8) (s : State) (i : Nat) (r : BitVec 512), s.sound = true → (s.imp i).run.badRows = [] →
    let b := chaseBody r
    let idx := (chunks 2 (memRead s.t0.bytes (t0Addr core.val b.index) (2 * b.count))).map ofLeBytes
    let clean := fun (u : State) (a : Nat) => ∀ l ∈ linesOf a b.bytes, u.badDispatch i (max a (256 * l)) = false
    (s.ready core.val job.val 0x60 = some (i, r) → s.bayAt i b.dst = none → s.readable i b.src b.bytes = true →
      s.writable i b.dst b.bytes = true → clean s b.src →
      ∃ t, exec (.chaseCopy core job) s = .next t ∧ t.holds b.dst (s.stampReturn i b.src (memRead s.t0.bytes b.src b.bytes))
        ∧ s.sameOutside t b.dst b.bytes)
    ∧ (s.ready core.val job.val 0x61 = some (i, r) → s.readable i (t0Addr core.val b.index) (2 * b.count) = true →
      (∀ k, k < b.count → s.bayAt i (b.dst + k * b.bytes) = none ∧ s.writable i (b.dst + k * b.bytes) b.bytes = true
        ∧ s.readable i (b.src + idx.getD k 0 * b.bytes) b.bytes = true
        ∧ (∀ u : State, u.imp i = s.imp i → s.sameOutside u b.dst (b.count * b.bytes) → clean u (b.src + idx.getD k 0 * b.bytes))
        ∧ (b.src + idx.getD k 0 * b.bytes + b.bytes ≤ b.dst ∨ b.dst + b.count * b.bytes ≤ b.src + idx.getD k 0 * b.bytes)) →
      ∃ t, exec (.chaseGather core job) s = .next t
        ∧ (∀ k, k < b.count → t.holds (b.dst + k * b.bytes) (memRead s.t0.bytes (b.src + idx.getD k 0 * b.bytes) b.bytes))
        ∧ s.sameOutside t b.dst (b.count * b.bytes))
    ∧ (s.ready core.val job.val 0x62 = some (i, r) → s.readable i (t0Addr core.val b.index) (2 * b.count) = true → idx.Nodup →
      (∀ k, k < b.count → s.bayAt i (b.dst + idx.getD k 0 * b.bytes) = none
        ∧ s.writable i (b.dst + idx.getD k 0 * b.bytes) b.bytes = true ∧ s.readable i (b.src + k * b.bytes) b.bytes = true
        ∧ (∀ u : State, u.imp i = s.imp i → (∀ x, (∀ m ∈ idx, x < b.dst + m * b.bytes ∨ b.dst + m * b.bytes + b.bytes ≤ x) →
            u.byteAt x = s.byteAt x) → clean u (b.src + k * b.bytes))
        ∧ (b.dst + idx.getD k 0 * b.bytes + b.bytes ≤ b.src ∨ b.src + b.count * b.bytes ≤ b.dst + idx.getD k 0 * b.bytes)) →
      ∃ t, exec (.chaseScatter core job) s = .next t
        ∧ (∀ k, k < b.count → t.holds (b.dst + idx.getD k 0 * b.bytes) (memRead s.t0.bytes (b.src + k * b.bytes) b.bytes))
        ∧ ∀ x, (∀ k ∈ idx, x < b.dst + k * b.bytes ∨ b.dst + k * b.bytes + b.bytes ≤ x) → t.byteAt x = s.byteAt x)
    ∧ (s.ready core.val job.val 0x63 = some (i, r) → s.readable i (t0Addr core.val b.index) (2 * b.count) = true →
      s.readable i b.src b.bytes = true → t0Off b.dst + b.bytes ≤ 2 ^ 26 →
      ∃ t, exec (.bcast core job) s = .next t
        ∧ (∀ c ∈ idx, s.writable i (t0Addr c (t0Off b.dst)) b.bytes = true →
          t.holds (t0Addr c (t0Off b.dst)) (memRead s.t0.bytes b.src b.bytes))
        ∧ ∀ x, (∀ c ∈ idx, x < t0Addr c (t0Off b.dst) ∨ t0Addr c (t0Off b.dst) + b.bytes ≤ x) → t.byteAt x = s.byteAt x)
    ∧ (s.ready core.val job.val 0x64 = some (i, r) → s.bayAt i b.dst = none → s.writable i b.dst b.bytes = true →
      (s.channelSet i).isEmpty = false → s.t1Inside i b.src b.bytes = true →
      ∃ t, exec (.t1Read core job) s = .next t ∧ t.holds b.dst (s.t1Bytes i b.src b.bytes) ∧ s.sameOutside t b.dst b.bytes)
    ∧ (s.ready core.val job.val 0x65 = some (i, r) → s.readable i b.src b.bytes = true → (s.channelSet i).Nodup →
      (s.channelSet i).isEmpty = false → s.t1Inside i b.dst b.bytes = true → (∀ c, (s.ch c).bad = []) →
      ∃ t, exec (.t1Write core job) s = .next t ∧ t.t1Bytes i b.dst b.bytes = memRead s.t0.bytes b.src b.bytes
        ∧ ∀ x, t.byteAt x = s.byteAt x)

/-- R420, R428, R429, R430, R432: with an idle stream and a route, a Chase command to another package numbers its pieces from the
stream's next number and leaves each outstanding, with the operation it names. A WINDOW runs the transfers of its class in order while
its capacity lasts: none when the first is too large; a spill from T0 puts its CHECK into the folio (R216). Sending changes no byte of T0 and nothing of another imprint. -/
def Obligations.FabricCommandsNumberTheirRequests : Prop :=
  ∀ (core : Fin 192) (job : Fin 8) (s : State) (i : Nat) (r : BitVec 512),
    let b := chaseBody r
    let x := s.stream i b.endpoint
    let idle := s.causes = [] ∧ s.fab.loop = [] ∧ b.endpoint ≠ s.fab.endpoint ∧ (∀ flow, (s.firstHop i b.endpoint flow).isSome = true)
      ∧ x.dead = false ∧ x.holdoff = false ∧ x.waiting = [] ∧ x.outstanding = []
    let sent := fun (t : State) (op n : Nat) =>
      (t.stream i b.endpoint).next = x.next + BitVec.ofNat 32 n ∧ (t.stream i b.endpoint).outstanding.length = n
        ∧ (∀ y, t.byteAt y = s.byteAt y) ∧ (∀ j, j ≠ i → t.imp j = s.imp j)
        ∧ ∀ k, k < n → ∃ o, (t.stream i b.endpoint).outstanding[k]? = some o ∧ o.req.op = op ∧ o.req.eseq = x.next + BitVec.ofNat 32 k
          ∧ o.req.sgen = x.sgen ∧ o.req.epoch = BitVec.ofNat 32 (s.epoch i) ∧ o.sends = 1
    (s.ready core.val job.val 0x66 = some (i, r) → idle → (cut256 (b.bytes + 1) b.dst (List.replicate b.bytes 0#8)).length ≤ 4096 →
      ∃ t, exec (.fabStore core job) s = .next t
        ∧ sent t 0x02 (cut256 (b.bytes + 1) b.dst (List.replicate b.bytes 0#8)).length)
    ∧ (s.ready core.val job.val 0x67 = some (i, r) → idle → (cut256 (b.bytes + 1) b.src (List.replicate b.bytes 0#8)).length ≤ 4096 →
      ∃ t, exec (.fabLoad core job) s = .next t
        ∧ sent t 0x01 (cut256 (b.bytes + 1) b.src (List.replicate b.bytes 0#8)).length
        ∧ ((t.core core.val).job job.val).replies.length = ((s.core core.val).job job.val).replies.length
            + (cut256 (b.bytes + 1) b.src (List.replicate b.bytes 0#8)).length)
    ∧ (s.ready core.val job.val 0x68 = some (i, r) → idle →
      ∃ t, exec (.fabAtomic core job) s = .next t ∧ sent t b.op 1)
    ∧ (s.ready core.val job.val 0x69 = some (i, r) → idle →
      ∃ t, exec (.fabFlag core job) s = .next t ∧ sent t 0x03 1
        ∧ ∀ o, (t.stream i b.endpoint).outstanding[0]? = some o → o.req.operand = BitVec.ofNat 64 (s.jobNumber i job.val))
    ∧ (s.ready core.val job.val 0x6A = some (i, r) → s.causes = [] → s.fab.loop = [] →
      (∀ f m n rest, s.windowList i b.wclass = (f, m, n) :: rest → b.planFirst < n →
        ∃ t, exec (.window core job) s = .next t ∧ { t with cores := s.cores } = s)
      ∧ (∀ f m l, s.windowList i b.wclass = [(f, m, spillBytes l)] → s.layer i f.2.layer = some l → spillBytes l ≤ b.planFirst →
        m.spill = true → m.t2 = false → spGet none (s.imp i).serve.folios f.1 = some f.2 →
        ∃ t g, exec (.window core job) s = .next t ∧ spGet none (t.imp i).serve.folios f.1 = some g
          ∧ g.move = some { m with done := true } ∧ { g with move := f.2.move, check := f.2.check, font := f.2.font } = f.2
          ∧ (f.2.tier = 0 → s.sound = true →
              g.check = some (crc32c (memRead s.t0.bytes (f.2.addr + 256) (folioBytes l.kv l.d - 256))))))

/-- R395, R399, R415: the steps of a port between its states; every other port stays as it is, and beyond the ports only interrupts and
what is sent change. -/
def Obligations.PortStatesFollowTheirTable : Prop :=
  ∀ (port : Fin 20) (s : State),
    let p := port.val
    let x := s.port p
    let goes := fun (t : State) (st : PortState) => (t.port p).state = st ∧ (∀ q, q ≠ p → t.port q = s.port q)
      ∧ { t with ports := s.ports, fns := s.fns, icu := s.icu, out := s.out } = s
    (s.live = true →
      (x.state = .detect → ∃ t, exec (.signalDetect port) s = .next t ∧ goes t .train)
      ∧ (x.state = .train → (∃ t, exec (.trainDone port) s = .next t ∧ goes t .lock)
          ∧ ∃ t, exec (.trainTimeout port) s = .next t ∧ goes t .detect)
      ∧ (x.state = .lock → x.loopback = false →
          (∃ t, exec (.lockAchieved port) s = .next t ∧ goes t .hello ∧ (t.port p).helloSent = true)
          ∧ ∃ t, exec (.lockTimeout port) s = .next t ∧ goes t .detect)
      ∧ (x.state = .hello → s.fab.valid = true → ∃ t, exec (.helloTimeout port) s = .next t ∧ goes t .detect)
      ∧ (x.state = .retrain → x.substate = 0 →
          ∃ t, exec (.trainDone port) s = .next t ∧ goes t .retrain ∧ (t.port p).substate = 1)
      ∧ (x.state = .retrain → ∃ t, exec (.retrainTimeout port) s = .next t ∧ goes t .detect ∧ (t.port p).unacked = [])
      ∧ (x.state = .up →
          (∃ t, exec (.alignmentLoss port) s = .next t ∧ goes t .retrain ∧ (t.port p).unacked = x.unacked
            ∧ (t.port p).expect = x.expect)
          ∧ (∃ t, exec (.uncorrectableCodewordRun port) s = .next t ∧ goes t .retrain ∧ (t.port p).unacked = x.unacked)
          ∧ (8 ≤ x.replays → ∃ t, exec (.replayLimit port) s = .next t ∧ goes t .retrain ∧ (t.port p).unacked = x.unacked))
      ∧ (x.state = .held → ∃ t, exec (.alignmentLoss port) s = .next t ∧ goes t .detect ∧ (t.port p).reason = 6)
      ∧ (s.answers = true → x.state = .up ∨ x.state = .held →
          ∃ t, exec (.portRetrain port) s = .next t ∧ goes t .retrain ∧ (t.port p).unacked = x.unacked))
    ∧ (s.answers = true → s.stopped = false →
      (x.en = true → ∃ t, exec (.portEnable port false) s = .next t ∧ goes t .off ∧ (t.port p).reason = 7 ∧ (t.port p).en = false)
      ∧ (x.en = false → ∃ t, exec (.portEnable port true) s = .next t ∧ goes t .detect ∧ (t.port p).en = true)
      ∧ (∀ on, x.loopback = !on → x.state ≠ .off →
          ∃ t, exec (.portLoopback port on) s = .next t ∧ goes t .detect ∧ (t.port p).loopback = on))

/-- R392, R394, R395, R396, R397: a port in UP replays what is unacknowledged, in order; a LINK packet acknowledges up to its number
and adds its credits; the timer's LINK packet names the last number received in order and returns the space freed; a NAK is sent once
until the expected number arrives. -/
def Obligations.LinkLayerAcknowledgesAndReplays : Prop :=
  ∀ (port : Fin 20) (s : State),
    let p := port.val
    let x := s.port p
    let link := fun (nak : Bool) =>
      Emission.packet p ⟨bareHead 1 2 0, .link ⟨(x.expect + 4095) % 4096, nak, x.freed⟩⟩
    s.live = true → x.loopback = false → x.state = .up →
      (x.unacked ≠ [] → ∃ t, exec (.replayTimeout port) s = .next t ∧ t.out = s.out ++ x.unacked.map (.packet p)
        ∧ (t.port p).replays = x.replays + 1 ∧ (t.port p).unacked = x.unacked)
      ∧ (x.changed = true → ∃ t, exec (.linkPacketTimer port) s = .next t ∧ t.out = s.out ++ [link false]
        ∧ (t.port p).freed = [0, 0, 0, 0, 0] ∧ (t.port p).changed = false)
      ∧ (∀ l, x.nakSent = false → (l = none ∨ ∃ n : BitVec 12, l = some n ∧ (n.toNat + 4096 - x.expect) % 4096 ≠ 0
            ∧ (n.toNat + 4096 - x.expect) % 4096 < 2048) →
        ∃ t, exec (.nakSend port l) s = .next t ∧ t.out = s.out ++ [link true] ∧ (t.port p).nakSent = true)
      ∧ (∀ n : BitVec 12, x.nakSent = true → exec (.nakSend port (some n)) s = .next s)
      ∧ (∀ l, s.causes = [] → s.fab.loop = [] → x.ready = [] → x.toReplay = [] → x.helloDue = false →
        ∃ t, exec (.linkPacketReceive port l) s = .next t ∧ (t.port p).unacked = ackTo l.ack x.unacked
          ∧ (t.port p).credit = (x.credit.zip l.credits).map (fun c => c.1 + c.2)
          ∧ t.out = s.out ++ (if l.nak then (ackTo l.ack x.unacked).map (.packet p) else []))

/-- R401, R402, R403: once a port in HELLO has sent a HELLO and the location is valid, the neighbour's HELLO decides between UP and HELD
by the plan; an UP or HELD port is decided again by a further HELLO. The HELLO timer sends a HELLO while one is still due. Setting
VALID puts the location in force. -/
def Obligations.HelloDecidesUpOrHeld : Prop :=
  ∀ (port : Fin 20) (h : Hello) (s : State),
    let p := port.val
    let x := s.port p
    s.live = true → s.causes = [] → s.fab.loop = [] →
      (x.loopback = false → (x.state = .hello ∧ x.helloSent = true ∧ s.fab.valid = true ∧ x.before = none) ∨ x.state = .up ∨ x.state = .held →
        ∃ t, exec (.helloReceive port h) s = .next t ∧ (t.port p).state = (s.outcome p h).1
          ∧ ((s.outcome p h).1 = .held → (t.port p).reason = (s.outcome p h).2.1)
          ∧ (t.port p).peer = h.node ∧ (t.port p).peerPort = h.port ∧ (t.port p).lastHello = some h)
      ∧ (x.loopback = false → x.state = .hello → x.helloGot = false → x.toReplay = [] → 2 ≤ x.credit.getD 4 0 →
        ∃ t, exec (.helloTimer port) s = .next t ∧ (t.port p).helloSent = true
          ∧ t.out = s.out ++ [.packet p ⟨bareHead 2 2 s.fab.endpoint, .hello (s.helloOf p)⟩])
      ∧ (∀ a : RegPath, s.answers = true → s.fab.valid = false → a = .pf ∨ a = .i3c →
        ∃ t, exec (.fabLocationValid a) s = .next t ∧ t.fab.valid = true ∧ t.fab.endpoint = s.fab.endpoint)

/-- R417, R419, R424, R431, R440: a request that the rules let through takes effect at its target and is recorded as done: a STORE to T0
outside bays puts its bytes there, the first atomic of a stream the word that its kind computes; one already done changes nothing; a T1
operation is done once its channel's slot has served it. -/
def Obligations.RequestsTakeEffectOnce : Prop :=
  ∀ (port : Fin 20) (p : Packet) (r : Request) (s : State),
    let i := remImp r.addr
    let done := fun (t : State) (st : Nat) (v : BitVec 64) => ∃ b ∈ t.fab.tables, b.source = p.head.source ∧ b.imprint = p.head.imprint
      ∧ ∃ e ∈ b.entries, e.eseq = r.eseq ∧ e.state = .done st v
    (p.body = .request r → p.head.dest = s.fab.endpoint → p.head.source ≠ s.fab.endpoint → s.causes = [] → s.fab.loop = [] →
      s.live = true → (s.port port.val).loopback = false → (s.port port.val).state = .up →
      p.head.lseq = (s.port port.val).expect → (s.port port.val).expect < 4096 → s.sound = true →
      (s.table p.head.source p.head.imprint = none → s.fab.tables.length < 512 → s.refusal p.head.source p.head.imprint r = none →
        remSpace r.addr = 1 →
        (r.op = 0x02 → s.bayAt i (remOff r.addr) = none →
          ∃ t, exec (.fabRequestArrival port p) s = .next t ∧ t.holds (remOff r.addr) r.data ∧ done t 0 0
            ∧ s.sameOutside t (remOff r.addr) r.data.length ∧ (t.port port.val).expect = ((s.port port.val).expect + 1) % 4096)
        ∧ (isAtomic r.op = true → r.eseq = 0 → s.isShared i p.head.source p.head.imprint r = false →
          let old := ofLeBytes (memRead s.t0.bytes (remOff r.addr) r.length)
          ∃ t, exec (.fabRequestArrival port p) s = .next t
            ∧ t.holds (remOff r.addr) (leBytes r.length (atomicNew r.op (8 * r.length) old r.operand.toNat r.compare.toNat))
            ∧ done t 0 (BitVec.ofNat 64 old) ∧ s.sameOutside t (remOff r.addr) r.length))
      ∧ (∀ b e st v, s.table p.head.source p.head.imprint = some b → b.sgen = r.sgen →
          b.entries.find? (fun x => x.eseq == r.eseq) = some e → e.state = .done st v →
          ∃ t, exec (.fabRequestArrival port p) s = .next t ∧ (∀ a, t.byteAt a = s.byteAt a) ∧ ∀ c, (t.ch c).data = (s.ch c).data))
    ∧ (∀ (ch : Fin 384) (o : T1Op) (e : Entry), spGet [] s.fab.t1q ch.val = [o] → s.t1Entry o = some (e, r) →
      e.p.head.source = o.source → e.p.head.imprint = o.imprint → s.live = true → s.issueLevel ≠ 0 → s.causes = [] → s.fab.loop = [] →
      o.source ≠ s.fab.endpoint → (∀ b, s.table o.source o.imprint = some b → ∀ x ∈ b.entries, x.state ≠ .held) →
      ∃ t, exec (.t1FabricSlot ch) s = .next t
        ∧ ∀ b, t.table o.source o.imprint = some b → ∀ x ∈ b.entries, x.eseq = o.eseq → x.state.isDone = true)

/-- R431, R432, R433: a response takes its operation off the stream and is counted by its status; a retry sends the operation again; past
the retry limit the stream is dead and holds nothing; after its holdoff a stream sends again. -/
def Obligations.SourceStreamsRetryAndEnd : Prop :=
  ∀ (i : Fin 16) (target : Nat) (eseq : BitVec 32) (o : Outst) (s : State),
    let x := s.stream i.val target
    s.live = true → s.causes = [] → s.fab.loop = [] → target ≠ s.fab.endpoint →
      (∀ (port : Fin 20) (p : Packet) (r : Response), p.body = .response r → p.head.dest = s.fab.endpoint → p.head.source = target →
        p.head.imprint = i.val → (s.port port.val).loopback = false → (s.port port.val).state = .up →
        p.head.lseq = (s.port port.val).expect → (s.port port.val).expect < 4096 →
        x.outstanding.find? (fun o => o.req.eseq == r.eseq && o.req.sgen == r.sgen) = some o → x.waiting = [] →
        ∃ t, exec (.fabResponseArrival port p) s = .next t
          ∧ (t.stream i.val target).outstanding.map (·.req) = (x.outstanding.filter fun q => q.req.eseq != r.eseq).map (·.req)
          ∧ (o.morgue = none → (t.stream i.val target).outstanding = x.outstanding.filter fun q => q.req.eseq != r.eseq)
          ∧ ctrGet (t.imp i.val).run.counters (.fabResponses r.status) =
              (ctrGet (s.imp i.val).run.counters (.fabResponses r.status) + 1) % 2 ^ 32)
      ∧ (x.outstanding.find? (fun o => o.req.eseq == eseq) = some o →
        (o.sends ≤ s.retryLimit i.val → (∀ flow, (s.firstHop i.val target flow).isSome = true) →
          ∃ t, exec (.fabRetryTimeout i target eseq) s = .next t
            ∧ (t.stream i.val target).outstanding = x.outstanding.map (fun q => if q.req.eseq = eseq then { q with sends := q.sends + 1 } else q)
            ∧ ctrGet (t.imp i.val).run.counters .fabResent = (ctrGet (s.imp i.val).run.counters .fabResent + 1) % 2 ^ 32)
        ∧ (s.retryLimit i.val < o.sends →
          ∃ t, exec (.operationLost i target eseq) s = .next t ∧ (t.stream i.val target).dead = true
            ∧ (t.stream i.val target).outstanding = [] ∧ (t.stream i.val target).waiting = []))
      ∧ (x.holdoff = true → x.dead = false → (∀ flow, (s.firstHop i.val target flow).isSome = true) →
        ∃ t, exec (.generationHoldoffEnd i target) s = .next t ∧ (t.stream i.val target).holdoff = false)

/-- R391, R411, R413, R433: a packet for another endpoint leaves on the port that its route names, with HOPS one less; with HOPS 0 it is
discarded and counted as expired on the port it came in on; a packet whose lifetime expires leaves its output queue. -/
def Obligations.TransitForwardsOrDiscards : Prop :=
  ∀ (port : Fin 20) (p : Packet) (s : State),
    let inp := port.val
    (((∃ r, p.body = .request r) ∨ ∃ r, p.body = .response r) → p.head.dest ≠ s.fab.endpoint → s.live = true →
      (s.port inp).loopback = false → (s.port inp).state = .up → p.head.lseq = (s.port inp).expect → (s.port inp).expect < 4096 →
      (p.head.hops = 0 → ∃ t, exec (.packetForward port p) s = .next t ∧ t.out = s.out
        ∧ (t.port inp).count.getD 5 0 = (if (s.port inp).count.length ≤ 5 then 0 else ((s.port inp).count.getD 5 0 + 1) % 2 ^ 64))
      ∧ (∀ out, p.head.hops ≠ 0 → s.transitPort p.head = some out → s.wrapOwner out = none → out < 20 →
        s.fab.transit.contains out = true → (s.port out).ready = [] → (s.port out).toReplay = [] → (s.port out).helloDue = false →
        (s.port out).state = .up → (s.port out).loopback = false →
        (s.port out).hasCredit { p with head := { p.head with dl := s.nextDl inp out p.head.dl } } = true →
        (s.port out).windowFree p.body.granules = true → s.power.rest ≠ .rest → p.head.vc < 2 →
        ∃ t, exec (.packetForward port p) s = .next t
          ∧ t.out = s.out ++ [.packet out { p with head :=
              { p.head with hops := p.head.hops - 1, dl := s.nextDl inp out p.head.dl, lseq := (s.port out).nextSeq } }]
          ∧ (t.port out).nextSeq = ((s.port out).nextSeq + 1) % 4096))
    ∧ (∀ k, s.live = true → (s.port inp).ready.zipIdx.find? (fun x => x.1.source != 20) = some k →
      ∃ t, exec (.packetLifetimeExpiry port) s = .next t ∧ (t.port inp).ready = (s.port inp).ready.eraseIdx k.2)

/-- R27, R231, R233, R249, R250: a scrub of T0 leaves its line without a flipped bit and moves on; a slice with no active core above it
is not scrubbed; an uncorrectable line becomes zeros and is
reported, any other keeps its bytes. The T1 scrub slot does the same with its segment, one that waits to be rewritten first. -/
def Obligations.ScrubsMendWhatTheyRead : Prop :=
  (∀ (core : Fin 192) (s : State), s.sliceOn core.val = false → exec (.t0Scrub core) s = .next s)
  ∧ (∀ (core : Fin 192) (s : State), s.stopped = false → s.issueLevel ≠ 0 → s.sliceOn core.val = true →
    let n := spGet 0 s.t0.scrub core.val
    let l := t0Addr core.val 0 / 256 + n
    ∃ t, exec (.t0Scrub core) s = .next t
      ∧ (∀ w, w / 32 = l → t.flipsAt w = 0) ∧ (∀ w, w / 32 ≠ l → t.flipsAt w = s.flipsAt w)
      ∧ spGet 0 t.t0.scrub core.val = (if n + 1 = 196608 then 0 else n + 1)
      ∧ (s.lineBad l = true → t.holds (256 * l) (List.replicate 256 0#8) ∧ s.sameOutside t (256 * l) 256
          ∧ (⟨s.ownerImprint (256 * l), .t0 (256 * l), 0x0300, none⟩ : Report) ∈ t.reports)
      ∧ (s.lineBad l = false → (∀ x, t.byteAt x = s.byteAt x) ∧ t.reports = s.reports))
  ∧ ∀ (ch : Fin 384) (s : State), s.stopped = false → s.issueLevel ≠ 0 → (s.channelOwner ch.val).isSome = true →
    let c := s.ch ch.val
    ((c.rewrite = [] → ∃ t, exec (.t1ScrubSlot ch) s = .next t ∧ (t.ch ch.val).badOf c.scrub = []
        ∧ (t.ch ch.val).scrub = (if c.scrub + 1 = channelSegs then 0 else c.scrub + 1)
        ∧ (c.segBad c.scrub = true → memRead (t.ch ch.val).data (1024 * c.scrub) 1024 = List.replicate 1024 0#8)
        ∧ (c.segBad c.scrub = false → (t.ch ch.val).data = c.data))
      ∧ ∀ g rest, c.rewrite = g :: rest → ∃ t, exec (.t1ScrubSlot ch) s = .next t ∧ (t.ch ch.val).badOf g = []
        ∧ memRead (t.ch ch.val).data (1024 * g) 1024 = List.replicate 1024 0#8 ∧ (t.ch ch.val).scrub = c.scrub
        ∧ ¬ g ∈ (t.ch ch.val).rewrite)

/-- R243, R244, R542: the timetable's refresh counts one and answers one that was owing; with cycles removed the interval's expiry
refreshes at once; otherwise it is postponed, two at most. -/
def Obligations.RefreshIsCountedOrPostponed : Prop :=
  ∀ (ch : Fin 384) (s : State), s.refreshing ch.val = true →
    (s.issueLevel ≠ 0 → ∃ t, exec (.refreshWindow ch) s = .next t
      ∧ (t.ch ch.val).refreshed = ((s.ch ch.val).refreshed + 1) % 2 ^ 64 ∧ (t.ch ch.val).owing = (s.ch ch.val).owing - 1
      ∧ (t.ch ch.val).data = (s.ch ch.val).data ∧ (∀ c, c ≠ ch.val → t.ch c = s.ch c) ∧ { t with t1 := s.t1 } = s)
    ∧ (s.issueLevel < 64 → ∃ t, exec (.refreshIntervalExpiry ch) s = .next t
      ∧ (t.ch ch.val).refreshed = ((s.ch ch.val).refreshed + 1) % 2 ^ 64 ∧ (t.ch ch.val).owing = (s.ch ch.val).owing)
    ∧ (64 ≤ s.issueLevel → ∃ t, exec (.refreshIntervalExpiry ch) s = .next t
      ∧ (t.ch ch.val).refreshed = (s.ch ch.val).refreshed ∧ (t.ch ch.val).owing = min 2 ((s.ch ch.val).owing + 1))

/-- R218, R221, R252, R253, R255, R516: the oldest report waiting is resolved to its owners' damage entries, or counted where it has none,
once for a place in one impression; a transfer with host memory that completes lands decrypted, or is reported where its check fails, or is
taken as done; one that fails is given up or issued again; and a request past its lateness limit is damaged. -/
def Obligations.DamageReachesItsOwners : Prop :=
  (∀ (s : State) (r : Report) (rest : List Report), s.stopped = false → s.reports = r :: rest → r.imprint < 16 →
    (∀ a, r.place = .t0 a → isReserve a = false) →
    ∃ t, exec .damageReport s = .next t ∧ t.reports = rest
      ∧ (∀ o ∈ s.owners r, ∃ d ∈ (t.imp r.imprint).serve.damage, d.owner = o ∧ d.place = r.place)
      ∧ (s.owners r = [] → ctrGet (t.imp r.imprint).run.counters .freeDamage =
          if (s.imp r.imprint).run.freeSeen.contains r.place then ctrGet (s.imp r.imprint).run.counters .freeDamage
          else (ctrGet (s.imp r.imprint).run.counters .freeDamage + 1) % 2 ^ 32))
  ∧ (∀ (s : State) (r : Report) (rest : List Report) (a : Nat), s.stopped = false → s.reports = r :: rest → r.place = .t0 a →
    isReserve a = true → ∃ t, exec .damageReport s = .next t ∧ t.stopped = true ∧ t.glb.cause = 3)
  ∧ (∀ (i : Fin 16) (id : Nat) (bytes : List Byte) (f : Folio) (m : Move) (l : LayerCfg) (s : State),
    spGet none (s.imp i.val).serve.folios id = some f → f.move = some m → s.layer i.val f.layer = some l → s.stopped = false →
    (s.morgueWaits i.val f m = false →
      exec (.morgueTransferDone i id bytes) s = .next s ∧ exec (.morgueTransferFailed i id) s = .next s)
    ∧ (s.morgueWaits i.val f m = true →
      (m.spill = true → ∃ t, exec (.morgueTransferDone i id bytes) s = .next t
        ∧ spGet none (t.imp i.val).serve.folios id = some { f with move := some { m with done := true, image := [] } })
      ∧ (m.spill = false → ∃ t, exec (.morgueTransferDone i id bytes) s = .next t
        ∧ match checkImage id f l (s.openUnits i.val f.cls (firstUnit l f.slot) bytes) with
          | .ok body => t.holds (s.slotAddr i.val f.cls m.slot + 256) body
              ∧ spGet none (t.imp i.val).serve.folios id =
                  some { f with move := some { m with done := true, image := [] }, addr := s.slotAddr i.val f.cls m.slot }
          | .error st => spGet none (t.imp i.val).serve.folios id = some { f with move := none }
              ∧ (⟨i.val, .t2 f.cls (firstUnit l f.slot), st, none⟩ : Report) ∈ t.reports)
      ∧ ∃ t, exec (.morgueTransferFailed i id) s = .next t
        ∧ spGet none (t.imp i.val).serve.folios id =
            some { f with move := if m.spill then none else some { m with failed := true } }
        ∧ ctrGet (t.imp i.val).run.counters .morgueFailed = (ctrGet (s.imp i.val).run.counters .morgueFailed + 1) % 2 ^ 32))
  ∧ ∀ (i : Fin 16) (h : Nat) (g : ImprintCfg) (q : Req) (s : State), s.cfg i.val = some g → s.req i.val h = some q → s.stopped = false →
    g.entry.lateness ≤ q.late → ∃ t, exec (.morgueLate i h) s = .next t
      ∧ ∃ d ∈ (t.imp i.val).serve.damage, d.owner = .request h ∧ d.place = .request h

/-- R318, R521, R522: each cause abandons the imprint's impression: it is closed and recovering, and on every core of the imprint no
command is in flight and every job stands at its OPEN quoin. -/
def Obligations.AbandonmentEmptiesTheCores : Prop :=
  ∀ (i : Fin 16) (s : State), s.stopped = false → s.heldOrNone i.val = false → s.causes = [] → s.fab.loop = [] →
    let emptied := fun (t : State) =>
      (t.imp i.val).serve.phase = .closed ∧ (t.imp i.val).serve.recovering = true ∧ (t.imp i.val).run.trips = []
        ∧ (t.imp i.val).run.decisions = []
        ∧ ∀ c ∈ s.coresOf i.val, (t.core c).inflight = [] ∧ ∀ j, ((t.core c).job j).ctrs = []
    (∀ core : Fin 192, s.imprintOf core.val = some i.val → ∃ t, exec (.coreCheckFault core) s = .next t ∧ emptied t)
    ∧ (∀ core : Fin 192, s.imprintOf core.val = some i.val → (s.imp i.val).serve.phase = .running →
      (s.core core.val).streams.any (fun x => ((s.core core.val).job x.1).atQuoin.isNone
        || (s.core core.val).inflight.any fun f => f.job == x.1) = true →
      ∃ t, exec (.coreTimeout core) s = .next t ∧ emptied t)
    ∧ (∀ e, (s.imp i.val).serve.agreement = none → (s.liveMembers i.val).contains e = true → e ≠ s.fab.endpoint →
      s.missingFrom i.val e = true → ∃ t, exec (.peerTimeout i e) s = .next t ∧ emptied t)
    ∧ (∀ (source : Nat) (epoch : BitVec 32) (members : BitVec 256) (last : Nat), (s.imp i.val).serve.agreement = none →
      (s.lockSet i.val).contains source = true → source ≠ s.fab.endpoint → (s.imp i.val).run.epoch < epoch.toNat →
      ∃ t, exec (.recoverRoster i source s.fab.endpoint epoch members last) s = .next t ∧ emptied t)

/-- R525: a lost core's logical number goes to the spare of its die with the lowest physical number; with no spare the imprint enters
Held. Either way the lost core is disabled. -/
def Obligations.LostCoreIsReplacedOrHeld : Prop :=
  ∀ (core : Fin 192) (x : Nat × Nat) (p i : Nat) (s : State),
    s.lostCores.find? (fun x => x.1 == core.val) = some x → s.physicalOf core.val = some p → s.imprintOf core.val = some i →
    s.stopped = false →
    ∃ t, exec (.coreLost core) s = .next t ∧ t.ed.disabled = s.ed.disabled ++ [p] ∧ t.lostCores = s.lostCores.filter (fun y => y.1 != core.val)
      ∧ match s.spareFor p with
        | some q => t.ed.coreMap = (s.ed.coreMap.set q core.val).set p 0xFF ∧ (t.core core.val).streams = (s.core core.val).streams
            ∧ (t.imp i).serve.retire = true
        | none => t.ed.coreMap = s.ed.coreMap.set p 0xFF ∧ (t.imp i).serve.held = some 2

/-- R531, R532: each of these errors stops the package, records its cause, the Compositor core and the edition in force, and clears the
key slots; a package already stopped stays as it is. -/
def Obligations.FatalErrorsStopThePackage : Prop :=
  ∀ (c : Fin 8) (s : State),
    let halts := fun (o : Host.Outcome State Fault Refusal) (cause ccore : Nat) =>
      if s.stopped then o = .next s
      else ∃ t, o = .next t ∧ t.stopped = true ∧ t.glb.cause = cause ∧ t.glb.ccore = ccore ∧ t.glb.edition = s.ed.number
        ∧ t.boot.keySlots = [] ∧ t.glb.scratch = s.glb.scratch ∧ t.cores = s.cores ∧ t.imprints = s.imprints ∧ t.t0 = s.t0 ∧ t.t1 = s.t1
    halts (exec .colophonFault s) 1 0
    ∧ halts (exec (.compositorMemoryError false c) s) 2 c.val
    ∧ halts (exec (.compositorMemoryError true c) s) 3 c.val
    ∧ halts (exec (.compositorWatchdog c) s) 4 c.val

/-- R315, R356, R357: the OPEN quoin's work takes the imprint out of its closed phase, and where the package is alone in its lock-step
set runs the impression; the CLOSE quoin's work commits it: the impression is counted as committed, the next one is numbered one
higher, what was reported of it is gone, and shared damage puts the imprint into Held (unless the commit step meets damage in a reserve part,
which stops the package, R515). -/
def Obligations.OpeningAndCommitMoveTheImpression : Prop :=
  ∀ (i : Fin 16) (s : State), s.causes = [] → s.fab.loop = [] →
    (s.mayOpen i.val = true → (s.beginOpening i.val false).stepWaits i.val = false →
      ∃ t, exec (.impressionOpening i []) s = .next t ∧ (t.imp i.val).serve.phase ≠ .closed
        ∧ ((s.imp i.val).serve.begun = false → (t.imp i.val).go = false)
        ∧ (t.imp i.val).run.impression = (s.imp i.val).run.impression
        ∧ ((s.liveMembers i.val).length ≤ 1 → (t.imp i.val).serve.phase = .running))
    ∧ (∀ (q : QuoinEntry) (ts : List ImpTiming), s.stopped = false → s.heldOrNone i.val = false → s.reports = [] →
      (∀ l, isReserve (256 * l) = true → s.lineBad l = false) →
      ((s.imp i.val).serve.phase = .running ∧ s.jobQuoin i.val 0 = some q ∧ q.kind = .closing ∧ s.arrived i.val 0 q = true
          ∧ s.repliesIn i.val 0 = true ∧ s.t2Settled i.val = true ∧ (s.liveMembers i.val).length ≤ 1)
        ∨ ((s.imp i.val).serve.phase = .closeRosters ∧ s.rostersIn i.val 0x22 = true) →
      ∃ t, exec (.impressionCommit i ts) s = .next t
        ∧ (t.imp i.val).run.impression = (s.imp i.val).run.impression + 1
        ∧ (t.imp i.val).serve.committed = (s.imp i.val).run.impression
        ∧ (t.imp i.val).serve.phase = .closed ∧ (t.imp i.val).serve.done = [] ∧ (t.imp i.val).serve.damage = []
        ∧ ((s.imp i.val).serve.sharedDamage ≠ [] → (t.imp i.val).serve.held = some 2))

/-- R203, R298, R314, R530: a quoin at which no transfer with a lender is due (sending one may end the impression, R521) releases every
core of its job with its counters zero; a sequence at the starvation limit blocks
later ones; a laggard is told of once in its window, and the window restarts with nothing counted. -/
def Obligations.QuoinsReleaseTheirCores : Prop :=
  ∀ (i : Fin 16) (s : State), s.stopped = false →
    (∀ (job : Fin 8) (q : QuoinEntry) (waitUs : Nat) (last : Option Nat), s.jobQuoin i.val job.val = some q → s.heldOrNone i.val = false →
      s.workDone i.val job.val q.kind = true → s.arrived i.val job.val q = true → s.repliesIn i.val job.val = true →
      s.t2Settled i.val = true → s.causes = [] → s.fab.loop = [] →
      (∀ x ∈ (s.imp i.val).serve.folioList, x.2.move.isSome = true → ∀ e b n, s.t2Region i.val x.2.cls ≠ some (.lent e b n)) →
      ∃ t, exec (.quoinRelease i job waitUs last) s = .next t
        ∧ ∀ c ∈ s.jobCores i.val job.val, ((t.core c).job job.val).atQuoin = none ∧ ∀ k, (t.core c).ctr job.val k = 0)
    ∧ (∀ (h : Nat) (g : ImprintCfg) (q : Req), s.cfg i.val = some g → s.req i.val h = some q → g.entry.starvation ≤ q.leftOut →
      ∃ t, exec (.starvationLimit i h) s = .next t ∧ t.req i.val h = some { q with starved := true }
        ∧ ∀ k, k ≠ h → t.req i.val k = s.req i.val k)
    ∧ (∀ (e : Nat) (c : LockSet), s.setCfg i.val = some c → s.heldOrNone i.val = false →
      c.lagCount ≤ spGet 0 (s.imp i.val).serve.lateness e → (s.imp i.val).serve.lagged.contains e = false →
      ∃ t, exec (.laggard i e) s = .next t ∧ (t.imp i.val).serve.lagged = (s.imp i.val).serve.lagged ++ [e]
        ∧ (t.imp i.val).serve.events = (s.imp i.val).serve.events ++ [faultEvent 0x0025 0 0 e (s.imp i.val).run.impression
            (s.imp i.val).run.epoch (spGet 0 (s.imp i.val).serve.lateness e) 0 0]
        ∧ exec (.laggard i e) t = .next t)
    ∧ (s.heldOrNone i.val = false → (s.imp i.val).run.impression % 1024 = 0 →
      (s.imp i.val).serve.lagWindow ≠ (s.imp i.val).run.impression / 1024 →
      ∃ t, exec (.lagWindowRestart i) s = .next t ∧ (t.imp i.val).serve.lateness = [] ∧ (t.imp i.val).serve.lagged = [])

/-- R450, R455, R456: the poll and a nudge make doorbell reads pending; the read of one fetches the tickets up to it and moves DEV_WORD
past them; a failed read, or a doorbell further ahead than the ring is deep, faults the ring. -/
def Obligations.DoorbellsFetchTickets : Prop :=
  ∀ (s : State), s.answers = true →
    (s.poll ≠ 0 → ∃ t, exec .doorbellPoll s = .next t
      ∧ ∀ f, f < 17 → s.serving f = true → ∀ k ∈ (s.fn f).readable, k ∈ (t.fn f).nudged)
    ∧ (∀ (f : Fin 17) (k : Fin 1024), s.serving f.val = true → k.val ∈ (s.fn f.val).readable →
      ∃ t, exec (.nudge f k) s = .next t ∧ k.val ∈ (t.fn f.val).nudged ∧ { t with fns := s.fns } = s)
    ∧ (∀ (f : Fin 17) (k : Nat) (r : Ring) (reads : List TicketRead), (s.fn f.val).ring k = some r → s.serving f.val = true →
      r.entry.kind = 1 → r.faulted = false → (s.fn f.val).nudged.contains k = true →
      (∃ t r', exec (.ticketFetch f k none reads) s = .next t ∧ (t.fn f.val).ring k = some r' ∧ r'.faulted = true ∧ r'.cons = r.cons)
      ∧ (∀ d : BitVec 32, r.depth < (d - r.cons).toNat →
        ∃ t r', exec (.ticketFetch f k (some d) reads) s = .next t ∧ (t.fn f.val).ring k = some r' ∧ r'.faulted = true
          ∧ r'.cons = r.cons)
      ∧ (∀ d : BitVec 32, s.atOnce f.val = false → 0 < (d - r.cons).toNat → (d - r.cons).toNat ≤ r.depth →
        reads.length = (d - r.cons).toNat → (reads.all fun x => !x.raw.bad) = true →
        ∃ t r', exec (.ticketFetch f k (some d) reads) s = .next t ∧ (t.fn f.val).ring k = some r' ∧ r'.cons = d
          ∧ r'.waiting.length = r.waiting.length + reads.length ∧ r'.faulted = false
          ∧ t.out = s.out ++ [.hostWrite f.val r.entry.devWord (leBytes 4 d.toNat)]))

/-- R329, R330, R361, R362, R461, R466, R468: at an opening the front ticket of the ring whose turn it is leaves its ring, counts against
the budget, and when it is accepted has its effect and a completion with status 0; one that is refused has its status and no other
effect. -/
def Obligations.TicketsHaveTheirEffect : Prop :=
  ∀ (i : Fin 16) (ring : Nat) (x : Ticket) (s : State),
    let v := (s.imp i.val).serve
    let turn := s.mayOpen i.val = true ∧ v.begun = true ∧ s.stepWaits i.val = false ∧ s.budgetLeft i.val = true
      ∧ s.nextRing i.val = some ring ∧ s.frontTicket (i.val + 1) ring = some x
    let taken := fun (t : State) (st r0 r1 : Nat) =>
      (∃ r r', (s.fn (i.val + 1)).ring ring = some r ∧ (t.fn (i.val + 1)).ring ring = some r' ∧ r'.waiting = r.waiting.drop 1)
        ∧ (t.imp i.val).serve.admits = v.admits + 1 ∧ (t.imp i.val).serve.lastRing = some ring
        ∧ (t.imp i.val).serve.done = v.done ++ [⟨ring, x.op, x.tag, st, r0, r1, (s.imp i.val).run.impression,
            st != 0 || alwaysRecord x.op || x.notify⟩]
    turn →
      (s.judge (i.val + 1) ring x = 0 →
        (x.op = 0x00 → ∃ t, exec (.nopTicket ⟨i.val + 1, by omega⟩ ring) s = .next t ∧ taken t 0 0 0)
        ∧ (x.op = 0x01 → ∃ t h q, exec (.openReq i ring) s = .next t ∧ taken t 0 h 0
            ∧ h = mkHandle i.val v.freeIndex (spGet 0 v.gens v.freeIndex)
            ∧ t.req i.val h = some q ∧ q.state = .pending ∧ q.handle = h ∧ q.tag = x.tag ∧ q.ring = ring ∧ q.isLead = true)
        ∧ (∀ key q, s.resolveTarget i.val ring x = some key → s.req i.val key = some q →
          (x.op = 0x02 → u32s (x.data.take (4 * x.f 24 4)) ≠ [] →
            ∃ t q', exec (.append i ring) s = .next t ∧ taken t 0 0 0 ∧ t.req i.val key = some q' ∧ q'.state = .prefill
              ∧ q'.prompt = (if q.state = .pending ∨ q.state = .idle then q.lastOut.toList else []) ++ q.prompt
                  ++ u32s (x.data.take (4 * x.f 24 4))
              ∧ q'.length = q.length + (u32s (x.data.take (4 * x.f 24 4))).length)
          ∧ (x.op = 0x03 → ∃ t, exec (.cancel i ring) s = .next t ∧ taken t 0 0 0
              ∧ t.req i.val key = some { q with cancel := true })
          ∧ (x.op = 0x04 → ∃ t, exec (.params i ring) s = .next t ∧ taken t 0 0 0 ∧ t.req i.val key = some (admitParams x q)))
        ∧ (∀ k alpha mats, x.op = 0x10 → s.freeAdapterSlot i.val = some k →
          s.adapterImage i.val (x.f 32 2) (x.imageBytes.getD []) = .ok (alpha, mats) →
          ∃ t, exec (.adapterLoad i ring) s = .next t ∧ taken t 0 (spGet 0 v.verNums (x.f 32 2) + 1) 0
            ∧ spGet none (t.imp i.val).serve.adapters k = some
                { id := x.f 32 2, version := spGet 0 v.verNums (x.f 32 2) + 1, alpha := alpha, mats := mats, loaded := true,
                  current := false, pendingCurrent := true, bound := 0, retired := false, cold := Config.adapterCold i.val k })
        ∧ (x.op = 0x11 → ∃ t, exec (.adapterRetire i ring) s = .next t ∧ taken t 0 0 0
            ∧ (t.imp i.val).serve.currentOf (x.f 32 2) = none)
        ∧ (∀ d bs, x.op = 0x12 → s.desc i.val (x.f 32 2) = some d → x.imageBytes = some bs →
          ∃ t, exec (.weightsLoad i ring) s = .next t ∧ taken t 0 bs.length 0
            ∧ spGet [] (t.imp i.val).serve.tensors (x.f 32 2) =
                spGet [] v.tensors (x.f 32 2) ++ [(x.f 36 8, x.f 36 8 + bs.length)])
        ∧ (x.op = 0x30 → ∃ t n m, exec (.query ⟨i.val + 1, by omega⟩ ring) s = .next t ∧ taken t 0 n m ∧ n ≤ m
            ∧ n ≤ x.f 24 4 / 16)
        ∧ (x.op = 0x3E → ∃ t, exec (.fence ⟨i.val + 1, by omega⟩ ring) s = .next t ∧ taken t 0 0 0))
      ∧ (s.judge (i.val + 1) ring x ≠ 0 → x.op = 0x01 → ∃ t, exec (.openReq i ring) s = .next t
          ∧ taken t (s.judge (i.val + 1) ring x) 0 0 ∧ ∀ h, t.req i.val h = s.req i.val h)

/-- R446, R452, R477 to R479, R599: an apply of a ring table is refused whole with its first failing entry, or waits for the next opening, or
takes effect at once where the function has none; reading EVT_LOST clears it; a VF's reset returns its host side to reset and cancels
the requests of its imprint; the PF's resets every function and drops what is staged or pending; either clears the enable bits of the
sources routed to vectors it resets; the link's state decides whether the LQ7 serves. -/
def Obligations.HostSideResetsAndTables : Prop :=
  ∀ (s : State),
    (∀ (p : RegPath) (f : Fin 17) (n : Fin 1024) (reads : List RingRead), s.answers = true → reachesFn p f.val = true →
      ((s.fn f.val).apply = false → s.stopped = false →
        (∀ k code, s.tableError f.val n.val ((List.range n.val).map fun k => reads.getD k noRead) = some (k, code) →
          ∃ t, exec (.ringtabApply p f n reads) s = .next t ∧ (t.fn f.val).error = true ∧ (t.fn f.val).errCode = code
            ∧ (t.fn f.val).errEntry = k ∧ (t.fn f.val).apply = false ∧ (t.fn f.val).rings = (s.fn f.val).rings)
        ∧ (s.tableError f.val n.val ((List.range n.val).map fun k => reads.getD k noRead) = none →
          ∃ t, exec (.ringtabApply p f n reads) s = .next t ∧ (t.fn f.val).error = false
            ∧ (s.atOnce f.val = false → (t.fn f.val).apply = true ∧ (t.fn f.val).rings = (s.fn f.val).rings
                ∧ (t.fn f.val).newTable.isSome = true)
            ∧ (s.atOnce f.val = true → (t.fn f.val).apply = false ∧ (t.fn f.val).newTable = none)))
      ∧ (∃ t, exec (.hifEvtLostRead p f) s = .next t ∧ (t.fn f.val).evtLost = 0 ∧ (t.fn f.val).lostSince = (s.fn f.val).lostSince
          ∧ { t with fns := s.fns } = s))
    ∧ (∀ i : Fin 16, ∃ t, exec (.vfFlr i) s = .next t ∧ t.fn (i.val + 1) = Fn.reset
        ∧ (∀ k q, t.req i.val k = some q → q.isLead = true → q.cancel = true ∧ q.flr = true)
        ∧ (∀ f, f ≠ i.val + 1 → t.fn f = s.fn f) ∧ (∀ j, j ≠ i.val → t.imp j = s.imp j)
        ∧ t.icu.pend = s.icu.pend ∧ t.icu.routes = s.icu.routes
        ∧ ∀ m, m < 1024 → (Nat.testBit t.icu.en m = true ↔
            Nat.testBit s.icu.en m = true ∧ ¬ (s.route m / 8 % 2 = 1 ∧ s.route m / 128 % 32 = i.val + 1)))
    ∧ (∃ t, exec .pfFlr s = .next t ∧ (∀ f, f < 17 → t.fn f = Fn.reset) ∧ t.ed.staged = none ∧ t.ed.stage = none
        ∧ t.ed.pendingMinor = none ∧ t.ed.inForce = s.ed.inForce ∧ t.ed.kept = s.ed.kept ∧ t.icu.routes = s.icu.routes
        ∧ ∀ m, m < 1024 → (Nat.testBit t.icu.en m = true ↔ Nat.testBit s.icu.en m = true ∧ s.route m / 8 % 2 ≠ 1))
    ∧ (∀ g w : Nat, ∃ t, exec (.pcieLinkChange g w) s = .next t ∧ t.degraded = (decide (g < 32) || decide (w < 8))
        ∧ ((s.degraded = true ∧ 32 ≤ g ∧ 8 ≤ w) → ∀ i, i < 16 → s.heldOrNone i = false → (t.fn (i + 1)).linkWait = true))

/-- R404, R493: an accepted EDITION_STAGE is taken for validation and leaves its ring, unless another one validates or a commit is in
progress; the outcome of validation stages the edition or leaves the one staged before; neither disturbs what runs. Where the plan's
discovery time is up, validation waits no longer and every planned port that has heard no neighbour is missing. -/
def Obligations.EditionIsStagedAndValidated : Prop :=
  ∀ (s : State),
    (∀ (ring : Nat) (x : Ticket) (e : Edition), s.edTicket ring 0x20 = some x → x.f 32 4 = e.head.edition →
      ∃ t r r', exec (.editionStage ring (some e)) s = .next t ∧ (s.fn 0).ring ring = some r ∧ (t.fn 0).ring ring = some r'
        ∧ r'.waiting <:+ r.waiting.drop 1 ∧ t.ed.staged = s.ed.staged ∧ t.ed.inForce = s.ed.inForce ∧ t.imprints = s.imprints
        ∧ t.cores = s.cores ∧ t.t0 = s.t0 ∧ t.t1 = s.t1
        ∧ t.ed.stage = if s.ed.stage.isSome ∨ s.ed.work ≠ .idle then s.ed.stage
            else some ⟨ring, x.tag, e.head.edition, some e, false⟩)
    ∧ (∀ (x : Staging) (e : Edition), s.stopped = false → s.ed.stage = some x → x.image = some e → s.mayValidate x e = true →
      ∃ t, exec .editionValidated s = .next t ∧ t.ed.stage = none ∧ t.ed.inForce = s.ed.inForce ∧ t.cores = s.cores
        ∧ t.t0 = s.t0 ∧ t.t1 = s.t1
        ∧ t.ed.staged = if s.runChecks e false allChecks = none then some e else s.ed.staged)
    ∧ (∀ (x : Staging) (e : Edition) (m : Major), s.stopped = false → s.ed.stage = some x → x.image = some e → e.body = .major m →
      ∃ t, exec .discoveryTimeout s = .next t ∧ t.ed.stage = some { x with timedOut := true } ∧ t.mayValidate { x with timedOut := true } e = true
        ∧ ∀ p, p < 20 →
          (∀ y, m.topology.ports[p]? = some y → y.need ≠ .unused → (s.port p).lastHello = none →
            (t.port p).missing = true ∧ (t.port p).reason = 9)
          ∧ ((s.port p).lastHello ≠ none → t.port p = s.port p))

/-- R496, R497, R504, R506: EDITION_COMMIT of a staged major edition starts its recheck, and of a minor one that passes check 13 makes
it pending; EDITION_REVERT drops a pending minor edition, or starts the recheck of the kept edition; a recheck that fails changes
nothing that is in force, and one that passes gives every running imprint its drain quoin. -/
def Obligations.CommitRechecksAndDrains : Prop :=
  ∀ (s : State),
    (∀ (ring : Nat) (x : Ticket) (e : Edition), s.edTicket ring 0x21 = some x → s.ed.staged = some e →
      e.head.edition = x.f 32 4 → s.ed.work = .idle →
      (∀ m, e.body = .major m → ∃ t, exec (.editionCommit ring) s = .next t ∧ t.ed.work = .rechecking ring x.tag false
        ∧ t.ed.staged = some e ∧ t.ed.inForce = s.ed.inForce)
      ∧ (∀ m, e.body = .minor m → s.ed.pendingMinor = none → s.runChecks e false [13] = none →
        ∃ t, exec (.editionCommit ring) s = .next t ∧ t.ed.pendingMinor = some (e, ring, x.tag) ∧ t.ed.staged = none
          ∧ t.ed.inForce = s.ed.inForce ∧ t.ed.number = s.ed.number))
    ∧ (∀ (ring : Nat) (x : Ticket), s.edTicket ring 0x22 = some x →
      (s.ed.pendingMinor ≠ none → ∃ t, exec (.editionRevert ring) s = .next t ∧ t.ed.pendingMinor = none
        ∧ t.ed.inForce = s.ed.inForce ∧ t.ed.number = s.ed.number ∧ t.ed.work = s.ed.work)
      ∧ (s.ed.pendingMinor = none → s.ed.work = .idle → s.ed.kept ≠ none →
        ∃ t, exec (.editionRevert ring) s = .next t ∧ t.ed.work = .rechecking ring x.tag true ∧ t.ed.inForce = s.ed.inForce))
    ∧ (∀ (ring tag : Nat) (rev : Bool) (e : Edition) (image : Option Edition) (minors : List Edition), s.stopped = false →
      s.ed.work = .rechecking ring tag rev → (if rev then s.ed.kept else s.ed.staged) = some e →
      let held := if rev then s.ed.keptMinors else []
      let good := sameImages (image :: minors.map some) (e :: held) = true ∧ s.runChecks e rev recheckCodes = none
      (¬ good → ∃ t, exec (.editionRecheckDone image minors) s = .next t ∧ t.ed.work = .idle ∧ t.ed.inForce = s.ed.inForce
        ∧ t.ed.staged = s.ed.staged ∧ t.ed.kept = s.ed.kept ∧ t.cores = s.cores ∧ t.ports = s.ports)
      ∧ (∀ m, good → e.body = .major m →
        ∃ t, exec (.editionRecheckDone image minors) s = .next t ∧ t.ed.work = .draining ring tag rev e held
          ∧ t.ed.inForce = s.ed.inForce ∧ t.cores = s.cores
          ∧ ∀ i, i < 16 → s.heldOrNone i = false →
            let at_ := ((m.imprints.find? fun g => g.entry.imprint == i).map (·.entry.drainAt)).getD 0
            (t.imp i).serve.drain = some (if at_ = 0 then s.openImpression i + 1 else at_)))

/-- R197, R240, R500, R501, R506: once every imprint stands at its drain quoin, the edition is in force, the one that was is kept, its
core map is the map in force, every imprint has the entry it gives, a carried one keeps its key, a created one has a key and one with
no entry has none, and the generations advance; the commit then ends with no work left. -/
def Obligations.PointOfNoReturnPutsTheEditionInForce : Prop :=
  ∀ (s : State), s.stopped = false →
    (∀ (ring tag : Nat) (rev : Bool) (e : Edition) (minors : List Edition) (m : Major),
      s.ed.work = .draining ring tag rev e minors → e.body = .major m → s.allDrained = true →
      ∃ t, exec .pointOfNoReturn s = .next t ∧ t.ed.inForce = some e ∧ t.ed.kept = s.ed.inForce ∧ t.ed.keptNumber = s.ed.number
        ∧ t.ed.minors = minors ∧ t.ed.coreMap = m.coreMap ∧ t.ed.pendingMinor = none ∧ t.ed.disabled = []
        ∧ (rev = false → t.ed.staged = none)
        ∧ (∀ i, i < 16 → (t.imp i).cfg = m.imprints.find? fun g => g.entry.imprint == i)
        ∧ (∀ i, i < 16 → (m.imprints.all fun g => g.entry.imprint != i) = true → spGet 0 t.boot.keySlots i = 0)
        ∧ (∀ i g, i < 16 → (m.imprints.find? fun g => g.entry.imprint == i) = some g → s.carried g = true →
            spGet 0 t.boot.keySlots i = spGet 0 s.boot.keySlots i ∧ (t.imp i).steps = (s.imp i).steps)
        ∧ (∀ i g, i < 16 → (m.imprints.find? fun g => g.entry.imprint == i) = some g →
            (m.imprints.all fun g => g.entry.imprint != i || !s.carried g) = true → spGet 0 t.boot.keySlots i ≠ 0)
        ∧ t.fab.gens = s.fab.gens + 1)
    ∧ (∀ (ring tag micros carried created other : Nat) (rev : Bool), s.ed.work = .applying ring tag rev carried created other →
      ∃ t, exec (.editionCommitDone micros) s = .next t ∧ t.ed.work = .idle ∧ t.ed.inForce = s.ed.inForce
        ∧ t.ed.number = s.ed.number ∧ t.imprints = s.imprints ∧ t.cores = s.cores ∧ t.t0 = s.t0)

/-- R544, R550: each write of PWR_CAP replaces the target; a FAST one below the effective cap is the cap at once, a step moves the cap
towards the target by the ramp and never past it; a heartbeat ends the orphaned state, and its expiry begins it with the orphan cap
as a FAST target. -/
def Obligations.CapFollowsItsTarget : Prop :=
  ∀ (s : State),
    (∀ (p : RegPath) (n : BitVec 12), s.answers = true → p = .pf ∨ p = .i3c →
      exec (.pwrCapWrite p n) s = .next { s with power := { s.power with target := n.toNat } }
      ∧ ∃ t, exec (.pwrCapFast p n) s = .next t ∧ t.power.target = n.toNat ∧ t.power.cap = min s.power.cap t.capTarget
        ∧ { t with power := s.power } = s)
    ∧ (s.powered = true → ∃ t, exec .capStep s = .next t
      ∧ t.capTarget = s.capTarget ∧ { t with power := s.power } = s
      ∧ (s.power.cap ≤ s.capTarget → t.power.cap = min s.capTarget (s.power.cap + max 1 s.power.rampUp))
      ∧ (s.capTarget ≤ s.power.cap → t.power.cap = max s.capTarget (s.power.cap - max 1 s.power.rampDown)))
    ∧ (∀ (p : RegPath) (v : BitVec 32), s.answers = true → p = .pf ∨ p = .i3c →
      ∃ t, exec (.heartbeat p v) s = .next t ∧ t.power.timer = true ∧ t.power.orphaned = false ∧ t.power.cap = s.power.cap
        ∧ t.power.target = s.power.target)
    ∧ (s.powered = true → s.power.timer = true → ∃ t, exec .heartbeatExpiry s = .next t ∧ t.power.orphaned = true
      ∧ t.power.timer = false ∧ t.power.target = s.power.target
      ∧ t.power.cap = if s.powerCfg.isSome then min s.power.cap t.capTarget else s.power.cap)

/-- R545, R546: the limiter's level is the largest from 4 to 64 at which the estimate stays within the cap, and no more than the
thermal ceiling; it falls at once and rises by the largest number of steps that the ramp allowance covers; CAP_UNMET says that even
4 fails. A trim makes the estimate at the level in force equal the average of the last samples. -/
def Obligations.LimiterTakesTheLargestLevel : Prop :=
  ∀ (s : State), s.powered = true →
    (∀ f l m c : Nat, s.inRest = false →
      let fit := fun k : Nat => (64 * (f + l + m) + c * k : Int) + s.power.kTrim ≤ 640 * s.power.cap
      ∃ t, exec (.limiterEval f l m c) s = .next t
        ∧ (t.power.capUnmet = true ↔ ∀ k, 4 ≤ k → k ≤ 64 → ¬ fit k)
        ∧ (s.inFloor = true → t.power.level = 4)
        ∧ (s.inFloor = false → ∀ q, 4 ≤ q → q ≤ 64 → (fit q ∨ (q = 4 ∧ ¬ fit 4)) → (∀ k, q < k → k ≤ 64 → ¬ fit k) →
            let perm := min q s.power.lth
            let a := s.power.allowance + 640 * max 1 s.power.rampUp
            (perm ≤ s.power.level → t.power.level = perm ∧ t.power.allowance = 0)
            ∧ (s.power.level < perm → s.power.level ≤ t.power.level ∧ t.power.level ≤ perm
                ∧ (t.power.level - s.power.level) * c ≤ a
                ∧ (t.power.level = perm → t.power.allowance = 0)
                ∧ (t.power.level < perm → a < (t.power.level - s.power.level + 1) * c
                    ∧ t.power.allowance = a - (t.power.level - s.power.level) * c))))
    ∧ (∀ mw : List Nat, ∃ t, exec (.avsSample mw) s = .next t
        ∧ t.power.readings = (mw.sum :: s.power.readings).take 20 ∧ t.power.measured = t.power.readings.sum / t.power.readings.length
        ∧ (64 * (t.power.pFixed + t.power.pLink + t.power.pMem) + t.power.pCore * s.issueLevel : Int) + t.power.kTrim
            = 64 * t.power.measured
        ∧ t.power.overRun = if 10 * s.power.cap < t.power.measured then s.power.overRun + 1 else 0)

/-- R535, R547, R548, R553: a cause puts the package into Floor at level 4, and leaves the other causes as they are; VR_ALERT and
PWRBRK clear by their own event once the ball is high, OVER_CAP after a fresh trim, DRAM_HOT when no device reports a rate above
twice its base. -/
def Obligations.FloorHoldsWhileACauseIsPresent : Prop :=
  ∀ (s : State), s.powered = true → s.inRest = false → s.power.hold = false →
    let sets := fun (o : Host.Outcome State Fault Refusal) (k : Nat) =>
      ∃ t, o = .next t ∧ bitOf t.power.causes k = true ∧ (∀ j, j ≠ k → bitOf t.power.causes j = bitOf s.power.causes j)
        ∧ t.issueLevel = 4 ∧ t.inFloor = true
    let clears := fun (o : Host.Outcome State Fault Refusal) (k : Nat) =>
      ∃ t, o = .next t ∧ bitOf t.power.causes k = false ∧ (∀ j, j ≠ k → bitOf t.power.causes j = bitOf s.power.causes j)
        ∧ (t.power.causes ≠ 0 → t.issueLevel = 4) ∧ (t.power.causes = 0 → t.issueLevel = min s.power.level s.power.lth)
    sets (exec .vrAlertAssert s) 0 ∧ sets (exec .pwrbrkAssert s) 1
    ∧ (∃ t, exec .vrAlertDeassert s = .next t ∧ t.power = { s.power with vrLow := false })
    ∧ (∃ t, exec .pwrbrkDeassert s = .next t ∧ t.power = { s.power with brkLow := false })
    ∧ (s.power.vrLow = false → clears (exec .vrAlertClear s) 0)
    ∧ (s.power.brkLow = false → clears (exec .pwrbrkClear s) 1)
    ∧ (40 ≤ s.power.overRun → sets (exec .overCap s) 2)
    ∧ (s.power.trimmed = true → clears (exec .overCapClear s) 2)
    ∧ (∀ (dev : Fin 48) (rate : Fin 4),
      let rates := spPut 0 s.power.rates dev.val rate.val
      (rates.any (fun x => decide (2 ≤ x.2)) = true → sets (exec (.dramTempReport dev rate) s) 4)
      ∧ (rates.any (fun x => decide (2 ≤ x.2)) = false → clears (exec (.dramTempReport dev rate) s) 4))

/-- R551 to R554: T_j is the hottest reading; 105 °C and more is Floor with cause THERMAL, 97 °C and less ends it with the ceiling at
4, 100 °C and less ends a thermal hold; each millisecond the ceiling falls from 100 °C on and rises up to 97 °C; a thermal hold is
level 0. -/
def Obligations.HeatLowersTheLevel : Prop :=
  ∀ (s : State), s.powered = true →
    (∀ rs : List (Nat × Nat), ∃ t, exec (.sensorRead rs) s = .next t
      ∧ t.power.tj = (t.power.sensors.map (·.2)).foldl max 0
      ∧ (∀ k v, rs = [(k, v)] → (k < 208 ∧ s.ed.coreMap.getD k 0xFF ≠ 0xFF) ∨ (208 ≤ k ∧ k < 220) →
          spGet 0 t.power.sensors k = v ∧ ∀ j, j ≠ k → spGet 0 t.power.sensors j = spGet 0 s.power.sensors j)
      ∧ (105 ≤ t.power.tj → bitOf t.power.causes 3 = true)
      ∧ (t.power.tj ≤ 97 → bitOf t.power.causes 3 = false ∧ (bitOf s.power.causes 3 = true → t.power.lth = 4))
      ∧ (97 < t.power.tj → t.power.tj < 105 → t.power.causes = s.power.causes)
      ∧ t.power.hold = (s.power.hold && decide (100 < t.power.tj)))
    ∧ (∃ t, exec .lthStep s = .next t
      ∧ (100 ≤ s.power.tj → 4 ≤ s.power.lth → t.power.lth = max 4 (s.power.lth - 1))
      ∧ (s.power.tj ≤ 97 → t.power.lth = min 64 (s.power.lth + 1))
      ∧ (97 < s.power.tj → s.power.tj < 100 → t = s))
    ∧ (s.inFloor = true → 105 ≤ s.power.tj → s.power.hold = false →
      ∃ t, exec .thermalHold s = .next t ∧ t.power.hold = true ∧ t.issueLevel = 0 ∧ t.power.causes = s.power.causes)

/-- R535 to R537, R600, R601: a Rest request is refused while an imprint that is not Held is not idle or is in lock step with another
package; an accepted one takes effect when every job waits at its OPEN quoin, and then L is 0; REQ = 0 or a fetched ticket ends Rest,
and the interrupt controller then has pending all that its watcher saw. -/
def Obligations.RestIsEnteredAndLeft : Prop :=
  ∀ (s : State),
    (s.answers = true → ∃ t, exec .pwrReqRest s = .next t ∧ t.power.req = true
      ∧ (s.power.rest = .run → s.restRefused = true → t.power.rest = .run ∧ t.power.refused = true)
      ∧ (s.power.rest = .run → s.restRefused = false → s.stopped = false → t.power.rest = .entering ∧ t.power.refused = false)
      ∧ (s.power.rest ≠ .run → t.power.rest = s.power.rest))
    ∧ (s.answers = true → ∃ t, exec .pwrReqRun s = .next t ∧ t.power.req = false ∧ t.power.refused = false
      ∧ t.power.rest = if s.power.rest = .entering then .run else s.power.rest)
    ∧ (s.stopped = false → s.power.rest = .entering → s.imprintList.all s.atOpen = true →
      ∃ t, exec .restEntry s = .next t ∧ t.power.rest = .rest ∧ t.issueLevel = 0 ∧ t.inRest = true ∧ t.cores = s.cores ∧ t.t0 = s.t0)
    ∧ (s.stopped = false → s.power.rest = .rest → s.power.req = false ∨ s.ticketWaits = true →
      ∃ t, exec .restWake s = .next t ∧ t.power.rest = .run ∧ t.inRest = false ∧ t.icu.wake = 0
        ∧ (∀ n, Nat.testBit s.icu.wake n = true → Nat.testBit t.icu.pend n = true)
        ∧ t.icu.restWrite = (s.icu.restWrite || s.icu.restSeen))

/-- R555 to R557: a monitor's sample is taken from active cores, and by its own command from spare ones; a fit counts one more sample
and stands in its core's margin registers; then the proposal that R557's table makes for a die stands in the registers of its core,
and no other core of the die has one. -/
def Obligations.MarginsAreFittedAndProposed : Prop :=
  ∀ (s : State), s.powered = true →
    (∀ k v : Nat, k < 9 * 208 →
      (∃ t, exec (.monitorSample [(k, v)]) s = .next t ∧ { t with power := s.power } = s ∧ ∀ j,
        spGet 0 t.power.monitors j =
          if j = k ∧ s.ed.coreMap.getD (k / 9) 0xFF < 192 then v else spGet 0 s.power.monitors j)
      ∧ (∃ t, exec (.spareMonitorSample [(k, v)]) s = .next t ∧ { t with power := s.power } = s ∧ ∀ j,
        spGet 0 t.power.monitors j =
          if j = k ∧ s.ed.coreMap.getD (k / 9) 0xFF = 0xFE then v else spGet 0 s.power.monitors j))
    ∧ (∀ xs : List (Nat × Int × Int), ∃ t, exec (.marginFit xs) s = .next t
      ∧ (∀ p m q, xs = [(p, m, q)] → p < 208 → s.ed.coreMap.getD p 0xFF ≠ 0xFF →
          (t.margin p).margin = m ∧ (t.margin p).predicted = q ∧ (t.margin p).samples = min 255 ((s.margin p).samples + 1))
      ∧ (∀ c die, s.powerCfg = some c → die < 2 →
          (∀ p k v, t.proposalFor c die = some (p, k, v) → (t.margin p).proposal = k ∧ (t.margin p).value = v ∧ p / 104 = die)
          ∧ (∀ p, p / 104 = die → (t.proposalFor c die).map (·.1) ≠ some p → (t.margin p).proposal = 0)))

/-- R481, R531, R566, R567, R569, R582: a falling POWER_GOOD or PERST_N ends everything the package holds but what the always-on domain
and the fuses keep; the package leaves reset once POWER_GOOD, PERST_N and COOL_OK are all high, with its first two measurements; an
alert that is low then is Floor; an entropy source that fails stops the package; after release COOL_OK is only reported. -/
def Obligations.ResetsEndEverythingAndReleaseWaits : Prop :=
  ∀ (s : State),
    let ended := fun (t : State) =>
      t.boot.released = false ∧ t.stopped = false ∧ t.glb = State.reset.glb ∧ t.ed = State.reset.ed ∧ t.cores = [] ∧ t.imprints = []
        ∧ t.fns = [] ∧ t.ports = [] ∧ t.boot.keySlots = [] ∧ t.spdm = Spdm.reset ∧ t.i3c = I3cTarget.reset ∧ t.boot.stage = .rom
        ∧ t.answers = false ∧ t.boot.svnFused = s.boot.svnFused ∧ t.boot.slotId = s.boot.slotId ∧ t.boot.coolOk = s.boot.coolOk
        ∧ t.pending = s.pending ∧ t.out = s.out
    (∃ t, exec .perstNAssert s = .next t ∧ ended t ∧ t.boot.perstN = false ∧ t.boot.powerGood = s.boot.powerGood)
    ∧ (∃ t, exec .powerGoodFall s = .next t ∧ ended t ∧ t.boot.powerGood = false ∧ t.boot.perstN = s.boot.perstN)
    ∧ (∀ (slot : Fin 8) (good : Bool), s.boot.powerGood = false → s.boot.released = false →
      ∃ t, exec (.powerGoodRise slot good) s = .next t ∧ t.boot.slotId = slot.val ∧ t.boot.powerGood = true
        ∧ (good = false → t.stopped = true ∧ (s.stopped = false → t.glb.cause = 1))
        ∧ (good = true → t.boot.released = (s.boot.perstN && s.boot.coolOk) ∧ t.stopped = s.stopped))
    ∧ (∀ cool vrN brkN : Bool, s.boot.released = false →
      ∃ t, exec (.release cool vrN brkN) s = .next t ∧ t.boot.released = (s.boot.powerGood && cool) ∧ t.boot.coolOk = cool
        ∧ t.boot.perstN = true ∧ t.power.vrLow = !vrN ∧ t.power.brkLow = !brkN
        ∧ (s.boot.powerGood = true → cool = true → t.boot.meas = releaseMeas s.boot.svnFused
            ∧ (vrN = false → bitOf t.power.causes 0 = true) ∧ (brkN = false → bitOf t.power.causes 1 = true)
            ∧ (s.boot.entropyGood = false → t.stopped = true)))
    ∧ (∀ level : Bool, ∃ t, exec (.coolOkChange level) s = .next t ∧ t.boot.coolOk = level
        ∧ (s.boot.released = true → t.boot = { s.boot with coolOk := level } ∧ t.power = s.power ∧ t.stopped = s.stopped
            ∧ t.cores = s.cores)
        ∧ (s.boot.released = false → t.boot.released = (s.boot.powerGood && s.boot.perstN && level)))

/-- R565, R581: a trip of the clock monitor stops the package with cause 1; PCIE_REFCLK is only reported; a reseed of the DRBG changes
nothing else. -/
def Obligations.ClocksAndEntropyAreWatched : Prop :=
  ∀ (s : State),
    (∀ lost : Bool, s.boot.powerGood = true → (lost = true ∨ s.boot.released = true) → s.stopped = false →
      ∃ t, exec (.clockMonitorTrip lost) s = .next t ∧ t.stopped = true ∧ t.glb.cause = 1 ∧ t.boot.keySlots = []
        ∧ t.boot.sysRefOk = (s.boot.sysRefOk && !lost) ∧ t.boot.rootLock = (s.boot.rootLock && lost) ∧ t.cores = s.cores)
    ∧ (∃ t, exec .pcieRefclkLoss s = .next t ∧ t.boot = { s.boot with pcieRefOk := false } ∧ t.stopped = s.stopped)
    ∧ (∃ t, exec .pcieRefclkReturn s = .next t ∧ t.boot = { s.boot with pcieRefOk := true } ∧ t.stopped = s.stopped)
    ∧ (s.boot.powerGood = true → s.stopped = false →
      ∃ t, exec .drbgReseed s = .next t ∧ t.boot.reseeds = s.boot.reseeds + 1 ∧ t.boot.drbg = s.boot.drbg
        ∧ { t with boot := s.boot } = s)

/-- R573 to R576: an image starts exactly when it passes every check; its payload then stands in reserve part 0 and its header and
payload digest in measurements 3 and 4; one that fails leaves its error and the ROM at the mailbox; an update changes nothing that is in
force and advances the fused count only with COMMIT_SVN. -/
def Obligations.ImagesStartOnlyWhenTheyPass : Prop :=
  ∀ (s : State), s.boot.released = true → s.stopped = false →
    let starts := fun (t : State) (img : List Byte) (source : Nat) =>
      t.boot.stage = .loading ∧ t.boot.source = source ∧ t.boot.error = 0 ∧ t.boot.busy = false ∧ t.boot.svn = imgField img 12 1
        ∧ t.boot.fwVersion = imgField img 8 4 ∧ t.wireMax = imgField img 14 1
        ∧ t.boot.meas[2]? = (s.boot.meas[2]?).map (fun m => extendMeas m (Config.sha384 (img.take 256)))
        ∧ t.holds (t0Addr 0xF0 0) (imgPayload img)
    (∀ img : List Byte, imgError s.boot.svnFused img = 0 ↔
      imgFormOk img = true ∧ imgKeyOk img = true ∧ Config.edVerify ((img.drop 256).take 32) (img.take 256) ((img.drop 288).take 64) = true
        ∧ Config.mlVerify ((img.drop 352).take 1952) (img.take 256) ((img.drop 2304).take 3309) = true
        ∧ Config.sha384 (imgPayload img) = BitVec.ofNat 384 (imgField img 32 48) ∧ s.boot.svnFused ≤ imgField img 12 1)
    ∧ (∀ (found : Bool) (img : List Byte), s.boot.stage = .rom → s.boot.busy = false →
      ∃ t, exec (.bootImageChecked found img) s = .next t
        ∧ (found = true → imgError s.boot.svnFused img = 0 → starts t img 1)
        ∧ (found = true → imgError s.boot.svnFused img ≠ 0 → t.boot.stage = .mailbox ∧ t.boot.error = imgError s.boot.svnFused img)
        ∧ (found = false → t.boot.stage = .mailbox ∧ t.boot.error = 1))
    ∧ (∀ failed : List (Fin 384), s.boot.stage = .loading →
      ∃ t, exec (.firmwareInitDone failed) s = .next t ∧ t.boot.stage = .running ∧ t.answers = true ∧ t.t0.flips = []
        ∧ t.mem.ready = true ∧ ∀ c : Fin 384, t.trained c.val = !failed.contains c)
    ∧ (s.boot.stage = .mailbox → s.boot.busy = false →
      ∃ t, exec .mailboxLoad s = .next t ∧ t.boot.busy = true ∧ t.boot.stage = .mailbox)
    ∧ (∀ image : HostRead, s.boot.stage = .mailbox → s.boot.busy = true →
      ∃ t, exec (.mailboxImageChecked image) s = .next t ∧ t.boot.busy = false
        ∧ (s.hostImgError image = 0 → starts t (image.bytes.take s.boot.imgLen) 2)
        ∧ (s.hostImgError image ≠ 0 → t.boot.stage = .mailbox ∧ t.boot.error = s.hostImgError image))
    ∧ (s.boot.stage = .running → s.boot.busy = false →
      ∃ t, exec .firmwareUpdate s = .next t ∧ t.boot.busy = true ∧ t.boot.stage = .updating)
    ∧ (∀ (image : HostRead) (back : List Byte), s.boot.stage = .updating →
      ∃ t, exec (.firmwareUpdateDone image back) s = .next t ∧ t.boot.stage = .running ∧ t.boot.busy = false
        ∧ t.boot.fwVersion = s.boot.fwVersion ∧ t.boot.meas = s.boot.meas
        ∧ t.boot.error = (if s.hostImgError image ≠ 0 then s.hostImgError image
            else if imgError s.boot.svnFused back ≠ 0 then 10 else 0)
        ∧ t.boot.svnFused = if t.boot.error = 0 ∧ s.boot.commitSvn = true
            then max s.boot.svnFused (imgField (image.bytes.take s.boot.imgLen) 12 1) else s.boot.svnFused)

/-- R580, R583, R584: each request is answered with its response when it comes in its order, and with UnexpectedRequest otherwise;
nothing of the package but the responder, and the DRBG at a key exchange, changes. The codes and the order are the DMTF's (log 67). -/
def Obligations.SpdmAnswersInOrder : Prop :=
  ∀ (s : State), s.spdmUp = true →
    let tells := fun (t : State) (code : Nat) (rest : List Byte) =>
      t.out = s.out ++ [.doe (leBytes 1 code ++ Config.spdmBody code s.spdm.answered ++ rest)]
        ∧ { t with spdm := s.spdm, out := s.out, boot := { t.boot with drbg := s.boot.drbg } } = s
    let order := fun (c : Instr) (ok : Bool) (code : Nat) (rest : List Byte) (good : State → Prop) =>
      ∃ t, exec c s = .next t ∧ (ok = true → tells t code rest ∧ good t)
        ∧ (ok = false → tells t 0x7F [4#8] ∧ t.spdm = { s.spdm with answered := s.spdm.answered + 1 })
    let x := s.spdm
    let signs := fun (msg : List Byte) (t : State) => t.spdm.signed = some msg
    order .getVersion true 0x04 [] (fun t => t.spdm.version = true ∧ t.spdm.session = false ∧ t.spdm.algs = false)
    ∧ order .getCapabilities x.version 0x61 [] (fun t => t.spdm.caps = true)
    ∧ order .negotiateAlgorithms x.caps 0x63 [] (fun t => t.spdm.algs = true)
    ∧ order .getDigests x.algs 0x01 (leBytes 48 (Config.sha384 (Config.edChain s.aliasOf)).toNat) (fun _ => True)
    ∧ (∀ offset length : Nat, offset < (Config.edChain s.aliasOf).length →
        order (.getCertificate 0 offset length) x.algs 0x02 (((Config.edChain s.aliasOf).drop offset).take length) (fun _ => True))
    ∧ (∀ msg, order (.challenge msg) x.algs 0x03 (Config.edSign s.aliasOf msg) (signs msg))
    ∧ (∀ msg k m, 1 ≤ k → k ≤ 6 → s.boot.meas[k - 1]? = some m →
        order (.getMeasurements msg true k) x.algs 0x60 (leBytes 48 m.toNat ++ Config.edSign s.aliasOf msg) (signs msg))
    ∧ (∀ msg, order (.keyExchange msg) (x.algs && !x.session) 0x64 (Config.edSign s.aliasOf msg)
        (fun t => t.spdm.signed = some msg ∧ t.boot.drbg = s.boot.drbg + 1))
    ∧ order (.finish true) x.handshake 0x65 [] (fun t => t.spdm.session = true)
    ∧ order (.finish false) x.handshake 0x7F [6#8] (fun t => t.spdm.session = false)
    ∧ (∀ k, k = 1 ∨ k = 2 → order (.keyUpdate k) x.session 0x69 [] (fun t => t.spdm.keyUpdates = x.keyUpdates + 1))
    ∧ order .spdmHeartbeat x.session 0x68 [] (fun t => t.spdm.session = true)
    ∧ order .endSession x.session 0x6C [] (fun t => t.spdm.session = false ∧ t.spdm.ideKeys = [] ∧ t.spdm.ideActive = false)
    ∧ (∀ offset length : Nat, length ≤ 65536 →
        order (.getPqChain offset length) x.version 0x7E (((Config.mlChain s.aliasOf).drop offset).take length) (fun _ => True))
    ∧ (∀ msg, x.signed = some msg → order .getPqSignature true 0x7E
        (leBytes 48 (Config.sha384 msg).toNat ++ Config.mlSign s.aliasOf msg) (fun t => t.spdm.signed = some msg))
    ∧ (x.signed = none → order .getPqSignature false 0x7E [] (fun _ => True))
    ∧ (∀ key : List Byte, order (.ideKm true key) x.session 0x7E [] (fun t => t.spdm.ideKeys = x.ideKeys ++ [key])
        ∧ order (.ideKm false key) x.session 0x7E [] (fun t => t.spdm.ideActive = !x.ideKeys.isEmpty))

/-- R609, R622: ENTDAA and SETDASA give a target without one its dynamic address, RSTDAA takes it away; GETPID carries SLOT_ID in its
last three bits, and the other directed codes answer; a private write sets the pointer, and writes what stands there when its data is
a register's width, as the same register write by the I3C path. -/
def Obligations.I3cTargetAnswersAndWrites : Prop :=
  ∀ (s : State), s.boot.released = true →
    let told := fun (c : Instr) (bytes : List Byte) => ∃ t, exec c s = .next t ∧ t.out = s.out ++ [.i3c bytes]
      ∧ t.i3c.addr = s.i3c.addr ∧ { t with i3c := s.i3c, out := s.out } = s
    (∀ a : BitVec 7, s.i3c.addr = none →
      (∃ t, exec (.entdaa a) s = .next t ∧ t.i3c.addr = some a ∧ t.out = s.out ++ [.i3c (s.i3cPid ++ [Config.i3cBcr, Config.i3cDcr])])
      ∧ ∀ b : BitVec 7, ∃ t, exec (.setdasa b a) s = .next t
        ∧ t.i3c.addr = if b.toNat = 0x50 + s.boot.slotId then some a else none)
    ∧ (∃ t, exec .rstdaa s = .next t ∧ t.i3c.addr = none ∧ t.i3c.pointer = s.i3c.pointer)
    ∧ (s.i3c.addr ≠ none →
      told .getpid s.i3cPid ∧ (s.boot.slotId < 8 → ∃ b, s.i3cPid.getLast? = some b ∧ b.toNat % 8 = s.boot.slotId)
      ∧ told .getbcr [Config.i3cBcr] ∧ told .getdcr [Config.i3cDcr]
      ∧ (∃ bs, bs.length = 2 ∧ told .getstatus bs) ∧ (∃ bs, bs.length = 2 ∧ told .getmwl bs) ∧ (∃ bs, bs.length = 2 ∧ told .getmrl bs)
      ∧ (∀ bs : List Byte, bs.length < 4 → exec (.i3cPrivateWrite bs) s = .next s)
      ∧ ∀ (a : BitVec 32) (data : List Byte), data.length ≤ 8 →
        let t := { s with i3c := { s.i3c with pointer := a.toNat } }
        exec (.i3cPrivateWrite (leBytes 4 a.toNat ++ data)) s =
          if a.toNat < 2 ^ 20 ∧ data ≠ [] then exec (.registerWrite .i3c a.toNat (8 * data.length) (BitVec.ofNat 64 (ofLeBytes data))) t
          else .next t)

/-- R588, R590, R592, R600, R604: writing 1 to a bit of a set or clear register sets or clears that source's bit, unless the source is
locked; a 0 changes nothing; in Rest a write is ignored, and before the first RUNNING nothing answers; an input event that meets its
sense makes its source pending. -/
def Obligations.InterruptBitsAreSetAndCleared : Prop :=
  ∀ (s : State),
    (s.answers = true → s.inRest = false → ∀ (n : Fin 16) (v : BitVec 64),
      let hit := fun m : Nat => m / 64 = n.val ∧ Nat.testBit v.toNat (m % 64) = true ∧ isLocked (64 * n.val) = false
      (∃ t, exec (.icuEnSet n v) s = .next t ∧ t.icu.pend = s.icu.pend
        ∧ ∀ m, m < 1024 → (Nat.testBit t.icu.en m = true ↔ Nat.testBit s.icu.en m = true ∨ hit m))
      ∧ (∃ t, exec (.icuEnClr n v) s = .next t ∧ t.icu.pend = s.icu.pend
        ∧ ∀ m, m < 1024 → (Nat.testBit t.icu.en m = true ↔ Nat.testBit s.icu.en m = true ∧ ¬ hit m))
      ∧ (∃ t, exec (.icuPendSet n v) s = .next t ∧ t.icu.en = s.icu.en
        ∧ ∀ m, m < 1024 → (Nat.testBit t.icu.pend m = true ↔ Nat.testBit s.icu.pend m = true ∨ hit m))
      ∧ (∃ t, exec (.icuPendClr n v) s = .next t ∧ t.icu.en = s.icu.en
        ∧ ∀ m, m < 1024 → (Nat.testBit t.icu.pend m = true ↔ Nat.testBit s.icu.pend m = true ∧ ¬ hit m)))
    ∧ (s.answers = true → s.inRest = true → ∀ (n : Fin 16) (v : BitVec 64),
      let t := { s with icu := { s.icu with restSeen := true } }
      exec (.icuEnSet n v) s = .next t ∧ exec (.icuEnClr n v) s = .next t ∧ exec (.icuPendSet n v) s = .next t
        ∧ exec (.icuPendClr n v) s = .next t ∧ ∀ (m : Fin 1024) (w : BitVec 32), exec (.icuRouteWrite m w) s = .next t)
    ∧ (s.answers = false → ∀ (n : Fin 16) (v : BitVec 64), exec (.icuEnSet n v) s = .next s ∧ exec (.icuPendSet n v) s = .next s)
    ∧ (s.inRest = false → ∀ n : Fin 1024,
      (16 ≤ n.val ∧ n.val < 36) ∨ (512 ≤ n.val ∧ n.val < 896) → s.route n.val % 8 = 0 ∨ (2 ≤ s.route n.val % 8 ∧ s.route n.val % 8 ≤ 4) →
      ∃ t, exec (.icuInputEvent n) s = .next t ∧ t.icu.en = s.icu.en
        ∧ ∀ m, m < 1024 → (Nat.testBit t.icu.pend m = true ↔ Nat.testBit s.icu.pend m = true ∨ m = n.val))

/-- R593 to R596: a route is taken whole or not at all; a source that becomes active and is routed to a vector sends that vector's message
when the function's MSI-X is on and nothing masks it, and while a mask stands leaves it pending; with MSI-X off it is recorded; clearing
the mask sends what was pending. -/
def Obligations.ActiveSourcesAreDelivered : Prop :=
  ∀ (s : State),
    (s.answers = true → s.inRest = false → ∀ (n : Fin 1024) (v : BitVec 32),
      ∃ t, exec (.icuRouteWrite n v) s = .next t ∧ t.icu.en = s.icu.en ∧ t.icu.pend = s.icu.pend
        ∧ t.route n.val = (if isLocked n.val = false ∧ routeTaken (v.toNat % 2 ^ 31) = true then v.toNat % 2 ^ 31 else s.route n.val)
        ∧ ∀ m, m ≠ n.val → t.route m = s.route m)
    ∧ (s.inRest = false → ∀ n : Fin 1024, 512 ≤ n.val → n.val < 896 →
      s.route n.val % 8 = 2 → s.route n.val / 8 % 2 = 1 → Nat.testBit s.icu.en n.val = true → Nat.testBit s.icu.pend n.val = false →
      let f := s.route n.val / 128 % 32
      let v := s.route n.val / 4096 % 2048
      let e := spGet MsixEntry.reset (s.fn f).msix v
      ∃ t, exec (.icuInputEvent n) s = .next t ∧ Nat.testBit t.icu.active n.val = true
        ∧ ((s.fn f).msixEnable = true → (s.fn f).msixMask = false → e.mask = false → (.msix f v e.addr.toNat e.data.toNat) ∈ t.out)
        ∧ ((s.fn f).msixEnable = true → ((s.fn f).msixMask = true ∨ e.mask = true) →
            (spGet MsixEntry.reset (t.fn f).msix v).pending = true)
        ∧ ((s.fn f).msixEnable = false → t.icu.msixOff = true ∧ t.icu.offSource = n.val))
    ∧ (∀ (f : Fin 17) (v : Nat), v < (if f.val = 0 then 2048 else 128) →
      let e := spGet MsixEntry.reset (s.fn f.val).msix v
      ∃ t, exec (.msixMaskClear f (some v)) s = .next t ∧ (spGet MsixEntry.reset (t.fn f.val).msix v).mask = false
        ∧ (((s.fn f.val).msixEnable = true ∧ (s.fn f.val).msixMask = false ∧ e.pending = true) →
            t.out = s.out ++ [.msix f.val v e.addr.toNat e.data.toNat]
            ∧ (spGet MsixEntry.reset (t.fn f.val).msix v).pending = false))

/-- R379: STEP is written, and GO is set until the OPEN quoin's work begins; a STEP that is cleared while an opening waits begins that
opening. -/
def Obligations.SteppedAdmissionIsCommanded : Prop :=
  ∀ (s : State) (p : RegPath) (i : Fin 16), s.answers = true → p = .pf ∨ p = .vf i →
    (∀ on : Bool, ∃ t, exec (.reproStep p i on) s = .next t ∧ (t.imp i.val).step = on ∧ (∀ j, j ≠ i.val → t.imp j = s.imp j)
      ∧ t.cores = s.cores ∧ t.t0 = s.t0
      ∧ ((s.imp i.val).step = true → on = false → s.opensHere i.val = true → (t.imp i.val).serve.begun = true
          ∧ ((s.imp i.val).serve.begun = false → (t.imp i.val).go = false))
      ∧ (on = true → t = s.modImp i.val fun m => { m with step := true }))
    ∧ exec (.reproGo p i) s = .next (s.modImp i.val fun m => { m with go := true })
    ∧ (∀ (q : RegPath), q = .i3c ∨ (∃ j, j ≠ i ∧ q = .vf j) → exec (.reproGo q i) s = .next s)

/-- R12, R15, R603, R604, R607, R608: a register is one piece of storage by every path that reaches it; an access of another width, at
another place, of a read-only register, or before the registers answer, changes nothing. -/
def Obligations.RegisterWritesReachOneStorage : Prop :=
  ∀ (s : State) (v : BitVec 64),
    (s.answers = true → exec (.registerWrite .pf 0x10 64 v) s = .next { s with glb := { s.glb with scratch := v } })
    ∧ (s.answers = true → ∃ t, exec (.registerWrite .pf 0x10000 32 v) s = .next t ∧ t.poll = v.toNat % 2 ^ 16 ∧ { t with poll := s.poll } = s)
    ∧ (∀ i : Fin 16, s.answers = true →
      exec (.registerWrite (.vf i) 0x1000 64 v) s = exec (.registerWrite .pf (0x10100 + 32 * (i.val + 1)) 64 v) s
      ∧ ∃ t, exec (.registerWrite (.vf i) 0x1000 64 v) s = .next t
        ∧ (t.fn (i.val + 1)).tabBase.toNat = v.toNat / 4096 * 4096 ∧ ∀ f, f ≠ i.val + 1 → t.fn f = s.fn f)
    ∧ (∀ w : BitVec 64, exec (.registerWrite .i3c 0x40000 32 w) s = exec (.registerWrite .pf 0x40000 32 w) s)
    ∧ (∀ (p : RegPath) (off width : Nat) (r : Reg), p = .pf ∨ p = .i3c → regOn p off width true = some r →
      r ∈ [Reg.glbId, .glbStatus, .glbTime, .glbFatal, .clkStatus, .pwrStatus, .pwrVcore, .memStatus, .secBoot, .secFw, .secUid,
        .ednState, .ednNumbers] →
      off < 0xA0000 → exec (.registerWrite p off width v) s = .next s)
    ∧ (∀ (p : RegPath) (off width : Nat), p = .pf ∨ p = .i3c → off < 0xA0000 → regOn p off width true = none →
      exec (.registerWrite p off width v) s = .next s)
    ∧ (∀ (off width : Nat), s.boot.released = false → off < 0xA0000 → s.answers = false →
      exec (.registerWrite .pf off width v) s = .next s)
end

