-- ==== Sys2Proof/Laws/Sparse.lean ====
section
/-!
SUPPORT. Laws of sparse tables and byte memories: what a key reads after a change, that the canonical form is kept, and that a
range reads back what was written.
-/
namespace Sys2Proof.Machine

open Sys2Proof

/-! Reading a table. -/

@[simp] theorem spGet_nil {α : Type} (d : α) (k : Nat) : spGet d ([] : Sp α) k = d := rfl

theorem spGet_cons {α : Type} (d : α) (x : Nat × α) (m : Sp α) (k : Nat) :
    spGet d (x :: m) k = if x.1 = k then x.2 else spGet d m k := by
  obtain ⟨a, v⟩ := x; simp [spGet]

theorem spGet_spErase {α : Type} (d : α) (m : Sp α) (k j : Nat) :
    spGet d (spErase m k) j = if j = k then d else spGet d m j := by
  induction m with
  | nil => simp [spErase]
  | cons x m ih =>
    rw [spGet_cons]
    by_cases h : x.1 = k
    · have e : spErase (x :: m) k = spErase m k := by simp [spErase, h]
      rw [e, ih]; by_cases hj : j = k
      · simp [hj]
      · have : ¬ x.1 = j := by omega
        simp [hj, this]
    · have e : spErase (x :: m) k = x :: spErase m k := by simp [spErase, h]
      rw [e, spGet_cons, ih]
      by_cases hj : j = k
      · have : ¬ x.1 = j := by omega
        simp [hj, h]
      · simp [hj]

theorem spGet_spInsert {α : Type} (d v : α) (m : Sp α) (k j : Nat) (h : ∀ x ∈ m, x.1 ≠ k) :
    spGet d (spInsert k v m) j = if j = k then v else spGet d m j := by
  induction m with
  | nil => simp [spInsert, spGet_cons, eq_comm]
  | cons x m ih =>
    have hx : x.1 ≠ k := h x (by simp)
    have ih := ih fun y hy => h y (by simp [hy])
    unfold spInsert
    split
    · rw [spGet_cons]; simp [eq_comm]
    · rw [spGet_cons, ih, spGet_cons]
      by_cases hj : j = k
      · subst hj; simp [hx]
      · simp [hj]

theorem not_mem_spErase {α : Type} (m : Sp α) (k : Nat) : ∀ x ∈ spErase m k, x.1 ≠ k := by
  intro x hx
  simp only [spErase, List.mem_filter, bne_iff_ne] at hx
  exact hx.2

/-- A key that is set reads what was put there, and every other key what it read before. -/
theorem spGet_spPut {α : Type} [DecidableEq α] (d : α) (m : Sp α) (k j : Nat) (v : α) :
    spGet d (spPut d m k v) j = if j = k then v else spGet d m j := by
  unfold spPut
  split
  · rename_i h; rw [spGet_spErase, h]
  · rw [spGet_spInsert _ _ _ _ _ (not_mem_spErase m k), spGet_spErase]; split <;> simp_all

@[simp] theorem spGet_spPut_same {α : Type} [DecidableEq α] (d : α) (m : Sp α) (k : Nat) (v : α) :
    spGet d (spPut d m k v) k = v := by simp [spGet_spPut]

theorem spGet_spPut_ne {α : Type} [DecidableEq α] (d : α) (m : Sp α) (k j : Nat) (v : α) (h : j ≠ k) :
    spGet d (spPut d m k v) j = spGet d m j := by simp [spGet_spPut, h]

/-- A key that is changed reads the change of what it read before. -/
theorem spGet_spMod {α : Type} [DecidableEq α] (d : α) (m : Sp α) (k j : Nat) (f : α → α) :
    spGet d (spMod d m k f) j = if j = k then f (spGet d m k) else spGet d m j := by
  simp [spMod, spGet_spPut]

@[simp] theorem spGet_spMod_same {α : Type} [DecidableEq α] (d : α) (m : Sp α) (k : Nat) (f : α → α) :
    spGet d (spMod d m k f) k = f (spGet d m k) := by simp [spGet_spMod]

theorem spGet_spMod_ne {α : Type} [DecidableEq α] (d : α) (m : Sp α) (k j : Nat) (f : α → α) (h : j ≠ k) :
    spGet d (spMod d m k f) j = spGet d m j := by simp [spGet_spMod, h]

/-! The canonical form, said with lists of Mathlib. -/

theorem spSorted_iff {α : Type} (m : Sp α) : spSorted m = true ↔ m.Pairwise fun x y => x.1 < y.1 := by
  induction m with
  | nil => simp [spSorted]
  | cons x m ih =>
    cases m with
    | nil => simp [spSorted]
    | cons y m =>
      simp only [spSorted, Bool.and_eq_true, decide_eq_true_eq, ih]
      constructor
      · rintro ⟨h, hp⟩
        refine List.Pairwise.cons ?_ hp
        intro z hz
        rcases List.mem_cons.1 hz with rfl | hz
        · exact h
        · exact Nat.lt_trans h ((List.pairwise_cons.1 hp).1 z hz)
      · intro h
        exact ⟨(List.pairwise_cons.1 h).1 y (by simp), (List.pairwise_cons.1 h).2⟩

theorem spWf_iff {α : Type} [DecidableEq α] (d : α) (m : Sp α) :
    spWf d m = true ↔ (m.Pairwise fun x y => x.1 < y.1) ∧ ∀ x ∈ m, x.2 ≠ d := by
  simp only [spWf, Bool.and_eq_true, spSorted_iff, List.all_eq_true, decide_eq_true_eq]

@[simp] theorem spWf_nil {α : Type} [DecidableEq α] (d : α) : spWf d ([] : Sp α) = true := rfl

theorem mem_spInsert {α : Type} (k : Nat) (v : α) (m : Sp α) (y : Nat × α) : y ∈ spInsert k v m ↔ y = (k, v) ∨ y ∈ m := by
  induction m with
  | nil => simp [spInsert]
  | cons x m ih =>
    unfold spInsert
    split
    · simp
    · simp only [List.mem_cons, ih]; tauto

theorem pairwise_spInsert {α : Type} (k : Nat) (v : α) (m : Sp α) (h : m.Pairwise fun x y => x.1 < y.1)
    (hk : ∀ x ∈ m, x.1 ≠ k) : (spInsert k v m).Pairwise fun x y => x.1 < y.1 := by
  induction m with
  | nil => simp [spInsert]
  | cons x m ih =>
    have hp := List.pairwise_cons.1 h
    unfold spInsert
    split
    · rename_i hlt
      refine List.Pairwise.cons ?_ h
      intro y hy
      rcases List.mem_cons.1 hy with rfl | hy
      · exact hlt
      · exact Nat.lt_trans hlt (hp.1 y hy)
    · rename_i hge
      have hne := hk x (by simp)
      refine List.Pairwise.cons ?_ (ih hp.2 fun y hy => hk y (by simp [hy]))
      intro y hy
      rcases (mem_spInsert k v m y).1 hy with rfl | hy
      · simp only; omega
      · exact hp.1 y hy

theorem spWf_spErase {α : Type} [DecidableEq α] (d : α) (m : Sp α) (k : Nat) (h : spWf d m = true) :
    spWf d (spErase m k) = true := by
  rw [spWf_iff] at *
  refine ⟨List.Pairwise.filter _ h.1, fun x hx => h.2 x ?_⟩
  simp only [spErase, List.mem_filter] at hx
  exact hx.1

/-- Setting a key keeps the canonical form. -/
theorem spWf_spPut {α : Type} [DecidableEq α] (d : α) (m : Sp α) (k : Nat) (v : α) (h : spWf d m = true) :
    spWf d (spPut d m k v) = true := by
  have he := spWf_spErase d m k h
  unfold spPut
  split
  · exact he
  · rename_i hv
    rw [spWf_iff] at *
    refine ⟨pairwise_spInsert k v _ he.1 (not_mem_spErase m k), ?_⟩
    intro x hx
    rcases (mem_spInsert k v _ x).1 hx with rfl | hx
    · exact hv
    · exact he.2 x hx

/-- Changing a key keeps the canonical form. -/
theorem spWf_spMod {α : Type} [DecidableEq α] (d : α) (m : Sp α) (k : Nat) (f : α → α) (h : spWf d m = true) :
    spWf d (spMod d m k f) = true := spWf_spPut d m k _ h

/-! Byte memories. -/

@[simp] theorem memRead_length (m : Sp Byte) (a n : Nat) : (memRead m a n).length = n := by simp [memRead]

theorem spGet_filter {α : Type} (d : α) (m : Sp α) (p : Nat → Bool) (k : Nat) :
    spGet d (m.filter fun x => p x.1) k = if p k then spGet d m k else d := by
  induction m with
  | nil => simp
  | cons x m ih =>
    by_cases h : p x.1
    · rw [List.filter_cons_of_pos (by simpa using h), spGet_cons, spGet_cons, ih]
      by_cases hx : x.1 = k
      · subst hx; simp [h]
      · simp [hx]
    · rw [List.filter_cons_of_neg (by simpa using h), spGet_cons, ih]
      by_cases hx : x.1 = k
      · subst hx; simp [h]
      · simp [hx]

theorem spGet_append {α : Type} (d : α) (m n : Sp α) (k : Nat) (h : ∀ x ∈ m, x.1 ≠ k) : spGet d (m ++ n) k = spGet d n k := by
  induction m with
  | nil => rfl
  | cons x m ih =>
    rw [List.cons_append, spGet_cons, if_neg (h x (by simp)), ih fun y hy => h y (by simp [hy])]

theorem spGet_append_right {α : Type} (d : α) (m n : Sp α) (k : Nat) (h : ∀ x ∈ n, x.1 ≠ k) : spGet d (m ++ n) k = spGet d m k := by
  induction m with
  | nil =>
    rw [List.nil_append]
    have := spGet_append d n [] k h
    simpa using this
  | cons x m ih => rw [List.cons_append, spGet_cons, spGet_cons, ih]

theorem cellsFrom_key (a : Nat) (bs : List Byte) : ∀ x ∈ cellsFrom a bs, a ≤ x.1 ∧ x.1 < a + bs.length := by
  induction bs generalizing a with
  | nil => simp [cellsFrom]
  | cons b bs ih =>
    intro x hx
    unfold cellsFrom at hx
    simp only [List.length_cons]
    split at hx
    · have := ih (a + 1) x hx; omega
    · rcases List.mem_cons.1 hx with rfl | hx
      · simp
      · have := ih (a + 1) x hx; omega

theorem spGet_cellsFrom (a : Nat) (bs : List Byte) (k : Nat) :
    spGet 0#8 (cellsFrom a bs) k = if a ≤ k then bs.getD (k - a) 0#8 else 0#8 := by
  induction bs generalizing a with
  | nil => simp [cellsFrom]
  | cons b bs ih =>
    unfold cellsFrom
    by_cases hb : b = 0#8
    · rw [if_pos hb, ih (a + 1)]
      by_cases hk : k = a
      · subst hk; simp [hb]
      · by_cases hle : a ≤ k
        · have h1 : a + 1 ≤ k := by omega
          have h2 : k - a = (k - (a + 1)) + 1 := by omega
          simp [hle, h1, h2]
        · have h1 : ¬ a + 1 ≤ k := by omega
          simp [hle, h1]
    · rw [if_neg hb, spGet_cons, ih (a + 1)]
      by_cases hk : k = a
      · subst hk; simp
      · by_cases hle : a ≤ k
        · have h1 : a + 1 ≤ k := by omega
          have h2 : k - a = (k - (a + 1)) + 1 := by omega
          have h3 : ¬ a = k := by omega
          simp [hle, h1, h2, h3]
        · have h1 : ¬ a + 1 ≤ k := by omega
          have h3 : ¬ a = k := by omega
          simp [hle, h1, h3]

/-- A byte reads what was last written there: the bytes written in their range, outside it what it read before. -/
theorem spGet_memWrite (m : Sp Byte) (a : Nat) (bs : List Byte) (k : Nat) :
    spGet 0#8 (memWrite m a bs) k = if a ≤ k ∧ k < a + bs.length then bs.getD (k - a) 0#8 else spGet 0#8 m k := by
  unfold memWrite
  rw [List.append_assoc]
  by_cases h1 : k < a
  · have hc : ∀ x ∈ cellsFrom a bs ++ m.filter (fun x => decide (a + bs.length ≤ x.1)), x.1 ≠ k := by
      intro x hx
      rcases List.mem_append.1 hx with hx | hx
      · have := cellsFrom_key a bs x hx; omega
      · simp only [List.mem_filter, decide_eq_true_eq] at hx; omega
    rw [spGet_append_right _ _ _ _ hc, spGet_filter 0#8 m (fun x => decide (x < a)) k]
    have h2 : ¬ a ≤ k := by omega
    simp [h1, h2]
  · rw [spGet_append]
    · by_cases h2 : k < a + bs.length
      · rw [spGet_append_right, spGet_cellsFrom]
        · have h3 : a ≤ k := by omega
          simp [h2, h3]
        · intro x hx
          simp only [List.mem_filter, decide_eq_true_eq] at hx; omega
      · rw [spGet_append, spGet_filter 0#8 m (fun x => decide (a + bs.length ≤ x)) k]
        · have h3 : a + bs.length ≤ k := by omega
          simp [h2, h3]
        · intro x hx
          have := cellsFrom_key a bs x hx; omega
    · intro x hx
      simp only [List.mem_filter, decide_eq_true_eq] at hx; omega

/-- A byte of a range read. -/
theorem getD_memRead (m : Sp Byte) (a n i : Nat) (h : i < n) : (memRead m a n).getD i 0#8 = spGet 0#8 m (a + i) := by
  unfold memRead
  simp only [List.getD_eq_getElem?_getD, List.getElem?_map, List.getElem?_range h, Option.map_some, Option.getD_some]
  rw [spGet_filter 0#8 m (fun x => decide (a ≤ x) && decide (x < a + n)) (a + i)]
  have h1 : a + i < a + n := by omega
  simp [h1]

/-- A range reads the bytes that its addresses read. -/
theorem memRead_eq_map (m : Sp Byte) (a n : Nat) : memRead m a n = (List.range n).map fun i => spGet 0#8 m (a + i) := by
  refine List.ext_getElem (by simp) fun i h1 h2 => ?_
  have := getD_memRead m a n i (by simpa using h1)
  rw [List.getD_eq_getElem _ _ h1] at this
  simpa using this

/-- Two memories that agree on a range read the same there. -/
theorem memRead_congr (m m' : Sp Byte) (a n : Nat) (h : ∀ i, i < n → spGet 0#8 m (a + i) = spGet 0#8 m' (a + i)) :
    memRead m a n = memRead m' a n := by
  rw [memRead_eq_map, memRead_eq_map]
  exact List.map_congr_left fun i hi => h i (by simpa using hi)

/-- A range reads back what was written to it. -/
theorem memRead_memWrite (m : Sp Byte) (a : Nat) (bs : List Byte) : memRead (memWrite m a bs) a bs.length = bs := by
  rw [memRead_eq_map]
  refine List.ext_getElem (by simp) fun i h1 h2 => ?_
  simp [spGet_memWrite, h2]

/-- A write leaves a range apart from it as it was. -/
theorem memRead_memWrite_apart (m : Sp Byte) (a b n : Nat) (bs : List Byte) (h : b + n ≤ a ∨ a + bs.length ≤ b) :
    memRead (memWrite m a bs) b n = memRead m b n := by
  refine memRead_congr _ _ _ _ fun i hi => ?_
  rw [spGet_memWrite, if_neg]
  omega

theorem pairwise_cellsFrom (a : Nat) (bs : List Byte) : (cellsFrom a bs).Pairwise fun x y => x.1 < y.1 := by
  induction bs generalizing a with
  | nil => simp [cellsFrom]
  | cons b bs ih =>
    unfold cellsFrom
    split
    · exact ih (a + 1)
    · refine List.Pairwise.cons (fun y hy => ?_) (ih (a + 1))
      have := cellsFrom_key (a + 1) bs y hy
      simp only; omega

theorem cellsFrom_ne_zero (a : Nat) (bs : List Byte) : ∀ x ∈ cellsFrom a bs, x.2 ≠ 0#8 := by
  induction bs generalizing a with
  | nil => simp [cellsFrom]
  | cons b bs ih =>
    intro x hx
    unfold cellsFrom at hx
    split at hx
    · exact ih (a + 1) x hx
    · rename_i hb
      rcases List.mem_cons.1 hx with rfl | hx
      · exact hb
      · exact ih (a + 1) x hx

/-- A write keeps the canonical form. -/
theorem spWf_memWrite (m : Sp Byte) (a : Nat) (bs : List Byte) (h : spWf 0#8 m = true) : spWf 0#8 (memWrite m a bs) = true := by
  rw [spWf_iff] at *
  unfold memWrite
  refine ⟨?_, ?_⟩
  · rw [List.append_assoc, List.pairwise_append, List.pairwise_append]
    refine ⟨List.Pairwise.filter _ h.1, ⟨pairwise_cellsFrom a bs, List.Pairwise.filter _ h.1, ?_⟩, ?_⟩
    · intro x hx y hy
      have := cellsFrom_key a bs x hx
      simp only [List.mem_filter, decide_eq_true_eq] at hy
      omega
    · intro x hx y hy
      simp only [List.mem_filter, decide_eq_true_eq] at hx
      rcases List.mem_append.1 hy with hy | hy
      · have := cellsFrom_key a bs y hy; omega
      · simp only [List.mem_filter, decide_eq_true_eq] at hy; omega
  · intro x hx
    rcases List.mem_append.1 hx with hx | hx
    · rcases List.mem_append.1 hx with hx | hx
      · exact h.2 x (List.mem_filter.1 hx).1
      · exact cellsFrom_ne_zero a bs x hx
    · exact h.2 x (List.mem_filter.1 hx).1

end Sys2Proof.Machine
end

