-- ==== Sys2Proof/Laws/State.lean ====
section
/-!
SUPPORT. What each plain update of State leaves as it was, field by field, and what it changes.
-/
namespace Sys2Proof.Machine

open Sys2Proof

/-! `State.modCore` -/

@[simp] theorem State.modCore_pending (s : State) (c : Nat) (f : Core → Core) : (s.modCore c f).pending = s.pending := rfl
@[simp] theorem State.modCore_cycle (s : State) (c : Nat) (f : Core → Core) : (s.modCore c f).cycle = s.cycle := rfl
@[simp] theorem State.modCore_draws (s : State) (c : Nat) (f : Core → Core) : (s.modCore c f).draws = s.draws := rfl
@[simp] theorem State.modCore_t0 (s : State) (c : Nat) (f : Core → Core) : (s.modCore c f).t0 = s.t0 := rfl
@[simp] theorem State.modCore_t1 (s : State) (c : Nat) (f : Core → Core) : (s.modCore c f).t1 = s.t1 := rfl
@[simp] theorem State.modCore_imprints (s : State) (c : Nat) (f : Core → Core) : (s.modCore c f).imprints = s.imprints := rfl
@[simp] theorem State.modCore_fns (s : State) (c : Nat) (f : Core → Core) : (s.modCore c f).fns = s.fns := rfl
@[simp] theorem State.modCore_ed (s : State) (c : Nat) (f : Core → Core) : (s.modCore c f).ed = s.ed := rfl
@[simp] theorem State.modCore_reports (s : State) (c : Nat) (f : Core → Core) : (s.modCore c f).reports = s.reports := rfl
@[simp] theorem State.modCore_stopped (s : State) (c : Nat) (f : Core → Core) : (s.modCore c f).stopped = s.stopped := rfl
@[simp] theorem State.modCore_degraded (s : State) (c : Nat) (f : Core → Core) : (s.modCore c f).degraded = s.degraded := rfl
@[simp] theorem State.modCore_poll (s : State) (c : Nat) (f : Core → Core) : (s.modCore c f).poll = s.poll := rfl
@[simp] theorem State.modCore_ports (s : State) (c : Nat) (f : Core → Core) : (s.modCore c f).ports = s.ports := rfl
@[simp] theorem State.modCore_fab (s : State) (c : Nat) (f : Core → Core) : (s.modCore c f).fab = s.fab := rfl
@[simp] theorem State.modCore_wireMax (s : State) (c : Nat) (f : Core → Core) : (s.modCore c f).wireMax = s.wireMax := rfl
@[simp] theorem State.modCore_wireMin (s : State) (c : Nat) (f : Core → Core) : (s.modCore c f).wireMin = s.wireMin := rfl
@[simp] theorem State.modCore_causes (s : State) (c : Nat) (f : Core → Core) : (s.modCore c f).causes = s.causes := rfl
@[simp] theorem State.modCore_power (s : State) (c : Nat) (f : Core → Core) : (s.modCore c f).power = s.power := rfl
@[simp] theorem State.modCore_boot (s : State) (c : Nat) (f : Core → Core) : (s.modCore c f).boot = s.boot := rfl
@[simp] theorem State.modCore_spdm (s : State) (c : Nat) (f : Core → Core) : (s.modCore c f).spdm = s.spdm := rfl
@[simp] theorem State.modCore_i3c (s : State) (c : Nat) (f : Core → Core) : (s.modCore c f).i3c = s.i3c := rfl
@[simp] theorem State.modCore_icu (s : State) (c : Nat) (f : Core → Core) : (s.modCore c f).icu = s.icu := rfl
@[simp] theorem State.modCore_glb (s : State) (c : Nat) (f : Core → Core) : (s.modCore c f).glb = s.glb := rfl
@[simp] theorem State.modCore_mem (s : State) (c : Nat) (f : Core → Core) : (s.modCore c f).mem = s.mem := rfl
@[simp] theorem State.modCore_coreFaults (s : State) (c : Nat) (f : Core → Core) : (s.modCore c f).coreFaults = s.coreFaults := rfl
@[simp] theorem State.modCore_lostCores (s : State) (c : Nat) (f : Core → Core) : (s.modCore c f).lostCores = s.lostCores := rfl
@[simp] theorem State.modCore_out (s : State) (c : Nat) (f : Core → Core) : (s.modCore c f).out = s.out := rfl
@[simp] theorem State.modCore_imp (s : State) (c : Nat) (f : Core → Core) (i' : Nat) : (s.modCore c f).imp i' = s.imp i' := rfl
@[simp] theorem State.modCore_fn (s : State) (c : Nat) (f : Core → Core) (k' : Nat) : (s.modCore c f).fn k' = s.fn k' := rfl
@[simp] theorem State.modCore_ch (s : State) (c : Nat) (f : Core → Core) (c' : Nat) : (s.modCore c f).ch c' = s.ch c' := rfl
@[simp] theorem State.modCore_port (s : State) (c : Nat) (f : Core → Core) (p' : Nat) : (s.modCore c f).port p' = s.port p' := rfl
@[simp] theorem State.modCore_byteAt (s : State) (c : Nat) (f : Core → Core) (a : Nat) : (s.modCore c f).byteAt a = s.byteAt a := rfl
@[simp] theorem State.modCore_cfg (s : State) (c : Nat) (f : Core → Core) (i' : Nat) : (s.modCore c f).cfg i' = s.cfg i' := rfl

/-! `State.modImp` -/

@[simp] theorem State.modImp_pending (s : State) (i : Nat) (f : Imprint → Imprint) : (s.modImp i f).pending = s.pending := rfl
@[simp] theorem State.modImp_cycle (s : State) (i : Nat) (f : Imprint → Imprint) : (s.modImp i f).cycle = s.cycle := rfl
@[simp] theorem State.modImp_draws (s : State) (i : Nat) (f : Imprint → Imprint) : (s.modImp i f).draws = s.draws := rfl
@[simp] theorem State.modImp_t0 (s : State) (i : Nat) (f : Imprint → Imprint) : (s.modImp i f).t0 = s.t0 := rfl
@[simp] theorem State.modImp_t1 (s : State) (i : Nat) (f : Imprint → Imprint) : (s.modImp i f).t1 = s.t1 := rfl
@[simp] theorem State.modImp_cores (s : State) (i : Nat) (f : Imprint → Imprint) : (s.modImp i f).cores = s.cores := rfl
@[simp] theorem State.modImp_fns (s : State) (i : Nat) (f : Imprint → Imprint) : (s.modImp i f).fns = s.fns := rfl
@[simp] theorem State.modImp_ed (s : State) (i : Nat) (f : Imprint → Imprint) : (s.modImp i f).ed = s.ed := rfl
@[simp] theorem State.modImp_reports (s : State) (i : Nat) (f : Imprint → Imprint) : (s.modImp i f).reports = s.reports := rfl
@[simp] theorem State.modImp_stopped (s : State) (i : Nat) (f : Imprint → Imprint) : (s.modImp i f).stopped = s.stopped := rfl
@[simp] theorem State.modImp_degraded (s : State) (i : Nat) (f : Imprint → Imprint) : (s.modImp i f).degraded = s.degraded := rfl
@[simp] theorem State.modImp_poll (s : State) (i : Nat) (f : Imprint → Imprint) : (s.modImp i f).poll = s.poll := rfl
@[simp] theorem State.modImp_ports (s : State) (i : Nat) (f : Imprint → Imprint) : (s.modImp i f).ports = s.ports := rfl
@[simp] theorem State.modImp_fab (s : State) (i : Nat) (f : Imprint → Imprint) : (s.modImp i f).fab = s.fab := rfl
@[simp] theorem State.modImp_wireMax (s : State) (i : Nat) (f : Imprint → Imprint) : (s.modImp i f).wireMax = s.wireMax := rfl
@[simp] theorem State.modImp_wireMin (s : State) (i : Nat) (f : Imprint → Imprint) : (s.modImp i f).wireMin = s.wireMin := rfl
@[simp] theorem State.modImp_causes (s : State) (i : Nat) (f : Imprint → Imprint) : (s.modImp i f).causes = s.causes := rfl
@[simp] theorem State.modImp_power (s : State) (i : Nat) (f : Imprint → Imprint) : (s.modImp i f).power = s.power := rfl
@[simp] theorem State.modImp_boot (s : State) (i : Nat) (f : Imprint → Imprint) : (s.modImp i f).boot = s.boot := rfl
@[simp] theorem State.modImp_spdm (s : State) (i : Nat) (f : Imprint → Imprint) : (s.modImp i f).spdm = s.spdm := rfl
@[simp] theorem State.modImp_i3c (s : State) (i : Nat) (f : Imprint → Imprint) : (s.modImp i f).i3c = s.i3c := rfl
@[simp] theorem State.modImp_icu (s : State) (i : Nat) (f : Imprint → Imprint) : (s.modImp i f).icu = s.icu := rfl
@[simp] theorem State.modImp_glb (s : State) (i : Nat) (f : Imprint → Imprint) : (s.modImp i f).glb = s.glb := rfl
@[simp] theorem State.modImp_mem (s : State) (i : Nat) (f : Imprint → Imprint) : (s.modImp i f).mem = s.mem := rfl
@[simp] theorem State.modImp_coreFaults (s : State) (i : Nat) (f : Imprint → Imprint) : (s.modImp i f).coreFaults = s.coreFaults := rfl
@[simp] theorem State.modImp_lostCores (s : State) (i : Nat) (f : Imprint → Imprint) : (s.modImp i f).lostCores = s.lostCores := rfl
@[simp] theorem State.modImp_out (s : State) (i : Nat) (f : Imprint → Imprint) : (s.modImp i f).out = s.out := rfl
@[simp] theorem State.modImp_core (s : State) (i : Nat) (f : Imprint → Imprint) (c' : Nat) : (s.modImp i f).core c' = s.core c' := rfl
@[simp] theorem State.modImp_fn (s : State) (i : Nat) (f : Imprint → Imprint) (k' : Nat) : (s.modImp i f).fn k' = s.fn k' := rfl
@[simp] theorem State.modImp_ch (s : State) (i : Nat) (f : Imprint → Imprint) (c' : Nat) : (s.modImp i f).ch c' = s.ch c' := rfl
@[simp] theorem State.modImp_port (s : State) (i : Nat) (f : Imprint → Imprint) (p' : Nat) : (s.modImp i f).port p' = s.port p' := rfl
@[simp] theorem State.modImp_byteAt (s : State) (i : Nat) (f : Imprint → Imprint) (a : Nat) : (s.modImp i f).byteAt a = s.byteAt a := rfl

/-! `State.modRun` -/

@[simp] theorem State.modRun_pending (s : State) (i : Nat) (f : Run → Run) : (s.modRun i f).pending = s.pending := rfl
@[simp] theorem State.modRun_cycle (s : State) (i : Nat) (f : Run → Run) : (s.modRun i f).cycle = s.cycle := rfl
@[simp] theorem State.modRun_draws (s : State) (i : Nat) (f : Run → Run) : (s.modRun i f).draws = s.draws := rfl
@[simp] theorem State.modRun_t0 (s : State) (i : Nat) (f : Run → Run) : (s.modRun i f).t0 = s.t0 := rfl
@[simp] theorem State.modRun_t1 (s : State) (i : Nat) (f : Run → Run) : (s.modRun i f).t1 = s.t1 := rfl
@[simp] theorem State.modRun_cores (s : State) (i : Nat) (f : Run → Run) : (s.modRun i f).cores = s.cores := rfl
@[simp] theorem State.modRun_fns (s : State) (i : Nat) (f : Run → Run) : (s.modRun i f).fns = s.fns := rfl
@[simp] theorem State.modRun_ed (s : State) (i : Nat) (f : Run → Run) : (s.modRun i f).ed = s.ed := rfl
@[simp] theorem State.modRun_reports (s : State) (i : Nat) (f : Run → Run) : (s.modRun i f).reports = s.reports := rfl
@[simp] theorem State.modRun_stopped (s : State) (i : Nat) (f : Run → Run) : (s.modRun i f).stopped = s.stopped := rfl
@[simp] theorem State.modRun_degraded (s : State) (i : Nat) (f : Run → Run) : (s.modRun i f).degraded = s.degraded := rfl
@[simp] theorem State.modRun_poll (s : State) (i : Nat) (f : Run → Run) : (s.modRun i f).poll = s.poll := rfl
@[simp] theorem State.modRun_ports (s : State) (i : Nat) (f : Run → Run) : (s.modRun i f).ports = s.ports := rfl
@[simp] theorem State.modRun_fab (s : State) (i : Nat) (f : Run → Run) : (s.modRun i f).fab = s.fab := rfl
@[simp] theorem State.modRun_wireMax (s : State) (i : Nat) (f : Run → Run) : (s.modRun i f).wireMax = s.wireMax := rfl
@[simp] theorem State.modRun_wireMin (s : State) (i : Nat) (f : Run → Run) : (s.modRun i f).wireMin = s.wireMin := rfl
@[simp] theorem State.modRun_causes (s : State) (i : Nat) (f : Run → Run) : (s.modRun i f).causes = s.causes := rfl
@[simp] theorem State.modRun_power (s : State) (i : Nat) (f : Run → Run) : (s.modRun i f).power = s.power := rfl
@[simp] theorem State.modRun_boot (s : State) (i : Nat) (f : Run → Run) : (s.modRun i f).boot = s.boot := rfl
@[simp] theorem State.modRun_spdm (s : State) (i : Nat) (f : Run → Run) : (s.modRun i f).spdm = s.spdm := rfl
@[simp] theorem State.modRun_i3c (s : State) (i : Nat) (f : Run → Run) : (s.modRun i f).i3c = s.i3c := rfl
@[simp] theorem State.modRun_icu (s : State) (i : Nat) (f : Run → Run) : (s.modRun i f).icu = s.icu := rfl
@[simp] theorem State.modRun_glb (s : State) (i : Nat) (f : Run → Run) : (s.modRun i f).glb = s.glb := rfl
@[simp] theorem State.modRun_mem (s : State) (i : Nat) (f : Run → Run) : (s.modRun i f).mem = s.mem := rfl
@[simp] theorem State.modRun_coreFaults (s : State) (i : Nat) (f : Run → Run) : (s.modRun i f).coreFaults = s.coreFaults := rfl
@[simp] theorem State.modRun_lostCores (s : State) (i : Nat) (f : Run → Run) : (s.modRun i f).lostCores = s.lostCores := rfl
@[simp] theorem State.modRun_out (s : State) (i : Nat) (f : Run → Run) : (s.modRun i f).out = s.out := rfl
@[simp] theorem State.modRun_core (s : State) (i : Nat) (f : Run → Run) (c' : Nat) : (s.modRun i f).core c' = s.core c' := rfl
@[simp] theorem State.modRun_fn (s : State) (i : Nat) (f : Run → Run) (k' : Nat) : (s.modRun i f).fn k' = s.fn k' := rfl
@[simp] theorem State.modRun_ch (s : State) (i : Nat) (f : Run → Run) (c' : Nat) : (s.modRun i f).ch c' = s.ch c' := rfl
@[simp] theorem State.modRun_port (s : State) (i : Nat) (f : Run → Run) (p' : Nat) : (s.modRun i f).port p' = s.port p' := rfl
@[simp] theorem State.modRun_byteAt (s : State) (i : Nat) (f : Run → Run) (a : Nat) : (s.modRun i f).byteAt a = s.byteAt a := rfl

/-! `State.modServe` -/

@[simp] theorem State.modServe_pending (s : State) (i : Nat) (f : Serve → Serve) : (s.modServe i f).pending = s.pending := rfl
@[simp] theorem State.modServe_cycle (s : State) (i : Nat) (f : Serve → Serve) : (s.modServe i f).cycle = s.cycle := rfl
@[simp] theorem State.modServe_draws (s : State) (i : Nat) (f : Serve → Serve) : (s.modServe i f).draws = s.draws := rfl
@[simp] theorem State.modServe_t0 (s : State) (i : Nat) (f : Serve → Serve) : (s.modServe i f).t0 = s.t0 := rfl
@[simp] theorem State.modServe_t1 (s : State) (i : Nat) (f : Serve → Serve) : (s.modServe i f).t1 = s.t1 := rfl
@[simp] theorem State.modServe_cores (s : State) (i : Nat) (f : Serve → Serve) : (s.modServe i f).cores = s.cores := rfl
@[simp] theorem State.modServe_fns (s : State) (i : Nat) (f : Serve → Serve) : (s.modServe i f).fns = s.fns := rfl
@[simp] theorem State.modServe_ed (s : State) (i : Nat) (f : Serve → Serve) : (s.modServe i f).ed = s.ed := rfl
@[simp] theorem State.modServe_reports (s : State) (i : Nat) (f : Serve → Serve) : (s.modServe i f).reports = s.reports := rfl
@[simp] theorem State.modServe_stopped (s : State) (i : Nat) (f : Serve → Serve) : (s.modServe i f).stopped = s.stopped := rfl
@[simp] theorem State.modServe_degraded (s : State) (i : Nat) (f : Serve → Serve) : (s.modServe i f).degraded = s.degraded := rfl
@[simp] theorem State.modServe_poll (s : State) (i : Nat) (f : Serve → Serve) : (s.modServe i f).poll = s.poll := rfl
@[simp] theorem State.modServe_ports (s : State) (i : Nat) (f : Serve → Serve) : (s.modServe i f).ports = s.ports := rfl
@[simp] theorem State.modServe_fab (s : State) (i : Nat) (f : Serve → Serve) : (s.modServe i f).fab = s.fab := rfl
@[simp] theorem State.modServe_wireMax (s : State) (i : Nat) (f : Serve → Serve) : (s.modServe i f).wireMax = s.wireMax := rfl
@[simp] theorem State.modServe_wireMin (s : State) (i : Nat) (f : Serve → Serve) : (s.modServe i f).wireMin = s.wireMin := rfl
@[simp] theorem State.modServe_causes (s : State) (i : Nat) (f : Serve → Serve) : (s.modServe i f).causes = s.causes := rfl
@[simp] theorem State.modServe_power (s : State) (i : Nat) (f : Serve → Serve) : (s.modServe i f).power = s.power := rfl
@[simp] theorem State.modServe_boot (s : State) (i : Nat) (f : Serve → Serve) : (s.modServe i f).boot = s.boot := rfl
@[simp] theorem State.modServe_spdm (s : State) (i : Nat) (f : Serve → Serve) : (s.modServe i f).spdm = s.spdm := rfl
@[simp] theorem State.modServe_i3c (s : State) (i : Nat) (f : Serve → Serve) : (s.modServe i f).i3c = s.i3c := rfl
@[simp] theorem State.modServe_icu (s : State) (i : Nat) (f : Serve → Serve) : (s.modServe i f).icu = s.icu := rfl
@[simp] theorem State.modServe_glb (s : State) (i : Nat) (f : Serve → Serve) : (s.modServe i f).glb = s.glb := rfl
@[simp] theorem State.modServe_mem (s : State) (i : Nat) (f : Serve → Serve) : (s.modServe i f).mem = s.mem := rfl
@[simp] theorem State.modServe_coreFaults (s : State) (i : Nat) (f : Serve → Serve) : (s.modServe i f).coreFaults = s.coreFaults := rfl
@[simp] theorem State.modServe_lostCores (s : State) (i : Nat) (f : Serve → Serve) : (s.modServe i f).lostCores = s.lostCores := rfl
@[simp] theorem State.modServe_out (s : State) (i : Nat) (f : Serve → Serve) : (s.modServe i f).out = s.out := rfl
@[simp] theorem State.modServe_core (s : State) (i : Nat) (f : Serve → Serve) (c' : Nat) : (s.modServe i f).core c' = s.core c' := rfl
@[simp] theorem State.modServe_fn (s : State) (i : Nat) (f : Serve → Serve) (k' : Nat) : (s.modServe i f).fn k' = s.fn k' := rfl
@[simp] theorem State.modServe_ch (s : State) (i : Nat) (f : Serve → Serve) (c' : Nat) : (s.modServe i f).ch c' = s.ch c' := rfl
@[simp] theorem State.modServe_port (s : State) (i : Nat) (f : Serve → Serve) (p' : Nat) : (s.modServe i f).port p' = s.port p' := rfl
@[simp] theorem State.modServe_byteAt (s : State) (i : Nat) (f : Serve → Serve) (a : Nat) : (s.modServe i f).byteAt a = s.byteAt a := rfl

/-! `State.modFolio` -/

@[simp] theorem State.modFolio_pending (s : State) (i id : Nat) (f : Folio → Folio) : (s.modFolio i id f).pending = s.pending := rfl
@[simp] theorem State.modFolio_cycle (s : State) (i id : Nat) (f : Folio → Folio) : (s.modFolio i id f).cycle = s.cycle := rfl
@[simp] theorem State.modFolio_draws (s : State) (i id : Nat) (f : Folio → Folio) : (s.modFolio i id f).draws = s.draws := rfl
@[simp] theorem State.modFolio_t0 (s : State) (i id : Nat) (f : Folio → Folio) : (s.modFolio i id f).t0 = s.t0 := rfl
@[simp] theorem State.modFolio_t1 (s : State) (i id : Nat) (f : Folio → Folio) : (s.modFolio i id f).t1 = s.t1 := rfl
@[simp] theorem State.modFolio_cores (s : State) (i id : Nat) (f : Folio → Folio) : (s.modFolio i id f).cores = s.cores := rfl
@[simp] theorem State.modFolio_fns (s : State) (i id : Nat) (f : Folio → Folio) : (s.modFolio i id f).fns = s.fns := rfl
@[simp] theorem State.modFolio_ed (s : State) (i id : Nat) (f : Folio → Folio) : (s.modFolio i id f).ed = s.ed := rfl
@[simp] theorem State.modFolio_reports (s : State) (i id : Nat) (f : Folio → Folio) : (s.modFolio i id f).reports = s.reports := rfl
@[simp] theorem State.modFolio_stopped (s : State) (i id : Nat) (f : Folio → Folio) : (s.modFolio i id f).stopped = s.stopped := rfl
@[simp] theorem State.modFolio_degraded (s : State) (i id : Nat) (f : Folio → Folio) : (s.modFolio i id f).degraded = s.degraded := rfl
@[simp] theorem State.modFolio_poll (s : State) (i id : Nat) (f : Folio → Folio) : (s.modFolio i id f).poll = s.poll := rfl
@[simp] theorem State.modFolio_ports (s : State) (i id : Nat) (f : Folio → Folio) : (s.modFolio i id f).ports = s.ports := rfl
@[simp] theorem State.modFolio_fab (s : State) (i id : Nat) (f : Folio → Folio) : (s.modFolio i id f).fab = s.fab := rfl
@[simp] theorem State.modFolio_wireMax (s : State) (i id : Nat) (f : Folio → Folio) : (s.modFolio i id f).wireMax = s.wireMax := rfl
@[simp] theorem State.modFolio_wireMin (s : State) (i id : Nat) (f : Folio → Folio) : (s.modFolio i id f).wireMin = s.wireMin := rfl
@[simp] theorem State.modFolio_causes (s : State) (i id : Nat) (f : Folio → Folio) : (s.modFolio i id f).causes = s.causes := rfl
@[simp] theorem State.modFolio_power (s : State) (i id : Nat) (f : Folio → Folio) : (s.modFolio i id f).power = s.power := rfl
@[simp] theorem State.modFolio_boot (s : State) (i id : Nat) (f : Folio → Folio) : (s.modFolio i id f).boot = s.boot := rfl
@[simp] theorem State.modFolio_spdm (s : State) (i id : Nat) (f : Folio → Folio) : (s.modFolio i id f).spdm = s.spdm := rfl
@[simp] theorem State.modFolio_i3c (s : State) (i id : Nat) (f : Folio → Folio) : (s.modFolio i id f).i3c = s.i3c := rfl
@[simp] theorem State.modFolio_icu (s : State) (i id : Nat) (f : Folio → Folio) : (s.modFolio i id f).icu = s.icu := rfl
@[simp] theorem State.modFolio_glb (s : State) (i id : Nat) (f : Folio → Folio) : (s.modFolio i id f).glb = s.glb := rfl
@[simp] theorem State.modFolio_mem (s : State) (i id : Nat) (f : Folio → Folio) : (s.modFolio i id f).mem = s.mem := rfl
@[simp] theorem State.modFolio_coreFaults (s : State) (i id : Nat) (f : Folio → Folio) : (s.modFolio i id f).coreFaults = s.coreFaults := rfl
@[simp] theorem State.modFolio_lostCores (s : State) (i id : Nat) (f : Folio → Folio) : (s.modFolio i id f).lostCores = s.lostCores := rfl
@[simp] theorem State.modFolio_out (s : State) (i id : Nat) (f : Folio → Folio) : (s.modFolio i id f).out = s.out := rfl
@[simp] theorem State.modFolio_core (s : State) (i id : Nat) (f : Folio → Folio) (c' : Nat) : (s.modFolio i id f).core c' = s.core c' := rfl
@[simp] theorem State.modFolio_fn (s : State) (i id : Nat) (f : Folio → Folio) (k' : Nat) : (s.modFolio i id f).fn k' = s.fn k' := rfl
@[simp] theorem State.modFolio_ch (s : State) (i id : Nat) (f : Folio → Folio) (c' : Nat) : (s.modFolio i id f).ch c' = s.ch c' := rfl
@[simp] theorem State.modFolio_port (s : State) (i id : Nat) (f : Folio → Folio) (p' : Nat) : (s.modFolio i id f).port p' = s.port p' := rfl
@[simp] theorem State.modFolio_byteAt (s : State) (i id : Nat) (f : Folio → Folio) (a : Nat) : (s.modFolio i id f).byteAt a = s.byteAt a := rfl

/-! `State.modFn` -/

@[simp] theorem State.modFn_pending (s : State) (k : Nat) (f : Fn → Fn) : (s.modFn k f).pending = s.pending := rfl
@[simp] theorem State.modFn_cycle (s : State) (k : Nat) (f : Fn → Fn) : (s.modFn k f).cycle = s.cycle := rfl
@[simp] theorem State.modFn_draws (s : State) (k : Nat) (f : Fn → Fn) : (s.modFn k f).draws = s.draws := rfl
@[simp] theorem State.modFn_t0 (s : State) (k : Nat) (f : Fn → Fn) : (s.modFn k f).t0 = s.t0 := rfl
@[simp] theorem State.modFn_t1 (s : State) (k : Nat) (f : Fn → Fn) : (s.modFn k f).t1 = s.t1 := rfl
@[simp] theorem State.modFn_cores (s : State) (k : Nat) (f : Fn → Fn) : (s.modFn k f).cores = s.cores := rfl
@[simp] theorem State.modFn_imprints (s : State) (k : Nat) (f : Fn → Fn) : (s.modFn k f).imprints = s.imprints := rfl
@[simp] theorem State.modFn_ed (s : State) (k : Nat) (f : Fn → Fn) : (s.modFn k f).ed = s.ed := rfl
@[simp] theorem State.modFn_reports (s : State) (k : Nat) (f : Fn → Fn) : (s.modFn k f).reports = s.reports := rfl
@[simp] theorem State.modFn_stopped (s : State) (k : Nat) (f : Fn → Fn) : (s.modFn k f).stopped = s.stopped := rfl
@[simp] theorem State.modFn_degraded (s : State) (k : Nat) (f : Fn → Fn) : (s.modFn k f).degraded = s.degraded := rfl
@[simp] theorem State.modFn_poll (s : State) (k : Nat) (f : Fn → Fn) : (s.modFn k f).poll = s.poll := rfl
@[simp] theorem State.modFn_ports (s : State) (k : Nat) (f : Fn → Fn) : (s.modFn k f).ports = s.ports := rfl
@[simp] theorem State.modFn_fab (s : State) (k : Nat) (f : Fn → Fn) : (s.modFn k f).fab = s.fab := rfl
@[simp] theorem State.modFn_wireMax (s : State) (k : Nat) (f : Fn → Fn) : (s.modFn k f).wireMax = s.wireMax := rfl
@[simp] theorem State.modFn_wireMin (s : State) (k : Nat) (f : Fn → Fn) : (s.modFn k f).wireMin = s.wireMin := rfl
@[simp] theorem State.modFn_causes (s : State) (k : Nat) (f : Fn → Fn) : (s.modFn k f).causes = s.causes := rfl
@[simp] theorem State.modFn_power (s : State) (k : Nat) (f : Fn → Fn) : (s.modFn k f).power = s.power := rfl
@[simp] theorem State.modFn_boot (s : State) (k : Nat) (f : Fn → Fn) : (s.modFn k f).boot = s.boot := rfl
@[simp] theorem State.modFn_spdm (s : State) (k : Nat) (f : Fn → Fn) : (s.modFn k f).spdm = s.spdm := rfl
@[simp] theorem State.modFn_i3c (s : State) (k : Nat) (f : Fn → Fn) : (s.modFn k f).i3c = s.i3c := rfl
@[simp] theorem State.modFn_icu (s : State) (k : Nat) (f : Fn → Fn) : (s.modFn k f).icu = s.icu := rfl
@[simp] theorem State.modFn_glb (s : State) (k : Nat) (f : Fn → Fn) : (s.modFn k f).glb = s.glb := rfl
@[simp] theorem State.modFn_mem (s : State) (k : Nat) (f : Fn → Fn) : (s.modFn k f).mem = s.mem := rfl
@[simp] theorem State.modFn_coreFaults (s : State) (k : Nat) (f : Fn → Fn) : (s.modFn k f).coreFaults = s.coreFaults := rfl
@[simp] theorem State.modFn_lostCores (s : State) (k : Nat) (f : Fn → Fn) : (s.modFn k f).lostCores = s.lostCores := rfl
@[simp] theorem State.modFn_out (s : State) (k : Nat) (f : Fn → Fn) : (s.modFn k f).out = s.out := rfl
@[simp] theorem State.modFn_core (s : State) (k : Nat) (f : Fn → Fn) (c' : Nat) : (s.modFn k f).core c' = s.core c' := rfl
@[simp] theorem State.modFn_imp (s : State) (k : Nat) (f : Fn → Fn) (i' : Nat) : (s.modFn k f).imp i' = s.imp i' := rfl
@[simp] theorem State.modFn_ch (s : State) (k : Nat) (f : Fn → Fn) (c' : Nat) : (s.modFn k f).ch c' = s.ch c' := rfl
@[simp] theorem State.modFn_port (s : State) (k : Nat) (f : Fn → Fn) (p' : Nat) : (s.modFn k f).port p' = s.port p' := rfl
@[simp] theorem State.modFn_byteAt (s : State) (k : Nat) (f : Fn → Fn) (a : Nat) : (s.modFn k f).byteAt a = s.byteAt a := rfl
@[simp] theorem State.modFn_cfg (s : State) (k : Nat) (f : Fn → Fn) (i' : Nat) : (s.modFn k f).cfg i' = s.cfg i' := rfl

/-! `State.modCh` -/

@[simp] theorem State.modCh_pending (s : State) (c : Nat) (f : Channel → Channel) : (s.modCh c f).pending = s.pending := rfl
@[simp] theorem State.modCh_cycle (s : State) (c : Nat) (f : Channel → Channel) : (s.modCh c f).cycle = s.cycle := rfl
@[simp] theorem State.modCh_draws (s : State) (c : Nat) (f : Channel → Channel) : (s.modCh c f).draws = s.draws := rfl
@[simp] theorem State.modCh_t0 (s : State) (c : Nat) (f : Channel → Channel) : (s.modCh c f).t0 = s.t0 := rfl
@[simp] theorem State.modCh_cores (s : State) (c : Nat) (f : Channel → Channel) : (s.modCh c f).cores = s.cores := rfl
@[simp] theorem State.modCh_imprints (s : State) (c : Nat) (f : Channel → Channel) : (s.modCh c f).imprints = s.imprints := rfl
@[simp] theorem State.modCh_fns (s : State) (c : Nat) (f : Channel → Channel) : (s.modCh c f).fns = s.fns := rfl
@[simp] theorem State.modCh_ed (s : State) (c : Nat) (f : Channel → Channel) : (s.modCh c f).ed = s.ed := rfl
@[simp] theorem State.modCh_reports (s : State) (c : Nat) (f : Channel → Channel) : (s.modCh c f).reports = s.reports := rfl
@[simp] theorem State.modCh_stopped (s : State) (c : Nat) (f : Channel → Channel) : (s.modCh c f).stopped = s.stopped := rfl
@[simp] theorem State.modCh_degraded (s : State) (c : Nat) (f : Channel → Channel) : (s.modCh c f).degraded = s.degraded := rfl
@[simp] theorem State.modCh_poll (s : State) (c : Nat) (f : Channel → Channel) : (s.modCh c f).poll = s.poll := rfl
@[simp] theorem State.modCh_ports (s : State) (c : Nat) (f : Channel → Channel) : (s.modCh c f).ports = s.ports := rfl
@[simp] theorem State.modCh_fab (s : State) (c : Nat) (f : Channel → Channel) : (s.modCh c f).fab = s.fab := rfl
@[simp] theorem State.modCh_wireMax (s : State) (c : Nat) (f : Channel → Channel) : (s.modCh c f).wireMax = s.wireMax := rfl
@[simp] theorem State.modCh_wireMin (s : State) (c : Nat) (f : Channel → Channel) : (s.modCh c f).wireMin = s.wireMin := rfl
@[simp] theorem State.modCh_causes (s : State) (c : Nat) (f : Channel → Channel) : (s.modCh c f).causes = s.causes := rfl
@[simp] theorem State.modCh_power (s : State) (c : Nat) (f : Channel → Channel) : (s.modCh c f).power = s.power := rfl
@[simp] theorem State.modCh_boot (s : State) (c : Nat) (f : Channel → Channel) : (s.modCh c f).boot = s.boot := rfl
@[simp] theorem State.modCh_spdm (s : State) (c : Nat) (f : Channel → Channel) : (s.modCh c f).spdm = s.spdm := rfl
@[simp] theorem State.modCh_i3c (s : State) (c : Nat) (f : Channel → Channel) : (s.modCh c f).i3c = s.i3c := rfl
@[simp] theorem State.modCh_icu (s : State) (c : Nat) (f : Channel → Channel) : (s.modCh c f).icu = s.icu := rfl
@[simp] theorem State.modCh_glb (s : State) (c : Nat) (f : Channel → Channel) : (s.modCh c f).glb = s.glb := rfl
@[simp] theorem State.modCh_mem (s : State) (c : Nat) (f : Channel → Channel) : (s.modCh c f).mem = s.mem := rfl
@[simp] theorem State.modCh_coreFaults (s : State) (c : Nat) (f : Channel → Channel) : (s.modCh c f).coreFaults = s.coreFaults := rfl
@[simp] theorem State.modCh_lostCores (s : State) (c : Nat) (f : Channel → Channel) : (s.modCh c f).lostCores = s.lostCores := rfl
@[simp] theorem State.modCh_out (s : State) (c : Nat) (f : Channel → Channel) : (s.modCh c f).out = s.out := rfl
@[simp] theorem State.modCh_core (s : State) (c : Nat) (f : Channel → Channel) (c' : Nat) : (s.modCh c f).core c' = s.core c' := rfl
@[simp] theorem State.modCh_imp (s : State) (c : Nat) (f : Channel → Channel) (i' : Nat) : (s.modCh c f).imp i' = s.imp i' := rfl
@[simp] theorem State.modCh_fn (s : State) (c : Nat) (f : Channel → Channel) (k' : Nat) : (s.modCh c f).fn k' = s.fn k' := rfl
@[simp] theorem State.modCh_port (s : State) (c : Nat) (f : Channel → Channel) (p' : Nat) : (s.modCh c f).port p' = s.port p' := rfl
@[simp] theorem State.modCh_byteAt (s : State) (c : Nat) (f : Channel → Channel) (a : Nat) : (s.modCh c f).byteAt a = s.byteAt a := rfl
@[simp] theorem State.modCh_cfg (s : State) (c : Nat) (f : Channel → Channel) (i' : Nat) : (s.modCh c f).cfg i' = s.cfg i' := rfl

/-! `State.modPort` -/

@[simp] theorem State.modPort_pending (s : State) (p : Nat) (f : Port → Port) : (s.modPort p f).pending = s.pending := rfl
@[simp] theorem State.modPort_cycle (s : State) (p : Nat) (f : Port → Port) : (s.modPort p f).cycle = s.cycle := rfl
@[simp] theorem State.modPort_draws (s : State) (p : Nat) (f : Port → Port) : (s.modPort p f).draws = s.draws := rfl
@[simp] theorem State.modPort_t0 (s : State) (p : Nat) (f : Port → Port) : (s.modPort p f).t0 = s.t0 := rfl
@[simp] theorem State.modPort_t1 (s : State) (p : Nat) (f : Port → Port) : (s.modPort p f).t1 = s.t1 := rfl
@[simp] theorem State.modPort_cores (s : State) (p : Nat) (f : Port → Port) : (s.modPort p f).cores = s.cores := rfl
@[simp] theorem State.modPort_imprints (s : State) (p : Nat) (f : Port → Port) : (s.modPort p f).imprints = s.imprints := rfl
@[simp] theorem State.modPort_fns (s : State) (p : Nat) (f : Port → Port) : (s.modPort p f).fns = s.fns := rfl
@[simp] theorem State.modPort_ed (s : State) (p : Nat) (f : Port → Port) : (s.modPort p f).ed = s.ed := rfl
@[simp] theorem State.modPort_reports (s : State) (p : Nat) (f : Port → Port) : (s.modPort p f).reports = s.reports := rfl
@[simp] theorem State.modPort_stopped (s : State) (p : Nat) (f : Port → Port) : (s.modPort p f).stopped = s.stopped := rfl
@[simp] theorem State.modPort_degraded (s : State) (p : Nat) (f : Port → Port) : (s.modPort p f).degraded = s.degraded := rfl
@[simp] theorem State.modPort_poll (s : State) (p : Nat) (f : Port → Port) : (s.modPort p f).poll = s.poll := rfl
@[simp] theorem State.modPort_fab (s : State) (p : Nat) (f : Port → Port) : (s.modPort p f).fab = s.fab := rfl
@[simp] theorem State.modPort_wireMax (s : State) (p : Nat) (f : Port → Port) : (s.modPort p f).wireMax = s.wireMax := rfl
@[simp] theorem State.modPort_wireMin (s : State) (p : Nat) (f : Port → Port) : (s.modPort p f).wireMin = s.wireMin := rfl
@[simp] theorem State.modPort_causes (s : State) (p : Nat) (f : Port → Port) : (s.modPort p f).causes = s.causes := rfl
@[simp] theorem State.modPort_power (s : State) (p : Nat) (f : Port → Port) : (s.modPort p f).power = s.power := rfl
@[simp] theorem State.modPort_boot (s : State) (p : Nat) (f : Port → Port) : (s.modPort p f).boot = s.boot := rfl
@[simp] theorem State.modPort_spdm (s : State) (p : Nat) (f : Port → Port) : (s.modPort p f).spdm = s.spdm := rfl
@[simp] theorem State.modPort_i3c (s : State) (p : Nat) (f : Port → Port) : (s.modPort p f).i3c = s.i3c := rfl
@[simp] theorem State.modPort_icu (s : State) (p : Nat) (f : Port → Port) : (s.modPort p f).icu = s.icu := rfl
@[simp] theorem State.modPort_glb (s : State) (p : Nat) (f : Port → Port) : (s.modPort p f).glb = s.glb := rfl
@[simp] theorem State.modPort_mem (s : State) (p : Nat) (f : Port → Port) : (s.modPort p f).mem = s.mem := rfl
@[simp] theorem State.modPort_coreFaults (s : State) (p : Nat) (f : Port → Port) : (s.modPort p f).coreFaults = s.coreFaults := rfl
@[simp] theorem State.modPort_lostCores (s : State) (p : Nat) (f : Port → Port) : (s.modPort p f).lostCores = s.lostCores := rfl
@[simp] theorem State.modPort_out (s : State) (p : Nat) (f : Port → Port) : (s.modPort p f).out = s.out := rfl
@[simp] theorem State.modPort_core (s : State) (p : Nat) (f : Port → Port) (c' : Nat) : (s.modPort p f).core c' = s.core c' := rfl
@[simp] theorem State.modPort_imp (s : State) (p : Nat) (f : Port → Port) (i' : Nat) : (s.modPort p f).imp i' = s.imp i' := rfl
@[simp] theorem State.modPort_fn (s : State) (p : Nat) (f : Port → Port) (k' : Nat) : (s.modPort p f).fn k' = s.fn k' := rfl
@[simp] theorem State.modPort_ch (s : State) (p : Nat) (f : Port → Port) (c' : Nat) : (s.modPort p f).ch c' = s.ch c' := rfl
@[simp] theorem State.modPort_byteAt (s : State) (p : Nat) (f : Port → Port) (a : Nat) : (s.modPort p f).byteAt a = s.byteAt a := rfl
@[simp] theorem State.modPort_cfg (s : State) (p : Nat) (f : Port → Port) (i' : Nat) : (s.modPort p f).cfg i' = s.cfg i' := rfl

/-! `State.setStream` -/

@[simp] theorem State.setStream_pending (s : State) (x : OutStream) : (s.setStream x).pending = s.pending := rfl
@[simp] theorem State.setStream_cycle (s : State) (x : OutStream) : (s.setStream x).cycle = s.cycle := rfl
@[simp] theorem State.setStream_draws (s : State) (x : OutStream) : (s.setStream x).draws = s.draws := rfl
@[simp] theorem State.setStream_t0 (s : State) (x : OutStream) : (s.setStream x).t0 = s.t0 := rfl
@[simp] theorem State.setStream_t1 (s : State) (x : OutStream) : (s.setStream x).t1 = s.t1 := rfl
@[simp] theorem State.setStream_cores (s : State) (x : OutStream) : (s.setStream x).cores = s.cores := rfl
@[simp] theorem State.setStream_imprints (s : State) (x : OutStream) : (s.setStream x).imprints = s.imprints := rfl
@[simp] theorem State.setStream_fns (s : State) (x : OutStream) : (s.setStream x).fns = s.fns := rfl
@[simp] theorem State.setStream_ed (s : State) (x : OutStream) : (s.setStream x).ed = s.ed := rfl
@[simp] theorem State.setStream_reports (s : State) (x : OutStream) : (s.setStream x).reports = s.reports := rfl
@[simp] theorem State.setStream_stopped (s : State) (x : OutStream) : (s.setStream x).stopped = s.stopped := rfl
@[simp] theorem State.setStream_degraded (s : State) (x : OutStream) : (s.setStream x).degraded = s.degraded := rfl
@[simp] theorem State.setStream_poll (s : State) (x : OutStream) : (s.setStream x).poll = s.poll := rfl
@[simp] theorem State.setStream_ports (s : State) (x : OutStream) : (s.setStream x).ports = s.ports := rfl
@[simp] theorem State.setStream_wireMax (s : State) (x : OutStream) : (s.setStream x).wireMax = s.wireMax := rfl
@[simp] theorem State.setStream_wireMin (s : State) (x : OutStream) : (s.setStream x).wireMin = s.wireMin := rfl
@[simp] theorem State.setStream_causes (s : State) (x : OutStream) : (s.setStream x).causes = s.causes := rfl
@[simp] theorem State.setStream_power (s : State) (x : OutStream) : (s.setStream x).power = s.power := rfl
@[simp] theorem State.setStream_boot (s : State) (x : OutStream) : (s.setStream x).boot = s.boot := rfl
@[simp] theorem State.setStream_spdm (s : State) (x : OutStream) : (s.setStream x).spdm = s.spdm := rfl
@[simp] theorem State.setStream_i3c (s : State) (x : OutStream) : (s.setStream x).i3c = s.i3c := rfl
@[simp] theorem State.setStream_icu (s : State) (x : OutStream) : (s.setStream x).icu = s.icu := rfl
@[simp] theorem State.setStream_glb (s : State) (x : OutStream) : (s.setStream x).glb = s.glb := rfl
@[simp] theorem State.setStream_mem (s : State) (x : OutStream) : (s.setStream x).mem = s.mem := rfl
@[simp] theorem State.setStream_coreFaults (s : State) (x : OutStream) : (s.setStream x).coreFaults = s.coreFaults := rfl
@[simp] theorem State.setStream_lostCores (s : State) (x : OutStream) : (s.setStream x).lostCores = s.lostCores := rfl
@[simp] theorem State.setStream_out (s : State) (x : OutStream) : (s.setStream x).out = s.out := rfl
@[simp] theorem State.setStream_core (s : State) (x : OutStream) (c' : Nat) : (s.setStream x).core c' = s.core c' := rfl
@[simp] theorem State.setStream_imp (s : State) (x : OutStream) (i' : Nat) : (s.setStream x).imp i' = s.imp i' := rfl
@[simp] theorem State.setStream_fn (s : State) (x : OutStream) (k' : Nat) : (s.setStream x).fn k' = s.fn k' := rfl
@[simp] theorem State.setStream_ch (s : State) (x : OutStream) (c' : Nat) : (s.setStream x).ch c' = s.ch c' := rfl
@[simp] theorem State.setStream_port (s : State) (x : OutStream) (p' : Nat) : (s.setStream x).port p' = s.port p' := rfl
@[simp] theorem State.setStream_byteAt (s : State) (x : OutStream) (a : Nat) : (s.setStream x).byteAt a = s.byteAt a := rfl
@[simp] theorem State.setStream_cfg (s : State) (x : OutStream) (i' : Nat) : (s.setStream x).cfg i' = s.cfg i' := rfl

/-! `State.emit` -/

@[simp] theorem State.emit_pending (s : State) (e : Emission) : (s.emit e).pending = s.pending := rfl
@[simp] theorem State.emit_cycle (s : State) (e : Emission) : (s.emit e).cycle = s.cycle := rfl
@[simp] theorem State.emit_draws (s : State) (e : Emission) : (s.emit e).draws = s.draws := rfl
@[simp] theorem State.emit_t0 (s : State) (e : Emission) : (s.emit e).t0 = s.t0 := rfl
@[simp] theorem State.emit_t1 (s : State) (e : Emission) : (s.emit e).t1 = s.t1 := rfl
@[simp] theorem State.emit_cores (s : State) (e : Emission) : (s.emit e).cores = s.cores := rfl
@[simp] theorem State.emit_imprints (s : State) (e : Emission) : (s.emit e).imprints = s.imprints := rfl
@[simp] theorem State.emit_fns (s : State) (e : Emission) : (s.emit e).fns = s.fns := rfl
@[simp] theorem State.emit_ed (s : State) (e : Emission) : (s.emit e).ed = s.ed := rfl
@[simp] theorem State.emit_reports (s : State) (e : Emission) : (s.emit e).reports = s.reports := rfl
@[simp] theorem State.emit_stopped (s : State) (e : Emission) : (s.emit e).stopped = s.stopped := rfl
@[simp] theorem State.emit_degraded (s : State) (e : Emission) : (s.emit e).degraded = s.degraded := rfl
@[simp] theorem State.emit_poll (s : State) (e : Emission) : (s.emit e).poll = s.poll := rfl
@[simp] theorem State.emit_ports (s : State) (e : Emission) : (s.emit e).ports = s.ports := rfl
@[simp] theorem State.emit_fab (s : State) (e : Emission) : (s.emit e).fab = s.fab := rfl
@[simp] theorem State.emit_wireMax (s : State) (e : Emission) : (s.emit e).wireMax = s.wireMax := rfl
@[simp] theorem State.emit_wireMin (s : State) (e : Emission) : (s.emit e).wireMin = s.wireMin := rfl
@[simp] theorem State.emit_causes (s : State) (e : Emission) : (s.emit e).causes = s.causes := rfl
@[simp] theorem State.emit_power (s : State) (e : Emission) : (s.emit e).power = s.power := rfl
@[simp] theorem State.emit_boot (s : State) (e : Emission) : (s.emit e).boot = s.boot := rfl
@[simp] theorem State.emit_spdm (s : State) (e : Emission) : (s.emit e).spdm = s.spdm := rfl
@[simp] theorem State.emit_i3c (s : State) (e : Emission) : (s.emit e).i3c = s.i3c := rfl
@[simp] theorem State.emit_icu (s : State) (e : Emission) : (s.emit e).icu = s.icu := rfl
@[simp] theorem State.emit_glb (s : State) (e : Emission) : (s.emit e).glb = s.glb := rfl
@[simp] theorem State.emit_mem (s : State) (e : Emission) : (s.emit e).mem = s.mem := rfl
@[simp] theorem State.emit_coreFaults (s : State) (e : Emission) : (s.emit e).coreFaults = s.coreFaults := rfl
@[simp] theorem State.emit_lostCores (s : State) (e : Emission) : (s.emit e).lostCores = s.lostCores := rfl
@[simp] theorem State.emit_core (s : State) (e : Emission) (c' : Nat) : (s.emit e).core c' = s.core c' := rfl
@[simp] theorem State.emit_imp (s : State) (e : Emission) (i' : Nat) : (s.emit e).imp i' = s.imp i' := rfl
@[simp] theorem State.emit_fn (s : State) (e : Emission) (k' : Nat) : (s.emit e).fn k' = s.fn k' := rfl
@[simp] theorem State.emit_ch (s : State) (e : Emission) (c' : Nat) : (s.emit e).ch c' = s.ch c' := rfl
@[simp] theorem State.emit_port (s : State) (e : Emission) (p' : Nat) : (s.emit e).port p' = s.port p' := rfl
@[simp] theorem State.emit_byteAt (s : State) (e : Emission) (a : Nat) : (s.emit e).byteAt a = s.byteAt a := rfl
@[simp] theorem State.emit_cfg (s : State) (e : Emission) (i' : Nat) : (s.emit e).cfg i' = s.cfg i' := rfl

/-! `State.modPower` -/

@[simp] theorem State.modPower_pending (s : State) (f : Power → Power) : (s.modPower f).pending = s.pending := rfl
@[simp] theorem State.modPower_cycle (s : State) (f : Power → Power) : (s.modPower f).cycle = s.cycle := rfl
@[simp] theorem State.modPower_draws (s : State) (f : Power → Power) : (s.modPower f).draws = s.draws := rfl
@[simp] theorem State.modPower_t0 (s : State) (f : Power → Power) : (s.modPower f).t0 = s.t0 := rfl
@[simp] theorem State.modPower_t1 (s : State) (f : Power → Power) : (s.modPower f).t1 = s.t1 := rfl
@[simp] theorem State.modPower_cores (s : State) (f : Power → Power) : (s.modPower f).cores = s.cores := rfl
@[simp] theorem State.modPower_imprints (s : State) (f : Power → Power) : (s.modPower f).imprints = s.imprints := rfl
@[simp] theorem State.modPower_fns (s : State) (f : Power → Power) : (s.modPower f).fns = s.fns := rfl
@[simp] theorem State.modPower_ed (s : State) (f : Power → Power) : (s.modPower f).ed = s.ed := rfl
@[simp] theorem State.modPower_reports (s : State) (f : Power → Power) : (s.modPower f).reports = s.reports := rfl
@[simp] theorem State.modPower_stopped (s : State) (f : Power → Power) : (s.modPower f).stopped = s.stopped := rfl
@[simp] theorem State.modPower_degraded (s : State) (f : Power → Power) : (s.modPower f).degraded = s.degraded := rfl
@[simp] theorem State.modPower_poll (s : State) (f : Power → Power) : (s.modPower f).poll = s.poll := rfl
@[simp] theorem State.modPower_ports (s : State) (f : Power → Power) : (s.modPower f).ports = s.ports := rfl
@[simp] theorem State.modPower_fab (s : State) (f : Power → Power) : (s.modPower f).fab = s.fab := rfl
@[simp] theorem State.modPower_wireMax (s : State) (f : Power → Power) : (s.modPower f).wireMax = s.wireMax := rfl
@[simp] theorem State.modPower_wireMin (s : State) (f : Power → Power) : (s.modPower f).wireMin = s.wireMin := rfl
@[simp] theorem State.modPower_causes (s : State) (f : Power → Power) : (s.modPower f).causes = s.causes := rfl
@[simp] theorem State.modPower_boot (s : State) (f : Power → Power) : (s.modPower f).boot = s.boot := rfl
@[simp] theorem State.modPower_spdm (s : State) (f : Power → Power) : (s.modPower f).spdm = s.spdm := rfl
@[simp] theorem State.modPower_i3c (s : State) (f : Power → Power) : (s.modPower f).i3c = s.i3c := rfl
@[simp] theorem State.modPower_icu (s : State) (f : Power → Power) : (s.modPower f).icu = s.icu := rfl
@[simp] theorem State.modPower_glb (s : State) (f : Power → Power) : (s.modPower f).glb = s.glb := rfl
@[simp] theorem State.modPower_mem (s : State) (f : Power → Power) : (s.modPower f).mem = s.mem := rfl
@[simp] theorem State.modPower_coreFaults (s : State) (f : Power → Power) : (s.modPower f).coreFaults = s.coreFaults := rfl
@[simp] theorem State.modPower_lostCores (s : State) (f : Power → Power) : (s.modPower f).lostCores = s.lostCores := rfl
@[simp] theorem State.modPower_out (s : State) (f : Power → Power) : (s.modPower f).out = s.out := rfl
@[simp] theorem State.modPower_core (s : State) (f : Power → Power) (c' : Nat) : (s.modPower f).core c' = s.core c' := rfl
@[simp] theorem State.modPower_imp (s : State) (f : Power → Power) (i' : Nat) : (s.modPower f).imp i' = s.imp i' := rfl
@[simp] theorem State.modPower_fn (s : State) (f : Power → Power) (k' : Nat) : (s.modPower f).fn k' = s.fn k' := rfl
@[simp] theorem State.modPower_ch (s : State) (f : Power → Power) (c' : Nat) : (s.modPower f).ch c' = s.ch c' := rfl
@[simp] theorem State.modPower_port (s : State) (f : Power → Power) (p' : Nat) : (s.modPower f).port p' = s.port p' := rfl
@[simp] theorem State.modPower_byteAt (s : State) (f : Power → Power) (a : Nat) : (s.modPower f).byteAt a = s.byteAt a := rfl
@[simp] theorem State.modPower_cfg (s : State) (f : Power → Power) (i' : Nat) : (s.modPower f).cfg i' = s.cfg i' := rfl

/-! `State.modSpdm` -/

@[simp] theorem State.modSpdm_pending (s : State) (f : Spdm → Spdm) : (s.modSpdm f).pending = s.pending := rfl
@[simp] theorem State.modSpdm_cycle (s : State) (f : Spdm → Spdm) : (s.modSpdm f).cycle = s.cycle := rfl
@[simp] theorem State.modSpdm_draws (s : State) (f : Spdm → Spdm) : (s.modSpdm f).draws = s.draws := rfl
@[simp] theorem State.modSpdm_t0 (s : State) (f : Spdm → Spdm) : (s.modSpdm f).t0 = s.t0 := rfl
@[simp] theorem State.modSpdm_t1 (s : State) (f : Spdm → Spdm) : (s.modSpdm f).t1 = s.t1 := rfl
@[simp] theorem State.modSpdm_cores (s : State) (f : Spdm → Spdm) : (s.modSpdm f).cores = s.cores := rfl
@[simp] theorem State.modSpdm_imprints (s : State) (f : Spdm → Spdm) : (s.modSpdm f).imprints = s.imprints := rfl
@[simp] theorem State.modSpdm_fns (s : State) (f : Spdm → Spdm) : (s.modSpdm f).fns = s.fns := rfl
@[simp] theorem State.modSpdm_ed (s : State) (f : Spdm → Spdm) : (s.modSpdm f).ed = s.ed := rfl
@[simp] theorem State.modSpdm_reports (s : State) (f : Spdm → Spdm) : (s.modSpdm f).reports = s.reports := rfl
@[simp] theorem State.modSpdm_stopped (s : State) (f : Spdm → Spdm) : (s.modSpdm f).stopped = s.stopped := rfl
@[simp] theorem State.modSpdm_degraded (s : State) (f : Spdm → Spdm) : (s.modSpdm f).degraded = s.degraded := rfl
@[simp] theorem State.modSpdm_poll (s : State) (f : Spdm → Spdm) : (s.modSpdm f).poll = s.poll := rfl
@[simp] theorem State.modSpdm_ports (s : State) (f : Spdm → Spdm) : (s.modSpdm f).ports = s.ports := rfl
@[simp] theorem State.modSpdm_fab (s : State) (f : Spdm → Spdm) : (s.modSpdm f).fab = s.fab := rfl
@[simp] theorem State.modSpdm_wireMax (s : State) (f : Spdm → Spdm) : (s.modSpdm f).wireMax = s.wireMax := rfl
@[simp] theorem State.modSpdm_wireMin (s : State) (f : Spdm → Spdm) : (s.modSpdm f).wireMin = s.wireMin := rfl
@[simp] theorem State.modSpdm_causes (s : State) (f : Spdm → Spdm) : (s.modSpdm f).causes = s.causes := rfl
@[simp] theorem State.modSpdm_power (s : State) (f : Spdm → Spdm) : (s.modSpdm f).power = s.power := rfl
@[simp] theorem State.modSpdm_boot (s : State) (f : Spdm → Spdm) : (s.modSpdm f).boot = s.boot := rfl
@[simp] theorem State.modSpdm_i3c (s : State) (f : Spdm → Spdm) : (s.modSpdm f).i3c = s.i3c := rfl
@[simp] theorem State.modSpdm_icu (s : State) (f : Spdm → Spdm) : (s.modSpdm f).icu = s.icu := rfl
@[simp] theorem State.modSpdm_glb (s : State) (f : Spdm → Spdm) : (s.modSpdm f).glb = s.glb := rfl
@[simp] theorem State.modSpdm_mem (s : State) (f : Spdm → Spdm) : (s.modSpdm f).mem = s.mem := rfl
@[simp] theorem State.modSpdm_coreFaults (s : State) (f : Spdm → Spdm) : (s.modSpdm f).coreFaults = s.coreFaults := rfl
@[simp] theorem State.modSpdm_lostCores (s : State) (f : Spdm → Spdm) : (s.modSpdm f).lostCores = s.lostCores := rfl
@[simp] theorem State.modSpdm_out (s : State) (f : Spdm → Spdm) : (s.modSpdm f).out = s.out := rfl
@[simp] theorem State.modSpdm_core (s : State) (f : Spdm → Spdm) (c' : Nat) : (s.modSpdm f).core c' = s.core c' := rfl
@[simp] theorem State.modSpdm_imp (s : State) (f : Spdm → Spdm) (i' : Nat) : (s.modSpdm f).imp i' = s.imp i' := rfl
@[simp] theorem State.modSpdm_fn (s : State) (f : Spdm → Spdm) (k' : Nat) : (s.modSpdm f).fn k' = s.fn k' := rfl
@[simp] theorem State.modSpdm_ch (s : State) (f : Spdm → Spdm) (c' : Nat) : (s.modSpdm f).ch c' = s.ch c' := rfl
@[simp] theorem State.modSpdm_port (s : State) (f : Spdm → Spdm) (p' : Nat) : (s.modSpdm f).port p' = s.port p' := rfl
@[simp] theorem State.modSpdm_byteAt (s : State) (f : Spdm → Spdm) (a : Nat) : (s.modSpdm f).byteAt a = s.byteAt a := rfl
@[simp] theorem State.modSpdm_cfg (s : State) (f : Spdm → Spdm) (i' : Nat) : (s.modSpdm f).cfg i' = s.cfg i' := rfl

/-! `State.modI3c` -/

@[simp] theorem State.modI3c_pending (s : State) (f : I3cTarget → I3cTarget) : (s.modI3c f).pending = s.pending := rfl
@[simp] theorem State.modI3c_cycle (s : State) (f : I3cTarget → I3cTarget) : (s.modI3c f).cycle = s.cycle := rfl
@[simp] theorem State.modI3c_draws (s : State) (f : I3cTarget → I3cTarget) : (s.modI3c f).draws = s.draws := rfl
@[simp] theorem State.modI3c_t0 (s : State) (f : I3cTarget → I3cTarget) : (s.modI3c f).t0 = s.t0 := rfl
@[simp] theorem State.modI3c_t1 (s : State) (f : I3cTarget → I3cTarget) : (s.modI3c f).t1 = s.t1 := rfl
@[simp] theorem State.modI3c_cores (s : State) (f : I3cTarget → I3cTarget) : (s.modI3c f).cores = s.cores := rfl
@[simp] theorem State.modI3c_imprints (s : State) (f : I3cTarget → I3cTarget) : (s.modI3c f).imprints = s.imprints := rfl
@[simp] theorem State.modI3c_fns (s : State) (f : I3cTarget → I3cTarget) : (s.modI3c f).fns = s.fns := rfl
@[simp] theorem State.modI3c_ed (s : State) (f : I3cTarget → I3cTarget) : (s.modI3c f).ed = s.ed := rfl
@[simp] theorem State.modI3c_reports (s : State) (f : I3cTarget → I3cTarget) : (s.modI3c f).reports = s.reports := rfl
@[simp] theorem State.modI3c_stopped (s : State) (f : I3cTarget → I3cTarget) : (s.modI3c f).stopped = s.stopped := rfl
@[simp] theorem State.modI3c_degraded (s : State) (f : I3cTarget → I3cTarget) : (s.modI3c f).degraded = s.degraded := rfl
@[simp] theorem State.modI3c_poll (s : State) (f : I3cTarget → I3cTarget) : (s.modI3c f).poll = s.poll := rfl
@[simp] theorem State.modI3c_ports (s : State) (f : I3cTarget → I3cTarget) : (s.modI3c f).ports = s.ports := rfl
@[simp] theorem State.modI3c_fab (s : State) (f : I3cTarget → I3cTarget) : (s.modI3c f).fab = s.fab := rfl
@[simp] theorem State.modI3c_wireMax (s : State) (f : I3cTarget → I3cTarget) : (s.modI3c f).wireMax = s.wireMax := rfl
@[simp] theorem State.modI3c_wireMin (s : State) (f : I3cTarget → I3cTarget) : (s.modI3c f).wireMin = s.wireMin := rfl
@[simp] theorem State.modI3c_causes (s : State) (f : I3cTarget → I3cTarget) : (s.modI3c f).causes = s.causes := rfl
@[simp] theorem State.modI3c_power (s : State) (f : I3cTarget → I3cTarget) : (s.modI3c f).power = s.power := rfl
@[simp] theorem State.modI3c_boot (s : State) (f : I3cTarget → I3cTarget) : (s.modI3c f).boot = s.boot := rfl
@[simp] theorem State.modI3c_spdm (s : State) (f : I3cTarget → I3cTarget) : (s.modI3c f).spdm = s.spdm := rfl
@[simp] theorem State.modI3c_icu (s : State) (f : I3cTarget → I3cTarget) : (s.modI3c f).icu = s.icu := rfl
@[simp] theorem State.modI3c_glb (s : State) (f : I3cTarget → I3cTarget) : (s.modI3c f).glb = s.glb := rfl
@[simp] theorem State.modI3c_mem (s : State) (f : I3cTarget → I3cTarget) : (s.modI3c f).mem = s.mem := rfl
@[simp] theorem State.modI3c_coreFaults (s : State) (f : I3cTarget → I3cTarget) : (s.modI3c f).coreFaults = s.coreFaults := rfl
@[simp] theorem State.modI3c_lostCores (s : State) (f : I3cTarget → I3cTarget) : (s.modI3c f).lostCores = s.lostCores := rfl
@[simp] theorem State.modI3c_out (s : State) (f : I3cTarget → I3cTarget) : (s.modI3c f).out = s.out := rfl
@[simp] theorem State.modI3c_core (s : State) (f : I3cTarget → I3cTarget) (c' : Nat) : (s.modI3c f).core c' = s.core c' := rfl
@[simp] theorem State.modI3c_imp (s : State) (f : I3cTarget → I3cTarget) (i' : Nat) : (s.modI3c f).imp i' = s.imp i' := rfl
@[simp] theorem State.modI3c_fn (s : State) (f : I3cTarget → I3cTarget) (k' : Nat) : (s.modI3c f).fn k' = s.fn k' := rfl
@[simp] theorem State.modI3c_ch (s : State) (f : I3cTarget → I3cTarget) (c' : Nat) : (s.modI3c f).ch c' = s.ch c' := rfl
@[simp] theorem State.modI3c_port (s : State) (f : I3cTarget → I3cTarget) (p' : Nat) : (s.modI3c f).port p' = s.port p' := rfl
@[simp] theorem State.modI3c_byteAt (s : State) (f : I3cTarget → I3cTarget) (a : Nat) : (s.modI3c f).byteAt a = s.byteAt a := rfl
@[simp] theorem State.modI3c_cfg (s : State) (f : I3cTarget → I3cTarget) (i' : Nat) : (s.modI3c f).cfg i' = s.cfg i' := rfl

/-! `State.stampReports` -/

@[simp] theorem State.stampReports_pending (s : State) (n : Nat) (x : Reader) : (s.stampReports n x).pending = s.pending := rfl
@[simp] theorem State.stampReports_cycle (s : State) (n : Nat) (x : Reader) : (s.stampReports n x).cycle = s.cycle := rfl
@[simp] theorem State.stampReports_draws (s : State) (n : Nat) (x : Reader) : (s.stampReports n x).draws = s.draws := rfl
@[simp] theorem State.stampReports_t0 (s : State) (n : Nat) (x : Reader) : (s.stampReports n x).t0 = s.t0 := rfl
@[simp] theorem State.stampReports_t1 (s : State) (n : Nat) (x : Reader) : (s.stampReports n x).t1 = s.t1 := rfl
@[simp] theorem State.stampReports_cores (s : State) (n : Nat) (x : Reader) : (s.stampReports n x).cores = s.cores := rfl
@[simp] theorem State.stampReports_imprints (s : State) (n : Nat) (x : Reader) : (s.stampReports n x).imprints = s.imprints := rfl
@[simp] theorem State.stampReports_fns (s : State) (n : Nat) (x : Reader) : (s.stampReports n x).fns = s.fns := rfl
@[simp] theorem State.stampReports_ed (s : State) (n : Nat) (x : Reader) : (s.stampReports n x).ed = s.ed := rfl
@[simp] theorem State.stampReports_stopped (s : State) (n : Nat) (x : Reader) : (s.stampReports n x).stopped = s.stopped := rfl
@[simp] theorem State.stampReports_degraded (s : State) (n : Nat) (x : Reader) : (s.stampReports n x).degraded = s.degraded := rfl
@[simp] theorem State.stampReports_poll (s : State) (n : Nat) (x : Reader) : (s.stampReports n x).poll = s.poll := rfl
@[simp] theorem State.stampReports_ports (s : State) (n : Nat) (x : Reader) : (s.stampReports n x).ports = s.ports := rfl
@[simp] theorem State.stampReports_fab (s : State) (n : Nat) (x : Reader) : (s.stampReports n x).fab = s.fab := rfl
@[simp] theorem State.stampReports_wireMax (s : State) (n : Nat) (x : Reader) : (s.stampReports n x).wireMax = s.wireMax := rfl
@[simp] theorem State.stampReports_wireMin (s : State) (n : Nat) (x : Reader) : (s.stampReports n x).wireMin = s.wireMin := rfl
@[simp] theorem State.stampReports_causes (s : State) (n : Nat) (x : Reader) : (s.stampReports n x).causes = s.causes := rfl
@[simp] theorem State.stampReports_power (s : State) (n : Nat) (x : Reader) : (s.stampReports n x).power = s.power := rfl
@[simp] theorem State.stampReports_boot (s : State) (n : Nat) (x : Reader) : (s.stampReports n x).boot = s.boot := rfl
@[simp] theorem State.stampReports_spdm (s : State) (n : Nat) (x : Reader) : (s.stampReports n x).spdm = s.spdm := rfl
@[simp] theorem State.stampReports_i3c (s : State) (n : Nat) (x : Reader) : (s.stampReports n x).i3c = s.i3c := rfl
@[simp] theorem State.stampReports_icu (s : State) (n : Nat) (x : Reader) : (s.stampReports n x).icu = s.icu := rfl
@[simp] theorem State.stampReports_glb (s : State) (n : Nat) (x : Reader) : (s.stampReports n x).glb = s.glb := rfl
@[simp] theorem State.stampReports_mem (s : State) (n : Nat) (x : Reader) : (s.stampReports n x).mem = s.mem := rfl
@[simp] theorem State.stampReports_coreFaults (s : State) (n : Nat) (x : Reader) : (s.stampReports n x).coreFaults = s.coreFaults := rfl
@[simp] theorem State.stampReports_lostCores (s : State) (n : Nat) (x : Reader) : (s.stampReports n x).lostCores = s.lostCores := rfl
@[simp] theorem State.stampReports_out (s : State) (n : Nat) (x : Reader) : (s.stampReports n x).out = s.out := rfl
@[simp] theorem State.stampReports_core (s : State) (n : Nat) (x : Reader) (c' : Nat) : (s.stampReports n x).core c' = s.core c' := rfl
@[simp] theorem State.stampReports_imp (s : State) (n : Nat) (x : Reader) (i' : Nat) : (s.stampReports n x).imp i' = s.imp i' := rfl
@[simp] theorem State.stampReports_fn (s : State) (n : Nat) (x : Reader) (k' : Nat) : (s.stampReports n x).fn k' = s.fn k' := rfl
@[simp] theorem State.stampReports_ch (s : State) (n : Nat) (x : Reader) (c' : Nat) : (s.stampReports n x).ch c' = s.ch c' := rfl
@[simp] theorem State.stampReports_port (s : State) (n : Nat) (x : Reader) (p' : Nat) : (s.stampReports n x).port p' = s.port p' := rfl
@[simp] theorem State.stampReports_byteAt (s : State) (n : Nat) (x : Reader) (a : Nat) : (s.stampReports n x).byteAt a = s.byteAt a := rfl
@[simp] theorem State.stampReports_cfg (s : State) (n : Nat) (x : Reader) (i' : Nat) : (s.stampReports n x).cfg i' = s.cfg i' := rfl

/-! `State.handOver` -/

@[simp] theorem State.handOver_pending (s : State) (c j : Nat) (r : BitVec 512) : (s.handOver c j r).pending = s.pending := rfl
@[simp] theorem State.handOver_cycle (s : State) (c j : Nat) (r : BitVec 512) : (s.handOver c j r).cycle = s.cycle := rfl
@[simp] theorem State.handOver_draws (s : State) (c j : Nat) (r : BitVec 512) : (s.handOver c j r).draws = s.draws := rfl
@[simp] theorem State.handOver_t0 (s : State) (c j : Nat) (r : BitVec 512) : (s.handOver c j r).t0 = s.t0 := rfl
@[simp] theorem State.handOver_t1 (s : State) (c j : Nat) (r : BitVec 512) : (s.handOver c j r).t1 = s.t1 := rfl
@[simp] theorem State.handOver_imprints (s : State) (c j : Nat) (r : BitVec 512) : (s.handOver c j r).imprints = s.imprints := rfl
@[simp] theorem State.handOver_fns (s : State) (c j : Nat) (r : BitVec 512) : (s.handOver c j r).fns = s.fns := rfl
@[simp] theorem State.handOver_ed (s : State) (c j : Nat) (r : BitVec 512) : (s.handOver c j r).ed = s.ed := rfl
@[simp] theorem State.handOver_reports (s : State) (c j : Nat) (r : BitVec 512) : (s.handOver c j r).reports = s.reports := rfl
@[simp] theorem State.handOver_stopped (s : State) (c j : Nat) (r : BitVec 512) : (s.handOver c j r).stopped = s.stopped := rfl
@[simp] theorem State.handOver_degraded (s : State) (c j : Nat) (r : BitVec 512) : (s.handOver c j r).degraded = s.degraded := rfl
@[simp] theorem State.handOver_poll (s : State) (c j : Nat) (r : BitVec 512) : (s.handOver c j r).poll = s.poll := rfl
@[simp] theorem State.handOver_ports (s : State) (c j : Nat) (r : BitVec 512) : (s.handOver c j r).ports = s.ports := rfl
@[simp] theorem State.handOver_fab (s : State) (c j : Nat) (r : BitVec 512) : (s.handOver c j r).fab = s.fab := rfl
@[simp] theorem State.handOver_wireMax (s : State) (c j : Nat) (r : BitVec 512) : (s.handOver c j r).wireMax = s.wireMax := rfl
@[simp] theorem State.handOver_wireMin (s : State) (c j : Nat) (r : BitVec 512) : (s.handOver c j r).wireMin = s.wireMin := rfl
@[simp] theorem State.handOver_causes (s : State) (c j : Nat) (r : BitVec 512) : (s.handOver c j r).causes = s.causes := rfl
@[simp] theorem State.handOver_power (s : State) (c j : Nat) (r : BitVec 512) : (s.handOver c j r).power = s.power := rfl
@[simp] theorem State.handOver_boot (s : State) (c j : Nat) (r : BitVec 512) : (s.handOver c j r).boot = s.boot := rfl
@[simp] theorem State.handOver_spdm (s : State) (c j : Nat) (r : BitVec 512) : (s.handOver c j r).spdm = s.spdm := rfl
@[simp] theorem State.handOver_i3c (s : State) (c j : Nat) (r : BitVec 512) : (s.handOver c j r).i3c = s.i3c := rfl
@[simp] theorem State.handOver_icu (s : State) (c j : Nat) (r : BitVec 512) : (s.handOver c j r).icu = s.icu := rfl
@[simp] theorem State.handOver_glb (s : State) (c j : Nat) (r : BitVec 512) : (s.handOver c j r).glb = s.glb := rfl
@[simp] theorem State.handOver_mem (s : State) (c j : Nat) (r : BitVec 512) : (s.handOver c j r).mem = s.mem := rfl
@[simp] theorem State.handOver_coreFaults (s : State) (c j : Nat) (r : BitVec 512) : (s.handOver c j r).coreFaults = s.coreFaults := rfl
@[simp] theorem State.handOver_lostCores (s : State) (c j : Nat) (r : BitVec 512) : (s.handOver c j r).lostCores = s.lostCores := rfl
@[simp] theorem State.handOver_out (s : State) (c j : Nat) (r : BitVec 512) : (s.handOver c j r).out = s.out := rfl
@[simp] theorem State.handOver_imp (s : State) (c j : Nat) (r : BitVec 512) (i' : Nat) : (s.handOver c j r).imp i' = s.imp i' := rfl
@[simp] theorem State.handOver_fn (s : State) (c j : Nat) (r : BitVec 512) (k' : Nat) : (s.handOver c j r).fn k' = s.fn k' := rfl
@[simp] theorem State.handOver_ch (s : State) (c j : Nat) (r : BitVec 512) (c' : Nat) : (s.handOver c j r).ch c' = s.ch c' := rfl
@[simp] theorem State.handOver_port (s : State) (c j : Nat) (r : BitVec 512) (p' : Nat) : (s.handOver c j r).port p' = s.port p' := rfl
@[simp] theorem State.handOver_byteAt (s : State) (c j : Nat) (r : BitVec 512) (a : Nat) : (s.handOver c j r).byteAt a = s.byteAt a := rfl
@[simp] theorem State.handOver_cfg (s : State) (c j : Nat) (r : BitVec 512) (i' : Nat) : (s.handOver c j r).cfg i' = s.cfg i' := rfl

/-! What the updates change. -/

theorem State.core_modCore (s : State) (c k : Nat) (f : Core → Core) :
    (s.modCore c f).core k = if k = c then f (s.core c) else s.core k := spGet_spMod _ _ _ _ _

@[simp] theorem State.core_modCore_same (s : State) (c : Nat) (f : Core → Core) : (s.modCore c f).core c = f (s.core c) := by
  simp [State.core_modCore]

theorem State.core_modCore_ne (s : State) (c k : Nat) (f : Core → Core) (h : k ≠ c) : (s.modCore c f).core k = s.core k := by
  simp [State.core_modCore, h]

theorem State.imp_modImp (s : State) (i k : Nat) (f : Imprint → Imprint) :
    (s.modImp i f).imp k = if k = i then f (s.imp i) else s.imp k := spGet_spMod _ _ _ _ _

@[simp] theorem State.imp_modImp_same (s : State) (i : Nat) (f : Imprint → Imprint) : (s.modImp i f).imp i = f (s.imp i) := by
  simp [State.imp_modImp]

theorem State.imp_modImp_ne (s : State) (i k : Nat) (f : Imprint → Imprint) (h : k ≠ i) : (s.modImp i f).imp k = s.imp k := by
  simp [State.imp_modImp, h]

theorem State.imp_modRun (s : State) (i k : Nat) (f : Run → Run) :
    (s.modRun i f).imp k = if k = i then { s.imp i with run := f (s.imp i).run } else s.imp k := State.imp_modImp _ _ _ _

@[simp] theorem State.imp_modRun_same (s : State) (i : Nat) (f : Run → Run) :
    (s.modRun i f).imp i = { s.imp i with run := f (s.imp i).run } := by simp [State.imp_modRun]

theorem State.imp_modRun_ne (s : State) (i k : Nat) (f : Run → Run) (h : k ≠ i) : (s.modRun i f).imp k = s.imp k := by
  simp [State.imp_modRun, h]

theorem State.imp_modServe (s : State) (i k : Nat) (f : Serve → Serve) :
    (s.modServe i f).imp k = if k = i then { s.imp i with serve := f (s.imp i).serve } else s.imp k := State.imp_modImp _ _ _ _

@[simp] theorem State.imp_modServe_same (s : State) (i : Nat) (f : Serve → Serve) :
    (s.modServe i f).imp i = { s.imp i with serve := f (s.imp i).serve } := by simp [State.imp_modServe]

theorem State.imp_modServe_ne (s : State) (i k : Nat) (f : Serve → Serve) (h : k ≠ i) : (s.modServe i f).imp k = s.imp k := by
  simp [State.imp_modServe, h]

/-- A folio that is changed is what the change makes of it. -/
theorem State.folio_modFolio (s : State) (i id : Nat) (f : Folio → Folio) :
    spGet none ((s.modFolio i id f).imp i).serve.folios id = (spGet none (s.imp i).serve.folios id).map f := by
  simp [State.modFolio]

theorem State.fn_modFn (s : State) (k j : Nat) (f : Fn → Fn) :
    (s.modFn k f).fn j = if j = k then f (s.fn k) else s.fn j := spGet_spMod _ _ _ _ _

@[simp] theorem State.fn_modFn_same (s : State) (k : Nat) (f : Fn → Fn) : (s.modFn k f).fn k = f (s.fn k) := by
  simp [State.fn_modFn]

theorem State.fn_modFn_ne (s : State) (k j : Nat) (f : Fn → Fn) (h : j ≠ k) : (s.modFn k f).fn j = s.fn j := by
  simp [State.fn_modFn, h]

theorem State.ch_modCh (s : State) (c k : Nat) (f : Channel → Channel) :
    (s.modCh c f).ch k = if k = c then f (s.ch c) else s.ch k := spGet_spMod _ _ _ _ _

@[simp] theorem State.ch_modCh_same (s : State) (c : Nat) (f : Channel → Channel) : (s.modCh c f).ch c = f (s.ch c) := by
  simp [State.ch_modCh]

theorem State.ch_modCh_ne (s : State) (c k : Nat) (f : Channel → Channel) (h : k ≠ c) : (s.modCh c f).ch k = s.ch k := by
  simp [State.ch_modCh, h]

theorem State.port_modPort (s : State) (p q : Nat) (f : Port → Port) :
    (s.modPort p f).port q = if q = p then f (s.port p) else s.port q := spGet_spMod _ _ _ _ _

@[simp] theorem State.port_modPort_same (s : State) (p : Nat) (f : Port → Port) : (s.modPort p f).port p = f (s.port p) := by
  simp [State.port_modPort]

theorem State.port_modPort_ne (s : State) (p q : Nat) (f : Port → Port) (h : q ≠ p) : (s.modPort p f).port q = s.port q := by
  simp [State.port_modPort, h]

@[simp] theorem State.emit_out (s : State) (e : Emission) : (s.emit e).out = s.out ++ [e] := rfl

@[simp] theorem State.modPower_power (s : State) (f : Power → Power) : (s.modPower f).power = f s.power := rfl

@[simp] theorem State.modSpdm_spdm (s : State) (f : Spdm → Spdm) : (s.modSpdm f).spdm = f s.spdm := rfl

@[simp] theorem State.modI3c_i3c (s : State) (f : I3cTarget → I3cTarget) : (s.modI3c f).i3c = f s.i3c := rfl

/-! A core's jobs. -/

theorem Core.job_modJob (c : Core) (j k : Nat) (f : CoreJob → CoreJob) :
    (c.modJob j f).job k = if k = j then f (c.job j) else c.job k := spGet_spMod _ _ _ _ _

@[simp] theorem Core.job_modJob_same (c : Core) (j : Nat) (f : CoreJob → CoreJob) : (c.modJob j f).job j = f (c.job j) := by
  simp [Core.job_modJob]

theorem Core.job_modJob_ne (c : Core) (j k : Nat) (f : CoreJob → CoreJob) (h : k ≠ j) : (c.modJob j f).job k = c.job k := by
  simp [Core.job_modJob, h]

@[simp] theorem Core.modJob_streams (c : Core) (j : Nat) (f : CoreJob → CoreJob) : (c.modJob j f).streams = c.streams := rfl

@[simp] theorem Core.modJob_inflight (c : Core) (j : Nat) (f : CoreJob → CoreJob) : (c.modJob j f).inflight = c.inflight := rfl

@[simp] theorem Core.modJob_fonts (c : Core) (j : Nat) (f : CoreJob → CoreJob) : (c.modJob j f).fonts = c.fonts := rfl

@[simp] theorem Core.modJob_stopped (c : Core) (j : Nat) (f : CoreJob → CoreJob) : (c.modJob j f).stopped = c.stopped := rfl

@[simp] theorem Core.modJob_stream (c : Core) (j k : Nat) (f : CoreJob → CoreJob) : (c.modJob j f).stream k = c.stream k := rfl

/-- A counter that is signalled rises by one, wrapping at 16 bits; no other changes (R298). -/
theorem Core.ctr_signalCtr (c : Core) (j k j' k' : Nat) :
    (c.signalCtr j k).ctr j' k' = if j' = j ∧ k' = k then (c.ctr j k + 1) % 65536 else c.ctr j' k' := by
  unfold Core.signalCtr Core.ctr
  rw [Core.job_modJob]
  by_cases hj : j' = j
  · subst hj
    simp only [if_true, spGet_spMod, true_and]
  · simp [hj]

end Sys2Proof.Machine
end

