-- ==== Sys2Proof/Laws/Ops.lean ====
section
/-!
SUPPORT. What the shared operations over T0 can do: which parts of the state they leave alone, what bytes they leave, and that they
keep the canonical form.
-/
namespace Sys2Proof.Machine

open Sys2Proof

/-- Two states that differ in T0 and in the reports of damage alone. -/
def OnlyT0 (s t : State) : Prop := t = { s with t0 := t.t0, reports := t.reports }

theorem OnlyT0.refl (s : State) : OnlyT0 s s := rfl

theorem OnlyT0.trans {s t u : State} (h : OnlyT0 s t) (g : OnlyT0 t u) : OnlyT0 s u := by
  unfold OnlyT0 at *; rw [g, h]

theorem OnlyT0.mk (s : State) (x : Case) (rs : List Report) : OnlyT0 s { s with t0 := x, reports := rs } := rfl

theorem OnlyT0.cores {s t : State} (h : OnlyT0 s t) : t.cores = s.cores := by rw [h]
theorem OnlyT0.imprints {s t : State} (h : OnlyT0 s t) : t.imprints = s.imprints := by rw [h]
theorem OnlyT0.pending {s t : State} (h : OnlyT0 s t) : t.pending = s.pending := by rw [h]
theorem OnlyT0.t1 {s t : State} (h : OnlyT0 s t) : t.t1 = s.t1 := by rw [h]
theorem OnlyT0.fns {s t : State} (h : OnlyT0 s t) : t.fns = s.fns := by rw [h]
theorem OnlyT0.fab {s t : State} (h : OnlyT0 s t) : t.fab = s.fab := by rw [h]
theorem OnlyT0.ports {s t : State} (h : OnlyT0 s t) : t.ports = s.ports := by rw [h]
theorem OnlyT0.out {s t : State} (h : OnlyT0 s t) : t.out = s.out := by rw [h]
theorem OnlyT0.core {s t : State} (h : OnlyT0 s t) (c : Nat) : t.core c = s.core c := by unfold State.core; rw [h.cores]
theorem OnlyT0.imp {s t : State} (h : OnlyT0 s t) (i : Nat) : t.imp i = s.imp i := by unfold State.imp; rw [h.imprints]
theorem OnlyT0.ch {s t : State} (h : OnlyT0 s t) (c : Nat) : t.ch c = s.ch c := by unfold State.ch; rw [h.t1]

theorem OnlyT0.foldl {α : Type} {f : State → α → State} (hf : ∀ s x, OnlyT0 s (f s x)) (xs : List α) (s : State) :
    OnlyT0 s (xs.foldl f s) := by
  induction xs generalizing s with
  | nil => exact OnlyT0.refl s
  | cons x xs ih => exact (hf s x).trans (ih (f s x))

/-! Reports and counts. -/

theorem report_only (s : State) (r : Report) : OnlyT0 s (s.report r) := by
  unfold State.report; split <;> rfl

@[simp] theorem report_t0 (s : State) (r : Report) : (s.report r).t0 = s.t0 := by unfold State.report; split <;> rfl

/-- After a report its place waits for the Compositor (R255). -/
theorem mem_report (s : State) (r : Report) : r ∈ (s.report r).reports := by
  unfold State.report
  split
  · rename_i h; simpa using h
  · simp

theorem count_eq (s : State) (i : Nat) (c : Ctr) (n : Nat) : s.count i c n = { s with imprints := (s.count i c n).imprints } := by
  unfold State.count; split <;> rfl

/-! Lines. -/

theorem badLine_only (s : State) (l : Nat) : OnlyT0 s (s.badLine l) := by
  unfold State.badLine
  exact (OnlyT0.mk s _ s.reports).trans (report_only _ _)

theorem fixCount_only (s : State) (l : Nat) : OnlyT0 s (s.fixCount l) := by
  unfold State.fixCount
  simp only
  split <;> rfl

theorem touchLine_only (s : State) (l : Nat) : OnlyT0 s (s.touchLine l) := by
  unfold State.touchLine
  split
  · exact badLine_only s l
  · exact fixCount_only s l

theorem freshLine_only (s : State) (l : Nat) : OnlyT0 s (s.freshLine l) := rfl

theorem prepLine_only (s : State) (a n l : Nat) : OnlyT0 s (s.prepLine a n l) := by
  unfold State.prepLine
  simp only
  split
  · exact freshLine_only s l
  · split
    · exact ((badLine_only s l).trans (OnlyT0.mk _ _ _)).trans (freshLine_only _ l)
    · exact (fixCount_only s l).trans (freshLine_only _ l)

@[simp] theorem badLine_bytes (s : State) (l : Nat) : (s.badLine l).t0.bytes = s.t0.bytes := by simp [State.badLine]
@[simp] theorem badLine_flips (s : State) (l : Nat) : (s.badLine l).t0.flips = s.t0.flips := by simp [State.badLine]

@[simp] theorem fixCount_bytes (s : State) (l : Nat) : (s.fixCount l).t0.bytes = s.t0.bytes := by
  unfold State.fixCount; simp only; split <;> rfl
@[simp] theorem fixCount_flips (s : State) (l : Nat) : (s.fixCount l).t0.flips = s.t0.flips := by
  unfold State.fixCount; simp only; split <;> rfl
@[simp] theorem fixCount_reports (s : State) (l : Nat) : (s.fixCount l).reports = s.reports := by
  unfold State.fixCount; simp only; split <;> rfl

@[simp] theorem touchLine_bytes (s : State) (l : Nat) : (s.touchLine l).t0.bytes = s.t0.bytes := by
  unfold State.touchLine; split <;> simp
@[simp] theorem touchLine_flips (s : State) (l : Nat) : (s.touchLine l).t0.flips = s.t0.flips := by
  unfold State.touchLine; split <;> simp

@[simp] theorem freshLine_bytes (s : State) (l : Nat) : (s.freshLine l).t0.bytes = s.t0.bytes := rfl

/-! Reading T0 (R231). -/

theorem t0Read_only (s : State) (a n : Nat) : OnlyT0 s (s.t0Read a n).2 := OnlyT0.foldl touchLine_only _ s

theorem foldl_touchLine_bytes (ls : List Nat) (s : State) : (ls.foldl State.touchLine s).t0.bytes = s.t0.bytes := by
  induction ls generalizing s with
  | nil => rfl
  | cons l ls ih => rw [List.foldl_cons, ih, touchLine_bytes]

theorem foldl_touchLine_flips (ls : List Nat) (s : State) : (ls.foldl State.touchLine s).t0.flips = s.t0.flips := by
  induction ls generalizing s with
  | nil => rfl
  | cons l ls ih => rw [List.foldl_cons, ih, touchLine_flips]

@[simp] theorem t0Read_bytes (s : State) (a n : Nat) : (s.t0Read a n).2.t0.bytes = s.t0.bytes := foldl_touchLine_bytes _ s
@[simp] theorem t0Read_flips (s : State) (a n : Nat) : (s.t0Read a n).2.t0.flips = s.t0.flips := foldl_touchLine_flips _ s
@[simp] theorem t0Read_byteAt (s : State) (a n x : Nat) : (s.t0Read a n).2.byteAt x = s.byteAt x := by simp [State.byteAt]

@[simp] theorem t0Read_length (s : State) (a n : Nat) : (s.t0Read a n).1.length = n := by
  unfold State.t0Read; simp only; split <;> simp

/-- A read of lines none of which is uncorrectable delivers what stands there. -/
theorem t0Read_good (s : State) (a n : Nat) (h : ∀ l ∈ linesOf a n, s.lineBad l = false) : (s.t0Read a n).1 = memRead s.t0.bytes a n := by
  unfold State.t0Read
  have : (linesOf a n).filter s.lineBad = [] := List.filter_eq_nil_iff.2 fun l hl => by simp [h l hl]
  simp [this]

theorem lineBad_sound (s : State) (l : Nat) (h : s.sound = true) : s.lineBad l = false := by
  unfold State.sound at h
  have hf : s.t0.flips = [] := by simpa using h
  simp [State.lineBad, State.flipsAt, hf]

theorem t0Read_sound (s : State) (a n : Nat) (h : s.sound = true) : (s.t0Read a n).1 = memRead s.t0.bytes a n :=
  t0Read_good s a n fun l _ => lineBad_sound s l h

/-! Writing T0 (R232). -/

theorem t0Write_only (s : State) (a : Nat) (bs : List Byte) : OnlyT0 s (s.t0Write a bs) := by
  unfold State.t0Write
  exact (OnlyT0.foldl (fun s l => prepLine_only s a bs.length l) _ s).trans (OnlyT0.mk _ _ _)

/-- A range that is written holds what was written. -/
theorem t0Write_holds (s : State) (a : Nat) (bs : List Byte) : (s.t0Write a bs).holds a bs := memRead_memWrite _ a bs

theorem prepLine_bytes_good (s : State) (a n l : Nat) (h : s.lineBad l = false) : (s.prepLine a n l).t0.bytes = s.t0.bytes := by
  unfold State.prepLine; simp only [h]; split <;> simp

theorem freshLine_flips_le (s : State) (l m : Nat) (h : s.lineBad m = false) : (s.freshLine l).lineBad m = false := by
  unfold State.lineBad State.flipsAt at *
  simp only [List.any_eq_false, decide_eq_true_eq] at *
  intro w hw hbad
  apply h w hw
  by_cases hd : w / 32 = l
  · exfalso
    have : (s.freshLine l).t0.flips.find? (fun x => x.1 == w) = none := by
      rw [List.find?_eq_none]
      intro x hx
      have hx' : x ∈ s.t0.flips.filter (fun x => x.1 / 32 != l) := hx
      simp only [List.mem_filter, bne_iff_ne] at hx'
      simp only [beq_iff_eq]
      intro he; apply hx'.2; rw [he]; exact hd
    rw [this] at hbad; simp at hbad
  · have : (s.freshLine l).t0.flips.find? (fun x => x.1 == w) = s.t0.flips.find? (fun x => x.1 == w) := by
      show (s.t0.flips.filter (fun x => x.1 / 32 != l)).find? _ = _
      rw [List.find?_filter]
      congr 1
      funext x
      by_cases hx : x.1 = w
      · simp [hx, hd]
      · simp [hx]
    rwa [this] at hbad

theorem lineBad_congr (s t : State) (l : Nat) (h : t.t0.flips = s.t0.flips) : t.lineBad l = s.lineBad l := by
  unfold State.lineBad State.flipsAt; rw [h]

theorem prepLine_lineBad (s : State) (a n l m : Nat) (h : s.lineBad m = false) : (s.prepLine a n l).lineBad m = false := by
  unfold State.prepLine
  simp only
  split
  · exact freshLine_flips_le s l m h
  · split
    · refine freshLine_flips_le _ l m ?_
      rw [lineBad_congr s _ m (by simp)]; exact h
    · refine freshLine_flips_le _ l m ?_
      rw [lineBad_congr s _ m (by simp)]; exact h

/-- A write over lines none of which is uncorrectable leaves exactly the bytes of a memory write. -/
theorem t0Write_bytes_good (s : State) (a : Nat) (bs : List Byte) (h : ∀ l ∈ linesOf a bs.length, s.lineBad l = false) :
    (s.t0Write a bs).t0.bytes = memWrite s.t0.bytes a bs := by
  have key : ∀ (ls : List Nat) (s : State), (∀ l ∈ ls, s.lineBad l = false) →
      (ls.foldl (fun s l => s.prepLine a bs.length l) s).t0.bytes = s.t0.bytes := by
    intro ls
    induction ls with
    | nil => intro s _; rfl
    | cons l ls ih =>
      intro s hs
      rw [List.foldl_cons, ih _ fun m hm => prepLine_lineBad s a bs.length l m (hs m (by simp [hm])),
        prepLine_bytes_good s a bs.length l (hs l (by simp))]
  show memWrite _ a bs = _
  rw [key _ s h]

theorem t0Write_bytes_sound (s : State) (a : Nat) (bs : List Byte) (h : s.sound = true) :
    (s.t0Write a bs).t0.bytes = memWrite s.t0.bytes a bs := t0Write_bytes_good s a bs fun l _ => lineBad_sound s l h

/-- A write to sound T0 changes no byte outside its range. -/
theorem t0Write_sameOutside (s : State) (a : Nat) (bs : List Byte) (h : s.sound = true) : s.sameOutside (s.t0Write a bs) a bs.length := by
  intro x hx
  unfold State.byteAt
  rw [t0Write_bytes_sound s a bs h, spGet_memWrite, if_neg]
  omega

theorem prepLine_sound (s : State) (a n l : Nat) (h : s.sound = true) : (s.prepLine a n l).sound = true := by
  have hf : s.t0.flips = [] := by simpa [State.sound] using h
  unfold State.prepLine
  simp only [lineBad_sound s l h]
  split <;> simp [State.sound, State.freshLine, hf]

theorem t0Write_sound (s : State) (a : Nat) (bs : List Byte) (h : s.sound = true) : (s.t0Write a bs).sound = true := by
  have key : ∀ (ls : List Nat) (s : State), s.sound = true → (ls.foldl (fun s l => s.prepLine a bs.length l) s).sound = true := by
    intro ls
    induction ls with
    | nil => intro s hs; exact hs
    | cons l ls ih => intro s hs; exact ih _ (prepLine_sound s a _ l hs)
  exact key _ s h

@[simp] theorem t0Read_sound_keep (s : State) (a n : Nat) : (s.t0Read a n).2.sound = s.sound := by simp [State.sound]

/-! A core's reads and writes (R224, R225). -/

theorem coreRead_only (s : State) (i a n : Nat) : OnlyT0 s (s.coreRead i a n).2.2 := by
  unfold State.coreRead
  split
  · exact OnlyT0.refl s
  · split
    · exact t0Read_only s a n
    · exact OnlyT0.refl s

@[simp] theorem coreRead_bytes (s : State) (i a n : Nat) : (s.coreRead i a n).2.2.t0.bytes = s.t0.bytes := by
  unfold State.coreRead; split <;> [rfl; split <;> simp]

@[simp] theorem coreRead_flips (s : State) (i a n : Nat) : (s.coreRead i a n).2.2.t0.flips = s.t0.flips := by
  unfold State.coreRead; split <;> [rfl; split <;> simp]

@[simp] theorem coreRead_length (s : State) (i a n : Nat) : (s.coreRead i a n).1.length = n := by
  unfold State.coreRead
  split
  · rename_i h; simp [h]
  · split <;> simp

/-- Inside its rights a core reads what stands in sound T0. -/
theorem coreRead_sound (s : State) (i a n : Nat) (h : s.sound = true) (hr : s.readable i a n = true) :
    (s.coreRead i a n).1 = memRead s.t0.bytes a n ∧ (s.coreRead i a n).2.1 = true := by
  simp only [State.readable, Bool.and_eq_true, decide_eq_true_eq] at hr
  unfold State.coreRead
  rw [if_neg (by omega), if_pos hr.2]
  exact ⟨t0Read_sound s a n h, rfl⟩

/-- Outside its rights it reads zeros and touches nothing (R225). -/
theorem coreRead_outside (s : State) (i a n : Nat) (hn : 0 < n) (h : s.mayReadAll i a n = false) :
    s.coreRead i a n = (List.replicate n 0#8, false, s) := by
  unfold State.coreRead
  rw [if_neg (by omega)]
  simp [h]

theorem coreWrite_only (s : State) (i a : Nat) (bs : List Byte) : OnlyT0 s (s.coreWrite i a bs).2 := by
  unfold State.coreWrite
  split
  · exact OnlyT0.refl s
  · split
    · exact t0Write_only s a bs
    · exact OnlyT0.refl s

/-- Inside its rights a core's write leaves its bytes. -/
theorem coreWrite_holds (s : State) (i a : Nat) (bs : List Byte) (h : s.writable i a bs.length = true) :
    (s.coreWrite i a bs).2.holds a bs := by
  simp only [State.writable, Bool.and_eq_true, decide_eq_true_eq] at h
  unfold State.coreWrite
  rw [if_neg (by cases bs <;> simp_all), if_pos h.2]
  exact t0Write_holds s a bs

/-- A core's write to sound T0 changes no byte outside its range. -/
theorem coreWrite_sameOutside (s : State) (i a : Nat) (bs : List Byte) (h : s.sound = true) :
    s.sameOutside (s.coreWrite i a bs).2 a bs.length := by
  unfold State.coreWrite
  split
  · intro x _; rfl
  · split
    · exact t0Write_sameOutside s a bs h
    · intro x _; rfl

theorem coreWrite_sound (s : State) (i a : Nat) (bs : List Byte) (h : s.sound = true) : (s.coreWrite i a bs).2.sound = true := by
  unfold State.coreWrite
  split
  · exact h
  · split
    · exact t0Write_sound s a bs h
    · exact h

/-- Outside its rights a core's write is dropped (R225). -/
theorem coreWrite_outside (s : State) (i a : Nat) (bs : List Byte) (hb : bs ≠ []) (h : s.mayWriteAll i a bs.length = false) :
    s.coreWrite i a bs = (false, s) := by
  unfold State.coreWrite
  rw [if_neg (by cases bs <;> simp_all)]
  simp [h]

end Sys2Proof.Machine
end

