-- ==== Sys2Proof/Laws/Canon.lean ====
section
/-!
SUPPORT. The shared operations keep the canonical form of memories and tables, and the queue of commands.
-/
namespace Sys2Proof.Machine

open Sys2Proof

/-- Canonical memories and tables. -/
def Canon (s : State) : Prop := s.memoryWf = true ∧ s.tablesWf = true

/-- A change that leaves the queue alone and keeps the canonical form. -/
def Keeps (s t : State) : Prop := t.pending = s.pending ∧ (Canon s → Canon t)

theorem canon_iff (s : State) : Canon s ↔ spWf 0#8 s.t0.bytes = true ∧ (∀ x ∈ s.t1, spWf 0#8 x.2.data = true)
    ∧ spWf Core.empty s.cores = true ∧ spWf Imprint.absent s.imprints = true ∧ spWf Fn.reset s.fns = true
    ∧ spWf Port.reset s.ports = true ∧ spWf Channel.empty s.t1 = true := by
  simp only [Canon, State.memoryWf, State.tablesWf, Bool.and_eq_true, List.all_eq_true]
  tauto

theorem reset_canon : Canon State.reset := by
  rw [canon_iff]
  refine ⟨rfl, ?_, rfl, rfl, rfl, rfl, rfl⟩
  intro x hx
  exact absurd hx (by simp [State.reset])

theorem Keeps.refl (s : State) : Keeps s s := ⟨rfl, id⟩

theorem Keeps.trans {s t u : State} (h : Keeps s t) (g : Keeps t u) : Keeps s u := ⟨g.1.trans h.1, g.2 ∘ h.2⟩

theorem Keeps.ite {s t u : State} {p : Prop} [Decidable p] (h : Keeps s t) (g : Keeps s u) : Keeps s (if p then t else u) := by
  split <;> assumption

theorem Keeps.foldl {α : Type} {f : State → α → State} (hf : ∀ s x, Keeps s (f s x)) (xs : List α) (s : State) :
    Keeps s (xs.foldl f s) := by
  induction xs generalizing s with
  | nil => exact Keeps.refl s
  | cons x xs ih => exact (hf s x).trans (ih (f s x))

/-- A change of none of the memories, tables and queue keeps them. -/
theorem Keeps.same {s t : State} (h0 : t.pending = s.pending) (h1 : t.t0 = s.t0) (h2 : t.t1 = s.t1) (h3 : t.cores = s.cores)
    (h4 : t.imprints = s.imprints) (h5 : t.fns = s.fns) (h6 : t.ports = s.ports) : Keeps s t := by
  refine ⟨h0, fun h => ?_⟩
  rw [canon_iff] at *
  rw [h1, h2, h3, h4, h5, h6]
  exact h

/-- A change of T0 and the reports alone keeps the form when it keeps that of the bytes. -/
theorem OnlyT0.keeps {s t : State} (h : OnlyT0 s t) (hb : spWf 0#8 s.t0.bytes = true → spWf 0#8 t.t0.bytes = true) : Keeps s t := by
  refine ⟨h.pending, fun hc => ?_⟩
  rw [canon_iff] at *
  rw [h.t1, h.cores, h.imprints, h.fns, h.ports]
  exact ⟨hb hc.1, hc.2⟩

theorem Keeps.modCore (s : State) (c : Nat) (f : Core → Core) : Keeps s (s.modCore c f) := by
  refine ⟨rfl, fun h => ?_⟩
  rw [canon_iff] at *
  exact ⟨h.1, h.2.1, spWf_spMod _ _ _ _ h.2.2.1, h.2.2.2⟩

theorem Keeps.modImp (s : State) (i : Nat) (f : Imprint → Imprint) : Keeps s (s.modImp i f) := by
  refine ⟨rfl, fun h => ?_⟩
  rw [canon_iff] at *
  exact ⟨h.1, h.2.1, h.2.2.1, spWf_spMod _ _ _ _ h.2.2.2.1, h.2.2.2.2⟩

theorem Keeps.modRun (s : State) (i : Nat) (f : Run → Run) : Keeps s (s.modRun i f) := Keeps.modImp s i _

theorem Keeps.modServe (s : State) (i : Nat) (f : Serve → Serve) : Keeps s (s.modServe i f) := Keeps.modImp s i _

theorem Keeps.modFn (s : State) (k : Nat) (f : Fn → Fn) : Keeps s (s.modFn k f) := by
  refine ⟨rfl, fun h => ?_⟩
  rw [canon_iff] at *
  exact ⟨h.1, h.2.1, h.2.2.1, h.2.2.2.1, spWf_spMod _ _ _ _ h.2.2.2.2.1, h.2.2.2.2.2⟩

theorem Keeps.modPort (s : State) (p : Nat) (f : Port → Port) : Keeps s (s.modPort p f) := by
  refine ⟨rfl, fun h => ?_⟩
  rw [canon_iff] at *
  exact ⟨h.1, h.2.1, h.2.2.1, h.2.2.2.1, h.2.2.2.2.1, spWf_spMod _ _ _ _ h.2.2.2.2.2.1, h.2.2.2.2.2.2⟩

theorem mem_spPut {α : Type} [DecidableEq α] (d : α) (m : Sp α) (k : Nat) (v : α) (y : Nat × α) (h : y ∈ spPut d m k v) :
    y = (k, v) ∨ y ∈ m := by
  unfold spPut at h
  split at h
  · exact Or.inr (List.mem_filter.1 h).1
  · rcases (mem_spInsert k v _ y).1 h with rfl | h
    · exact Or.inl rfl
    · exact Or.inr (List.mem_filter.1 h).1

theorem spGet_mem {α : Type} (d : α) (m : Sp α) (k : Nat) : spGet d m k = d ∨ (k, spGet d m k) ∈ m := by
  induction m with
  | nil => exact Or.inl rfl
  | cons x m ih =>
    rw [spGet_cons]
    split
    · rename_i h; right; simp [← h]
    · rcases ih with h | h
      · exact Or.inl h
      · exact Or.inr (List.mem_cons_of_mem _ h)

/-- Every channel's data has the form in a canonical state. -/
theorem Canon.ch {s : State} (h : Canon s) (c : Nat) : spWf 0#8 (s.ch c).data = true := by
  rw [canon_iff] at h
  rcases spGet_mem Channel.empty s.t1 c with hc | hc
  · unfold State.ch; rw [hc]; rfl
  · exact h.2.1 _ hc

/-- A change of a channel keeps the form when it keeps that of the channel's data. -/
theorem Keeps.modCh (s : State) (c : Nat) (f : Channel → Channel)
    (hf : spWf 0#8 (s.ch c).data = true → spWf 0#8 (f (s.ch c)).data = true) : Keeps s (s.modCh c f) := by
  refine ⟨rfl, fun h => ?_⟩
  have hd := hf (h.ch c)
  rw [canon_iff] at *
  refine ⟨h.1, ?_, h.2.2.1, h.2.2.2.1, h.2.2.2.2.1, h.2.2.2.2.2.1, spWf_spMod _ _ _ _ h.2.2.2.2.2.2⟩
  intro x hx
  rcases mem_spPut _ _ _ _ _ hx with rfl | hx
  · exact hd
  · exact h.2.1 x hx

theorem Keeps.emit (s : State) (e : Emission) : Keeps s (s.emit e) := Keeps.same rfl rfl rfl rfl rfl rfl rfl

theorem Keeps.setStream (s : State) (x : OutStream) : Keeps s (s.setStream x) := Keeps.same rfl rfl rfl rfl rfl rfl rfl

theorem Keeps.modPower (s : State) (f : Power → Power) : Keeps s (s.modPower f) := Keeps.same rfl rfl rfl rfl rfl rfl rfl

theorem Keeps.handOver (s : State) (c j : Nat) (r : BitVec 512) : Keeps s (s.handOver c j r) := Keeps.modCore s c _

theorem Keeps.count (s : State) (i : Nat) (c : Ctr) (n : Nat) : Keeps s (s.count i c n) := by
  unfold State.count
  exact Keeps.ite (Keeps.refl s) (Keeps.modRun s i _)

theorem Keeps.cause (s : State) (i code subject : Nat) : Keeps s (s.cause i code subject) := by
  unfold State.cause
  exact Keeps.ite (Keeps.refl s) (Keeps.same rfl rfl rfl rfl rfl rfl rfl)

theorem Keeps.report (s : State) (r : Report) : Keeps s (s.report r) := (report_only s r).keeps fun h => by simpa using h

theorem Keeps.t0Read (s : State) (a n : Nat) : Keeps s (s.t0Read a n).2 := (t0Read_only s a n).keeps fun h => by simpa using h

theorem Keeps.coreRead (s : State) (i a n : Nat) : Keeps s (s.coreRead i a n).2.2 :=
  (coreRead_only s i a n).keeps fun h => by simpa using h

theorem prepLine_wf (s : State) (a n l : Nat) (h : spWf 0#8 s.t0.bytes = true) : spWf 0#8 (s.prepLine a n l).t0.bytes = true := by
  unfold State.prepLine
  simp only
  split
  · exact h
  · split
    · exact spWf_memWrite _ _ _ (by simpa using h)
    · simpa using h

theorem t0Write_wf (s : State) (a : Nat) (bs : List Byte) (h : spWf 0#8 s.t0.bytes = true) :
    spWf 0#8 (s.t0Write a bs).t0.bytes = true := by
  have key : ∀ (ls : List Nat) (s : State), spWf 0#8 s.t0.bytes = true →
      spWf 0#8 (ls.foldl (fun s l => s.prepLine a bs.length l) s).t0.bytes = true := by
    intro ls
    induction ls with
    | nil => intro s hs; exact hs
    | cons l ls ih => intro s hs; exact ih _ (prepLine_wf s a _ l hs)
  exact spWf_memWrite _ _ _ (key _ s h)

theorem Keeps.t0Write (s : State) (a : Nat) (bs : List Byte) : Keeps s (s.t0Write a bs) := (t0Write_only s a bs).keeps (t0Write_wf s a bs)

theorem Keeps.coreWrite (s : State) (i a : Nat) (bs : List Byte) : Keeps s (s.coreWrite i a bs).2 := by
  unfold State.coreWrite
  split
  · exact Keeps.refl s
  · split
    · exact Keeps.t0Write s a bs
    · exact Keeps.refl s

/-! T1 (R237, R239, R249). -/

theorem Keeps.t1Put (s : State) (i a : Nat) (bs : List Byte) : Keeps s (s.t1Put i a bs) := by
  unfold State.t1Put
  exact Keeps.modCh _ _ _ fun h => spWf_memWrite _ _ _ h

/-! Fields apart from the memories and tables. -/

theorem Keeps.setIcu (s : State) (u : Icu) : Keeps s { s with icu := u } := Keeps.same rfl rfl rfl rfl rfl rfl rfl

theorem Keeps.setPower (s : State) (x : Power) : Keeps s { s with power := x } := Keeps.same rfl rfl rfl rfl rfl rfl rfl

theorem Keeps.putEd (s : State) (x : Editions) : Keeps s { s with ed := x } := Keeps.same rfl rfl rfl rfl rfl rfl rfl

theorem Keeps.setFab (s : State) (x : Fabric) : Keeps s { s with fab := x } := Keeps.same rfl rfl rfl rfl rfl rfl rfl

theorem Keeps.setBoot (s : State) (x : Boot) : Keeps s { s with boot := x } := Keeps.same rfl rfl rfl rfl rfl rfl rfl

/-! The host side. -/

theorem Keeps.modRing (s : State) (f k : Nat) (g : Ring → Ring) : Keeps s (s.modRing f k g) := Keeps.modFn s f _

theorem Keeps.raiseVector (s : State) (f v : Nat) : Keeps s (s.raiseVector f v) := by
  unfold State.raiseVector
  exact Keeps.ite (Keeps.refl s) (Keeps.ite (Keeps.modFn s f _) (Keeps.emit s _))

theorem Keeps.writeRing (s : State) (f k : Nat) (records : List (List Byte)) : Keeps s (s.writeRing f k records) := by
  unfold State.writeRing
  split
  · exact Keeps.refl s
  · rename_i r _
    refine Keeps.ite (Keeps.refl s) ?_
    have h := ((Keeps.foldl (fun s x => Keeps.emit s (.hostWrite f (r.entry.base + 32 * ((r.prod.toNat + x.2) % r.depth)) x.1))
      records.zipIdx s).trans (Keeps.emit _ (.hostWrite f r.entry.devWord (leBytes 4 (r.prod + BitVec.ofNat 32 records.length).toNat)))).trans
      (Keeps.modRing _ f k fun x => { x with prod := r.prod + BitVec.ofNat 32 records.length })
    exact Keeps.ite h (h.trans (Keeps.raiseVector _ f _))

theorem Keeps.writeEvents (s : State) (f n : Nat) (es : List (List Byte)) : Keeps s (s.writeEvents f n es) := by
  unfold State.writeEvents
  split
  · exact Keeps.modFn s f _
  · exact (Keeps.writeRing s f _ _).trans (Keeps.modFn _ f _)

theorem Keeps.event (s : State) (i : Nat) (bs : List Byte) : Keeps s (s.event i bs) := by
  unfold State.event
  exact Keeps.ite (Keeps.writeEvents s _ _ _) (Keeps.modServe s i _)

theorem Keeps.pfEvent (s : State) (bs : List Byte) : Keeps s (s.pfEvent bs) := Keeps.writeEvents s 0 0 _

theorem Keeps.packageEvent (s : State) (bs : List Byte) : Keeps s (s.packageEvent bs) :=
  (Keeps.pfEvent s bs).trans (Keeps.foldl (fun s i => Keeps.event s i bs) _ _)

theorem Keeps.flushPower (s : State) : Keeps s s.flushPower := by
  unfold State.flushPower
  refine Keeps.ite (Keeps.refl s) ?_
  exact (Keeps.same rfl rfl rfl rfl rfl rfl rfl).trans (Keeps.writeEvents _ 0 0 _)

theorem Keeps.powerEvent (s : State) (bs : List Byte) : Keeps s (s.powerEvent bs) := by
  unfold State.powerEvent
  refine Keeps.trans (Keeps.same rfl rfl rfl rfl rfl rfl rfl) (Keeps.ite (Keeps.refl _) (Keeps.flushPower _))

theorem Keeps.queueRecords (s : State) (f k : Nat) (rs : List (List Byte)) : Keeps s (s.queueRecords f k rs) := Keeps.modRing s f k _

theorem Keeps.writeBacklog (s : State) (f k : Nat) : Keeps s (s.writeBacklog f k) := by
  unfold State.writeBacklog
  split
  · exact Keeps.refl s
  · exact (Keeps.writeRing s f k _).trans (Keeps.modRing _ f k _)

/-! The interrupt controller. -/

theorem Keeps.updateLines (s : State) : Keeps s s.updateLines := by
  unfold State.updateLines
  refine Keeps.trans (Keeps.foldl (fun s k => ?_) (List.range 8) s) (Keeps.setIcu _ _)
  exact Keeps.ite (Keeps.emit s _) (Keeps.refl s)

theorem Keeps.deliverVector (s : State) (n : Nat) : Keeps s (s.deliverVector n) := by
  unfold State.deliverVector
  exact Keeps.ite (Keeps.raiseVector s _ _) (Keeps.setIcu s _)

theorem Keeps.noteOff (s : State) (off : List Nat) : Keeps s (s.noteOff off) := by
  cases off with
  | nil => exact Keeps.refl s
  | cons n ns => exact Keeps.setIcu s _

theorem Keeps.deliver (s : State) (before : Nat) : Keeps s (s.deliver before) := by
  unfold State.deliver
  extract_lets new vec firsts off
  exact ((Keeps.foldl Keeps.deliverVector firsts s).trans (Keeps.noteOff _ off)).trans (Keeps.updateLines _)

theorem Keeps.icuChange (s : State) (f : Icu → Icu) : Keeps s (s.icuChange f) :=
  Keeps.trans (Keeps.setIcu s _) (Keeps.deliver _ _)

theorem Keeps.sample (s : State) : Keeps s s.sample := by
  unfold State.sample
  generalize List.range 1024 = ns
  exact Keeps.ite (Keeps.setIcu s _) (Keeps.icuChange s _)

theorem Keeps.pulse (s : State) (n : Nat) : Keeps s (s.pulse n) := by
  unfold State.pulse
  exact Keeps.ite (Keeps.refl s) (Keeps.ite (Keeps.ite (Keeps.setIcu s _) (Keeps.refl s)) (Keeps.icuChange s _))

theorem Keeps.setEd (s : State) (f : Editions → Editions) : Keeps s (s.setEd f) := by
  unfold State.setEd
  exact Keeps.ite (Keeps.putEd s _) (Keeps.trans (Keeps.putEd s _) (Keeps.pulse _ 72))

/-! The sequencer. -/

/-- What an engine command can do (R297; log 3): it is handed over and has its effect, or nothing changes. -/
theorem command_cases (s : State) (core job op : Nat) (e : Nat → BitVec 512 → State → State) :
    (s.ready core job op = none ∧ s.command core job op e = .next s)
    ∨ ∃ i r, s.ready core job op = some (i, r) ∧ s.command core job op e
        = .next ((e i r (s.handOver core job r)).stampReports s.reports.length (s.readerOf core job i r)) := by
  unfold State.command
  cases h : s.ready core job op with
  | none => exact Or.inl ⟨rfl, rfl⟩
  | some x => exact Or.inr ⟨x.1, x.2, rfl, rfl⟩

/-- An engine command whose effect keeps the canonical form keeps it. -/
theorem Keeps.command {s t : State} {core job op : Nat} {e : Nat → BitVec 512 → State → State} (he : ∀ i r s, Keeps s (e i r s))
    (h : s.command core job op e = .next t) : Keeps s t := by
  rcases command_cases s core job op e with ⟨_, hc⟩ | ⟨i, r, _, hc⟩
  · rw [hc] at h; cases h; exact Keeps.refl s
  · rw [hc] at h; cases h; exact ((Keeps.handOver s core job r).trans (he i r _)).trans (Keeps.same rfl rfl rfl rfl rfl rfl rfl)

/-- A record that can be handed over is at the stream's position, of the opcode asked, on a core of the imprint (R297). -/
theorem ready_spec {s : State} {core job op i : Nat} {r : BitVec 512} (h : s.ready core job op = some (i, r)) :
    s.imprintOf core = some i ∧ (s.core core).next job = some r ∧ (cmdHead r).opcode = op ∧ s.stopped = false ∧ s.issueLevel ≠ 0
      ∧ (s.core core).stopped = false ∧ ((s.core core).job job).atQuoin = none ∧ (s.core core).heldJob job = true
      ∧ (s.core core).waitMet job (cmdHead r) = true ∧ (s.core core).queueRoom (cmdHead r) = true := by
  unfold State.ready at h
  simp only at h
  split at h
  · rename_i i' r' hi hr
    split at h
    · rename_i hc
      simp only [Bool.and_eq_true, decide_eq_true_eq, Bool.not_eq_true', bne_iff_ne, Option.isNone_iff_eq_none] at hc
      cases h
      obtain ⟨⟨⟨⟨⟨⟨⟨h1, h2⟩, h3⟩, h4⟩, h5⟩, h6⟩, h7⟩, h8⟩ := hc
      exact ⟨hi, hr, h1, h2, h3, h4, h5, h6, h7, h8⟩
    · exact absurd h (by simp)
  · exact absurd h (by simp)

end Sys2Proof.Machine
end

