-- ==== Sys2Proof/Laws/Engine.lean ====
section
/-!
SUPPORT. What the engines' shared operations can do outside their own core's stores: which parts of the state they leave alone, and
which bytes and channels they cannot reach.
-/
namespace Sys2Proof.Machine

open Sys2Proof

/-- What an effect of an engine command of imprint `i` on core `core` can do beyond the hand-over. -/
structure Eff (op core i : Nat) (s t : State) : Prop where
  rest : t = { s with t0 := t.t0, t1 := t.t1, reports := t.reports, imprints := t.imprints, cores := t.cores, fab := { s.fab with gates := t.fab.gates } }
  others : ∀ j, j ≠ i → t.imp j = s.imp j
  own : (s.imp i).sameBut (t.imp i)
  cores : ∀ k, k ≠ core → t.core k = s.core k
  core : (s.core core).sameBut op (t.core core)
  bytes : ∀ g, s.cfg i = some g → ∀ x, t0Core x < 192 → ¬ t0Core x ∈ g.cores → t.byteAt x = s.byteAt x
  chs : ∀ c, ¬ c ∈ s.channelSet i → t.ch c = s.ch c
  canon : Canon s → Canon t

theorem Core.sameBut_refl (op : Nat) (x : Core) : x.sameBut op x := by
  unfold Core.sameBut
  repeat' split
  all_goals rfl

theorem Core.sameBut_trans {op : Nat} {x y z : Core} (h : x.sameBut op y) (g : y.sameBut op z) : x.sameBut op z := by
  unfold Core.sameBut at *
  split at h
  · rw [if_pos ‹_›] at g ⊢; refine g.trans ?_; rw [h]
  rw [if_neg ‹_›] at g ⊢
  split at h
  · rw [if_pos ‹_›] at g ⊢; refine g.trans ?_; rw [h]
  rw [if_neg ‹_›] at g ⊢
  split at h
  · rw [if_pos ‹_›] at g ⊢; refine g.trans ?_; rw [h]
  rw [if_neg ‹_›] at g ⊢
  split at h
  · rw [if_pos ‹_›] at g ⊢; refine g.trans ?_; rw [h]
  rw [if_neg ‹_›] at g ⊢
  split at h
  · rw [if_pos ‹_›] at g ⊢; refine g.trans ?_; rw [h]
  rw [if_neg ‹_›] at g ⊢
  split at h
  · rw [if_pos ‹_›] at g ⊢; refine g.trans ?_; rw [h]
  rw [if_neg ‹_›] at g ⊢
  split at h
  · rw [if_pos ‹_›] at g ⊢; refine g.trans ?_; rw [h]
  rw [if_neg ‹_›] at g ⊢
  split at h
  · rw [if_pos ‹_›] at g ⊢; refine g.trans ?_; rw [h]
  rw [if_neg ‹_›] at g ⊢
  exact g.trans h

theorem Imprint.sameBut_refl (x : Imprint) : x.sameBut x := rfl

theorem Imprint.sameBut_trans {x y z : Imprint} (h : x.sameBut y) (g : y.sameBut z) : x.sameBut z := by
  unfold Imprint.sameBut at *
  refine g.trans ?_
  rw [h]

theorem Imprint.sameBut.cfg {x y : Imprint} (h : x.sameBut y) : y.cfg = x.cfg := by
  unfold Imprint.sameBut at h; rw [h]

theorem Imprint.sameBut.manifest {x y : Imprint} (h : x.sameBut y) : y.run.manifest = x.run.manifest := by
  unfold Imprint.sameBut at h; rw [h]

theorem Eff.cfg {op core i : Nat} {s t : State} (h : Eff op core i s t) : t.cfg i = s.cfg i := h.own.cfg

theorem Eff.channelSet {op core i : Nat} {s t : State} (h : Eff op core i s t) : t.channelSet i = s.channelSet i := by
  unfold State.channelSet; rw [h.own.cfg]

theorem Eff.refl (op core i : Nat) (s : State) : Eff op core i s s :=
  ⟨rfl, fun _ _ => rfl, rfl, fun _ _ => rfl, Core.sameBut_refl op _, fun _ _ _ _ _ => rfl, fun _ _ => rfl, id⟩

theorem Eff.trans {op core i : Nat} {s t u : State} (h : Eff op core i s t) (g : Eff op core i t u) : Eff op core i s u where
  rest := by
    have h1 := h.rest
    have g1 := g.rest
    refine g1.trans ?_
    rw [h1]
  others := fun j hj => (g.others j hj).trans (h.others j hj)
  own := Imprint.sameBut_trans h.own g.own
  cores := fun k hk => (g.cores k hk).trans (h.cores k hk)
  core := Core.sameBut_trans h.core g.core
  bytes := fun c hc x hx hn => (g.bytes c (h.cfg.trans hc) x hx hn).trans (h.bytes c hc x hx hn)
  chs := fun c hc => (g.chs c (by rw [h.channelSet]; exact hc)).trans (h.chs c hc)
  canon := g.canon ∘ h.canon

theorem Eff.ite {op core i : Nat} {s t u : State} {p : Prop} [Decidable p] (h : Eff op core i s t) (g : Eff op core i s u) :
    Eff op core i s (if p then t else u) := by
  split <;> assumption

theorem Eff.foldl {α : Type} {op core i : Nat} {f : State → α → State} (hf : ∀ s x, Eff op core i s (f s x)) (xs : List α) (s : State) :
    Eff op core i s (xs.foldl f s) := by
  induction xs generalizing s with
  | nil => exact Eff.refl op core i s
  | cons x xs ih => exact (hf s x).trans (ih (f s x))

/-- A fold that carries a value beside the state. -/
theorem Eff.foldl_snd {α β : Type} {op core i : Nat} {f : β × State → α → β × State} (hf : ∀ a x, Eff op core i a.2 (f a x).2)
    (xs : List α) (a : β × State) : Eff op core i a.2 (xs.foldl f a).2 := by
  induction xs generalizing a with
  | nil => exact Eff.refl op core i a.2
  | cons x xs ih => exact (hf a x).trans (ih (f a x))

theorem Eff.foldl_fst {α β : Type} {op core i : Nat} {f : State × β → α → State × β} (hf : ∀ a x, Eff op core i a.1 (f a x).1)
    (xs : List α) (a : State × β) : Eff op core i a.1 (xs.foldl f a).1 := by
  induction xs generalizing a with
  | nil => exact Eff.refl op core i a.1
  | cons x xs ih => exact (hf a x).trans (ih (f a x))

/-! T0. -/

/-- A change of T0 and reports alone that reaches no byte outside the imprint's slices. -/
theorem OnlyT0.eff {s t : State} (op core i : Nat) (h : OnlyT0 s t)
    (hb : ∀ g, s.cfg i = some g → ∀ x, t0Core x < 192 → ¬ t0Core x ∈ g.cores → t.byteAt x = s.byteAt x)
    (hw : spWf 0#8 s.t0.bytes = true → spWf 0#8 t.t0.bytes = true) : Eff op core i s t where
  rest := by
    unfold OnlyT0 at h
    rw [h]
  others := fun j _ => h.imp j
  own := by rw [h.imp]; exact Imprint.sameBut_refl _
  cores := fun k _ => h.core k
  core := by rw [h.core]; exact Core.sameBut_refl op _
  bytes := hb
  chs := fun c _ => h.ch c
  canon := (h.keeps hw).2

theorem Eff.report (op core i : Nat) (s : State) (r : Report) : Eff op core i s (s.report r) :=
  (report_only s r).eff op core i (fun _ _ x _ _ => by simp [State.byteAt]) fun h => by simpa using h

theorem Eff.t0Read (op core i : Nat) (s : State) (a n : Nat) : Eff op core i s (s.t0Read a n).2 :=
  (t0Read_only s a n).eff op core i (fun _ _ x _ _ => by simp) fun h => by simpa using h

theorem Eff.coreRead (op core i : Nat) (s : State) (k a n : Nat) : Eff op core i s (s.coreRead k a n).2.2 :=
  (coreRead_only s k a n).eff op core i (fun _ _ x _ _ => by simp [State.byteAt]) fun h => by simpa using h

theorem t0Core_eq (a : Nat) : t0Core a = a / 2 ^ 26 % 256 := by
  simp [t0Core, bitsOf, Nat.shiftRight_eq_div_pow]

/-- A range that a core may write touches no line of a slice outside its imprint. -/
theorem mayWriteAll_lines {s : State} {i a n : Nat} {g : ImprintCfg} (hc : s.cfg i = some g) (_hn : 0 < n)
    (hw : s.mayWriteAll i a n = true) {x : Nat} (hx : t0Core x < 192) (hg : ¬ t0Core x ∈ g.cores) :
    x / 256 < a / 256 ∨ (a + n - 1) / 256 < x / 256 := by
  by_contra hcon
  push Not at hcon
  obtain ⟨h1, h2⟩ := hcon
  unfold State.mayWriteAll at hw
  simp only [Bool.and_eq_true] at hw
  obtain ⟨⟨ha, hb⟩, hsame⟩ := hw
  have ea : t0Exists a = true := by
    unfold State.mayWrite at ha; simp only [Bool.and_eq_true] at ha; exact ha.1
  have eb : t0Exists (a + n - 1) = true := by
    unfold State.mayWrite at hb; simp only [Bool.and_eq_true] at hb; exact hb.1
  have la : a < 2 ^ 34 := by
    unfold t0Exists at ea; simp only [Bool.and_eq_true, decide_eq_true_eq] at ea; exact ea.1
  have lb : a + n - 1 < 2 ^ 34 := by
    unfold t0Exists at eb; simp only [Bool.and_eq_true, decide_eq_true_eq] at eb; exact eb.1
  rw [t0Core_eq] at hx
  by_cases hr : isReserve a = true
  · unfold isReserve at hr
    simp only [Bool.and_eq_true, decide_eq_true_eq, t0Core_eq] at hr
    omega
  · rw [if_neg hr] at hsame
    have hs : t0Core a = t0Core (a + n - 1) := by simpa using hsame
    have hin : t0Core a ∈ g.cores := by
      unfold State.mayWrite at ha
      have hc' : (s.imp i).cfg = some g := hc
      simp only [Bool.and_eq_true, Bool.or_eq_true] at ha
      rcases ha.2 with h | h
      · unfold State.ownSlice at h
        simp only [hc', Bool.and_eq_true] at h
        simpa using h.2
      · exfalso
        apply hr
        unfold State.draftArea at h
        simp only [Bool.and_eq_true, Bool.or_eq_true, beq_iff_eq] at h
        unfold isReserve
        simp only [Bool.and_eq_true, decide_eq_true_eq]
        rcases h.1 with h | h <;> omega
    apply hg
    have : t0Core x = t0Core a := by
      rw [t0Core_eq, t0Core_eq] at *
      omega
    rw [this]; exact hin

theorem prepLine_byteAt (s : State) (a n l x : Nat) (h : x / 256 ≠ l) : (s.prepLine a n l).byteAt x = s.byteAt x := by
  unfold State.byteAt State.prepLine
  simp only
  split
  · simp
  · split
    · simp only [freshLine_bytes, badLine_bytes]
      rw [spGet_memWrite, if_neg]
      simp only [List.length_replicate]; omega
    · simp

theorem mem_linesOf {a n l : Nat} : l ∈ linesOf a n ↔ 0 < n ∧ a / 256 ≤ l ∧ l ≤ (a + n - 1) / 256 := by
  unfold linesOf
  split
  · rename_i h; simp [h]
  · rename_i h
    simp only [List.mem_map, List.mem_range]
    constructor
    · rintro ⟨k, hk, rfl⟩
      have : a / 256 ≤ (a + n - 1) / 256 := Nat.div_le_div_right (by omega)
      omega
    · rintro ⟨_, h1, h2⟩
      exact ⟨l - a / 256, by omega, by omega⟩

/-- A T0 write changes no byte on a line that it does not touch. -/
theorem t0Write_byteAt (s : State) (a : Nat) (bs : List Byte) (x : Nat) (hb : bs ≠ [])
    (h : x / 256 < a / 256 ∨ (a + bs.length - 1) / 256 < x / 256) : (s.t0Write a bs).byteAt x = s.byteAt x := by
  have hl : 0 < bs.length := List.length_pos_iff.2 hb
  have key : ∀ (ls : List Nat) (s : State), (∀ l ∈ ls, x / 256 ≠ l) →
      (ls.foldl (fun s l => s.prepLine a bs.length l) s).byteAt x = s.byteAt x := by
    intro ls
    induction ls with
    | nil => intro s _; rfl
    | cons l ls ih =>
      intro s hs
      rw [List.foldl_cons, ih _ fun m hm => hs m (by simp [hm]), prepLine_byteAt s a bs.length l x (hs l (by simp))]
  have hk := key (linesOf a bs.length) s fun l hl => by
    rw [mem_linesOf] at hl; omega
  show spGet 0#8 (memWrite _ a bs) x = _
  rw [spGet_memWrite, if_neg (by omega)]
  exact hk

theorem Eff.coreWrite (op core : Nat) {i : Nat} (s : State) (a : Nat) (bs : List Byte) : Eff op core i s (s.coreWrite i a bs).2 := by
  refine (coreWrite_only s i a bs).eff op core i ?_ (fun h => ?_)
  · intro g hg x hx hn
    unfold State.coreWrite
    split
    · rfl
    · rename_i hb
      split
      · rename_i hw
        have hb' : bs ≠ [] := by simpa using hb
        exact t0Write_byteAt s a bs x hb' (mayWriteAll_lines hg (List.length_pos_iff.2 hb') hw hx hn)
      · rfl
  · unfold State.coreWrite
    split
    · exact h
    · split
      · exact t0Write_wf s a bs h
      · exact h

/-! Imprints and cores. -/

theorem Eff.modImp (op core : Nat) {i : Nat} (s : State) (f : Imprint → Imprint) (h : (s.imp i).sameBut (f (s.imp i))) :
    Eff op core i s (s.modImp i f) where
  rest := rfl
  others := fun j hj => State.imp_modImp_ne s i j f hj
  own := by rw [State.imp_modImp_same]; exact h
  cores := fun _ _ => rfl
  core := Core.sameBut_refl op _
  bytes := fun _ _ _ _ _ => rfl
  chs := fun _ _ => rfl
  canon := (Keeps.modImp s i f).2

theorem Eff.modRun (op core : Nat) {i : Nat} (s : State) (f : Run → Run)
    (h : (s.imp i).sameBut { s.imp i with run := f (s.imp i).run }) : Eff op core i s (s.modRun i f) := Eff.modImp op core s _ h

theorem Eff.count (op core : Nat) {i : Nat} (s : State) (c : Ctr) (n : Nat) : Eff op core i s (s.count i c n) := by
  unfold State.count
  exact Eff.ite (Eff.refl op core i s) (Eff.modRun op core s _ rfl)

theorem Eff.modCore {op core i : Nat} (s : State) (f : Core → Core) (h : (s.core core).sameBut op (f (s.core core))) :
    Eff op core i s (s.modCore core f) where
  rest := rfl
  others := fun _ _ => rfl
  own := rfl
  cores := fun k hk => State.core_modCore_ne s core k f hk
  core := by rw [State.core_modCore_same]; exact h
  bytes := fun _ _ _ _ _ => rfl
  chs := fun _ _ => rfl
  canon := (Keeps.modCore s core f).2

/-- The reports of a command name it; nothing else changes (R254). -/
theorem Eff.stampReports (op core i : Nat) (s : State) (n : Nat) (x : Reader) : Eff op core i s (s.stampReports n x) where
  rest := rfl
  others := fun _ _ => rfl
  own := rfl
  cores := fun _ _ => rfl
  core := Core.sameBut_refl op _
  bytes := fun _ _ _ _ _ => rfl
  chs := fun _ _ => rfl
  canon := id

/-! Reading tensors. -/

/-- A read that is made only where a length is not zero. -/
theorem Eff.readSlug (op core : Nat) {i : Nat} (s : State) (fonts : List Font) (format dec a room : Nat) :
    Eff op core i s (s.readSlug i fonts format dec a room).2 := by
  unfold State.readSlug
  extract_lets h e d p
  have h1 : Eff op core i s h.2.2 := Eff.coreRead op core i s i a _
  split
  · exact h1
  · exact h1.trans (Eff.coreRead op core i _ i _ _)

theorem Eff.deliverSlugs (op core : Nat) {i : Nat} (fonts : List Font) (format per elems : Nat) (cap : Option Nat) (stop n : Nat) :
    ∀ (s : State) (j a : Nat) (lost : Bool), Eff op core i s (s.deliverSlugs i fonts format per elems cap stop n j a lost).2 := by
  induction n with
  | zero => intro s j a lost; exact Eff.refl op core i s
  | succ n ih =>
    intro s j a lost
    unfold State.deliverSlugs
    extract_lets dec d off x rest
    refine Eff.trans ?_ (ih x.2 _ _ _)
    show Eff op core i s (if lost = true then (decideSlug fonts format dec [], s) else s.readSlug i fonts format dec a (cap.getD (stop - a))).2
    cases lost
    · exact Eff.readSlug op core s fonts format dec a _
    · exact Eff.refl op core i s

theorem Eff.readRange (op core : Nat) {i : Nat} (s : State) (fonts : List Font) (t : TensorDesc) (run : Bool)
    (format base elems lo hi : Nat) : Eff op core i s (s.readRange i fonts t run format base elems lo hi).2 := by
  unfold State.readRange
  split
  · exact Eff.deliverSlugs op core fonts format _ _ _ _ _ s _ _ _
  · exact Eff.coreRead op core i s i _ _

theorem Eff.readRanges (op core : Nat) {i : Nat} (fonts : List Font) (t : TensorDesc) (run : Bool) (format base elems : Nat)
    (xs : List (Nat × Nat)) : ∀ s : State, Eff op core i s (s.readRanges i fonts t run format base elems xs).2 := by
  induction xs with
  | nil => intro s; exact Eff.refl op core i s
  | cons x xs ih => intro s; exact (Eff.readRange op core s fonts t run format base elems x.1 x.2).trans (ih _)

theorem Eff.readRows (op core : Nat) {i : Nat} (s : State) (fonts : List Font) (t : TensorDesc) (r0 n k0 len : Nat) :
    Eff op core i s (s.readRows i fonts t r0 n k0 len).2 := by
  unfold State.readRows
  extract_lets f rb e codes bad b plane p
  have h : Eff op core i s e.2 := Eff.readRanges op core fonts t _ _ _ _ _ s
  split
  · exact h
  · exact h.trans (Eff.readRanges op core fonts t _ _ _ _ _ e.2)

theorem Eff.hurtSlot (op core : Nat) {i : Nat} (s : State) (n st : Nat) : Eff op core i s (s.hurtSlot i n st) := by
  unfold State.hurtSlot
  refine Eff.modRun op core s _ ?_
  split <;> rfl

theorem Eff.damageSlot (op core : Nat) {i : Nat} (s : State) (n st : Nat) : Eff op core i s (s.damageSlot i n st) := by
  unfold State.damageSlot
  split
  · exact Eff.report op core i s _
  · exact Eff.refl op core i s

theorem Eff.hurtRows (op core : Nat) {i : Nat} (s : State) (rows : List Nat) (st : Nat) : Eff op core i s (s.hurtRows i rows st) :=
  Eff.foldl (fun s n => Eff.damageSlot op core s n st) _ s

theorem Eff.hurtTensor (op core : Nat) {i : Nat} (s : State) (d st : Nat) : Eff op core i s (s.hurtTensor i d st) :=
  Eff.report op core i s _

theorem Eff.badIndex (op core : Nat) {i : Nat} (s : State) (a : Nat) : Eff op core i s (s.badIndex i a) := Eff.report op core i s _

theorem Eff.moveMarks (op core : Nat) {i : Nat} (s : State) (src n dst m num den : Nat) :
    Eff op core i s (s.moveMarks i src n dst m num den) := by
  unfold State.moveMarks
  exact Eff.ite (Eff.refl op core i s) (Eff.modRun op core s _ rfl)

theorem Eff.countSlugs (op core : Nat) {i : Nat} (s : State) (sts : List Nat) : Eff op core i s (s.countSlugs i sts) :=
  (Eff.count op core s _ _).trans (Eff.count op core _ _ _)

theorem Eff.slugTrouble (op core : Nat) {i : Nat} (s : State) (d : Nat) (shared : Bool) (rowOf : Nat → Nat) (x : RowsRead) :
    Eff op core i s (s.slugTrouble i d shared rowOf x) := by
  unfold State.slugTrouble
  refine (Eff.countSlugs op core s _).trans (Eff.foldl (fun s y => ?_) _ _)
  exact Eff.ite (Eff.hurtTensor op core s d y.2) (Eff.hurtRows op core s _ y.2)

/-! Writing results. -/

theorem Eff.countBlock (op core : Nat) {i : Nat} (s : State) (c st : Nat) (bs : List Byte) : Eff op core i s (s.countBlock c i st bs) := by
  unfold State.countBlock
  split
  · exact Eff.refl op core i s
  · split
    · exact Eff.refl op core i s
    · split
      · exact Eff.refl op core i s
      · exact (Eff.coreRead op core i s i _ _).trans (Eff.coreWrite op core _ _ _)

theorem Eff.writeSlug (op core : Nat) {i : Nat} (s : State) (c : Nat) (t : TensorDesc) (format a dec : Nat) (bs : List Byte) :
    Eff op core i s (s.writeSlug c i t format a dec bs) := by
  unfold State.writeSlug
  simp only
  split
  · exact Eff.coreWrite op core s _ _
  · exact (Eff.coreWrite op core s _ _).trans (Eff.countBlock op core _ c _ _)

theorem Eff.writeRegion (op core : Nat) {i : Nat} (s : State) (c : Nat) (t : TensorDesc) (run : Bool) (format base elems e0 : Nat)
    (bs : List Byte) : Eff op core i s (s.writeRegion c i t run format base elems e0 bs) := by
  unfold State.writeRegion
  split
  · refine Eff.foldl ?_ _ s
    intro s x
    exact Eff.writeSlug op core s c t format _ _ x.1
  · exact Eff.coreWrite op core s _ _

theorem Eff.writeTensorRows (op core : Nat) {i : Nat} (s : State) (c : Nat) (t : TensorDesc) (f : Elem) (sf : Scale) (r e : Nat)
    (xs : List (List F32)) : Eff op core i s (s.writeTensorRows c i t f sf r e xs) := by
  unfold State.writeTensorRows
  extract_lets qs s1
  refine (Eff.count op core s _ _).trans (Eff.foldl (fun s x => ?_) _ s1)
  dsimp only
  split
  · exact Eff.writeRegion op core s c t _ _ _ _ _ _
  · exact (Eff.writeRegion op core s c t _ _ _ _ _ _).trans (Eff.writeRegion op core _ c t _ _ _ _ _ _)

theorem Eff.writePlainRows (op core : Nat) {i : Nat} (s : State) (f : Elem) (sf : Scale) (a : Nat) (rows : List (List F32)) :
    Eff op core i s (s.writePlainRows i f sf a rows) := by
  unfold State.writePlainRows
  simp only
  split
  · exact (Eff.count op core s _ _).trans (Eff.coreWrite op core _ _ _)
  · exact ((Eff.count op core s _ _).trans (Eff.coreWrite op core _ _ _)).trans (Eff.coreWrite op core _ _ _)

theorem Eff.writeRows (op core : Nat) {i : Nat} (s : State) (c : Nat) (f : Elem) (sf : Scale) (a : Nat) (rows : List (List F32)) :
    Eff op core i s (s.writeRows c i f sf a rows) := by
  unfold State.writeRows
  split
  · exact Eff.ite (Eff.writeTensorRows op core s c _ f sf _ _ rows) (Eff.writePlainRows op core s f sf a rows)
  · exact Eff.writePlainRows op core s f sf a rows

theorem Eff.modFolio (op core : Nat) {i : Nat} (s : State) (id : Nat) (f : Folio → Folio) : Eff op core i s (s.modFolio i id f) :=
  Eff.modImp op core s _ rfl

theorem Eff.putFresh (op core : Nat) {i : Nat} (s : State) (kv : Elem) (scale : F32) (a : Nat) (xs : List F32) :
    Eff op core i s (s.putFresh i kv scale a xs) := Eff.coreWrite op core s _ _

theorem Eff.countFresh (op core : Nat) {i : Nat} (s : State) (kv : Elem) (scale : F32) (xs : List F32) :
    Eff op core i s (s.countFresh i kv scale xs) := (Eff.count op core s _ _).trans (Eff.count op core _ _ _)

theorem Eff.writeEntry (op core : Nat) {i : Nat} (s : State) (b : AttendBody) (value : Bool) (l : LayerCfg) (handle pos a : Nat)
    (xs : List F32) : Eff op core i s (s.writeEntry i b value l handle pos a xs) := by
  unfold State.writeEntry
  split
  · exact (Eff.countFresh op core s _ _ _).trans (Eff.putFresh op core _ _ _ _ _)
  · extract_lets own kept all mine scale s1 s2
    refine Eff.ite ((Eff.countFresh op core s _ _ _).trans (Eff.putFresh op core _ _ _ _ _)) ?_
    have h1 : Eff op core i s s1 := Eff.modRun op core s _ rfl
    have h2 : Eff op core i s1 s2 := Eff.modFolio op core s1 _ _
    exact ((h1.trans h2).trans (Eff.countFresh op core s2 _ _ _)).trans
      (Eff.foldl (fun s p => Eff.putFresh op core s _ _ _ _) _ _)

theorem Eff.writeFresh (op core : Nat) {i : Nat} (s : State) (b : AttendBody) (value : Bool) (l : LayerCfg) (e0 a : Nat)
    (rows : List (List F32)) : Eff op core i s (s.writeFresh i b value l e0 a rows) := by
  unfold State.writeFresh
  split
  · exact Eff.refl op core i s
  · exact Eff.foldl (fun s x => Eff.writeEntry op core s b value l _ _ _ _) _ s

theorem Eff.writeOut (op core : Nat) {i : Nat} (s : State) (c : Nat) (f : Elem) (sf : Scale) (a : Nat) (rows : List (List F32)) :
    Eff op core i s (s.writeOut c i f sf a rows) := by
  unfold State.writeOut
  split
  · split
    · exact Eff.ite (Eff.writeFresh op core s _ _ _ _ _ _) (Eff.writeRows op core s c f sf a rows)
    · exact Eff.writeRows op core s c f sf a rows
  · exact Eff.writeRows op core s c f sf a rows

/-! The matrix engines. -/

theorem Eff.densityRead (op core : Nat) {i : Nat} (s : State) (w : WatchPoint) (handle copy : Nat) :
    Eff op core i s (s.densityRead i w handle copy).2 := Eff.coreRead op core i s i _ _

theorem Eff.densityWrite (op core : Nat) {i : Nat} (s : State) (w : WatchPoint) (handle copy x : Nat) :
    Eff op core i s (s.densityWrite i w handle copy x) := Eff.coreWrite op core s _ _

theorem Eff.addTrips (op core : Nat) {i : Nat} (s : State) (seen : List (Nat × Nat)) (ts : List Trip) :
    Eff op core i s (s.modRun i fun r => { r with observed := r.observed ++ seen, trips := r.trips ++ ts }) :=
  Eff.modRun op core s _ rfl

theorem Eff.observeRow (op core : Nat) {i : Nat} (s : State) (w row : Nat) (sq : F32) (n : Nat) (t : Slot) :
    Eff op core i s (s.observeRow i w row sq n t) := by
  unfold State.observeRow
  split
  · exact Eff.refl op core i s
  · split
    · exact Eff.refl op core i s
    · extract_lets rows first old o trip
      have h : Eff op core i s old.2 := Eff.densityRead op core s _ _ _
      clear_value trip o
      exact (h.trans (Eff.densityWrite op core old.2 _ _ _ _)).trans (Eff.addTrips op core _ _ _)

theorem Eff.observeSlot (op core : Nat) {i : Nat} (w n : Nat) (t : Slot) (rows : List Nat) :
    ∀ s : State, Eff op core i s (s.observeSlot i w n t rows) := by
  induction rows with
  | nil => intro s; exact Eff.refl op core i s
  | cons row rows ih =>
    intro s
    unfold State.observeSlot
    refine Eff.ite (ih s) ?_
    split
    · exact (Eff.observeRow op core s w row _ n t).trans (ih _)
    · exact Eff.refl op core i s

theorem Eff.addSquares (op core : Nat) {i : Nat} (s : State) (w row c col : Nat) (sq : List F32) :
    Eff op core i s (s.addSquares i w row c col sq) := by
  unfold State.addSquares
  extract_lets s1 ps cores sums s2
  have h1 : Eff op core i s s1 := Eff.modRun op core s _ rfl
  have h2 : Eff op core i s1 s2 := Eff.modRun op core s1 _ rfl
  refine Eff.ite h1 ((h1.trans h2).trans ?_)
  split
  · split
    · exact Eff.observeSlot op core w _ _ _ s2
    · exact Eff.refl op core i s2
  · exact Eff.refl op core i s2

theorem Eff.plateRows (op core : Nat) {i : Nat} (s : State) (c lane d r0 n k0 len : Nat) :
    Eff op core i s (s.plateRows c i lane d r0 n k0 len).2 := by
  unfold State.plateRows
  split
  · exact Eff.refl op core i s
  · exact (Eff.readRows op core s _ _ _ _ _ _).trans (Eff.slugTrouble op core _ _ _ _ _)

theorem Eff.adapterTrouble (op core : Nat) {i : Nat} (s : State) (c lane : Nat) (b : MatrixBody) (p : PlateEntry) (k kTotal : Nat)
    (batch : List (Option Nat)) : Eff op core i s (s.adapterTrouble c i lane b p k kTotal batch) := by
  unfold State.adapterTrouble
  refine Eff.foldl (fun s q => ?_) _ s
  split
  · exact Eff.refl op core i s
  · exact (Eff.countSlugs op core s _).trans (Eff.foldl (fun s st => Eff.report op core i s _) _ _)

end Sys2Proof.Machine
end

