-- ==== Sys2Proof/Laws/Tiles.lean ====
section
/-!
SUPPORT. What each engine command on the package can do beyond its hand-over: it is an effect of its own core and imprint.
-/
namespace Sys2Proof.Machine

open Sys2Proof

/-! The matrix engines. -/

theorem Eff.stageRows (roller : Bool) {core i : Nat} (s : State) (a : Nat) (bs : List Byte) (f : List Staged → List Staged) :
    Eff (if roller then 0x21 else 0x11) core i s
      (s.modCore core fun c => { c.stage roller a bs with staged := f (c.stage roller a bs).staged }) := by
  refine Eff.modCore s _ ?_
  cases roller <;> rfl

theorem Eff.loadOperand (roller : Bool) {core i : Nat} (r : BitVec 512) (s : State) :
    Eff (if roller then 0x21 else 0x11) core i s (loadOperand roller core i r s) := by
  have hs := @Eff.stageRows roller core i
  generalize (if roller then 0x21 else 0x11) = op at hs ⊢
  unfold Sys2Proof.Machine.loadOperand
  extract_lets b fonts
  split
  · exact Eff.refl _ core i s
  · extract_lets row0 expert marks x bad s1 s2
    have h0 : Eff op core i s x.2 := Eff.readRows _ core s _ _ _ _ _ _
    have h1 : Eff op core i x.2 s1 := Eff.ite (Eff.countSlugs _ core _ _) (Eff.slugTrouble _ core _ _ _ _ _)
    have h2 : Eff op core i s1 s2 :=
      Eff.ite (Eff.refl _ core i s1) (Eff.ite (Eff.hurtTensor _ core s1 _ _) (Eff.hurtRows _ core s1 _ _))
    exact ((h0.trans h1).trans h2).trans (hs s2 _ _ fun g => _ :: g.filter _)

theorem Eff.setRank {op core i : Nat} (hop : op = 0x10 ∨ op = 0x20) (s : State) (f : Core → Sp F32) :
    Eff op core i s (s.modCore core fun c => { c with rank := f c }) := by
  refine Eff.modCore s _ ?_
  rcases hop with rfl | rfl <;> rfl

theorem Eff.downStage {op core i : Nat} (hop : op = 0x10 ∨ op = 0x20) (s : State) (lane : Nat) (b : MatrixBody) (p : PlateEntry)
    (k kTotal : Nat) (rows : OpRows) (block : Nat) (ts : Num) (batch : Nat → Option Nat) :
    Eff op core i s (s.downStage core i lane b p k kTotal rows block ts batch) := by
  unfold State.downStage
  extract_lets fonts range corr c s1
  have h1 : Eff op core i s s1 := by
    show Eff op core i s (if corr.isEmpty then ([], s) else s.plateRows core i lane p.vDesc (corr.headD 0) corr.length b.wK k).2
    split
    · exact Eff.refl op core i s
    · exact Eff.plateRows op core s core lane _ _ _ _ _
  refine h1.trans (Eff.foldl ?_ _ s1)
  intro s x
  extract_lets ad
  refine Eff.foldl ?_ _ s
  intro s j
  exact Eff.setRank hop s _

theorem Eff.setScale (op core : Nat) {i : Nat} (s : State) (f : Run → Sp F32) :
    Eff op core i s (s.modRun i fun r => { r with scales := f r }) := Eff.modRun op core s _ rfl

theorem Eff.markRows (op core : Nat) {i : Nat} (s : State) (xs : List (Nat × Nat)) :
    Eff op core i s (s.modRun i fun r => { r with badRows := r.badRows ++ xs }) := Eff.modRun op core s _ rfl

theorem Eff.writeTile (op core : Nat) {i : Nat} (s : State) (c : Nat) (b : MatrixBody) (batch marks : List (Option Nat))
    (out : List (List F32)) : Eff op core i s (s.writeTile c i b batch marks out) := by
  unfold State.writeTile
  extract_lets s1 rowsOut s2 f stride spoiled s3 s4
  have h1 : Eff op core i s s1 := by
    refine Eff.ite (Eff.refl op core i s) (Eff.foldl ?_ _ s)
    intro s x
    cases x.2 with
    | none => exact Eff.refl op core i s
    | some row => exact Eff.addSquares op core s _ _ _ _ _
  have h2 : Eff op core i s1 s2 := by
    show Eff op core i s1 (match s1.runtimeAt i b.outAddr with | some (d, _) => _ | none => _)
    cases s1.runtimeAt i b.outAddr with
    | none => exact Eff.refl op core i s1
    | some d => exact Eff.setScale op core s1 _
  have h3 : Eff op core i s2 s3 := Eff.foldl (fun s _ => Eff.moveMarks op core s _ _ _ _ _ _) _ s2
  have h4 : Eff op core i s3 s4 := Eff.ite (Eff.refl op core i s3) (Eff.markRows op core s3 _)
  exact (((h1.trans h2).trans h3).trans h4).trans (Eff.writeOut op core s4 c _ _ _ _)

theorem Core.keepWeights_sameBut (roller : Bool) (c : Core) (w : TensorDesc) (x : RowsRead) (n passes len : Nat) :
    c.sameBut (if roller then 0x20 else 0x10) (c.keepWeights roller w x n passes len) := by
  cases roller <;> rfl

theorem Eff.matrixTile (roller : Bool) {core i : Nat} (r : BitVec 512) (s : State) :
    Eff (if roller then 0x20 else 0x10) core i s (matrixTile roller core i r s) := by
  have hop : (if roller then 0x20 else 0x10) = 0x10 ∨ (if roller then 0x20 else 0x10) = 0x20 := by cases roller <;> simp
  have hk : ∀ (s : State) w x n p l, Eff (if roller then 0x20 else 0x10) core i s
      (s.modCore core fun c => c.keepWeights roller w x n p l) :=
    fun s w x n p l => Eff.modCore s _ (Core.keepWeights_sameBut roller _ w x n p l)
  have ha : ∀ (s : State) (accs : Sp F32), Eff (if roller then 0x20 else 0x10) core i s
      (s.modCore core fun c => if roller then { c with accR := accs } else { c with accP := accs }) := by
    intro s accs
    refine Eff.modCore s _ ?_
    cases roller <;> rfl
  generalize (if roller then 0x20 else 0x10) = op at hop hk ha ⊢
  unfold Sys2Proof.Machine.matrixTile
  extract_lets b lane c known half
  split
  · split
    · exact Eff.refl op core i s
    · rename_i w a _ _ _ cl _
      extract_lets len k rows batch wr s1 wx s2 s3 g ta tw plate s4 s5 ups s6 accs out accs2 s7 shared marks
      have h1 : Eff op core i s s1 := (Eff.readRows _ core s _ _ _ _ _ _).trans (Eff.slugTrouble _ core _ _ _ _ _)
      have h2 : Eff op core i s1 s2 := Eff.ite (Eff.hurtTensor _ core s1 _ _) (Eff.refl _ core i s1)
      have h3 : Eff op core i s2 s3 := hk s2 _ _ _ _ _
      have h4 : Eff op core i s3 s4 := by
        show Eff op core i s3 (match plate with | some p => _ | none => _)
        cases plate with
        | none => exact Eff.refl op core i s3
        | some p => exact Eff.adapterTrouble op core s3 _ _ _ _ _ _ _
      have h5 : Eff op core i s4 s5 := by
        show Eff op core i s4 (match plate with | some p => _ | none => _)
        cases plate with
        | none => exact Eff.refl op core i s4
        | some p => exact Eff.ite (Eff.downStage hop s4 _ _ _ _ _ _ _ _ _) (Eff.refl op core i s4)
      have h6 : Eff op core i s5 s6 := by
        show Eff op core i s5 ups.2
        have : ∀ q : Option PlateEntry, Eff op core i s5 (match q with
          | some p => if b.up && 0 < p.rc then s5.plateRows core i lane p.uDesc b.wCol b.n 0 p.rc else ([], s5)
          | none => ([], s5)).2 := by
          intro q
          cases q with
          | none => exact Eff.refl op core i s5
          | some p =>
            dsimp only
            split
            · exact Eff.plateRows op core s5 core lane _ _ _ _ _
            · exact Eff.refl op core i s5
        exact this plate
      have h7 : Eff op core i s6 s7 := ha s6 _
      have h07 := ((((((h1.trans h2).trans h3).trans h4).trans h5).trans h6).trans h7)
      exact Eff.ite h07 (h07.trans (Eff.writeTile op core s7 core _ _ _ _))
  · exact Eff.refl op core i s

/-! The galley. -/

theorem Eff.putStates {op core i : Nat} (hop : op = 0x30 ∨ op = 0x31) (s : State) (d row : Nat) (states : List AttState) :
    Eff op core i s (s.modCore core fun c => states.zipIdx.foldl (fun c x => c.putAtt d (row + x.2) x.1) c) := by
  refine Eff.modCore s _ ?_
  have key : ∀ (xs : List (AttState × Nat)) (c : Core), c.sameBut op (xs.foldl (fun c x => c.putAtt d (row + x.2) x.1) c) := by
    intro xs
    induction xs with
    | nil => exact fun c => Core.sameBut_refl op c
    | cons x xs ih =>
      intro c
      refine Core.sameBut_trans ?_ (ih _)
      rcases hop with rfl | rfl <;> rfl
  exact key _ _

theorem Eff.folioKeys (op core : Nat) {i : Nat} (s : State) (l : LayerCfg) (slice page entry : Nat) :
    Eff op core i s (s.folioKeys i l slice page entry).2 := by
  have key : ∀ P : List (List Key) × State → Prop, (∀ x t, Eff op core i s t → P (x, t)) → P (s.folioKeys i l slice page entry) := by
    intro P hP
    have hr : ∀ s a n, Eff op core i s (s.coreRead i a n).2.2 := fun s a n => Eff.coreRead op core i s i a n
    unfold State.folioKeys
    extract_lets id tier a rb h f base sound b row keys
    clear_value keys row id tier a rb sound base f
    have h1 : Eff op core i s h.2.2 := hr _ _ _
    have h2 : Eff op core i h.2.2 b.2.2 := hr _ _ _
    clear_value b
    clear_value h
    refine iteInduction (motive := P) (fun _ => hP _ _ (Eff.refl op core i s)) (fun _ => ?_)
    refine iteInduction (motive := P) (fun _ => hP _ _ (h1.trans (Eff.badIndex op core _ _))) (fun _ => ?_)
    exact iteInduction (motive := P) (fun _ => hP _ _ (Eff.ite h1 (h1.trans (Eff.report op core i _ _)))) (fun _ => hP _ _ (h1.trans h2))
  exact key (fun r => Eff op core i s r.2) fun _ _ h => h

theorem Eff.freshKeys (op core : Nat) {i : Nat} (s : State) (l : LayerCfg) (b : AttendBody) (t : Slot) (k : Nat) :
    Eff op core i s (s.freshKeys i k l b t).2 := by
  unfold State.freshKeys
  exact (Eff.coreRead op core i s i _ _).trans (Eff.coreRead op core i _ i _ _)

theorem Eff.queryRows (op core : Nat) {i : Nat} (s : State) (c off d rows : Nat) :
    Eff op core i s (s.queryRows i c off d rows).2 := by
  unfold State.queryRows
  extract_lets q a f sf ts rb x codes nb p o
  exact (Eff.coreRead op core i s i a _).trans (Eff.coreRead op core i _ i _ _)

theorem Eff.shardKeys (op core : Nat) {i : Nat} (s : State) (c : Nat) (l : LayerCfg) (b : AttendBody) :
    Eff op core i s (s.shardKeys c i l b).2 := by
  unfold State.shardKeys
  extract_lets page
  clear_value page
  cases page with
  | none => exact Eff.refl op core i s
  | some a =>
    dsimp only
    have hp : Eff op core i s (s.coreRead i a (8 * b.e)).2.2 := Eff.coreRead op core i s i _ _
    generalize s.coreRead i a (8 * b.e) = p at hp ⊢
    refine hp.trans (Eff.foldl_snd ?_ _ (([] : List (List Key)), p.2.2))
    intro acc e
    exact Eff.folioKeys op core acc.2 l _ _ _

/-- A read that a command makes only sometimes. -/
theorem Eff.maybeRead (op core : Nat) {i : Nat} (b : Bool) (s : State) (a n : Nat) :
    Eff op core i s (if b then s.coreRead i a n else ([], true, s)).2.2 := by
  cases b
  · exact Eff.refl op core i s
  · exact Eff.coreRead op core i s i a n

theorem Eff.tileMasks (op core : Nat) {i : Nat} (s : State) (c : Nat) (l : LayerCfg) (b : AttendBody) (slot : Option Slot) :
    Eff op core i s (s.tileMasks c i l b slot).2 := by
  unfold State.tileMasks
  extract_lets sx segs nodes tx par
  exact (Eff.maybeRead op core b.document s _ _).trans (Eff.coreRead op core i _ i _ _)

theorem Eff.writeAtt (op core : Nat) {i : Nat} (s : State) (c : Nat) (final : Bool) (outFmt outSf : Nat) (factor : F32) (off : Nat)
    (rows : List AttState) : Eff op core i s (s.writeAtt c i final outFmt outSf factor off rows) := by
  unfold State.writeAtt
  exact Eff.ite (Eff.writeRows op core s c _ _ _ _) (Eff.coreWrite op core s _ _)

theorem Eff.attendTile {core i : Nat} (r : BitVec 512) (s : State) : Eff 0x30 core i s (attendTile core i r s) := by
  unfold Sys2Proof.Machine.attendTile
  extract_lets b slot
  split
  · exact Eff.refl _ core i s
  · rename_i l _
    extract_lets qx fo fx mx mk s1 c states s2
    have h1 : Eff 0x30 core i s qx.2 := Eff.queryRows _ core s _ _ _ _
    have h2 : Eff 0x30 core i qx.2 fo.2 := Eff.shardKeys _ core qx.2 core l b
    have h3 : Eff 0x30 core i fo.2 fx.2 := by
      show Eff 0x30 core i fo.2 (match slot with
        | some t => if b.nF = 0 then ([], fo.2) else fo.2.freshKeys i core l b t
        | none => ([], fo.2)).2
      cases slot with
      | none => exact Eff.refl _ core i fo.2
      | some t =>
        dsimp only
        split
        · exact Eff.refl _ core i fo.2
        · exact Eff.freshKeys _ core fo.2 l b t core
    have h4 : Eff 0x30 core i fx.2 mx.2 := Eff.tileMasks _ core fx.2 core l b slot
    have h5 : Eff 0x30 core i mx.2 s1 := Eff.ite (Eff.damageSlot _ core mx.2 _ _) (Eff.refl _ core i mx.2)
    have h6 : Eff 0x30 core i s1 s2 := Eff.putStates (Or.inl rfl) s1 _ _ _
    have h := ((((h1.trans h2).trans h3).trans h4).trans h5).trans h6
    exact Eff.ite h (h.trans (Eff.writeAtt _ core s2 core _ _ _ _ _ _))

/-! Commands whose effect is an effect. -/

/-- What an engine command does once it is ready: it is handed over, and the rest is an effect of its core and imprint. -/
def EffCommand (core job op : Nat) (c : Host.Outcome State Fault Refusal) (s : State) : Prop :=
  ∀ i r, s.ready core job op = some (i, r) → ∃ t, c = .next t ∧ Eff op core i (s.handOver core job r) t

theorem EffCommand.of {s : State} {core job op : Nat} {e : Nat → BitVec 512 → State → State}
    (he : ∀ i r s, s.imprintOf core = some i → Eff op core i s (e i r s)) : EffCommand core job op (s.command core job op e) s := by
  intro i r h
  unfold State.command
  rw [h]
  exact ⟨_, rfl, (he i r (s.handOver core job r) (ready_spec h).1).trans (Eff.stampReports op core i _ _ _)⟩

theorem eff_seqNop (core : Fin 192) (job : Fin 8) (s : State) : EffCommand core.val job.val 0x00 (execSeqNop core job s) s :=
  EffCommand.of fun _ _ s _ => Eff.ite (Eff.modCore s _ rfl) (Eff.refl _ _ _ s)

theorem eff_quoin (core : Fin 192) (job : Fin 8) (s : State) : EffCommand core.val job.val 0x01 (execQuoin core job s) s :=
  EffCommand.of fun _ _ s _ => Eff.modCore s _ rfl

theorem eff_fontLoad (core : Fin 192) (job : Fin 8) (s : State) : EffCommand core.val job.val 0x02 (execFontLoad core job s) s :=
  EffCommand.of fun i r s _ => by
    extract_lets lane reg a damaged x font s1 id
    have h : Eff 0x02 core.val i s s1 := (Eff.coreRead _ core.val i s i a 512).trans (Eff.modCore _ _ rfl)
    exact Eff.ite (h.trans (Eff.report _ _ i s1 _)) h

theorem eff_aLoad (core : Fin 192) (job : Fin 8) (s : State) : EffCommand core.val job.val 0x11 (execALoad core job s) s :=
  EffCommand.of fun _ r s _ => Eff.loadOperand false r s

theorem eff_tLoad (core : Fin 192) (job : Fin 8) (s : State) : EffCommand core.val job.val 0x21 (execTLoad core job s) s :=
  EffCommand.of fun _ r s _ => Eff.loadOperand true r s

theorem eff_platenTile (core : Fin 192) (job : Fin 8) (s : State) : EffCommand core.val job.val 0x10 (execPlatenTile core job s) s :=
  EffCommand.of fun _ r s _ => Eff.matrixTile false r s

theorem eff_rollerTile (core : Fin 192) (job : Fin 8) (s : State) : EffCommand core.val job.val 0x20 (execRollerTile core job s) s :=
  EffCommand.of fun _ r s _ => Eff.matrixTile true r s

theorem eff_attend (core : Fin 192) (job : Fin 8) (s : State) : EffCommand core.val job.val 0x30 (execAttend core job s) s :=
  EffCommand.of fun _ r s _ => Eff.attendTile r s

end Sys2Proof.Machine
end

