-- ==== Sys2Proof/Laws/Vectors.lean ====
section
/-!
SUPPORT. The Setter's, the Imposer's and Chase's commands on the package are effects of their own core and imprint.
-/
namespace Sys2Proof.Machine

open Sys2Proof

theorem eff_merge (core : Fin 192) (job : Fin 8) (s : State) : EffCommand core.val job.val 0x31 (execMerge core job s) s :=
  EffCommand.of fun i r s _ => by
    extract_lets b
    split
    · exact Eff.refl _ _ i s
    · extract_lets n x s1 c states s2
      have h1 : Eff 0x31 core.val i s s1 := Eff.coreRead _ _ i s i _ _
      have h2 : Eff 0x31 core.val i s1 s2 := Eff.putStates (Or.inr rfl) s1 _ _ _
      exact (h1.trans h2).trans (Eff.writeAtt _ _ s2 core.val _ _ _ _ _ _)

/-! The Setter. -/

theorem Eff.readVals (op core : Nat) {i : Nat} (s : State) (fmt a n : Nat) : Eff op core i s (s.readVals i fmt a n).2 := by
  unfold State.readVals
  exact Eff.coreRead op core i s i a _

theorem eff_element (core : Fin 192) (job : Fin 8) (s : State) : EffCommand core.val job.val 0x40 (execElement core job s) s :=
  EffCommand.of fun i r s _ => by
    extract_lets b x two y f z out g s1
    have h1 : Eff 0x40 core.val i s x.2 := Eff.readVals _ _ s _ _ _
    have h2 : Eff 0x40 core.val i x.2 y.2 := by
      show Eff 0x40 core.val i x.2 (if two then x.2.readVals i b.inFmt b.srcB b.n else ([], x.2)).2
      split
      · exact Eff.readVals _ _ _ _ _ _
      · exact Eff.refl _ _ i _
    have h3 : Eff 0x40 core.val i y.2 z.2 := by
      show Eff 0x40 core.val i y.2 (if b.subop = 2 then y.2.readVals i b.outFmt b.dst b.n else ([], y.2)).2
      split
      · exact Eff.readVals _ _ _ _ _ _
      · exact Eff.refl _ _ i _
    have h4 : Eff 0x40 core.val i z.2 s1 := Eff.moveMarks _ _ z.2 _ _ _ _ _ _
    exact (((h1.trans h2).trans h3).trans h4).trans (Eff.writeOut _ _ s1 core.val _ _ _ _)

theorem eff_reduce (core : Fin 192) (job : Fin 8) (s : State) : EffCommand core.val job.val 0x41 (execReduce core job s) s :=
  EffCommand.of fun i r s _ => by
    extract_lets b x v
    exact (Eff.readVals _ _ s _ _ _).trans (Eff.writeOut _ _ x.2 core.val _ _ _ _)

theorem eff_sample (core : Fin 192) (job : Fin 8) (s : State) : EffCommand core.val job.val 0x42 (execSample core job s) s :=
  EffCommand.of fun i r s _ => by
    extract_lets b x p done dk
    have h1 : Eff 0x42 core.val i s x.2.2 := Eff.coreRead _ _ i s i _ _
    split
    · exact h1.trans (Eff.coreWrite _ _ _ _ _)
    · extract_lets row kids q s1 toks s2 ts d s3 node
      have h2 : Eff 0x42 core.val i x.2.2 s1 := by
        show Eff 0x42 core.val i x.2.2 (if kids.isEmpty then ([], true, x.2.2) else x.2.2.coreRead i b.srcB (8 * dk)).2.2
        split
        · exact Eff.refl _ _ i _
        · exact Eff.coreRead _ _ i _ i _ _
      have h3 : Eff 0x42 core.val i s1 s2 := Eff.coreRead _ _ i _ i _ _
      have h4 : Eff 0x42 core.val i s2 s3 := Eff.modRun _ _ s2 _ rfl
      exact (((h1.trans h2).trans h3).trans h4).trans (Eff.coreWrite _ _ s3 _ _)

theorem eff_fontStats (core : Fin 192) (job : Fin 8) (s : State) : EffCommand core.val job.val 0x43 (execFontStats core job s) s :=
  EffCommand.of fun i r s _ => by
    extract_lets b
    split
    · exact Eff.refl _ _ i s
    · rename_i fs _
      extract_lets n acc
      refine Eff.trans (t := acc.2) ?_ (Eff.coreWrite _ _ acc.2 _ _)
      refine Eff.foldl_snd ?_ fs.tables (List.replicate n 0, s)
      intro a t
      exact (Eff.coreRead _ _ i a.2 i _ _).trans (Eff.coreWrite _ _ _ _ _)

/-! The Imposer. -/

theorem Eff.setCands (op core : Nat) {i : Nat} (s : State) (f : Run → Sp Nat) :
    Eff op core i s (s.modRun i fun u => { u with cands := f u }) := Eff.modRun op core s _ rfl

theorem Eff.setPicks {core i : Nat} (s : State) (f : Core → Sp (List Pick)) (g : Core → Sp (List Nat)) :
    Eff 0x52 core i s (s.modCore core fun c => { c with picks := f c, sent := g c }) := Eff.modCore s _ rfl

theorem eff_routeLocal (core : Fin 192) (job : Fin 8) (s : State) : EffCommand core.val job.val 0x50 (execRouteLocal core job s) s :=
  EffCommand.of fun i r s _ => by
    extract_lets b run n x a
    split
    · exact Eff.refl _ _ i s
    · rename_i l _
      extract_lets c
      refine Eff.trans (t := x.2.2) (Eff.coreRead _ _ i s i _ _) (Eff.foldl ?_ _ x.2.2)
      intro s e
      extract_lets col cand s1 ranked dest h s2
      have h1 : Eff 0x50 core.val i s s1 := Eff.count _ _ s _ _
      have h2 : Eff 0x50 core.val i s1 s2 := Eff.setCands _ _ s1 _
      exact (h1.trans h2).trans (Eff.coreWrite _ _ s2 _ _)

theorem eff_routeMerge (core : Fin 192) (job : Fin 8) (s : State) : EffCommand core.val job.val 0x51 (execRouteMerge core job s) s :=
  EffCommand.of fun i r s _ => by
    extract_lets b layer e x blocks all rank
    split
    · exact Eff.refl _ _ i s
    · extract_lets reps c taken picks
      refine Eff.trans (t := x.2.2) (Eff.coreRead _ _ i s i _ _) (Eff.foldl ?_ _ x.2.2)
      intro s p
      exact Eff.coreWrite _ _ s _ _

theorem Eff.hurtSlots (op core : Nat) {i : Nat} (s : State) (ns : List Nat) (st : Nat) :
    Eff op core i s (ns.foldl (fun s n => s.hurtSlot i n st) s) := Eff.foldl (fun s n => Eff.hurtSlot op core s n st) ns s

theorem eff_impose (core : Fin 192) (job : Fin 8) (s : State) : EffCommand core.val job.val 0x52 (execImpose core job s) s :=
  EffCommand.of fun i r s _ => by
    extract_lets b h0 layer run
    have h1 : Eff 0x52 core.val i s h0.2.2 := Eff.coreRead _ _ i s i _ _
    split
    · exact h1
    · rename_i l _
      extract_lets cap nb nE x g a out
      have h2 : Eff 0x52 core.val i h0.2.2 x.2.2 := Eff.coreRead _ _ i _ i _ _
      have h3 : Eff 0x52 core.val i x.2.2 g.2.2 := Eff.coreRead _ _ i _ i _ _
      refine ((h1.trans h2).trans h3).trans (Eff.foldl_fst ?_ _ (g.2.2, 0))
      intro acc k
      extract_lets s0 bs h e reps entries okBody s1 good s2 s3 s4
      have e1 : Eff 0x52 core.val i s0 s1 := Eff.ite (Eff.refl _ _ i s0) (Eff.hurtSlots _ _ s0 _ _)
      have e2 : Eff 0x52 core.val i s1 s2 := Eff.count _ _ s1 _ _
      have e3 : Eff 0x52 core.val i s2 s3 := Eff.count _ _ s2 _ _
      refine ((e1.trans e2).trans e3).trans (Eff.foldl ?_ _ s3)
      intro s q
      extract_lets mine rowB dest hd s5 recs
      have e5 : Eff 0x52 core.val i s s5 := Eff.coreWrite _ _ s _ _
      exact e5.trans (Eff.setPicks s5 _ _)

theorem eff_collate (core : Fin 192) (job : Fin 8) (s : State) : EffCommand core.val job.val 0x53 (execCollate core job s) s :=
  EffCommand.of fun i r s _ => by
    extract_lets b h0 layer d
    have h1 : Eff 0x53 core.val i s h0.2.2 := Eff.coreRead _ _ i s i _ _
    split
    · exact h1
    · rename_i l _
      extract_lets rowB places got s1 ts s2 recs toks s3 out1 out2
      have h2 : Eff 0x53 core.val i h0.2.2 s1 := by
        have key : ∀ (ps : List (Nat × Nat × Nat)) (f : List ReturnBlock × Nat × State → Nat × Nat × Nat → List ReturnBlock × Nat × State),
            (∀ a p, Eff 0x53 core.val i a.2.2 (f a p).2.2) → ∀ a, Eff 0x53 core.val i a.2.2 (ps.foldl f a).2.2 := by
          intro ps f hf
          induction ps with
          | nil => exact fun a => Eff.refl _ _ i a.2.2
          | cons p ps ih => exact fun a => (hf a p).trans (ih (f a p))
        refine key _ _ ?_ ([], b.srcA, h0.2.2)
        intro a p
        extract_lets sz x bs s h n u16 lis sts base rows sent okBody s4 blk
        have e1 : Eff 0x53 core.val i a.2.2 s := Eff.coreRead _ _ i a.2.2 i _ _
        have e2 : Eff 0x53 core.val i s s4 := Eff.ite (Eff.refl _ _ i s) (Eff.hurtSlots _ _ s _ _)
        exact e1.trans e2
      have h3 : Eff 0x53 core.val i s1 s2 := by
        refine Eff.foldl ?_ _ s1
        intro s k
        refine Eff.foldl ?_ _ s
        intro s p
        refine Eff.ite (Eff.refl _ _ i s) ?_
        cases ts[p.1]? with
        | none => exact Eff.refl _ _ i s
        | some t => exact Eff.modRun _ _ s _ rfl
      have h4 : Eff 0x53 core.val i s2 s3 := Eff.count _ _ s2 _ _
      exact (((h1.trans h2).trans h3).trans h4).trans (Eff.writeOut _ _ s3 core.val _ _ _ _)

theorem eff_sort (core : Fin 192) (job : Fin 8) (s : State) : EffCommand core.val job.val 0x54 (execSort core job s) s :=
  EffCommand.of fun i r s _ => by
    extract_lets b x ks
    exact (Eff.coreRead _ _ i s i _ _).trans (Eff.coreWrite _ _ x.2.2 _ _)

theorem eff_topk (core : Fin 192) (job : Fin 8) (s : State) : EffCommand core.val job.val 0x55 (execTopk core job s) s :=
  EffCommand.of fun i r s _ => by
    extract_lets b x ks top
    exact (Eff.coreRead _ _ i s i _ _).trans (Eff.coreWrite _ _ x.2.2 _ _)

theorem eff_imposerGather (core : Fin 192) (job : Fin 8) (s : State) :
    EffCommand core.val job.val 0x56 (execImposerGather core job s) s :=
  EffCommand.of fun i r s _ => by
    extract_lets b w ix idx out
    have h1 : Eff 0x56 core.val i s ix.2.2 := Eff.coreRead _ _ i s i _ _
    have h2 : Eff 0x56 core.val i ix.2.2 out.2 := by
      refine Eff.foldl_snd ?_ idx.zipIdx ([], ix.2.2)
      intro acc k
      dsimp only
      split
      · exact Eff.coreRead _ _ i _ i _ _
      · exact Eff.badIndex _ _ _ _
    exact (h1.trans h2).trans (Eff.coreWrite _ _ out.2 _ _)

theorem eff_imposerScatter (core : Fin 192) (job : Fin 8) (s : State) :
    EffCommand core.val job.val 0x57 (execImposerScatter core job s) s :=
  EffCommand.of fun i r s _ => by
    extract_lets b w ix idx x
    have h1 : Eff 0x57 core.val i s ix.2.2 := Eff.coreRead _ _ i s i _ _
    have h2 : Eff 0x57 core.val i ix.2.2 x.2.2 := Eff.coreRead _ _ i _ i _ _
    refine (h1.trans h2).trans (Eff.foldl ?_ _ x.2.2)
    intro s p
    exact Eff.ite (Eff.coreWrite _ _ s _ _) (Eff.badIndex _ _ s _)

theorem eff_scan (core : Fin 192) (job : Fin 8) (s : State) : EffCommand core.val job.val 0x58 (execScan core job s) s :=
  EffCommand.of fun i r s _ => by
    extract_lets b x out
    exact (Eff.coreRead _ _ i s i _ _).trans (Eff.coreWrite _ _ x.2.2 _ _)

theorem eff_segreduce (core : Fin 192) (job : Fin 8) (s : State) : EffCommand core.val job.val 0x59 (execSegreduce core job s) s :=
  EffCommand.of fun i r s _ => by
    extract_lets b x y starts segs out
    exact ((Eff.coreRead _ _ i s i _ _).trans (Eff.coreRead _ _ i x.2.2 i _ _)).trans (Eff.coreWrite _ _ y.2.2 _ _)

theorem eff_fontBuild (core : Fin 192) (job : Fin 8) (s : State) : EffCommand core.val job.val 0x5A (execFontBuild core job s) s :=
  EffCommand.of fun i r s _ => by
    extract_lets b parity
    split
    · exact Eff.refl _ _ i s
    · extract_lets n x cs font s1
      have h1 : Eff 0x5A core.val i s x.2.2 := Eff.coreRead _ _ i s i _ _
      have h2 : Eff 0x5A core.val i x.2.2 s1 := Eff.modRun _ _ x.2.2 _ rfl
      exact (h1.trans h2).trans (Eff.coreWrite _ _ s1 _ _)

/-! Chase. -/

theorem Eff.setGate (op core : Nat) {i : Nat} (s : State) (g : Nat × Nat × Nat) (b : Bool) : Eff op core i s (s.setGate g b) where
  rest := rfl
  others := fun _ _ => rfl
  own := rfl
  cores := fun _ _ => rfl
  core := Core.sameBut_refl op _
  bytes := fun _ _ _ _ _ => rfl
  chs := fun _ _ => rfl
  canon := (Keeps.setFab s _).2

theorem Eff.headCount (op core : Nat) {i : Nat} (s : State) (c : HeadCheck) : Eff op core i s (s.headCount i c) := by
  cases c
  · exact Eff.refl op core i s
  all_goals exact Eff.count op core s _ _

theorem Eff.bayStore (op core : Nat) {i : Nat} (s : State) (b : BayAt) (a : Nat) (bs : List Byte) :
    Eff op core i s (s.bayStore i b a bs).2 := by
  unfold State.bayStore
  split
  · extract_lets c
    split
    · exact Eff.setGate op core s _ _
    · exact (Eff.headCount op core s c).trans (Eff.setGate op core _ _ _)
  · exact Eff.refl op core i s

theorem Eff.chasePut (op core : Nat) {i : Nat} (s : State) (a : Nat) (bs : List Byte) : Eff op core i s (s.chasePut i a bs) := by
  unfold State.chasePut
  split
  · extract_lets g
    have h : Eff op core i s g.2 := Eff.bayStore op core s _ a bs
    exact Eff.ite (h.trans (Eff.coreWrite op core _ _ _)) h
  · exact Eff.coreWrite op core s _ _

theorem Eff.chaseRead (op core : Nat) {i : Nat} (s : State) (a n dst : Nat) : Eff op core i s (s.chaseRead i a n dst).2.2 := by
  unfold State.chaseRead
  extract_lets bad x
  have h : Eff op core i s x.2.2 := Eff.coreRead op core i s i _ _
  split
  · exact h.trans (Eff.moveMarks op core _ _ _ _ _ _ _)
  · exact (h.trans (Eff.moveMarks op core _ _ _ _ _ _ _)).trans (Eff.markRows op core _ _)

theorem Eff.indexList (op core : Nat) {i : Nat} (s : State) (c : Nat) (b : ChaseBody) : Eff op core i s (s.indexList c i b).2 := by
  unfold State.indexList
  exact Eff.coreRead op core i s i _ _

theorem eff_chaseCopy (core : Fin 192) (job : Fin 8) (s : State) : EffCommand core.val job.val 0x60 (execChaseCopy core job s) s :=
  EffCommand.of fun i r s _ => by
    extract_lets b x
    exact (Eff.chaseRead _ _ s _ _ _).trans (Eff.chasePut _ _ x.2.2 _ _)

theorem eff_chaseGather (core : Fin 192) (job : Fin 8) (s : State) :
    EffCommand core.val job.val 0x61 (execChaseGather core job s) s :=
  EffCommand.of fun i r s _ => by
    extract_lets b l
    refine Eff.trans (t := l.2) (Eff.indexList _ _ s _ b) (Eff.foldl ?_ _ l.2)
    intro s x
    extract_lets y s1
    have h1 : Eff 0x61 core.val i s y.2.2 := Eff.chaseRead _ _ s _ _ _
    have h2 : Eff 0x61 core.val i y.2.2 s1 := Eff.ite (Eff.refl _ _ i _) (Eff.badIndex _ _ _ _)
    exact (h1.trans h2).trans (Eff.chasePut _ _ s1 _ _)

theorem eff_chaseScatter (core : Fin 192) (job : Fin 8) (s : State) :
    EffCommand core.val job.val 0x62 (execChaseScatter core job s) s :=
  EffCommand.of fun i r s _ => by
    extract_lets b l
    refine Eff.trans (t := l.2) (Eff.indexList _ _ s _ b) (Eff.foldl ?_ _ l.2)
    intro s x
    extract_lets a y
    have h1 : Eff 0x62 core.val i s y.2.2 := Eff.chaseRead _ _ s _ _ _
    exact Eff.ite (h1.trans (Eff.chasePut _ _ _ _ _)) (h1.trans (Eff.badIndex _ _ _ _))

theorem eff_bcast (core : Fin 192) (job : Fin 8) (s : State) : EffCommand core.val job.val 0x63 (execBcast core job s) s :=
  EffCommand.of fun i r s _ => by
    extract_lets b l x
    have h1 : Eff 0x63 core.val i s l.2 := Eff.indexList _ _ s _ b
    have h2 : Eff 0x63 core.val i l.2 x.2.2 := Eff.coreRead _ _ i _ i _ _
    refine (h1.trans h2).trans (Eff.foldl ?_ _ x.2.2)
    intro s c
    extract_lets y
    have h : Eff 0x63 core.val i s y.2 := Eff.coreWrite _ _ s _ _
    exact Eff.ite h (h.trans (Eff.badIndex _ _ _ _))

/-! T1. -/

theorem Eff.modCh (op core : Nat) {i : Nat} (s : State) (c : Nat) (f : Channel → Channel) (hc : c ∈ s.channelSet i)
    (hf : spWf 0#8 (s.ch c).data = true → spWf 0#8 (f (s.ch c)).data = true) : Eff op core i s (s.modCh c f) where
  rest := rfl
  others := fun _ _ => rfl
  own := rfl
  cores := fun _ _ => rfl
  core := Core.sameBut_refl op _
  bytes := fun _ _ _ _ _ => rfl
  chs := fun k hk => State.ch_modCh_ne s c k f (fun e => hk (e ▸ hc))
  canon := (Keeps.modCh s c f hf).2

theorem Eff.reportLines (op core : Nat) {i : Nat} (s : State) (ch : Nat) (lines : List Nat) : Eff op core i s (s.reportLines ch lines) :=
  Eff.foldl (fun s _ => Eff.report op core i s _) lines s

theorem Eff.touchSeg (op core : Nat) {i : Nat} (s : State) (ch seg : Nat) (hc : ch ∈ s.channelSet i) :
    Eff op core i s (s.touchSeg ch seg) := by
  unfold State.touchSeg
  refine Eff.ite ((Eff.modCh op core s ch _ hc id).trans (Eff.reportLines op core _ _ _)) (Eff.ite ?_ (Eff.refl op core i s))
  exact Eff.modCh op core s ch _ hc id

theorem t1Map_mem (set : List Nat) (l : Nat) (h : set ≠ []) : (t1Map set l).1 ∈ set := by
  unfold t1Map
  have hn : 0 < set.length := List.length_pos_iff.2 h
  simp only
  rw [List.getD_eq_getElem _ _ (Nat.mod_lt _ hn)]
  exact List.getElem_mem _

theorem mem_nub {α : Type} [BEq α] {x : α} {xs : List α} (h : x ∈ nub xs) : x ∈ xs := by
  have key : ∀ (ys acc : List α), x ∈ ys.foldl (fun acc y => if acc.contains y then acc else acc ++ [y]) acc → x ∈ acc ∨ x ∈ ys := by
    intro ys
    induction ys with
    | nil => exact fun acc h => Or.inl h
    | cons y ys ih =>
      intro acc h
      rw [List.foldl_cons] at h
      rcases ih _ h with h | h
      · split at h
        · exact Or.inl h
        · rcases List.mem_append.1 h with h | h
          · exact Or.inl h
          · exact Or.inr (by simp_all)
      · exact Or.inr (by simp [h])
  simpa using key xs [] h

theorem t1Segs_mem {s : State} {i a n : Nat} (h : s.channelSet i ≠ []) {x : Nat × Nat} (hx : x ∈ s.t1Segs i a n) :
    x.1 ∈ s.channelSet i := by
  unfold State.t1Segs at hx
  have := mem_nub hx
  simp only [List.mem_map] at this
  obtain ⟨l, _, rfl⟩ := this
  exact t1Map_mem _ l h

/-- A fold over segments of the imprint's own channels. -/
theorem Eff.foldl_on {α : Type} {op core i : Nat} {f : State → α → State} {xs : List α} {s : State} {cs : List Nat}
    (hf : ∀ s x, x ∈ xs → s.channelSet i = cs → Eff op core i s (f s x)) (hs : s.channelSet i = cs) :
    Eff op core i s (xs.foldl f s) := by
  induction xs generalizing s with
  | nil => exact Eff.refl op core i s
  | cons x xs ih =>
    have h := hf s x (by simp) hs
    exact h.trans (ih (fun s y hy hs => hf s y (by simp [hy]) hs) (h.channelSet.trans hs))

theorem Eff.t1Read (op core : Nat) {i : Nat} (s : State) (a n : Nat) : Eff op core i s (s.t1Read i a n).2 := by
  unfold State.t1Read
  split
  · exact Eff.refl op core i s
  · rename_i h
    have hne : s.channelSet i ≠ [] := by
      intro e; simp [e] at h
    refine Eff.foldl_on (cs := s.channelSet i) ?_ rfl
    intro t x hx ht
    exact Eff.touchSeg op core t _ _ (by rw [ht]; exact t1Segs_mem hne hx)

theorem Eff.mergeSeg (op core : Nat) {i : Nat} (s : State) (a n : Nat) (x : Nat × Nat) (hx : x.1 ∈ s.channelSet i) :
    Eff op core i s (s.mergeSeg i a n x) := by
  unfold State.mergeSeg
  extract_lets set whole c named s1
  have h1 : Eff op core i s s1 := Eff.modCh op core s x.1 _ hx fun h => spWf_memWrite _ _ _ h
  refine Eff.ite (Eff.modCh op core s x.1 _ hx id) (Eff.ite (h1.trans (Eff.reportLines op core s1 _ _)) ?_)
  have h2 := Eff.touchSeg op core s x.1 x.2 hx
  exact h2.trans (Eff.modCh op core _ x.1 _ (by rw [h2.channelSet]; exact hx) id)

theorem Eff.t1Write (op core : Nat) {i : Nat} (s : State) (a : Nat) (bs : List Byte) : Eff op core i s (s.t1Write i a bs) := by
  unfold State.t1Write
  split
  · exact Eff.refl op core i s
  · rename_i h
    have hne : s.channelSet i ≠ [] := by
      intro e; simp [e] at h
    extract_lets s1
    have h1 : Eff op core i s s1 := by
      refine Eff.foldl_on (cs := s.channelSet i) ?_ rfl
      intro t x hx ht
      exact Eff.mergeSeg op core t _ _ x (by rw [ht]; exact t1Segs_mem hne hx)
    refine h1.trans (Eff.foldl_on (cs := s.channelSet i) ?_ h1.channelSet)
    intro t x _ ht
    refine Eff.modCh op core t _ _ ?_ fun h => spWf_memWrite _ _ _ h
    exact t1Map_mem _ _ (by rw [ht]; exact hne)

theorem Eff.coldSlugs (op core : Nat) {i : Nat} (s : State) (a n : Nat) : Eff op core i s (s.coldSlugs i a n) := by
  unfold State.coldSlugs
  split
  · exact Eff.refl op core i s
  · extract_lets fonts
    refine Eff.foldl (fun s x => ?_) _ s
    extract_lets t image region elemsRun plane all wrong
    exact Eff.ite (Eff.refl op core i s)
      ((Eff.countSlugs op core s _).trans (Eff.foldl (fun s o => Eff.hurtTensor op core s _ _) _ _))

theorem eff_t1Read (core : Fin 192) (job : Fin 8) (s : State) : EffCommand core.val job.val 0x64 (execT1Read core job s) s :=
  EffCommand.of fun i r s _ => by
    extract_lets b x
    exact ((Eff.t1Read _ _ s _ _).trans (Eff.coldSlugs _ _ x.2 _ _)).trans (Eff.chasePut _ _ _ _ _)

theorem eff_t1Write (core : Fin 192) (job : Fin 8) (s : State) : EffCommand core.val job.val 0x65 (execT1Write core job s) s :=
  EffCommand.of fun i r s _ => by
    extract_lets b x
    exact (Eff.coreRead _ _ i s i _ _).trans (Eff.t1Write _ _ x.2.2 _ _)

end Sys2Proof.Machine
end

