-- ==== Sys2Proof/Machine/CabinetCode.lean ====
section
/-!
DEFINITION. What stands in a channel of Cabinet behind the bytes that requesters meet: the layout of stored lines and code areas, the data
units' encryption, and the outer Reed–Solomon code over them (R236, R238, R241). `Channel.data` holds the plain bytes and `Channel.bad`
the stored bytes in error; these functions give the stored image (logs 4, 111).
-/
namespace Sys2Proof.Machine

open Sys2Proof

/-! Layout (R236). -/

/-- The stored line of a local line: 60 data lines and 4 code lines in each group. -/
def storedLine (q : Nat) : Nat := 64 * (q / 60) + q % 60

/-- The stored address of the check bytes of segment σ of a channel. -/
def codeAt (seg : Nat) : Nat := 256 * (64 * (seg / 15) + 60) + 64 * (seg % 15)

/-! The field and the code (R238). -/

/-- Multiplication by α in GF(2^8) under x^8 + x^4 + x^3 + x^2 + 1. -/
def gfDouble (a : Nat) : Nat := if a < 128 then 2 * a else (2 * a) ^^^ 0x11D

/-- Multiplication in GF(2^8), over the bits of `b`. -/
def gfMulBits (a b : Nat) : Nat → Nat
  | 0 => 0
  | n + 1 => gfDouble (gfMulBits a b n) ^^^ (if Nat.testBit b (7 - n) then a else 0)

/-- Multiplication in GF(2^8). -/
def gfMul (a b : Nat) : Nat := gfMulBits a b 8

/-- α^n. -/
def gfPow : Nat → Nat
  | 0 => 1
  | n + 1 => gfDouble (gfPow n)

/-- A polynomial, highest power first, times x + r. -/
def polyRoot (p : List Nat) (r : Nat) : List Nat := (List.zip (p ++ [0]) (0 :: p)).map fun x => x.1 ^^^ gfMul r x.2

/-- The generator of `n` check bytes: roots α^0 to α^(n - 1). -/
def rsGenerator (n : Nat) : List Nat := ((List.range n).map gfPow).foldl polyRoot [1]

/-- One step of the division by a generator: the remainder so far, highest power first, takes a byte. -/
def rsStep (gen rem : List Nat) (d : Nat) : List Nat :=
  let f := d ^^^ rem.headD 0
  (List.zip (rem.drop 1 ++ [0]) (gen.drop 1)).map fun x => x.1 ^^^ gfMul f x.2

/-- The `n` check bytes of a codeword's data bytes, in order of falling powers of the codeword polynomial (R386; log 111). -/
def rsCheck (n : Nat) (ds : List Nat) : List Nat := ds.foldl (rsStep (rsGenerator n)) (List.replicate n 0)

/-- The value of a codeword at α^k: 0 for all of k from 0 to 7 just where the codeword is valid. -/
def syndrome (k : Nat) (cs : List Nat) : Nat := cs.foldl (fun a c => gfMul a (gfPow k) ^^^ c) 0

/-! Segments (R238, R241). -/

/-- The tweak of a segment's data unit. -/
def segTweak (ch seg : Nat) : Nat := ch * 2 ^ 22 + seg

/-- The stored data bytes of a segment: its plain bytes encrypted under the owning imprint's key, as one data unit. -/
def State.segCipher (s : State) (ch seg : Nat) : List Byte :=
  match s.channelOwner ch with
  | some i => Config.xts i (spGet 0 s.boot.keySlots i) (segTweak ch seg) (memRead (s.ch ch).data (1024 * seg) 1024)
  | none => List.replicate 1024 0#8

/-- The 64 check bytes of a segment: codeword w takes the data bytes of index w mod 8, and check bytes 8w to 8w + 7. -/
def segChecks (data : List Byte) : List Byte :=
  (List.range 8).flatMap fun w =>
    (rsCheck 8 ((List.range 128).map fun k => (data.getD (8 * k + w) 0).toNat)).map (BitVec.ofNat 8)

/-- A byte of a channel's stored image, as the controller wrote it: data, check bytes, or a group tag of zero (R236). -/
def State.storedByte (s : State) (ch a : Nat) : Byte :=
  let g := a / 16384
  let j := a % 16384 / 256
  if j < 60 then (s.segCipher ch (15 * g + j / 4)).getD (256 * (j % 4) + a % 256) 0
  else
    let c := a % 16384 - 15360
    if c < 960 then (segChecks (s.segCipher ch (15 * g + c / 64))).getD (c % 64) 0 else 0#8

end Sys2Proof.Machine
end

