-- ==== Sys2Proof/Machine/Wire.lean ====
section
/-!
DEFINITION. The bytes of packets on a Tiltil port, and the coded stream that carries them (R386 to R390, R392, R402, R425 to R427). State
and commands hold a packet by its fields; these functions give what stands on the wire for it.
-/
namespace Sys2Proof.Machine

open Sys2Proof

/-! Packets as bytes. -/

/-- Bits `lo` and up of a header, holding a field of `w` bits. -/
def packBits (lo w v : Nat) : Nat := v % 2 ^ w * 2 ^ lo

/-- The 16 B header of a packet of `len` granules (R390). -/
def headBytes (h : PktHead) (len : Nat) : List Byte :=
  leBytes 16 (packBits 0 4 h.kind + packBits 4 4 len + packBits 8 12 h.lseq + packBits 20 2 h.vc + packBits 22 1 (bit h.dl)
    + packBits 24 18 h.dest + packBits 42 18 h.source + packBits 60 4 h.imprint + packBits 64 8 h.wire + packBits 72 8 h.hops
    + packBits 80 16 h.flow + packBits 96 16 h.tslice + packBits 112 2 h.xdir + packBits 114 2 h.ydir + packBits 116 2 h.zdir)

/-- A REQUEST's body (R425). -/
def requestBody (r : Request) : List Byte :=
  leBytes 4 r.eseq.toNat ++ leBytes 1 r.op ++ leBytes 1 (bit r.retry) ++ leBytes 2 r.length ++ leBytes 8 r.addr.toNat
    ++ leBytes 4 r.epoch.toNat ++ leBytes 4 r.sgen.toNat ++ leBytes 8 r.operand.toNat
    ++ (if r.op = 0x16 then leBytes 8 r.compare.toNat else if r.op = 0x02 then r.data else [])

/-- A RESPONSE's body (R426). -/
def responseBody (r : Response) : List Byte :=
  leBytes 4 r.eseq.toNat ++ leBytes 1 r.op ++ leBytes 1 (bit r.replayed) ++ leBytes 2 r.length ++ leBytes 2 r.status ++ leBytes 6 0
    ++ leBytes 4 r.epoch.toNat ++ leBytes 4 r.sgen.toNat ++ leBytes 8 r.result.toNat ++ r.data

/-- A HELLO's fields after its header (R402). -/
def helloBody (h : Hello) : List Byte :=
  leBytes 8 h.uid.toNat ++ leBytes 4 (packBits 0 18 h.node + packBits 18 2 (bit h.isSwitch)) ++ leBytes 1 h.port ++ leBytes 1 h.wireMax
    ++ leBytes 1 h.wireMin ++ leBytes 1 h.role ++ leBytes 4 h.edition ++ leBytes 2 h.plane ++ leBytes 2 h.owner

/-- A LINK packet's bytes from byte 8 (R392). -/
def linkBody (l : LinkPkt) : List Byte :=
  leBytes 2 (packBits 0 12 l.ack + packBits 12 1 (bit l.nak)) ++ leBytes 2 0 ++ l.credits.flatMap (leBytes 2)

/-- What precedes a packet's zeros and its CRC: LINK keeps the header's first 8 bytes alone (R392). -/
def packetFront (p : Packet) : List Byte :=
  let h := headBytes p.head p.body.granules
  match p.body with
  | .request r => h ++ requestBody r
  | .response r => h ++ responseBody r
  | .hello x => h ++ helloBody x
  | .link l => h.take 8 ++ linkBody l

/-- A packet's bytes: whole granules, the CRC over all that precedes it in the last 4 (R389, R427). -/
def packetBytes (p : Packet) : List Byte :=
  let n := 32 * p.body.granules - 4
  let bs := (packetFront p) ++ List.replicate (n - (packetFront p).length) 0#8
  bs ++ leBytes 4 (crc32c bs)

/-- Is a packet good as received: its length is that of its granules and its CRC is right (R389, R394)? -/
def packetGood (bs : List Byte) : Bool :=
  decide (bs.length = 32 * bitsOf (ofLeBytes (bs.take 1)) 7 4) && decide (8 ≤ bs.length)
    && bs.drop (bs.length - 4) == leBytes 4 (crc32c (bs.take (bs.length - 4)))

/-! The coded stream. -/

/-- A codeword: 256 data bytes and their 16 check bytes (R386). -/
def codeword (ds : List Byte) : List Byte := ds ++ (rsCheck 16 (ds.map BitVec.toNat)).map (BitVec.ofNat 8)

/-- The alignment codeword (R387). -/
def alignCodeword : List Byte := (List.range 272).map fun j => BitVec.ofNat 8 (0xA5 ^^^ (j % 256))

/-- One bit of PRBS31, x^31 + x^28 + 1, with the state after it; bit 30 of the state is the oldest (log 112). -/
def prbsBit (st : Nat) : Nat × Nat :=
  let b := (bitsOf st 30 30) ^^^ (bitsOf st 27 27)
  (b, (2 * st + b) % 2 ^ 31)

/-- The next 8 bits, the first of them bit 0 of the byte, with the state after them. -/
def prbsByte (st : Nat) : Nat × Nat :=
  (List.range 8).foldl (fun r k => let x := prbsBit r.2; (r.1 + 2 ^ k * x.1, x.2)) (0, st)

/-- Scramble a codeword from a state (R387): the bytes and the state for the next. -/
def scramble : List Byte → Nat → List Byte × Nat
  | [], st => ([], st)
  | b :: bs, st =>
    let x := prbsByte st
    let r := scramble bs x.2
    ((b ^^^ BitVec.ofNat 8 x.1) :: r.1, r.2)

/-- The state that the sequence restarts from after each alignment codeword. -/
def prbsStart : Nat := 2 ^ 31 - 1

/-- Codewords of 1,023 blocks of 256 data bytes, as they follow an alignment codeword (R387). -/
def scrambled : List (List Byte) → Nat → List (List Byte)
  | [], _ => []
  | d :: ds, st =>
    let r := scramble (codeword d) st
    r.1 :: scrambled ds r.2

/-- The lane of a codeword byte, and the PAM4 levels of its four symbols in their order (R388). -/
def laneSymbols (j : Nat) (b : Byte) : Nat × List Nat :=
  (j % 4, [0, 2, 4, 6].map fun k => [0, 1, 3, 2].getD (bitsOf b.toNat (k + 1) k) 0)

/-- What a receiver finds of a codeword's 272 bytes: are all its syndromes zero (R386)? -/
def codewordClean (bs : List Byte) : Bool := (List.range 16).all fun k => syndrome k (bs.map BitVec.toNat) == 0

/-- May a receiver correct what it got to the codeword that was sent (R386)?  At most 8 of the 272 bytes are bad;
any other non-zero syndrome is uncorrectable. -/
def correctsTo (got sent : List Byte) : Bool :=
  codewordClean sent && got.length == 272 && sent.length == 272 && ((got.zip sent).filter fun p => p.1 != p.2).length ≤ 8

end Sys2Proof.Machine
end

