-- ==== Sys2Proof/WellFormed.lean ====
section
/-!
DEFINITION. When a command is well formed: the operands that the types leave wider than the spec's fields lie within them.
-/
namespace Sys2Proof

open Sys2Proof.Machine

/-- Does a number fit a field of so many bits? -/
def fits (bits x : Nat) : Bool := decide (x < 2 ^ bits)

/-- R390's fields. -/
def PktHead.wf (h : PktHead) : Bool :=
  fits 4 h.kind && fits 12 h.lseq && decide (h.vc < 3) && fits 18 h.dest && fits 18 h.source && fits 4 h.imprint && fits 8 h.wire
    && fits 8 h.hops && fits 16 h.flow && fits 16 h.tslice && decide (h.xdir < 3) && decide (h.ydir < 3) && decide (h.zdir < 3)

/-- R425's fields: a STORE carries LENGTH bytes, at most a line; nothing else carries data. -/
def Request.wf (r : Request) : Bool :=
  fits 8 r.op && decide (r.length ≤ 256) && (if r.op = 0x02 then r.data.length == r.length else r.data.isEmpty)

/-- R426's fields. -/
def Response.wf (r : Response) : Bool :=
  fits 8 r.op && fits 16 r.length && fits 16 r.status && r.data.length == r.length

/-- R402's fields. -/
def Hello.wf (h : Hello) : Bool :=
  fits 18 h.node && fits 8 h.port && fits 8 h.wireMax && fits 8 h.wireMin && decide (h.role < 3) && fits 32 h.edition
    && fits 16 h.plane && fits 16 h.owner

/-- R392's fields. -/
def LinkPkt.wf (l : LinkPkt) : Bool := fits 12 l.ack && l.credits.length == 5 && l.credits.all (fits 16)

/-- A packet's kind, VC and body agree (R390, R402, R417). -/
def Packet.wf (p : Packet) : Bool :=
  p.head.wf && match p.body with
    | .request r => p.head.kind == 3 && p.head.vc == 0 && r.wf
    | .response r => p.head.kind == 4 && p.head.vc == 1 && r.wf
    | .hello h => p.head.kind == 2 && p.head.vc == 2 && h.wf
    | .link l => p.head.kind == 1 && p.head.vc == 2 && l.wf

/-- A ring table entry is 64 B (R451). -/
def RingRead.wf (r : RingRead) : Bool := r.raw.bad || r.raw.bytes.length == 64

/-- A ticket is 64 B (R450). -/
def TicketRead.wf (t : TicketRead) : Bool := t.raw.bad || t.raw.bytes.length == 64

/-- An image as read: its content is what its bytes say. Everything else is for the validation to decide (R495). -/
def Edition.wf (e : Edition) : Bool := e.agrees

/-- R376's fields. -/
def ImpTiming.wf (t : ImpTiming) : Bool := fits 32 t.segment && fits 32 t.wait && fits 10 t.longest && fits 18 t.endpoint

/-- A well-formed command. -/
def Instr.wf : Instr → Bool
  | .seqNop _ _ => true
  | .quoin _ _ => true
  | .fontLoad _ _ => true
  | .platenTile _ _ => true
  | .aLoad _ _ => true
  | .rollerTile _ _ => true
  | .tLoad _ _ => true
  | .attend _ _ => true
  | .merge _ _ => true
  | .element _ _ => true
  | .reduce _ _ => true
  | .sample _ _ => true
  | .fontStats _ _ => true
  | .routeLocal _ _ => true
  | .routeMerge _ _ => true
  | .impose _ _ => true
  | .collate _ _ => true
  | .sort _ _ => true
  | .topk _ _ => true
  | .imposerGather _ _ => true
  | .imposerScatter _ _ => true
  | .scan _ _ => true
  | .segreduce _ _ => true
  | .fontBuild _ _ => true
  | .chaseCopy _ _ => true
  | .chaseGather _ _ => true
  | .chaseScatter _ _ => true
  | .bcast _ _ => true
  | .t1Read _ _ => true
  | .t1Write _ _ => true
  | .fabStore _ _ => true
  | .fabLoad _ _ => true
  | .fabAtomic _ _ => true
  | .fabFlag _ _ => true
  | .window _ _ => true
  | .signal _ _ => true
  | .commandComplete _ _ _ => true
  | .jobSwitch _ _ => true
  | .impressionOpening _ hostWords => hostWords.all fun x => decide (x.1 < 1024)
  | .starvationLimit _ handle => fits 52 handle
  | .quoinRelease _ _ _ last => last.all (fits 18)
  | .laggard _ endpoint => fits 18 endpoint
  | .lagWindowRestart _ => true
  | .impressionCommit _ t => decide (t.length ≤ 8) && t.all ImpTiming.wf
  | .doorbellPoll => true
  | .nudge _ _ => true
  | .ticketFetch _ ring _ reads => decide (ring < 1024) && reads.all TicketRead.wf
  | .nopTicket _ ring => decide (ring < 1024)
  | .openReq _ ring => decide (ring < 1024)
  | .append _ ring => decide (ring < 1024)
  | .cancel _ ring => decide (ring < 1024)
  | .params _ ring => decide (ring < 1024)
  | .adapterLoad _ ring => decide (ring < 1024)
  | .adapterRetire _ ring => decide (ring < 1024)
  | .weightsLoad _ ring => decide (ring < 1024)
  | .editionStage ring image => decide (ring < 1024) && image.all Edition.wf
  | .editionValidated => true
  | .editionCommit ring => decide (ring < 1024)
  | .editionRecheckDone image minors => image.all Edition.wf && minors.all Edition.wf
  | .pointOfNoReturn => true
  | .editionCommitDone _ => true
  | .editionRevert ring => decide (ring < 1024)
  | .query _ ring => decide (ring < 1024)
  | .fence _ ring => decide (ring < 1024)
  | .ringtabApply _ _ entries reads => reads.length == entries.val && reads.all RingRead.wf
  | .hifEvtLostRead _ _ => true
  | .vfFlr _ => true
  | .pfFlr => true
  | .pcieLinkChange _ _ => true
  | .fabRequestArrival _ p => p.wf && p.head.kind == 3
  | .t1FabricSlot _ => true
  | .fabResponseArrival _ p => p.wf && p.head.kind == 4
  | .fabRetryTimeout _ target _ => fits 18 target
  | .operationLost _ target _ => fits 18 target
  | .generationHoldoffEnd _ target => fits 18 target
  | .packetLifetimeExpiry _ => true
  | .packetForward _ p => p.wf && (p.head.kind == 3 || p.head.kind == 4)
  | .linkPacketReceive _ l => l.wf
  | .linkPacketTimer _ => true
  | .replayTimeout _ => true
  | .replayLimit _ => true
  | .helloReceive _ h => h.wf
  | .helloTimer _ => true
  | .signalDetect _ => true
  | .trainDone _ => true
  | .trainTimeout _ => true
  | .lockAchieved _ => true
  | .lockTimeout _ => true
  | .helloTimeout _ => true
  | .retrainTimeout _ => true
  | .uncorrectableCodewordRun _ => true
  | .alignmentLoss _ => true
  | .discoveryTimeout => true
  | .portEnable _ _ => true
  | .portRetrain _ => true
  | .portLoopback _ _ => true
  | .fabLocationValid _ => true
  | .morgueTransferDone _ _ bytes => decide (bytes.length ≤ 2 ^ 32)
  | .morgueTransferFailed _ _ => true
  | .morgueLate _ handle => fits 52 handle
  | .refreshWindow _ => true
  | .refreshIntervalExpiry _ => true
  | .t1ScrubSlot _ => true
  | .t0Scrub _ => true
  | .damageReport => true
  | .coreCheckFault _ => true
  | .coreTimeout _ => true
  | .peerTimeout _ endpoint => fits 18 endpoint
  | .recoverRoster _ source dest _ _ _ => fits 18 source && fits 18 dest
  | .coreLost _ => true
  | .compositorMemoryError _ _ => true
  | .compositorWatchdog _ => true
  | .colophonFault => true
  | .pwrCapWrite _ _ => true
  | .pwrCapFast _ _ => true
  | .capStep => true
  | .limiterEval _ _ _ _ => true
  | .avsSample milliwatts => !milliwatts.isEmpty
  | .overCap => true
  | .overCapClear => true
  | .vrAlertAssert => true
  | .vrAlertDeassert => true
  | .vrAlertClear => true
  | .pwrbrkAssert => true
  | .pwrbrkDeassert => true
  | .pwrbrkClear => true
  | .sensorRead readings => readings.all fun x => decide (x.1 < 220)
  | .lthStep => true
  | .thermalHold => true
  | .dramTempReport _ _ => true
  | .heartbeat _ _ => true
  | .heartbeatExpiry => true
  | .pwrReqRest => true
  | .pwrReqRun => true
  | .restEntry => true
  | .restWake => true
  | .monitorSample samples => samples.all fun x => decide (x.1 < 1872)
  | .spareMonitorSample samples => samples.all fun x => decide (x.1 < 1872)
  | .marginFit fits_ => fits_.all fun x => decide (x.1 < 208)
  | .powerGoodRise _ _ => true
  | .powerGoodFall => true
  | .perstNAssert => true
  | .release _ _ _ => true
  | .coolOkChange _ => true
  | .bootImageChecked _ _ => true
  | .firmwareInitDone _ => true
  | .mailboxLoad => true
  | .mailboxImageChecked _ => true
  | .firmwareUpdate => true
  | .firmwareUpdateDone _ _ => true
  | .clockMonitorTrip _ => true
  | .pcieRefclkLoss => true
  | .drbgReseed => true
  | .getVersion => true
  | .getCapabilities => true
  | .negotiateAlgorithms => true
  | .getDigests => true
  | .getCertificate slot offset length => decide (slot < 16) && fits 16 offset && fits 16 length
  | .challenge _ => true
  | .getMeasurements _ _ index => fits 8 index
  | .keyExchange _ => true
  | .finish _ => true
  | .keyUpdate which => fits 8 which
  | .spdmHeartbeat => true
  | .endSession => true
  | .getPqChain offset length => fits 32 offset && fits 32 length
  | .getPqSignature => true
  | .i3cPrivateWrite _ => true
  | .entdaa _ => true
  | .setdasa _ _ => true
  | .rstdaa => true
  | .getpid => true
  | .getbcr => true
  | .getdcr => true
  | .getstatus => true
  | .getmwl => true
  | .getmrl => true
  | .icuInputEvent _ => true
  | .icuEnSet _ _ => true
  | .icuEnClr _ _ => true
  | .icuPendSet _ _ => true
  | .icuPendClr _ _ => true
  | .icuRouteWrite _ _ => true
  | .reproStep _ _ _ => true
  | .reproGo _ _ => true
  | .registerWrite _ offset width _ => fits 20 offset && (width == 8 || width == 16 || width == 32 || width == 64)
  | .nakSend _ _ => true
  | .msixMaskClear f vector => vector.all fun v => decide (v < (if f.val = 0 then 2048 else 128))
  | .pcieRefclkReturn => true
  | .ideKm prog key => !prog || key.length == 32

end Sys2Proof
end

