-- ==== Sys2Proof/Tests/Slice0.lean ====
section
/-!
SUPPORT. Tests: a concrete state for the hypotheses of every statement, single steps on small states against values worked out by
hand from the spec, and ill-formed commands that the check refuses.
-/
namespace Sys2Proof.Tests

open Sys2Proof Sys2Proof.Machine

set_option Elab.async false

/-! Small states. -/

/-- A record from its opcode and fields, each a byte position and a value (R296). -/
def rcd (op : Nat) (fields : List (Nat × Nat)) : BitVec 512 := BitVec.ofNat 512 (op + (fields.map fun x => x.2 * 256 ^ x.1).sum)

def layer0 : LayerCfg := { g := 1, d := 64, kv := .bf16, heads := 1, window := 0, headroom := 0x3F800000, sMin := 0, cls := 0 }

/-- A BF16 weight of one row of 128, a BF16 activation of one row of 128, a run-time tensor at 0x8000. -/
def descs0 : List TensorDesc :=
  [{ elem := 0x02, scale := 0, cls := 0, flags := 0, rows := 1, k := 128, tscale := 0x3F800000, location := 0x4000, stored := 256, slugElems := 0, font := 0xFFFF },
   { elem := 0x02, scale := 0, cls := 1, flags := 0, rows := 1, k := 128, tscale := 0x3F800000, location := 0x6000, stored := 256, slugElems := 0, font := 0xFFFF },
   { elem := 0x02, scale := 0, cls := 2, flags := 0, rows := 2, k := 128, tscale := 0x3F800000, location := 0x8000, stored := 512, slugElems := 0, font := 0xFFFF }]

def serving0 : Serving :=
  { dCap := 4, pSeq := 1, pCap := 64, cSeq := 1, lC := 16, rRes := 1, qHi := 0, qLo := 0, kMax := 0, template := [], tChunk := 16,
    draftK := 8, rowMap := [], draftCores := 0 }

def entry0 : EntryCfg :=
  { imprint := 0, interleaved := false, fixed := true, spec := 0, spill := 0, wireCap := 1, set := 0, lookahead := 4,
    lateness := 8, starvation := 16, liveLimit := 8, admitBudget := 4, adapterSlots := 2, drainAt := 0, manifest := 0 }

def cfg0 : ImprintCfg :=
  { entry := entry0, cores := [0, 1], channels := [0, 1], t2 := [], serving := serving0,
    density := ⟨.flag, 16, 16, 2, 2, 1, 0⟩, folio := [⟨.bf16, 64, [2, 2, 0], [0, 0, 0], [0, 0, 0]⟩],
    formats := ⟨descs0, [], [], [⟨.huff, 0, [(0, 0x20000)]⟩], [layer0], [], 256⟩,
    schedule := ⟨false, 1, [⟨.opening, 0, 0, []⟩, ⟨.closing, 0, 1, []⟩], [], [], 0⟩,
    routes := ⟨[(0, 0)], [], 0, 0, .none, 0, [], 100, 8⟩, placement := none, adapters := none }

def imp0 : Imprint := { Imprint.absent with cfg := some cfg0 }

/-- The logical cores in ascending order on the first 96 cores of each die, 8 spares after them (R25). -/
def map0 : List Nat := List.range 96 ++ List.replicate 8 0xFE ++ (List.range 96).map (· + 96) ++ List.replicate 8 0xFE

/-- A released package in RUNNING with imprint 0 on cores 0 and 1. -/
def st0 : State :=
  { State.reset with
    imprints := [(0, imp0)], ed := { State.reset.ed with coreMap := map0 }, boot := { Boot.reset with ran := true, stage := .running } }

/-- That package, with one record in the stream of job 0 on core 0. -/
def one (r : BitVec 512) : State := { st0 with cores := [(0, { Core.empty with streams := [(0, [r])] })] }

/-- Bytes in T0 from an address. -/
def put (s : State) (a : Nat) (bs : List Byte) : State :=
  { s with t0 := { s.t0 with bytes := memWrite s.t0.bytes a bs } }

/-- The bytes of 32-bit words. -/
def words (xs : List Nat) : List Byte := xs.flatMap (leBytes 4)

/-- What a command's outcome shows. -/
def shows {α : Type} (o : Host.Outcome State Fault Refusal) (f : State → α) : Option α :=
  match o with
  | .next t => some (f t)
  | _ => none

/-! The block's step, reset, encodings, memories. -/

theorem witness_step : ({ st0 with pending := [.doorbellPoll] } : State).pending = .doorbellPoll :: [] := rfl
theorem witness_idle : State.reset.pending = [] ∧ State.reset.boot.released = true
    ∧ ({ State.reset with boot := { Boot.reset with released := false } } : State).boot.released = false
    ∧ Nat.testBit ({ st0 with icu := { Icu.reset with pend := 2 } } : State).icu.pend 1 = true ∧ st0.inRest = false := by decide +kernel
theorem witness_canonical : st0.memoryWf = true ∧ st0.tablesWf = true ∧ (∃ t, step st0 = .next t) := by
  refine ⟨by decide +kernel, by decide +kernel, ⟨_, rfl⟩⟩

/-- A ZRUN font with a code for the literal after no zeros and for EOB, one bit each: a complete code (R132). -/
def font0 : Font := ⟨0x10, .zrun, 1 :: (List.replicate 64 0 ++ [1])⟩
theorem witness_slug : slugBytes 0x12 3 = some [0#8, 0#8, 7#8].length ∧ lensValid font0.kind font0.lens = true
    ∧ font0.lens.length = font0.kind.alphabet ∧ [font0].find? (fun g => g.id == font0.id) = some font0
    ∧ slugBytes 0x30 (4 * 65536) = some 65536 := by decide +kernel
/-- R124's bounds: D of 1 and 65,536 are well formed, 0 and 65,537 are not; a TERNARY DEC_LEN is a multiple of 64. -/
theorem test_slug_header : (⟨0, 0x12, 1, 1, 0⟩ : SlugHeader).wellFormed = true ∧ (⟨1, 0x12, 1, 65536, 0⟩ : SlugHeader).wellFormed = true
    ∧ (⟨0, 0x12, 0, 0, 0⟩ : SlugHeader).wellFormed = false ∧ (⟨1, 0x12, 1, 65537, 0⟩ : SlugHeader).wellFormed = false
    ∧ (⟨0, 0x31, 13, 64, 0⟩ : SlugHeader).wellFormed = true ∧ (⟨1, 0x31, 1, 63, 0⟩ : SlugHeader).wellFormed = false
    ∧ (⟨0, 0x81, 4, 5, 0⟩ : SlugHeader).wellFormed = false ∧ (⟨0, 0x40, 1, 1, 0⟩ : SlugHeader).wellFormed = false := by decide +kernel
/-- The check value of CRC32C for the nine digits. -/
theorem test_crc32c : crc32c ([0x31, 0x32, 0x33, 0x34, 0x35, 0x36, 0x37, 0x38, 0x39].map (BitVec.ofNat 8)) = 0xE3069283 := by decide +kernel

def hello0 : Hello := ⟨1, 8, false, 0, 3, 1, 0, 0, 0xFFFF, 0xFFFF⟩
def topo0 : Topology :=
  { ports := List.replicate 20 ⟨.required, 8, 0, none, none⟩, podMap := [], dims := (0, 0, 0), tree := none, transitTray := 0,
    transitPlanes := 0, sets := [⟨[0], 8, 100, 4⟩], spans := [], discoveryMs := 100 }
def power0 : PowerCfg := ⟨2000, 50, 50, 4, 100, 16, 8, 1000⟩
/-- The 128 B of an edition's header with no sections (R484). -/
def edBytes (kind imprint edition base effective : Nat) : List Byte :=
  leBytes 4 0x4E544445 ++ leBytes 2 1 ++ leBytes 1 kind ++ leBytes 1 imprint ++ leBytes 4 edition ++ leBytes 4 base ++ leBytes 8 effective
    ++ leBytes 8 0 ++ leBytes 8 128 ++ List.replicate 88 0#8
def edition0 : Edition := ⟨edBytes 0 0xFF 1 0 0, .major ⟨map0, topo0, false, [cfg0], power0⟩⟩
theorem test_edHeader : edition0.head = ⟨0x4E544445, 1, 0, 0xFF, 1, 0, 0, 0, 128, true⟩ ∧ edition0.bytes.length = 128 ∧ edition0.dir = [] := by decide +kernel
/-- The small package with an edition in force and its location valid. -/
def stE : State := { st0 with ed := { st0.ed with inForce := some edition0, number := 1 }, fab := { st0.fab with valid := true } }
theorem witness_wire : stE.topology = some topo0 ∧ topo0.ports[0]? = some ⟨.required, 8, 0, none, none⟩
    ∧ planMatches ⟨.required, 8, 0, none, none⟩ 0 hello0 = true ∧ stE.wireMax = 1 ∧ stE.wireMin = 1
    ∧ wireOf 1 1 hello0 = some 1 ∧ wireOf 5 4 hello0 = none := by decide +kernel

def flipped : State := { st0 with t0 := { st0.t0 with flips := [(0, 1), (32, 2)] } }
/-- R231: one flipped bit in a word is corrected and counted, two make the line read as zeros. -/
theorem witness_t0 : flipped.lineBad 0 = false ∧ flipped.lineBad 1 = true ∧ (0 : Nat) / 256 = (0 + 256 - 1) / 256
    ∧ (256 : Nat) / 256 = (256 + 256 - 1) / 256 ∧ flipped.lineFixes 0 = 1 ∧ (∀ l ∈ linesOf 0 256, flipped.lineBad l = false) := by decide +kernel
theorem test_t0Read : (flipped.t0Read 0 4).2.t0.corrected = [(0, 1)] ∧ ((put flipped 256 [7#8]).t0Read 256 2).1 = [0#8, 0#8] := by decide +kernel
theorem witness_t1Map : ([0, 1] : List Nat).Nodup ∧ (t1Map [0, 1] 0, t1Map [0, 1] 1, t1Map [0, 1] 2) = ((0, 0), (1, 0), (1, 1)) := by decide +kernel
theorem witness_atomics : (0xFFFFFFFF : Nat) < 2 ^ 32 ∧ isAtomic 0x10 = true ∧ isCommutative 0x10 = true
    ∧ atomicNew 0x10 32 0xFFFFFFFF 1 0 = 0 ∧ atomicNew 0x13 32 1 0xFFFFFFFF 0 = 0xFFFFFFFF ∧ atomicNew 0x16 64 5 7 5 = 7 := by decide +kernel

/-! The sequencer and the engines. -/

def nopRec : BitVec 512 := rcd 0x00 [(4, 2)]
theorem witness_waits : st0.ready 0 0 0x00 = none := by decide +kernel
theorem witness_nop : engineOp (.seqNop 0 0) = some (0, 0, 0x00) ∧ onPackage 0x00 = true
    ∧ (one nopRec).ready 0 0 0x00 = some (0, nopRec) ∧ (one nopRec).cfg 0 = some cfg0 := by decide +kernel
theorem test_seqNop : shows (exec (.seqNop 0 0) (one nopRec)) (fun t => ((t.core 0).ctr 0 0, ((t.core 0).job 0).pos)) = some (1, 0) := by
  decide +kernel
def quoinRec : BitVec 512 := rcd 0x01 [(8, 5)]
theorem witness_quoin : (one quoinRec).ready 0 0 0x01 = some (0, quoinRec) := by decide +kernel
theorem test_quoin : shows (exec (.quoin 0 0) (one quoinRec)) (fun t => ((t.core 0).job 0).atQuoin) = some (some 5) := by decide +kernel
/-- A signal to counter 31 of core 1. -/
def signalRec : BitVec 512 := rcd 0x6B [(16, 2 ^ 26 + 31)]
theorem witness_signal : (one signalRec).ready 0 0 0x6B = some (0, signalRec) ∧ (one signalRec).imprintOf 1 = some 0 := by decide +kernel
theorem test_signal : shows (exec (.signal 0 0) (one signalRec)) (fun t => (t.core 1).ctr 0 31) = some 1 := by decide +kernel
def fontRec : BitVec 512 := rcd 0x02 [(8, 3), (9, 15), (16, 0x1000)]
def fontSt : State := put (one fontRec) 0x1000 font0.image
theorem witness_fontLoad : fontSt.ready 0 0 0x02 = some (0, fontRec) ∧ fontSt.readable 0 (recBytes fontRec 16 23 % 2 ^ 34) 512 = true := by
  decide +kernel
theorem test_fontLoad : shows (exec (.fontLoad 0 0) fontSt) (fun t => spGet none (t.core 0).fonts 63) = some (some font0) := by decide +kernel
/-- A command of the Setter's in flight whose counter 7 stands at the last value. -/
def flightSt : State :=
  { st0 with cores := [(0, { Core.empty with inflight := [⟨0, .setter, some 7, false⟩], jobs := [(0, { CoreJob.fresh with ctrs := [(7, 65535)] })] })] }
theorem witness_complete : flightSt.stopped = false ∧ flightSt.issueLevel ≠ 0 ∧ (flightSt.core 0).serving .setter (engineKey .setter) = some 0
    ∧ (flightSt.core 0).inflight.find? (fun f => f.engine == .setter && f.job == 0) = some ⟨0, .setter, some 7, false⟩
    ∧ (flightSt.core 0).overprintHeld .setter 0 = false := by decide +kernel
/-- A Roller tile with the Overprint behind a Platen tile that holds it (R102). -/
def overSt : State :=
  { st0 with cores := [(0, { Core.empty with inflight := [⟨0, .platen, none, true⟩, ⟨0, .roller, some 7, true⟩] })] }
theorem witness_overprint : (overSt.core 0).overprintHeld .roller 0 = true ∧ (overSt.core 0).serving .roller (engineKey .roller) = some 0
    ∧ (overSt.core 0).inflight.find? (fun f => f.engine == .roller && f.job == 0) = some ⟨0, .roller, some 7, true⟩ := by decide +kernel
theorem test_overprint : shows (exec (.commandComplete 0 0 .roller) overSt) (fun t => (t.core 0).inflight.length) = some 2
    ∧ shows (exec (.commandComplete 0 0 .platen) overSt) (fun t => (t.core 0).inflight.length) = some 1 := by decide +kernel
theorem test_commandComplete : shows (exec (.commandComplete 0 0 .setter) flightSt) (fun t => ((t.core 0).ctr 0 7, (t.core 0).inflight)) = some (0, []) := by
  decide +kernel
/-- Three jobs, two of them held. -/
def switchSt : State :=
  { st0 with cores := [(0, { Core.empty with
      streams := [(0, [nopRec]), (1, [nopRec]), (2, [nopRec])],
      jobs := [(0, { CoreJob.fresh with held := true, lastIssue := 9 }), (1, { CoreJob.fresh with held := true, lastIssue := 3 }), (2, { CoreJob.fresh with pos := 4 })] })] }
theorem witness_jobSwitch : switchSt.imprintOf 0 = some 0 ∧ switchSt.stopped = false ∧ switchSt.issueLevel ≠ 0 ∧ (switchSt.core 0).stopped = false
    ∧ ((switchSt.core 0).stream 2).isEmpty = false ∧ (switchSt.core 0).heldJob 2 = false ∧ ((switchSt.core 0).job 2).atQuoin = none
    ∧ 2 ≤ ((switchSt.core 0).jobs.filter fun x => x.2.held).length ∧ (switchSt.core 0).oldestHeld 2 = some 1 := by decide +kernel
theorem test_jobSwitch : shows (exec (.jobSwitch 0 2) switchSt) (fun t => (((t.core 0).job 1).held, ((t.core 0).job 2).held, ((t.core 0).job 2).pos)) =
    some (false, true, 4) := by decide +kernel

/-- A tile of one row, one column, one pass, ZERO mode, WRITE as FP32 at 0x1000 with OUT_FACTOR 2.0; the weight is all ones and the
activation all threes. -/
def tileRec (op write : Nat) : BitVec 512 :=
  rcd op [(8, 0), (10, 1), (20, 1), (22, 1), (24, 1), (32, 4 * write), (33, 0x01), (35, 0xFF), (36, 0x40000000), (44, 0x1000), (52, 0xFFFF)]
def threes : Sp Byte := memWrite [] 0 ((List.replicate 128 (leBytes 2 0x4040)).flatten)
def tileCore (r : BitVec 512) : Core := { Core.empty with streams := [(0, [r])], staging := threes, tokens := threes }
def tileSt (op write : Nat) : State :=
  { put (one (tileRec op write)) 0x4000 ((List.replicate 128 (leBytes 2 0x3F80)).flatten) with cores := [(0, tileCore (tileRec op write))] }
def weight1 : TensorDesc := { elem := 0x02, scale := 0, cls := 1, flags := 0, rows := 1, k := 128, tscale := 0x3F800000, location := 0x6000, stored := 256, slugElems := 0, font := 0xFFFF }
theorem witness_tile : ∀ x ∈ [(0x10, 0), (0x10, 1)], (tileSt x.1 x.2).ready 0 0 x.1 = some (0, tileRec x.1 x.2) ∧ (matrixBody (tileRec x.1 x.2)).up = false
    ∧ (matrixBody (tileRec x.1 x.2)).write = (x.2 == 1) ∧ (tileSt x.1 x.2).desc 0 0 = descs0[0]? ∧ (tileSt x.1 x.2).desc 0 1 = some weight1
    ∧ pairing .bf16 .bf16 = some .bf16 ∧ (tileSt x.1 x.2).freshBlock 0 0x1000 = none ∧ (tileSt x.1 x.2).expertRows 0 0 (weight1) = false
    ∧ (matrixBody (tileRec x.1 x.2)).watch = 0xFF ∧ (Scale.ofCode (matrixBody (tileRec x.1 x.2)).outSf).getD .none = .none ∧ (tileSt x.1 x.2).runtimeAt 0 0x1000 = none
    ∧ (tileSt x.1 x.2).writable 0 0x1000 4 = true ∧ (tileSt x.1 x.2).sound = true := by decide +kernel
theorem witness_rollerTile : (tileSt 0x20 1).ready 0 0 0x20 = some (0, tileRec 0x20 1) := by decide +kernel
/-- 128 products of 1 and 3 add to 384, and twice that is written. -/
theorem test_platenTile : shows (exec (.platenTile 0 0) (tileSt 0x10 1)) (fun t => (spGet 0#32 (t.core 0).accP 0, memRead t.t0.bytes 0x1000 4)) =
    some (0x43C00000#32, leBytes 4 0x44400000) := by decide +kernel
def loadRec (op : Nat) : BitVec 512 := rcd op [(8, 0x6000), (16, 1), (18, 1), (20, 0), (24, 128), (28, 1), (30, 2)]
def loadSt (op : Nat) : State := put (one (loadRec op)) 0x6000 ((List.replicate 128 (leBytes 2 0x4040)).flatten)
theorem witness_load : (loadSt 0x11).ready 0 0 0x11 = some (0, loadRec 0x11) ∧ (loadSt 0x21).ready 0 0 0x21 = some (0, loadRec 0x21)
    ∧ (loadSt 0x11).desc 0 (loadBody (loadRec 0x11)).desc = some weight1 ∧ (loadSt 0x11).expertRows 0 0 weight1 = false := by decide +kernel
theorem test_aLoad : shows (exec (.aLoad 0 0) (loadSt 0x11)) (fun t => ((t.core 0).stagedBytes false (524288 + 512) 4, (t.core 0).staged)) =
    some ([0x40#8, 0x40#8, 0x40#8, 0x40#8], [⟨1, 512, 256, 1, 0, 1, []⟩]) := by decide +kernel
theorem test_tLoad : shows (exec (.tLoad 0 0) (loadSt 0x21)) (fun t => ((t.core 0).stagedBytes true (262144 + 512) 2, (t.core 0).staged)) =
    some ([0x40#8, 0x40#8], [⟨3, 512, 256, 1, 0, 1, []⟩]) := by decide +kernel
/-- An attend tile of one row with no keys, in TRIPLE, FINAL and NONE mode. -/
def attendRec (mode : Nat) : BitVec 512 := rcd 0x30 [(16, 1), (19, mode), (21, 0x01), (28, 0x3F800000), (32, 0x3F800000), (46, 3), (56, 0x1000), (60, 0xFFFF)]
theorem witness_attend : ∀ m ∈ [0, 2, 32], (one (attendRec m)).ready 0 0 0x30 = some (0, attendRec m)
    ∧ (one (attendRec m)).layer 0 (attendBody (attendRec m)).layer = some layer0 ∧ (attendBody (attendRec m)).silent = (m == 32)
    ∧ (attendBody (attendRec m)).final = (m == 2) ∧ (one (attendRec m)).runtimeAt 0 0x1000 = none
    ∧ (one (attendRec m)).writable 0 (t0Addr 0 0x1000) 264 = true ∧ (one (attendRec m)).writable 0 (t0Addr 0 0x1000) 256 = true := by decide +kernel
/-- R163: the state of a row without keys has M minus infinity, L and O zero. -/
theorem test_attend : shows (exec (.attend 0 0) (one (attendRec 0))) (fun t => memRead t.t0.bytes 0x1000 8) =
    some (words [0xFF800000, 0]) := by decide +kernel
def mergeRec (final : Nat) : BitVec 512 := rcd 0x31 [(8, 3), (10, 1), (12, 0x2000), (16, 2 * final), (17, 0x01), (20, 0x3F800000), (24, 0x1000), (28, 0)]
/-- The core's own state holds M = 0, L = 1; the right triple M = 0, L = 2: the sum has L = 3 (R181). -/
def mergeSt (final : Nat) : State :=
  { put (one (mergeRec final)) 0x2000 (words [0, 0x40000000]) with
    cores := [(0, { Core.empty with streams := [(0, [mergeRec final])], galley := [(3 * 66 + 1, 0x3F800000)] })] }
theorem witness_merge : ∀ m ∈ [0, 1], (mergeSt m).ready 0 0 0x31 = some (0, mergeRec m) ∧ (mergeSt m).layer 0 (mergeBody (mergeRec m)).layer = some layer0
    ∧ (mergeBody (mergeRec m)).final = (m == 1) ∧ (mergeSt m).writable 0 (t0Addr 0 0x1000) 264 = true := by decide +kernel
theorem test_merge : shows (exec (.merge 0 0) (mergeSt 0)) (fun t => memRead t.t0.bytes 0x1000 8) = some (words [0, 0x40400000]) := by decide +kernel

/-! The Setter, the Imposer, Chase. -/

/-- A block that the font would lengthen is STORED (R137); a slug of another element count has the outcome SIZE (R150). -/
theorem test_slug : decideSlug [font0] 0x12 66 (encodeSlug (some font0) 0x12 1 [5#8] ++ List.replicate 31 0#8) = (.size, List.replicate 66 0#8, some 32)
    ∧ decideSlug [font0] 0x12 1 (encodeSlug (some font0) 0x12 1 [5#8] ++ List.replicate 31 0#8) = (.good, [5#8], some 32) := by decide +kernel

/-- ELEMENT ADD of one FP32 element: 1.0 + 2.0. -/
def elemRec : BitVec 512 := rcd 0x40 [(8, 0x1000), (16, 0x1100), (24, 0x2000), (32, 1), (36, 0), (38, 0x01), (39, 0x01)]
def elemSt (r : BitVec 512) : State := put (put (one r) 0x1000 (words [0x3F800000, 0x40000000])) 0x1100 (words [0x40000000])
theorem witness_element : (elemSt elemRec).ready 0 0 0x40 = some (0, elemRec) ∧ (vectorBody elemRec).subop ≠ 8
    ∧ (elemSt elemRec).freshBlock 0 0x2000 = none ∧ (elemSt elemRec).runtimeAt 0 0x2000 = none
    ∧ (elemSt elemRec).writable 0 0x2000 4 = true ∧ (elemSt elemRec).sound = true := by decide +kernel
theorem test_element : shows (exec (.element 0 0) (elemSt elemRec)) (fun t => memRead t.t0.bytes 0x2000 4) = some (words [0x40400000]) := by
  decide +kernel
/-- REDUCE SUM of two FP32 elements. -/
def reduceRec : BitVec 512 := rcd 0x41 [(8, 0x1000), (24, 0x2000), (32, 2), (36, 0), (38, 0x01), (39, 0x01)]
theorem witness_reduce : (elemSt reduceRec).ready 0 0 0x41 = some (0, reduceRec) ∧ (elemSt reduceRec).freshBlock 0 0x2000 = none
    ∧ (elemSt reduceRec).runtimeAt 0 0x2000 = none ∧ (elemSt reduceRec).writable 0 0x2000 4 = true := by decide +kernel
theorem test_reduce : shows (exec (.reduce 0 0) (elemSt reduceRec)) (fun t => memRead t.t0.bytes 0x2000 4) = some (words [0x40400000]) := by
  decide +kernel

/-- SAMPLE of an empty slot 0 and of a decode slot 1 whose kept list is token 3 alone. -/
def sampleRec (slot : Nat) : BitVec 512 := rcd 0x42 [(8, 0x1000), (24, 0x2000), (32, 1), (56, slot)]
def slot1 : Slot := { Slot.empty 0 1 with kind := .decode, request := 7, fresh := 1 }
def sampleSt (slot : Nat) : State :=
  { put (one (sampleRec slot)) 0x1000 (words [3, 0x3F800000]) with
    imprints := [(0, { imp0 with run := { Run.fresh with manifest := [Slot.empty 0 1, slot1] } })] }
theorem witness_sample : (sampleSt 0).ready 0 0 0x42 = some (0, sampleRec 0) ∧ (sampleSt 1).ready 0 0 0x42 = some (0, sampleRec 1)
    ∧ slotAt ((sampleSt 0).imp 0).run.manifest 0 = none ∧ slotAt ((sampleSt 1).imp 0).run.manifest 1 = some slot1
    ∧ (sampleSt 1).writable 0 0x2000 8 = true ∧ (sampleSt 1).sound = true := by decide +kernel
theorem test_sample : shows (exec (.sample 0 0) (sampleSt 1)) (fun t => memRead t.t0.bytes 0x2000 8) = some (words [3, 0x7F])
    ∧ shows (exec (.sample 0 0) (sampleSt 0)) (fun t => memRead t.t0.bytes 0x2000 8) = some (words [0, 0x7F]) := by decide +kernel

/-- A stream of ZRUN fonts with two count tables. -/
def fontCfg : ImprintCfg := { cfg0 with formats := { cfg0.formats with streams := [⟨.zrun, 0, [(0, 0x20000), (1, 0x4020000)]⟩] } }
def withCfg (g : ImprintCfg) (s : State) : State := { s with imprints := [(0, { imp0 with cfg := some g })] }
def statsRec : BitVec 512 := rcd 0x43 [(24, 0x2000), (56, 0)]
def statsSt : State := put (put (withCfg fontCfg (one statsRec)) 0x20000 (leBytes 8 5)) 0x4020000 (leBytes 8 6)
theorem witness_fontStats : statsSt.ready 0 0 0x43 = some (0, statsRec) ∧ statsSt.sound = true
    ∧ ((statsSt.cfg 0).bind fun g => g.formats.streams[0]?) = some ⟨.zrun, 0, [(0, 0x20000), (1, 0x4020000)]⟩
    ∧ (∀ x ∈ [(0, 0x20000), (1, 0x4020000)], statsSt.readable 0 x.2 (8 * 66) = true ∧ statsSt.writable 0 x.2 (8 * 66) = true)
    ∧ statsSt.writable 0 0x2000 (8 * 66) = true ∧ 0x2000 + 8 * 66 ≤ 0x20000 ∧ 0x20000 + 8 * 66 ≤ 0x4020000 := by decide +kernel
theorem test_fontStats : shows (exec (.fontStats 0 0) statsSt) (fun t => (memRead t.t0.bytes 0x2000 8, memRead t.t0.bytes 0x20000 8)) =
    some (leBytes 8 11, leBytes 8 0) := by decide +kernel

def vecRec (op : Nat) (fields : List (Nat × Nat)) : BitVec 512 := rcd op ([(8, 0x1000), (24, 0x2000)] ++ fields)
def sortRec (key : Nat) : BitVec 512 := vecRec 0x54 [(32, 3), (41, key)]
def listSt (r : BitVec 512) : State := put (put (one r) 0x1000 (words [7, 5, 0xFFFFFFFF])) 0x1100 (words [2, 0, 1])
theorem witness_sort : ∀ k ∈ [0, 1], (listSt (sortRec k)).ready 0 0 0x54 = some (0, sortRec k) ∧ (vectorBody (sortRec k)).key = k
    ∧ (listSt (sortRec k)).sound = true ∧ (listSt (sortRec k)).readable 0 0x1000 12 = true ∧ (listSt (sortRec k)).writable 0 0x2000 24 = true := by
  decide +kernel
/-- As unsigned keys the all-ones word is last, as signed keys first. -/
theorem test_sort : shows (exec (.sort 0 0) (listSt (sortRec 0))) (fun t => memRead t.t0.bytes 0x2000 24) = some (words [1, 5, 0, 7, 2, 0xFFFFFFFF])
    ∧ shows (exec (.sort 0 0) (listSt (sortRec 1))) (fun t => memRead t.t0.bytes 0x2000 24) = some (words [2, 0xFFFFFFFF, 1, 5, 0, 7]) := by decide +kernel
def topkRec : BitVec 512 := vecRec 0x55 [(32, 3), (42, 4)]
theorem witness_topk : (listSt topkRec).ready 0 0 0x55 = some (0, topkRec) ∧ (listSt topkRec).readable 0 0x1000 12 = true
    ∧ (listSt topkRec).writable 0 0x2000 32 = true := by decide +kernel
theorem test_topk : shows (exec (.topk 0 0) (listSt topkRec)) (fun t => memRead t.t0.bytes 0x2000 32) =
    some (words [2, 0xFFFFFFFF, 0, 7, 1, 5, 0xFFFFFFFF, 0]) := by decide +kernel
def scanRec : BitVec 512 := vecRec 0x58 [(32, 3)]
theorem witness_scan : (listSt scanRec).ready 0 0 0x58 = some (0, scanRec) ∧ (vectorBody scanRec).key ≠ 2 ∧ (listSt scanRec).readable 0 0x1000 12 = true
    ∧ (listSt scanRec).writable 0 0x2000 12 = true := by decide +kernel
theorem test_scan : shows (exec (.scan 0 0) (listSt scanRec)) (fun t => memRead t.t0.bytes 0x2000 12) = some (words [7, 12, 11]) := by decide +kernel
def gatherRec (op : Nat) : BitVec 512 := vecRec op [(16, 0x1100), (32, 3), (38, 0x01), (42, 3)]
theorem witness_gather : (listSt (gatherRec 0x56)).ready 0 0 0x56 = some (0, gatherRec 0x56) ∧ (listSt (gatherRec 0x57)).ready 0 0 0x57 = some (0, gatherRec 0x57)
    ∧ (listSt (gatherRec 0x56)).readable 0 0x1100 12 = true ∧ (listSt (gatherRec 0x56)).writable 0 0x2000 12 = true
    ∧ u32s (memRead (listSt (gatherRec 0x56)).t0.bytes 0x1100 12) = [2, 0, 1]
    ∧ (∀ k ∈ [2, 0, 1], (listSt (gatherRec 0x56)).readable 0 (0x1000 + 4 * k) 4 = true ∧ (listSt (gatherRec 0x57)).writable 0 (0x2000 + 4 * k) 4 = true) := by
  decide +kernel
theorem test_imposerGather : shows (exec (.imposerGather 0 0) (listSt (gatherRec 0x56))) (fun t => memRead t.t0.bytes 0x2000 12) =
    some (words [0xFFFFFFFF, 7, 5]) := by decide +kernel
theorem test_imposerScatter : shows (exec (.imposerScatter 0 0) (listSt (gatherRec 0x57))) (fun t => memRead t.t0.bytes 0x2000 12) =
    some (words [5, 0xFFFFFFFF, 7]) := by decide +kernel
def segRec : BitVec 512 := vecRec 0x59 [(16, 0x1100), (32, 3), (42, 2)]
def segSt : State := put (one segRec) 0x1000 (words [7, 5, 1] ++ List.replicate 244 0#8 ++ words [0, 2])
theorem witness_segreduce : segSt.ready 0 0 0x59 = some (0, segRec) ∧ (vectorBody segRec).key ≠ 2 ∧ segSt.readable 0 0x1000 12 = true
    ∧ segSt.readable 0 0x1100 8 = true ∧ segSt.writable 0 0x2000 8 = true := by decide +kernel
theorem test_segreduce : shows (exec (.segreduce 0 0) segSt) (fun t => memRead t.t0.bytes 0x2000 8) = some (words [12, 1]) := by decide +kernel

/-- An expert layer of two experts of one replica each, on package 0. -/
def expert0 : ExpertLayer := ⟨3, false, 2, 256, false, .fp32, .none, .fp32, .fp32, .none, 64, [⟨[(0, 0)], 0⟩, ⟨[(0, 1)], 1⟩]⟩
def moeCfg : ImprintCfg := { fontCfg with placement := some ⟨[0], [expert0], []⟩ }
def moeSt (r : BitVec 512) : State :=
  { one r with imprints := [(0, { imp0 with cfg := some moeCfg, run := { Run.fresh with manifest := [{ Slot.empty 0 2 with kind := .decode, fresh := 2 }], routed := 2 } })] }
def routeRec : BitVec 512 := vecRec 0x50 [(32, 2), (42, 2), (52, 2), (56, 3)]
def routeSt : State := put (moeSt routeRec) 0x1000 (words [0x3F800000, 0x7FC00000, 0x40000000, 0x3F800000])
theorem witness_routeLocal : routeSt.ready 0 0 0x50 = some (0, routeRec) ∧ routeSt.sound = true ∧ routeSt.expertLayer 0 3 = some expert0
    ∧ routeSt.readable 0 0x1000 16 = true ∧ routeSt.mayWrite 0 0x2000 = true ∧ routeSt.mayWrite 0 (0x2000 + 511) = true := by decide +kernel
/-- The NaN affinity is no candidate; the larger of the finite ones comes first (R264). -/
theorem test_routeLocal : shows (exec (.routeLocal 0 0) routeSt) (fun t => ((t.imp 0).run.cands, memRead t.t0.bytes (0x2000 + 64) 8)) =
    some ([(12288, 2), (12289, 1)], leBytes 4 0x40000000 ++ leBytes 2 1 ++ leBytes 2 0) := by decide +kernel
def mergeRouteRec : BitVec 512 := vecRec 0x51 [(42, 1), (52, 2), (56, 3)]
def mergeRouteSt : State := put (moeSt mergeRouteRec) 0x1000
  ((moeSt mergeRouteRec).blockHead 0 0x11 3 0 0xFF 2 0).bytes
theorem witness_routeMerge : mergeRouteSt.ready 0 0 0x51 = some (0, mergeRouteRec) ∧ mergeRouteSt.expertLayer 0 (3 % 65536) = some expert0
    ∧ mergeRouteSt.readable 0 0x1000 256 = true ∧ mergeRouteSt.mayWrite 0 0x2000 = true ∧ mergeRouteSt.mayWrite 0 0x20FF = true := by decide +kernel
/-- C of R262 is 1 for two tokens and two experts. -/
theorem test_routeMerge : shows (exec (.routeMerge 0 0) mergeRouteSt) (fun t => (BlockHead.ofBytes (memRead t.t0.bytes 0x2000 64)).count) = some 1 := by
  decide +kernel
def imposeRec : BitVec 512 := vecRec 0x52 [(16, 0x3000), (32, 2)]
def imposeSt : State := put (moeSt imposeRec) 0x1000 (((moeSt imposeRec).blockHead 0 0x12 3 1 0xFF 2 0).bytes ++ words [0, 1])
theorem witness_impose : imposeSt.ready 0 0 0x52 = some (0, imposeRec) ∧ imposeSt.readable 0 0x1000 64 = true
    ∧ imposeSt.expertLayer 0 (BlockHead.ofBytes (memRead imposeSt.t0.bytes 0x1000 64)).layer = some expert0 := by decide +kernel
theorem test_impose : shows (exec (.impose 0 0) imposeSt) (fun t => ((spGet [] (t.core 0).picks 3).map fun p => (p.li, p.expert, p.pos))) =
    some [(0, 1, 0), (1, 1, 1)] := by decide +kernel
def collateRec : BitVec 512 := vecRec 0x53 [(32, 2), (56, 1)]
def collateSt : State := put (moeSt collateRec) 0x1000 ((moeSt collateRec).blockHead 0 0x14 3 0 0 0 0).bytes
theorem witness_collate : collateSt.ready 0 0 0x53 = some (0, collateRec) ∧ collateSt.readable 0 0x1000 64 = true
    ∧ collateSt.expertLayer 0 (BlockHead.ofBytes (memRead collateSt.t0.bytes 0x1000 64)).layer = some expert0
    ∧ spGet [] (collateSt.core 0).picks 3 = [] ∧ collateSt.freshBlock 0 0x2000 = none ∧ collateSt.runtimeAt 0 0x2000 = none
    ∧ collateSt.writable 0 0x2000 8 = true := by decide +kernel
/-- One token's pick with gate 2.0 whose row came back as 3.0 gives 6.0 (R284). -/
def collateOne : State :=
  { put (put (moeSt collateRec) 0x1000 (((moeSt collateRec).blockHead 0 0x14 3 0 0 1 0).bytes ++ leBytes 2 0 ++ leBytes 2 0)) 0x1100 (words [0x40400000]) with
    cores := [(0, { Core.empty with streams := [(0, [collateRec])], picks := [(3, [⟨0, 0, 0, 0, 0x40000000⟩])], sent := [((3 * 4096 + 0) * 16, [0])] })] }
theorem test_collate : shows (exec (.collate 0 0) collateOne) (fun t => memRead t.t0.bytes 0x2000 8) = some (words [0x40C00000, 0]) := by decide +kernel
def buildRec : BitVec 512 := vecRec 0x5A [(56, 0)]
def buildSt : State := put (withCfg fontCfg (one buildRec)) 0x1000 (leBytes 8 1)
theorem witness_fontBuild : buildSt.ready 0 0 0x5A = some (0, buildRec) ∧ buildSt.readable 0 0x1000 (8 * 66) = true
    ∧ ((buildSt.cfg 0).bind fun g => g.formats.streams[0]?).isSome = true ∧ buildSt.writable 0 0x2000 512 = true := by decide +kernel
/-- One count of symbol 0, and EOB: one bit each (R141). -/
theorem test_fontBuild : shows (exec (.fontBuild 0 0) buildSt) (fun t => spGet none (t.imp 0).run.fontSlots 0) = some (some ⟨0x1000, .zrun, 1 :: (List.replicate 64 0 ++ [1])⟩) := by
  decide +kernel

def chaseRec (op : Nat) (fields : List (Nat × Nat)) : BitVec 512 := rcd op ([(8, 0x1000), (16, 0x2000)] ++ fields)
def copyRec : BitVec 512 := chaseRec 0x60 [(24, 4)]
def chaseSt (r : BitVec 512) : State := put (put (one r) 0x1000 (words [7, 8, 9])) 0x1100 (leBytes 2 2 ++ leBytes 2 0)
theorem witness_chaseCopy : (chaseSt copyRec).ready 0 0 0x60 = some (0, copyRec) ∧ (chaseSt copyRec).sound = true ∧ ((chaseSt copyRec).imp 0).run.badRows = []
    ∧ (chaseSt copyRec).bayAt 0 0x2000 = none ∧ (chaseSt copyRec).readable 0 0x1000 4 = true ∧ (chaseSt copyRec).writable 0 0x2000 4 = true := by decide +kernel
theorem test_chaseCopy : shows (exec (.chaseCopy 0 0) (chaseSt copyRec)) (fun t => memRead t.t0.bytes 0x2000 4) = some (words [7]) := by decide +kernel
theorem badDispatch_of_no_placement (u : State) (a : Nat) (h : u.imp 0 = imp0) : u.badDispatch 0 a = false := by
  have h0 : u.baySlots 0 = [] := by simp only [State.baySlots, State.placement, State.cfg, h]; rfl
  simp only [State.badDispatch, State.baySlotAt, h0]; rfl
theorem witness_clean (op : BitVec 512) (u : State) (h : u.imp 0 = (chaseSt op).imp 0) (n : Nat) : ∀ l ∈ linesOf n 4, u.badDispatch 0 (max n (256 * l)) = false :=
  fun _ _ => badDispatch_of_no_placement u _ h
def rowsRec (op : Nat) : BitVec 512 := chaseRec op [(24, 4), (28, 2), (32, 0x1100)]
theorem witness_chaseGather : (chaseSt (rowsRec 0x61)).ready 0 0 0x61 = some (0, rowsRec 0x61) ∧ (chaseSt (rowsRec 0x62)).ready 0 0 0x62 = some (0, rowsRec 0x62)
    ∧ (chaseSt (rowsRec 0x61)).readable 0 (t0Addr 0 0x1100) 4 = true
    ∧ (chunks 2 (memRead (chaseSt (rowsRec 0x61)).t0.bytes (t0Addr 0 0x1100) 4)).map ofLeBytes = [2, 0]
    ∧ (∀ k ∈ [0, 1], (chaseSt (rowsRec 0x61)).bayAt 0 (0x2000 + k * 4) = none ∧ (chaseSt (rowsRec 0x61)).writable 0 (0x2000 + k * 4) 4 = true
      ∧ (chaseSt (rowsRec 0x61)).readable 0 (0x1000 + k * 4) 4 = true)
    ∧ (∀ k ∈ [2, 0], (chaseSt (rowsRec 0x61)).readable 0 (0x1000 + k * 4) 4 = true ∧ (chaseSt (rowsRec 0x62)).bayAt 0 (0x2000 + k * 4) = none
      ∧ (chaseSt (rowsRec 0x62)).writable 0 (0x2000 + k * 4) 4 = true ∧ 0x1000 + k * 4 + 4 ≤ 0x2000) := by decide +kernel
theorem test_chaseGather : shows (exec (.chaseGather 0 0) (chaseSt (rowsRec 0x61))) (fun t => memRead t.t0.bytes 0x2000 8) = some (words [9, 7]) := by decide +kernel
theorem test_chaseScatter : shows (exec (.chaseScatter 0 0) (chaseSt (rowsRec 0x62))) (fun t => memRead t.t0.bytes 0x2000 12) = some (words [8, 0, 7]) := by
  decide +kernel
/-- To cores 1 and 0. -/
def bcastRec : BitVec 512 := chaseRec 0x63 [(24, 4), (28, 2), (32, 0x1200)]
def bcastSt : State := put (chaseSt bcastRec) 0x1200 (leBytes 2 1 ++ leBytes 2 0)
theorem witness_bcast : bcastSt.ready 0 0 0x63 = some (0, bcastRec) ∧ bcastSt.readable 0 (t0Addr 0 0x1200) 4 = true ∧ bcastSt.readable 0 0x1000 4 = true
    ∧ t0Off 0x2000 + 4 ≤ 2 ^ 26 ∧ (∀ c ∈ [1, 0], bcastSt.writable 0 (t0Addr c (t0Off 0x2000)) 4 = true) := by decide +kernel
theorem test_bcast : shows (exec (.bcast 0 0) bcastSt) (fun t => (memRead t.t0.bytes 0x2000 4, memRead t.t0.bytes (2 ^ 26 + 0x2000) 4)) = some (words [7], words [7]) := by
  decide +kernel
def t1Rec (op : Nat) : BitVec 512 := rcd op [(8, 0x1000), (16, 0x2000), (24, 256)]
theorem witness_t1 : (chaseSt (t1Rec 0x64)).ready 0 0 0x64 = some (0, t1Rec 0x64) ∧ (chaseSt (t1Rec 0x65)).ready 0 0 0x65 = some (0, t1Rec 0x65)
    ∧ (chaseSt (t1Rec 0x64)).channelSet 0 = [0, 1] ∧ (chaseSt (t1Rec 0x64)).t1Inside 0 0x1000 256 = true ∧ (chaseSt (t1Rec 0x65)).t1Inside 0 0x2000 256 = true
    ∧ (chaseSt (t1Rec 0x64)).writable 0 0x2000 256 = true ∧ (chaseSt (t1Rec 0x65)).readable 0 0x1000 256 = true := by decide +kernel
theorem test_t1Write : shows (exec (.t1Write 0 0) (chaseSt (t1Rec 0x65))) (fun t => t.t1Bytes 0 0x2000 8) = some (words [7, 8]) := by decide +kernel
theorem test_t1Read : shows (exec (.t1Read 0 0) { chaseSt (t1Rec 0x64) with t1 := [(0, { Channel.empty with data := [(256 * 8 + 1, 5#8)] })] })
    (fun t => memRead t.t0.bytes 0x2000 3) = some [0#8, 5#8, 0#8] := by decide +kernel

/-- Port 0 usable, package 8 beside it. -/
def fabImp : Imprint := { imp0 with cfg := some { cfg0 with routes := ⟨[(0, 0)], [(0, 0, 1)], 0xFF, 0xFF, .none, 0, [], 100, 8⟩ }, run := { Run.fresh with ports := [(0, 1)] } }
def fabRec (op : Nat) : BitVec 512 := rcd op [(8, 0x1000), (16, 0x2080), (24, 256), (30, op % 16 + 8), (31, 8), (36, 8)]
def stream0 : OutStream := ⟨0, 8, 5, 0xFFFFFFFF, false, false, [], []⟩
def fabSt (op : Nat) : State :=
  { stE with imprints := [(0, fabImp)], cores := [(0, { Core.empty with streams := [(0, [fabRec op])] })], fab := { stE.fab with streams := [stream0] } }
theorem witness_fabric : ∀ op ∈ [0x66, 0x67, 0x68, 0x69], (fabSt op).ready 0 0 op = some (0, fabRec op) ∧ (fabSt op).causes = [] ∧ (fabSt op).fab.loop = []
    ∧ (chaseBody (fabRec op)).endpoint ≠ (fabSt op).fab.endpoint ∧ ((fabSt op).firstHop 0 8 0).isSome = true ∧ ((fabSt op).stream 0 8).dead = false
    ∧ ((fabSt op).stream 0 8).holdoff = false ∧ ((fabSt op).stream 0 8).outstanding = [] ∧ ((fabSt op).stream 0 8).waiting = []
    ∧ (cut256 257 0x2080 (List.replicate 256 0#8)).length = 2 := by decide +kernel
theorem test_fabStore : shows (exec (.fabStore 0 0) (fabSt 0x66)) (fun t => ((t.stream 0 8).outstanding.map fun o => (o.req.eseq, o.req.addr, o.req.length))) =
    some [(0xFFFFFFFF#32, 0x2080#64, 128), (0#32, 0x2100#64, 128)] := by decide +kernel
/-- One folio that spills to T1. -/
def folio0 : Folio := ⟨0, 0, 0, 0, 0, 0, 0x30000, .transit, 0, false, 0, 0, 0, 0, [1], some (Move.new true 1 0 false), none, none, none⟩
def windowRec (n : Nat) : BitVec 512 := rcd 0x6A [(56, n), (60, 0)]
def layerW : LayerCfg := { layer0 with d := 2 }
def windowSt (n : Nat) : State :=
  { one (windowRec n) with imprints := [(0, { imp0 with cfg := some { cfg0 with formats := { cfg0.formats with layers := [layerW] } }, serve := { Serve.fresh with folios := [(0, some folio0)] } })] }
theorem witness_window : (windowSt 2400).ready 0 0 0x6A = some (0, windowRec 2400) ∧ (windowSt 2400).causes = [] ∧ (windowSt 2400).fab.loop = []
    ∧ ((windowSt 2400).windowList 0 0).map (fun x => (x.1.1, x.2.2)) = [(0, spillBytes layerW)] ∧ spillBytes layerW = 2336
    ∧ spillBytes layerW ≤ (chaseBody (windowRec 2400)).planFirst ∧ (chaseBody (windowRec 2335)).planFirst < spillBytes layerW
    ∧ (windowSt 2400).layer 0 0 = some layerW := by decide +kernel

/-! Ports, links and the fabric. -/

def portIn (st : PortState) : Port := { Port.reset with state := st }
def portSt (x : Port) : State := { stE with ports := [(0, x)] }
theorem witness_portStates : (∀ st ∈ [PortState.detect, .train, .lock, .hello, .up, .held, .retrain], (portSt (portIn st)).live = true
      ∧ (portSt (portIn st)).answers = true ∧ (portSt (portIn st)).stopped = false ∧ ((portSt (portIn st)).port 0).state = st
      ∧ ((portSt (portIn st)).port 0).loopback = false ∧ (portSt (portIn st)).fab.valid = true ∧ ((portSt (portIn st)).port 0).substate = 0)
    ∧ ((portSt { portIn .up with replays := 8 }).port 0).replays = 8 ∧ ((portSt { portIn .off with en := false }).port 0).en = false
    ∧ ((portSt { portIn .lock with loopback := true }).port 0).loopback = true := by decide +kernel
theorem test_signalDetect : shows (exec (.signalDetect 0) (portSt (portIn .detect))) (fun t => (t.port 0).state) = some .train := by decide +kernel
theorem test_trainDone : shows (exec (.trainDone 0) (portSt (portIn .train))) (fun t => (t.port 0).state) = some .lock
    ∧ shows (exec (.trainDone 0) (portSt (portIn .retrain))) (fun t => ((t.port 0).state, (t.port 0).substate)) = some (.retrain, 1) := by decide +kernel
theorem test_trainTimeout : shows (exec (.trainTimeout 0) (portSt (portIn .train))) (fun t => (t.port 0).state) = some .detect := by decide +kernel
theorem test_lockAchieved : shows (exec (.lockAchieved 0) (portSt (portIn .lock))) (fun t => ((t.port 0).state, (t.port 0).helloSent, (t.port 0).credit)) =
    some (.hello, true, [0, 0, 0, 0, 30]) := by decide +kernel
theorem test_timeouts : shows (exec (.lockTimeout 0) (portSt (portIn .lock))) (fun t => (t.port 0).state) = some .detect
    ∧ shows (exec (.helloTimeout 0) (portSt (portIn .hello))) (fun t => (t.port 0).state) = some .detect
    ∧ shows (exec (.retrainTimeout 0) (portSt (portIn .retrain))) (fun t => ((t.port 0).state, (t.port 0).reason)) = some (.detect, 5) := by decide +kernel
/-- R395: what is unacknowledged and the expected number stay through RETRAIN. -/
def busy : Port := { portIn .up with unacked := [⟨⟨3, 7, 0, false, 8, 0, 0, 1, 32, 0, 0, 0, 0, 0⟩, .link ⟨0, false, []⟩⟩], expect := 5, replays := 8 }
theorem test_retrain : (∀ c ∈ [Instr.alignmentLoss 0, .uncorrectableCodewordRun 0, .replayLimit 0, .portRetrain 0], shows (exec c (portSt busy))
      (fun t => decide ((t.port 0).state = .retrain ∧ (t.port 0).unacked = busy.unacked ∧ (t.port 0).expect = 5 ∧ (t.port 0).count.getD 4 0 = 1)) = some true)
    ∧ shows (exec (.alignmentLoss 0) (portSt (portIn .held))) (fun t => ((t.port 0).state, (t.port 0).reason)) = some (.detect, 6) := by decide +kernel
theorem test_portEnable : shows (exec (.portEnable 0 false) (portSt (portIn .up))) (fun t => ((t.port 0).state, (t.port 0).reason)) = some (.off, 7)
    ∧ shows (exec (.portEnable 0 true) (portSt { portIn .off with en := false })) (fun t => ((t.port 0).state, (t.port 0).en)) = some (.detect, true) := by decide +kernel
theorem test_portLoopback : shows (exec (.portLoopback 0 true) (portSt (portIn .up))) (fun t => ((t.port 0).state, (t.port 0).loopback)) = some (.detect, true) := by
  decide +kernel

def linked : State := portSt { busy with changed := true, freed := [1, 2, 3, 4, 5] }
theorem witness_link : linked.live = true ∧ (linked.port 0).state = .up ∧ (linked.port 0).unacked ≠ [] ∧ (linked.port 0).changed = true
    ∧ (linked.port 0).nakSent = false ∧ (6 + 4096 - (linked.port 0).expect) % 4096 = 1 ∧ (5 + 2047 + 4096 - (linked.port 0).expect) % 4096 = 2047
    ∧ ((portSt { busy with nakSent := true }).port 0).nakSent = true ∧ linked.causes = [] ∧ linked.fab.loop = [] ∧ (linked.port 0).ready = []
    ∧ (linked.port 0).toReplay = [] ∧ (linked.port 0).helloDue = false := by decide +kernel
theorem test_replayTimeout : shows (exec (.replayTimeout 0) linked) (fun t => (t.out, (t.port 0).replays, (t.port 0).count.getD 3 0)) =
    some (busy.unacked.map (.packet 0), 9, 1) := by decide +kernel
/-- ACK is the last number received in order, one below the number expected (R392). -/
theorem test_linkPacketTimer : shows (exec (.linkPacketTimer 0) linked) (fun t => t.out) =
    some [.packet 0 ⟨bareHead 1 2 0, .link ⟨4, false, [1, 2, 3, 4, 5]⟩⟩] := by decide +kernel
theorem test_nakSend : shows (exec (.nakSend 0 (some 6#12)) linked) (fun t => (t.out, (t.port 0).nakSent)) =
      some ([.packet 0 ⟨bareHead 1 2 0, .link ⟨4, true, [1, 2, 3, 4, 5]⟩⟩], true)
    ∧ shows (exec (.nakSend 0 (some 4#12)) linked) (fun t => (t.out, (t.port 0).nakSent)) = some ([], false) := by decide +kernel
theorem test_linkPacketReceive : shows (exec (.linkPacketReceive 0 ⟨7, false, [1, 2, 3, 4, 5]⟩) linked) (fun t => ((t.port 0).unacked, (t.port 0).credit, (t.port 0).replays)) =
      some ([], [1, 2, 3, 4, 5], 0)
    ∧ shows (exec (.linkPacketReceive 0 ⟨6, true, [0, 0, 0, 0, 0]⟩) linked) (fun t => t.out) = some (busy.unacked.map (.packet 0)) := by decide +kernel

/-- The plan expects package 8's port 0 on port 0. -/
def greet : Hello := ⟨1, 8, false, 0, 3, 1, 0, 0, 0xFFFF, 0xFFFF⟩
def helloSt : State := portSt { portIn .hello with helloSent := true }
theorem witness_hello : (∀ x ∈ [{ portIn .hello with helloSent := true }, portIn .up, portIn .held], (portSt x).live = true ∧ (portSt x).causes = []
      ∧ (portSt x).fab.loop = [] ∧ (portSt x).fab.valid = true ∧ ((portSt x).port 0).before = none)
    ∧ helloSt.outcome 0 greet = (.up, 0, false) ∧ helloSt.outcome 0 { greet with node := 9 } = (.held, 2, true)
    ∧ (helloSt.outcome 0 { greet with wireMin := 2 }).2.1 = 3 ∧ (st0.outcome 0 greet).2.1 = 4
    ∧ ((portSt { portIn .hello with credit := [0, 0, 0, 0, 2] }).port 0).helloGot = false ∧ st0.fab.valid = false ∧ st0.answers = true := by decide +kernel
theorem test_helloReceive : shows (exec (.helloReceive 0 greet) helloSt) (fun t => ((t.port 0).state, (t.port 0).wire, (t.port 0).peer)) = some (.up, 1, 8)
    ∧ shows (exec (.helloReceive 0 { greet with node := 9 }) helloSt) (fun t => ((t.port 0).state, (t.port 0).reason, (t.port 0).missing)) = some (.held, 2, true) := by
  decide +kernel
theorem test_helloTimer : shows (exec (.helloTimer 0) (portSt { portIn .hello with credit := [0, 0, 0, 0, 2] })) (fun t => ((t.port 0).helloSent, (t.port 0).credit.getD 4 0, t.out.length)) =
    some (true, 0, 1) := by decide +kernel
theorem test_fabLocationValid : shows (exec (.fabLocationValid .pf) st0) (fun t => t.fab.valid) = some true
    ∧ shows (exec (.fabLocationValid (.vf 0)) st0) (fun t => t.fab.valid) = some false := by decide +kernel

/-- Package 8 may load, store and use atomics on the first 64 KiB of core 0's slice and on T1. -/
def targetImp : Imprint :=
  { imp0 with cfg := some { cfg0 with routes := ⟨[(0, 0)], [(0, 0, 1)], 1, 0, .none, 0, [⟨8, 0x3FFFF, 0xFF, 1, 0, 65536, 15⟩, ⟨8, 0x3FFFF, 0xFF, 0, 0, 65536, 15⟩], 100, 2⟩ }, run := { Run.fresh with ports := [(0, 1)] } }
def upPort : Port := { portIn .up with credit := [64, 64, 64, 64, 32], expect := 9 }
def targetSt : State := { portSt upPort with imprints := [(0, targetImp)], fab := { stE.fab with endpoint := 0, transit := [0] } }
def reqOf (op : Nat) (eseq : BitVec 32) (addr : Nat) (n : Nat) (operand : BitVec 64) (data : List Byte) : Request :=
  ⟨eseq, op, false, n, BitVec.ofNat 64 addr, 0, 3, operand, 0, data⟩
def pktOf (b : PktBody) : Packet := ⟨⟨3, 9, 0, false, 0, 8, 0, 1, 32, 0, 0, 0, 0, 0⟩, b⟩
def storeReq : Request := reqOf 0x02 77 (2 ^ 60 + 0x1000) 8 0 (leBytes 8 5)
def addReq : Request := reqOf 0x10 0 (2 ^ 60 + 0x1000) 4 3 []
/-- A stream of package 8 whose request 77 is done. -/
def doneSt : State := { targetSt with fab := { targetSt.fab with tables := [⟨8, 0, 3, 0, some 77, [⟨77, 0, pktOf (.request storeReq), .done 0 0⟩], 0⟩] } }
theorem witness_request : (∀ r ∈ [storeReq, addReq], targetSt.table 8 0 = none ∧ targetSt.fab.tables.length < 512 ∧ targetSt.refusal 8 0 r = none ∧ remSpace r.addr = 1
      ∧ targetSt.bayAt (remImp r.addr) (remOff r.addr) = none ∧ targetSt.isShared 0 8 0 r = false)
    ∧ targetSt.sound = true ∧ targetSt.live = true ∧ targetSt.causes = [] ∧ targetSt.fab.loop = [] ∧ (targetSt.port 0).state = .up
    ∧ (pktOf (.request storeReq)).head.dest = targetSt.fab.endpoint ∧ (pktOf (.request storeReq)).head.lseq = (targetSt.port 0).expect
    ∧ isAtomic addReq.op = true ∧ addReq.eseq = 0 ∧ (doneSt.table 8 0).map (·.sgen) = some 3 := by decide +kernel
theorem test_fabRequestArrival : shows (exec (.fabRequestArrival 0 (pktOf (.request storeReq))) targetSt) (fun t =>
      (memRead t.t0.bytes 0x1000 8, (t.port 0).expect, t.fab.tables.flatMap fun b => b.entries.map (·.state))) =
      some (leBytes 8 5, 10, [.done 0 0])
    ∧ shows (exec (.fabRequestArrival 0 (pktOf (.request addReq))) (put targetSt 0x1000 (words [0xFFFFFFFF]))) (fun t =>
      (memRead t.t0.bytes 0x1000 4, t.fab.tables.flatMap fun b => b.entries.map (·.state))) =
      some (words [2], [.done 0 0xFFFFFFFF]) := by decide +kernel
/-- The first request of the stream waits in channel 0's queue. -/
def t1Req : Request := reqOf 0x02 0 0 8 0 (leBytes 8 5)
def queueSt : State :=
  { targetSt with fab := { targetSt.fab with tables := [⟨8, 0, 3, 0, some 0, [⟨0, 0, pktOf (.request t1Req), .queued⟩], 0⟩], t1q := [(0, [⟨8, 0, 0, none⟩])] } }
theorem witness_t1Slot : spGet [] queueSt.fab.t1q 0 = [⟨8, 0, 0, none⟩] ∧ queueSt.t1Entry ⟨8, 0, 0, none⟩ = some (⟨0, 0, pktOf (.request t1Req), .queued⟩, t1Req)
    ∧ queueSt.issueLevel ≠ 0 ∧ queueSt.live = true ∧ ((queueSt.table 8 0).map fun b => b.entries.all fun x => decide (x.state ≠ .held)) = some true := by decide +kernel
theorem test_t1FabricSlot : shows (exec (.t1FabricSlot 0) queueSt) (fun t => (t.t1Bytes 0 0 8, t.fab.tables.flatMap fun b => b.entries.map (·.state), spGet [] t.fab.t1q 0)) =
    some (leBytes 8 5, [.done 0 0], []) := by decide +kernel

/-- A source with request 5 outstanding. -/
def outst (n : Nat) : Outst := ⟨{ storeReq with eseq := 5, sgen := 7 }, n, 0, 0, 0, 0x1000, false, none⟩
def srcSt (n : Nat) : State :=
  { portSt { portIn .up with credit := [64, 64, 64, 64, 32], expect := 9 } with
    imprints := [(0, targetImp)], fab := { stE.fab with streams := [⟨0, 8, 7, 6, false, false, [outst n], []⟩] } }
def respOf (status : Nat) : Response := ⟨5, 0x02, false, 0, status, 0, 7, 0, []⟩
theorem witness_source : (∀ n ∈ [1, 2, 3], ((srcSt n).stream 0 8).outstanding.find? (fun o => o.req.eseq == 5) = some (outst n) ∧ (outst n).morgue = none
      ∧ (srcSt n).retryLimit 0 = 2 ∧ ((srcSt n).stream 0 8).waiting = [] ∧ (srcSt n).causes = [] ∧ (srcSt n).fab.loop = [] ∧ (srcSt n).fab.endpoint = 0)
    ∧ ((srcSt 1).stream 0 8).outstanding.find? (fun o => o.req.eseq == (respOf 0).eseq && o.req.sgen == (respOf 0).sgen) = some (outst 1)
    ∧ ((srcSt 1).firstHop 0 8 0).isSome = true := by decide +kernel
theorem witness_firstHop : ∀ flow, ((srcSt 2).firstHop 0 8 flow).isSome = true := by
  intro flow
  have h : (srcSt 2).firstHop 0 8 flow = pickPort flow 8 0 [0] := by rfl
  simp [h, pickPort, Nat.mod_one]
theorem test_fabResponseArrival : shows (exec (.fabResponseArrival 0 (pktOf (.response (respOf 0)))) (srcSt 1)) (fun t =>
      ((t.stream 0 8).outstanding, ctrGet (t.imp 0).run.counters (.fabResponses 0))) = some ([], 1) := by decide +kernel
theorem test_fabRetryTimeout : shows (exec (.fabRetryTimeout 0 8 5) (srcSt 2)) (fun t =>
      ((t.stream 0 8).outstanding.map (·.sends), ctrGet (t.imp 0).run.counters .fabResent, t.out.length)) = some ([3], 1, 1) := by decide +kernel
theorem test_operationLost : shows (exec (.operationLost 0 8 5) (srcSt 3)) (fun t => ((t.stream 0 8).dead, (t.stream 0 8).outstanding, (t.imp 0).run.epoch)) =
    some (true, [], 1) := by decide +kernel
def holdSt : State := { srcSt 1 with fab := { stE.fab with streams := [⟨0, 8, 7, 0, false, true, [], [outst 0]⟩] } }
theorem test_generationHoldoffEnd : shows (exec (.generationHoldoffEnd 0 8) holdSt) (fun t => ((t.stream 0 8).holdoff, (t.stream 0 8).outstanding.map (·.req.eseq), (t.stream 0 8).waiting)) =
    some (false, [0], []) := by decide +kernel

/-- Package 0 forwards from port 3 to package 8 of another tray through plane port 7. -/
def transitSt : State := { stE with ports := [(3, upPort), (7, upPort)], fab := { stE.fab with transit := [7] } }
def through (hops : Nat) : Packet := ⟨⟨3, 9, 0, false, 8, 1, 0, 1, hops, 0, 0, 0, 0, 0⟩, .request storeReq⟩
theorem witness_transit : (through 5).head.dest ≠ transitSt.fab.endpoint ∧ transitSt.live = true ∧ (transitSt.port 3).state = .up
    ∧ (through 5).head.lseq = (transitSt.port 3).expect ∧ transitSt.transitPort (through 5).head = some 7 ∧ transitSt.wrapOwner 7 = none
    ∧ transitSt.fab.transit.contains 7 = true ∧ (transitSt.port 7).ready = [] ∧ (transitSt.port 7).toReplay = [] ∧ (transitSt.port 7).helloDue = false
    ∧ (transitSt.port 7).hasCredit (through 5) = true ∧ (transitSt.port 7).windowFree (through 5).body.granules = true ∧ transitSt.power.rest ≠ .rest := by decide +kernel
theorem test_packetForward : shows (exec (.packetForward 3 (through 5)) transitSt) (fun t => t.out) =
      some [.packet 7 ⟨{ (through 5).head with hops := 4, lseq := 0 }, .request storeReq⟩]
    ∧ shows (exec (.packetForward 3 (through 0)) transitSt) (fun t => ((t.port 3).count.getD 5 0, t.out, (t.port 3).freed)) = some (1, [], [2, 0, 0, 0, 0]) := by decide +kernel
def heldPkt : State := portSt { portIn .up with ready := [⟨20, through 5⟩, ⟨3, through 5⟩] }
theorem test_packetLifetimeExpiry : shows (exec (.packetLifetimeExpiry 0) heldPkt) (fun t => (t.port 0).ready) = some [⟨20, through 5⟩] := by decide +kernel
theorem witness_lifetime : (heldPkt.port 0).ready.zipIdx.find? (fun x => x.1.source != 20) = some (⟨3, through 5⟩, 1) := by decide +kernel

def layer8 : LayerCfg := { layer0 with kv := .e4m3 }
def move0 : Move := { Move.new false 0 0 true with started := true }
def away0 : Folio := ⟨0, 0, 0, 0, 2, 0, 0, .committed, 0, false, 0, 0, 0, 0, [1], some move0, none, none, none⟩
def body0 : List Byte := List.replicate 32768 0#8
theorem crcBits_lt (n c : Nat) (h : c < 2 ^ 32) : crcBits n c < 2 ^ 32 := by
  induction n generalizing c with
  | zero => exact h
  | succ n ih =>
    unfold crcBits
    split
    · exact ih _ (Nat.xor_lt_two_pow (by omega) (by decide))
    · exact ih _ (by omega)
theorem crcStep_lt (bs : List Byte) (c : Nat) (h : c < 2 ^ 32) : crcStep bs c < 2 ^ 32 := by
  induction bs generalizing c with
  | nil => exact h
  | cons b bs ih => exact ih _ (crcBits_lt 8 _ (Nat.xor_lt_two_pow h (Nat.lt_of_lt_of_le b.isLt (by decide))))
theorem crc32c_lt (bs : List Byte) : crc32c bs < 2 ^ 32 := Nat.xor_lt_two_pow (crcStep_lt bs _ (by decide)) (by decide)
theorem ofLeBytes_leBytes_four (c : Nat) (h : c < 2 ^ 32) : ofLeBytes (leBytes 4 c) = c := by
  simp [leBytes, ofLeBytes]; omega
theorem chunks_one {α : Type} (n : Nat) (xs : List α) (h : 0 < xs.length) (h2 : xs.length ≤ n) : chunks n xs = [xs] := by
  cases xs with
  | nil => simp at h
  | cons x xs =>
    have e : List.drop n (x :: xs) = [] := List.drop_eq_nil_of_le h2
    have e2 : List.take n (x :: xs) = x :: xs := List.take_of_length_le h2
    simp only [chunks, List.length_cons, chunksAux, e, e2]
    cases xs <;> rfl

theorem decideRun_stored (body : List Byte) (hl : body.length = 32768) :
    decideRun [] 0x10 [32768] ((SlugHeader.mk 0 0x10 32768 32768 (crc32c body)).bytes ++ (body ++ List.replicate 16 0#8)) = [(.good, body)] := by
  have hc := crc32c_lt body
  unfold decideRun decideRun decideSlug
  generalize hb : crc32c body = c at *
  have ho : SlugHeader.ofBytes ((SlugHeader.mk 0 0x10 32768 32768 c).bytes ++ (body ++ List.replicate 16 0#8)) = ⟨0, 0x10, 32768, 32768, c⟩ := by
    simp [SlugHeader.ofBytes, SlugHeader.bytes, leBytes, ofLeBytes]; omega
  have hh : (SlugHeader.mk 0 0x10 32768 32768 c).bytes.length = 16 := by rfl
  have hp : ((((SlugHeader.mk 0 0x10 32768 32768 c).bytes ++ (body ++ List.replicate 16 0#8)).drop 16).take 32768) = body := by
    rw [List.drop_left' hh, List.take_left' hl]
  have hlen : ((SlugHeader.mk 0 0x10 32768 32768 c).bytes ++ (body ++ List.replicate 16 0#8)).length = 32800 := by
    simp [hh, hl]
  have hd : (slugBytes 0x10 32768).getD 0 = 32768 := by decide +kernel
  have hw : (SlugHeader.mk 0 0x10 32768 32768 c).wellFormed = true := by
    have h0 : slugBytes 0x10 32768 = some 32768 := by decide +kernel
    simp [SlugHeader.wellFormed, h0]
  have hf : footprint 32768 = 32800 := by decide +kernel
  simp only [ho, hp, hlen, hd, hf, hb, hw]
  simp

theorem leBytes_length (n x : Nat) : (leBytes n x).length = n := by
  induction n generalizing x with
  | zero => rfl
  | succ n ih => simp [leBytes, ih]
def imageHead (c : Nat) : List Byte := folioHeader 0 away0 .e4m3 64 (some c) (some 32800)
theorem imageHead_fields (c : Nat) (hc : c < 2 ^ 32) :
    let g := fun o n => ofLeBytes (((imageHead c).drop o).take n)
    (imageHead c).length = 256 ∧ g 0 4 = 0 ∧ g 4 1 = 0x10 ∧ g 5 1 = 1 ∧ g 6 1 = 6 ∧ g 8 2 = 0 ∧ g 10 2 = 0 ∧ g 40 4 = 32800 ∧ g 44 4 = c := by
  have h44 : ((imageHead c).drop 44).take 4 = leBytes 4 c := by simp [imageHead, folioHeader, leBytes]
  have hl : (imageHead c).length = 256 := by
    simp only [imageHead, folioHeader, List.length_append, List.length_replicate, leBytes_length, List.length_cons, List.length_nil]
  refine ⟨hl, ?_, ?_, ?_, ?_, ?_, ?_, ?_, (congrArg ofLeBytes h44).trans (ofLeBytes_leBytes_four c hc)⟩
  all_goals
    simp [imageHead, folioHeader, leBytes, ofLeBytes, away0, elemCode, bit]
theorem body0_length : body0.length = 32768 := by rw [body0, List.length_replicate]
theorem decs0 : (folioPieces 32768).map (fun n => n * 8 / layer8.kv.bits) = [32768] := by
  rw [folioPieces, chunks_one _ _ (by rw [List.length_replicate]; decide) (by rw [List.length_replicate]; decide)]
  simp only [List.map_cons, List.map_nil, List.length_replicate, layer8, Elem.bits]
theorem checkImage_of (body : List Byte) (hl : body.length = 32768) :
    checkImage 0 away0 layer8 (imageHead (crc32c body) ++ ((SlugHeader.mk 0 0x10 32768 32768 (crc32c body)).bytes ++ (body ++ List.replicate 16 0#8))) = .ok body := by
  have hs := decideRun_stored body hl
  have hf := imageHead_fields _ (crc32c_lt body)
  have hfont : away0.font.toList = [] := rfl
  unfold checkImage imageSlugs
  generalize hb : crc32c body = c at *
  obtain ⟨hh, g0, g4, g5, g6, g8, g10, g40, g44⟩ := hf
  have hr : ((SlugHeader.mk 0 0x10 32768 32768 c).bytes ++ (body ++ List.replicate 16 0#8)).length = 32800 := by
    have : (SlugHeader.mk 0 0x10 32768 32768 c).bytes.length = 16 := by rfl
    simp [this, hl]
  have hn : folioBytes layer8.kv layer8.d - 256 = 32768 := by decide +kernel
  have hk : elemCode layer8.kv = 0x10 := rfl
  generalize imageHead c = head at *
  generalize (SlugHeader.mk 0 0x10 32768 32768 c).bytes ++ (body ++ List.replicate 16 0#8) = run at *
  have h40 : List.take 4 (List.drop 40 (head ++ run)) = List.take 4 (List.drop 40 head) := by
    rw [List.drop_append_of_le_length (by omega), List.take_append_of_le_length (by simp; omega)]
  simp only [List.take_left' hh, List.drop_left' hh, h40, hn, decs0, g0, g4, g5, g6, g8, g10, g40, g44, List.take_of_length_le (Nat.le_of_eq hr), hk, hfont, hs]
  simp [layer8, layer0, away0, bitOf, hb]
  decide
/-- A sound image of a folio of zeros. -/
def img0 : List Byte := imageHead (crc32c body0) ++ ((SlugHeader.mk 0 0x10 32768 32768 (crc32c body0)).bytes ++ (body0 ++ List.replicate 16 0#8))
theorem witness_image : checkImage 0 away0 layer8 img0 = .ok body0 ∧ 0 < body0.length := ⟨checkImage_of body0 body0_length, by rw [body0_length]; decide⟩

/-! Damage and recovery. -/

def scrubSt (n : Nat) : State := { st0 with t0 := { st0.t0 with bytes := memWrite [] 0 [7#8], flips := [(3, n), (40, 1)] } }
theorem witness_t0Scrub : (∀ n ∈ [1, 2], (scrubSt n).stopped = false ∧ (scrubSt n).issueLevel ≠ 0 ∧ (scrubSt n).sliceOn 0 = true ∧ t0Addr 0 0 / 256 + spGet 0 (scrubSt n).t0.scrub 0 = 0)
    ∧ (scrubSt 2).lineBad 0 = true ∧ (scrubSt 1).lineBad 0 = false
    ∧ spGet 0 ({ st0 with t0 := { st0.t0 with scrub := [(0, 196607)] } } : State).t0.scrub 0 + 1 = 196608 := by decide +kernel
/-- A slice with no active core above it (R27). -/
def idleSlice : State := { scrubSt 1 with ed := { st0.ed with coreMap := map0.map fun x => if x = 0 then 0xFF else x } }
theorem witness_idleSlice : idleSlice.sliceOn 0 = false ∧ idleSlice.sliceOn 1 = true := by decide +kernel
theorem test_t0Scrub : shows (exec (.t0Scrub 0) (scrubSt 1)) (fun t => decide (t.t0.flips = [(40, 1)] ∧ t.t0.corrected = [(0, 1)] ∧ t.byteAt 0 = 7#8 ∧ t.reports = [])) = some true
    ∧ shows (exec (.t0Scrub 0) (scrubSt 2)) (fun t => decide (t.t0.flips = [(40, 1)] ∧ t.t0.uncorrectable = [(0, 1)] ∧ t.byteAt 0 = 0#8 ∧ t.reports = [⟨0, .t0 0, 0x0300, none⟩])) = some true
    ∧ shows (exec (.t0Scrub 0) { st0 with t0 := { st0.t0 with scrub := [(0, 196607)] } }) (fun t => decide (t.t0.scrub = [] ∧ t.t0.passes = [(0, 1)])) = some true := by decide +kernel
def chanSt (bad : List (Nat × Nat)) (rw : List Nat) : State := { st0 with t1 := [(0, { Channel.empty with data := [(5, 7#8)], bad := bad, rewrite := rw })] }
theorem witness_t1Scrub : (∀ b ∈ [[(0, 3)], [(0, 3), (0, 11)]], (chanSt b []).stopped = false ∧ (chanSt b []).issueLevel ≠ 0
      ∧ ((chanSt b []).channelOwner 0).isSome = true ∧ ((chanSt b []).ch 0).rewrite = [])
    ∧ ((chanSt [(0, 3)] []).ch 0).segBad 0 = false ∧ ((chanSt [(0, 3), (0, 11)] []).ch 0).segBad 0 = true ∧ ((chanSt [(0, 3), (0, 11)] [0]).ch 0).rewrite = 0 :: [] := by decide +kernel
theorem test_t1ScrubSlot : shows (exec (.t1ScrubSlot 0) (chanSt [(0, 3)] [])) (fun t => decide ((t.ch 0).bad = [] ∧ (t.ch 0).data = [(5, 7#8)] ∧ (t.ch 0).scrub = 1)) = some true
    ∧ shows (exec (.t1ScrubSlot 0) (chanSt [(0, 3), (0, 11)] [])) (fun t => decide ((t.ch 0).bad = [] ∧ (t.ch 0).data = [] ∧ t.reports.length = 4)) = some true
    ∧ shows (exec (.t1ScrubSlot 0) (chanSt [(0, 3), (0, 11)] [0])) (fun t => decide ((t.ch 0).data = [] ∧ (t.ch 0).scrub = 0 ∧ (t.ch 0).rewrite = [])) = some true := by decide +kernel

def levelSt (n : Nat) : State := { st0 with power := { st0.power with level := n, lth := 64 } }
theorem witness_refresh : st0.refreshing 0 = true ∧ (levelSt 63).refreshing 0 = true ∧ (levelSt 63).issueLevel = 63 ∧ (levelSt 64).issueLevel = 64 := by decide +kernel
theorem test_refresh : shows (exec (.refreshWindow 0) { levelSt 64 with t1 := [(0, { Channel.empty with owing := 2 })] }) (fun t => ((t.ch 0).refreshed, (t.ch 0).owing)) = some (1, 1)
    ∧ shows (exec (.refreshIntervalExpiry 0) (levelSt 64)) (fun t => ((t.ch 0).refreshed, (t.ch 0).owing)) = some (0, 1)
    ∧ shows (exec (.refreshIntervalExpiry 0) (levelSt 63)) (fun t => ((t.ch 0).refreshed, (t.ch 0).owing)) = some (1, 0) := by decide +kernel

def morgueSt (m : Move) : State :=
  { st0 with imprints := [(0, { imp0 with cfg := some { cfg0 with formats := { cfg0.formats with layers := [layer8] }, t2 := [.host 0 (2 ^ 20)] }, serve := { Serve.fresh with folios := [(0, some { away0 with move := some m })] } })] }
def reportSt (p : Place) (i : Nat) : State := { morgueSt move0 with reports := [⟨i, p, 0x0300, none⟩, ⟨0, .font 3, 0x0300, none⟩] }
theorem witness_freeSeen : ((reportSt (.t0 0x90000) 0).imp 0).run.freeSeen.contains (.t0 0x90000) = false
    ∧ (((reportSt (.t0 0x90000) 0).modRun 0 fun r => { r with freeSeen := [.t0 0x90000] }).imp 0).run.freeSeen.contains (.t0 0x90000) = true := by
  decide +kernel
theorem witness_report : (reportSt (.slot 0) 0).stopped = false ∧ (reportSt (.slot 0) 0).reports = ⟨0, .slot 0, 0x0300, none⟩ :: [⟨0, .font 3, 0x0300, none⟩]
    ∧ (reportSt (.slot 0) 0).owners ⟨0, .slot 0, 0x0300, none⟩ = [.request 1] ∧ (reportSt (.t0 0x90000) 0).owners ⟨0, .t0 0x90000, 0x0300, none⟩ = []
    ∧ isReserve 0x90000 = false ∧ isReserve (0xF0 * 2 ^ 26) = true ∧ isReserve (0xF4 * 2 ^ 26) = false := by decide +kernel
theorem test_damageReport : shows (exec .damageReport (reportSt (.slot 0) 0)) (fun t => ((t.imp 0).serve.damage, t.reports.length)) = some ([⟨.request 1, 0x0300, .slot 0, none⟩], 1)
    ∧ shows (exec .damageReport (reportSt (.t0 (0xF0 * 2 ^ 26)) 16)) (fun t => (t.stopped, t.glb.cause)) = some (true, 3) := by decide +kernel
theorem witness_morgue : (∀ m ∈ [move0, { move0 with spill := true, toTier := 2 }], spGet none ((morgueSt m).imp 0).serve.folios 0 = some { away0 with move := some m }
      ∧ (morgueSt m).stopped = false ∧ (morgueSt m).morgueWaits 0 { away0 with move := some m } m = true ∧ (morgueSt m).layer 0 away0.layer = some layer8 ∧ (morgueSt m).sound = true)
    ∧ (morgueSt { move0 with failed := true }).morgueWaits 0 { away0 with move := some { move0 with failed := true } } { move0 with failed := true } = false
    ∧ (match checkImage 0 away0 layer8 [] with | .ok _ => 0 | .error st => st) = 0x0302 := by decide +kernel
theorem test_morgueTransfer : shows (exec (.morgueTransferDone 0 0 []) (morgueSt move0)) (fun t => t.reports) = some [⟨0, .t2 0 0, 0x0302, none⟩]
    ∧ shows (exec (.morgueTransferFailed 0 0) (morgueSt move0)) (fun t => (t.imp 0).serve.folios.map fun f => f.2.map (·.move)) =
      some [some (some { move0 with failed := true })] := by decide +kernel

def req0 : Req :=
  { handle := 5, state := .decode, ring := 0, ret := 0, tag := 9, keep := false, seed := 0, tau := 0, topP := 0x3F800000, topK := 0, k := 0, stop := [],
    outLimit := 10, adapterId := 0, adapterVer := 0, adapterSlot := 0, prompt := [], nC := 3, length := 4, turn := 0, lastOut := none, dcopy := 0,
    cancel := false, rerun := 0, starved := false, stall := none, resumed := false, leftOut := 0, admitted := 0, runnableAt := some 0, late := 8,
    prefixOf := none, span := none, spanWidth := 0, lead := 0, isLead := true, isNew := false, lastCommit := 0, ended := none, flr := false }
def reqSt (late : Nat) : State := { st0 with imprints := [(0, { imp0 with serve := { Serve.fresh with reqs := [(5, some { req0 with late := late })] } })] }
theorem witness_morgueLate : (reqSt 8).cfg 0 = some cfg0 ∧ (reqSt 8).req 0 5 = some req0 ∧ (reqSt 8).stopped = false ∧ cfg0.entry.lateness = 8 := by decide +kernel
theorem test_morgueLate : shows (exec (.morgueLate 0 5) (reqSt 8)) (fun t => (t.imp 0).serve.damage) = some [⟨.request 5, 0x0303, .request 5, none⟩]
    ∧ shows (exec (.morgueLate 0 5) (reqSt 7)) (fun t => (t.imp 0).serve.damage) = some [] := by decide +kernel

/-- A lock-step set of packages 0 and 8, with the impression running. -/
def pair0 : Edition := { edition0 with body := .major ⟨map0, { topo0 with sets := [⟨[0, 8], 8, 100, 4⟩] }, false, [cfg0], power0⟩ }
def runSt (p : Phase) : State :=
  { one nopRec with ed := { st0.ed with inForce := some pair0 }, imprints := [(0, { imp0 with serve := { Serve.fresh with phase := p, begun := true } })] }
theorem witness_abandon : (∀ p ∈ [Phase.running, .openRosters], (runSt p).stopped = false ∧ (runSt p).heldOrNone 0 = false ∧ (runSt p).causes = [] ∧ (runSt p).fab.loop = []
      ∧ (runSt p).imprintOf 0 = some 0 ∧ ((runSt p).imp 0).serve.agreement = none ∧ ((runSt p).liveMembers 0).contains 8 = true ∧ (8 : Nat) ≠ (runSt p).fab.endpoint
      ∧ ((runSt p).lockSet 0).contains 8 = true ∧ ((runSt p).imp 0).run.epoch < (1#32).toNat)
    ∧ (runSt .openRosters).missingFrom 0 8 = true ∧ ((runSt .running).imp 0).serve.phase = .running
    ∧ ((runSt .running).core 0).streams.any (fun x => (((runSt .running).core 0).job x.1).atQuoin.isNone || ((runSt .running).core 0).inflight.any fun f => f.job == x.1) = true := by
  decide +kernel
def alone : State := { one nopRec with ed := stE.ed, imprints := [(0, { imp0 with serve := { Serve.fresh with phase := .running, begun := true } })] }
theorem test_abandon : ∀ c ∈ [Instr.coreCheckFault 0, .coreTimeout 0], shows (exec c alone) (fun t => decide ((t.imp 0).serve.phase = .closed ∧ (t.imp 0).run.epoch = 1
      ∧ ((t.core 0).job 0).atQuoin = some 0 ∧ (t.imp 0).run.impression = 1 ∧ spGet 0 t.coreFaults 0 = 1)) = some true := by decide +kernel

/-- Logical core 150 stands on physical core 158, and 200 is the first spare of its die. -/
def lostSt (m : List Nat) : State := { alone with lostCores := [(150, 4)], ed := { alone.ed with coreMap := m }, imprints := [(0, { imp0 with cfg := some { cfg0 with cores := [0, 150] } })] }
def map1 : List Nat := map0.map fun x => if x = 0xFE then 0xFF else x
theorem witness_coreLost : (lostSt map0).spareFor 158 = some 200 ∧ (lostSt map1).spareFor 158 = none ∧ (∀ m ∈ [map0, map1], (lostSt m).lostCores.find? (fun x => x.1 == 150) = some (150, 4)
    ∧ (lostSt m).physicalOf 150 = some 158 ∧ (lostSt m).imprintOf 150 = some 0 ∧ (lostSt m).stopped = false) := by decide +kernel
theorem test_coreLost : shows (exec (.coreLost 150) (lostSt map0)) (fun t => (t.ed.coreMap.getD 200 0, t.ed.coreMap.getD 158 0, t.ed.disabled)) = some (150, 0xFF, [158])
    ∧ shows (exec (.coreLost 150) (lostSt map1)) (fun t => ((t.imp 0).serve.held, t.ed.disabled)) = some (some 2, [158]) := by decide +kernel
theorem test_fatal : shows (exec (.compositorMemoryError true 3) stE) (fun t => (t.stopped, t.glb.cause, t.glb.ccore, t.glb.edition)) = some (true, 3, 3, 1)
    ∧ shows (exec (.compositorWatchdog 7) { stE with stopped := true }) (fun t => t.glb.cause) = some 0 := by decide +kernel

/-! Impressions, rings and tickets. -/

def ringOf (kind ret : Nat) (ws : List Ticket) : Ring := ⟨⟨0x10000, 0x20, 0x24, kind, 4, ret, 0xFFFF, false⟩, false, 3, 3, 3, ws, [], 0⟩
def quoinCfg : ImprintCfg := { cfg0 with schedule := { cfg0.schedule with streams := [⟨0, 0, 0, [quoinRec]⟩] } }
/-- The imprint's job stands at a quoin, with a submission ring 0 and a return ring 1 in force. -/
def impSt (v : Serve) (q : Nat) (ws : List Ticket) : State :=
  { stE with
    imprints := [(0, { imp0 with cfg := some quoinCfg, serve := v })]
    fns := [(1, { Fn.reset with rings := [(0, some (ringOf 1 1 ws)), (1, some (ringOf 2 0 []))] })]
    cores := [(0, { Core.empty with streams := [(0, [quoinRec])], jobs := [(0, { CoreJob.fresh with atQuoin := some q, ctrs := [(4, 9)] })] })] }
def runV : Serve := { Serve.fresh with phase := .running, begun := true }
def lostV : Serve := { runV with damage := [⟨.shared 0, 0x0300, .tensor 0, none⟩] }
theorem witness_opening : (impSt Serve.fresh 0 []).causes = [] ∧ (impSt Serve.fresh 0 []).fab.loop = [] ∧ (impSt Serve.fresh 0 []).mayOpen 0 = true
    ∧ ((impSt Serve.fresh 0 []).beginOpening 0 false).stepWaits 0 = false ∧ ((impSt Serve.fresh 0 []).liveMembers 0).length ≤ 1
    ∧ (∀ v ∈ [runV, lostV], (impSt v 1 []).jobQuoin 0 0 = some ⟨.closing, 0, 1, []⟩ ∧ (impSt v 1 []).arrived 0 0 ⟨.closing, 0, 1, []⟩ = true
      ∧ (impSt v 1 []).repliesIn 0 0 = true ∧ (impSt v 1 []).t2Settled 0 = true ∧ (impSt v 1 []).stopped = false ∧ (impSt v 1 []).heldOrNone 0 = false
      ∧ (impSt v 1 []).reports = [] ∧ ((impSt v 1 []).liveMembers 0).length ≤ 1)
    ∧ ((impSt lostV 1 []).imp 0).serve.sharedDamage ≠ [] := by decide +kernel
theorem witness_closeRosters : ((impSt { runV with phase := .closeRosters } 1 []).imp 0).serve.phase = .closeRosters
    ∧ (impSt { runV with phase := .closeRosters } 1 []).rostersIn 0 0x22 = true := by decide +kernel
theorem test_impressionOpening : shows (exec (.impressionOpening 0 []) (impSt Serve.fresh 0 [])) (fun t => ((t.imp 0).serve.phase, (t.imp 0).run.manifest.length)) = some (.running, 7) := by
  decide +kernel
theorem test_impressionCommit : shows (exec (.impressionCommit 0 []) (impSt runV 1 [])) (fun t => ((t.imp 0).run.impression, (t.imp 0).serve.committed, (t.imp 0).serve.held)) = some (2, 1, none)
    ∧ shows (exec (.impressionCommit 0 []) (impSt lostV 1 [])) (fun t => ((t.imp 0).run.impression, (t.imp 0).serve.held)) = some (2, some 2) := by decide +kernel

theorem witness_reserve_lines (v : Serve) (q : Nat) (ws : List Ticket) : ∀ l, isReserve (256 * l) = true → (impSt v q ws).lineBad l = false := by
  intro l _
  rfl
/-- A folio moves to host memory, and its region is no other package's. -/
theorem witness_no_lender : (∀ x ∈ ((impSt runV 0 []).imp 0).serve.folioList, x.2.move.isSome = true → ∀ e b n, (impSt runV 0 []).t2Region 0 x.2.cls ≠ some (.lent e b n))
    ∧ ∀ x ∈ ((morgueSt move0).imp 0).serve.folioList, x.2.move.isSome = true → ∀ e b n, (morgueSt move0).t2Region 0 x.2.cls ≠ some (.lent e b n) := by
  refine ⟨fun x hx => absurd hx (by rw [show ((impSt runV 0 []).imp 0).serve.folioList = [] from rfl]; simp), fun x hx _ e b n => ?_⟩
  have : x.2.cls = 0 := by
    rw [show ((morgueSt move0).imp 0).serve.folioList = [(0, { away0 with move := some move0 })] from rfl] at hx
    simp at hx; rw [hx]; rfl
  rw [this]
  have h : (morgueSt move0).t2Region 0 0 = some (.host 0 (2 ^ 20)) := by decide +kernel
  rw [h]; simp
theorem witness_quoinRelease : (impSt runV 0 []).causes = [] ∧ (impSt runV 0 []).fab.loop = [] ∧ (impSt runV 0 []).jobQuoin 0 0 = some ⟨.opening, 0, 0, []⟩ ∧ (impSt runV 0 []).workDone 0 0 .opening = true
    ∧ (impSt runV 0 []).arrived 0 0 ⟨.opening, 0, 0, []⟩ = true ∧ (impSt runV 0 []).repliesIn 0 0 = true ∧ (impSt runV 0 []).t2Settled 0 = true
    ∧ (impSt runV 0 []).jobCores 0 0 = [0] := by decide +kernel
theorem test_quoinRelease : shows (exec (.quoinRelease 0 0 0 none) (impSt runV 0 [])) (fun t => (((t.core 0).job 0).atQuoin, (t.core 0).ctr 0 4)) = some (none, 0)
    ∧ shows (exec (.quoinRelease 0 0 0 none) (impSt Serve.fresh 0 [])) (fun t => ((t.core 0).job 0).atQuoin) = some (some 0) := by decide +kernel
def starveSt (n : Nat) : State := impSt { Serve.fresh with reqs := [(5, some { req0 with leftOut := n })] } 0 []
theorem witness_starvation : (starveSt 16).cfg 0 = some quoinCfg ∧ (starveSt 16).req 0 5 = some { req0 with leftOut := 16 } ∧ quoinCfg.entry.starvation = 16 := by decide +kernel
theorem test_starvationLimit : shows (exec (.starvationLimit 0 5) (starveSt 16)) (fun t => (t.req 0 5).map (·.starved)) = some (some true)
    ∧ shows (exec (.starvationLimit 0 5) (starveSt 15)) (fun t => (t.req 0 5).map (·.starved)) = some (some false) := by decide +kernel
def lagSt (n imp : Nat) : State :=
  { stE with imprints := [(0, { imp0 with run := { Run.fresh with impression := imp }, serve := { Serve.fresh with lateness := [(8, n)] } })] }
theorem witness_laggard : (lagSt 4 1).setCfg 0 = some ⟨[0], 8, 100, 4⟩ ∧ (lagSt 4 1).heldOrNone 0 = false ∧ spGet 0 ((lagSt 4 1).imp 0).serve.lateness 8 = 4
    ∧ ((lagSt 4 1).imp 0).serve.lagged.contains 8 = false ∧ ((lagSt 4 1024).imp 0).run.impression % 1024 = 0
    ∧ ((lagSt 4 1024).imp 0).serve.lagWindow ≠ ((lagSt 4 1024).imp 0).run.impression / 1024 := by decide +kernel
theorem test_laggard : shows (exec (.laggard 0 8) (lagSt 4 1)) (fun t => ((t.imp 0).serve.lagged, (t.imp 0).serve.events.length)) = some ([8], 1)
    ∧ shows (exec (.laggard 0 8) (lagSt 3 1)) (fun t => (t.imp 0).serve.lagged) = some []
    ∧ shows (exec (.lagWindowRestart 0) (lagSt 4 1024)) (fun t => ((t.imp 0).serve.lateness, (t.imp 0).serve.lagWindow)) = some ([], 1) := by decide +kernel

def bellSt (ks : List Nat) : State :=
  { impSt Serve.fresh 0 [] with fns := [(1, { Fn.reset with rings := [(0, some (ringOf 1 1 [])), (1, some (ringOf 2 0 []))], nudged := ks })] }
def nopRaw : TicketRead := ⟨.ok (leBytes 64 0), .ok [], .ok []⟩
theorem witness_doorbell : (bellSt []).answers = true ∧ (bellSt []).poll ≠ 0 ∧ (bellSt []).serving 1 = true ∧ 0 ∈ ((bellSt []).fn 1).readable
    ∧ ((bellSt [0]).fn 1).ring 0 = some (ringOf 1 1 []) ∧ ((bellSt [0]).fn 1).nudged.contains 0 = true ∧ (bellSt [0]).atOnce 1 = false
    ∧ (ringOf 1 1 []).depth = 16 ∧ (ringOf 1 1 []).depth < (20#32 - (ringOf 1 1 []).cons).toNat ∧ (19#32 - (ringOf 1 1 []).cons).toNat ≤ (ringOf 1 1 []).depth
    ∧ [nopRaw, nopRaw].length = (5#32 - (ringOf 1 1 []).cons).toNat := by decide +kernel
theorem test_doorbell : (∀ c ∈ [Instr.doorbellPoll, .nudge 1 0], shows (exec c (bellSt [])) (fun t => (t.fn 1).nudged) = some [0])
    ∧ shows (exec (.ticketFetch 1 0 (some 5) [nopRaw, nopRaw]) (bellSt [0])) (fun t => (((t.fn 1).ring 0).map (fun r => (r.cons, r.waiting.length)), t.out)) =
      some (some (5, 2), [.hostWrite 1 0x24 (leBytes 4 5)])
    ∧ shows (exec (.ticketFetch 1 0 none []) (bellSt [0])) (fun t => ((t.fn 1).ring 0).map (·.faulted)) = some (some true)
    ∧ shows (exec (.ticketFetch 1 0 (some 20) []) (bellSt [0])) (fun t => ((t.fn 1).ring 0).map (·.faulted)) = some (some true) := by decide +kernel

/-- A ticket from its opcode and fields. -/
def tkt (op : Nat) (fields : List (Nat × Nat)) : Ticket := ⟨leBytes 64 (op + 0x800000000 + (fields.map fun x => x.2 * 256 ^ x.1).sum), [], [], 0⟩
def openT (limit : Nat) : Ticket := tkt 0x01 [(16, 0xFFFF), (20, limit), (36, 0x3F800000), (40, 1)]
def appendT : Ticket := { tkt 0x02 [(8, 5), (24, 2), (28, 8)] with data := words [3, 4] }
def adapterT : Ticket := { tkt 0x10 [(24, 64), (32, 7)] with image := leBytes 64 (0x54504441 + 7 * 2 ^ 32 + 0x3F800000 * 2 ^ 64) }
def weightsT : Ticket := { tkt 0x12 [(24, 256), (32, 0)] with image := List.replicate 256 0#8 }
def tickets : List Ticket :=
  [tkt 0x00 [], openT 10, appendT, tkt 0x03 [(8, 5)], tkt 0x04 [(8, 5), (16, 8), (20, 7)], adapterT, tkt 0x11 [(32, 7)], weightsT, tkt 0x30 [(24, 64), (28, 0)], tkt 0x3E []]
def admitV : Serve := { Serve.fresh with begun := true, reqs := [(5, some { req0 with state := .idle, lastOut := some 2 })] }
def turnSt (x : Ticket) : State := impSt admitV 0 [x]
def turnOk (x : Ticket) : Bool :=
  let s := turnSt x
  s.mayOpen 0 && (s.imp 0).serve.begun && !s.stepWaits 0 && s.budgetLeft 0 && s.nextRing 0 == some 0 && decide (s.frontTicket 1 0 = some x)
theorem witness_tickets : (∀ x ∈ tickets, turnOk x = true ∧ (turnSt x).judge 1 0 x = 0) ∧ turnOk (openT 16777217) = true
    ∧ (turnSt (openT 16777217)).judge 1 0 (openT 16777217) = 0x0200 ∧ (turnSt (openT 16777216)).judge 1 0 (openT 16777216) = 0
    ∧ (∀ x ∈ [appendT, tkt 0x03 [(8, 5)], tkt 0x04 [(8, 5), (16, 8), (20, 7)]], (turnSt x).resolveTarget 0 0 x = some 5)
    ∧ (turnSt appendT).req 0 5 = some { req0 with state := .idle, lastOut := some 2 } ∧ u32s (appendT.data.take (4 * appendT.f 24 4)) = [3, 4]
    ∧ (turnSt adapterT).freeAdapterSlot 0 = some 0 ∧ weightsT.imageBytes = some (List.replicate 256 0#8) ∧ (turnSt weightsT).desc 0 0 = descs0[0]? := by decide +kernel
theorem witness_adapterImage : ∃ x, (turnSt adapterT).adapterImage 0 (adapterT.f 32 2) (adapterT.imageBytes.getD []) = .ok x := ⟨_, rfl⟩
theorem test_openReq : shows (exec (.openReq 0 0) (turnSt (openT 10))) (fun t => ((t.req 0 0).map fun q => (q.state, q.tag, q.outLimit), (t.imp 0).serve.done.map (·.status))) =
      some (some (.pending, 8, 10), [0])
    ∧ shows (exec (.openReq 0 0) (turnSt (openT 16777217))) (fun t => (t.req 0 0, (t.imp 0).serve.done.map (·.status))) = some (none, [0x0200]) := by decide +kernel
/-- R330: a turn begins with the last output, which was not yet part of the prompt. -/
theorem test_append : shows (exec (.append 0 0) (turnSt appendT)) (fun t => (t.req 0 5).map fun q => (q.state, q.prompt, q.length)) = some (some (.prefill, [2, 3, 4], 6)) := by
  decide +kernel
theorem test_cancel_params : shows (exec (.cancel 0 0) (turnSt (tkt 0x03 [(8, 5)]))) (fun t => (t.req 0 5).map (·.cancel)) = some (some true)
    ∧ shows (exec (.params 0 0) (turnSt (tkt 0x04 [(8, 5), (16, 8), (20, 7)]))) (fun t => (t.req 0 5).map (·.outLimit)) = some (some 7) := by decide +kernel
theorem test_adapters : shows (exec (.adapterLoad 0 0) (turnSt adapterT)) (fun t => (t.imp 0).serve.versions.map fun x => (x.1, x.2.id, x.2.version, x.2.current)) = some [(0, 7, 1, false)]
    ∧ shows (exec (.adapterRetire 0 0) (turnSt (tkt 0x11 [(32, 7)]))) (fun t => (t.imp 0).serve.done.map (·.status)) = some [0] := by decide +kernel
theorem test_weights : shows (exec (.weightsLoad 0 0) (turnSt weightsT)) (fun t => ((t.imp 0).serve.tensors, (t.imp 0).serve.done.map (·.r0))) = some ([(0, [(0, 256)])], [256]) := by
  decide +kernel
theorem test_anyTicket : (∀ x ∈ [(Instr.nopTicket 1 0, tkt 0x00 []), (.query 1 0, tkt 0x30 [(24, 64), (28, 0)]), (.fence 1 0, tkt 0x3E [])],
    shows (exec x.1 (turnSt x.2)) (fun t => ((t.imp 0).serve.admits, (t.imp 0).serve.done.map (·.status))) = some (1, [0])) := by decide +kernel

def entryR (kind log2 : Nat) : RingRead := 
  ⟨.ok (leBytes 8 0x1000 ++ leBytes 8 0x20 ++ leBytes 8 0x24 ++ leBytes 1 kind ++ leBytes 1 log2 ++ leBytes 2 0
    ++ leBytes 2 (if kind = 1 then 0 else 0xFFFF) ++ List.replicate 34 0#8), some 3, some 4⟩
theorem test_ringEntry : RingEntry.ofBytes (entryR 2 4).raw.bytes = ⟨0x1000, 0x20, 0x24, 2, 4, 0, 0xFFFF, false⟩ ∧ (entryR 2 4).wf = true := by decide +kernel
/-- A return ring of 16 records. -/
def table0 : List RingRead := [entryR 2 4]
def applySt (held : Bool) : State := { stE with imprints := [(0, { imp0 with serve := { Serve.fresh with held := if held then some 2 else none } })] }
theorem witness_ringtab : stE.answers = true ∧ reachesFn (.vf 0) 1 = true ∧ reachesFn (.vf 0) 2 = false ∧ (stE.fn 1).apply = false ∧ stE.stopped = false
    ∧ stE.tableError 1 1 ((List.range 1).map fun k => table0.getD k noRead) = none ∧ stE.tableError 1 1 ((List.range 1).map fun k => [entryR 2 2].getD k noRead) = some (0, 2)
    ∧ stE.tableError 1 2 ((List.range 2).map fun k => table0.getD k noRead) = some (1, 9) ∧ stE.tableError 1 1 ((List.range 1).map fun k => [entryR 2 16].getD k noRead) = none
    ∧ stE.tableError 1 1 ((List.range 1).map fun k => [entryR 2 17].getD k noRead) = some (0, 2) ∧ (applySt false).atOnce 1 = false ∧ (applySt true).atOnce 1 = true := by decide +kernel
theorem test_ringtabApply : shows (exec (.ringtabApply (.vf 0) 1 1 table0) (applySt false)) (fun t => ((t.fn 1).apply, (t.fn 1).newTable.isSome, (t.fn 1).rings.length)) = some (true, true, 0)
    ∧ shows (exec (.ringtabApply (.vf 0) 1 1 table0) (applySt true)) (fun t => ((t.fn 1).apply, ((t.fn 1).ring 0).map (·.prod))) = some (false, some 3)
    ∧ shows (exec (.ringtabApply .pf 1 2 table0) (applySt true)) (fun t => ((t.fn 1).error, (t.fn 1).errCode, (t.fn 1).errEntry)) = some (true, 9, 1) := by decide +kernel
theorem test_hifEvtLostRead : shows (exec (.hifEvtLostRead .pf 1) { stE with fns := [(1, { Fn.reset with evtLost := 4, lostSince := 3 })] }) (fun t => ((t.fn 1).evtLost, (t.fn 1).lostSince)) =
    some (0, 3) := by decide +kernel
theorem test_vfFlr : shows (exec (.vfFlr 0) (turnSt appendT)) (fun t => ((t.fn 1).rings.length, (t.req 0 5).map fun q => (q.cancel, q.flr))) = some (0, some (true, true)) := by decide +kernel
theorem test_flrSources : (let s := { stE with icu := { Icu.reset with en := 2 ^ 64 + 2 ^ 65 + 2 ^ 66, pend := 2 ^ 65, routes := [(64, 136), (65, 264)] } }
      (shows (exec (.vfFlr 0) s) (fun t => (t.icu.en, t.icu.pend)), shows (exec .pfFlr s) (fun t => t.icu.en)))
    = (some (2 ^ 65 + 2 ^ 66, 2 ^ 65), some (2 ^ 66)) := by decide +kernel
theorem test_pfFlr : shows (exec .pfFlr { turnSt appendT with ed := { stE.ed with staged := some edition0 } }) (fun t => ((t.fn 1).rings.length, t.ed.staged.isSome, t.ed.inForce.isSome)) =
    some (0, false, true) := by decide +kernel
def downSt : State := { stE with degraded := true }
theorem witness_link_return : downSt.degraded = true ∧ downSt.heldOrNone 0 = false ∧ downSt.heldOrNone 1 = true := by decide +kernel
theorem test_pcieLinkChange : shows (exec (.pcieLinkChange 32 8) downSt) (fun t => (t.degraded, (t.fn 1).linkWait)) = some (false, true)
    ∧ shows (exec (.pcieLinkChange 32 7) stE) (fun t => t.degraded) = some true ∧ shows (exec (.pcieLinkChange 31 8) stE) (fun t => t.degraded) = some true := by decide +kernel

/-! Editions. -/

def pfSt (w : Ticket) (d : Editions → Editions) : State :=
  { stE with fns := [(0, { Fn.reset with rings := [(0, some (ringOf 1 1 [w])), (1, some (ringOf 2 0 []))] })], ed := d stE.ed }
def stageT : Ticket := tkt 0x20 [(24, 4096), (32, 2)]
def edition2 : Edition := { edition0 with bytes := edBytes 0 0xFF 2 0 0 }
def editionM : Edition := ⟨edBytes 1 0 2 1 9, .minor ⟨none, some [7], true⟩⟩
def staging2 : Staging := ⟨0, 8, 2, some edition2, false⟩
theorem witness_stage : (pfSt stageT id).edTicket 0 0x20 = some stageT ∧ stageT.f 32 4 = edition2.head.edition ∧ edition2.body = .major ⟨map0, topo0, false, [cfg0], power0⟩
    ∧ (pfSt stageT fun d => { d with stage := some staging2 }).mayValidate { staging2 with timedOut := true } edition2 = true
    ∧ (pfSt stageT fun d => { d with stage := some staging2 }).mayValidate staging2 editionM = true
    ∧ topo0.ports[19]? = some ⟨.required, 8, 0, none, none⟩ ∧ (stE.port 19).lastHello = none
    ∧ ((portSt { portIn .up with lastHello := some greet }).port 0).lastHello ≠ none := by decide +kernel
theorem test_editionStage : shows (exec (.editionStage 0 (some edition2)) (pfSt stageT id)) (fun t => (t.ed.stage.map (·.num), ((t.fn 0).ring 0).map (·.waiting.length))) = some (some 2, some 0)
    ∧ shows (exec (.editionStage 0 (some edition2)) (pfSt stageT fun d => { d with work := .rechecking 0 1 true })) (fun t => (t.ed.stage.isSome, ((t.fn 0).ring 0).map (·.waiting.length))) =
      some (false, some 0) := by decide +kernel
theorem test_discoveryTimeout : shows (exec .discoveryTimeout { pfSt stageT (fun d => { d with stage := some staging2 }) with ports := [(0, { portIn .up with lastHello := some greet })] })
    (fun t => (t.ed.stage.map (·.timedOut), (t.port 0).missing, (t.port 19).missing, (t.port 19).reason)) = some (some true, false, true, 9) := by decide +kernel

def commitT : Ticket := tkt 0x21 [(32, 2)]
def revertT : Ticket := tkt 0x22 [(32, 2)]
theorem witness_commit : (pfSt commitT fun d => { d with staged := some edition2 }).edTicket 0 0x21 = some commitT ∧ edition2.head.edition = commitT.f 32 4
    ∧ (pfSt commitT fun d => { d with staged := some editionM }).edTicket 0 0x21 = some commitT ∧ editionM.head.edition = commitT.f 32 4
    ∧ (pfSt commitT fun d => { d with staged := some editionM }).runChecks editionM false [13] = none
    ∧ (pfSt commitT fun d => { d with staged := some editionM }).runChecks { editionM with bytes := edBytes 1 0 2 1 0 } false [13] ≠ none
    ∧ (pfSt revertT fun d => { d with pendingMinor := some (editionM, 0, 8) }).edTicket 0 0x22 = some revertT
    ∧ (pfSt revertT fun d => { d with kept := some edition2 }).edTicket 0 0x22 = some revertT := by decide +kernel
theorem test_editionCommit : shows (exec (.editionCommit 0) (pfSt commitT fun d => { d with staged := some edition2 })) (fun t => (t.ed.work, t.ed.staged.isSome)) = some (.rechecking 0 8 false, true)
    ∧ shows (exec (.editionCommit 0) (pfSt commitT fun d => { d with staged := some editionM })) (fun t => (t.ed.pendingMinor.map (·.2), t.ed.staged.isSome)) = some (some (0, 8), false) := by
  decide +kernel
theorem test_editionRevert : shows (exec (.editionRevert 0) (pfSt revertT fun d => { d with kept := some edition2 })) (fun t => t.ed.work) = some (.rechecking 0 8 true)
    ∧ shows (exec (.editionRevert 0) (pfSt revertT fun d => { d with pendingMinor := some (editionM, 0, 8) })) (fun t => (t.ed.pendingMinor.isSome, t.ed.work)) = some (false, .idle) := by
  decide +kernel

/-- An edition like the one in force, with the digest of its bytes, whose routes reach only the package itself. -/
def cfgG : ImprintCfg := { cfg0 with routes := { cfg0.routes with reach := [(0, 0x3FFFF)] } }
def sealed (bs : List Byte) : List Byte := bs.take 64 ++ leBytes 48 (Config.sha384 bs).toNat ++ bs.drop 112
def editionG : Edition := { bytes := sealed edition2.bytes, body := .major ⟨map0, { topo0 with ports := [] }, false, [cfgG], power0⟩ }
def recheckSt : State := { stE with ed := { stE.ed with staged := some editionG, work := .rechecking 0 8 false } }
theorem witness_recheck_bad : recheckSt.ed.work = .rechecking 0 8 false ∧ (if false = true then recheckSt.ed.kept else recheckSt.ed.staged) = some editionG
    ∧ sameImages (none :: ([] : List Edition).map some) (editionG :: []) = false ∧ recheckSt.heldOrNone 0 = false := ⟨rfl, rfl, rfl, by decide +kernel⟩
theorem test_editionRecheckDone : shows (exec (.editionRecheckDone none []) recheckSt) (fun t => (t.ed.work, t.ed.inForce.isSome)) = some (.idle, true) := by decide +kernel

/-! Records of a schedule image: the worked example of 09_core_programs.md (R301, R302, R312), and latencies of R228. -/

def tileR : BitVec 512 := rcd 0x0000_0006_000A_0C10 [(8, 0x12), (10, 0x40), (12, 1536), (16, 7680), (20, 256), (22, 1), (24, 128), (32, 0x2E), (33, 2), (35, 0xFF),
  (36, 0x40000000), (40, 0x3F000000), (44, 0x0E000000), (52, 0x13), (55, 4)]
def actR : TensorDesc := { elem := 0x10, scale := 0, cls := 2, flags := 0, rows := 256, k := 8192, tscale := 0, location := 0xC000000, stored := 256, slugElems := 0, font := 0xFFFF }
def weightR : TensorDesc := { actR with elem := 0x30, scale := 1, cls := 0, rows := 8192, tscale := 0x3F800000 }
def cfgR : ImprintCfg :=
  { cfg0 with cores := [3], formats := { cfg0.formats with plates := List.replicate 20 ⟨32, 0, 0, 0⟩, descs := (List.replicate 65 actR).set 18 weightR } }
theorem test_tileRecord : platenTime cfgR ⟨0, 3, 0, 0, 256, tileR⟩ = 1472 ∧ platenOk cfgR (matrixBody tileR) = true ∧ recordClean tileR = true ∧ addressesOk cfgR ⟨0, 3, 0, 0, 256, tileR⟩ = true
    ∧ (cmdHead tileR).waitVal = 5 ∧ (cmdHead tileR).sigCtr = 1 ∧ recordClean (tileR ||| rcd 0 [(59, 1)]) = false ∧ recordClean (tileR ||| rcd 0 [(40, 1)]) = false := by decide +kernel
theorem test_meshLatency : farLatency (meshCore 0) (meshCore 18) = 40 ∧ readLatency map0 0 (t0Addr 0 64) = 16 ∧ readLatency map0 0 (t0Addr 96 0) = 72 + 4 * 7 := by decide +kernel

def drainSt (e : Edition) : State :=
  { stE with imprints := [(0, { imp0 with steps := 6, serve := { Serve.fresh with drain := some 1, drained := true } })]
             ed := { stE.ed with work := .draining 0 8 false e [] }, boot := { stE.boot with keySlots := [(0, 3), (1, 4)], drbg := 9 } }
/-- A commit that carries imprint 0, and one that creates imprint 2 and ends imprint 0. -/
def editionC : Edition := { edition2 with body := .major ⟨map0, topo0, true, [{ cfg0 with entry := { entry0 with imprint := 2 } }], power0⟩ }
theorem witness_drain : (drainSt editionG).allDrained = true ∧ (drainSt editionC).allDrained = true ∧ (drainSt editionG).stopped = false ∧ (drainSt editionG).carried cfg0 = true
    ∧ (drainSt editionC).carried { cfg0 with entry := { entry0 with imprint := 2 } } = false := by decide +kernel
theorem test_pointOfNoReturn : shows (exec .pointOfNoReturn (drainSt editionG)) (fun t => decide (t.ed.number = 2 ∧ t.ed.keptNumber = 1 ∧ t.boot.keySlots = [(0, 3)] ∧ (t.imp 0).steps = 6
      ∧ (t.imp 0).serve.drained = false ∧ t.fab.gens = 1)) = some true
    ∧ shows (exec .pointOfNoReturn (drainSt editionC)) (fun t => decide (t.boot.keySlots = [(2, 10)] ∧ (t.imp 0).cfg.isNone = true ∧ (t.imp 2).run.impression = 1)) = some true := by
  decide +kernel
theorem test_editionCommitDone : shows (exec (.editionCommitDone 5) { stE with ed := { stE.ed with work := .applying 0 8 false 1 0 1 } }) (fun t => t.ed.work) = some .idle := by decide +kernel

theorem runChecks_none (s : State) (e : Edition) (m : Major) (rev : Bool) (hb : e.body = .major m) (cs : List Nat)
    (h : ∀ c ∈ cs, 4 ≤ c ∧ firstSpot (s.majorFails e m rev c) = none) : s.runChecks e rev cs = none := by
  induction cs with
  | nil => rfl
  | cons c cs ih =>
    obtain ⟨h4, hc⟩ := h c (by simp)
    have n1 : ¬ c = 1 := by omega
    have n2 : ¬ c = 2 := by omega
    have n3 : ¬ c = 3 := by omega
    simp only [State.runChecks, n1, n2, n3, if_false, hb, hc]
    exact ih fun x hx => h x (by simp [hx])
theorem ofLeBytes_leBytes_self (n x : Nat) : ofLeBytes (leBytes n x) = x % 256 ^ n := by
  induction n generalizing x with
  | zero => simp [leBytes, ofLeBytes, Nat.mod_one]
  | succ n ih =>
    rw [leBytes, ofLeBytes, ih, BitVec.toNat_ofNat]
    rw [show 256 ^ (n + 1) = 256 * 256 ^ n by rw [Nat.pow_succ, Nat.mul_comm], Nat.mod_mul]
set_option maxRecDepth 20000 in
set_option exponentiation.threshold 400 in
theorem editionG_digest : Config.sha384 editionG.covered = editionG.digest := by
  have h1 : editionG.covered = edition2.bytes := rfl
  have h2 : fieldAt editionG.bytes 64 48 = ofLeBytes (leBytes 48 (Config.sha384 edition2.bytes).toNat) := rfl
  rw [h1, Edition.digest, h2, ofLeBytes_leBytes_self]
  apply BitVec.eq_of_toNat_eq
  rw [BitVec.toNat_ofNat, show (256 : Nat) ^ 48 = 2 ^ 384 from (Nat.pow_mul 2 8 48).symm, Nat.mod_mod, Nat.mod_eq_of_lt (BitVec.isLt _)]
/-- Where the cores not active are spares and the static checks left open find nothing (all of them open values), a commit's recheck passes. -/
theorem witness_recheck_good (hf : Config.idleSpare = fun _ => true) (hs : Config.staticCheck = fun _ _ => none) :
    sameImages (some editionG :: ([] : List Edition).map some) (editionG :: []) = true ∧ recheckSt.runChecks editionG false recheckCodes = none := by
  refine ⟨by simp [sameImages, editionG_digest], ?_⟩
  have hc : coreFuse = fun _ => false := by funext p; simp [coreFuse, hf]
  refine runChecks_none _ _ ⟨map0, { topo0 with ports := [] }, false, [cfgG], power0⟩ _ rfl _ ?_
  simp only [State.majorFails, State.coreMapFails, hc, hs]
  decide +kernel

/-! Power, heat, ageing. -/

def pw (f : Power → Power) : State := { stE with power := f { stE.power with setpoint := 700 } }
theorem witness_power : (pw id).answers = true ∧ (pw id).powered = true ∧ (pw id).power.cap = 260000 ∧ (pw fun p => { p with target := 1000 }).capTarget = 100000
    ∧ (pw fun p => { p with timer := true }).power.timer = true ∧ (pw id).powerCfg.isSome = true ∧ (pw id).inRest = false ∧ (pw id).inFloor = false ∧ (pw id).power.hold = false := by decide +kernel
theorem test_pwrCap : shows (exec (.pwrCapFast .i3c 1000#12) (pw id)) (fun t => (t.power.target, t.power.cap)) = some (1000, 100000)
    ∧ shows (exec (.pwrCapWrite .pf 1000#12) (pw id)) (fun t => (t.power.target, t.power.cap)) = some (1000, 260000)
    ∧ shows (exec (.pwrCapWrite (.vf 0) 1000#12) (pw id)) (fun t => t.power.target) = some 2600
    ∧ shows (exec .capStep (pw fun p => { p with target := 1000, cap := 100020 })) (fun t => t.power.cap) = some 100000
    ∧ shows (exec .capStep (pw fun p => { p with target := 1000, cap := 99980 })) (fun t => t.power.cap) = some 100000
    ∧ shows (exec .capStep (pw fun p => { p with target := 1000, cap := 100060 })) (fun t => t.power.cap) = some 100010 := by decide +kernel
theorem test_heartbeat : shows (exec (.heartbeat .pf 1#32) (pw fun p => { p with orphaned := true })) (fun t => (t.power.timer, t.power.orphaned)) = some (true, false)
    ∧ shows (exec .heartbeatExpiry (pw fun p => { p with timer := true })) (fun t => (t.power.orphaned, t.power.cap)) = some (true, 200000) := by decide +kernel

/-- With a core term of 1 W a level, 40 W fits under 100 W and 110 W does not; a cap of 1 W is unmet. -/
def capSt (cap level : Nat) : State := pw fun p => { p with cap := 100 * cap, level := level }
def fitAt (cap k : Nat) : Bool := decide ((64 * (60000 + 0 + 0) + 64000 * k : Int) + 0 ≤ 640 * (100 * cap))
theorem witness_limiter : fitAt 100 40 = true ∧ (∀ k ∈ (List.range 65).filter (40 < ·), fitAt 100 k = false) ∧ (∀ k ∈ (List.range 65).filter (4 ≤ ·), fitAt 1 k = false)
    ∧ (capSt 100 50).inFloor = false ∧ min 40 (capSt 100 50).power.lth ≤ (capSt 100 50).power.level ∧ (capSt 100 39).power.level < min 40 (capSt 100 39).power.lth := by decide +kernel
/-- The ramp allowance of 0.5 W covers no step of 1 W at once, and one after the second evaluation. -/
theorem test_limiterEval : shows (exec (.limiterEval 60000 0 0 64000) (capSt 100 50)) (fun t => (t.power.level, t.power.capUnmet)) = some (40, false)
    ∧ shows (exec (.limiterEval 60000 0 0 64000) (capSt 100 30)) (fun t => (t.power.level, t.power.allowance)) = some (30, 32000)
    ∧ shows (exec (.limiterEval 60000 0 0 64000) (pw fun p => { p with cap := 10000, level := 30, allowance := 32000 })) (fun t => (t.power.level, t.power.allowance)) = some (31, 0)
    ∧ shows (exec (.limiterEval 60000 0 0 64000) (capSt 1 50)) (fun t => (t.power.level, t.power.capUnmet)) = some (4, true) := by decide +kernel
theorem test_avsSample : shows (exec (.avsSample [40, 60]) (pw fun p => { p with pFixed := 10, pCore := 64, level := 64, readings := [300] })) (fun t => (t.power.measured, t.power.kTrim, t.power.readings)) =
    some (200, 8064, [100, 300]) := by decide +kernel

theorem witness_floor : (pw fun p => { p with causes := 3 }).powered = true ∧ (pw fun p => { p with overRun := 40 }).power.overRun = 40 ∧ (pw fun p => { p with trimmed := true }).power.trimmed = true
    ∧ (spPut 0 (pw id).power.rates 47 2).any (fun x => decide (2 ≤ x.2)) = true ∧ (spPut 0 (pw id).power.rates 47 1).any (fun x => decide (2 ≤ x.2)) = false
    ∧ (pw fun p => { p with vrLow := false, brkLow := false }).power.vrLow = false := by decide +kernel
theorem test_floor : (∀ c ∈ [(Instr.vrAlertAssert, 1), (.pwrbrkAssert, 2), (.dramTempReport 47 2, 16)], shows (exec c.1 (pw id)) (fun t => (t.power.causes, t.issueLevel)) = some (c.2, 4))
    ∧ shows (exec .overCap (pw fun p => { p with overRun := 40 })) (fun t => (t.power.causes, t.power.trimmed)) = some (4, false)
    ∧ shows (exec .overCap (pw fun p => { p with overRun := 39 })) (fun t => t.power.causes) = some 0
    ∧ (∀ c ∈ [(Instr.vrAlertClear, 30), (.pwrbrkClear, 29), (.overCapClear, 27), (.dramTempReport 0 1, 15)],
      shows (exec c.1 (pw fun p => { p with causes := 31, trimmed := true })) (fun t => (t.power.causes, t.issueLevel)) = some (c.2, 4))
    ∧ shows (exec .vrAlertClear (pw fun p => { p with causes := 1, vrLow := true })) (fun t => t.power.causes) = some 1
    ∧ shows (exec .vrAlertDeassert (pw fun p => { p with vrLow := true })) (fun t => t.power.vrLow) = some false
    ∧ shows (exec .pwrbrkDeassert (pw fun p => { p with brkLow := true })) (fun t => t.power.brkLow) = some false := by decide +kernel
theorem witness_heat : (pw id).ed.coreMap.getD 0 0xFF ≠ 0xFF ∧ (pw fun p => { p with causes := 8, tj := 105 }).inFloor = true ∧ (pw fun p => { p with causes := 8, tj := 105 }).power.hold = false := by
  decide +kernel
theorem test_sensorRead : shows (exec (.sensorRead [(210, 105), (219, 90)]) (pw id)) (fun t => (t.power.tj, t.power.sensor, t.power.causes)) = some (105, 210, 8)
    ∧ shows (exec (.sensorRead [(210, 104)]) (pw id)) (fun t => (t.power.tj, t.power.causes)) = some (104, 0)
    ∧ shows (exec (.sensorRead [(210, 97)]) (pw fun p => { p with causes := 8, hold := true })) (fun t => (t.power.causes, t.power.lth, t.power.hold)) = some (0, 4, false)
    ∧ shows (exec (.sensorRead [(210, 98)]) (pw fun p => { p with causes := 8 })) (fun t => t.power.causes) = some 8 := by decide +kernel
theorem test_lthStep : (∀ x ∈ [((100, 64), 63), ((100, 4), 4), ((97, 63), 64), ((97, 64), 64), ((98, 30), 30)],
    shows (exec .lthStep (pw fun p => { p with tj := x.1.1, lth := x.1.2 })) (fun t => t.power.lth) = some x.2) := by decide +kernel
theorem test_thermalHold : shows (exec .thermalHold (pw fun p => { p with causes := 8, tj := 105 })) (fun t => (t.power.hold, t.issueLevel)) = some (true, 0)
    ∧ shows (exec .thermalHold (pw fun p => { p with causes := 8, tj := 104 })) (fun t => t.power.hold) = some false := by decide +kernel

def restSt (r : RestState) (v : Serve) : State := { impSt v 0 [] with power := { stE.power with rest := r, setpoint := 700 }, icu := { Icu.reset with wake := 6, restSeen := true } }
theorem witness_rest : (restSt .run Serve.fresh).restRefused = false ∧ (restSt .run { Serve.fresh with reqs := [(5, some req0)] }).restRefused = true
    ∧ (restSt .entering Serve.fresh).imprintList.all (restSt .entering Serve.fresh).atOpen = true ∧ (restSt .rest Serve.fresh).power.req = false
    ∧ Nat.testBit (restSt .rest Serve.fresh).icu.wake 2 = true ∧ (restSt .rest Serve.fresh).stopped = false
    ∧ ({ turnSt appendT with power := { stE.power with rest := .rest, req := true } } : State).ticketWaits = true := by decide +kernel
theorem test_rest : shows (exec .pwrReqRest (restSt .run Serve.fresh)) (fun t => (t.power.rest, t.power.refused)) = some (.entering, false)
    ∧ shows (exec .pwrReqRest (restSt .run { Serve.fresh with reqs := [(5, some req0)] })) (fun t => (t.power.rest, t.power.refused)) = some (.run, true)
    ∧ shows (exec .pwrReqRun (restSt .entering Serve.fresh)) (fun t => t.power.rest) = some .run
    ∧ shows (exec .restEntry (restSt .entering Serve.fresh)) (fun t => (t.power.rest, t.issueLevel)) = some (.rest, 0)
    ∧ shows (exec .restWake (restSt .rest Serve.fresh)) (fun t => (t.power.rest, t.icu.wake, Nat.testBit t.icu.pend 1, t.icu.restWrite)) = some (.run, 0, true, true) := by decide +kernel

def fit0 : List (Nat × Int × Int) := [(0, 20, 5)]
/-- Active cores 0 to 95 and 104 to 199 by number, spares 96 and 200. -/
theorem witness_margin : (pw id).ed.coreMap.getD (9 * 207 / 9) 0xFF = 0xFE ∧ (pw id).ed.coreMap.getD 0 0xFF < 192 ∧ (pw id).powerCfg = some power0
    ∧ (pw fun p => { p with margins := [(0, ⟨20, 5, 0, 0, 3⟩)] }).proposalFor power0 0 = some (0, 2, 96) ∧ (pw id).proposalFor power0 1 = none := by decide +kernel
theorem test_monitors : shows (exec (.monitorSample [(8, 5), (9 * 96, 6)]) (pw id)) (fun t => t.power.monitors) = some [(8, 5)]
    ∧ shows (exec (.spareMonitorSample [(8, 5), (9 * 96, 6)]) (pw id)) (fun t => t.power.monitors) = some [(864, 6)] := by decide +kernel
theorem test_marginFit : shows (exec (.marginFit fit0) (pw fun p => { p with margins := [(3, ⟨30, 25, 1, 9, 2⟩)] })) (fun t => ((t.margin 0).samples, (t.margin 0).proposal, (t.margin 0).value, (t.margin 3).proposal)) =
    some (1, 2, 96, 0) := by decide +kernel

/-! Boot, security, the platform. -/
def offSt (pg cool ent : Bool) : State := { stE with boot := { stE.boot with released := false, powerGood := pg, coolOk := cool, entropyGood := ent } }
theorem witness_resets : (offSt false true true).boot.powerGood = false ∧ (offSt true true true).boot.released = false ∧ (offSt true true false).boot.entropyGood = false ∧ stE.boot.released = true
    ∧ (offSt false true true).stopped = false ∧ stE.boot.powerGood = true := by decide +kernel
theorem test_perstN : shows (exec .perstNAssert { stE with stopped := true, glb := ⟨3, 1, 1, 5#64⟩ }) (fun t => (t.stopped, t.boot.released, t.glb.cause, t.ed.inForce.isSome, t.imprints.length)) = some (false, false, 0, false, 0)
    ∧ shows (exec .perstNAssert { stE with boot := { stE.boot with slotId := 5, svnFused := 2, keySlots := [(0, 1)] } }) (fun t => (t.boot.slotId, t.boot.svnFused, t.boot.keySlots)) = some (5, 2, []) := by decide +kernel
theorem test_powerGood : shows (exec .powerGoodFall stE) (fun t => (t.boot.powerGood, t.boot.perstN, t.boot.released)) = some (false, true, false)
    ∧ shows (exec (.powerGoodRise 3 true) (offSt false true true)) (fun t => (t.boot.slotId, t.boot.released)) = some (3, true)
    ∧ shows (exec (.powerGoodRise 3 false) (offSt false true true)) (fun t => (t.boot.released, t.stopped, t.glb.cause)) = some (false, true, 1) := by decide +kernel
theorem test_release : shows (exec (.release true false true) (offSt true false true)) (fun t => (t.boot.released, t.power.causes, t.issueLevel)) = some (true, 1, 4)
    ∧ shows (exec (.release false true true) (offSt true true true)) (fun t => t.boot.released) = some false
    ∧ shows (exec (.coolOkChange true) (offSt true false true)) (fun t => t.boot.released) = some true
    ∧ shows (exec (.coolOkChange false) stE) (fun t => (t.boot.released, t.boot.coolOk, Nat.testBit t.icu.pend 1)) = some (true, false, true) := by decide +kernel
theorem test_clocks : shows (exec (.clockMonitorTrip true) stE) (fun t => (t.stopped, t.glb.cause, t.boot.sysRefOk)) = some (true, 1, false)
    ∧ shows (exec (.clockMonitorTrip false) (offSt true false true)) (fun t => t.stopped) = some false
    ∧ shows (exec .pcieRefclkLoss stE) (fun t => (t.boot.pcieRefOk, Nat.testBit t.icu.pend 4)) = some (false, true)
    ∧ shows (exec .pcieRefclkReturn { stE with boot := { stE.boot with pcieRefOk := false } }) (fun t => t.boot.pcieRefOk) = some true
    ∧ shows (exec .drbgReseed stE) (fun t => t.boot.reseeds) = some 1 := by decide +kernel

/-- An image with a payload of one byte, written from R571's and R572's tables. -/
def fwImg : List Byte := words [0x57465952, 1, 0x01000002] ++ [5#8, 0#8, 1#8, 1#8] ++ leBytes 8 1 ++ List.replicate 8168 0#8 ++ [0xAA#8]
theorem test_fwImg_form : fwImg.length = 8193 ∧ imgFormOk fwImg = true ∧ imgPayload fwImg = [0xAA#8] ∧ imgField fwImg 8 4 = 0x01000002 ∧ imgField fwImg 12 1 = 5 := by decide +kernel
/-- Where the vendor's key, signatures and digest are the image's (free values), the image passes. -/
theorem witness_image_passes (h1 : Config.keyRevoked = fun _ => false) (h2 : Config.keyHash = fun _ => 0) (h3 : Config.sha384 = fun _ => 0)
    (h4 : Config.edVerify = fun _ _ _ => true) (h5 : Config.mlVerify = fun _ _ _ => true) : imgError 0 fwImg = 0 := by
  have hk : imgKeyOk fwImg = true := by simp only [imgKeyOk, h1, h2, h3]; decide +kernel
  simp only [imgError, test_fwImg_form.2.1, hk, h3, h4, h5]
  decide +kernel
theorem witness_image_fails : imgError 0 [] = 2 ∧ imgError 6 [] ≠ 0 := by decide +kernel
def romSt (stage : Stage) (busy : Bool) : State := { stE with boot := { stE.boot with stage := stage, busy := busy, source := 1, imgLen := 8193, fwVersion := 7 } }
theorem witness_images : (romSt .rom false).boot.released = true ∧ (romSt .rom false).stopped = false ∧ (romSt .rom false).boot.stage = .rom ∧ (romSt .loading false).boot.stage = .loading
    ∧ (romSt .mailbox true).boot.busy = true ∧ (romSt .mailbox false).boot.busy = false ∧ (romSt .running false).boot.stage = .running ∧ (romSt .updating true).boot.stage = .updating
    ∧ (romSt .mailbox true).hostImgError .failed = 9 ∧ (romSt .mailbox true).hostImgError (.ok []) = 2 := by decide +kernel
theorem test_bootImage : shows (exec (.bootImageChecked false []) (romSt .rom false)) (fun t => (t.boot.stage, t.boot.error)) = some (.mailbox, 1)
    ∧ shows (exec (.bootImageChecked true []) (romSt .rom false)) (fun t => (t.boot.stage, t.boot.error)) = some (.mailbox, 2) := by decide +kernel
theorem test_firmwareInitDone : shows (exec (.firmwareInitDone [3]) { romSt .loading false with boot := { (romSt .loading false).boot with ran := false } }) (fun t => (t.boot.stage, t.answers, t.trained 3, t.trained 4)) =
    some (.running, true, false, true) := by decide +kernel
theorem test_mailbox : shows (exec .mailboxLoad (romSt .mailbox false)) (fun t => t.boot.busy) = some true
    ∧ shows (exec (.mailboxImageChecked .failed) (romSt .mailbox true)) (fun t => (t.boot.stage, t.boot.error, t.boot.busy, Nat.testBit t.icu.pend 71)) = some (.mailbox, 9, false, true) := by decide +kernel
theorem test_update : shows (exec .firmwareUpdate (romSt .running false)) (fun t => (t.boot.stage, t.boot.busy)) = some (.updating, true)
    ∧ shows (exec .firmwareUpdate (romSt .running true)) (fun t => t.boot.stage) = some .running
    ∧ shows (exec (.firmwareUpdateDone (.ok []) []) (romSt .updating true)) (fun t => (t.boot.stage, t.boot.error, t.boot.busy, t.boot.fwVersion)) = some (.running, 2, false, 7) := by decide +kernel

def talk (x : Spdm) : State := { romSt .running false with spdm := x, boot := { (romSt .running false).boot with meas := [1, 2, 3, 4, 5, 6] } }
def met : Spdm := { Spdm.reset with version := true, caps := true, algs := true }
theorem witness_spdm : (∀ x ∈ [Spdm.reset, met, { met with handshake := true }, { met with session := true }, { met with signed := some [7#8] }], (talk x).spdmUp = true)
    ∧ (∀ k ∈ [1, 6], (talk met).boot.meas[k - 1]? = some (BitVec.ofNat 384 k)) ∧ (talk { met with signed := some [7#8] }).spdm.signed = some [7#8] ∧ (talk met).spdm.signed = none := by decide +kernel
theorem witness_certificate (h : Config.edChain = fun _ => [7#8]) : 0 < (Config.edChain (talk met).aliasOf).length := by rw [h]; decide
theorem test_spdm_setup : shows (exec .getVersion (talk { met with session := true })) (fun t => (t.spdm.version, t.spdm.algs, t.spdm.session)) = some (true, false, false)
    ∧ shows (exec .getCapabilities (talk { Spdm.reset with version := true })) (fun t => t.spdm.caps) = some true
    ∧ shows (exec .getCapabilities (talk Spdm.reset)) (fun t => (t.spdm.caps, t.spdm.answered)) = some (false, 1)
    ∧ shows (exec .negotiateAlgorithms (talk { Spdm.reset with caps := true })) (fun t => t.spdm.algs) = some true
    ∧ shows (exec .getDigests (talk met)) (fun t => (t.spdm.answered, t.out.length)) = some (1, 1) := by decide +kernel
theorem test_spdm_signed : shows (exec (.challenge [7#8]) (talk met)) (fun t => t.spdm.signed) = some (some [7#8])
    ∧ shows (exec (.getMeasurements [8#8] true 1) (talk met)) (fun t => t.spdm.signed) = some (some [8#8])
    ∧ shows (exec (.getMeasurements [8#8] true 7) (talk met)) (fun t => t.spdm.signed) = some none
    ∧ shows (exec .getPqSignature (talk { met with signed := some [7#8] })) (fun t => t.out.length) = some 1 := by decide +kernel
theorem test_spdm_session : shows (exec (.keyExchange [9#8]) (talk met)) (fun t => (t.spdm.handshake, t.boot.drbg)) = some (true, 1)
    ∧ shows (exec (.finish true) (talk { met with handshake := true })) (fun t => (t.spdm.handshake, t.spdm.session)) = some (false, true)
    ∧ shows (exec (.finish false) (talk { met with handshake := true })) (fun t => (t.spdm.handshake, t.spdm.session)) = some (false, false)
    ∧ shows (exec (.keyUpdate 1) (talk { met with session := true })) (fun t => t.spdm.keyUpdates) = some 1
    ∧ shows (exec .spdmHeartbeat (talk { met with session := true })) (fun t => t.spdm.answered) = some 1
    ∧ shows (exec (.ideKm true [1#8]) (talk { met with session := true })) (fun t => t.spdm.ideKeys) = some [[1#8]]
    ∧ shows (exec (.ideKm false []) (talk { met with session := true, ideKeys := [[1#8]] })) (fun t => t.spdm.ideActive) = some true
    ∧ shows (exec .endSession (talk { met with session := true, ideKeys := [[1#8]], ideActive := true })) (fun t => (t.spdm.session, t.spdm.ideKeys, t.spdm.ideActive)) = some (false, [], false)
    ∧ shows (exec (.getPqChain 0 65537) (talk met)) (fun t => t.out.length) = some 1 := by decide +kernel

def i3cSt (a : Option (BitVec 7)) : State := { stE with i3c := ⟨a, 0, 0⟩, boot := { stE.boot with slotId := 5 } }
theorem witness_i3c : (i3cSt none).boot.released = true ∧ (i3cSt none).i3c.addr = none ∧ (i3cSt (some 9)).i3c.addr ≠ none ∧ (i3cSt none).boot.slotId < 8
    ∧ (0x55#7).toNat = 0x50 + (i3cSt none).boot.slotId := by decide +kernel
theorem test_i3c_addresses : shows (exec (.entdaa 9) (i3cSt none)) (fun t => t.i3c.addr) = some (some 9)
    ∧ shows (exec (.setdasa 0x55 9) (i3cSt none)) (fun t => t.i3c.addr) = some (some 9)
    ∧ shows (exec (.setdasa 0x54 9) (i3cSt none)) (fun t => t.i3c.addr) = some none
    ∧ shows (exec .rstdaa (i3cSt (some 9))) (fun t => t.i3c.addr) = some none
    ∧ (∀ c ∈ [Instr.getpid, .getbcr, .getdcr, .getstatus, .getmwl, .getmrl], shows (exec c (i3cSt (some 9))) (fun t => t.out.length) = some 1) := by decide +kernel
/-- PWR_CAP at 0x40000 over I3C; data that is not the register's width only sets the pointer; fewer than four bytes are ignored. -/
theorem test_i3cPrivateWrite : shows (exec (.i3cPrivateWrite (words [0x00040000, 1700])) (i3cSt (some 9))) (fun t => (t.i3c.pointer, t.power.target)) = some (0x40000, 1700)
    ∧ shows (exec (.i3cPrivateWrite (words [0x00040000] ++ [1#8, 2#8])) (i3cSt (some 9))) (fun t => (t.i3c.pointer, t.power.target)) = some (0x40000, 2600)
    ∧ shows (exec (.i3cPrivateWrite [0#8, 0#8, 4#8]) (i3cSt (some 9))) (fun t => t.i3c.pointer) = some 0 := by decide +kernel

/-! The interrupt controller and the registers. -/
/-- Sources 20 (link) and 600 (T1 damage), the latter routed to vector 3 of VF 0. -/
def irq (en off : Bool) (mask : Bool) (pend : Bool) : State :=
  { stE with icu := { Icu.reset with en := 2 ^ 20 + 2 ^ 600, routes := [(600, 2 + 8 + 128 + 4096 * 3)] },
             fns := [(1, { Fn.reset with msixEnable := en, msixMask := off, msix := [(3, { MsixEntry.reset with addr := 0x1000, data := 77, mask := mask, pending := pend })] })] }
theorem witness_interrupts : stE.answers = true ∧ stE.inRest = false ∧ ({ stE with power := { stE.power with rest := .rest } } : State).inRest = true ∧ State.reset.answers = false
    ∧ isLocked (64 * 4) = true ∧ isLocked (64 * 0) = false ∧ stE.route 20 % 8 = 2 ∧ stE.route 512 % 8 = 2 ∧ stE.route 895 % 8 = 2 := by decide +kernel
theorem test_icuEnable : shows (exec (.icuEnSet 0 5) { stE with icu := { Icu.reset with en := 2 } }) (fun t => t.icu.en) = some 7
    ∧ shows (exec (.icuEnSet 4 5) stE) (fun t => t.icu.en) = some 0 ∧ shows (exec (.icuEnSet 15 1) stE) (fun t => t.icu.en) = some (2 ^ 960)
    ∧ shows (exec (.icuEnClr 0 5) { stE with icu := { Icu.reset with en := 7 } }) (fun t => t.icu.en) = some 2
    ∧ shows (exec (.icuEnSet 0 5) { stE with power := { stE.power with rest := .rest } }) (fun t => (t.icu.en, t.icu.restSeen)) = some (0, true) := by decide +kernel
theorem test_icuPending : shows (exec (.icuPendSet 0 5) { stE with icu := { Icu.reset with pend := 2 } }) (fun t => t.icu.pend) = some 7
    ∧ shows (exec (.icuPendClr 0 5) { stE with icu := { Icu.reset with pend := 7 } }) (fun t => t.icu.pend) = some 2 := by decide +kernel
theorem witness_deliveries : (∀ x ∈ [(true, false, false), (true, true, false), (true, false, true), (false, false, false)], (irq x.1 x.2.1 x.2.2 false).inRest = false
      ∧ (irq x.1 x.2.1 x.2.2 false).route 600 % 8 = 2 ∧ (irq x.1 x.2.1 x.2.2 false).route 600 / 8 % 2 = 1 ∧ (irq x.1 x.2.1 x.2.2 false).route 600 / 128 % 32 = 1
      ∧ (irq x.1 x.2.1 x.2.2 false).route 600 / 4096 % 2048 = 3
      ∧ Nat.testBit (irq x.1 x.2.1 x.2.2 false).icu.en 600 = true ∧ Nat.testBit (irq x.1 x.2.1 x.2.2 false).icu.pend 600 = false
      ∧ ((irq x.1 x.2.1 x.2.2 false).fn 1).msixEnable = x.1 ∧ ((irq x.1 x.2.1 x.2.2 false).fn 1).msixMask = x.2.1
      ∧ (spGet MsixEntry.reset ((irq x.1 x.2.1 x.2.2 false).fn 1).msix 3).mask = x.2.2)
    ∧ (spGet MsixEntry.reset ((irq true false true true).fn 1).msix 3).pending = true ∧ (3 : Nat) < 128 := by decide +kernel
theorem test_icuInputEvent : shows (exec (.icuInputEvent 600) (irq true false false false)) (fun t => (t.out, Nat.testBit t.icu.pend 600)) = some ([.msix 1 3 0x1000 77], true)
    ∧ shows (exec (.icuInputEvent 600) (irq true false true false)) (fun t => (t.out, (spGet MsixEntry.reset (t.fn 1).msix 3).pending)) = some ([], true)
    ∧ shows (exec (.icuInputEvent 600) (irq false false false false)) (fun t => (t.out, t.icu.msixOff, t.icu.offSource)) = some ([], true, 600)
    ∧ shows (exec (.icuInputEvent 20) (irq true false false false)) (fun t => (t.out, t.icu.lines)) = some ([.coreLine 0 true], 1) := by decide +kernel
/-- A route to Compositor core 7; sense 5, which the ICU does not have, is not taken; source 256 is locked. -/
theorem test_icuRouteWrite : shows (exec (.icuRouteWrite 20 0x73) stE) (fun t => t.route 20) = some 0x73
    ∧ shows (exec (.icuRouteWrite 20 0x75) stE) (fun t => t.route 20) = some 2 ∧ shows (exec (.icuRouteWrite 256 0x73) stE) (fun t => t.route 256) = some 2
    ∧ routeTaken (2 + 8 + 128 * 1 + 4096 * 127) = true ∧ routeTaken (2 + 8 + 128 * 1 + 4096 * 128) = false := by decide +kernel
theorem test_msixMaskClear : shows (exec (.msixMaskClear 1 (some 3)) (irq true false true true)) (fun t => (t.out, (spGet MsixEntry.reset (t.fn 1).msix 3).pending)) = some ([.msix 1 3 0x1000 77], false)
    ∧ shows (exec (.msixMaskClear 1 none) (irq true true false true)) (fun t => t.out) = some [.msix 1 3 0x1000 77] := by decide +kernel

def stepSt : State := { impSt Serve.fresh 0 [] with imprints := ((impSt Serve.fresh 0 []).imprints.map fun x => (x.1, { x.2 with step := true })) }
theorem witness_stepped : stepSt.answers = true ∧ (stepSt.imp 0).step = true ∧ stepSt.opensHere 0 = true ∧ (stepSt.imp 0).serve.begun = false := by decide +kernel
theorem test_repro : shows (exec (.reproStep (.vf 0) 0 false) stepSt) (fun t => ((t.imp 0).step, (t.imp 0).serve.begun)) = some (false, true)
    ∧ shows (exec (.reproStep (.vf 1) 0 false) stepSt) (fun t => (t.imp 0).step) = some true
    ∧ shows (exec (.reproGo .pf 0) stepSt) (fun t => (t.imp 0).go) = some true := by decide +kernel

def early : State := { stE with boot := { stE.boot with released := false, ran := false } }
theorem witness_registers : stE.answers = true ∧ regOn .pf 0 64 true = some .glbId ∧ regOn .pf 0x80000 64 true = some .ednState ∧ regOn .pf 0 32 true = none ∧ regOn .i3c 0 64 true = none
    ∧ early.boot.released = false ∧ early.answers = false := by decide +kernel
theorem test_registerWrite : shows (exec (.registerWrite .pf 0x10 64 (7#64)) stE) (fun t => t.glb.scratch) = some (7#64)
    ∧ shows (exec (.registerWrite (.vf 0) 0x1000 64 (0x5FFF#64)) stE) (fun t => (t.fn 1).tabBase) = some (0x5000#64)
    ∧ shows (exec (.registerWrite .pf 0x10 32 (7#64)) stE) (fun t => t.glb.scratch) = some (0#64)
    ∧ shows (exec (.registerWrite .i3c 0x10 64 (7#64)) stE) (fun t => t.glb.scratch) = some (0#64)
    ∧ shows (exec (.registerWrite .pf 0xA0038 32 (77#64)) stE) (fun t => (spGet MsixEntry.reset (t.fn 0).msix 3).data) = some (77#32)
    ∧ shows (exec (.registerWrite (.config 1) 2 16 (0x8000#64)) stE) (fun t => (t.fn 1).msixEnable) = some true := by decide +kernel

/-! The smoke test of well-formedness: commands that pass, and for each check one that it refuses. -/
def headOf (kind vc : Nat) : PktHead := ⟨kind, 9, vc, false, 8, 1, 0, 1, 32, 0, 0, 0, 0, 0⟩
def arrival (h : PktHead) (b : PktBody) : Instr := .fabRequestArrival 0 ⟨h, b⟩
def answered (h : PktHead) (b : PktBody) : Instr := .fabResponseArrival 0 ⟨h, b⟩
def timed (t : ImpTiming) : Instr := .impressionCommit 0 [t]
def entryE (bs : List Byte) : Instr := .ringtabApply .pf 0 1 [⟨.ok bs, none, none⟩]
/-- An edition of one section, the ADAPTERS list of imprint 0, that names adapter 7. -/
def editionA (ids : List Nat) : Edition :=
  ⟨(edBytes 1 0 2 1 9).take 24 ++ leBytes 8 1 ++ leBytes 8 258 ++ List.replicate 88 0#8
    ++ (leBytes 2 0x14 ++ leBytes 6 0 ++ leBytes 4 256 ++ leBytes 4 2) ++ List.replicate 112 0#8 ++ leBytes 2 7, .minor ⟨none, some ids, true⟩⟩
theorem smoke_well_formed : ∀ c ∈ ([arrival (headOf 3 0) (.request storeReq), answered (headOf 4 1) (.response (respOf 0)), .helloReceive 0 greet, .linkPacketReceive 0 ⟨4095, true, [0, 0, 0, 0, 65535]⟩,
    .packetForward 0 (through 5), .ticketFetch 1 1023 none [nopRaw], timed ⟨2 ^ 32 - 1, 2 ^ 32 - 1, 1023, 2 ^ 18 - 1, false, false⟩, entryE (leBytes 64 0), .ringtabApply .pf 0 1 [⟨.failed, none, none⟩], .editionStage 0 (some (editionA [7])), .editionRecheckDone (some edition2) [editionA [7]], .msixMaskClear 0 (some 2047),
    .registerWrite .pf 0xFFFFF 8 0, .getCertificate 15 65535 65535, .avsSample [1], .sensorRead [(219, 105)], .monitorSample [(1871, 0)], .marginFit [(207, 1, 1)], .ideKm true (List.replicate 32 0#8)] : List Instr),
    Instr.wf c = true := by decide +kernel
theorem smoke_head : ∀ h ∈ [{ headOf 3 0 with kind := 16 }, { headOf 3 0 with lseq := 4096 }, { headOf 3 0 with vc := 3 }, { headOf 3 0 with dest := 2 ^ 18 }, { headOf 3 0 with source := 2 ^ 18 },
    { headOf 3 0 with imprint := 16 }, { headOf 3 0 with wire := 256 }, { headOf 3 0 with hops := 256 }, { headOf 3 0 with flow := 65536 }, { headOf 3 0 with tslice := 65536 },
    { headOf 3 0 with xdir := 3 }, { headOf 3 0 with ydir := 3 }, { headOf 3 0 with zdir := 3 }], (arrival h (.request storeReq)).wf = false := by decide +kernel
theorem smoke_packet_kind : ∀ c ∈ ([arrival (headOf 4 0) (.request storeReq), arrival (headOf 3 1) (.request storeReq), arrival (headOf 4 1) (.response (respOf 0)), answered (headOf 3 0) (.request storeReq),
    answered (headOf 4 0) (.response (respOf 0)), arrival (headOf 2 2) (.hello greet), .packetForward 0 ⟨headOf 2 2, .hello greet⟩, .packetForward 0 ⟨headOf 1 2, .link ⟨0, false, [0, 0, 0, 0, 0]⟩⟩] : List Instr),
    Instr.wf c = false := by decide +kernel
theorem smoke_bodies : ∀ c ∈ ([arrival (headOf 3 0) (.request { storeReq with op := 256 }), arrival (headOf 3 0) (.request { storeReq with length := 257 }), arrival (headOf 3 0) (.request { storeReq with data := [] }),
    arrival (headOf 3 0) (.request { addReq with data := [1#8] }), answered (headOf 4 1) (.response { respOf 0 with op := 256 }), answered (headOf 4 1) (.response { respOf 0 with length := 65536 }),
    answered (headOf 4 1) (.response (respOf 65536)), answered (headOf 4 1) (.response { respOf 0 with data := [1#8] }),
    .helloReceive 0 { greet with node := 2 ^ 18 }, .helloReceive 0 { greet with port := 256 }, .helloReceive 0 { greet with wireMax := 256 }, .helloReceive 0 { greet with wireMin := 256 },
    .helloReceive 0 { greet with role := 3 }, .helloReceive 0 { greet with edition := 2 ^ 32 }, .helloReceive 0 { greet with plane := 65536 }, .helloReceive 0 { greet with owner := 65536 },
    .linkPacketReceive 0 ⟨4096, false, [0, 0, 0, 0, 0]⟩, .linkPacketReceive 0 ⟨0, false, [0, 0, 0, 0]⟩, .linkPacketReceive 0 ⟨0, false, [0, 0, 0, 0, 65536]⟩] : List Instr), Instr.wf c = false := by decide +kernel
theorem smoke_host : ∀ c ∈ ([.impressionOpening 0 [(1024, none)], .starvationLimit 0 (2 ^ 52), .morgueLate 0 (2 ^ 52), .quoinRelease 0 0 0 (some (2 ^ 18)), .laggard 0 (2 ^ 18),
    timed ⟨2 ^ 32, 0, 0, 0, false, false⟩, timed ⟨0, 2 ^ 32, 0, 0, false, false⟩, timed ⟨0, 0, 1024, 0, false, false⟩, timed ⟨0, 0, 0, 2 ^ 18, false, false⟩, .impressionCommit 0 (List.replicate 9 ⟨0, 0, 0, 0, false, false⟩),
    .ticketFetch 0 1024 none [], .ticketFetch 0 0 none [⟨.ok [0#8], .ok [], .ok []⟩], .nopTicket 0 1024, .openReq 0 1024, .append 0 1024, .cancel 0 1024, .params 0 1024, .adapterLoad 0 1024, .adapterRetire 0 1024,
    .weightsLoad 0 1024, .query 0 1024, .fence 0 1024, .editionStage 1024 none, .editionCommit 1024, .editionRevert 1024, .ringtabApply .pf 0 1 [],
    entryE [], entryE (leBytes 63 0), entryE (leBytes 65 0), .msixMaskClear 0 (some 2048), .msixMaskClear 1 (some 128)] : List Instr), Instr.wf c = false := by decide +kernel
/-- An edition whose content is not what its bytes say. -/
theorem smoke_edition : (editionA [7]).dir = [⟨0x14, 0, 0, 256, 2⟩] ∧ Instr.wf (.editionStage 0 (some (editionA [8]))) = false
    ∧ Instr.wf (.editionRecheckDone (some (editionA [8])) []) = false ∧ Instr.wf (.editionRecheckDone none [editionA [8]]) = false := by decide +kernel
theorem smoke_rest : ∀ c ∈ ([.fabRetryTimeout 0 (2 ^ 18) 0, .operationLost 0 (2 ^ 18) 0, .generationHoldoffEnd 0 (2 ^ 18), .peerTimeout 0 (2 ^ 18), .recoverRoster 0 (2 ^ 18) 0 0 0 0, .recoverRoster 0 0 (2 ^ 18) 0 0 0,
    .avsSample [], .sensorRead [(220, 0)], .monitorSample [(1872, 0)], .spareMonitorSample [(1872, 0)], .marginFit [(208, 0, 0)], .getCertificate 16 0 0, .getCertificate 0 65536 0, .getCertificate 0 0 65536,
    .getMeasurements [] false 256, .keyUpdate 256, .getPqChain (2 ^ 32) 0, .getPqChain 0 (2 ^ 32), .registerWrite .pf (2 ^ 20) 32 0, .registerWrite .pf 0 24 0, .ideKm true []] : List Instr), Instr.wf c = false := by decide +kernel

/-! Codes and packets as bytes. -/

/-- A codeword of the outer code has every syndrome zero, and one with a wrong byte has not (R238). -/
theorem test_rsCode : (∀ k ∈ List.range 8, syndrome k ([1, 2, 3, 250, 17] ++ rsCheck 8 [1, 2, 3, 250, 17]) = 0)
    ∧ syndrome 0 ([1, 2, 3, 251, 17] ++ rsCheck 8 [1, 2, 3, 250, 17]) ≠ 0 ∧ gfMul 2 128 = 0x1D ∧ storedLine 60 = 64 ∧ codeAt 16 = 256 * 124 + 64 := by decide +kernel
/-- A STORE of 8 bytes is two granules and good as sent; with a byte changed it is not (R389, R427). -/
theorem test_packetBytes : (packetBytes (pktOf (.request storeReq))).length = 64 ∧ packetGood (packetBytes (pktOf (.request storeReq))) = true
    ∧ packetGood ((packetBytes (pktOf (.request storeReq))).set 20 0xFF#8) = false ∧ (packetBytes (pktOf (.request storeReq))).take 4 = [0x23#8, 9#8, 0#8, 0#8] := by decide +kernel

end Sys2Proof.Tests
end

section
/-!
The decoded byte count of a slug and the well-formedness of its header (R123, R124).
-/
namespace Sys2Proof.Machine

open Sys2Proof

/-- The codes of the scale planes (R123) are none of the element formats' (R38). -/
theorem Elem.ofCode_ne_scalePlane {c : Nat} {f : Elem} (hf : Elem.ofCode c = some f) : c ≠ 0x81 ∧ c ≠ 0x82 := by
  constructor <;> rintro rfl <;> cases hf

/-- An element of a scale plane is one byte. -/
theorem slugBytes_scalePlane {format : Nat} (n : Nat) (h : format = 0x81 ∨ format = 0x82) : slugBytes format n = some n := by
  obtain rfl | rfl := h <;> rfl

/-- A code of neither table gives no byte count. -/
theorem slugBytes_unknown {format : Nat} (n : Nat) (hf : Elem.ofCode format = none) (h1 : format ≠ 0x81) (h2 : format ≠ 0x82) :
    slugBytes format n = none := by
  simp [slugBytes, hf, h1, h2]

/-- TERNARY packs 64 elements in 13 bytes, so that its count is whole only at whole groups. -/
theorem slugBytes_ternary {format n d : Nat} (hf : Elem.ofCode format = some .ternary) :
    slugBytes format n = some d ↔ n % 64 = 0 ∧ 64 * d = 13 * n := by
  obtain ⟨h1, h2⟩ := Elem.ofCode_ne_scalePlane hf
  have hs : slugBytes format n = if n % 64 = 0 then some (13 * n / 64) else none := by
    simp [slugBytes, hf, h1, h2]
  rw [hs, Option.ite_none_right_eq_some, Option.some.injEq]
  omega

/-- Every other element format packs its bits without gaps. -/
theorem slugBytes_packed {format n d : Nat} {f : Elem} (hf : Elem.ofCode format = some f) (ht : f ≠ .ternary) :
    slugBytes format n = some d ↔ 8 * d = n * f.bits := by
  obtain ⟨h1, h2⟩ := Elem.ofCode_ne_scalePlane hf
  have hs : slugBytes format n = if n * f.bits % 8 = 0 then some (n * f.bits / 8) else none := by
    simp [slugBytes, hf, h1, h2]
  rw [hs, Option.ite_none_right_eq_some, Option.some.injEq]
  omega

/-- R124's byte count for every element format of R38. -/
theorem slugBytes_elem {format n d : Nat} {f : Elem} (hf : Elem.ofCode format = some f) :
    slugBytes format n = some d ↔ if f = .ternary then n % 64 = 0 ∧ 64 * d = 13 * n else 8 * d = n * f.bits := by
  split
  case isTrue ht => exact slugBytes_ternary (ht ▸ hf)
  case isFalse ht => exact slugBytes_packed hf ht

/-- The lengths that R124 allows a header whose slug decodes to `d` bytes. -/
def SlugHeader.LengthsFit (h : SlugHeader) (d : Nat) : Prop :=
  1 ≤ d ∧ d ≤ 65536 ∧ 1 ≤ h.enc ∧ h.enc ≤ d ∧ (h.font = 0 → h.enc = d)

/-- A header is well formed when its format gives a byte count that its lengths fit. -/
theorem SlugHeader.wellFormed_iff (h : SlugHeader) :
    h.wellFormed = true ↔ ∃ d, slugBytes h.format h.dec = some d ∧ h.LengthsFit d := by
  cases hd : slugBytes h.format h.dec with
  | none => simp [SlugHeader.wellFormed, hd]
  | some d => simp [SlugHeader.wellFormed, hd, SlugHeader.LengthsFit, and_assoc, imp_iff_not_or]

/-- Settles O8: each format's byte count, put into the lengths' condition. -/
theorem slugHeadersAreWellFormed : Obligations.SlugHeadersAreWellFormed := by
  unfold Obligations.SlugHeadersAreWellFormed
  refine fun h => ⟨fun f hf => ?elem, fun hp => ?scalePlane, fun hn h1 h2 => ?unknown⟩
  case elem => simp only [SlugHeader.wellFormed_iff, slugBytes_elem hf, SlugHeader.LengthsFit]
  case scalePlane => simp [SlugHeader.wellFormed_iff, slugBytes_scalePlane h.dec hp, SlugHeader.LengthsFit]
  case unknown => simp [← Bool.not_eq_true, SlugHeader.wellFormed_iff, slugBytes_unknown h.dec hn h1 h2]

end Sys2Proof.Machine
end

section
/-!
Coded T0 as its requesters meet it (R222, R230 to R232), and the one home of every T1 line (R235).
-/
namespace Sys2Proof.Machine

open Sys2Proof

/-! The words of a line and their flips. -/

theorem mem_lineWords {w l : Nat} : w ∈ lineWords l ↔ w / 32 = l := by
  simp only [lineWords, List.mem_map, List.mem_range]
  exact ⟨fun ⟨k, hk, he⟩ => by omega, fun h => ⟨w % 32, by omega, by omega⟩⟩

/-- A line whose codes are written afresh has no flips. -/
theorem freshLine_flipsAt_same (s : State) {w l : Nat} (h : w / 32 = l) : (s.freshLine l).flipsAt w = 0 := by
  have hnone : (s.freshLine l).t0.flips.find? (fun x => x.1 == w) = none := by
    simp only [State.freshLine, List.find?_eq_none, List.mem_filter, beq_iff_eq, bne_iff_ne]
    rintro x ⟨-, hx⟩ rfl
    exact hx h
  simp [State.flipsAt, hnone]

theorem freshLine_lineBad_same (s : State) (l : Nat) : (s.freshLine l).lineBad l = false := by
  simp only [State.lineBad, List.any_eq_false, decide_eq_true_eq, mem_lineWords]
  intro w hw
  rw [freshLine_flipsAt_same s hw]
  decide

/-! Writing T0 (R232). -/

/-- However a line is written, its codes are written afresh. -/
theorem prepLine_lineBad_same (s : State) (a n l : Nat) : (s.prepLine a n l).lineBad l = false := by
  unfold State.prepLine
  simp only
  split
  · exact freshLine_lineBad_same s l
  · split <;> exact freshLine_lineBad_same _ l

theorem foldl_prepLine_lineBad (a n m : Nat) (ls : List Nat) (s : State) (h : m ∈ ls ∨ s.lineBad m = false) :
    (ls.foldl (fun s l => s.prepLine a n l) s).lineBad m = false := by
  induction ls generalizing s with
  | nil => exact h.resolve_left List.not_mem_nil
  | cons l ls ih =>
    refine ih _ ?_
    rcases h with h | h
    · rcases List.mem_cons.1 h with rfl | h
      · exact .inr (prepLine_lineBad_same s a n m)
      · exact .inl h
    · exact .inr (prepLine_lineBad s a n l m h)

/-- No line that a write touches is uncorrectable after it. -/
theorem t0Write_lineBad (s : State) (a : Nat) (bs : List Byte) (l : Nat) (h : l ∈ linesOf a bs.length) :
    (s.t0Write a bs).lineBad l = false :=
  foldl_prepLine_lineBad a bs.length l _ s (.inl h)

/-- T0 reads back what was written, whatever flips its lines had. -/
theorem t0Read_t0Write (s : State) (a : Nat) (bs : List Byte) : ((s.t0Write a bs).t0Read a bs.length).1 = bs :=
  (t0Read_good _ a bs.length (t0Write_lineBad s a bs)).trans (t0Write_holds s a bs)

theorem t0Write_sameOutside_good (s : State) (a : Nat) (bs : List Byte) (h : ∀ l ∈ linesOf a bs.length, s.lineBad l = false) :
    s.sameOutside (s.t0Write a bs) a bs.length := by
  intro x hx
  unfold State.byteAt
  rw [t0Write_bytes_good s a bs h, spGet_memWrite, if_neg (by omega)]

/-! Reading one line of T0 (R231). -/

theorem linesOf_oneLine {a n : Nat} (hn : 0 < n) (h : a / 256 = (a + n - 1) / 256) : linesOf a n = [a / 256] := by
  simp [linesOf, hn.ne', ← h]

theorem t0Read_oneLine_state (s : State) {a n : Nat} (hn : 0 < n) (h : a / 256 = (a + n - 1) / 256) :
    (s.t0Read a n).2 = s.touchLine (a / 256) := by
  simp [State.t0Read, linesOf_oneLine hn h]

theorem t0Read_oneLine_bad (s : State) {a n : Nat} (hn : 0 < n) (h : a / 256 = (a + n - 1) / 256)
    (hb : s.lineBad (a / 256) = true) : (s.t0Read a n).1 = List.replicate n 0#8 := by
  refine List.eq_replicate_iff.2 ⟨t0Read_length s a n, ?_⟩
  have hline : ∀ i, i < n → (a + i) / 256 = a / 256 := by omega
  simp only [State.t0Read, linesOf_oneLine hn h, List.filter_cons_of_pos hb, List.filter_nil, List.isEmpty_cons,
    Bool.false_eq_true, if_false, List.mem_map]
  rintro _ ⟨x, hx, rfl⟩
  have hi : x.2 < n := by simpa using List.snd_lt_of_mem_zipIdx hx
  simp [hline x.2 hi]

theorem mem_badLine_reports (s : State) (l : Nat) :
    (⟨s.ownerImprint (256 * l), .t0 (256 * l), 0x0300, none⟩ : Report) ∈ (s.badLine l).reports :=
  mem_report _ _

theorem fixCount_corrected (s : State) (l c : Nat) :
    spGet 0 (s.fixCount l).t0.corrected c =
      if c = t0Core (256 * l) ∧ s.lineFixes l ≠ 0 then (spGet 0 s.t0.corrected c + 1) % 2 ^ 32 else spGet 0 s.t0.corrected c := by
  unfold State.fixCount
  by_cases hf : s.lineFixes l = 0
  · simp [hf]
  · by_cases hc : c = t0Core (256 * l)
    · simp [hf, hc, wrapAdd]
    · simp [hf, hc, spGet_spMod_ne]

/-- A line lies in one near slice. -/
theorem t0Core_line (a : Nat) : t0Core (256 * (a / 256)) = t0Core a := by
  rw [t0Core_eq, t0Core_eq]
  omega

/-! The home of a T1 line (R235). -/

/-- Two lines of one stripe on one channel are one line: the stripe is rotated as a whole, and the channels of a set differ. -/
theorem t1Map_stripe_injective {cs : List Nat} (hd : cs.Nodup) (hne : cs ≠ []) {l m : Nat} (hs : l / cs.length = m / cs.length)
    (hc : (t1Map cs l).1 = (t1Map cs m).1) : l = m := by
  have hn : 0 < cs.length := List.length_pos_iff.2 hne
  simp only [t1Map, hs, List.getD_eq_getElem _ _ (Nat.mod_lt _ hn), hd.getElem_inj_iff] at hc
  have hr : l % cs.length ≡ m % cs.length [MOD cs.length] := Nat.ModEq.add_right_cancel' _ hc
  rw [Nat.ModEq, Nat.mod_mod, Nat.mod_mod] at hr
  rw [← Nat.div_add_mod l cs.length, ← Nat.div_add_mod m cs.length, hs, hr]

theorem t1Map_injective {cs : List Nat} (hd : cs.Nodup) (hne : cs ≠ []) {l m : Nat} (h : t1Map cs l = t1Map cs m) : l = m :=
  t1Map_stripe_injective hd hne (congrArg Prod.snd h) (congrArg Prod.fst h)

/-- Settles O10: a write leaves the lines it touches with fresh codes, so that they read back; a read within one line touches that line
alone; the rotation of a T1 stripe is a bijection onto the channel set. -/
theorem memoriesReadWhatWasWritten : Obligations.MemoriesReadWhatWasWritten := by
  unfold Obligations.MemoriesReadWhatWasWritten
  refine ⟨fun s a bs => ⟨t0Read_t0Write s a bs, t0Write_sameOutside_good s a bs⟩,
    fun s a n hn hl => ⟨fun hb => ?uncorrectable, fun hg => ?good⟩,
    fun cs hd hne => ⟨fun l => t1Map_mem cs l hne, fun _ _ => t1Map_injective hd hne, ?stripe⟩⟩
  case uncorrectable =>
    refine ⟨t0Read_oneLine_bad s hn hl hb, ?_⟩
    rw [t0Read_oneLine_state s hn hl, State.touchLine, if_pos hb, Nat.mul_comm]
    exact mem_badLine_reports s _
  case good =>
    have ht : (s.t0Read a n).2 = s.fixCount (a / 256) := by simp [t0Read_oneLine_state s hn hl, State.touchLine, hg]
    refine ⟨t0Read_good s a n (by simpa [linesOf_oneLine hn hl] using hg), ?_, fun c => ?_⟩
    · rw [ht, fixCount_reports]
    · rw [ht, fixCount_corrected, t0Core_line]
  case stripe =>
    intro q r r' hr hr' hc
    have hs : (cs.length * q + r) / cs.length = (cs.length * q + r') / cs.length := by
      rw [Nat.mul_add_div (by omega), Nat.mul_add_div (by omega), Nat.div_eq_of_lt hr, Nat.div_eq_of_lt hr']
    exact Nat.add_left_cancel (t1Map_stripe_injective hd hne hs hc)

end Sys2Proof.Machine
end

section
/-!
The wire version of a link (R405) and the outcome of a HELLO that meets its plan entry (R403).
-/
namespace Sys2Proof.Machine

open Sys2Proof

/-- A version that both ends of a link allow: this end's range and the range that the neighbour's HELLO names (R405). -/
def CommonVersion (maxA minA : Nat) (h : Hello) (v : Nat) : Prop := minA ≤ v ∧ v ≤ maxA ∧ h.wireMin ≤ v ∧ v ≤ h.wireMax

/-- The lesser of the two maxima is the only candidate, and it is the answer when both ends allow it. -/
theorem wireOf_eq_some_iff {maxA minA : Nat} {h : Hello} {v : Nat} :
    wireOf maxA minA h = some v ↔ v = min maxA h.wireMax ∧ CommonVersion maxA minA h v := by
  simp only [wireOf, CommonVersion, Option.ite_none_right_eq_some, Option.some.injEq, Bool.and_eq_true, decide_eq_true_eq]
  omega

theorem CommonVersion.le_min_maxima {maxA minA v : Nat} {h : Hello} (hv : CommonVersion maxA minA h v) : v ≤ min maxA h.wireMax := by
  obtain ⟨-, hmaxA, -, hmaxB⟩ := hv
  exact Nat.le_min.2 ⟨hmaxA, hmaxB⟩

/-- If the ends have a common version at all, the lesser of the two maxima is one: it is no lower, so both minima lie below it. -/
theorem CommonVersion.min_maxima {maxA minA v : Nat} {h : Hello} (hv : CommonVersion maxA minA h v) :
    CommonVersion maxA minA h (min maxA h.wireMax) := by
  have hle := hv.le_min_maxima
  obtain ⟨hminA, -, hminB, -⟩ := hv
  exact ⟨hminA.trans hle, Nat.min_le_left .., hminB.trans hle, Nat.min_le_right ..⟩

theorem wireOf_eq_some_iff_greatest {maxA minA : Nat} {h : Hello} {v : Nat} :
    wireOf maxA minA h = some v ↔ CommonVersion maxA minA h v ∧ ∀ w, CommonVersion maxA minA h w → w ≤ v := by
  rw [wireOf_eq_some_iff]
  constructor
  · rintro ⟨rfl, hv⟩
    exact ⟨hv, fun _ hw => hw.le_min_maxima⟩
  · rintro ⟨hv, hmax⟩
    exact ⟨Nat.le_antisymm hv.le_min_maxima (hmax _ hv.min_maxima), hv⟩

theorem wireOf_isSome_iff {maxA minA : Nat} {h : Hello} : (wireOf maxA minA h).isSome ↔ ∃ v, CommonVersion maxA minA h v := by
  simp only [Option.isSome_iff_exists, wireOf_eq_some_iff]
  exact ⟨fun ⟨v, _, hv⟩ => ⟨v, hv⟩, fun ⟨_, hv⟩ => ⟨_, rfl, hv.min_maxima⟩⟩

/-- Once the neighbour is the planned one, only the wire version decides between UP and HELD (R403). -/
theorem outcome_of_planMatches {s : State} {p : Nat} {h : Hello} {t : Topology} {e : PortPlan} (ht : s.topology = some t)
    (he : t.ports[p]? = some e) (hu : e.need ≠ .unused) (hm : planMatches e p h = true) :
    s.outcome p h = if (wireOf s.wireMax s.wireMin h).isSome then (.up, 0, false) else (.held, 3, true) := by
  cases hw : wireOf s.wireMax s.wireMin h <;> simp [State.outcome, ht, he, hu, hm, hw]

/-- Settles O9: the lesser of the two maxima is the greatest common version, and a planned neighbour's outcome asks only whether there
is one. -/
theorem linksRunAtTheHighestCommonVersion : Obligations.LinksRunAtTheHighestCommonVersion := by
  unfold Obligations.LinksRunAtTheHighestCommonVersion
  refine fun maxA minA h => ⟨fun v => wireOf_eq_some_iff_greatest, fun v hv => (wireOf_eq_some_iff.1 hv).1, ?outcome⟩
  case outcome =>
    rintro s p t e ht he hu hm rfl rfl
    rw [outcome_of_planMatches ht he hu hm]
    exact ⟨fun hnone => if_neg (mt wireOf_isSome_iff.1 hnone), fun hsome => if_pos (wireOf_isSome_iff.2 hsome)⟩

end Sys2Proof.Machine
end

section
/-!
What the sequencer does with an engine command: when it waits, when it is handed over, and the sequencer's own commands
(R294, R297 to R299, R309, R313).
-/
namespace Sys2Proof.Machine

open Sys2Proof

/-! Commands and their opcodes. -/

/-- A command that a core's sequencer takes from its stream is the sequencer's wait and hand-over around some effect. -/
theorem exec_eq_command {c : Instr} {core job op : Nat} (h : engineOp c = some (core, job, op)) (s : State) :
    ∃ e, exec c s = s.command core job op e := by
  cases c with
  | seqNop | quoin | fontLoad | platenTile | aLoad | rollerTile | tLoad | attend | merge | element | reduce | sample | fontStats
  | routeLocal | routeMerge | impose | collate | sort | topk | imposerGather | imposerScatter | scan | segreduce | fontBuild
  | chaseCopy | chaseGather | chaseScatter | bcast | t1Read | t1Write | fabStore | fabLoad | fabAtomic | fabFlag | window | signal =>
    cases h
    simp only [exec, execSeqNop, execQuoin, execFontLoad, execPlatenTile, execALoad, execRollerTile, execTLoad, execAttend, execMerge,
      execElement, execReduce, execSample, execFontStats, execRouteLocal, execRouteMerge, execImpose, execCollate, execSort, execTopk,
      execImposerGather, execImposerScatter, execScan, execSegreduce, execFontBuild, execChaseCopy, execChaseGather, execChaseScatter,
      execBcast, execT1Read, execT1Write, execFabStore, execFabLoad, execFabAtomic, execFabFlag, execWindow, execSignal]
    exact ⟨_, rfl⟩
  | _ => cases h

theorem command_of_ready {s : State} {core job op i : Nat} {r : BitVec 512} (h : s.ready core job op = some (i, r))
    (e : Nat → BitVec 512 → State → State) : s.command core job op e
      = .next ((e i r (s.handOver core job r)).stampReports s.reports.length (s.readerOf core job i r)) := by
  simp [State.command, h]

/-- A ready command has its effect after the hand-over; beyond that only the reports change, which take the reader's name (R254). -/
theorem command_next {s : State} {core job op i : Nat} {r : BitVec 512} (h : s.ready core job op = some (i, r))
    (e : Nat → BitVec 512 → State → State) : ∃ t, s.command core job op e = .next t
      ∧ OnlyT0 (e i r (s.handOver core job r)) t ∧ t.t0 = (e i r (s.handOver core job r)).t0 :=
  ⟨_, command_of_ready h e, rfl, rfl⟩

/-- A command that meets no damage has no reports to put its name to. -/
theorem stampReports_eq_self {s t : State} (h : t.reports = s.reports) (x : Reader) : t.stampReports s.reports.length x = t := by
  simp [State.stampReports, nub, ← h]

/-- Settles O12: every engine command waits for its record. -/
theorem engineCommandWaitsUntilReady : Obligations.EngineCommandWaitsUntilReady := by
  unfold Obligations.EngineCommandWaitsUntilReady
  intro c core job op s hc hr
  obtain ⟨e, he⟩ := exec_eq_command hc s
  simp [he, State.command, hr]

/-! The hand-over (R294, R297). -/

theorem handOver_core_ne (s : State) (core job : Nat) (r : BitVec 512) {k : Nat} (h : k ≠ core) :
    (s.handOver core job r).core k = s.core k := State.core_modCore_ne _ _ _ _ h

theorem handOver_inflight (s : State) (core job : Nat) (r : BitVec 512) :
    ((s.handOver core job r).core core).inflight = (s.core core).inflight ++ flightOf job r := by
  simp only [State.handOver, State.core_modCore_same, flightOf]
  rfl

theorem handOver_streams (s : State) (core job : Nat) (r : BitVec 512) :
    ((s.handOver core job r).core core).streams = (s.core core).streams := by
  simp [State.handOver]

theorem handOver_fonts (s : State) (core job : Nat) (r : BitVec 512) :
    ((s.handOver core job r).core core).fonts = (s.core core).fonts := by
  simp [State.handOver]

theorem handOver_job (s : State) (core job : Nat) (r : BitVec 512) (j : Nat) :
    ((s.handOver core job r).core core).job j = if j = job
      then { (s.core core).job job with pos := (s.core core).nextPos job, lastIssue := (s.core core).issues }
      else (s.core core).job j := by
  simp only [State.handOver, State.core_modCore_same]
  exact Core.job_modJob (s.core core) job j fun x =>
    { x with pos := if x.pos + 1 < ((s.core core).stream job).length then x.pos + 1 else 0, lastIssue := (s.core core).issues }

/-- The hand-over leaves the sync counters alone: only a completion or a SIGNAL touches them (R298). -/
theorem handOver_ctr (s : State) (core job : Nat) (r : BitVec 512) (c j k : Nat) :
    ((s.handOver core job r).core c).ctr j k = (s.core c).ctr j k := by
  by_cases hc : c = core
  · subst hc
    simp only [Core.ctr, handOver_job]
    split <;> simp_all
  · rw [handOver_core_ne _ _ _ _ hc]

/-! What the opcodes' own changes leave of a core's sequencer. -/

/-- Where the sequencer of a core stands: its queues, streams and positions. -/
def Core.SameSequence (x y : Core) : Prop := y.inflight = x.inflight ∧ y.streams = x.streams ∧ ∀ j, (y.job j).pos = (x.job j).pos

theorem Core.sameBut.sameSequence {op : Nat} {x y : Core} (h : x.sameBut op y) (hop : ¬ (op = 0x00 ∨ op = 0x01 ∨ op = 0x6B)) :
    x.SameSequence y := by
  unfold Core.sameBut at h
  simp only [hop, if_false] at h
  have : y.inflight = x.inflight ∧ y.streams = x.streams ∧ y.jobs = x.jobs := by
    repeat' split at h
    all_goals rw [h]; exact ⟨rfl, rfl, rfl⟩
  obtain ⟨hf, hs, hj⟩ := this
  exact ⟨hf, hs, fun j => by rw [Core.job, hj]; rfl⟩

theorem Core.modJob_sameSequence (x : Core) (j : Nat) (f : CoreJob → CoreJob) (hf : ∀ y, (f y).pos = y.pos) :
    x.SameSequence (x.modJob j f) := by
  refine ⟨rfl, rfl, fun k => ?_⟩
  rw [Core.job_modJob]
  split
  · simp [*]
  · rfl

theorem Core.modJob_sameBut_jobs (x : Core) (j : Nat) (f : CoreJob → CoreJob) {op : Nat} (hop : op = 0x00 ∨ op = 0x01 ∨ op = 0x6B) :
    x.sameBut op (x.modJob j f) := by
  rcases hop with rfl | rfl | rfl <;> rfl

theorem Core.signalCtr_sameSequence (x : Core) (j k : Nat) : x.SameSequence (x.signalCtr j k) :=
  Core.modJob_sameSequence x j _ fun _ => rfl

/-! The sequencer's own commands. -/

theorem exec_seqNop {core : Fin 192} {job : Fin 8} {s : State} {i : Nat} {r : BitVec 512}
    (h : s.ready core.val job.val 0x00 = some (i, r)) : exec (.seqNop core job) s
      = .next (if (cmdHead r).sigEn then (s.handOver core.val job.val r).modCore core.val fun c => c.signalCtr job.val (cmdHead r).sigCtr
          else s.handOver core.val job.val r) := by
  simp only [exec, execSeqNop, command_of_ready h]
  split <;> exact congrArg _ (stampReports_eq_self rfl _)

theorem exec_quoin {core : Fin 192} {job : Fin 8} {s : State} {i : Nat} {r : BitVec 512}
    (h : s.ready core.val job.val 0x01 = some (i, r)) : exec (.quoin core job) s
      = .next ((s.handOver core.val job.val r).modCore core.val fun c =>
          c.modJob job.val fun x => { x with atQuoin := some (recBytes r 8 9) }) := by
  simp only [exec, execQuoin, command_of_ready h]
  exact congrArg _ (stampReports_eq_self rfl _)

/-- The core and the counter that a SIGNAL names (R309). -/
def signalTarget (r : BitVec 512) : Nat := bitsOf (chaseBody r).dst 33 26

/-- What a SIGNAL does beyond its hand-over. -/
def State.signalled (s : State) (job i : Nat) (r : BitVec 512) : State :=
  if s.imprintOf (signalTarget r) = some i then
    s.modCore (signalTarget r) fun c => c.signalCtr job (bitsOf (chaseBody r).dst 4 0)
  else s

theorem signalled_eq (s : State) (job i : Nat) (r : BitVec 512) :
    s.signalled job i r = { s with cores := (s.signalled job i r).cores } := by
  unfold State.signalled
  split <;> rfl

theorem exec_signal {core : Fin 192} {job : Fin 8} {s : State} {i : Nat} {r : BitVec 512}
    (h : s.ready core.val job.val 0x6B = some (i, r)) : exec (.signal core job) s
      = .next ((s.handOver core.val job.val r).signalled job.val i r) := by
  simp only [exec, execSignal, command_of_ready h]
  refine congrArg Host.Outcome.next (stampReports_eq_self (t := (s.handOver core.val job.val r).signalled job.val i r) ?_ _)
  rw [signalled_eq]
  rfl

theorem signalled_core (s : State) (job i : Nat) (r : BitVec 512) (k : Nat) : (s.signalled job i r).core k =
    if k = signalTarget r ∧ s.imprintOf k = some i then (s.core k).signalCtr job (bitsOf (chaseBody r).dst 4 0) else s.core k := by
  unfold State.signalled
  by_cases hk : k = signalTarget r
  · subst hk
    split <;> simp [*]
  · rw [if_neg (fun h : k = signalTarget r ∧ _ => hk h.1)]
    split
    · exact State.core_modCore_ne _ _ _ _ hk
    · rfl

theorem signalled_ctr (s : State) (job i : Nat) (r : BitVec 512) (c k : Nat) : ((s.signalled job i r).core c).ctr job k =
    if c = signalTarget r ∧ k = bitsOf (chaseBody r).dst 4 0 ∧ s.imprintOf c = some i then ((s.core c).ctr job k + 1) % 65536
    else (s.core c).ctr job k := by
  rw [signalled_core]
  by_cases hc : c = signalTarget r ∧ s.imprintOf c = some i
  · rw [if_pos hc, Core.ctr_signalCtr]
    by_cases hk : k = bitsOf (chaseBody r).dst 4 0 <;> simp [hk, hc.1 ▸ hc.2, hc.1]
  · rw [if_neg hc, if_neg (fun h => hc ⟨h.1, h.2.2⟩)]

/-- At a quoin the sequencer hands nothing over (R313). -/
theorem ready_of_atQuoin {s : State} {core job q : Nat} (h : ((s.core core).job job).atQuoin = some q) (op : Nat) :
    s.ready core job op = none := by
  cases hr : s.ready core job op with
  | none => rfl
  | some x =>
    obtain ⟨-, -, -, -, -, -, hq, -⟩ := ready_spec (i := x.1) (r := x.2) hr
    simp [hq] at h

/-- Settles O14: each of the three is its hand-over and one change of a job's context. -/
theorem sequencerCommandResults : Obligations.SequencerCommandResults := by
  unfold Obligations.SequencerCommandResults
  intro core job s i r
  refine ⟨fun hr => ?nop, fun hr => ?quoin, fun hr => ?signal⟩
  case nop =>
    refine ⟨_, exec_seqNop hr, ?_⟩
    split
    · rename_i hs
      refine ⟨rfl, fun c hc => ?_, ?_, fun k => ?_⟩
      · rw [State.core_modCore_ne _ _ _ _ hc, handOver_core_ne _ _ _ _ hc]
      · rw [State.core_modCore_same, (Core.signalCtr_sameSequence _ _ _).2.2, handOver_job, if_pos rfl]
      · rw [State.core_modCore_same, Core.ctr_signalCtr]
        simp only [handOver_ctr, hs, true_and]
        split <;> simp_all
    · rename_i hs
      exact ⟨rfl, fun c hc => handOver_core_ne _ _ _ _ hc, by rw [handOver_job, if_pos rfl], fun k => by simp [handOver_ctr, hs]⟩
  case quoin =>
    refine ⟨_, exec_quoin hr, rfl, fun c hc => ?_, ?_, ready_of_atQuoin (q := recBytes r 8 9) ?_⟩
    · rw [State.core_modCore_ne _ _ _ _ hc, handOver_core_ne _ _ _ _ hc]
    · simp
    · simp
  case signal =>
    refine ⟨_, exec_signal hr, ?_, fun c k => ?_⟩
    · rw [signalled_eq]
      rfl
    · rw [signalled_ctr]
      simp only [handOver_ctr]
      rfl

/-! Engine commands on the package (R29, R222 to R225, R234). -/

/-- Beyond its hand-over, every command on the package but SIGNAL is an effect of its own core and imprint. -/
theorem engineOp_effCommand {c : Instr} {core job op : Nat} (h : engineOp c = some (core, job, op)) (hp : onPackage op = true)
    (hs : op ≠ 0x6B) (s : State) : EffCommand core job op (exec c s) s := by
  cases c with
  | seqNop k j => cases h; exact eff_seqNop k j s
  | quoin k j => cases h; exact eff_quoin k j s
  | fontLoad k j => cases h; exact eff_fontLoad k j s
  | platenTile k j => cases h; exact eff_platenTile k j s
  | aLoad k j => cases h; exact eff_aLoad k j s
  | rollerTile k j => cases h; exact eff_rollerTile k j s
  | tLoad k j => cases h; exact eff_tLoad k j s
  | attend k j => cases h; exact eff_attend k j s
  | merge k j => cases h; exact eff_merge k j s
  | element k j => cases h; exact eff_element k j s
  | reduce k j => cases h; exact eff_reduce k j s
  | sample k j => cases h; exact eff_sample k j s
  | fontStats k j => cases h; exact eff_fontStats k j s
  | routeLocal k j => cases h; exact eff_routeLocal k j s
  | routeMerge k j => cases h; exact eff_routeMerge k j s
  | impose k j => cases h; exact eff_impose k j s
  | collate k j => cases h; exact eff_collate k j s
  | sort k j => cases h; exact eff_sort k j s
  | topk k j => cases h; exact eff_topk k j s
  | imposerGather k j => cases h; exact eff_imposerGather k j s
  | imposerScatter k j => cases h; exact eff_imposerScatter k j s
  | scan k j => cases h; exact eff_scan k j s
  | segreduce k j => cases h; exact eff_segreduce k j s
  | fontBuild k j => cases h; exact eff_fontBuild k j s
  | chaseCopy k j => cases h; exact eff_chaseCopy k j s
  | chaseGather k j => cases h; exact eff_chaseGather k j s
  | chaseScatter k j => cases h; exact eff_chaseScatter k j s
  | bcast k j => cases h; exact eff_bcast k j s
  | t1Read k j => cases h; exact eff_t1Read k j s
  | t1Write k j => cases h; exact eff_t1Write k j s
  | fabStore | fabLoad | fabAtomic | fabFlag | window => cases h; exact absurd hp (by decide)
  | signal => cases h; exact absurd rfl hs
  | _ => cases h

theorem engineOp_signal {c : Instr} {core job : Nat} (h : engineOp c = some (core, job, 0x6B)) :
    ∃ (k : Fin 192) (j : Fin 8), c = .signal k j ∧ core = k.val ∧ job = j.val := by
  cases c with
  | signal k j => simp only [engineOp, Option.some.injEq, Prod.mk.injEq] at h; exact ⟨k, j, rfl, h.1.symm, h.2.1.symm⟩
  | _ => simp [engineOp] at h

/-- A core that an imprint holds is one of its configuration's. -/
theorem mem_cores_of_imprintOf {s : State} {c i : Nat} {g : ImprintCfg} (h : s.imprintOf c = some i) (hg : s.cfg i = some g) :
    c ∈ g.cores := by
  have hc := List.find?_some h
  have hg' : (s.imp i).cfg = some g := hg
  simpa [hg'] using hc

theorem channelSet_eq {s : State} {i : Nat} {g : ImprintCfg} (hg : s.cfg i = some g) : s.channelSet i = g.channels := by
  have hg' : (s.imp i).cfg = some g := hg
  simp [State.channelSet, hg']

/-- Settles O6: an effect reaches no other imprint's record, slices or channels, and no core but its own, which its imprint holds; a
SIGNAL reaches only cores of its own imprint. -/
theorem engineCommandsLeaveOtherImprintsAlone : Obligations.EngineCommandsLeaveOtherImprintsAlone := by
  unfold Obligations.EngineCommandsLeaveOtherImprintsAlone
  intro c core job op i r g s hc hp hr hg
  have hcore : core ∈ g.cores := mem_cores_of_imprintOf (ready_spec hr).1 hg
  have hhand : ∀ k, ¬ k ∈ g.cores → (s.handOver core job r).core k = s.core k :=
    fun k hk => handOver_core_ne _ _ _ _ fun e => hk (e ▸ hcore)
  by_cases hs : op = 0x6B
  · subst hs
    obtain ⟨k, j, rfl, rfl, rfl⟩ := engineOp_signal hc
    have hrest := signalled_eq (s.handOver k.val j.val r) j.val i r
    refine ⟨_, exec_signal hr, fun n _ => by rw [hrest]; rfl, fun n hn => ?_, fun x _ _ => by rw [hrest]; rfl,
      fun ch _ => by rw [hrest]; rfl⟩
    rw [signalled_core, if_neg, hhand n hn]
    rintro ⟨-, hi⟩
    exact hn (mem_cores_of_imprintOf hi hg)
  · obtain ⟨t, ht, he⟩ := engineOp_effCommand hc hp hs s i r hr
    refine ⟨t, ht, he.others, fun k hk => ?_, he.bytes g hg, fun ch hch => he.chs ch ?_⟩
    · rw [he.cores k fun e => hk (e ▸ hcore), hhand k hk]
    · rwa [channelSet_eq (s := s.handOver core job r) hg]

theorem signalled_sameSequence (s : State) (job i : Nat) (r : BitVec 512) (k : Nat) :
    (s.core k).SameSequence ((s.signalled job i r).core k) := by
  rw [signalled_core]
  split
  · exact Core.signalCtr_sameSequence _ _ _
  · exact ⟨rfl, rfl, fun _ => rfl⟩

/-- A command that leaves its core's sequence as the hand-over put it stands handed over. -/
theorem handOver_sameSequence {s : State} {core job : Nat} {r : BitVec 512} {x : Core}
    (h : ((s.handOver core job r).core core).SameSequence x) :
    (x.job job).pos = (s.core core).nextPos job ∧ x.inflight = (s.core core).inflight ++ flightOf job r
      ∧ (∀ j, x.stream j = (s.core core).stream j) ∧ ∀ j, j ≠ job → (x.job j).pos = ((s.core core).job j).pos := by
  obtain ⟨hf, hs, hp⟩ := h
  refine ⟨?_, hf.trans (handOver_inflight _ _ _ _), fun j => ?_, fun j hj => ?_⟩
  · rw [hp, handOver_job, if_pos rfl]
  · rw [Core.stream, hs, handOver_streams]; rfl
  · rw [hp, handOver_job, if_neg hj]

/-- NOP's signal and QUOIN's mark leave the positions as the hand-over put them. -/
theorem engineOp_sequencer_sameSequence {c : Instr} {core job op i : Nat} {r : BitVec 512} {s t : State}
    (h : engineOp c = some (core, job, op)) (hop : op = 0x00 ∨ op = 0x01) (hr : s.ready core job op = some (i, r))
    (ht : exec c s = .next t) : ((s.handOver core job r).core core).SameSequence (t.core core) := by
  cases c with
  | seqNop k j =>
    cases h
    rw [exec_seqNop hr] at ht
    cases ht
    split
    · rw [State.core_modCore_same]
      exact Core.signalCtr_sameSequence _ _ _
    · exact ⟨rfl, rfl, fun _ => rfl⟩
  | quoin k j =>
    cases h
    rw [exec_quoin hr] at ht
    cases ht
    rw [State.core_modCore_same]
    exact Core.modJob_sameSequence _ _ _ fun _ => rfl
  | _ => rcases hop with rfl | rfl <;> simp [engineOp] at h

/-- Settles O13: an effect and a SIGNAL leave the sequence of their core as the hand-over put it. -/
theorem engineCommandIsHandedOver : Obligations.EngineCommandIsHandedOver := by
  unfold Obligations.EngineCommandIsHandedOver
  intro c core job op i r s hc hp hr
  by_cases hs : op = 0x6B
  · subst hs
    obtain ⟨k, j, rfl, rfl, rfl⟩ := engineOp_signal hc
    refine ⟨_, exec_signal hr, ?_⟩
    obtain ⟨hpos, hfl, hst, hne⟩ := handOver_sameSequence
      (signalled_sameSequence (s.handOver k.val j.val r) j.val i r k.val)
    refine ⟨hpos, hfl, hst, hne, ?_, fun n hn => ?_, ?_, ?_⟩
    · rw [signalled_core]
      split
      · exact Core.modJob_sameBut_jobs _ _ _ (by simp)
      · exact Core.sameBut_refl _ _
    · rw [signalled_core, handOver_core_ne _ _ _ _ hn]
      split
      · refine ⟨rfl, fun h => absurd rfl h, fun m => ?_⟩
        rw [Core.signalCtr, Core.job_modJob]
        split
        · subst m; rfl
        · rfl
      · exact ⟨rfl, fun _ => rfl, fun _ => rfl⟩
    · rw [signalled_eq]
      exact Imprint.sameBut_refl _
    · rw [signalled_eq]
      rfl
  · obtain ⟨t, ht, he⟩ := engineOp_effCommand hc hp hs s i r hr
    have hseq : ((s.handOver core job r).core core).SameSequence (t.core core) := by
      by_cases hseqOp : op = 0x00 ∨ op = 0x01
      · exact engineOp_sequencer_sameSequence hc hseqOp hr ht
      · exact he.core.sameSequence (by tauto)
    obtain ⟨hpos, hfl, hst, hne⟩ := handOver_sameSequence hseq
    refine ⟨t, ht, hpos, hfl, hst, hne, he.core, fun k hk => ?_, he.own, ?_⟩
    · have hkeep : t.core k = s.core k := (he.cores k hk).trans (handOver_core_ne _ _ _ _ hk)
      exact ⟨by rw [hkeep], fun _ => hkeep, fun j => by rw [hkeep]⟩
    · rw [he.rest]
      rfl

/-! FONT_LOAD (R299, R630). -/

/-- The register that a FONT_LOAD names. -/
def fontRegister (r : BitVec 512) : Nat := 16 * (recBytes r 8 8 % 4) + recBytes r 9 9 % 16

/-- Where the image that a FONT_LOAD reads stands. -/
def fontAddr (r : BitVec 512) : Nat := recBytes r 16 23 % 2 ^ 34

/-- The font that a core of an imprint reads at an address: none where a line of its image is uncorrectable. -/
def State.fontRead (s : State) (i a : Nat) : Option Font :=
  if (linesOf a 512).any s.lineBad then none else Font.ofImage (s.coreRead i a 512).1

theorem fontRead_readable {s : State} {i a : Nat} (h : s.readable i a 512 = true) :
    s.fontRead i a = if (linesOf a 512).any s.lineBad then none else Font.ofImage (memRead s.t0.bytes a 512) := by
  unfold State.fontRead
  split
  · rfl
  · rename_i hb
    simp only [State.readable, Bool.and_eq_true] at h
    have hgood : ∀ l ∈ linesOf a 512, s.lineBad l = false := by simpa using hb
    rw [State.coreRead, if_neg (by decide), if_pos h.2, t0Read_good s a 512 hgood]

theorem exec_fontLoad {core : Fin 192} {job : Fin 8} {s : State} {i : Nat} {r : BitVec 512}
    (h : s.ready core.val job.val 0x02 = some (i, r)) :
    let u := s.handOver core.val job.val r
    ∃ t, exec (.fontLoad core job) s = .next t ∧ t.t0.bytes = s.t0.bytes ∧ t.cores = (u.modCore core.val fun c =>
      { c with fonts := spPut none c.fonts (fontRegister r) (u.fontRead i (fontAddr r)) }).cores := by
  intro u
  show ∃ t, execFontLoad core job s = .next t ∧ _
  unfold execFontLoad
  refine (command_next h _).imp fun t ⟨ht, ho, h0⟩ => ⟨ht, ?_⟩
  rw [h0, ho.cores]
  extract_lets lane reg a damaged x font s1 id
  have hbytes : s1.t0.bytes = s.t0.bytes := coreRead_bytes u i a 512
  have hcores : s1.cores = (u.modCore core.val fun c => { c with fonts := spPut none c.fonts (fontRegister r) font }).cores := by
    have hx : x.2.2.cores = u.cores := (coreRead_only u i a 512).cores
    simp only [s1, State.modCore, hx]
    rfl
  split
  · exact ⟨(congrArg _ (report_t0 _ _)).trans hbytes, (report_only _ _).cores.trans hcores⟩
  · exact ⟨hbytes, hcores⟩

/-- Settles O15: the read delivers what stands in memory where no line of the image is uncorrectable. -/
theorem fontLoadFillsItsRegister : Obligations.FontLoadFillsItsRegister := by
  unfold Obligations.FontLoadFillsItsRegister
  intro core job s i r hr hread
  obtain ⟨t, ht, hbytes, hcores⟩ := exec_fontLoad hr
  have hcore : ∀ c, t.core c = ((s.handOver core.val job.val r).modCore core.val fun c =>
      { c with fonts := spPut none c.fonts (fontRegister r) ((s.handOver core.val job.val r).fontRead i (fontAddr r)) }).core c :=
    fun c => congrArg (spGet Core.empty · c) hcores
  refine ⟨t, ht, ?_, fun k hk => ?_, fun c hc => ?_, fun x => by simp [State.byteAt, hbytes]⟩
  · rw [hcore, State.core_modCore_same]
    exact (spGet_spPut_same _ _ _ _).trans (fontRead_readable (s := s.handOver core.val job.val r) hread)
  · rw [hcore, State.core_modCore_same]
    exact (spGet_spPut_ne _ _ _ _ _ hk).trans (by rw [handOver_fonts])
  · rw [hcore, State.core_modCore_ne _ _ _ _ hc, handOver_core_ne _ _ _ _ hc]

/-! Completion (R102, R298, R321). -/

theorem exec_commandComplete {core : Fin 192} {job : Fin 8} {e : Engine} {f : Flight} {s : State} (hst : s.stopped = false)
    (hl : s.issueLevel ≠ 0) (hs : (s.core core.val).serving e (engineKey e) = some job.val)
    (hf : (s.core core.val).inflight.find? (fun f => f.engine == e && f.job == job.val) = some f)
    (ho : (s.core core.val).overprintHeld e job.val = false) :
    exec (.commandComplete core job e) s = .next (s.modCore core.val fun c =>
      let c := { c with inflight := dropFirst (fun f => f.engine == e && f.job == job.val) c.inflight,
                        served := spPut 7 c.served (engineKey e) job.val }
      match f.sig with
      | some k => c.signalCtr job.val k
      | none => c) := by
  simp [exec, execCommandComplete, hst, hl, hs, hf, ho] <;> rfl

/-- Settles O16: a completion takes the flight off its queue and signals at most the one counter it names. -/
theorem completionSignalsItsCounter : Obligations.CompletionSignalsItsCounter := by
  unfold Obligations.CompletionSignalsItsCounter
  intro core job e f s hst hl hs hf
  refine ⟨fun ho => by simp [exec, execCommandComplete, ho], fun ho => ⟨_, exec_commandComplete hst hl hs hf ho, rfl, fun c hc =>
    State.core_modCore_ne _ _ _ _ hc, ?_⟩⟩
  rw [State.core_modCore_same]
  cases hsig : f.sig with
  | none => exact ⟨rfl, fun k => by simp [Core.ctr, Core.job], fun j _ => rfl⟩
  | some n =>
    refine ⟨rfl, fun k => ?_, fun j hj => Core.job_modJob_ne _ _ _ _ hj⟩
    rw [Core.ctr_signalCtr]
    simp only [Core.ctr, Core.job, true_and, Option.some.injEq, eq_comm (a := n)]
    split <;> simp_all

/-! Stable sorting. -/

theorem insertBy_perm {α : Type} (lt : α → α → Bool) (x : α) (xs : List α) : (insertBy lt x xs).Perm (x :: xs) := by
  induction xs with
  | nil => rfl
  | cons y ys ih =>
    unfold insertBy
    split
    · rfl
    · exact (ih.cons y).trans (List.Perm.swap x y ys)

theorem sortBy_perm {α : Type} (lt : α → α → Bool) (xs : List α) : (sortBy lt xs).Perm xs := by
  have key : ∀ (ys acc : List α), (ys.foldl (fun acc x => insertBy lt x acc) acc).Perm (acc ++ ys) := by
    intro ys
    induction ys with
    | nil => intro acc; simp
    | cons y ys ih =>
      intro acc
      refine (ih _).trans (((insertBy_perm lt y acc).append_right ys).trans ?_)
      exact List.perm_middle.symm
  simpa [sortBy] using key xs []

/-! Job switches (R322, R323). -/

theorem writeReplies_only (i : Nat) (rs : List ReplySlot) (s : State) : OnlyT0 s (s.writeReplies i rs).2 := by
  induction rs generalizing s with
  | nil => exact OnlyT0.refl s
  | cons r rs ih =>
    unfold State.writeReplies
    split
    · split
      · exact (coreWrite_only s i _ _).trans (ih _)
      · exact ih s
    · exact ih s

/-- The context that a switch to job `j` takes the place of is parked: where two are held, the least recently issuing one (R322). -/
def State.parkOldest (s : State) (core j : Nat) : State :=
  if ((s.core core).jobs.filter fun x => x.2.held).length < 2 then s else
    match (s.core core).oldestHeld j with
    | none => s
    | some o => s.modCore core fun c => c.modJob o fun x =>
        { x with held := false, replies := x.replies.map fun r => { r with parked := true } }

theorem parkOldest_eq (s : State) (core j : Nat) : s.parkOldest core j = { s with cores := (s.parkOldest core j).cores } := by
  unfold State.parkOldest
  repeat' split
  all_goals rfl

theorem parkOldest_core_ne (s : State) {core c : Nat} (j : Nat) (h : c ≠ core) : (s.parkOldest core j).core c = s.core c := by
  unfold State.parkOldest
  split
  · rfl
  · split
    · rfl
    · exact State.core_modCore_ne _ _ _ _ h

theorem oldestHeld_ne {c : Core} {j o : Nat} (h : c.oldestHeld j = some o) : o ≠ j := by
  obtain ⟨x, hx, rfl⟩ := Option.map_eq_some_iff.1 h
  have := (sortBy_perm _ _).mem_iff.1 (List.mem_of_mem_head? hx)
  simp only [List.mem_filter, Bool.and_eq_true, bne_iff_ne] at this
  exact this.2.1

theorem parkOldest_job (s : State) (core j : Nat) : ((s.parkOldest core j).core core).job j = (s.core core).job j := by
  unfold State.parkOldest
  split
  · rfl
  · split
    · rfl
    · rename_i o ho
      rw [State.core_modCore_same, Core.job_modJob_ne _ _ _ _ (oldestHeld_ne ho).symm]

theorem parkOldest_oldest {s : State} {core j o : Nat} (hn : 2 ≤ ((s.core core).jobs.filter fun x => x.2.held).length)
    (ho : (s.core core).oldestHeld j = some o) :
    (((s.parkOldest core j).core core).job o).held = false
      ∧ (((s.parkOldest core j).core core).job o).replies.all (·.parked) = true := by
  simp [State.parkOldest, Nat.not_lt.2 hn, ho]

theorem exec_jobSwitch {core : Fin 192} {job : Fin 8} {s : State} {i : Nat} (hi : s.imprintOf core.val = some i)
    (hst : s.stopped = false) (hl : s.issueLevel ≠ 0) (hc : (s.core core.val).stopped = false)
    (hstr : ((s.core core.val).stream job.val).isEmpty = false) (hh : (s.core core.val).heldJob job.val = false)
    (hq : ((s.core core.val).job job.val).atQuoin = none) :
    let w := (s.parkOldest core.val job.val).writeReplies i ((s.core core.val).job job.val).replies
    exec (.jobSwitch core job) s = .next (w.2.modCore core.val fun c => c.modJob job.val fun x =>
      { x with held := true, replies := w.1.map fun r => { r with parked := false } }) := by
  simp only [exec, execJobSwitch, hi, hst, hl, hc, hstr, hh, hq, State.parkOldest]
  rfl

/-- Settles O17: the place is taken from the context parked, and the rest is the writing of replies. -/
theorem jobSwitchRestoresTheReadyContext : Obligations.JobSwitchRestoresTheReadyContext := by
  unfold Obligations.JobSwitchRestoresTheReadyContext
  intro core job s i hi hst hl hc hstr hh hq
  have hpark := parkOldest_eq s core.val job.val
  have hw := writeReplies_only i ((s.core core.val).job job.val).replies (s.parkOldest core.val job.val)
  refine ⟨_, exec_jobSwitch hi hst hl hc hstr hh hq, ?_, ?_, ?_, ?_, fun o hn ho => ?_, fun c hne => ?_⟩
  · rw [hw, hpark]
    rfl
  · simp
  · simp [hw.core, parkOldest_job]
  · simp [hw.core, parkOldest_job]
  · rw [State.core_modCore_same, Core.job_modJob_ne _ _ _ _ (oldestHeld_ne ho), hw.core]
    exact parkOldest_oldest hn ho
  · rw [State.core_modCore_ne _ _ _ _ hne, hw.core, parkOldest_core_ne _ _ hne]

end Sys2Proof.Machine
end

section
/-!
The interrupt controller (R587 to R602): what a delivery, a pulse and a look at the inputs can change.
-/
namespace Sys2Proof.Machine

open Sys2Proof

/-! What a change of the interrupt controller can reach. -/

/-- A change of the interrupt controller, of the functions' MSI-X tables, and of what is sent. -/
structure OnlyIcu (s t : State) : Prop where
  rest : t = { s with icu := t.icu, fns := t.fns, out := t.out }
  fns : ∀ f, t.fn f = { s.fn f with msix := (t.fn f).msix }
  out : s.out <+: t.out

namespace OnlyIcu

theorem refl (s : State) : OnlyIcu s s := ⟨rfl, fun _ => rfl, List.prefix_rfl⟩

theorem trans {s t u : State} (h : OnlyIcu s t) (g : OnlyIcu t u) : OnlyIcu s u where
  rest := by
    refine g.rest.trans ?_
    rw [h.rest]
  fns := fun f => by rw [g.fns f, h.fns f]
  out := h.out.trans g.out

theorem setIcu (s : State) (u : Icu) : OnlyIcu s { s with icu := u } := ⟨rfl, fun _ => rfl, List.prefix_rfl⟩

variable {s t : State} (h : OnlyIcu s t)
include h

theorem cores : t.cores = s.cores := by rw [h.rest]
theorem imprints : t.imprints = s.imprints := by rw [h.rest]
theorem pending : t.pending = s.pending := by rw [h.rest]
theorem cycle : t.cycle = s.cycle := by rw [h.rest]
theorem draws : t.draws = s.draws := by rw [h.rest]
theorem t0 : t.t0 = s.t0 := by rw [h.rest]
theorem t1 : t.t1 = s.t1 := by rw [h.rest]
theorem ports : t.ports = s.ports := by rw [h.rest]
theorem fab : t.fab = s.fab := by rw [h.rest]
theorem power : t.power = s.power := by rw [h.rest]
theorem boot : t.boot = s.boot := by rw [h.rest]
theorem ed : t.ed = s.ed := by rw [h.rest]
theorem glb : t.glb = s.glb := by rw [h.rest]
theorem stopped : t.stopped = s.stopped := by rw [h.rest]
theorem degraded : t.degraded = s.degraded := by rw [h.rest]
theorem reports : t.reports = s.reports := by rw [h.rest]
theorem causes : t.causes = s.causes := by rw [h.rest]
theorem core (c : Nat) : t.core c = s.core c := by unfold State.core; rw [h.cores]
theorem imp (i : Nat) : t.imp i = s.imp i := by unfold State.imp; rw [h.imprints]
theorem ch (c : Nat) : t.ch c = s.ch c := by unfold State.ch; rw [h.t1]
theorem port (p : Nat) : t.port p = s.port p := by unfold State.port; rw [h.ports]
theorem byteAt (a : Nat) : t.byteAt a = s.byteAt a := by unfold State.byteAt; rw [h.t0]

end OnlyIcu

/-- Such a change that leaves the enable, pending and input bits, the routes and what Rest watches as they were. -/
structure Delivered (s t : State) : Prop extends OnlyIcu s t where
  icu : t.icu = { s.icu with lines := t.icu.lines, msixOff := t.icu.msixOff, offSource := t.icu.offSource }

namespace Delivered

theorem refl (s : State) : Delivered s s := ⟨OnlyIcu.refl s, rfl⟩

theorem trans {s t u : State} (h : Delivered s t) (g : Delivered t u) : Delivered s u :=
  ⟨h.toOnlyIcu.trans g.toOnlyIcu, by rw [g.icu, h.icu]⟩

theorem foldl {α : Type} {f : State → α → State} (hf : ∀ s x, Delivered s (f s x)) (xs : List α) (s : State) :
    Delivered s (xs.foldl f s) := by
  induction xs generalizing s with
  | nil => exact refl s
  | cons x xs ih => exact (hf s x).trans (ih (f s x))

theorem emit (s : State) (e : Emission) : Delivered s (s.emit e) := ⟨⟨rfl, fun _ => rfl, List.prefix_append _ _⟩, rfl⟩

theorem modMsix (s : State) (f : Nat) (g : Fn → Sp MsixEntry) : Delivered s (s.modFn f fun x => { x with msix := g x }) := by
  refine ⟨⟨rfl, fun k => ?_, List.prefix_rfl⟩, rfl⟩
  rw [State.fn_modFn]
  split
  · subst k; rfl
  · rfl

theorem setLines (s : State) (n : Nat) : Delivered s { s with icu := { s.icu with lines := n } } :=
  ⟨OnlyIcu.setIcu s _, rfl⟩

theorem raiseVector (s : State) (f v : Nat) : Delivered s (s.raiseVector f v) := by
  unfold State.raiseVector
  extract_lets x e
  split
  · exact refl s
  · split
    · exact modMsix s f _
    · exact emit s _

theorem deliverVector (s : State) (n : Nat) : Delivered s (s.deliverVector n) := by
  unfold State.deliverVector
  extract_lets r f
  split
  · exact raiseVector s f _
  · exact ⟨OnlyIcu.setIcu s _, rfl⟩

theorem noteOff (s : State) (ns : List Nat) : Delivered s (s.noteOff ns) := by
  cases ns with
  | nil => exact refl s
  | cons n ns => exact ⟨OnlyIcu.setIcu s _, rfl⟩

theorem updateLines (s : State) : Delivered s s.updateLines := by
  unfold State.updateLines
  extract_lets now s'
  have h : Delivered s s' := by
    refine foldl (fun s k => ?_) _ s
    split
    · exact emit s _
    · exact refl s
  exact h.trans (setLines s' now)

theorem deliver (s : State) (before : Nat) : Delivered s (s.deliver before) := by
  unfold State.deliver
  extract_lets new vec firsts off
  exact ((foldl deliverVector firsts s).trans (noteOff _ off)).trans (updateLines _)

theorem icuChange (s : State) (f : Icu → Icu) : Delivered { s with icu := f s.icu } (s.icuChange f) := deliver _ _

variable {s t : State} (h : Delivered s t)
include h

theorem en : t.icu.en = s.icu.en := by rw [h.icu]
theorem pend : t.icu.pend = s.icu.pend := by rw [h.icu]
theorem wake : t.icu.wake = s.icu.wake := by rw [h.icu]
theorem routes : t.icu.routes = s.icu.routes := by rw [h.icu]
theorem restWrite : t.icu.restWrite = s.icu.restWrite := by rw [h.icu]
theorem route (n : Nat) : t.route n = s.route n := by unfold State.route; rw [h.routes]
theorem active : t.icu.active = s.icu.active := by unfold Icu.active; rw [h.en, h.pend]

end Delivered

theorem OnlyIcu.icuChange (s : State) (f : Icu → Icu) : OnlyIcu s (s.icuChange f) :=
  (OnlyIcu.setIcu s _).trans (Delivered.icuChange s f).toOnlyIcu

theorem OnlyIcu.pulse (s : State) (n : Nat) : OnlyIcu s (s.pulse n) := by
  unfold State.pulse
  extract_lets sense
  split
  · exact refl s
  · split
    · split
      · exact setIcu s _
      · exact refl s
    · exact icuChange s _

theorem OnlyIcu.sample (s : State) : OnlyIcu s s.sample := by
  unfold State.sample
  extract_lets now met
  split
  · exact setIcu s _
  · exact icuChange s _

/-- A change of the editions changes beyond them only the interrupt controller (R587). -/
theorem OnlyIcu.setEd (s : State) (f : Editions → Editions) : OnlyIcu { s with ed := f s.ed } (s.setEd f) := by
  unfold State.setEd
  extract_lets t
  split
  · exact refl t
  · exact pulse t 72

/-! Pulses and looks at the inputs (R590). -/

theorem pulse_eq_icuChange {s : State} {n : Nat} (hr : s.inRest = false) (hs : s.route n % 8 = 0 ∨ (2 ≤ s.route n % 8 ∧ s.route n % 8 ≤ 4)) :
    s.pulse n = s.icuChange fun u => { u with pend := u.pend ||| 2 ^ n } := by
  have h1 : s.route n % 8 ≠ 1 := by omega
  have h5 : ¬ 5 ≤ s.route n % 8 := by omega
  simp [State.pulse, hr, h1, h5]

/-- Outside Rest a look at the inputs takes no pending bit away. -/
theorem sample_pend {s : State} (hr : s.inRest = false) {n : Nat} (hn : Nat.testBit s.icu.pend n = true) :
    Nat.testBit s.sample.icu.pend n = true := by
  unfold State.sample
  extract_lets now met
  clear_value met
  rw [hr, if_neg (by decide), (Delivered.icuChange s _).pend, Nat.testBit_or, hn, Bool.true_or]

theorem sample_en (s : State) : s.sample.icu.en = s.icu.en := by
  unfold State.sample
  extract_lets now met
  clear_value met
  split
  · rfl
  · rw [(Delivered.icuChange s _).en]

/-! Steps of the package's own clock. -/

/-- Settles O1: the front command is what the step looks at. -/
theorem stepRunsTheFrontCommand : Obligations.StepRunsTheFrontCommand := by
  unfold Obligations.StepRunsTheFrontCommand
  intro s c rest h
  simp [step, h]

/-- Settles O2: after release an idle cycle is the counter's and a look at the interrupt inputs. -/
theorem idleStepIsOneNocCycle : Obligations.IdleStepIsOneNocCycle := by
  unfold Obligations.IdleStepIsOneNocCycle
  intro s hs
  have hstep : step s = .next (tick s) := by simp [step, hs]
  refine ⟨fun hr => by simp [hstep, tick, hr], fun hr => ?_⟩
  have h := OnlyIcu.sample { s with cycle := s.cycle + 2 }
  refine ⟨_, hstep, ?_⟩
  rw [tick, if_pos hr]
  exact ⟨h.cycle, h.cores, h.imprints, h.t0, h.t1, h.ports, h.fab, h.power, h.boot, h.ed, h.pending.trans hs, sample_en _,
    fun n hn hrest => sample_pend (s := { s with cycle := s.cycle + 2 }) hrest hn⟩

/-- Settles O4: every memory and table of reset is empty. -/
theorem resetIsInCanonicalForm : Obligations.ResetIsInCanonicalForm := reset_canon

/-- What CLK, SEC and GLB_FATAL answer from release on; the other registers wait for RUNNING (R532, R569, R604). -/
theorem regAnswers_reset (r : Reg) : State.reset.regAnswers r = true ↔
    r ∈ [Reg.clkStatus, .secBoot, .secFw, .secImgAddr, .secImgCtrl, .secUid, .glbFatal] := by
  cases r <;> simp [State.regAnswers, State.answers, State.reset, Boot.reset]

theorem reset_active : State.reset.icu.active = 0 := rfl

theorem reset_imp (i : Nat) : State.reset.imp i = Imprint.absent := rfl

/-- Without an entry an imprint has no tensor left to load. -/
theorem reset_unloaded (i : Nat) : State.reset.unloaded i = false :=
  List.any_eq_false.2 fun d _ => by simp [State.loaded, State.desc, State.cfg, reset_imp, Imprint.absent]

/-- Where nothing is active, nothing can be claimed. -/
theorem claim_of_idle {s : State} (h : s.icu.active = 0) (k : Nat) : s.claim k = 0 := by
  unfold State.claim
  generalize List.range 1024 = ns
  have hnone : ns.find? (fun _ => false) = none := List.find?_eq_none.2 fun _ _ => by decide
  simp [h, hnone]

/-- Settles O3: each register reads its field of the reset state. -/
theorem registersReadTheirResetValues : Obligations.RegistersReadTheirResetValues := by
  unfold Obligations.RegistersReadTheirResetValues
  refine ⟨rfl, rfl, rfl, rfl, rfl, rfl, rfl, rfl, rfl, rfl, rfl, fun n _ => ?imprints, fun f _ => ?functions, fun k _ => ?claims,
    regAnswers_reset⟩
  case imprints =>
    refine ⟨?_, ?_, ?_, ?_⟩
    · exact (congrArg (· % 2 ^ 64) (Nat.zero_div _)).trans (Nat.zero_mod _)
    · exact (congrArg (· % 2 ^ 64) (Nat.zero_div _)).trans (Nat.zero_mod _)
    · have hread : State.reset.regValue (.telRepro n) = bit false + 2 * bit false + 4 * 1 + 0 * 2 ^ 32 := rfl
      exact hread.trans (by decide)
    · have hread : State.reset.regValue (.ednImprint n)
          = 0 + 4 * bit (State.reset.unloaded n) + 8 * bit false + 16 * bit false + 32 * 1 := rfl
      rw [hread, reset_unloaded]
      decide
  case functions =>
    have hread : State.reset.regValue (.tabCtrl f) = 0 + bit false * 2 ^ 10 + bit false * 2 ^ 11 + 0 * 2 ^ 12 + 0 * 2 ^ 16 := rfl
    exact ⟨rfl, hread.trans (by decide), rfl⟩
  case claims => exact claim_of_idle reset_active k

/-! Stopping (R531, R532). -/

theorem stop_of_stopped {s : State} (h : s.stopped = true) (cause ccore : Nat) : s.stop cause ccore = s := by
  simp [State.stop, h]

theorem OnlyIcu.stop {s : State} (h : s.stopped = false) (cause ccore : Nat) : OnlyIcu
    { s with stopped := true, glb := { s.glb with cause := cause, ccore := ccore, edition := s.ed.number },
             boot := { s.boot with keySlots := [] } } (s.stop cause ccore) := by
  rw [State.stop, if_neg (by simp [h])]
  exact sample _

/-- What a stop leaves, as the obligation says it of a command that stops the package. -/
theorem stop_halts (s : State) (cause ccore : Nat) : if s.stopped then Host.Outcome.next (s.stop cause ccore) =
      (.next s : Host.Outcome State Fault Refusal)
    else ∃ t, Host.Outcome.next (s.stop cause ccore) = (.next t : Host.Outcome State Fault Refusal) ∧ t.stopped = true
      ∧ t.glb.cause = cause ∧ t.glb.ccore = ccore ∧ t.glb.edition = s.ed.number ∧ t.boot.keySlots = []
      ∧ t.glb.scratch = s.glb.scratch ∧ t.cores = s.cores ∧ t.imprints = s.imprints ∧ t.t0 = s.t0 ∧ t.t1 = s.t1 := by
  split
  · rename_i h
    rw [stop_of_stopped h]
  · rename_i h
    have ho := OnlyIcu.stop (by simpa using h) cause ccore
    exact ⟨_, rfl, ho.stopped, by rw [ho.glb], by rw [ho.glb], by rw [ho.glb], by rw [ho.boot], by rw [ho.glb], ho.cores,
      ho.imprints, ho.t0, ho.t1⟩

/-- Settles O37: all four are a stop with their cause. -/
theorem fatalErrorsStopThePackage : Obligations.FatalErrorsStopThePackage := by
  unfold Obligations.FatalErrorsStopThePackage
  exact fun c s => ⟨stop_halts s 1 0, stop_halts s 2 c.val, stop_halts s 3 c.val, stop_halts s 4 c.val⟩

end Sys2Proof.Machine
end

section
/-!
What the notices of power changes reach: events, their interrupts, and the void timing of the impressions that run (R372, R561, R587).
-/
namespace Sys2Proof.Machine

open Sys2Proof

/-- A change of imprints' records, functions, interrupts, what is sent and the power events that wait; all else is as it was. -/
def Notified (s t : State) : Prop :=
  t = { s with imprints := t.imprints, fns := t.fns, out := t.out, icu := t.icu, power := { s.power with events := t.power.events } }

namespace Notified

theorem refl (s : State) : Notified s s := rfl

theorem trans {s t u : State} (h : Notified s t) (g : Notified t u) : Notified s u := by
  unfold Notified at *
  refine g.trans ?_
  rw [h]

theorem ite {s t u : State} {p : Prop} [Decidable p] (h : Notified s t) (g : Notified s u) : Notified s (if p then t else u) := by
  split <;> assumption

theorem foldl {α : Type} {f : State → α → State} (hf : ∀ s x, Notified s (f s x)) (xs : List α) (s : State) :
    Notified s (xs.foldl f s) := by
  induction xs generalizing s with
  | nil => exact refl s
  | cons x xs ih => exact (hf s x).trans (ih (f s x))

theorem modFn (s : State) (k : Nat) (f : Fn → Fn) : Notified s (s.modFn k f) := rfl

theorem modServe (s : State) (i : Nat) (f : Serve → Serve) : Notified s (s.modServe i f) := rfl

theorem emit (s : State) (e : Emission) : Notified s (s.emit e) := rfl

theorem of_onlyIcu {s t : State} (h : OnlyIcu s t) : Notified s t := by
  unfold Notified
  rw [h.rest]

theorem sample (s : State) : Notified s s.sample := of_onlyIcu (OnlyIcu.sample s)

theorem pulse (s : State) (n : Nat) : Notified s (s.pulse n) := of_onlyIcu (OnlyIcu.pulse s n)

theorem writeRing (s : State) (f k : Nat) (records : List (List Byte)) : Notified s (s.writeRing f k records) := by
  unfold State.writeRing
  split
  · exact refl s
  · extract_lets s1 p s2 s3
    have h1 : Notified s s1 := foldl (fun s _ => emit s _) _ s
    have h3 : Notified s s3 := (h1.trans (emit s1 _)).trans (modFn s2 f _)
    exact ite (refl s) (ite h3 (h3.trans (of_onlyIcu (Delivered.raiseVector s3 f _).toOnlyIcu)))

theorem writeEvents (s : State) (f n : Nat) (es : List (List Byte)) : Notified s (s.writeEvents f n es) := by
  unfold State.writeEvents
  split
  · exact modFn s f _
  · exact (writeRing s f _ _).trans (modFn _ f _)

theorem flushPower (s : State) : Notified s s.flushPower := by
  unfold State.flushPower
  exact ite (refl s) (Notified.trans (t := { s with power := { s.power with events := [] } }) rfl (writeEvents _ 0 0 _))

theorem powerEvent (s : State) (bs : List Byte) : Notified s (s.powerEvent bs) := by
  unfold State.powerEvent
  exact Notified.trans (t := { s with power := { s.power with events := s.power.events ++ [bs] } }) rfl
    (ite (refl _) (flushPower _))

theorem powerNotice (s : State) (type : Nat) : Notified s (s.powerNotice type) := powerEvent s _

theorem stateNotice (s : State) : Notified s s.stateNotice := powerEvent s _

theorem noteLimiter (s : State) : Notified s s.noteLimiter := by
  unfold State.noteLimiter
  exact ite (refl s) (foldl (fun s i => ite (modServe s i _) (refl s)) _ s)

/-- A notice that is given only in some case. -/
theorem powerNoticeIf (s : State) (p : Prop) [Decidable p] (type : Nat) : Notified s (if p then s.powerNotice type else s) :=
  ite (powerNotice s type) (refl s)

variable {s t : State} (h : Notified s t)
include h

theorem power : t.power = { s.power with events := t.power.events } := by rw [h]
theorem cores : t.cores = s.cores := by rw [h]
theorem t0 : t.t0 = s.t0 := by rw [h]
theorem ed : t.ed = s.ed := by rw [h]
theorem boot : t.boot = s.boot := by rw [h]
theorem stopped : t.stopped = s.stopped := by rw [h]

theorem issueLevel : t.issueLevel = s.issueLevel := by unfold State.issueLevel; rw [h.power]
theorem inFloor : t.inFloor = s.inFloor := by unfold State.inFloor; rw [h.power]
theorem inRest : t.inRest = s.inRest := by unfold State.inRest; rw [h.power]
theorem powerCfg : t.powerCfg = s.powerCfg := by unfold State.powerCfg; rw [h.ed]
theorem capTarget : t.capTarget = s.capTarget := by unfold State.capTarget; rw [h.powerCfg, h.power]
theorem margin (p : Nat) : t.margin p = s.margin p := by unfold State.margin; rw [h.power]

end Notified

end Sys2Proof.Machine
end

section
/-!
Power, heat and ageing (R544 to R557): the cap, the limiter, the causes of Floor, the thermal ceiling, margins.
-/
namespace Sys2Proof.Machine

open Sys2Proof

theorem answered_pathsToPower {s : State} {p : RegPath} (ha : s.answers = true) (hp : p = .pf ∨ p = .i3c) :
    (!s.answers || !reachesPower p) = false := by
  rcases hp with rfl | rfl <;> simp [ha] <;> decide

/-! The cap (R544, R550). -/

theorem fastCap_eq (s : State) : s.fastCap = s.modPower fun p => { p with cap := min s.power.cap s.capTarget } := by
  unfold State.fastCap
  split
  · rename_i h
    simp only [State.modPower, Nat.min_eq_right h.le]
  · rename_i h
    simp only [State.modPower, Nat.min_eq_left (not_lt.1 h)]

/-- Settles O46: a FAST target takes the lesser of the two, and a step moves no further than the target. -/
theorem capFollowsItsTarget : Obligations.CapFollowsItsTarget := by
  unfold Obligations.CapFollowsItsTarget
  refine fun s => ⟨fun p n ha hp => ?write, fun hs => ?step, fun p v ha hp => ?heartbeat, fun hs ht => ?expiry⟩
  case write =>
    have hok := answered_pathsToPower ha hp
    refine ⟨by simp [exec, execPwrCapWrite, hok, State.modPower], _, by simp only [exec, execPwrCapFast, hok]; rfl, ?_⟩
    rw [fastCap_eq]
    exact ⟨rfl, rfl, rfl⟩
  case step =>
    refine ⟨_, if_neg (by simp [hs]), rfl, rfl, fun h => ?_, fun h => ?_⟩
    · simp only [State.modPower_power]
      split <;> omega
    · simp only [State.modPower_power]
      split <;> omega
  case heartbeat =>
    have hok := answered_pathsToPower ha hp
    have h := OnlyIcu.sample (s.modPower fun x => { x with timer := true, orphaned := false })
    refine ⟨_, by simp only [exec, execHeartbeat, hok]; rfl, ?_⟩
    rw [h.power]
    exact ⟨rfl, rfl, rfl, rfl⟩
  case expiry =>
    let u := s.modPower fun p => { p with timer := false, orphaned := true }
    let w := if u.powerCfg.isSome then u.fastCap else u
    have hw : exec .heartbeatExpiry s = .next (w.powerNotice 0x0074).sample := by
      simp only [exec, execHeartbeatExpiry, hs, ht]
      rfl
    have h := (Notified.powerNotice w 0x0074).trans (Notified.sample _)
    refine ⟨_, hw, ?_⟩
    rw [h.capTarget, h.power]
    have hcfg : u.powerCfg = s.powerCfg := rfl
    simp only [w, hcfg, fastCap_eq]
    split
    · exact ⟨rfl, rfl, rfl, rfl⟩
    · exact ⟨rfl, rfl, rfl, rfl⟩

/-! The limiter (R545, R546). -/

/-- The largest level from 4 to 64 that the inequality permits is the one that holds with none above it. -/
theorem permitted_eq_some {p : Power} {q : Nat} (h4 : 4 ≤ q) (h64 : q ≤ 64) (hq : p.fits q = true)
    (hmax : ∀ k, q < k → k ≤ 64 → p.fits k = false) : p.permitted = some q := by
  have hlist : (List.range 61).map (fun k => 64 - k) =
      (List.range (64 - q)).map (fun k => 64 - k) ++ q :: (List.range (q - 4)).map (fun k => q - 1 - k) := by
    interval_cases q <;> rfl
  rw [Power.permitted, hlist, List.find?_append, List.find?_eq_none.2, Option.none_or, List.find?_cons_of_pos hq]
  intro k hk
  simp only [List.mem_map, List.mem_range] at hk
  obtain ⟨j, hj, rfl⟩ := hk
  simp [hmax (64 - j) (by omega) (by omega)]

theorem permitted_eq_none {p : Power} : p.permitted = none ↔ ∀ k, 4 ≤ k → k ≤ 64 → p.fits k = false := by
  simp only [Power.permitted, List.find?_eq_none, List.mem_map, List.mem_range, Bool.not_eq_true]
  constructor
  · exact fun h k h4 h64 => h k ⟨64 - k, by omega, by omega⟩
  · rintro h _ ⟨j, hj, rfl⟩
    exact h _ (by omega) (by omega)

/-- What the limiter's level is once the permitted level is known: it falls at once, and rises by the largest number of steps that the
ramp allowance covers. -/
theorem moveLevel_spec (p : Power) (perm : Nat) :
    let q := p.moveLevel perm
    let a := p.allowance + 640 * max 1 p.rampUp
    (perm ≤ p.level → q.level = perm ∧ q.allowance = 0)
    ∧ (p.level < perm → p.level ≤ q.level ∧ q.level ≤ perm ∧ (q.level - p.level) * p.pCore ≤ a ∧ (q.level = perm → q.allowance = 0)
        ∧ (q.level < perm → a < (q.level - p.level + 1) * p.pCore ∧ q.allowance = a - (q.level - p.level) * p.pCore)) := by
  intro q a
  refine ⟨fun h => by simp [q, Power.moveLevel, h], fun h => ?_⟩
  have hq : q = p.moveLevel perm := rfl
  rw [Power.moveLevel, if_neg (by omega)] at hq
  extract_lets n at hq
  clear_value a
  have hn : n ≤ perm - p.level := by
    show (if p.pCore = 0 then perm - p.level else min (perm - p.level) (a / p.pCore)) ≤ _
    split <;> omega
  have hna : n * p.pCore ≤ a := by
    show (if p.pCore = 0 then perm - p.level else min (perm - p.level) (a / p.pCore)) * p.pCore ≤ _
    split
    · rename_i h0; simp [h0]
    · exact (Nat.mul_le_mul_right _ (min_le_right _ _)).trans (Nat.div_mul_le_self a _)
  have hlt : n < perm - p.level → a < (n + 1) * p.pCore := by
    intro hlt
    have hn' : n = if p.pCore = 0 then perm - p.level else min (perm - p.level) (a / p.pCore) := rfl
    split at hn'
    · omega
    · rename_i h0
      have hdiv : n = a / p.pCore := by omega
      rw [hdiv, Nat.mul_comm]
      exact Nat.lt_mul_div_succ a (Nat.pos_of_ne_zero h0)
  clear_value n
  have hlevel : q.level = p.level + n := by rw [hq]
  have hallow : q.allowance = if p.level + n = perm then 0 else a - n * p.pCore := by rw [hq]
  rw [hlevel, hallow, Nat.add_sub_cancel_left]
  refine ⟨by omega, by omega, hna, fun h => if_pos h, fun h => ⟨hlt (by omega), if_neg (by omega)⟩⟩

/-- The power state with an evaluation's four terms. -/
def Power.withTerms (p : Power) (f l m c : Nat) : Power := { p with pFixed := f, pLink := l, pMem := m, pCore := c }

/-- The limiter's state after an evaluation: in Floor the level rests at 4. -/
def State.limited (s : State) (f l m c : Nat) : Power :=
  let p := s.power.withTerms f l m c
  { (if s.inFloor then { p with level := 4, allowance := 0 } else p.moveLevel (min (p.permitted.getD 4) p.lth)) with
    capUnmet := p.permitted.isNone }

theorem exec_limiterEval {s : State} (hs : s.powered = true) (hr : s.inRest = false) (f l m c : Nat) :
    ∃ t, exec (.limiterEval f l m c) s = .next t ∧ t.power = { s.limited f l m c with events := t.power.events } := by
  refine ⟨_, by simp only [exec, execLimiterEval, hs, hr]; rfl, ?_⟩
  exact (((Notified.noteLimiter { s with power := s.limited f l m c }).trans (Notified.powerNoticeIf _ _ _)).trans
    (Notified.sample _)).power

/-- Settles O47: the level permitted is the largest that fits, and a trim solves the estimate for K. -/
theorem limiterTakesTheLargestLevel : Obligations.LimiterTakesTheLargestLevel := by
  unfold Obligations.LimiterTakesTheLargestLevel
  refine fun s hs => ⟨fun f l m c hr => ?level, fun mw => ?trim⟩
  case level =>
    intro fit
    obtain ⟨t, ht, hp⟩ := exec_limiterEval hs hr f l m c
    let p := s.power.withTerms f l m c
    have hfit : ∀ k, p.fits k = true ↔ fit k := fun k => by
      simp only [Power.fits, decide_eq_true_eq, fit]
      rfl
    have hnot : ∀ k, p.fits k = false ↔ ¬ fit k := fun k => by rw [← hfit, Bool.not_eq_true]
    refine ⟨t, ht, ?_, fun hf => ?_, fun hf q h4 h64 hq hmax => ?_⟩
    · have : t.power.capUnmet = p.permitted.isNone := by rw [hp]; rfl
      rw [this, Option.isNone_iff_eq_none, permitted_eq_none]
      simp only [hnot]
    · rw [hp]
      simp [State.limited, hf]
    · have hbest : p.permitted.getD 4 = q := by
        rcases hq with hq | ⟨rfl, hq⟩
        · rw [permitted_eq_some h4 h64 ((hfit q).2 hq) fun k hk hk' => (hnot k).2 (hmax k hk hk'), Option.getD_some]
        · rw [permitted_eq_none.2 fun k hk hk' => ?_, Option.getD_none]
          rcases eq_or_lt_of_le hk with rfl | hk
          · exact (hnot 4).2 hq
          · exact (hnot k).2 (hmax k hk hk')
      have hl : s.limited f l m c = { p.moveLevel (min q p.lth) with capUnmet := p.permitted.isNone } := by
        simp only [State.limited, hf, p] at hbest ⊢
        rw [hbest]
        rfl
      rw [hp, hl]
      exact moveLevel_spec p (min q p.lth)
  case trim =>
    refine ⟨_, by simp only [exec, execAvsSample, hs]; rfl, rfl, rfl, ?_, rfl⟩
    simp only [State.modPower_power]
    push_cast
    ring

end Sys2Proof.Machine
end

section
/-!
The causes of Floor, heat, Rest's requests and the margins (R536, R548, R551 to R557).
-/
namespace Sys2Proof.Machine

open Sys2Proof

/-! Bits of a number that stands for a set. -/

theorem testBit_add_two_pow {x k : Nat} (h : x.testBit k = false) (j : Nat) :
    (x + 2 ^ k).testBit j = (decide (j = k) || x.testBit j) := by
  induction k generalizing x j with
  | zero =>
    simp only [Nat.testBit_zero, decide_eq_false_iff_not] at h
    cases j with
    | zero => simp [Nat.testBit_zero]; omega
    | succ j => simp [Nat.testBit_succ, show (x + 1) / 2 = x / 2 by omega]
  | succ k ih =>
    cases j with
    | zero => simp [Nat.testBit_zero, Nat.pow_succ, Nat.add_mul_mod_self_right]
    | succ j =>
      rw [Nat.testBit_succ] at h
      rw [Nat.testBit_succ, Nat.testBit_succ, show (x + 2 ^ (k + 1)) / 2 = x / 2 + 2 ^ k by omega, ih h]
      simp

theorem testBit_sub_two_pow {x k : Nat} (h : x.testBit k = true) (j : Nat) :
    (x - 2 ^ k).testBit j = (!decide (j = k) && x.testBit j) := by
  obtain ⟨y, rfl⟩ := Nat.exists_eq_add_of_le' (Nat.ge_two_pow_of_testBit h)
  have hk : y.testBit k = false := by
    rw [Nat.add_comm, Nat.testBit_two_pow_add_eq] at h
    simpa using h
  rw [Nat.add_sub_cancel, testBit_add_two_pow hk]
  by_cases hj : j = k
  · simp [hj, hk]
  · simp [hj]

/-! Floor (R548). -/

theorem addCause_notified {s : State} {k : Nat} (h : bitOf s.power.causes k = false) :
    Notified (s.modPower fun p => { p with causes := p.causes + 2 ^ k, level := 4, allowance := 0 }) (s.addCause k) := by
  rw [State.addCause, if_neg (by simp [h])]
  exact ((Notified.noteLimiter _).trans (Notified.powerNoticeIf _ _ _)).trans (Notified.sample _)

theorem clearCause_notified {s : State} {k : Nat} (h : bitOf s.power.causes k = true) :
    Notified (s.modPower fun p => { p with causes := p.causes - 2 ^ k }) (s.clearCause k) := by
  rw [State.clearCause, if_neg (by simp [h])]
  exact (Notified.ite (Notified.refl _) (Notified.powerNotice _ _)).trans (Notified.sample _)

theorem clearCause_of_clear {s : State} {k : Nat} (h : bitOf s.power.causes k = false) : s.clearCause k = s := by
  rw [State.clearCause, if_pos (by simp [h])]

/-- A cause that appears is set beside the others. -/
theorem bitOf_addCause (s : State) (k j : Nat) :
    bitOf (s.addCause k).power.causes j = (decide (j = k) || bitOf s.power.causes j) := by
  cases h : bitOf s.power.causes k
  · rw [(addCause_notified h).power]
    exact testBit_add_two_pow h j
  · rw [State.addCause, if_pos h]
    by_cases hj : j = k
    · simp [hj, h]
    · simp [hj]

/-- A cause that clears is taken away from the others. -/
theorem bitOf_clearCause (s : State) (k j : Nat) :
    bitOf (s.clearCause k).power.causes j = (!decide (j = k) && bitOf s.power.causes j) := by
  cases h : bitOf s.power.causes k
  · rw [clearCause_of_clear h]
    by_cases hj : j = k
    · simp [hj, h]
    · simp [hj]
  · rw [(clearCause_notified h).power]
    exact testBit_sub_two_pow h j

/-- What an appearing cause leaves of the power state. -/
theorem addCause_power (s : State) (k : Nat) :
    ∃ n l a es, (s.addCause k).power = { s.power with causes := n, level := l, allowance := a, events := es } := by
  cases h : bitOf s.power.causes k
  · rw [(addCause_notified h).power]
    exact ⟨_, _, _, _, rfl⟩
  · rw [State.addCause, if_pos h]
    exact ⟨_, _, _, _, rfl⟩

/-- What a clearing cause leaves of the power state. -/
theorem clearCause_power (s : State) (k : Nat) :
    ∃ n es, (s.clearCause k).power = { s.power with causes := n, events := es } := by
  cases h : bitOf s.power.causes k
  · rw [clearCause_of_clear h]
    exact ⟨_, _, rfl⟩
  · rw [(clearCause_notified h).power]
    exact ⟨_, _, rfl⟩

theorem ne_zero_of_bitOf {n k : Nat} (h : bitOf n k = true) : n ≠ 0 := by
  rintro rfl
  simp [bitOf] at h

/-- Outside Rest and a thermal hold the level is 4 while a cause is present. -/
theorem issueLevel_eq {s : State} (hr : s.inRest = false) (hh : s.power.hold = false) :
    s.issueLevel = if s.power.causes ≠ 0 then 4 else min s.power.level s.power.lth := by
  have hr' : s.power.rest ≠ .rest := by simpa [State.inRest] using hr
  simp [State.issueLevel, hr', hh]

/-- Causes, level, allowance, waiting events, and how the alerts, the average and the devices stand are all that two power states
differ in. -/
def SameButCauses (p q : Power) : Prop :=
  q.rest = p.rest ∧ q.hold = p.hold ∧ q.lth = p.lth

/-- A cause sets Floor at level 4. -/
theorem addCause_sets {s u : State} (k : Nat) (hr : s.inRest = false) (hh : s.power.hold = false)
    (hu : SameButCauses s.power u.power ∧ u.power.causes = (s.addCause k).power.causes) :
    bitOf u.power.causes k = true ∧ (∀ j, j ≠ k → bitOf u.power.causes j = bitOf s.power.causes j)
      ∧ u.issueLevel = 4 ∧ u.inFloor = true := by
  obtain ⟨⟨hrest, hhold, -⟩, hc⟩ := hu
  have hk : bitOf u.power.causes k = true := by simp [hc, bitOf_addCause]
  refine ⟨hk, fun j hj => by simp [hc, bitOf_addCause, hj], ?_, by simp [State.inFloor, ne_zero_of_bitOf hk]⟩
  rw [issueLevel_eq (by rw [State.inRest, hrest]; exact hr) (hhold.trans hh), if_pos (ne_zero_of_bitOf hk)]

/-- A cause that clears leaves level 4 to the causes that stay, and the lesser of the limiter's level and the ceiling to none. -/
theorem clearCause_clears {s u : State} (k : Nat) (hr : s.inRest = false) (hh : s.power.hold = false)
    (hu : SameButCauses s.power u.power ∧ u.power.level = s.power.level ∧ u.power.causes = (s.clearCause k).power.causes) :
    bitOf u.power.causes k = false ∧ (∀ j, j ≠ k → bitOf u.power.causes j = bitOf s.power.causes j)
      ∧ (u.power.causes ≠ 0 → u.issueLevel = 4) ∧ (u.power.causes = 0 → u.issueLevel = min s.power.level s.power.lth) := by
  obtain ⟨⟨hrest, hhold, hlth⟩, hl, hc⟩ := hu
  have hlevel := issueLevel_eq (s := u) (by rw [State.inRest, hrest]; exact hr) (hhold.trans hh)
  refine ⟨by simp [hc, bitOf_clearCause], fun j hj => by simp [hc, bitOf_clearCause, hj], fun h => ?_, fun h => ?_⟩
  · rw [hlevel, if_pos h]
  · rw [hlevel, if_neg (not_not.2 h), hl, hlth]

theorem sameButCauses_addCause (s : State) (k : Nat) : SameButCauses s.power (s.addCause k).power := by
  obtain ⟨n, l, a, es, h⟩ := addCause_power s k
  rw [h]
  exact ⟨rfl, rfl, rfl⟩

theorem sameButCauses_clearCause (s : State) (k : Nat) :
    SameButCauses s.power (s.clearCause k).power ∧ (s.clearCause k).power.level = s.power.level := by
  obtain ⟨n, es, h⟩ := clearCause_power s k
  rw [h]
  exact ⟨⟨rfl, rfl, rfl⟩, rfl⟩

/-- An alert's ball goes low: its cause appears. -/
theorem alert_sets {s s' : State} (k : Nat) (hr : s'.inRest = false) (hh : s'.power.hold = false)
    (hc : s'.power.causes = s.power.causes) :
    bitOf (s'.addCause k).sample.power.causes k = true
      ∧ (∀ j, j ≠ k → bitOf (s'.addCause k).sample.power.causes j = bitOf s.power.causes j)
      ∧ (s'.addCause k).sample.issueLevel = 4 ∧ (s'.addCause k).sample.inFloor = true := by
  rw [← hc]
  refine addCause_sets k hr hh ?_
  rw [(OnlyIcu.sample _).power]
  exact ⟨sameButCauses_addCause s' k, rfl⟩

/-- A state in which a cause clears, the others and the level standing as they did. -/
theorem clears_of_clearCause {s s' : State} (k : Nat) (hr : s'.inRest = false) (hh : s'.power.hold = false)
    (hc : s'.power.causes = s.power.causes) (hl : s'.power.level = s.power.level) (ht : s'.power.lth = s.power.lth) :
    bitOf (s'.clearCause k).power.causes k = false
      ∧ (∀ j, j ≠ k → bitOf (s'.clearCause k).power.causes j = bitOf s.power.causes j)
      ∧ ((s'.clearCause k).power.causes ≠ 0 → (s'.clearCause k).issueLevel = 4)
      ∧ ((s'.clearCause k).power.causes = 0 → (s'.clearCause k).issueLevel = min s.power.level s.power.lth) := by
  rw [← hc, ← hl, ← ht]
  obtain ⟨h, hl'⟩ := sameButCauses_clearCause s' k
  exact clearCause_clears k hr hh ⟨h, hl', rfl⟩

theorem released_of_powered {s : State} (h : s.powered = true) : s.boot.released = true := by
  rw [State.powered, Bool.and_eq_true] at h
  exact h.1

/-- Settles O48. -/
theorem floorHoldsWhileACauseIsPresent : Obligations.FloorHoldsWhileACauseIsPresent := by
  unfold Obligations.FloorHoldsWhileACauseIsPresent
  intro s hs hr hh sets clears
  have hrel := released_of_powered hs
  have hrun : ¬ (!s.powered) = true := by simp [hs]
  refine ⟨?vr, ?brk, ?vrHigh, ?brkHigh, fun hv => ?vrClear, fun hb => ?brkClear, fun ho => ?overCap, fun ht => ?overClear,
    fun dev rate => ⟨fun hany => ?hot, fun hany => ?cool⟩⟩
  case vr => exact ⟨_, if_neg (by simp [hrel]), alert_sets 0 hr hh rfl⟩
  case brk => exact ⟨_, if_neg (by simp [hrel]), alert_sets 1 hr hh rfl⟩
  case vrHigh => exact ⟨_, if_neg (by simp [hrel]), (OnlyIcu.sample _).power⟩
  case brkHigh => exact ⟨_, if_neg (by simp [hrel]), (OnlyIcu.sample _).power⟩
  case vrClear => exact ⟨_, if_neg (by simp [hrel, hv]), clears_of_clearCause 0 hr hh rfl rfl rfl⟩
  case brkClear => exact ⟨_, if_neg (by simp [hrel, hb]), clears_of_clearCause 1 hr hh rfl rfl rfl⟩
  case overCap => exact ⟨_, if_neg (by simp [hs, ho]), addCause_sets 2 hr hh ⟨sameButCauses_addCause s 2, rfl⟩⟩
  case overClear => exact ⟨_, if_neg (by simp [hs, ht]), clears_of_clearCause 2 hr hh rfl rfl rfl⟩
  case hot =>
    let s' := s.modPower fun p => { p with rates := spPut 0 p.rates dev.val rate.val }
    have h := addCause_sets (s := s') 4 hr hh ⟨sameButCauses_addCause s' 4, rfl⟩
    exact ⟨s'.addCause 4, (if_neg hrun).trans (if_pos hany), h⟩
  case cool =>
    let s' := s.modPower fun p => { p with rates := spPut 0 p.rates dev.val rate.val }
    have hnone := fun h => Bool.false_ne_true (hany.symm.trans h)
    exact ⟨s'.clearCause 4, (if_neg hrun).trans (if_neg hnone), clears_of_clearCause 4 hr hh rfl rfl rfl⟩

/-! Heat (R551 to R554). -/

theorem hottest_fst (m : Sp Nat) : (hottest m).1 = (m.map (·.2)).foldl max 0 := by
  have hfold : ∀ (xs : List Nat) (a : Nat), xs.foldl max a = max a (xs.foldl max 0) := fun xs => by
    induction xs with
    | nil => simp
    | cons x xs ih =>
      intro a
      rw [List.foldl_cons, List.foldl_cons, ih, ih (max 0 x)]
      omega
  induction m with
  | nil => rfl
  | cons x m ih =>
    rw [List.map_cons, List.foldl_cons, hfold, ← ih]
    simp only [hottest]
    split <;> omega

theorem setLth_notified (s : State) (n : Nat) : Notified (s.modPower fun p => { p with lth := n }) (s.setLth n) := by
  unfold State.setLth
  exact ((Notified.noteLimiter _).trans (Notified.powerNoticeIf _ _ _)).trans (Notified.sample _)

theorem setLth_power (s : State) (n : Nat) : ∃ es, (s.setLth n).power = { s.power with lth := n, events := es } :=
  ⟨_, (setLth_notified s n).power⟩

/-- What T_j does to the power state: nothing to the sensors; T_j and the hold follow them, the cause THERMAL appears from 105 on and
clears, with the ceiling at 4, down from 97. -/
theorem heat_power (s : State) :
    let h := (hottest s.power.sensors).1
    s.heat.power.sensors = s.power.sensors ∧ s.heat.power.tj = h ∧ s.heat.power.hold = (s.power.hold && decide (100 < h))
      ∧ (105 ≤ h → bitOf s.heat.power.causes 3 = true)
      ∧ (h ≤ 97 → bitOf s.heat.power.causes 3 = false ∧ (bitOf s.power.causes 3 = true → s.heat.power.lth = 4))
      ∧ (97 < h → h < 105 → s.heat.power.causes = s.power.causes) := by
  intro h
  have hheat : s.heat = (let u := s.modPower fun p => { p with tj := h, sensor := (hottest s.power.sensors).2, hold := p.hold && decide (100 < h) }
    if 105 ≤ h then State.sample (u.addCause 3)
    else if h ≤ 97 && bitOf u.power.causes 3 then State.sample ((u.clearCause 3).setLth 4)
    else State.sample u) := rfl
  clear_value h
  extract_lets u at hheat
  have hu : u.power.causes = s.power.causes := rfl
  rw [hheat]
  split
  case isTrue hhot =>
    rw [(OnlyIcu.sample _).power]
    have hbit := bitOf_addCause u 3 3
    obtain ⟨n, l, a, es, hp⟩ := addCause_power u 3
    rw [hp] at hbit ⊢
    exact ⟨rfl, rfl, rfl, fun _ => by simpa using hbit, fun hle => by omega, fun _ hlt => by omega⟩
  case isFalse hhot =>
    split
    case isTrue hcool =>
      rw [(OnlyIcu.sample _).power]
      obtain ⟨hle, -⟩ := (Bool.and_eq_true _ _).mp hcool
      rw [decide_eq_true_eq] at hle
      have hbit := bitOf_clearCause u 3 3
      obtain ⟨es, hp⟩ := setLth_power (u.clearCause 3) 4
      obtain ⟨n, es', hp'⟩ := clearCause_power u 3
      rw [hp] at ⊢
      rw [hp'] at hbit ⊢
      exact ⟨rfl, rfl, rfl, fun hge => by omega, fun _ => ⟨by simpa using hbit, fun _ => rfl⟩, fun hgt _ => by omega⟩
    case isFalse hcool =>
      rw [(OnlyIcu.sample _).power]
      refine ⟨rfl, rfl, rfl, fun hge => by omega, fun hle => ?_, fun _ _ => rfl⟩
      have hclear : bitOf s.power.causes 3 = false := by simpa [hle, hu] using hcool
      exact ⟨hclear, fun hset => by simp [hclear] at hset⟩

/-- Settles O49. -/
theorem heatLowersTheLevel : Obligations.HeatLowersTheLevel := by
  unfold Obligations.HeatLowersTheLevel
  refine fun s hs => ⟨fun rs => ?sensors, ?ceiling, fun hf hj hh => ?hold⟩
  case sensors =>
    let known := rs.filter fun x => decide (x.1 < 220) && (decide (208 ≤ x.1) || s.ed.coreMap.getD x.1 0xFF != 0xFF)
    refine ⟨_, if_neg (by simp [hs]), ?_⟩
    obtain ⟨hsens, htj, hhold, hhot, hcool, hmid⟩ :=
      heat_power (s.modPower fun p => { p with sensors := known.foldl (fun m x => spPut 0 m x.1 x.2) p.sensors })
    rw [htj, hsens]
    refine ⟨hottest_fst _, fun k v hrs hk => ?_, hhot, hcool, hmid, hhold⟩
    have hknown : known = [(k, v)] := by
      have hall : (decide (k < 220) && (decide (208 ≤ k) || s.ed.coreMap.getD k 0xFF != 0xFF)) = true := by
        rcases hk with ⟨hk, hmap⟩ | ⟨hk, hk'⟩
        · simp only [bne_iff_ne.2 hmap, Bool.or_true, Bool.and_true, decide_eq_true_eq]
          omega
        · simp [hk, hk']
      simp only [known, hrs, List.filter_cons, hall, if_true, List.filter_nil]
    simp only [hknown, List.foldl_cons, List.foldl_nil, State.modPower_power]
    exact ⟨by rw [spGet_spPut, if_pos rfl], fun j hj => by rw [spGet_spPut, if_neg hj]⟩
  case ceiling =>
    by_cases hhot : 100 ≤ s.power.tj
    · obtain ⟨es, hp⟩ := setLth_power s (if 4 < s.power.lth then s.power.lth - 1 else s.power.lth)
      refine ⟨_, (if_neg (by simp [hs])).trans (if_pos hhot), ?_⟩
      rw [hp]
      refine ⟨fun _ h4 => ?_, by omega, by omega⟩
      simp only
      split <;> omega
    by_cases hcool : s.power.tj ≤ 97
    · obtain ⟨es, hp⟩ := setLth_power s (min 64 (s.power.lth + 1))
      refine ⟨_, ((if_neg (by simp [hs])).trans (if_neg hhot)).trans (if_pos hcool), ?_⟩
      rw [hp]
      exact ⟨by omega, fun _ => rfl, by omega⟩
    · exact ⟨s, ((if_neg (by simp [hs])).trans (if_neg hhot)).trans (if_neg hcool), by omega, by omega, fun _ _ => rfl⟩
  case hold =>
    have h := ((Notified.noteLimiter (s.modPower fun p => { p with hold := true })).trans (Notified.powerNotice _ 0x0073)).trans
      (Notified.sample _)
    refine ⟨_, if_neg (by simp [hs, hf, hh, hj]), ?_⟩
    rw [h.issueLevel, h.power]
    exact ⟨rfl, by simp [State.issueLevel], rfl⟩

end Sys2Proof.Machine
end

section
/-!
Monitors, fitted margins and the proposals made of them (R555 to R557).
-/
namespace Sys2Proof.Machine

open Sys2Proof

/-- The monitors after one sample of a core that counts, and as they were after one of a core that does not. -/
theorem takeMonitors_one (s : State) (mark : Nat → Bool) {k : Nat} (v : Nat) (hk : k < 9 * 208) (j : Nat) :
    spGet 0 (s.takeMonitors mark [(k, v)]).power.monitors j =
      if j = k ∧ mark (s.ed.coreMap.getD (k / 9) 0xFF) = true then v else spGet 0 s.power.monitors j := by
  have hk' : decide (k < 9 * 208) = true := decide_eq_true hk
  simp only [State.takeMonitors, List.filter_cons, hk', Bool.true_and, List.filter_nil]
  cases mark (s.ed.coreMap.getD (k / 9) 0xFF)
  · simp
  · simp [spGet_spPut]

/-! What fits and proposals leave of one another. -/

/-- Two states with the same core map and the same fits: margins, predictions and counts of samples. -/
structure SameFits (s t : State) : Prop where
  ed : t.ed = s.ed
  margin : ∀ p, (t.margin p).margin = (s.margin p).margin
  predicted : ∀ p, (t.margin p).predicted = (s.margin p).predicted
  samples : ∀ p, (t.margin p).samples = (s.margin p).samples

theorem SameFits.trans {s t u : State} (h : SameFits s t) (g : SameFits t u) : SameFits s u :=
  ⟨g.ed.trans h.ed, fun p => (g.margin p).trans (h.margin p), fun p => (g.predicted p).trans (h.predicted p),
    fun p => (g.samples p).trans (h.samples p)⟩

theorem SameFits.of_notified {s t : State} (h : Notified s t) : SameFits s t :=
  ⟨h.ed, fun p => by rw [h.margin], fun p => by rw [h.margin], fun p => by rw [h.margin]⟩

theorem SameFits.worst {s t : State} (h : SameFits s t) (ps : List Nat) : t.worst ps = s.worst ps := by
  induction ps with
  | nil => rfl
  | cons p ps ih => simp only [State.worst, ih, h.predicted]

theorem SameFits.proposalFor {s t : State} (h : SameFits s t) (c : PowerCfg) (die : Nat) :
    t.proposalFor c die = s.proposalFor c die := by
  have hf : t.fitted die = s.fitted die := by simp only [State.fitted, h.ed, h.samples]
  have hd : t.dieSpare die = s.dieSpare die := by simp only [State.dieSpare, h.ed]
  simp only [State.proposalFor, hf, hd, h.worst, h.predicted]

theorem worst_mem {s : State} {ps : List Nat} {w : Nat} (h : s.worst ps = some w) : w ∈ ps := by
  induction ps generalizing w with
  | nil => simp [State.worst] at h
  | cons p ps ih =>
    rw [State.worst] at h
    cases hq : s.worst ps with
    | none =>
      rw [hq] at h
      simp only [Option.some.injEq] at h
      simp [h]
    | some q =>
      rw [hq] at h
      simp only [Option.some.injEq] at h
      split at h
      · simp [h]
      · exact List.mem_cons_of_mem _ (h ▸ ih hq)

/-- A proposal is for the core with the die's worst predicted margin. -/
theorem proposalFor_core {s : State} {c : PowerCfg} {die p k v : Nat} (h : s.proposalFor c die = some (p, k, v)) :
    p / 104 = die := by
  have hw : s.worst (s.fitted die) = some p := by
    unfold State.proposalFor at h
    extract_lets ps low spare at h
    split at h
    next => simp at h
    next w hw =>
      rw [hw]
      extract_lets m g at h
      clear_value low m spare g
      split at h
      · simpa using congrArg (Option.map Prod.fst) h
      split at h
      · split at h
        · simpa using congrArg (Option.map Prod.fst) h
        split at h
        · simpa using congrArg (Option.map Prod.fst) h
        · simpa using congrArg (Option.map Prod.fst) h
      · simp at h
  have hmem := worst_mem hw
  simp only [State.fitted, List.mem_filter, Bool.and_eq_true, beq_iff_eq] at hmem
  exact hmem.2.1.1

/-- Withdrawing the proposals of some cores. -/
theorem spGet_withdraw (m : Sp Margin) (P : Nat → Prop) [DecidablePred P] (p : Nat) :
    spGet Margin.none (m.map fun y => if P y.1 then (y.1, { y.2 with proposal := 0, value := 0 }) else y) p =
      if P p then { spGet Margin.none m p with proposal := 0, value := 0 } else spGet Margin.none m p := by
  induction m with
  | nil => simp [spGet, Margin.none]
  | cons y m ih =>
    rw [List.map_cons, spGet_cons, spGet_cons, ih]
    by_cases hy : P y.1
    · by_cases hp : y.1 = p
      · subst hp; simp [hy]
      · simp [hy, hp]
    · by_cases hp : y.1 = p
      · subst hp; simp [hy]
      · simp [hy, hp]

/-- What the margin registers hold once a die's proposal stands in them. -/
structure Proposed (s t : State) (c : PowerCfg) (die : Nat) : Prop extends SameFits s t where
  other : ∀ p, p / 104 ≠ die → t.margin p = s.margin p
  chosen : ∀ p k v, s.proposalFor c die = some (p, k, v) → (t.margin p).proposal = k ∧ (t.margin p).value = v
  rest : ∀ p, p / 104 = die → (s.proposalFor c die).map (·.1) ≠ some p → (t.margin p).proposal = 0

theorem Proposed.notified {s t u : State} {c : PowerCfg} {die : Nat} (h : Proposed s t c die) (g : Notified t u) :
    Proposed s u c die := by
  refine ⟨h.toSameFits.trans (.of_notified g), fun p hp => ?_, fun p k v hx => ?_, fun p hp hx => ?_⟩ <;> rw [g.margin]
  · exact h.other p hp
  · exact h.chosen p k v hx
  · exact h.rest p hp hx

theorem propose_proposed (s : State) (c : PowerCfg) (die : Nat) : Proposed s (s.propose c die) c die := by
  let gone := fun p => p / 104 = die && some p ≠ (s.proposalFor c die).map (·.1)
  let u := s.modPower fun p =>
    { p with margins := p.margins.map fun y => if gone y.1 then (y.1, { y.2 with proposal := 0, value := 0 }) else y }
  have hu : ∀ p, u.margin p = if gone p then { s.margin p with proposal := 0, value := 0 } else s.margin p :=
    spGet_withdraw s.power.margins fun p => gone p = true
  have hprop : s.propose c die = match s.proposalFor c die with
    | none => u
    | some (p, k, v) =>
      let w := u.modPower fun w => { w with margins := spPut Margin.none w.margins p { s.margin p with proposal := k, value := v } }
      if (s.margin p).proposal = k && (s.margin p).value = v then w
      else (w.powerEvent (w.powerBytes 0x0076 k p v (s.margin p).predicted)).pulse 69 := rfl
  have hother : ∀ p, p / 104 ≠ die → u.margin p = s.margin p := fun p hp => by simp [hu, gone, hp]
  rw [hprop]
  cases hx : s.proposalFor c die with
  | none =>
    refine ⟨⟨rfl, fun p => ?_, fun p => ?_, fun p => ?_⟩, hother, fun p k v h => by simp [hx] at h, fun p hp _ => ?_⟩
    · rw [hu]; split <;> rfl
    · rw [hu]; split <;> rfl
    · rw [hu]; split <;> rfl
    · rw [hu, if_pos (by simp [gone, hp, hx])]
  | some x =>
    obtain ⟨p, k, v⟩ := x
    let w := u.modPower fun w => { w with margins := spPut Margin.none w.margins p { s.margin p with proposal := k, value := v } }
    show Proposed s (if (s.margin p).proposal = k && (s.margin p).value = v then w
      else (w.powerEvent (w.powerBytes 0x0076 k p v (s.margin p).predicted)).pulse 69) c die
    have hw : ∀ q, w.margin q = if q = p then { s.margin p with proposal := k, value := v } else u.margin q := fun q =>
      spGet_spPut _ _ _ _ _
    have h : Proposed s w c die := by
      refine ⟨⟨rfl, fun q => ?_, fun q => ?_, fun q => ?_⟩, fun q hq => ?_, fun q l y h => ?_, fun q hq hne => ?_⟩
      · rw [hw, hu]; split
        · rename_i h; rw [h]
        · split <;> rfl
      · rw [hw, hu]; split
        · rename_i h; rw [h]
        · split <;> rfl
      · rw [hw, hu]; split
        · rename_i h; rw [h]
        · split <;> rfl
      · have hqp : q ≠ p := fun e => hq (e ▸ proposalFor_core hx)
        rw [hw, if_neg hqp, hother q hq]
      · rw [hx] at h
        obtain ⟨rfl, rfl, rfl⟩ : p = q ∧ k = l ∧ v = y := by simpa using h
        rw [hw, if_pos rfl]
        exact ⟨rfl, rfl⟩
      · have hqp : q ≠ p := fun e => hne (by simp [hx, e])
        rw [hw, if_neg hqp, hu, if_pos (by simp [gone, hq, hx, hqp])]
    split
    · exact h
    · exact (h.notified (.powerEvent w _)).notified (.pulse _ 69)

/-- Taking in the fits of a command. -/
def State.takeFits (s : State) (fits : List (Nat × Int × Int)) : State :=
  fits.foldl (fun s x => s.modPower fun p =>
    let m := spGet Margin.none p.margins x.1
    { p with margins := spPut Margin.none p.margins x.1
               { m with margin := x.2.1, predicted := x.2.2, samples := min 255 (m.samples + 1) } }) s

theorem takeFits_ed (s : State) (fits : List (Nat × Int × Int)) : (s.takeFits fits).ed = s.ed := by
  induction fits generalizing s with
  | nil => rfl
  | cons x fits ih => exact ih _

/-- What the fits of a command leave before the proposals, and what the proposals of both dies then leave. -/
theorem exec_marginFit {s : State} (hs : s.powered = true) (xs : List (Nat × Int × Int)) :
    let u := s.takeFits (xs.filter fun x => decide (x.1 < 208) && s.ed.coreMap.getD x.1 0xFF != 0xFF)
    ∃ t, exec (.marginFit xs) s = .next t ∧ SameFits u t ∧ ∀ c, s.powerCfg = some c →
      ∃ w, Proposed u w c 0 ∧ Proposed w t c 1 := by
  intro u
  have hexec : exec (.marginFit xs) s = match u.powerCfg with
      | none => .next u
      | some c => .next (State.sample ((u.propose c 0).propose c 1)) := if_neg (by simp [hs])
  have hcfg : u.powerCfg = s.powerCfg := by unfold State.powerCfg; rw [takeFits_ed]
  rw [hexec, hcfg]
  cases s.powerCfg with
  | none => exact ⟨u, rfl, .of_notified (.refl u), fun c h => by simp at h⟩
  | some c =>
    have h0 := propose_proposed u c 0
    have h1 := (propose_proposed (u.propose c 0) c 1).notified (.sample _)
    refine ⟨_, rfl, h0.toSameFits.trans h1.toSameFits, fun d hd => ?_⟩
    obtain rfl : c = d := Option.some.inj hd
    exact ⟨_, h0, h1⟩

/-- Settles O51. -/
theorem marginsAreFittedAndProposed : Obligations.MarginsAreFittedAndProposed := by
  unfold Obligations.MarginsAreFittedAndProposed
  refine fun s hs => ⟨fun k v hk => ⟨?active, ?spare⟩, fun xs => ?fit⟩
  case active => exact ⟨_, if_neg (by simp [hs]), rfl, fun j => by rw [takeMonitors_one s _ v hk]; simp⟩
  case spare => exact ⟨_, if_neg (by simp [hs]), rfl, fun j => by rw [takeMonitors_one s _ v hk]; simp⟩
  case fit =>
    obtain ⟨t, ht, hfits, hprop⟩ := exec_marginFit hs xs
    refine ⟨t, ht, fun p m q hxs hp hmap => ?_, fun c die hc hdie => ?_⟩
    · have hvalid : (decide (p < 208) && s.ed.coreMap.getD p 0xFF != 0xFF) = true := by
        rw [decide_eq_true hp, bne_iff_ne.2 hmap]; rfl
      rw [hfits.margin, hfits.predicted, hfits.samples]
      simp only [hxs, List.filter_cons, hvalid, if_true, List.filter_nil, State.takeFits, List.foldl_cons, List.foldl_nil,
        State.margin, State.modPower_power, spGet_spPut, and_self]
    · obtain ⟨w, h0, h1⟩ := hprop c hc
      have hcases : die = 0 ∨ die = 1 := by omega
      rcases hcases with rfl | rfl
      · rw [(h0.toSameFits.trans h1.toSameFits).proposalFor]
        refine ⟨fun p k v hx => ?_, fun p hp hx => ?_⟩
        · have hp := proposalFor_core hx
          rw [h1.other p (by omega)]
          exact ⟨(h0.chosen p k v hx).1, (h0.chosen p k v hx).2, hp⟩
        · rw [h1.other p (by omega)]
          exact h0.rest p hp hx
      · rw [h1.toSameFits.proposalFor]
        exact ⟨fun p k v hx => ⟨(h1.chosen p k v hx).1, (h1.chosen p k v hx).2, proposalFor_core hx⟩, h1.rest⟩

end Sys2Proof.Machine
end

section
/-!
Resets and release, clocks and entropy, firmware images, the SPDM responder (R565 to R584).
-/
namespace Sys2Proof.Machine

open Sys2Proof

/-! Resets (R566, R567). -/

/-- A cause of Floor reaches the power state and its notices alone. -/
theorem addCause_frame (s : State) (k : Nat) : Notified { s with power := (s.addCause k).power } (s.addCause k) := by
  cases h : bitOf s.power.causes k
  · have hn := addCause_notified h
    unfold Notified at *
    rw [hn]
    rfl
  · rw [State.addCause, if_pos h]
    rfl

/-- What release leaves of the boot state, the alerts and their causes, and whether the package runs. -/
structure Released (s t : State) : Prop where
  boot : t.boot = { s.boot with
    released := true, meas := releaseMeas s.boot.svnFused, log := releaseLog s.boot.svnFused, keySlots := t.boot.keySlots }
  vrLow : t.power.vrLow = s.power.vrLow
  brkLow : t.power.brkLow = s.power.brkLow
  vrCause : s.power.vrLow = true → bitOf t.power.causes 0 = true
  brkCause : s.power.brkLow = true → bitOf t.power.causes 1 = true
  stopped : t.stopped = (s.stopped || !s.boot.entropyGood)

theorem addCauseIf_boot (s : State) (p : Prop) [Decidable p] (k : Nat) : (if p then s.addCause k else s).boot = s.boot := by
  split
  · exact (addCause_frame s k).boot
  · rfl

theorem addCauseIf_stopped (s : State) (p : Prop) [Decidable p] (k : Nat) : (if p then s.addCause k else s).stopped = s.stopped := by
  split
  · exact (addCause_frame s k).stopped
  · rfl

theorem addCauseIf_alerts (s : State) (p : Prop) [Decidable p] (k : Nat) :
    (if p then s.addCause k else s).power.vrLow = s.power.vrLow ∧ (if p then s.addCause k else s).power.brkLow = s.power.brkLow := by
  split
  · obtain ⟨n, l, a, es, h⟩ := addCause_power s k
    rw [h]
    exact ⟨rfl, rfl⟩
  · exact ⟨rfl, rfl⟩

theorem bitOf_addCauseIf (s : State) (p : Prop) [Decidable p] (k j : Nat) :
    bitOf (if p then s.addCause k else s).power.causes j = ((decide p && decide (j = k)) || bitOf s.power.causes j) := by
  split
  · rename_i h; simp [h, bitOf_addCause]
  · rename_i h; simp [h]

/-- A stop leaves the power state, and of the boot state all but the key slots. -/
theorem stop_boot (s : State) (cause ccore : Nat) : (s.stop cause ccore).stopped = true
    ∧ (s.stop cause ccore).boot = { s.boot with keySlots := (s.stop cause ccore).boot.keySlots }
    ∧ (s.stop cause ccore).power = s.power ∧ (s.stopped = false → (s.stop cause ccore).glb.cause = cause) := by
  cases h : s.stopped
  · have ho := OnlyIcu.stop h cause ccore
    refine ⟨ho.stopped, ?_, ho.power, fun _ => by rw [ho.glb]⟩
    rw [ho.boot]
  · rw [stop_of_stopped h]
    exact ⟨h, rfl, rfl, fun hf => by simp at hf⟩

/-- The package leaves reset once the three balls are high. -/
theorem tryRelease_released {s : State} (hr : s.boot.released = false) (hg : s.boot.powerGood = true) (hp : s.boot.perstN = true)
    (hc : s.boot.coolOk = true) : Released s s.tryRelease := by
  let b := { s.boot with released := true, meas := releaseMeas s.boot.svnFused, log := releaseLog s.boot.svnFused }
  let s1 := ({ s with boot := b }).emit (.supply Config.vFuse.toNat)
  let s2 := if s1.power.vrLow then s1.addCause 0 else s1
  let s3 := if s2.power.brkLow then s2.addCause 1 else s2
  have htry : s.tryRelease = if s.boot.entropyGood then s3.sample else s3.stop 1 0 := if_neg (by simp [hr, hg, hp, hc])
  obtain ⟨hv2, hb2⟩ := addCauseIf_alerts s1 (s1.power.vrLow = true) 0
  obtain ⟨hv3, hb3⟩ := addCauseIf_alerts s2 (s2.power.brkLow = true) 1
  have hboot : s3.boot = b := (addCauseIf_boot s2 _ 1).trans (addCauseIf_boot s1 _ 0)
  have hstop : s3.stopped = s.stopped := (addCauseIf_stopped s2 _ 1).trans (addCauseIf_stopped s1 _ 0)
  have hvr : s.power.vrLow = true → bitOf s3.power.causes 0 = true := fun h => by
    have h1 : s1.power.vrLow = true := h
    simp only [s3, s2, bitOf_addCauseIf, h1]
    simp
  have hbrk : s.power.brkLow = true → bitOf s3.power.causes 1 = true := fun h => by
    have h1 : s2.power.brkLow = true := hb2.trans h
    simp only [s3, bitOf_addCauseIf, h1]
    simp
  rw [htry]
  split
  case isTrue he =>
    have h := OnlyIcu.sample s3
    refine ⟨?_, by rw [h.power, hv3, hv2]; rfl, by rw [h.power, hb3, hb2]; rfl, ?_, ?_, by rw [h.stopped, hstop, he]; simp⟩
    · rw [h.boot, hboot]
    · rwa [h.power]
    · rwa [h.power]
  case isFalse he =>
    obtain ⟨hs, hb, hp, -⟩ := stop_boot s3 1 0
    refine ⟨?_, by rw [hp, hv3, hv2]; rfl, by rw [hp, hb3, hb2]; rfl, ?_, ?_, by rw [hs]; simp [he]⟩
    · rw [hb, hboot]
    · rwa [hp]
    · rwa [hp]

theorem tryRelease_of_low {s : State} (h : (s.boot.powerGood && s.boot.perstN && s.boot.coolOk) = false) : s.tryRelease = s := by
  refine if_pos ?_
  cases hg : s.boot.powerGood <;> cases hp : s.boot.perstN <;> simp_all

theorem tryRelease_boot_released {s : State} (hr : s.boot.released = false) :
    s.tryRelease.boot.released = (s.boot.powerGood && s.boot.perstN && s.boot.coolOk) := by
  cases h : s.boot.powerGood && s.boot.perstN && s.boot.coolOk
  · rw [tryRelease_of_low h, hr]
  · simp only [Bool.and_eq_true] at h
    obtain ⟨⟨hg, hp⟩, hc⟩ := h
    rw [(tryRelease_released hr hg hp hc).boot]

/-- Whatever it decides, a try at release leaves the balls' levels, the slot and the alerts. -/
theorem tryRelease_levels {s : State} (hr : s.boot.released = false) :
    s.tryRelease.boot.slotId = s.boot.slotId ∧ s.tryRelease.boot.powerGood = s.boot.powerGood
      ∧ s.tryRelease.boot.coolOk = s.boot.coolOk ∧ s.tryRelease.boot.perstN = s.boot.perstN
      ∧ s.tryRelease.power.vrLow = s.power.vrLow ∧ s.tryRelease.power.brkLow = s.power.brkLow
      ∧ (s.boot.entropyGood = true → s.tryRelease.stopped = s.stopped) := by
  cases h : s.boot.powerGood && s.boot.perstN && s.boot.coolOk
  · rw [tryRelease_of_low h]
    exact ⟨rfl, rfl, rfl, rfl, rfl, rfl, fun _ => rfl⟩
  · simp only [Bool.and_eq_true] at h
    obtain ⟨⟨hg, hp⟩, hc⟩ := h
    have ht := tryRelease_released hr hg hp hc
    refine ⟨?_, ?_, ?_, ?_, ht.vrLow, ht.brkLow, fun he => by simp [ht.stopped, he]⟩ <;> rw [ht.boot]

/-- Settles O52. -/
theorem resetsEndEverythingAndReleaseWaits : Obligations.ResetsEndEverythingAndReleaseWaits := by
  unfold Obligations.ResetsEndEverythingAndReleaseWaits
  intro s ended
  refine ⟨?perst, ?fall, fun slot good hg hr => ?rise, fun cool vrN brkN hr => ?release, fun level => ?cool⟩
  case perst => exact ⟨_, rfl, ⟨rfl, rfl, rfl, rfl, rfl, rfl, rfl, rfl, rfl, rfl, rfl, rfl, rfl, rfl, rfl, rfl, rfl, rfl⟩, rfl, rfl⟩
  case fall => exact ⟨_, rfl, ⟨rfl, rfl, rfl, rfl, rfl, rfl, rfl, rfl, rfl, rfl, rfl, rfl, rfl, rfl, rfl, rfl, rfl, rfl⟩, rfl, rfl⟩
  case rise =>
    let u := { s with boot := { s.boot with powerGood := true, slotId := slot.val, entropyGood := good } }
    have hexec : exec (.powerGoodRise slot good) s = if good then .next u.tryRelease else .next (u.stop 1 0) := if_neg (by simp [hg])
    cases good with
    | true =>
      obtain ⟨hslot, hgood, -, -, -, -, hstop⟩ := tryRelease_levels (s := u) hr
      refine ⟨u.tryRelease, hexec, hslot, hgood, fun h => by simp at h, fun _ => ⟨?_, hstop rfl⟩⟩
      rw [tryRelease_boot_released (s := u) hr]
      rfl
    | false =>
      obtain ⟨hs, hb, -, hcause⟩ := stop_boot u 1 0
      exact ⟨u.stop 1 0, hexec, by rw [hb], by rw [hb], fun _ => ⟨hs, hcause⟩, fun h => by simp at h⟩
  case release =>
    let u : State := { s with
      boot := { s.boot with perstN := true, coolOk := cool }, power := { s.power with vrLow := !vrN, brkLow := !brkN },
      icu := { s.icu with prev := if cool then 2 else 0 } }
    have hexec : exec (.release cool vrN brkN) s = .next u.tryRelease := if_neg (by simp [hr])
    obtain ⟨-, -, hcool, hperst, hvr, hbrk, -⟩ := tryRelease_levels (s := u) hr
    refine ⟨u.tryRelease, hexec, ?_, hcool, hperst, hvr, hbrk, fun hg hc => ?_⟩
    · rw [tryRelease_boot_released (s := u) hr]
      simp [u]
    · have ht := tryRelease_released (s := u) hr hg rfl hc
      refine ⟨by rw [ht.boot], fun h => ht.vrCause (by simp [u, h]), fun h => ht.brkCause (by simp [u, h]), fun h => ?_⟩
      rw [ht.stopped]
      simp [u, h]
  case cool =>
    let u := { s with boot := { s.boot with coolOk := level } }
    let w := { u with icu := { u.icu with prev := if level then 2 else 0 } }
    have hexec : exec (.coolOkChange level) s = if s.boot.released then .next u.sample else .next w.tryRelease := rfl
    cases hr : s.boot.released
    · rw [hr] at hexec
      obtain ⟨-, -, hcool, -⟩ := tryRelease_levels (s := w) hr
      exact ⟨w.tryRelease, hexec, hcool, fun h => by simp at h, fun _ => tryRelease_boot_released (s := w) hr⟩
    · rw [hr] at hexec
      have h := OnlyIcu.sample u
      exact ⟨u.sample, hexec, by rw [h.boot], fun _ => ⟨h.boot, h.power, h.stopped, h.cores⟩, fun h => by simp at h⟩

/-! Clocks and entropy (R565, R581). -/

/-- Settles O53. -/
theorem clocksAndEntropyAreWatched : Obligations.ClocksAndEntropyAreWatched := by
  unfold Obligations.ClocksAndEntropyAreWatched
  refine fun s => ⟨fun lost hg hr hs => ?trip, ?loss, ?back, fun hg hs => ?reseed⟩
  case trip =>
    let b := if lost then { s.boot with sysRefOk := false } else { s.boot with rootLock := false }
    have hexec : exec (.clockMonitorTrip lost) s = .next (State.stop { s with boot := b } 1 0) :=
      if_neg (by rcases hr with hr | hr <;> simp [hg, hr])
    have h := OnlyIcu.stop (s := { s with boot := b }) hs 1 0
    refine ⟨_, hexec, h.stopped, by rw [h.glb], by rw [h.boot], ?_, ?_, h.cores⟩
    · rw [h.boot]
      cases lost <;> simp [b]
    · rw [h.boot]
      cases lost <;> simp [b]
  case loss => exact ⟨_, rfl, (OnlyIcu.sample _).boot, (OnlyIcu.sample _).stopped⟩
  case back => exact ⟨_, rfl, (OnlyIcu.sample _).boot, (OnlyIcu.sample _).stopped⟩
  case reseed => exact ⟨_, if_neg (by simp [hg, hs]), rfl, rfl, rfl⟩

/-! Firmware images (R573 to R576). -/

/-- Duplicates go, members stay. -/
theorem mem_nub_iff {α : Type} [BEq α] [LawfulBEq α] {x : α} {xs : List α} : x ∈ nub xs ↔ x ∈ xs := by
  have h : ∀ (xs acc : List α),
      x ∈ xs.foldl (fun acc x => if acc.contains x then acc else acc ++ [x]) acc ↔ x ∈ acc ∨ x ∈ xs := fun xs => by
    induction xs with
    | nil => simp
    | cons y xs ih =>
      intro acc
      rw [List.foldl_cons, ih]
      split
      · rename_i hy
        have hy' : y ∈ acc := by simpa using hy
        simp only [List.mem_cons]
        constructor
        · tauto
        · rintro (h | rfl | h)
          · exact Or.inl h
          · exact Or.inl hy'
          · exact Or.inr h
      · simp [or_assoc]
  exact (h xs []).trans (by simp)

theorem OnlyT0.boot {s t : State} (h : OnlyT0 s t) : t.boot = s.boot := by rw [h]

theorem OnlyIcu.mem {s t : State} (h : OnlyIcu s t) : t.mem = s.mem := by rw [h.rest]

/-- An image passes exactly when no check of R573 fails. -/
theorem imgError_eq_zero_iff (svn : Nat) (img : List Byte) : imgError svn img = 0 ↔
    imgFormOk img = true ∧ imgKeyOk img = true ∧ Config.edVerify ((img.drop 256).take 32) (img.take 256) ((img.drop 288).take 64) = true
      ∧ Config.mlVerify ((img.drop 352).take 1952) (img.take 256) ((img.drop 2304).take 3309) = true
      ∧ Config.sha384 (imgPayload img) = BitVec.ofNat 384 (imgField img 32 48) ∧ svn ≤ imgField img 12 1 := by
  unfold imgError
  extract_lets msg
  generalize Config.edVerify _ _ _ = ed, Config.mlVerify _ _ _ = ml
  generalize Config.sha384 _ = digest, BitVec.ofNat 384 _ = said, imgField img 12 1 = n
  cases imgFormOk img with
  | false => simp
  | true =>
  cases imgKeyOk img with
  | false => simp
  | true =>
  cases ed with
  | false => simp
  | true =>
  cases ml with
  | false => simp
  | true =>
  by_cases hd : digest = said
  · by_cases hn : n < svn
    · simp [hd, hn]
    · simp [hd, hn, Nat.le_of_not_lt hn]
  · simp [hd]

/-- The payload of an image that passed stands in reserve part 0; nothing but T0 and reports has changed. -/
theorem copyPayload_passed (s : State) (img : List Byte) :
    OnlyT0 s (s.copyPayload img 0) ∧ (s.copyPayload img 0).holds (t0Addr 0xF0 0) (imgPayload img) :=
  ⟨t0Write_only s _ _, t0Write_holds s _ _⟩

/-- What an image that starts leaves in the registers and in measurement 3. -/
theorem startImage_boot (s : State) (img : List Byte) (source : Nat) :
    let t := s.startImage img source
    t.boot.stage = .loading ∧ t.boot.source = source ∧ t.boot.error = 0 ∧ t.boot.busy = s.boot.busy ∧ t.boot.svn = imgField img 12 1
      ∧ t.boot.fwVersion = imgField img 8 4 ∧ t.wireMax = imgField img 14 1
      ∧ t.boot.meas[2]? = (s.boot.meas[2]?).map (fun m => extendMeas m (Config.sha384 (img.take 256))) ∧ t.t0 = s.t0 := by
  refine ⟨rfl, rfl, rfl, rfl, rfl, rfl, rfl, ?_, rfl⟩
  simp only [State.startImage, State.extend]
  rw [List.getElem?_set_ne (by decide), List.getElem?_set_self']
  cases h : s.boot.meas[2]? with
  | none => rfl
  | some m => simp [List.getD, h]

theorem imgDone_only (s : State) (stage : Stage) (e : Nat) :
    OnlyIcu { s with boot := { s.boot with stage := stage, error := e, busy := false } } (s.imgDone stage e) := OnlyIcu.pulse _ 71

/-- Settles O54. -/
theorem imagesStartOnlyWhenTheyPass : Obligations.ImagesStartOnlyWhenTheyPass := by
  unfold Obligations.ImagesStartOnlyWhenTheyPass
  intro s hr hs starts
  refine ⟨imgError_eq_zero_iff s.boot.svnFused, fun found img hstage hbusy => ?boot, fun failed hstage => ?init,
    fun hstage hbusy => ?load, fun image hstage hbusy => ?mailbox, fun hstage hbusy => ?update, fun image back hstage => ?updated⟩
  case boot =>
    let e := if found then imgError s.boot.svnFused img else 1
    let u := s.copyPayload img e
    have hexec : exec (.bootImageChecked found img) s = if e = 0 then .next (u.startImage img 1)
        else .next { u with boot := { u.boot with stage := .mailbox, error := e } } := if_neg (by simp [hr, hs, hstage])
    by_cases he : e = 0
    · rw [if_pos he] at hexec
      have hu : u = s.copyPayload img 0 := by rw [← he]
      obtain ⟨honly, hholds⟩ := copyPayload_passed s img
      rw [← hu] at honly hholds
      obtain ⟨h1, h2, h3, h4, h5, h6, h7, h8, h9⟩ := startImage_boot u img 1
      rw [honly.boot] at h4 h8
      refine ⟨_, hexec, fun _ _ => ⟨h1, h2, h3, h4.trans hbusy, h5, h6, h7, h8, ?_⟩, fun hf hne => ?_, fun hf => ?_⟩
      · rwa [State.holds, h9]
      · simp [e, hf] at he; exact absurd he hne
      · simp [e, hf] at he
    · rw [if_neg he] at hexec
      refine ⟨_, hexec, fun hf h0 => ?_, fun hf _ => ⟨rfl, by simp [e, hf]⟩, fun hf => ⟨rfl, by simp [e, hf]⟩⟩
      simp [e, hf, h0] at he
  case init =>
    let bad := sortBy (fun a b => decide (a < b)) (nub (failed.map (·.val)))
    have h := OnlyIcu.sample { s with t0 := { s.t0 with flips := [] }, mem := { ready := true, failed := bad },
                                      boot := { s.boot with stage := .running, ran := true } }
    have hmem : ∀ c : Fin 384, bad.contains c.val = failed.contains c := fun c => by
      rw [Bool.eq_iff_iff, List.contains_iff_mem, List.contains_iff_mem, (sortBy_perm _ _).mem_iff, mem_nub_iff]
      simp [Fin.val_inj]
    refine ⟨_, if_neg (by simp [hr, hs, hstage]), by rw [h.boot], by rw [State.answers, h.boot], by rw [h.t0],
      by rw [h.mem], fun c => ?_⟩
    rw [State.trained, h.mem, hmem]
    rfl
  case load =>
    refine ⟨_, (if_pos hstage), ?_⟩
    rw [State.imgGo, if_neg (by simp [hr, hs, hbusy]), if_pos hstage]
    exact ⟨rfl, hstage⟩
  case mailbox =>
    let e := s.hostImgError image
    let img := image.bytes.take s.boot.imgLen
    let u := if e = 9 then s else s.copyPayload img e
    have hexec : exec (.mailboxImageChecked image) s = if e = 0 then .next ((u.startImage img 2).imgDone .loading 0)
        else .next (u.imgDone .mailbox e) := if_neg (by simp [hs, hstage, hbusy])
    by_cases he : e = 0
    · rw [if_pos he] at hexec
      have hu : u = s.copyPayload img 0 := by simp only [u, he]; rfl
      obtain ⟨honly, hholds⟩ := copyPayload_passed s img
      rw [← hu] at honly hholds
      obtain ⟨h1, h2, h3, h4, h5, h6, h7, h8, h9⟩ := startImage_boot u img 2
      have hd := imgDone_only (u.startImage img 2) .loading 0
      rw [honly.boot] at h8
      refine ⟨_, hexec, by rw [hd.boot], fun _ => ⟨by rw [hd.boot], ?_, by rw [hd.boot], by rw [hd.boot], ?_, ?_, ?_, ?_, ?_⟩,
        fun hne => absurd he hne⟩
      · rw [hd.boot]; exact h2
      · rw [hd.boot]; exact h5
      · rw [hd.boot]; exact h6
      · rw [hd.rest]; exact h7
      · rw [hd.boot]; exact h8
      · rw [State.holds, hd.t0, h9]; exact hholds
    · rw [if_neg he] at hexec
      have hd := imgDone_only u .mailbox e
      exact ⟨_, hexec, by rw [hd.boot], fun h0 => absurd h0 he, fun _ => by rw [hd.boot]; exact ⟨rfl, rfl⟩⟩
  case update =>
    refine ⟨_, (if_pos hstage), ?_⟩
    rw [State.imgGo, if_neg (by simp [hr, hs, hbusy]), if_neg (by simp [hstage]), if_pos hstage]
    exact ⟨rfl, rfl⟩
  case updated =>
    let e := s.hostImgError image
    let img := image.bytes.take s.boot.imgLen
    let u := s.emit (.flash img)
    let b := if s.boot.commitSvn && decide (s.boot.svnFused < imgField img 12 1) then { s.boot with svnFused := imgField img 12 1 } else s.boot
    have hexec : exec (.firmwareUpdateDone image back) s = if e ≠ 0 then .next (s.imgDone .running e)
        else if imgError s.boot.svnFused back ≠ 0 then .next (u.imgDone .running 10)
        else .next (State.imgDone { u with boot := b } .running 0) := if_neg (by simp [hs, hstage])
    by_cases he : e ≠ 0
    · rw [if_pos he] at hexec
      have hd := imgDone_only s .running e
      refine ⟨_, hexec, ?_⟩
      rw [hd.boot]
      exact ⟨rfl, rfl, rfl, rfl, (if_pos he).symm, (if_neg fun h => he h.1).symm⟩
    rw [if_neg he] at hexec
    by_cases hb : imgError s.boot.svnFused back ≠ 0
    · rw [if_pos hb] at hexec
      have hd := imgDone_only u .running 10
      refine ⟨_, hexec, ?_⟩
      rw [hd.boot]
      exact ⟨rfl, rfl, rfl, rfl, ((if_neg he).trans (if_pos hb)).symm, rfl⟩
    · rw [if_neg hb] at hexec
      have hd := imgDone_only { u with boot := b } .running 0
      have hkeep : b.fwVersion = s.boot.fwVersion ∧ b.meas = s.boot.meas := by
        simp only [b]
        split <;> exact ⟨rfl, rfl⟩
      have hsvn : b.svnFused = if s.boot.commitSvn = true then max s.boot.svnFused (imgField img 12 1) else s.boot.svnFused := by
        simp only [b]
        cases s.boot.commitSvn
        · rfl
        · by_cases hlt : s.boot.svnFused < imgField img 12 1
          · simp [hlt, Nat.max_eq_right hlt.le]
          · simp [hlt, Nat.max_eq_left (Nat.le_of_not_lt hlt)]
      refine ⟨_, hexec, ?_⟩
      rw [hd.boot]
      refine ⟨rfl, rfl, hkeep.1, hkeep.2, ((if_neg he).trans (if_neg hb)).symm, ?_⟩
      simpa using hsvn

/-! The SPDM responder (R580, R583, R584). -/

/-- A response goes out; nothing but the responder and the DRBG's count has changed. -/
def Tells (s t : State) (code : Nat) (rest : List Byte) : Prop :=
  t.out = s.out ++ [.doe (leBytes 1 code ++ Config.spdmBody code s.spdm.answered ++ rest)]
    ∧ { t with spdm := s.spdm, out := s.out, boot := { t.boot with drbg := s.boot.drbg } } = s

theorem tells_reply {s u : State} (code : Nat) (bytes : List Byte) (ho : u.out = s.out) (ha : u.spdm.answered = s.spdm.answered)
    (hu : { u with spdm := s.spdm, out := s.out, boot := { u.boot with drbg := s.boot.drbg } } = s) :
    Tells s (u.reply code bytes) code bytes := by
  refine ⟨?_, hu⟩
  show u.out ++ [Emission.doe (leBytes 1 code ++ Config.spdmBody code u.spdm.answered ++ bytes)] = _
  rw [ho, ha]

theorem tells_modSpdm_reply (s : State) (f : Spdm → Spdm) (code : Nat) (bytes : List Byte)
    (hf : (f s.spdm).answered = s.spdm.answered) : Tells s ((s.modSpdm f).reply code bytes) code bytes :=
  tells_reply code bytes rfl hf rfl

theorem tells_replySigned (s : State) (code : Nat) (bytes msg : List Byte) :
    Tells s (s.replySigned code bytes msg) code (bytes ++ Config.edSign s.aliasOf msg) :=
  tells_modSpdm_reply s (fun x => { x with signed := some msg }) code _ rfl

/-- A request's outcome: in its order it has its own answer, out of order UnexpectedRequest. -/
def InOrder (s : State) (o : Host.Outcome State Fault Refusal) (ok : Bool) (code : Nat) (rest : List Byte) (good : State → Prop) : Prop :=
  ∃ t, o = .next t ∧ (ok = true → Tells s t code rest ∧ good t)
    ∧ (ok = false → Tells s t 0x7F [4#8] ∧ t.spdm = { s.spdm with answered := s.spdm.answered + 1 })

theorem inOrder_answerIf {s : State} (hup : s.spdmUp = true) {ok : Bool} {f : State → State} {code : Nat} {rest : List Byte}
    {good : State → Prop} (hf : ok = true → Tells s (f s) code rest ∧ good (f s)) : InOrder s (s.answerIf ok f) ok code rest good := by
  rw [State.answerIf, if_neg (by simp [hup])]
  cases ok with
  | true => exact ⟨_, rfl, fun _ => hf rfl, fun h => by simp at h⟩
  | false => exact ⟨_, rfl, fun h => by simp at h, fun _ => ⟨tells_modSpdm_reply s id 0x7F [4#8] rfl, rfl⟩⟩

theorem exec_getMeasurements {s : State} {k : Nat} {m : BitVec 384} (h1 : 1 ≤ k) (h6 : k ≤ 6) (hm : s.boot.meas[k - 1]? = some m)
    (msg : List Byte) :
    exec (.getMeasurements msg true k) s = s.answerIf s.spdm.algs fun _ => s.replySigned 0x60 (leBytes 48 m.toNat) msg := by
  simp only [exec, execGetMeasurements, State.answerIf, hm, show k ≠ 0 by omega, show k ≠ 0xFF by omega, if_false, Option.map_some,
    if_true]

theorem exec_getPqSignature_of_none {s : State} (h : s.spdm.signed = none) : exec .getPqSignature s = s.answerIf false id := by
  simp only [exec, execGetPqSignature]
  rw [h]

theorem exec_getPqSignature_of_some {s : State} {msg : List Byte} (h : s.spdm.signed = some msg) : exec .getPqSignature s =
    s.answerIf true fun s => s.reply 0x7E (leBytes 48 (Config.sha384 msg).toNat ++ Config.mlSign s.aliasOf msg) := by
  simp only [exec, execGetPqSignature]
  rw [h]

/-- Settles O55: the answers one by one, each for its order. -/
theorem spdmAnswersInOrder : Obligations.SpdmAnswersInOrder := by
  unfold Obligations.SpdmAnswersInOrder
  intro s hup tells order x signs
  have horder : ∀ {c ok code rest good}, InOrder s (exec c s) ok code rest good → order c ok code rest good := id
  refine ⟨?version, ?caps, ?algs, ?digests, fun offset length hlt => ?certificate, fun msg => ?challenge, fun msg k m h1 h6 hm => ?measures,
    fun msg => ?exchange, ?finishGood, ?finishBad, fun k hk => ?update, ?heartbeat, ?ends, fun offset length hle => ?pqChain,
    fun msg hmsg => ?pqSignature, fun hnone => ?pqNone, fun key => ⟨?prog, ?activate⟩⟩
  case version =>
    refine horder ?_
    simp only [exec, execGetVersion]
    exact inOrder_answerIf hup fun _ => ⟨tells_modSpdm_reply s _ 0x04 [] rfl, rfl, rfl, rfl⟩
  case caps =>
    refine horder ?_
    simp only [exec, execGetCapabilities]
    exact inOrder_answerIf hup fun _ => ⟨tells_modSpdm_reply s _ 0x61 [] rfl, rfl⟩
  case algs =>
    refine horder ?_
    simp only [exec, execNegotiateAlgorithms]
    exact inOrder_answerIf hup fun _ => ⟨tells_modSpdm_reply s _ 0x63 [] rfl, rfl⟩
  case digests =>
    refine horder ?_
    simp only [exec, execGetDigests]
    exact inOrder_answerIf hup fun _ => ⟨tells_modSpdm_reply s id 0x01 _ rfl, trivial⟩
  case certificate =>
    refine horder ?_
    simp only [exec, execGetCertificate]
    refine inOrder_answerIf hup fun _ => ⟨?_, trivial⟩
    rw [if_neg (by simpa using hlt)]
    exact tells_modSpdm_reply s id 0x02 _ rfl
  case challenge =>
    refine horder ?_
    simp only [exec, execChallenge]
    exact inOrder_answerIf hup fun _ => ⟨tells_replySigned s 0x03 [] msg, rfl⟩
  case measures =>
    refine horder ?_
    rw [exec_getMeasurements h1 h6 hm]
    exact inOrder_answerIf hup fun _ => ⟨tells_replySigned s 0x60 _ msg, rfl⟩
  case exchange =>
    refine horder ?_
    simp only [exec, execKeyExchange]
    exact inOrder_answerIf hup fun _ => ⟨tells_reply _ _ rfl rfl rfl, rfl, rfl⟩
  case finishGood =>
    refine horder ?_
    simp only [exec, execFinish]
    exact inOrder_answerIf hup fun _ => ⟨tells_modSpdm_reply s _ 0x65 [] rfl, rfl⟩
  case finishBad =>
    refine horder ?_
    simp only [exec, execFinish]
    exact inOrder_answerIf hup fun _ => ⟨tells_modSpdm_reply s _ 0x7F [6#8] rfl, rfl⟩
  case update =>
    refine horder ?_
    simp only [exec, execKeyUpdate]
    refine inOrder_answerIf hup fun _ => ?_
    rw [if_pos (by rcases hk with rfl | rfl <;> rfl)]
    exact ⟨tells_modSpdm_reply s _ 0x69 [] rfl, rfl⟩
  case heartbeat =>
    refine horder ?_
    simp only [exec, execSpdmHeartbeat]
    exact inOrder_answerIf hup fun h => ⟨tells_modSpdm_reply s id 0x68 [] rfl, h⟩
  case ends =>
    refine horder ?_
    simp only [exec, execEndSession]
    exact inOrder_answerIf hup fun _ => ⟨tells_modSpdm_reply s _ 0x6C [] rfl, rfl, rfl, rfl⟩
  case pqChain =>
    refine horder ?_
    simp only [exec, execGetPqChain]
    refine inOrder_answerIf hup fun _ => ⟨?_, trivial⟩
    rw [if_neg (Nat.not_lt.2 hle)]
    exact tells_modSpdm_reply s id 0x7E _ rfl
  case pqSignature =>
    refine horder ?_
    rw [exec_getPqSignature_of_some hmsg]
    exact inOrder_answerIf hup fun _ => ⟨tells_modSpdm_reply s id 0x7E _ rfl, hmsg⟩
  case pqNone =>
    refine horder ?_
    rw [exec_getPqSignature_of_none hnone]
    exact inOrder_answerIf hup fun h => absurd h (by decide)
  case prog =>
    refine horder ?_
    simp only [exec, execIdeKm]
    exact inOrder_answerIf hup fun _ => ⟨tells_modSpdm_reply s _ 0x7E [] rfl, rfl⟩
  case activate =>
    refine horder ?_
    simp only [exec, execIdeKm]
    exact inOrder_answerIf hup fun _ => ⟨tells_modSpdm_reply s _ 0x7E [] rfl, rfl⟩

end Sys2Proof.Machine
end

section
/-!
The interrupt controller's bits, routes and deliveries; register and I3C accesses; stepped admission (R379, R588 to R609, R622).
-/
namespace Sys2Proof.Machine

open Sys2Proof

/-! Sets of sources as numbers. -/

theorem testBit_clearBits {x m j : Nat} (hj : j < 1024) : (clearBits x m).testBit j = (x.testBit j && !m.testBit j) := by
  unfold clearBits
  generalize 1024 = n at *
  simp [Nat.testBit_and, Nat.testBit_xor, Nat.testBit_two_pow_sub_one, Nat.testBit_mod_two_pow, hj]

/-- The bits of a group's write that reach the sources. -/
theorem testBit_unlockedBits (n : Fin 16) (v : BitVec 64) (m : Nat) : (unlockedBits n.val v.toNat).testBit m = true ↔
    m / 64 = n.val ∧ Nat.testBit v.toNat (m % 64) = true ∧ isLocked (64 * n.val) = false := by
  unfold unlockedBits
  cases isLocked (64 * n.val) with
  | true => simp
  | false =>
    simp only [if_false, Bool.false_eq_true, Nat.testBit_mul_two_pow, Bool.and_eq_true, decide_eq_true_eq, and_true]
    constructor
    · rintro ⟨hle, hbit⟩
      have hlt : m - 64 * n.val < 64 := by
        by_contra hge
        rw [Nat.testBit_lt_two_pow (v.isLt.trans_le (Nat.pow_le_pow_right (by decide) (by omega)))] at hbit
        simp at hbit
      exact ⟨by omega, by rwa [show m % 64 = m - 64 * n.val by omega]⟩
    · rintro ⟨hdiv, hbit⟩
      exact ⟨by omega, by rwa [show m - 64 * n.val = m % 64 by omega]⟩

theorem icuWrite_run {s : State} (ha : s.answers = true) (hr : s.inRest = false) (f : State → State) : s.icuWrite f = f s := by
  simp [State.icuWrite, ha, hr]

theorem icuWrite_rest {s : State} (ha : s.answers = true) (hr : s.inRest = true) (f : State → State) :
    s.icuWrite f = { s with icu := { s.icu with restSeen := true } } := by
  simp [State.icuWrite, ha, hr]

theorem icuWrite_silent {s : State} (ha : s.answers = false) (f : State → State) : s.icuWrite f = s := by
  simp [State.icuWrite, ha]

theorem icuChange_en (s : State) (f : Icu → Icu) : (s.icuChange f).icu.en = (f s.icu).en := (Delivered.icuChange s f).en

theorem icuChange_pend (s : State) (f : Icu → Icu) : (s.icuChange f).icu.pend = (f s.icu).pend := (Delivered.icuChange s f).pend

/-- A source whose events come as pulses. -/
theorem exec_icuInputEvent_pulse {s : State} {n : Fin 1024} (hn : (16 ≤ n.val ∧ n.val < 36) ∨ (512 ≤ n.val ∧ n.val < 896)) :
    exec (.icuInputEvent n) s = .next (s.pulse n.val) := by
  refine congrArg Host.Outcome.next (if_pos ?_)
  rcases hn with ⟨h1, h2⟩ | ⟨h1, h2⟩
  · simp [h1, h2]
  · simp [h1, h2]

/-- Settles O57. -/
theorem interruptBitsAreSetAndCleared : Obligations.InterruptBitsAreSetAndCleared := by
  unfold Obligations.InterruptBitsAreSetAndCleared
  refine fun s => ⟨fun ha hr n v => ?_, fun ha hr n v => ?rest, fun ha n v => ?silent, fun hr n hn hs => ?event⟩
  · intro hit
    have hrun := icuWrite_run ha hr
    have hbit := testBit_unlockedBits n v
    refine ⟨⟨_, rfl, ?enSet⟩, ⟨_, rfl, ?enClr⟩, ⟨_, rfl, ?pendSet⟩, ⟨_, rfl, ?pendClr⟩⟩
    case enSet =>
      rw [hrun, icuChange_pend, icuChange_en]
      refine ⟨rfl, fun m _ => ?_⟩
      rw [Nat.testBit_or, Bool.or_eq_true, hbit]
    case enClr =>
      rw [hrun, icuChange_pend, icuChange_en]
      refine ⟨rfl, fun m hm => ?_⟩
      rw [testBit_clearBits hm, Bool.and_eq_true, Bool.not_eq_true', ← Bool.not_eq_true, hbit]
    case pendSet =>
      rw [hrun, icuChange_pend, icuChange_en]
      refine ⟨rfl, fun m _ => ?_⟩
      rw [Nat.testBit_or, Bool.or_eq_true, hbit]
    case pendClr =>
      rw [hrun, icuChange_pend, icuChange_en]
      refine ⟨rfl, fun m hm => ?_⟩
      rw [testBit_clearBits hm, Bool.and_eq_true, Bool.not_eq_true', ← Bool.not_eq_true, hbit]
  case rest =>
    have hrest := icuWrite_rest ha hr
    exact ⟨congrArg _ (hrest _), congrArg _ (hrest _), congrArg _ (hrest _), congrArg _ (hrest _), fun m w => congrArg _ (hrest _)⟩
  case silent => exact ⟨congrArg _ (icuWrite_silent ha _), congrArg _ (icuWrite_silent ha _)⟩
  case event =>
    refine ⟨_, exec_icuInputEvent_pulse hn, ?_⟩
    rw [pulse_eq_icuChange hr hs, icuChange_en, icuChange_pend]
    refine ⟨rfl, fun m _ => ?_⟩
    rw [Nat.testBit_or, Bool.or_eq_true, Nat.testBit_two_pow, decide_eq_true_eq, eq_comm (a := n.val)]

/-! Routes and deliveries (R593 to R596). -/

/-- A route is what the table of routes lists, else the source's default sense. -/
theorem route_eq_spGet (s : State) (m : Nat) : s.route m = spGet (defaultSense m) s.icu.routes m := by
  unfold State.route
  induction s.icu.routes with
  | nil => rfl
  | cons x rs ih =>
    rw [spGet_cons, List.find?_cons]
    by_cases hx : x.1 = m
    · simp [hx]
    · rw [if_neg hx, ← ih, beq_false_of_ne hx]

/-- The table of routes once a source's route is `x`. -/
def setRoute (routes : Sp Nat) (n x : Nat) : Sp Nat :=
  if x = defaultSense n then spErase routes n else spInsert n x (spErase routes n)

theorem spGet_setRoute (routes : Sp Nat) (n x m : Nat) :
    spGet (defaultSense m) (setRoute routes n x) m = if m = n then x else spGet (defaultSense m) routes m := by
  unfold setRoute
  split
  · rename_i hx
    rw [spGet_spErase]
    split
    · rename_i hm; rw [hx, hm]
    · rfl
  · rw [spGet_spInsert _ _ _ _ _ fun y hy => by simpa [spErase] using (List.mem_filter.1 hy).2, spGet_spErase]
    split <;> rfl

theorem exec_icuRouteWrite {s : State} (ha : s.answers = true) (hr : s.inRest = false) (n : Fin 1024) (v : BitVec 32) :
    exec (.icuRouteWrite n v) s = .next (if isLocked n.val || !routeTaken (v.toNat % 2 ^ 31) then s
      else State.updateLines { s with icu := { s.icu with routes := setRoute s.icu.routes n.val (v.toNat % 2 ^ 31) } }) :=
  congrArg Host.Outcome.next (icuWrite_run ha hr _)

/-- Only one number of a range passes a test that names it. -/
theorem filter_range_eq {p : Nat → Bool} {n k : Nat} (hn : n < k) (hp : ∀ m, p m = decide (m = n)) :
    (List.range k).filter p = [n] := by
  have hcount : (List.range k).count n = 1 := List.count_eq_one_of_mem List.nodup_range (List.mem_range.2 hn)
  rw [show p = fun m => decide (m = n) from funext hp, List.filter_eq, hcount]
  rfl

/-- The one source that has become active, routed to a vector, is delivered there. -/
theorem deliver_one {s : State} {before n : Nat} (hn : n < 1024) (hact : s.icu.active.testBit n = true)
    (hbefore : ∀ m, (s.icu.active.testBit m && !before.testBit m) = decide (m = n)) (hvec : s.route n / 8 % 2 = 1) :
    s.deliver before = ((s.deliverVector n).noteOff
      (if (s.fn (s.route n / 128 % 32)).msixEnable then [] else [n])).updateLines := by
  unfold State.deliver
  have hne : s.icu.active ≠ 0 := fun h => by simp [h] at hact
  have hnew : (List.range 1024).filter (fun m => s.icu.active.testBit m && !before.testBit m) = [n] := filter_range_eq hn hbefore
  have hoff : [n].filter (fun n => !(s.fn (s.route n / 128 % 32)).msixEnable) =
      if (s.fn (s.route n / 128 % 32)).msixEnable then [] else [n] := by
    cases h : (s.fn (s.route n / 128 % 32)).msixEnable <;> simp [h]
  have hvecs : [n].filter (fun n => s.route n / 8 % 2 == 1) = [n] := by simp [hvec]
  have hfirst : [n].filter (fun n' => !([n].any fun m => decide (m < n') && s.route m / 128 == s.route n' / 128)) = [n] := by simp
  simp only [if_neg hne, hnew, hvecs, hfirst, hoff, List.foldl_cons, List.foldl_nil]

theorem deliverVector_out {s : State} {n : Nat} (hon : (s.fn (s.route n / 128 % 32)).msixEnable = true)
    (hf : (s.fn (s.route n / 128 % 32)).msixMask = false)
    (he : (spGet MsixEntry.reset (s.fn (s.route n / 128 % 32)).msix (s.route n / 4096 % 2048)).mask = false) :
    (s.deliverVector n).out = s.out ++ [.msix (s.route n / 128 % 32) (s.route n / 4096 % 2048)
      (spGet MsixEntry.reset (s.fn (s.route n / 128 % 32)).msix (s.route n / 4096 % 2048)).addr.toNat
      (spGet MsixEntry.reset (s.fn (s.route n / 128 % 32)).msix (s.route n / 4096 % 2048)).data.toNat] := by
  simp [State.deliverVector, State.raiseVector, hon, hf, he]

theorem deliverVector_pending {s : State} {n : Nat} (hon : (s.fn (s.route n / 128 % 32)).msixEnable = true)
    (hm : (s.fn (s.route n / 128 % 32)).msixMask = true
      ∨ (spGet MsixEntry.reset (s.fn (s.route n / 128 % 32)).msix (s.route n / 4096 % 2048)).mask = true) :
    (spGet MsixEntry.reset ((s.deliverVector n).fn (s.route n / 128 % 32)).msix (s.route n / 4096 % 2048)).pending = true := by
  have hm' : ((s.fn (s.route n / 128 % 32)).msixMask
      || (spGet MsixEntry.reset (s.fn (s.route n / 128 % 32)).msix (s.route n / 4096 % 2048)).mask) = true := by simpa using hm
  simp [State.deliverVector, State.raiseVector, hon, hm']

/-- Telling the Compositor cores emits, and changes nothing of functions or of what was recorded of MSI-X. -/
theorem updateLines_frame (s : State) : s.out <+: s.updateLines.out ∧ s.updateLines.fns = s.fns
    ∧ s.updateLines.icu.msixOff = s.icu.msixOff ∧ s.updateLines.icu.offSource = s.icu.offSource := by
  unfold State.updateLines
  extract_lets now s'
  have h : ∀ (ks : List Nat) (u : State),
      let w := ks.foldl (fun s k =>
        if Nat.testBit now k != Nat.testBit s.icu.lines k then s.emit (.coreLine k (Nat.testBit now k)) else s) u
      u.out <+: w.out ∧ w.fns = u.fns ∧ w.icu = u.icu := fun ks => by
    induction ks with
    | nil => exact fun u => ⟨List.prefix_rfl, rfl, rfl⟩
    | cons k ks ih =>
      intro u
      obtain ⟨ho, hf, hi⟩ := ih (if Nat.testBit now k != Nat.testBit u.icu.lines k then u.emit (.coreLine k (Nat.testBit now k)) else u)
      rw [List.foldl_cons]
      refine ⟨List.IsPrefix.trans ?_ ho, hf.trans ?_, hi.trans ?_⟩
      · split
        · exact List.prefix_append _ _
        · exact List.prefix_rfl
      · split <;> rfl
      · split <;> rfl
  obtain ⟨ho, hf, hi⟩ := h (List.range 8) s
  have hmsix : s'.icu.msixOff = s.icu.msixOff := congrArg Icu.msixOff hi
  have hsource : s'.icu.offSource = s.icu.offSource := congrArg Icu.offSource hi
  exact ⟨ho, hf, hmsix, hsource⟩

/-- Settles O58. -/
theorem activeSourcesAreDelivered : Obligations.ActiveSourcesAreDelivered := by
  unfold Obligations.ActiveSourcesAreDelivered
  refine fun s => ⟨fun ha hr n v => ?route, fun hr n hlo hhi hsense hvec hen hpend => ?delivery, fun f v hv => ?unmask⟩
  case route =>
    refine ⟨_, exec_icuRouteWrite ha hr n v, ?_⟩
    by_cases htaken : isLocked n.val = false ∧ routeTaken (v.toNat % 2 ^ 31) = true
    · rw [if_neg (by rw [htaken.1, htaken.2]; decide), if_pos htaken]
      have h := Delivered.updateLines { s with icu := { s.icu with routes := setRoute s.icu.routes n.val (v.toNat % 2 ^ 31) } }
      refine ⟨h.en, h.pend, ?_, fun m hm => ?_⟩
      · rw [h.route, route_eq_spGet, spGet_setRoute, if_pos rfl]
      · rw [h.route, route_eq_spGet, spGet_setRoute, if_neg hm, ← route_eq_spGet]
    · rw [if_pos ?_, if_neg htaken]
      · exact ⟨rfl, rfl, rfl, fun _ _ => rfl⟩
      · cases hl : isLocked n.val
        · simpa [hl] using htaken
        · rfl
  case delivery =>
    intro f v e
    let u : State := { s with icu := { s.icu with pend := s.icu.pend ||| 2 ^ n.val } }
    have hbit : ∀ m, u.icu.active.testBit m = (s.icu.en.testBit m && (s.icu.pend.testBit m || decide (m = n.val))) := fun m => by
      simp only [u, Icu.active, Nat.testBit_and, Nat.testBit_or, Nat.testBit_two_pow, eq_comm (a := n.val)]
    have hact : u.icu.active.testBit n.val = true := by rw [hbit]; simp [hen]
    have hnew : ∀ m, (u.icu.active.testBit m && !s.icu.active.testBit m) = decide (m = n.val) := fun m => by
      rw [hbit]
      by_cases hm : m = n.val
      · simp [hm, hen, hpend, Icu.active, Nat.testBit_and]
      · simp [hm, Icu.active, Nat.testBit_and]
    have hdel := deliver_one (s := u) n.isLt hact hnew hvec
    refine ⟨u.deliver s.icu.active, (exec_icuInputEvent_pulse (Or.inr ⟨hlo, hhi⟩)).trans
      (congrArg _ (pulse_eq_icuChange hr (Or.inr ⟨by omega, by omega⟩))), ?_, fun hon hf he => ?_, fun hon hm => ?_, fun hoff => ?_⟩
    · rw [(Delivered.deliver u _).active, hact]
    · rw [hdel, if_pos (show (u.fn (u.route n.val / 128 % 32)).msixEnable = true from hon)]
      refine (updateLines_frame _).1.subset ?_
      show _ ∈ (u.deliverVector n.val).out
      rw [deliverVector_out (s := u) hon hf he]
      exact List.mem_append_right _ (List.mem_singleton.2 rfl)
    · rw [hdel, if_pos (show (u.fn (u.route n.val / 128 % 32)).msixEnable = true from hon), State.fn, (updateLines_frame _).2.1]
      exact deliverVector_pending (s := u) hon hm
    · obtain ⟨-, -, hmsix, hsource⟩ := updateLines_frame ((u.deliverVector n.val).noteOff [n.val])
      rw [hdel, if_neg (by simp only [Bool.not_eq_true]; exact hoff), hmsix, hsource]
      refine ⟨?_, rfl⟩
      show (u.deliverVector n.val).icu.msixOff = true
      unfold State.deliverVector
      rw [if_neg (by simp only [Bool.not_eq_true]; exact hoff)]
  case unmask =>
    intro e
    let u := s.modFn f.val fun x => { x with msix := spPut MsixEntry.reset x.msix v { e with mask := false } }
    have hexec : exec (.msixMaskClear f (some v)) s = .next (u.sendPending f.val v) := if_neg (Nat.not_le.2 hv)
    have hu : u.fn f.val = { s.fn f.val with msix := spPut MsixEntry.reset (s.fn f.val).msix v { e with mask := false } } := by
      simp [u]
    have hentry : spGet MsixEntry.reset (u.fn f.val).msix v = { e with mask := false } := by
      rw [hu]; exact spGet_spPut _ _ _ _ _ |>.trans (if_pos rfl)
    refine ⟨_, hexec, ?_, fun ⟨hon, hmask, hp⟩ => ?_⟩
    · unfold State.sendPending
      simp only [hentry]
      split
      · simp
      · rw [hentry]
    · have hgo : ((u.fn f.val).msixEnable && !(u.fn f.val).msixMask && true && e.pending) = true := by
        rw [hu]; simp [hon, hmask, hp]
      unfold State.sendPending
      simp only [hentry, Bool.not_false]
      rw [if_pos hgo]
      exact ⟨rfl, by simp⟩

/-! The I3C target (R609, R622). -/

theorem length_leBytes (n x : Nat) : (leBytes n x).length = n := by
  induction n generalizing x with
  | zero => rfl
  | succ n ih => simp [leBytes, ih]

theorem ofLeBytes_leBytes (n x : Nat) : ofLeBytes (leBytes n x) = x % 256 ^ n := by
  induction n generalizing x with
  | zero => simp [leBytes, ofLeBytes, Nat.mod_one]
  | succ n ih => rw [leBytes, ofLeBytes, ih, BitVec.toNat_ofNat, show 256 ^ (n + 1) = 256 * 256 ^ n by rw [Nat.pow_succ, Nat.mul_comm], Nat.mod_mul]

theorem ofLeBytes_lt (bs : List Byte) : ofLeBytes bs < 2 ^ (8 * bs.length) := by
  induction bs with
  | nil => simp [ofLeBytes]
  | cons b bs ih =>
    have hb := b.isLt
    rw [ofLeBytes, List.length_cons, show 2 ^ (8 * (bs.length + 1)) = 2 ^ 8 * 2 ^ (8 * bs.length) by rw [← Nat.pow_add]; congr 1; omega]
    omega

/-- An answer to a directed code goes out and counts; nothing else changes. -/
theorem cccAnswer_told {s : State} (hup : s.boot.released = true) (ha : s.i3c.addr ≠ none) (bytes : List Byte) :
    ∃ t, s.cccAnswer bytes = .next t ∧ t.out = s.out ++ [.i3c bytes] ∧ t.i3c.addr = s.i3c.addr
      ∧ { t with i3c := s.i3c, out := s.out } = s := by
  obtain ⟨a, ha⟩ := Option.ne_none_iff_exists'.1 ha
  exact ⟨_, if_neg (by simp [State.i3cUp, hup, ha]), rfl, rfl, rfl⟩

/-- Settles O56. -/
theorem i3cTargetAnswersAndWrites : Obligations.I3cTargetAnswersAndWrites := by
  unfold Obligations.I3cTargetAnswersAndWrites
  intro s hup told
  refine ⟨fun a ha => ⟨?entdaa, fun b => ?setdasa⟩, ?rstdaa, fun ha => ⟨?pid, fun hslot => ?slot, ?bcr, ?dcr,
    ?status, ?mwl, ?mrl, fun bs hlen => ?short, fun a data hlen => ?write⟩⟩
  case entdaa => exact ⟨_, if_neg (by simp [State.i3cUp, hup, ha]), rfl, rfl⟩
  case setdasa =>
    by_cases hb : b.toNat = 0x50 + s.boot.slotId
    · exact ⟨_, if_neg (by simp [State.i3cUp, hup, ha, hb]), (if_pos hb).symm⟩
    · exact ⟨s, if_pos (by simp [hb]), ha.trans (if_neg hb).symm⟩
  case rstdaa => exact ⟨_, if_pos hup, rfl, rfl⟩
  case pid => exact cccAnswer_told hup ha _
  case slot =>
    refine ⟨BitVec.ofNat 8 (Config.i3cPid.toNat * 8 + s.boot.slotId), ?_, ?_⟩
    · simp [State.i3cPid, leBytes]
    · simp only [BitVec.toNat_ofNat]
      omega
  case bcr => exact cccAnswer_told hup ha _
  case dcr => exact cccAnswer_told hup ha _
  case status => exact ⟨_, by simp [leBytes], cccAnswer_told hup ha _⟩
  case mwl => exact ⟨_, by simp [leBytes], cccAnswer_told hup ha _⟩
  case mrl => exact ⟨_, by simp [leBytes], cccAnswer_told hup ha _⟩
  case short => exact if_pos (by simp [hlen])
  case write =>
    obtain ⟨d, hd⟩ := Option.ne_none_iff_exists'.1 ha
    have ha' : ofLeBytes ((leBytes 4 a.toNat ++ data).take 4) = a.toNat := by
      rw [List.take_left' (length_leBytes 4 _)]
      rw [ofLeBytes_leBytes]
      exact Nat.mod_eq_of_lt a.isLt
    have hdata : (leBytes 4 a.toNat ++ data).drop 4 = data := List.drop_left' (length_leBytes 4 _)
    have hval : ofLeBytes data % 2 ^ 64 % 2 ^ min (8 * data.length) 64 = ofLeBytes data := by
      have hlt := ofLeBytes_lt data
      rw [Nat.min_eq_left (by omega), Nat.mod_eq_of_lt (hlt.trans_le (Nat.pow_le_pow_right (by decide) (by omega))), Nat.mod_eq_of_lt hlt]
    have hexec : exec (.i3cPrivateWrite (leBytes 4 a.toNat ++ data)) s =
        (let t := s.modI3c fun x => { x with pointer := a.toNat }
         if 2 ^ 20 ≤ a.toNat || data.isEmpty then .next t else t.busWrite .i3c a.toNat (8 * data.length) (ofLeBytes data)) := by
      refine (if_neg ?_).trans ?_
      · simp [State.i3cUp, hup, hd, length_leBytes]
      · rw [ha', hdata]
    have hreg : ∀ t, exec (.registerWrite .i3c a.toNat (8 * data.length) (BitVec.ofNat 64 (ofLeBytes data))) t =
        t.busWrite .i3c a.toNat (8 * data.length) (ofLeBytes data) := fun t => by
      simp only [exec, execRegisterWrite]
      rw [BitVec.toNat_ofNat, hval]
    intro t
    rw [hexec, hreg]
    by_cases hw : a.toNat < 2 ^ 20 ∧ data ≠ []
    · rw [if_pos hw]
      exact if_neg (by rw [Bool.or_eq_true, decide_eq_true_eq, List.isEmpty_iff, not_or]; exact ⟨Nat.not_le.2 hw.1, hw.2⟩)
    · rw [if_neg hw]
      refine if_pos ?_
      rw [Bool.or_eq_true, decide_eq_true_eq, List.isEmpty_iff, ← Nat.not_lt]
      tauto

/-! Stepped admission (R379). -/

/-- The imprint's record as its opening begins. -/
def Imprint.opened (m : Imprint) : Imprint :=
  let stepped := m.step && m.go
  { m with go := false, steps := if stepped then (m.steps + 1) % 2 ^ 32 else m.steps,
           serve := { m.serve with begun := true, stepped := stepped, admits := 0, lastRing := none,
                                   adapters := promote m.serve.adapters } }

/-- The beginning of an opening reaches the imprint's record and the function alone. -/
theorem beginOpening_eq (s : State) (i : Nat) (release : Bool) : s.beginOpening i release =
    if (s.imp i).serve.begun then s else { s.modImp i Imprint.opened with fns := (s.beginOpening i release).fns } := by
  unfold State.beginOpening
  extract_lets m stepped s1 s2
  split
  · rfl
  · split <;> rfl

/-- Its imprint's work has begun and GO is clear; other imprints, cores and T0 are as they were. -/
theorem beginOpening_frame (s : State) (i : Nat) (release : Bool) :
    (∀ j, j ≠ i → (s.beginOpening i release).imp j = s.imp j) ∧ (s.beginOpening i release).cores = s.cores
      ∧ (s.beginOpening i release).t0 = s.t0 ∧ ((s.beginOpening i release).imp i).serve.begun = true
      ∧ ((s.imp i).serve.begun = false → ((s.beginOpening i release).imp i).go = false) := by
  rw [beginOpening_eq]
  cases hb : (s.imp i).serve.begun
  · rw [if_neg (by decide)]
    have himp : ∀ j, State.imp { s.modImp i Imprint.opened with fns := (s.beginOpening i release).fns } j =
        if j = i then (s.imp i).opened else s.imp j := fun j => State.imp_modImp s i j _
    refine ⟨fun j hj => by rw [himp, if_neg hj], rfl, rfl, ?_, fun _ => ?_⟩
    · rw [himp, if_pos rfl]; rfl
    · rw [himp, if_pos rfl]; rfl
  · rw [if_pos rfl]
    exact ⟨fun _ _ => rfl, rfl, rfl, hb, fun h => by simp at h⟩

/-- Settles O59. -/
theorem steppedAdmissionIsCommanded : Obligations.SteppedAdmissionIsCommanded := by
  unfold Obligations.SteppedAdmissionIsCommanded
  intro s p i ha hp
  have hreach : (!s.answers || !reachesTel p i.val) = false := by
    rcases hp with rfl | rfl
    · simp [ha, reachesTel, reachesFn]
    · simp [ha, reachesTel, reachesFn]
  refine ⟨fun on => ?step, ?go, fun q hq => ?others⟩
  case step =>
    let waits := (s.imp i.val).step && !on && s.opensHere i.val && !(s.imp i.val).serve.begun
    let t := if waits then s.beginOpening i.val true else s
    have hexec : exec (.reproStep p i on) s = .next (t.modImp i.val fun m => { m with step := on }) := if_neg (by simp [hreach])
    obtain ⟨himp, hcores, ht0, hbegun, hgo⟩ := beginOpening_frame s i.val true
    have hself : (t.modImp i.val fun m => { m with step := on }).imp i.val = { t.imp i.val with step := on } := by simp
    refine ⟨_, hexec, by rw [hself], fun j hj => ?_, ?_, ?_, fun hstep hon hopens => ?_, fun hon => ?_⟩
    · rw [State.imp_modImp, if_neg hj]
      simp only [t]
      split
      · exact himp j hj
      · rfl
    · show t.cores = s.cores
      simp only [t]
      split
      · exact hcores
      · rfl
    · show t.t0 = s.t0
      simp only [t]
      split
      · exact ht0
      · rfl
    · rw [hself]
      cases hb : (s.imp i.val).serve.begun
      · have ht : t = s.beginOpening i.val true := if_pos (by simp [waits, hstep, hon, hopens, hb])
        rw [ht]
        exact ⟨hbegun, fun _ => hgo hb⟩
      · have ht : t = s := if_neg (by simp [waits, hb])
        rw [ht]
        exact ⟨hb, fun h => by simp at h⟩
    · have ht : t = s := if_neg (by simp [waits, hon])
      rw [ht, hon]
  case go => exact if_neg (by simp [hreach])
  case others =>
    refine if_pos ?_
    rcases hq with rfl | ⟨j, hj, rfl⟩
    · simp [reachesTel, reachesFn]
    · have : j.val ≠ i.val := fun h => hj (Fin.ext h)
      simp [reachesTel, reachesFn, this]

/-! Register writes (R12, R15, R603 to R608). -/

theorem toNat_mod_width (v : BitVec 64) : v.toNat % 2 ^ min 64 64 = v.toNat := Nat.mod_eq_of_lt v.isLt

/-- Below the MSI-X region a write of the PF, and any write by I3C, is the register's. -/
theorem exec_registerWrite_low {p : RegPath} {off : Nat} (hp : p = .pf ∨ p = .i3c) (hoff : off < 0xA0000) (width : Nat) (v : BitVec 64)
    (s : State) : exec (.registerWrite p off width v) s = match regOn p off width true with
      | none => .next s
      | some r => if s.regAnswers r then s.regWrite p r (v.toNat % 2 ^ min width 64) else .next s := by
  rcases hp with rfl | rfl
  · exact if_neg (by simp [Nat.not_le.2 hoff])
  · rfl

theorem exec_registerWrite_vf {i : Fin 16} {off : Nat} (hoff : off < 0x8000) (width : Nat) (v : BitVec 64)
    (s : State) : exec (.registerWrite (.vf i) off width v) s = match regOn (.vf i) off width true with
      | none => .next s
      | some r => if s.regAnswers r then s.regWrite (.vf i) r (v.toNat % 2 ^ min width 64) else .next s :=
  if_neg (by simp [Nat.not_le.2 hoff])

/-- A ring table's base stands at one place of the PF and at one of its VF. -/
theorem regOn_tabBase (i : Fin 16) : regOn (.vf i) 0x1000 64 true = some (.tabBase (i.val + 1))
    ∧ regOn .pf (0x10100 + 32 * (i.val + 1)) 64 true = some (.tabBase (i.val + 1)) := by
  refine ⟨rfl, ?_⟩
  revert i
  decide

theorem exec_write_tabBase {s : State} (ha : s.answers = true) (i : Fin 16) (v : BitVec 64) :
    exec (.registerWrite (.vf i) 0x1000 64 v) s =
      .next (s.modFn (i.val + 1) fun x => { x with tabBase := BitVec.ofNat 64 (v.toNat / 4096 * 4096) })
    ∧ exec (.registerWrite .pf (0x10100 + 32 * (i.val + 1)) 64 v) s =
      .next (s.modFn (i.val + 1) fun x => { x with tabBase := BitVec.ofNat 64 (v.toNat / 4096 * 4096) }) := by
  obtain ⟨hvf, hpf⟩ := regOn_tabBase i
  have hans : s.regAnswers (.tabBase (i.val + 1)) = true := ha
  constructor
  · rw [exec_registerWrite_vf (by decide), hvf]
    simp only [hans, if_true, State.regWrite, toNat_mod_width]
  · rw [exec_registerWrite_low (Or.inl rfl) (by omega), hpf]
    simp only [hans, if_true, State.regWrite, toNat_mod_width]

/-- Settles O60. -/
theorem registerWritesReachOneStorage : Obligations.RegisterWritesReachOneStorage := by
  unfold Obligations.RegisterWritesReachOneStorage
  refine fun s v => ⟨fun ha => ?scratch, fun ha => ?poll, fun i ha => ?table, fun w => ?cap, fun p off width r hp hr hro hoff => ?readOnly,
    fun p off width hp hoff hr => ?nowhere, fun off width hrel hoff ha => ?early⟩
  case scratch =>
    have hreg : regOn .pf 0x10 64 true = some .glbScratch := by decide
    have hans : s.regAnswers .glbScratch = true := ha
    rw [exec_registerWrite_low (Or.inl rfl) (by decide), hreg]
    simp only [hans, if_true, State.regWrite, toNat_mod_width, BitVec.ofNat_toNat, BitVec.setWidth_eq]
  case poll =>
    have hreg : regOn .pf 0x10000 32 true = some .hifCfg := by decide
    have hans : s.regAnswers .hifCfg = true := ha
    rw [exec_registerWrite_low (Or.inl rfl) (by decide), hreg]
    simp only [hans, if_true, State.regWrite]
    refine ⟨_, rfl, ?_, rfl⟩
    rw [show min 32 64 = 32 from rfl, Nat.mod_mod_of_dvd _ (by decide)]
  case table =>
    obtain ⟨hvf, hpf⟩ := exec_write_tabBase ha i v
    refine ⟨hvf.trans hpf.symm, _, hvf, ?_, fun f hf => ?_⟩
    · have hv := v.isLt
      simp only [State.fn_modFn, if_true, BitVec.toNat_ofNat]
      omega
    · rw [State.fn_modFn, if_neg hf]
  case cap =>
    have hreg : regOn .i3c 0x40000 32 true = some .pwrCap ∧ regOn .pf 0x40000 32 true = some .pwrCap := by decide
    rw [exec_registerWrite_low (Or.inl rfl) (by decide), exec_registerWrite_low (Or.inr rfl) (by decide), hreg.1, hreg.2]
    rfl
  case readOnly =>
    rw [exec_registerWrite_low hp hoff, hr]
    have hkeep : ∀ n, s.regWrite p r n = .next s := fun n => by
      simp only [List.mem_cons, List.not_mem_nil, or_false] at hro
      rcases hro with rfl | rfl | rfl | rfl | rfl | rfl | rfl | rfl | rfl | rfl | rfl | rfl | rfl <;> rfl
    simp only [hkeep, ite_self]
  case nowhere => rw [exec_registerWrite_low hp hoff, hr]
  case early =>
    rw [exec_registerWrite_low (Or.inl rfl) hoff]
    cases regOn .pf off width true with
    | none => rfl
    | some r => exact if_neg (by cases r <;> simp [State.regAnswers, hrel, ha])

end Sys2Proof.Machine
end

section
/-!
Doorbells and ticket fetches, ring tables, function resets and the host link (R446 to R456, R477 to R480, R599).
-/
namespace Sys2Proof.Machine

open Sys2Proof

/-! Rings. -/

theorem ring_modRing (s : State) (f k f' k' : Nat) (g : Ring → Ring) :
    ((s.modRing f k g).fn f').ring k' =
      if f' = f ∧ k' = k then ((s.fn f).ring k).map g else ((s.fn f').ring k') := by
  unfold State.modRing
  rw [State.fn_modFn]
  by_cases hf : f' = f
  · subst hf
    simp only [if_true, true_and, Fn.ring, spGet_spPut]
  · simp [hf]

/-- Two states whose rings agree on whether they are faulted and on what has been fetched of them. -/
def SameFetch (s t : State) : Prop :=
  ∀ f k, ((t.fn f).ring k).map (fun r => (r.faulted, r.cons)) = ((s.fn f).ring k).map fun r => (r.faulted, r.cons)

namespace SameFetch

theorem refl (s : State) : SameFetch s s := fun _ _ => rfl

theorem trans {s t u : State} (h : SameFetch s t) (g : SameFetch t u) : SameFetch s u := fun f k => (g f k).trans (h f k)

theorem of_rings {s t : State} (h : ∀ f, (t.fn f).rings = (s.fn f).rings) : SameFetch s t := fun f k => by
  simp only [Fn.ring, h]

theorem of_onlyIcu {s t : State} (h : OnlyIcu s t) : SameFetch s t := of_rings fun f => by rw [h.fns f]

theorem emit (s : State) (e : Emission) : SameFetch s (s.emit e) := of_rings fun _ => rfl

theorem modFn (s : State) (f : Nat) (g : Fn → Fn) (hg : ∀ x, (g x).rings = x.rings) : SameFetch s (s.modFn f g) :=
  of_rings fun f' => by
    rw [State.fn_modFn]
    split
    · rename_i h; rw [hg, h]
    · rfl

theorem modRing (s : State) (f k : Nat) (g : Ring → Ring) (hg : ∀ r, (g r).faulted = r.faulted ∧ (g r).cons = r.cons) :
    SameFetch s (s.modRing f k g) := fun f' k' => by
  rw [ring_modRing]
  split
  · rename_i h
    obtain ⟨rfl, rfl⟩ := h
    cases (s.fn f').ring k' with
    | none => rfl
    | some r => simp [hg]
  · rfl

theorem foldl {α : Type} {g : State → α → State} (hg : ∀ s x, SameFetch s (g s x)) (xs : List α) (s : State) :
    SameFetch s (xs.foldl g s) := by
  induction xs generalizing s with
  | nil => exact refl s
  | cons x xs ih => exact (hg s x).trans (ih (g s x))

theorem writeRing (s : State) (f k : Nat) (records : List (List Byte)) : SameFetch s (s.writeRing f k records) := by
  unfold State.writeRing
  split
  · exact refl s
  · extract_lets s1 p s2 s3
    have h1 : SameFetch s s1 := foldl (fun s _ => emit s _) _ s
    have h2 : SameFetch s1 s2 := of_rings fun _ => rfl
    have h3 : SameFetch s s3 := (h1.trans h2).trans (modRing s2 f k _ fun _ => ⟨rfl, rfl⟩)
    split
    · exact refl s
    · split
      · exact h3
      · exact h3.trans (of_onlyIcu (Delivered.raiseVector s3 f _).toOnlyIcu)

theorem writeEvents (s : State) (f n : Nat) (es : List (List Byte)) : SameFetch s (s.writeEvents f n es) := by
  unfold State.writeEvents
  split
  · exact modFn s f _ fun _ => rfl
  · exact (writeRing s f _ _).trans (modFn _ f _ fun _ => rfl)

theorem event (s : State) (i : Nat) (bs : List Byte) : SameFetch s (s.event i bs) := by
  unfold State.event
  split
  · exact writeEvents s _ _ _
  · exact of_rings fun _ => rfl

theorem ringError (s : State) (f k cause doorbell cons : Nat) : SameFetch s (s.ringError f k cause doorbell cons) := by
  unfold State.ringError
  extract_lets b
  split
  · exact writeEvents s _ _ _
  · exact event s _ _

end SameFetch

/-- A ring that faults stands where it stood (R456). -/
theorem faultRing_ring {s : State} {f k : Nat} {r : Ring} (hr : (s.fn f).ring k = some r) (cause doorbell : Nat) :
    ∃ r', ((s.faultRing f k cause doorbell).fn f).ring k = some r' ∧ r'.faulted = true ∧ r'.cons = r.cons := by
  unfold State.faultRing
  extract_lets cons
  have h := SameFetch.ringError (s.modRing f k fun r => { r with faulted := true }) f k cause doorbell cons f k
  rw [ring_modRing, if_pos ⟨rfl, rfl⟩, hr] at h
  obtain ⟨r', hr', hpair⟩ := Option.map_eq_some_iff.1 (h.trans rfl)
  obtain ⟨hfault, hcons⟩ := Prod.mk.inj hpair
  exact ⟨r', hr', hfault, hcons⟩

/-- Tickets that all have been read are taken in, in order; nothing is sent (R455). -/
theorem takeTickets_ring (f k : Nat) (reads : List TicketRead) (s : State) (r : Ring) (hr : (s.fn f).ring k = some r)
    (hgood : (reads.all fun x => !x.raw.bad) = true) :
    let t := s.takeTickets f k reads.length reads
    t.out = s.out ∧ t.imprints = s.imprints ∧ ∃ r', (t.fn f).ring k = some r' ∧ r'.cons = r.cons + BitVec.ofNat 32 reads.length
      ∧ r'.waiting.length = r.waiting.length + reads.length ∧ r'.faulted = r.faulted := by
  induction reads generalizing s r with
  | nil => exact ⟨rfl, rfl, r, hr, by simp, rfl, rfl⟩
  | cons x xs ih =>
    rw [List.all_cons, Bool.and_eq_true, Bool.not_eq_true'] at hgood
    obtain ⟨hx, hxs⟩ := hgood
    rw [List.length_cons, State.takeTickets, if_neg (by simp [hx])]
    extract_lets raw t0 bad t
    obtain ⟨hout, himp, r', hr', hcons, hlen, hfault⟩ :=
      ih (s.modRing f k fun r => { r with cons := r.cons + 1, waiting := r.waiting ++ [t] }) _
        (by rw [ring_modRing, if_pos ⟨rfl, rfl⟩, hr]; rfl) hxs
    refine ⟨hout, himp, r', hr', ?_, ?_, hfault⟩
    · rw [hcons, BitVec.add_assoc]
      congr 1
      apply BitVec.eq_of_toNat_eq
      simp [Nat.add_comm]
    · rw [hlen, List.length_append, List.length_singleton]
      omega

/-- A doorbell read that is asked for is pending, for the ring's own function alone. -/
theorem askDoorbells_fn (s : State) (f f' : Nat) (ks : List Nat) : (s.askDoorbells f ks).fn f' =
    if f' = f then { s.fn f with nudged := nub ((s.fn f).nudged ++ ks.filter (s.fn f).readable.contains) } else s.fn f' :=
  State.fn_modFn s f f' _

/-- A poll asks for every readable doorbell of the functions served. -/
theorem poll_nudged (fs : List Nat) (s : State) (f k : Nat) (hs : s.serving f = true)
    (hk : k ∈ (s.fn f).readable) (hf : f ∈ fs ∨ k ∈ (s.fn f).nudged) :
    k ∈ ((fs.foldl (fun s f => if s.serving f then s.askDoorbells f (s.fn f).readable else s) s).fn f).nudged := by
  induction fs generalizing s with
  | nil => exact hf.resolve_left (by simp)
  | cons g fs ih =>
    rw [List.foldl_cons]
    by_cases hg : s.serving g = true
    · rw [if_pos hg]
      have hfn := askDoorbells_fn s g f (s.fn g).readable
      have hserve : (s.askDoorbells g (s.fn g).readable).serving f = s.serving f := by
        unfold State.serving
        rw [hfn]
        split
        · rename_i h; rw [h]; rfl
        · rfl
      refine ih _ (hserve.trans hs) ?_ ?_
      · rw [hfn]
        split
        · rename_i h; subst h; exact hk
        · exact hk
      · rw [hfn]
        by_cases hfg : f = g
        · subst hfg
          rw [if_pos rfl]
          exact Or.inr (mem_nub_iff.2 (List.mem_append_right _ (List.mem_filter.2 ⟨hk, by simpa using hk⟩)))
        · rw [if_neg hfg]
          exact hf.imp_left fun h => (List.mem_cons.1 h).resolve_left hfg
    · rw [if_neg hg]
      refine ih s hs hk (hf.imp_left fun h => (List.mem_cons.1 h).resolve_left ?_)
      rintro rfl
      exact hg hs

/-- Settles O40. -/
theorem doorbellsFetchTickets : Obligations.DoorbellsFetchTickets := by
  unfold Obligations.DoorbellsFetchTickets
  refine fun s ha => ⟨fun hp => ?poll, fun f k hs hk => ?nudge, fun f k r reads hr hs hkind hfault hnudged => ?fetch⟩
  case poll => exact ⟨_, if_neg (by simp [ha, hp]), fun f hf hs k hk =>
    poll_nudged _ s f k hs hk (Or.inl (List.mem_range.2 hf))⟩
  case nudge =>
    refine ⟨_, if_pos (by simp [ha, hs]), ?_, rfl⟩
    rw [askDoorbells_fn, if_pos rfl]
    exact mem_nub_iff.2 (List.mem_append_right _ (by simp [hk]))
  case fetch =>
    let u := s.modFn f.val fun x => { x with nudged := x.nudged.filter (· != k) }
    have hu : (u.fn f.val).ring k = some r := by simpa [u, Fn.ring] using hr
    have hexec : ∀ d, exec (.ticketFetch f k d reads) s = match d with
        | none => .next (u.faultRing f.val k 2 0)
        | some d =>
          if r.depth < (d - r.cons).toNat then .next (u.faultRing f.val k 1 d.toNat)
          else
            let w := u.takeTickets f.val k (d - r.cons).toNat reads
            if w.atOnce f.val then
              if w.inRest then .next w else .next (w.admitAll f.val k ((d - r.cons).toNat + 1))
            else
              let c := (((w.fn f.val).ring k).map (·.cons)).getD 0
              if c = r.cons then .next w else .next (w.emit (.hostWrite f.val r.entry.devWord (leBytes 4 c.toNat))) := fun d => by
      simp only [exec, execTicketFetch, hr]
      rw [if_neg (by simp [hkind]), if_neg (by simpa [ha, hs, hfault, hkind] using hnudged)] <;> rfl
    refine ⟨?failed, fun d hd => ?ahead, fun d honce hpos hle hlen hgood => ?fetched⟩
    case failed =>
      obtain ⟨r', h⟩ := faultRing_ring hu 2 0
      exact ⟨_, r', hexec none, h⟩
    case ahead =>
      obtain ⟨r', h⟩ := faultRing_ring hu 1 d.toNat
      exact ⟨_, r', (hexec (some d)).trans (if_pos hd), h⟩
    case fetched =>
      obtain ⟨hout, himp, r', hr', hcons, hwait, hf⟩ := takeTickets_ring f.val k reads u r hu hgood
      rw [hlen] at hout himp hr' hcons
      have hd : r'.cons = d := by
        rw [hcons, BitVec.ofNat_toNat, BitVec.setWidth_eq, BitVec.add_comm, BitVec.sub_add_cancel]
      have hne : d ≠ r.cons := fun h => by simp [h] at hpos
      let w := u.takeTickets f.val k (d - r.cons).toNat reads
      have hw : w.atOnce f.val = false := by
        unfold State.atOnce State.heldOrNone State.imp at *
        rw [himp]
        exact honce
      refine ⟨w.emit (.hostWrite f.val r.entry.devWord (leBytes 4 d.toNat)), r', ?_, hr', hd, hwait, hf.trans hfault, ?_⟩
      · rw [hexec]
        simp only [if_neg (Nat.not_lt.2 hle)]
        have hwring : (w.fn f.val).ring k = some r' := hr'
        simp only [w] at hw hwring
        simp only [hw, hwring, Option.map_some, Option.getD_some, hd, if_neg hne, Bool.false_eq_true, if_false]
        rfl
      · show w.out ++ _ = _
        rw [hout]
        rfl

/-! Ring tables (R451, R452). -/

/-- What fails in a new table depends on the rings in force and on the imprints alone. -/
theorem tableError_congr {s t : State} (hr : ∀ f, (t.fn f).rings = (s.fn f).rings) (hi : t.imprints = s.imprints) (f n : Nat)
    (table : List RingRead) : t.tableError f n table = s.tableError f n table := by
  have himp : ∀ i, t.imp i = s.imp i := fun i => by unfold State.imp; rw [hi]
  have hring : ∀ f k, (t.fn f).ring k = (s.fn f).ring k := fun f k => by unfold Fn.ring; rw [hr]
  have hother : ∀ f k, t.otherRings f k = s.otherRings f k := fun f k => by simp only [State.otherRings, hr]
  have hbound : ∀ f k, t.ringBound f k = s.ringBound f k := fun f k => by simp only [State.ringBound, hr, himp]
  have hcode : t.entryCode f table = s.entryCode f table := by
    funext k x
    simp only [State.entryCode, hring, hother, hbound]
  simp only [State.tableError, hcode, hr, hbound]

/-! Function Level Reset (R478 to R480, R599). -/

/-- A number that is the sum of the powers of two of the indexes below `k` that a test picks. -/
theorem testBit_sum_range (p : Nat → Bool) (k m : Nat) :
    ((List.range k).map fun n => if p n then 2 ^ n else 0).sum.testBit m = (decide (m < k) && p m) := by
  have key : ∀ k, ((List.range k).map fun n => if p n then 2 ^ n else 0).sum < 2 ^ k
      ∧ ∀ m, ((List.range k).map fun n => if p n then 2 ^ n else 0).sum.testBit m = (decide (m < k) && p m) := fun k => by
    induction k with
    | zero => simp
    | succ k ih =>
      obtain ⟨hlt, hbit⟩ := ih
      rw [List.range_succ, List.map_append, List.sum_append]
      simp only [List.map_cons, List.map_nil, List.sum_cons, List.sum_nil, Nat.add_zero]
      by_cases hp : p k = true
      · rw [if_pos hp, Nat.pow_succ]
        refine ⟨by omega, fun m => ?_⟩
        rw [testBit_add_two_pow (Nat.testBit_lt_two_pow hlt), hbit]
        rcases Nat.lt_trichotomy m k with h | rfl | h
        · simp [h, Nat.lt_succ_of_lt h, Nat.ne_of_lt h]
        · simp [hp]
        · simp [Nat.not_lt.2 h.le, Nat.not_lt.2 (Nat.succ_le_of_lt h), Nat.ne_of_gt h]
      · rw [if_neg hp, Nat.add_zero, Nat.pow_succ]
        refine ⟨by omega, fun m => ?_⟩
        rw [hbit]
        rcases Nat.lt_trichotomy m k with h | rfl | h
        · simp [h, Nat.lt_succ_of_lt h]
        · simp [hp]
        · simp [Nat.not_lt.2 h.le, Nat.not_lt.2 (Nat.succ_le_of_lt h)]
  exact (key k).2 m

/-- The enable bits that a reset clears are those of the sources routed to the functions that it resets. -/
theorem testBit_muteVectors (s : State) (p : Nat → Bool) {m : Nat} (hm : m < 1024) :
    (s.muteVectors p).icu.en.testBit m = true ↔
      s.icu.en.testBit m = true ∧ ¬ (s.route m / 8 % 2 = 1 ∧ p (s.route m / 128 % 32) = true) := by
  unfold State.muteVectors State.vectorSources
  simp only
  rw [testBit_clearBits hm, testBit_sum_range (fun n => s.route n / 8 % 2 == 1 && p (s.route n / 128 % 32)) 1024 m]
  rw [decide_eq_true hm, Bool.true_and, Bool.and_eq_true, Bool.not_eq_true', ← Bool.not_eq_true, Bool.and_eq_true, beq_iff_eq]

theorem fn_resetVf (s : State) (i f : Nat) : (s.resetVf i).fn f = if f = i + 1 then Fn.reset else s.fn f :=
  show spGet Fn.reset (spPut Fn.reset s.fns (i + 1) Fn.reset) f = _ from spGet_spPut _ _ _ _ _

theorem imp_resetVf_ne (s : State) {i j : Nat} (h : j ≠ i) : (s.resetVf i).imp j = s.imp j :=
  State.imp_modServe_ne { s with fns := spPut Fn.reset s.fns (i + 1) Fn.reset } i j _ h

theorem spGet_map {α β : Type} (d : α) (d' : β) (g : α → β) (hd : g d = d') (m : Sp α) (k : Nat) :
    spGet d' (m.map fun x => (x.1, g x.2)) k = g (spGet d m k) := by
  induction m with
  | nil => exact hd.symm
  | cons x m ih =>
    rw [List.map_cons, spGet_cons, spGet_cons, ih]
    split <;> rfl

/-- The requests whose results are this package's own are cancelled by its function's reset. -/
theorem req_resetVf {s : State} {i k : Nat} {q : Req} (h : (s.resetVf i).req i k = some q) (hl : q.isLead = true) :
    q.cancel = true ∧ q.flr = true := by
  have hreq : (s.resetVf i).req i k =
      (spGet none (s.imp i).serve.reqs k).map fun q => if q.isLead then { q with cancel := true, flr := true } else q := by
    unfold State.req State.resetVf
    extract_lets u
    rw [State.modServe, State.imp_modImp, if_pos rfl]
    exact spGet_map none none _ rfl _ k
  rw [hreq, Option.map_eq_some_iff] at h
  obtain ⟨q', -, rfl⟩ := h
  split at hl
  · rename_i hq
    rw [if_pos hq]
    exact ⟨rfl, rfl⟩
  · rename_i hq
    exact absurd hl hq

/-- A function whose MSI-X is off takes nothing of what interrupts change. -/
def QuietFn (f : Nat) (s t : State) : Prop := (s.fn f).msixEnable = false → t.fn f = s.fn f

namespace QuietFn

variable {f : Nat}

theorem refl (s : State) : QuietFn f s s := fun _ => rfl

theorem of_fns {s t : State} (h : t.fns = s.fns) : QuietFn f s t := fun _ => by unfold State.fn; rw [h]

theorem trans {s t u : State} (h : QuietFn f s t) (g : QuietFn f t u) : QuietFn f s u := fun hs =>
  (g (by rw [h hs]; exact hs)).trans (h hs)

theorem deliverVector (s : State) (n : Nat) : QuietFn f s (s.deliverVector n) := by
  unfold State.deliverVector State.raiseVector
  extract_lets r g x e
  split
  case isTrue hon =>
    split
    · exact refl s
    split
    · intro hoff
      rw [State.fn_modFn_ne]
      rintro rfl
      rw [hoff] at hon
      exact absurd hon (by decide)
    · exact of_fns rfl
  case isFalse => exact of_fns rfl

theorem foldl {α : Type} {g : State → α → State} (hg : ∀ s x, QuietFn f s (g s x)) (xs : List α) (s : State) :
    QuietFn f s (xs.foldl g s) := by
  induction xs generalizing s with
  | nil => exact refl s
  | cons x xs ih => exact (hg s x).trans (ih (g s x))

theorem deliver (s : State) (before : Nat) : QuietFn f s (s.deliver before) := by
  unfold State.deliver
  extract_lets new vec firsts off
  have hoff : ∀ w : State, QuietFn f w (w.noteOff off) := fun w => by
    cases off with
    | nil => exact refl w
    | cons n ns => exact of_fns rfl
  exact ((foldl deliverVector firsts s).trans (hoff _)).trans (of_fns (updateLines_frame _).2.1)

theorem icuChange (s : State) (g : Icu → Icu) : QuietFn f s (s.icuChange g) :=
  (of_fns (t := { s with icu := g s.icu }) rfl).trans (deliver _ _)

theorem pulse (s : State) (n : Nat) : QuietFn f s (s.pulse n) := by
  unfold State.pulse
  extract_lets sense
  split
  · exact refl s
  · split
    · split
      · exact of_fns rfl
      · exact refl s
    · exact icuChange s _

theorem sample (s : State) : QuietFn f s s.sample := by
  unfold State.sample
  extract_lets now met
  split
  · exact of_fns rfl
  · exact icuChange s _

theorem setEd (s : State) (g : Editions → Editions) : QuietFn f s (s.setEd g) := by
  unfold State.setEd
  extract_lets t
  have ht : QuietFn f s t := of_fns rfl
  split
  · exact ht
  · exact ht.trans (pulse t 72)

end QuietFn

/-- Two states with the same enable bits and the same routes. -/
def SameEnables (s t : State) : Prop := t.icu.en = s.icu.en ∧ t.icu.routes = s.icu.routes

namespace SameEnables

theorem trans {s t u : State} (h : SameEnables s t) (g : SameEnables t u) : SameEnables s u :=
  ⟨g.1.trans h.1, g.2.trans h.2⟩

theorem icuChange (s : State) (g : Icu → Icu) (hg : (g s.icu).en = s.icu.en ∧ (g s.icu).routes = s.icu.routes) :
    SameEnables s (s.icuChange g) :=
  have h := Delivered.icuChange s g
  ⟨h.en.trans hg.1, h.routes.trans hg.2⟩

theorem pulse (s : State) (n : Nat) : SameEnables s (s.pulse n) := by
  unfold State.pulse
  extract_lets sense
  split
  · exact ⟨rfl, rfl⟩
  · split
    · split <;> exact ⟨rfl, rfl⟩
    · exact icuChange s _ ⟨rfl, rfl⟩

theorem sample (s : State) : SameEnables s s.sample := by
  unfold State.sample
  extract_lets now met
  split
  · exact ⟨rfl, rfl⟩
  · exact icuChange s _ ⟨rfl, rfl⟩

theorem setEd (s : State) (g : Editions → Editions) : SameEnables s (s.setEd g) := by
  unfold State.setEd
  extract_lets t
  split
  · exact ⟨rfl, rfl⟩
  · exact pulse t 72

end SameEnables

/-- Going on from drain quoins changes the imprints alone. -/
theorem undrain_eq (s : State) : s.undrain = { s with imprints := s.undrain.imprints } := by
  unfold State.undrain
  generalize s.imprintList = is
  induction is generalizing s with
  | nil => rfl
  | cons i is ih => exact ih _

/-- Resets of VFs change functions and imprints alone, and leave every function of the list at reset. -/
theorem resetVfs_eq (is : List Nat) (s : State) :
    is.foldl State.resetVf s = { s with imprints := (is.foldl State.resetVf s).imprints, fns := (is.foldl State.resetVf s).fns } := by
  induction is generalizing s with
  | nil => rfl
  | cons i is ih => exact ih _

theorem fn_resetVfs (is : List Nat) (s : State) (f : Nat) (hf : f ∈ is.map (· + 1) ∨ s.fn f = Fn.reset) :
    (is.foldl State.resetVf s).fn f = Fn.reset := by
  induction is generalizing s with
  | nil => exact hf.resolve_left (by simp)
  | cons i is ih =>
    refine ih _ ?_
    rw [fn_resetVf]
    by_cases h : f = i + 1
    · exact Or.inr (if_pos h)
    · rw [if_neg h]
      exact hf.imp_left fun hm => (List.mem_cons.1 hm).resolve_left h

/-- What a PF's reset drops of the editions (R479). -/
def Editions.dropStaged (e : Editions) : Editions :=
  { e with staged := none, stage := none, pendingMinor := none, minorDone := none, fences := [] }

/-- A commit before its point of no return is given up (R480). -/
def State.giveUpCommit (s : State) : State :=
  match s.ed.work with
  | .applying _ _ _ _ _ _ => s
  | _ => ((s.setEd fun e => { e with work := .idle }).undrain).sample

theorem QuietFn.reset {s t : State} {f : Nat} (h : QuietFn f s t) (hs : s.fn f = Fn.reset) : t.fn f = Fn.reset := by
  have hoff : (s.fn f).msixEnable = false := by rw [hs]; rfl
  exact (h hoff).trans hs

theorem undrain_fns (s : State) : s.undrain.fns = s.fns := by rw [undrain_eq]

theorem undrain_icu (s : State) : s.undrain.icu = s.icu := by rw [undrain_eq]

theorem undrain_ed (s : State) : s.undrain.ed = s.ed := by rw [undrain_eq]

theorem giveUpCommit_fn {s : State} {f : Nat} (h : s.fn f = Fn.reset) : s.giveUpCommit.fn f = Fn.reset := by
  unfold State.giveUpCommit
  split
  · exact h
  · have h1 := (QuietFn.setEd s fun e => { e with work := .idle }).reset h
    exact (QuietFn.sample _).reset ((QuietFn.of_fns (undrain_fns _)).reset h1)

theorem giveUpCommit_enables (s : State) : SameEnables s s.giveUpCommit := by
  unfold State.giveUpCommit
  split
  · exact ⟨rfl, rfl⟩
  · have h1 := SameEnables.setEd s fun e => { e with work := .idle }
    generalize s.setEd (fun e => { e with work := .idle }) = u at h1 ⊢
    have h2 : SameEnables u u.undrain := ⟨by rw [undrain_icu], by rw [undrain_icu]⟩
    exact (h1.trans h2).trans (.sample _)

theorem giveUpCommit_ed (s : State) : ∃ w, s.giveUpCommit.ed = { s.ed with work := w } := by
  unfold State.giveUpCommit
  split
  · exact ⟨s.ed.work, rfl⟩
  · have h1 := (OnlyIcu.setEd s fun e => { e with work := .idle }).ed
    generalize s.setEd (fun e => { e with work := .idle }) = u at h1 ⊢
    exact ⟨.idle, by rw [(OnlyIcu.sample _).ed, undrain_ed, h1]⟩

/-- The PF's own reset. -/
def State.resetPf (s : State) : State :=
  { s with fns := spPut Fn.reset s.fns 0 Fn.reset, power := { s.power with events := [] } }

theorem fn_resetPf (s : State) (f : Nat) : s.resetPf.fn f = if f = 0 then Fn.reset else s.fn f :=
  show spGet Fn.reset (spPut Fn.reset s.fns 0 Fn.reset) f = _ from spGet_spPut _ _ _ _ _

/-- The package with its functions reset and their sources muted. -/
def State.resetFns (s : State) (vfs : List Nat) : State := (vfs.foldl State.resetVf (s.muteVectors fun _ => true)).resetPf

theorem resetFns_fn (s : State) {vfs : List Nat} {f : Nat} (hf : f = 0 ∨ f ∈ vfs.map (· + 1)) : (s.resetFns vfs).fn f = Fn.reset := by
  unfold State.resetFns
  rw [fn_resetPf]
  split
  · rfl
  · rename_i h
    exact fn_resetVfs vfs _ f (Or.inl (hf.resolve_left h))

theorem resetFns_frame (s : State) (vfs : List Nat) :
    (s.resetFns vfs).ed = s.ed ∧ (s.resetFns vfs).icu = (s.muteVectors fun _ => true).icu := by
  unfold State.resetFns
  rw [resetVfs_eq]
  exact ⟨rfl, rfl⟩

theorem giveUpCommit_eq (w : State) : (match w.ed.work with
    | .applying _ _ _ _ _ _ => Host.Outcome.next w
    | _ => .next (State.sample (w.setEd fun e => { e with work := .idle }).undrain)) =
      (.next w.giveUpCommit : Host.Outcome State Fault Refusal) := by
  unfold State.giveUpCommit
  generalize w.ed.work = x
  cases x <;> rfl

/-- `State.setEd` is held abstract while the command's body is taken apart: a comparison of two matches on what it leaves would have the
kernel evaluate the editions' word, a sum with powers of two as large as 2^36. -/
theorem exec_pfFlr (s : State) :
    exec .pfFlr s = .next ((s.resetFns (List.range 16)).setEd Editions.dropStaged).giveUpCommit := by
  show execPfFlr s = _
  obtain ⟨F, hF⟩ : ∃ F, F = execPfFlr := ⟨_, rfl⟩
  rw [← hF]
  delta execPfFlr at hF
  revert hF
  generalize hS : State.setEd = S
  revert S
  refine id fun S hS hF => ?_
  rw [hF]
  beta_reduce
  unfold State.resetFns
  generalize List.foldl State.resetVf _ _ = m
  extract_lets u src p w
  have hw : S m.resetPf Editions.dropStaged = w := rfl
  rw [hw]
  clear_value w
  rw [← giveUpCommit_eq w, hS] <;> rfl

/-- The functions that wait for an opening once the link is back (R446). -/
theorem linkWait_foldl (is : List Nat) (s : State) (i : Nat) (hi : s.heldOrNone i = false)
    (hw : i ∈ is ∨ (s.fn (i + 1)).linkWait = true) :
    ((is.foldl (fun s i => if s.heldOrNone i then s else s.modFn (i + 1) fun x => { x with linkWait := true }) s).fn
      (i + 1)).linkWait = true := by
  induction is generalizing s with
  | nil => exact hw.resolve_left (by simp)
  | cons j is ih =>
    rw [List.foldl_cons]
    refine ih _ ?_ ?_
    · split
      · exact hi
      · exact hi
    · by_cases hj : i = j
      · subst hj
        rw [if_neg (by simp [hi]), State.fn_modFn_same]
        exact Or.inr rfl
      · refine hw.imp (fun h => (List.mem_cons.1 h).resolve_left hj) fun h => ?_
        split
        · exact h
        · rw [State.fn_modFn_ne _ _ _ _ (by omega)]
          exact h

/-- Settles O42. -/
theorem hostSideResetsAndTables : Obligations.HostSideResetsAndTables := by
  unfold Obligations.HostSideResetsAndTables
  refine fun s => ⟨fun p f n reads ha hreach => ⟨fun happly hstop => ?apply, ?lost⟩, fun i => ?vf, ?pf, fun g w => ?link⟩
  case apply =>
    let table := (List.range n.val).map fun k => reads.getD k noRead
    let u := s.modFn f.val fun x => { x with entries := n.val, apply := true }
    have hrings : ∀ g, (u.fn g).rings = (s.fn g).rings := fun g => by
      rw [State.fn_modFn]
      split
      · rename_i h; rw [h]
      · rfl
    have hexec : exec (.ringtabApply p f n reads) s = match u.tableError f.val n.val table with
        | some (k, code) => .next (u.modFn f.val fun x => { x with apply := false, error := true, errCode := code, errEntry := k })
        | none =>
          let w := u.modFn f.val fun x => { x with error := false, newTable := some (table.map startRing) }
          .next (if w.atOnce f.val then w.takeTable f.val else w) := by
      refine (if_neg (by simp [ha, hreach])).trans ?_
      exact if_neg (by simp [hstop, happly])
    rw [tableError_congr hrings rfl] at hexec
    refine ⟨fun k code herr => ?_, fun herr => ?_⟩
    · rw [herr] at hexec
      refine ⟨_, hexec, ?_⟩
      rw [State.fn_modFn_same]
      exact ⟨rfl, rfl, rfl, rfl, hrings _⟩
    · rw [herr] at hexec
      let w := u.modFn f.val fun x => { x with error := false, newTable := some (table.map startRing) }
      have hw : w.fn f.val = { u.fn f.val with error := false, newTable := some (table.map startRing) } := State.fn_modFn_same _ _ _
      have hu : (u.fn f.val).apply = true := by simp [u]
      cases honce : s.atOnce f.val
      · have honce' : w.atOnce f.val = false := honce
        refine ⟨w, hexec.trans (congrArg _ (if_neg (by rw [honce']; decide))), ?_⟩
        rw [hw]
        exact ⟨rfl, fun _ => ⟨hu, hrings _, rfl⟩, fun h => by simp at h⟩
      · have honce' : w.atOnce f.val = true := honce
        refine ⟨w.takeTable f.val, hexec.trans (congrArg _ (if_pos honce')), ?_⟩
        rw [State.takeTable, State.fn_modFn_same, hw]
        exact ⟨rfl, fun h => by simp at h, fun _ => ⟨rfl, rfl⟩⟩
  case lost =>
    refine ⟨_, if_pos (by simp [ha, hreach]), ?_⟩
    rw [State.fn_modFn_same]
    exact ⟨rfl, rfl, rfl⟩
  case vf =>
    refine ⟨_, rfl, ?_, fun k q => req_resetVf, fun f hf => ?_, fun j hj => ?_, rfl, rfl, fun m hm => ?_⟩
    · rw [fn_resetVf, if_pos rfl]
    · rw [fn_resetVf, if_neg hf]; rfl
    · rw [imp_resetVf_ne _ hj]; rfl
    · have h := testBit_muteVectors s (fun f => f == i.val + 1) hm
      simp only [beq_iff_eq] at h
      exact h
  case pf =>
    have hreset : ∀ f, f < 17 → (s.resetFns (List.range 16)).fn f = Fn.reset := fun f hf => by
      refine resetFns_fn s ?_
      rw [List.mem_map]
      rcases Nat.eq_zero_or_pos f with h | h
      · exact Or.inl h
      · exact Or.inr ⟨f - 1, List.mem_range.2 (by omega), Nat.sub_add_cancel h⟩
    obtain ⟨hed, hicu⟩ := resetFns_frame s (List.range 16)
    rw [exec_pfFlr]
    generalize s.resetFns (List.range 16) = u at hreset hed hicu ⊢
    obtain ⟨hen, hroutes⟩ := (SameEnables.setEd u Editions.dropStaged).trans (giveUpCommit_enables _)
    obtain ⟨w, hw⟩ := giveUpCommit_ed (u.setEd Editions.dropStaged)
    rw [(OnlyIcu.setEd u _).ed] at hw
    simp only [hed] at hw
    rw [hicu] at hen hroutes
    refine ⟨_, rfl, fun f hf => giveUpCommit_fn ((QuietFn.setEd u _).reset (hreset f hf)), by rw [hw]; rfl, by rw [hw]; rfl,
      by rw [hw]; rfl, by rw [hw]; rfl, by rw [hw]; rfl, hroutes, fun m hm => ?_⟩
    rw [hen, testBit_muteVectors s _ hm]
    simp
  case link =>
    let bad := decide (g < 32) || decide (w < 8)
    let t := if s.degraded && !bad then
        (List.range 16).foldl (fun s i => if s.heldOrNone i then s else s.modFn (i + 1) fun x => { x with linkWait := true }) s
      else s
    have h := OnlyIcu.sample { t with degraded := bad }
    refine ⟨_, rfl, h.degraded, fun ⟨hd, hg, hw⟩ i hi hheld => ?_⟩
    have ht : t = (List.range 16).foldl
        (fun s i => if s.heldOrNone i then s else s.modFn (i + 1) fun x => { x with linkWait := true }) s :=
      if_pos (by simp [bad, hd, Nat.not_lt.2 hg, Nat.not_lt.2 hw])
    show ((State.sample { t with degraded := bad }).fn (i + 1)).linkWait = true
    rw [h.fns (i + 1)]
    show (t.fn (i + 1)).linkWait = true
    rw [ht]
    exact linkWait_foldl _ s i hheld (Or.inl (List.mem_range.2 hi))

end Sys2Proof.Machine
end

section
/-!
Atomics, refresh, damage reports, lost cores (R243, R255, R417, R419, R516, R525).
-/
namespace Sys2Proof.Machine

open Sys2Proof

/-! Atomics (R417, R419). -/

/-- A word's value as a signed number. -/
def signedWord (w x : Nat) : Int := if x < 2 ^ w / 2 then (x : Int) else (x : Int) - ((2 ^ w : Nat) : Int)

theorem atomicNew_of_min {w : Nat} (old b c : Nat) : atomicNew 0x13 w old b c =
    if signedWord w (old % 2 ^ w) ≤ signedWord w (b % 2 ^ w) then old % 2 ^ w else b % 2 ^ w := rfl

theorem atomicNew_of_max {w : Nat} (old b c : Nat) : atomicNew 0x14 w old b c =
    if signedWord w (old % 2 ^ w) ≤ signedWord w (b % 2 ^ w) then b % 2 ^ w else old % 2 ^ w := rfl

theorem two_pow_even {w : Nat} (hw : 0 < w) : 2 * (2 ^ w / 2) = 2 ^ w := by
  obtain ⟨v, rfl⟩ := Nat.exists_eq_add_of_lt hw
  rw [Nat.zero_add, Nat.pow_succ]
  omega

theorem toInt_ofNat_eq_signedWord {w x : Nat} (hw : 0 < w) (hx : x < 2 ^ w) : (BitVec.ofNat w x).toInt = signedWord w x := by
  have heven := two_pow_even hw
  rw [BitVec.toInt_eq_toNat_cond, BitVec.toNat_ofNat, Nat.mod_eq_of_lt hx, signedWord]
  generalize 2 ^ w = m at *
  split <;> split <;> omega

theorem signedWord_inj {w x y : Nat} (hx : x < 2 ^ w) (hy : y < 2 ^ w) (h : signedWord w x = signedWord w y) : x = y := by
  unfold signedWord at h
  generalize 2 ^ w = m at *
  split at h <;> split at h <;> omega

/-- An atomic looks at the low bits of its operands alone, and leaves a word. -/
theorem atomicNew_low (op w old a c : Nat) : atomicNew op w old a c < 2 ^ w
    ∧ atomicNew op w old a c = atomicNew op w old (a % 2 ^ w) (c % 2 ^ w) := by
  refine ⟨?_, by simp only [atomicNew, Nat.mod_mod]⟩
  have hold : old % 2 ^ w < 2 ^ w := Nat.mod_lt _ (Nat.two_pow_pos w)
  have ha : a % 2 ^ w < 2 ^ w := Nat.mod_lt _ (Nat.two_pow_pos w)
  unfold atomicNew
  extract_lets m x b sg
  split
  · exact Nat.mod_lt _ (Nat.two_pow_pos w)
  split
  · exact (min_le_left _ _).trans_lt hold
  split
  · exact max_lt hold ha
  split
  · split <;> assumption
  split
  · split <;> assumption
  split
  · exact ha
  · split <;> assumption

/-- The lesser or the greater of two under an order that tells all numbers apart does not depend on their order. -/
theorem signed_pick_comm {w x y z : Nat} (hx : x < 2 ^ w) (hy : y < 2 ^ w) (hz : z < 2 ^ w) :
    (let p := fun a b => if signedWord w a ≤ signedWord w b then a else b
     p (p x y) z = p (p x z) y)
    ∧ (let p := fun a b => if signedWord w a ≤ signedWord w b then b else a
     p (p x y) z = p (p x z) y) := by
  have hxy := signedWord_inj hx hy
  have hxz := signedWord_inj hx hz
  have hyz := signedWord_inj hy hz
  constructor
  · simp only
    split_ifs <;> omega
  · simp only
    split_ifs <;> omega

/-- Settles O11. -/
theorem atomicsComputeTheirWord : Obligations.AtomicsComputeTheirWord := by
  unfold Obligations.AtomicsComputeTheirWord
  intro w old a b c hw hold ha hb hc x low
  have hpos : 0 < w := by omega
  have hx : x < 2 ^ w := Nat.mod_lt _ (Nat.two_pow_pos w)
  have hmod : old % 2 ^ w = old := Nat.mod_eq_of_lt hold
  refine ⟨?add, ?umin, ?umax, ?smin, ?smax, rfl, ?swap, fun op _ => atomicNew_low op w old a c, fun op hop => ?comm⟩
  case add =>
    show (old % 2 ^ w + x) % 2 ^ w = _
    rw [hmod]
  case umin =>
    show min (old % 2 ^ w) x = _
    rw [hmod]
  case umax =>
    show max (old % 2 ^ w) x = _
    rw [hmod]
  case smin =>
    show (BitVec.ofNat w (atomicNew 0x13 w old a c)).toInt = _
    rw [toInt_ofNat_eq_signedWord hpos (atomicNew_low 0x13 w old a c).1, toInt_ofNat_eq_signedWord hpos hold,
      toInt_ofNat_eq_signedWord hpos hx, atomicNew_of_min, hmod]
    split
    · rename_i h; exact (min_eq_left h).symm
    · rename_i h; exact (min_eq_right (le_of_not_ge h)).symm
  case smax =>
    show (BitVec.ofNat w (atomicNew 0x14 w old a c)).toInt = _
    rw [toInt_ofNat_eq_signedWord hpos (atomicNew_low 0x14 w old a c).1, toInt_ofNat_eq_signedWord hpos hold,
      toInt_ofNat_eq_signedWord hpos hx, atomicNew_of_max, hmod]
    split
    · rename_i h; exact (max_eq_right h).symm
    · rename_i h; exact (max_eq_left (le_of_not_ge h)).symm
  case swap =>
    show (if old % 2 ^ w = c % 2 ^ w then x else old % 2 ^ w) = _
    rw [hmod]
  case comm =>
    have hcases : op = 0x10 ∨ op = 0x11 ∨ op = 0x12 ∨ op = 0x13 ∨ op = 0x14 := by
      simp only [isCommutative, Bool.and_eq_true, decide_eq_true_eq] at hop
      omega
    have hy : b % 2 ^ w < 2 ^ w := Nat.mod_lt _ (Nat.two_pow_pos w)
    have hlow : ∀ k y, atomicNew k w old y c % 2 ^ w = atomicNew k w old y c := fun k y => Nat.mod_eq_of_lt (atomicNew_low k w old y c).1
    rcases hcases with rfl | rfl | rfl | rfl | rfl
    · show (((old % 2 ^ w + x) % 2 ^ w) % 2 ^ w + b % 2 ^ w) % 2 ^ w = (((old % 2 ^ w + b % 2 ^ w) % 2 ^ w) % 2 ^ w + x) % 2 ^ w
      simp only [Nat.mod_mod, Nat.mod_add_mod, Nat.add_mod_mod]
      congr 1
      omega
    · show min (min (old % 2 ^ w) x % 2 ^ w) (b % 2 ^ w) = min (min (old % 2 ^ w) (b % 2 ^ w) % 2 ^ w) x
      rw [hmod, Nat.mod_eq_of_lt ((min_le_left _ _).trans_lt hold), Nat.mod_eq_of_lt ((min_le_left _ _).trans_lt hold)]
      omega
    · show max (max (old % 2 ^ w) x % 2 ^ w) (b % 2 ^ w) = max (max (old % 2 ^ w) (b % 2 ^ w) % 2 ^ w) x
      rw [hmod, Nat.mod_eq_of_lt (max_lt hold hx), Nat.mod_eq_of_lt (max_lt hold hy)]
      omega
    · show atomicNew 0x13 w (atomicNew 0x13 w old a c) b c = atomicNew 0x13 w (atomicNew 0x13 w old b c) a c
      rw [atomicNew_of_min (atomicNew 0x13 w old a c), atomicNew_of_min (atomicNew 0x13 w old b c), hlow, hlow, atomicNew_of_min,
        atomicNew_of_min, hmod]
      exact (signed_pick_comm hold hx hy).1
    · show atomicNew 0x14 w (atomicNew 0x14 w old a c) b c = atomicNew 0x14 w (atomicNew 0x14 w old b c) a c
      rw [atomicNew_of_max (atomicNew 0x14 w old a c), atomicNew_of_max (atomicNew 0x14 w old b c), hlow, hlow, atomicNew_of_max,
        atomicNew_of_max, hmod]
      exact (signed_pick_comm hold hx hy).2

/-! Refresh (R243, R244, R542). -/

/-- The cause of removed cycles reaches no channel. -/
theorem voidTiming_ch (is : List Nat) (s : State) (g : State → Nat) (c : Nat) :
    (is.foldl (fun s i => if (s.imp i).serve.phase == .running then
        s.modServe i fun v => { v with timingVoid := v.timingVoid ||| g s } else s) s).ch c = s.ch c := by
  induction is generalizing s with
  | nil => rfl
  | cons i is ih =>
    rw [List.foldl_cons]
    split
    · exact ih _
    · exact ih _

/-- Settles O33. -/
theorem refreshIsCountedOrPostponed : Obligations.RefreshIsCountedOrPostponed := by
  unfold Obligations.RefreshIsCountedOrPostponed
  refine fun ch s hr => ⟨fun hl => ?window, fun hl => ?removed, fun hl => ?postponed⟩
  case window =>
    refine ⟨_, if_neg (by simp [hr, hl]), ?_⟩
    rw [State.ch_modCh_same]
    exact ⟨rfl, rfl, rfl, fun c hc => State.ch_modCh_ne _ _ _ _ hc, rfl⟩
  case removed =>
    refine ⟨_, (if_neg (by simp [hr])).trans (if_pos hl), ?_⟩
    rw [voidTiming_ch _ _ fun s => if s.inFloor then 2 else 1, State.ch_modCh_same]
    exact ⟨rfl, rfl⟩
  case postponed =>
    refine ⟨_, (if_neg (by simp [hr])).trans (if_neg (by omega)), ?_⟩
    rw [State.ch_modCh_same]
    exact ⟨rfl, rfl⟩

end Sys2Proof.Machine
end

section
/-!
Damage and the loss of a core (R218, R221, R252 to R255, R516, R525): what is recorded, and for whom.
-/
namespace Sys2Proof.Machine

open Sys2Proof

/-! The damage list and the counts (R363, R516). -/

/-- Is damage of an owner at a place on a list? -/
def Recorded (ds : List Damage) (o : Owner) (p : Place) : Prop := ∃ d ∈ ds, d.owner = o ∧ d.place = p

theorem Recorded.joinDamage {ds : List Damage} {o : Owner} {p : Place} (h : Recorded ds o p) (d : Damage) :
    Recorded (joinDamage ds d) o p := by
  obtain ⟨e, he, ho, hp⟩ := h
  unfold Machine.joinDamage
  extract_lets same
  split
  · refine ⟨if same e then { e with requests := joinRequests e.requests d.requests } else e, List.mem_map.2 ⟨e, he, rfl⟩, ?_⟩
    split <;> exact ⟨ho, hp⟩
  · exact ⟨e, List.mem_append_left _ he, ho, hp⟩

theorem recorded_joinDamage (ds : List Damage) (d : Damage) : Recorded (joinDamage ds d) d.owner d.place := by
  unfold joinDamage
  extract_lets same
  split
  next h =>
    obtain ⟨e, he, hs⟩ := List.any_eq_true.1 h
    have hop : e.owner = d.owner ∧ e.place = d.place := by
      simp only [same, Bool.and_eq_true, beq_iff_eq] at hs
      exact hs.1
    exact ⟨_, List.mem_map.2 ⟨e, he, rfl⟩, by rw [if_pos hs]; exact hop⟩
  next => exact ⟨d, by simp, rfl, rfl⟩

theorem addDamage_damage (s : State) (i : Nat) (d : Damage) :
    ((s.addDamage i d).imp i).serve.damage = joinDamage (s.imp i).serve.damage d := by
  simp [State.addDamage]

theorem addDamage_reports (s : State) (i : Nat) (d : Damage) : (s.addDamage i d).reports = s.reports := rfl

theorem foldl_addDamage_reports (i : Nat) (g : Owner → Damage) (os : List Owner) (s : State) :
    (os.foldl (fun s o => s.addDamage i (g o)) s).reports = s.reports := by
  induction os generalizing s with
  | nil => rfl
  | cons o os ih => exact (ih _).trans (addDamage_reports s i _)

theorem Recorded.foldl_addDamage {i : Nat} {o : Owner} {p : Place} (g : Owner → Damage) (os : List Owner) {s : State}
    (h : Recorded (s.imp i).serve.damage o p) :
    Recorded ((os.foldl (fun s o => s.addDamage i (g o)) s).imp i).serve.damage o p := by
  induction os generalizing s with
  | nil => exact h
  | cons x os ih => exact ih (by rw [addDamage_damage]; exact h.joinDamage _)

theorem recorded_foldl_addDamage (i status : Nat) (p : Place) (rs : Option (List Nat)) {o : Owner} (os : List Owner) (s : State)
    (h : o ∈ os) :
    Recorded ((os.foldl (fun s o => s.addDamage i ⟨o, status, p, rs⟩) s).imp i).serve.damage o p := by
  induction os generalizing s with
  | nil => exact absurd h (by simp)
  | cons x os ih =>
    rcases List.mem_cons.1 h with rfl | hx
    · exact Recorded.foldl_addDamage (fun o => ⟨o, status, p, rs⟩) os
        (by rw [addDamage_damage]; exact recorded_joinDamage _ _)
    · exact ih _ hx

theorem find_ctrAdd (c : Ctr) (g : Nat → Nat) (m : List (Ctr × Nat)) :
    (m.map fun x => if x.1 == c then (c, g x.2) else x).find? (fun x => x.1 == c) = (m.find? fun x => x.1 == c).map fun x => (c, g x.2) := by
  induction m with
  | nil => rfl
  | cons x m ih =>
    rw [List.map_cons, List.find?_cons, List.find?_cons, ih]
    cases h : x.1 == c with
    | true => simp
    | false => simp [h]

theorem ctrGet_ctrAdd (m : List (Ctr × Nat)) (c : Ctr) (n : Nat) :
    ctrGet (ctrAdd m c n) c = (ctrGet m c + n) % 2 ^ c.width := by
  unfold ctrAdd ctrGet
  split
  next h =>
    obtain ⟨x, hx⟩ := Option.isSome_iff_exists.1 ((List.find?_isSome).2 (List.any_eq_true.1 h))
    rw [find_ctrAdd c (fun v => wrapAdd c.width v n), hx]
    rfl
  next h =>
    have hnone : m.find? (fun x => x.1 == c) = none := by
      rw [List.find?_eq_none]
      exact fun x hx hc => h (List.any_eq_true.2 ⟨x, hx, hc⟩)
    rw [List.find?_append, hnone]
    simp

theorem count_counter (s : State) (i : Nat) (c : Ctr) {n : Nat} (hn : n ≠ 0) :
    ctrGet ((s.count i c n).imp i).run.counters c = (ctrGet (s.imp i).run.counters c + n) % 2 ^ c.width := by
  rw [State.count, if_neg hn, State.imp_modRun_same]
  exact ctrGet_ctrAdd _ c n

/-! Reports (R255, R516). -/

theorem OnlyIcu.alarm (s : State) (r : Report) : OnlyIcu s (s.alarm r) := by
  unfold State.alarm
  split
  · split
    · exact OnlyIcu.pulse s _
    · exact OnlyIcu.refl s
  · exact OnlyIcu.pulse s _
  · exact OnlyIcu.refl s

theorem OnlyIcu.owners {s t : State} (h : OnlyIcu s t) (r : Report) : t.owners r = s.owners r := by
  rw [h.rest]
  rfl

/-- What is reported of a line in a reserve part stops the package (R515). -/
theorem resolve_reserve {s : State} {r : Report} {a : Nat} (hp : r.place = .t0 a) (ha : isReserve a = true) : s.resolve r = s.stop 3 0 := by
  simp [State.resolve, hp, ha]

theorem resolve_owned {s : State} {r : Report} (hr : ∀ a, r.place = .t0 a → isReserve a = false) (hi : r.imprint < 16) :
    s.resolve r = if (s.owners r).isEmpty then
        if (s.imp r.imprint).run.freeSeen.contains r.place then s
        else (s.modRun r.imprint fun u => { u with freeSeen := u.freeSeen ++ [r.place] }).count r.imprint .freeDamage 1
      else (s.owners r).foldl (fun s o => s.addDamage r.imprint ⟨o, r.status, r.place, r.affected⟩) s := by
  unfold State.resolve
  extract_lets inReserve os
  have hres : inReserve = false := by
    simp only [inReserve]
    split
    next a hp => exact hr a hp
    next => rfl
  rw [if_neg (by rw [hres]; exact Bool.false_ne_true), if_neg (Nat.not_le.2 hi)]

theorem exec_damageReport {s : State} {r : Report} {rest : List Report} (hs : s.stopped = false) (hq : s.reports = r :: rest) :
    exec .damageReport s = .next ((State.alarm { s with reports := rest } r).resolve r) := by
  show execDamageReport s = _
  unfold execDamageReport
  rw [if_neg (by simp [hs]), hq]

theorem resolve_reports {s : State} {r : Report} (hr : ∀ a, r.place = .t0 a → isReserve a = false) (hi : r.imprint < 16) :
    (s.resolve r).reports = s.reports := by
  rw [resolve_owned hr hi]
  split
  · split
    · rfl
    · rfl
  · exact foldl_addDamage_reports r.imprint (fun o => ⟨o, r.status, r.place, r.affected⟩) _ s

theorem resolve_recorded {s : State} {r : Report} (hr : ∀ a, r.place = .t0 a → isReserve a = false) (hi : r.imprint < 16)
    {o : Owner} (ho : o ∈ s.owners r) : Recorded ((s.resolve r).imp r.imprint).serve.damage o r.place := by
  rw [resolve_owned hr hi, if_neg (by simpa using List.ne_nil_of_mem ho)]
  exact recorded_foldl_addDamage _ _ _ _ _ _ ho

theorem resolve_free {s : State} {r : Report} (hr : ∀ a, r.place = .t0 a → isReserve a = false) (hi : r.imprint < 16)
    (ho : s.owners r = []) : ctrGet ((s.resolve r).imp r.imprint).run.counters .freeDamage =
      if (s.imp r.imprint).run.freeSeen.contains r.place then ctrGet (s.imp r.imprint).run.counters .freeDamage
      else (ctrGet (s.imp r.imprint).run.counters .freeDamage + 1) % 2 ^ 32 := by
  rw [resolve_owned hr hi, if_pos (by rw [ho]; rfl)]
  split
  · rfl
  · rw [count_counter _ _ _ Nat.one_ne_zero, State.imp_modRun_same]
    rfl

theorem damageReport_owned {s : State} {r : Report} {rest : List Report} (hs : s.stopped = false) (hq : s.reports = r :: rest)
    (hi : r.imprint < 16) (hr : ∀ a, r.place = .t0 a → isReserve a = false) :
    ∃ t, exec .damageReport s = .next t ∧ t.reports = rest
      ∧ (∀ o ∈ s.owners r, ∃ d ∈ (t.imp r.imprint).serve.damage, d.owner = o ∧ d.place = r.place)
      ∧ (s.owners r = [] → ctrGet (t.imp r.imprint).run.counters .freeDamage =
          if (s.imp r.imprint).run.freeSeen.contains r.place then ctrGet (s.imp r.imprint).run.counters .freeDamage
          else (ctrGet (s.imp r.imprint).run.counters .freeDamage + 1) % 2 ^ 32) := by
  have ha : OnlyIcu { s with reports := rest } (State.alarm { s with reports := rest } r) := OnlyIcu.alarm _ r
  have hown : (State.alarm { s with reports := rest } r).owners r = s.owners r := (ha.owners r).trans rfl
  have himp : (State.alarm { s with reports := rest } r).imp r.imprint = s.imp r.imprint := ha.imp _
  refine ⟨_, exec_damageReport hs hq, (resolve_reports hr hi).trans ha.reports, fun o ho => ?_, fun ho => ?_⟩
  · exact resolve_recorded hr hi (by rw [hown]; exact ho)
  · rw [resolve_free hr hi (by rw [hown]; exact ho), himp]

theorem damageReport_reserve {s : State} {r : Report} {rest : List Report} {a : Nat} (hs : s.stopped = false) (hq : s.reports = r :: rest)
    (hp : r.place = .t0 a) (ha : isReserve a = true) :
    ∃ t, exec .damageReport s = .next t ∧ t.stopped = true ∧ t.glb.cause = 3 := by
  have halarm : OnlyIcu { s with reports := rest } (State.alarm { s with reports := rest } r) := OnlyIcu.alarm _ r
  have hstop := OnlyIcu.stop (s := State.alarm { s with reports := rest } r) (halarm.stopped.trans hs) 3 0
  exact ⟨_, by rw [exec_damageReport hs hq, resolve_reserve hp ha], hstop.stopped, by rw [hstop.glb]⟩

/-! Transfers with T2 (R218, R253). -/

/-- A change of counts alone. -/
structure OnlyCounts (s t : State) : Prop where
  rest : t = { s with imprints := t.imprints }
  cfg : ∀ i, (t.imp i).cfg = (s.imp i).cfg
  serve : ∀ i, (t.imp i).serve = (s.imp i).serve

namespace OnlyCounts

theorem trans {s t u : State} (h : OnlyCounts s t) (g : OnlyCounts t u) : OnlyCounts s u where
  rest := by
    refine g.rest.trans ?_
    rw [h.rest]
  cfg := fun i => (g.cfg i).trans (h.cfg i)
  serve := fun i => (g.serve i).trans (h.serve i)

theorem count (s : State) (i : Nat) (c : Ctr) (n : Nat) : OnlyCounts s (s.count i c n) := by
  unfold State.count
  split
  · exact ⟨rfl, fun _ => rfl, fun _ => rfl⟩
  · exact ⟨rfl, fun k => by rw [State.imp_modRun]; split <;> simp_all, fun k => by rw [State.imp_modRun]; split <;> simp_all⟩

theorem countSlugs (s : State) (i : Nat) (sts : List Nat) : OnlyCounts s (s.countSlugs i sts) := (count s i _ _).trans (count _ i _ _)

theorem slotAddr {s t : State} (h : OnlyCounts s t) (i c k : Nat) : t.slotAddr i c k = s.slotAddr i c k := by
  have hcfg : t.cfg i = s.cfg i := h.cfg i
  unfold State.slotAddr State.slotSlice
  rw [hcfg]

end OnlyCounts

theorem exec_morgueTransferDone {s : State} {i : Fin 16} {id : Nat} {f : Folio} {m : Move} {l : LayerCfg} (bytes : List Byte)
    (hf : spGet none (s.imp i.val).serve.folios id = some f) (hm : f.move = some m) (hl : s.layer i.val f.layer = some l)
    (hs : s.stopped = false) : exec (.morgueTransferDone i id bytes) s =
      if s.morgueWaits i.val f m = false then .next s
      else if m.spill then .next (s.modFolio i.val id fun f => { f with move := some { m with done := true, image := [] } })
      else .next (s.landImage i.val (id, f) m (s.openUnits i.val f.cls (firstUnit l f.slot) bytes)) := by
  show execMorgueTransferDone i id bytes s = _
  unfold execMorgueTransferDone
  simp only [hf, hm, hl, hs, Bool.false_or, Bool.not_eq_true']

theorem exec_morgueTransferFailed {s : State} {i : Fin 16} {id : Nat} {f : Folio} {m : Move}
    (hf : spGet none (s.imp i.val).serve.folios id = some f) (hm : f.move = some m) (hs : s.stopped = false) :
    exec (.morgueTransferFailed i id) s = if s.morgueWaits i.val f m = false then .next s else .next (s.failMove i.val id) := by
  show execMorgueTransferFailed i id s = _
  unfold execMorgueTransferFailed
  simp only [hf, hm, hs, Bool.false_or, Bool.not_eq_true']

/-- A good image lands in its slot (R218). -/
theorem landImage_good {s : State} {i id : Nat} {f : Folio} {m : Move} {l : LayerCfg} {image body : List Byte}
    (hf : spGet none (s.imp i).serve.folios id = some f) (hl : s.layer i f.layer = some l) (hb : checkImage id f l image = .ok body) :
    (s.landImage i (id, f) m image).holds (s.slotAddr i f.cls m.slot + 256) body
      ∧ spGet none ((s.landImage i (id, f) m image).imp i).serve.folios id =
          some { f with move := some { m with done := true, image := [] }, addr := s.slotAddr i f.cls m.slot } := by
  unfold State.landImage
  simp only [hl, hb]
  generalize hu : s.countSlugs i _ = u
  have hc : OnlyCounts s u := hu ▸ OnlyCounts.countSlugs s i _
  rw [hc.slotAddr]
  refine ⟨t0Write_holds _ _ body, ?_⟩
  rw [State.folio_modFolio, (t0Write_only _ _ body).imp, hc.serve, hf]
  rfl

/-- An image that fails its check is reported, and its transfer dropped (R218, R254). -/
theorem landImage_bad {s : State} {i id : Nat} {f : Folio} {m : Move} {l : LayerCfg} {image : List Byte} {st : Nat}
    (hf : spGet none (s.imp i).serve.folios id = some f) (hl : s.layer i f.layer = some l) (hm : m.t2 = true)
    (hb : checkImage id f l image = .error st) :
    spGet none ((s.landImage i (id, f) m image).imp i).serve.folios id = some { f with move := none }
      ∧ (⟨i, .t2 f.cls (firstUnit l f.slot), st, none⟩ : Report) ∈ (s.landImage i (id, f) m image).reports := by
  unfold State.landImage
  simp only [hl, hb, if_pos hm]
  generalize hu : s.countSlugs i _ = u
  have hc : OnlyCounts s u := hu ▸ OnlyCounts.countSlugs s i _
  refine ⟨?_, mem_report _ _⟩
  rw [State.folio_modFolio, (report_only _ _).imp, hc.serve, hf]
  rfl

theorem failMove_gives_up {s : State} {i id : Nat} {f : Folio} {m : Move} (hf : spGet none (s.imp i).serve.folios id = some f)
    (hm : f.move = some m) :
    spGet none ((s.failMove i id).imp i).serve.folios id = some { f with move := if m.spill then none else some { m with failed := true } }
    ∧ ctrGet ((s.failMove i id).imp i).run.counters .morgueFailed = (ctrGet (s.imp i).run.counters .morgueFailed + 1) % 2 ^ 32 := by
  unfold State.failMove State.giveUpMove
  constructor
  · rw [State.folio_modFolio]
    show (spGet none ((s.count i .morgueFailed 1).imp i).serve.folios id).map _ = _
    rw [(OnlyCounts.count s i .morgueFailed 1).serve, hf]
    simp only [Option.map_some, hm, Option.bind_some]
  · rw [State.modFolio, State.imp_modServe_same]
    exact count_counter s i .morgueFailed Nat.one_ne_zero

/-- Settles O34: each owner of a report joins the damage list, which no later entry shortens; a transfer goes by the folio's slot. -/
theorem damageReachesItsOwners : Obligations.DamageReachesItsOwners := by
  refine ⟨fun s r rest => damageReport_owned, fun s r rest a => damageReport_reserve, fun i id bytes f m l s hf hm hl hs => ⟨fun hw => ?_,
    fun hw => ⟨fun hsp => ?_, fun hsp => ?_, ?_⟩⟩, fun i h g q s hg hq hs hlate => ?_⟩
  · rw [exec_morgueTransferDone bytes hf hm hl hs, exec_morgueTransferFailed hf hm hs, if_pos hw, if_pos hw]
    exact ⟨rfl, rfl⟩
  · refine ⟨_, by rw [exec_morgueTransferDone bytes hf hm hl hs, if_neg (by simp [hw]), if_pos hsp], ?_⟩
    rw [State.folio_modFolio, hf]
    rfl
  · have ht2 : m.t2 = true := by
      simp only [State.morgueWaits, Bool.and_eq_true] at hw
      exact hw.1.1.1.1
    refine ⟨_, by rw [exec_morgueTransferDone bytes hf hm hl hs, if_neg (by simp [hw]), if_neg (by simp [hsp])], ?_⟩
    split
    next body hb => exact landImage_good hf hl hb
    next st hb => exact landImage_bad hf hl ht2 hb
  · exact ⟨_, by rw [exec_morgueTransferFailed hf hm hs, if_neg (by simp [hw])], failMove_gives_up hf hm⟩
  · refine ⟨s.addDamage i.val ⟨.request h, 0x0303, .request h, none⟩, ?_, ?_⟩
    · show execMorgueLate i h s = _
      unfold execMorgueLate
      simp [hg, hq, hs, hlate]
    · rw [addDamage_damage]
      exact recorded_joinDamage _ _

end Sys2Proof.Machine
end

section
/-!
Telling the host of an event (R457, R460, R471, R473), and the loss of a core (R508, R525).
-/
namespace Sys2Proof.Machine

open Sys2Proof

/-- A notice to the host: of the imprints, only events that wait for a commit are added. -/
structure Told (s t : State) : Prop where
  notified : Notified s t
  imp : ∀ k, ∃ es, t.imp k = { s.imp k with serve := { (s.imp k).serve with events := es } }

namespace Told

theorem of_imprints {s t : State} (h : Notified s t) (hi : t.imprints = s.imprints) : Told s t :=
  ⟨h, fun k => ⟨(s.imp k).serve.events, by unfold State.imp; rw [hi]⟩⟩

theorem refl (s : State) : Told s s := of_imprints (Notified.refl s) rfl

theorem trans {s t u : State} (h : Told s t) (g : Told t u) : Told s u where
  notified := h.notified.trans g.notified
  imp := fun k => by
    obtain ⟨es, he⟩ := h.imp k
    obtain ⟨es', he'⟩ := g.imp k
    exact ⟨es', by rw [he', he]⟩

theorem of_onlyIcu {s t : State} (h : OnlyIcu s t) : Told s t := of_imprints (Notified.of_onlyIcu h) h.imprints

theorem sample (s : State) : Told s s.sample := of_onlyIcu (OnlyIcu.sample s)

theorem pulse (s : State) (n : Nat) : Told s (s.pulse n) := of_onlyIcu (OnlyIcu.pulse s n)

theorem modFn (s : State) (k : Nat) (f : Fn → Fn) : Told s (s.modFn k f) := of_imprints (Notified.modFn s k f) rfl

theorem emit (s : State) (e : Emission) : Told s (s.emit e) := of_imprints (Notified.emit s e) rfl

theorem ite {s t u : State} {p : Prop} [Decidable p] (h : Told s t) (g : Told s u) : Told s (if p then t else u) := by
  split <;> assumption

theorem foldl {α : Type} {f : State → α → State} (hf : ∀ s x, Told s (f s x)) (xs : List α) (s : State) : Told s (xs.foldl f s) := by
  induction xs generalizing s with
  | nil => exact refl s
  | cons x xs ih => exact (hf s x).trans (ih (f s x))

theorem writeRing (s : State) (f k : Nat) (records : List (List Byte)) : Told s (s.writeRing f k records) := by
  unfold State.writeRing
  split
  · exact refl s
  · extract_lets s1 p s2 s3
    have h1 : Told s s1 := foldl (fun s _ => emit s _) _ s
    have h3 : Told s s3 := (h1.trans (emit s1 _)).trans (modFn s2 f _)
    exact ite (refl s) (ite h3 (h3.trans (of_onlyIcu (Delivered.raiseVector s3 f _).toOnlyIcu)))

theorem writeEvents (s : State) (f n : Nat) (es : List (List Byte)) : Told s (s.writeEvents f n es) := by
  unfold State.writeEvents
  split
  · exact modFn s f _
  · exact (writeRing s f _ _).trans (modFn _ f _)

theorem pfEvent (s : State) (bs : List Byte) : Told s (s.pfEvent bs) := writeEvents s 0 0 _

theorem modEvents (s : State) (i : Nat) (f : Serve → List (List Byte)) : Told s (s.modServe i fun v => { v with events := f v }) where
  notified := Notified.modServe s i _
  imp := fun k => by
    rw [State.imp_modServe]
    split
    next h => exact ⟨_, by rw [h]⟩
    next => exact ⟨(s.imp k).serve.events, rfl⟩

theorem event (s : State) (i : Nat) (bs : List Byte) : Told s (s.event i bs) := by
  unfold State.event
  exact ite (writeEvents s _ 0 _) (modEvents s i fun v => v.events ++ [bs])

theorem heldEvent (s : State) (i code : Nat) : Told s (s.heldEvent i code) := (event s i _).trans (pfEvent _ _)

theorem flushPower (s : State) : Told s s.flushPower := by
  unfold State.flushPower
  refine ite (refl s) (trans (t := { s with power := { s.power with events := [] } }) ?_ (writeEvents _ 0 0 _))
  exact of_imprints rfl rfl

theorem powerEvent (s : State) (bs : List Byte) : Told s (s.powerEvent bs) := by
  unfold State.powerEvent
  refine trans (t := { s with power := { s.power with events := s.power.events ++ [bs] } }) (of_imprints rfl rfl) ?_
  exact ite (refl _) (flushPower _)

variable {s t : State} (h : Told s t)
include h

theorem lostCores : t.lostCores = s.lostCores := by rw [h.notified]
theorem t1 : t.t1 = s.t1 := by rw [h.notified]
theorem fab : t.fab = s.fab := by rw [h.notified]
theorem causes : t.causes = s.causes := by rw [h.notified]
theorem reports : t.reports = s.reports := by rw [h.notified]
theorem glb : t.glb = s.glb := by rw [h.notified]
theorem core (c : Nat) : t.core c = s.core c := by unfold State.core; rw [h.notified.cores]
theorem cfg (k : Nat) : t.cfg k = s.cfg k := by
  obtain ⟨es, he⟩ := h.imp k
  unfold State.cfg
  rw [he]
theorem run (k : Nat) : (t.imp k).run = (s.imp k).run := by
  obtain ⟨es, he⟩ := h.imp k
  rw [he]
theorem go (k : Nat) : (t.imp k).go = (s.imp k).go := by
  obtain ⟨es, he⟩ := h.imp k
  rw [he]
theorem serve (k : Nat) : ∃ es, (t.imp k).serve = { (s.imp k).serve with events := es } := by
  obtain ⟨es, he⟩ := h.imp k
  exact ⟨es, by rw [he]⟩
theorem held (k : Nat) : (t.imp k).serve.held = (s.imp k).serve.held := by
  obtain ⟨es, he⟩ := h.serve k
  rw [he]
theorem phase (k : Nat) : (t.imp k).serve.phase = (s.imp k).serve.phase := by
  obtain ⟨es, he⟩ := h.serve k
  rw [he]

end Told

/-- What an imprint that enters Held drops (R508). -/
def Serve.enterHeld (v : Serve) (code : Nat) : Serve := { v with held := some code, phase := .closed, agreement := none, begun := false }

/-- Entering Held changes of the imprint its record as told; the rest is a notice. -/
theorem told_enterHeld (s : State) (i code : Nat) : Told (s.modServe i fun v => v.enterHeld code) (s.enterHeld i code) := by
  unfold State.enterHeld
  extract_lets u
  have hu : Told (s.modServe i fun v => v.enterHeld code) u := Told.modFn _ (i + 1) _
  exact hu.trans (Told.trans (Told.ite (Told.refl u) (Told.flushPower u)) (Told.sample _))

theorem enterHeld_held (s : State) (i code : Nat) : ((s.enterHeld i code).imp i).serve.held = some code := by
  rw [(told_enterHeld s i code).held, State.imp_modServe_same]
  rfl

/-! The loss of a core (R525). -/

theorem copySlice_only (s : State) (c : Nat) : OnlyT0 s (s.copySlice c) :=
  OnlyT0.foldl (fun s l => ((badLine_only s l).trans (freshLine_only _ l)).trans (OnlyT0.mk _ _ _)) _ s

theorem OnlyT0.ed {s t : State} (h : OnlyT0 s t) : t.ed = s.ed := by rw [h]

theorem OnlyT0.lostCores {s t : State} (h : OnlyT0 s t) : t.lostCores = s.lostCores := by rw [h]

/-- An imprint whose commands go to another core from here on. -/
def State.retireImp (s : State) (j : Nat) : State := s.modServe j fun v => { v with retire := true }

theorem foldl_retireImp_rest (js : List Nat) (s : State) :
    js.foldl State.retireImp s = { s with imprints := (js.foldl State.retireImp s).imprints } := by
  induction js generalizing s with
  | nil => rfl
  | cons j js ih => exact ih (s.retireImp j)

theorem foldl_retireImp_retire {js : List Nat} {s : State} {i : Nat} (h : i ∈ js ∨ (s.imp i).serve.retire = true) :
    ((js.foldl State.retireImp s).imp i).serve.retire = true := by
  induction js generalizing s with
  | nil => exact h.resolve_left (by simp)
  | cons j js ih =>
    refine ih (or_iff_not_imp_left.2 fun hn => ?_)
    unfold State.retireImp
    rw [State.imp_modServe]
    split
    next hj => rfl
    next hj => exact h.resolve_left (by simp [hj, hn])

/-- The package without a core among the lost ones. -/
def State.withoutLost (s : State) (c : Nat) : State := { s with lostCores := s.lostCores.filter fun x => x.1 != c }

/-- A lost core's slice and programs go to the spare `q` (R525). -/
def State.toSpare (s : State) (c p q : Nat) : State :=
  let s := (s.copySlice c).modCore c fun x => { Core.empty with streams := x.streams, saveOff := x.saveOff, jobs := x.jobs }
  { s with ed := { s.ed with coreMap := (s.ed.coreMap.set q c).set p 0xFF, disabled := s.ed.disabled ++ [p] } }

/-- Every imprint retires its commands, and the new core map is measured (R525, R582). -/
def State.retireAll (s : State) : State :=
  let s := s.imprintList.foldl State.retireImp s
  s.extend 6 (Config.sha384 (coreMapBytes s.ed.coreMap))

/-- A lost core that has no spare is disabled (R525). -/
def State.withoutSpare (s : State) (p : Nat) : State :=
  { s with ed := { s.ed with coreMap := s.ed.coreMap.set p 0xFF, disabled := s.ed.disabled ++ [p] } }

section
variable {core : Fin 192} {c cause p i : Nat} {s : State} (hx : s.lostCores.find? (fun x => x.1 == core.val) = some (c, cause))
  (hp : s.physicalOf core.val = some p) (hi : s.imprintOf core.val = some i) (hs : s.stopped = false)
include hx hp hi hs

theorem exec_coreLost_spare {q : Nat} (hq : s.spareFor p = some q) :
    ∃ bs, exec (.coreLost core) s = .next ((((s.withoutLost core.val).toSpare core.val p q).retireAll).event i bs) := by
  have hspare : State.spareFor { s with lostCores := s.lostCores.filter fun x => x.1 != core.val } p = some q := hq
  have hexec : exec (.coreLost core) s = execCoreLost core s := rfl
  unfold execCoreLost at hexec
  simp only [hx, hp, hi] at hexec
  rw [if_neg (by simp [hs])] at hexec
  simp only [hspare] at hexec
  exact ⟨_, hexec⟩

theorem exec_coreLost_held (hq : s.spareFor p = none) : ∃ bs, exec (.coreLost core) s =
    .next (((((s.withoutLost core.val).withoutSpare p).event i bs).heldEvent i 2).enterHeld i 2) := by
  have hspare : State.spareFor { s with lostCores := s.lostCores.filter fun x => x.1 != core.val } p = none := hq
  have hexec : exec (.coreLost core) s = execCoreLost core s := rfl
  unfold execCoreLost at hexec
  simp only [hx, hp, hi] at hexec
  rw [if_neg (by simp [hs])] at hexec
  simp only [hspare] at hexec
  exact ⟨_, hexec⟩

end

theorem toSpare_ed (s : State) (c p q : Nat) : (s.toSpare c p q).ed =
    { s.ed with coreMap := (s.ed.coreMap.set q c).set p 0xFF, disabled := s.ed.disabled ++ [p] } := by
  unfold State.toSpare
  simp only [State.modCore_ed, (copySlice_only s c).ed]

theorem toSpare_lostCores (s : State) (c p q : Nat) : (s.toSpare c p q).lostCores = s.lostCores := (copySlice_only s c).lostCores

theorem toSpare_imprints (s : State) (c p q : Nat) : (s.toSpare c p q).imprints = s.imprints := (copySlice_only s c).imprints

theorem toSpare_streams (s : State) (c p q : Nat) : ((s.toSpare c p q).core c).streams = (s.core c).streams := by
  have h : (s.toSpare c p q).cores = spMod Core.empty (s.copySlice c).cores c
      fun x => { Core.empty with streams := x.streams, saveOff := x.saveOff, jobs := x.jobs } := rfl
  unfold State.core
  rw [h, spGet_spMod_same, (copySlice_only s c).cores]

theorem retireAll_rest (s : State) : s.retireAll = { s with imprints := s.retireAll.imprints, boot := s.retireAll.boot } := by
  unfold State.retireAll
  rw [foldl_retireImp_rest]
  rfl

theorem retireAll_retire {s : State} {i : Nat} (h : i ∈ s.imprintList) : (s.retireAll.imp i).serve.retire = true :=
  foldl_retireImp_retire (.inl h)

/-- Settles O36: by the spare of the lost core's die; the events that tell of it reach nothing that the statement names. -/
theorem lostCoreIsReplacedOrHeld : Obligations.LostCoreIsReplacedOrHeld := by
  intro core x p i s hx hp hi hs
  cases hq : s.spareFor p with
  | some q =>
    obtain ⟨bs, hexec⟩ := exec_coreLost_spare hx hp hi hs hq
    generalize hu : (s.withoutLost core.val).toSpare core.val p q = u at hexec
    have htold := Told.event u.retireAll i bs
    have hed : (u.retireAll.event i bs).ed = u.ed := by rw [htold.notified.ed, retireAll_rest]
    have hlost : (u.retireAll.event i bs).lostCores = u.lostCores := by rw [htold.lostCores, retireAll_rest]
    have hcore : (u.retireAll.event i bs).core core.val = u.core core.val := by rw [htold.core, retireAll_rest]; rfl
    have hmem : i ∈ u.imprintList := by
      have himps : u.imprintList = s.imprintList := by
        unfold State.imprintList State.imp
        rw [← hu, toSpare_imprints]
        rfl
      exact himps ▸ List.mem_of_find?_eq_some hi
    obtain ⟨es, he⟩ := htold.serve i
    refine ⟨_, hexec, ?_, ?_, ?_, ?_, ?_⟩
    · rw [hed, ← hu, toSpare_ed]
      rfl
    · rw [hlost, ← hu, toSpare_lostCores]
      rfl
    · rw [hed, ← hu, toSpare_ed]
      rfl
    · rw [hcore, ← hu, toSpare_streams]
      rfl
    · rw [he]
      exact retireAll_retire hmem
  | none =>
    obtain ⟨bs, hexec⟩ := exec_coreLost_held hx hp hi hs hq
    generalize hu : (s.withoutLost core.val).withoutSpare p = u at hexec
    have htold : Told u ((u.event i bs).heldEvent i 2) := (Told.event u i bs).trans (Told.heldEvent _ i 2)
    have hheld := told_enterHeld ((u.event i bs).heldEvent i 2) i 2
    have hed := hheld.notified.ed.trans htold.notified.ed
    have hlost := hheld.lostCores.trans htold.lostCores
    subst hu
    exact ⟨_, hexec, congrArg Editions.disabled hed, hlost, congrArg Editions.coreMap hed, enterHeld_held _ i 2⟩

end Sys2Proof.Machine
end

section
/-!
Tiltil ports (R392 to R416): what the sender and the steps of a port between its states can change.
-/
namespace Sys2Proof.Machine

open Sys2Proof

/-! What sending changes of a port (R393 to R398). -/

/-- What sending leaves of a port: all but its numbers, credit and queues. -/
def Port.Kept (x y : Port) : Prop :=
  y = { x with helloSent := y.helloSent, nextSeq := y.nextSeq, unacked := y.unacked, credit := y.credit, ready := y.ready,
               served := y.served, freed := y.freed, changed := y.changed, helloDue := y.helloDue, poolDue := y.poolDue,
               toReplay := y.toReplay }

namespace Port.Kept

theorem refl (x : Port) : x.Kept x := rfl

theorem trans {x y z : Port} (h : x.Kept y) (g : y.Kept z) : x.Kept z := by
  unfold Port.Kept at *
  refine g.trans ?_
  rw [h]

variable {x y : Port} (h : x.Kept y)
include h

theorem state : y.state = x.state := by rw [h]
theorem reason : y.reason = x.reason := by rw [h]
theorem peer : y.peer = x.peer := by rw [h]
theorem peerPort : y.peerPort = x.peerPort := by rw [h]
theorem lastHello : y.lastHello = x.lastHello := by rw [h]
theorem helloGot : y.helloGot = x.helloGot := by rw [h]
theorem expect : y.expect = x.expect := by rw [h]
theorem count : y.count = x.count := by rw [h]
theorem loopback : y.loopback = x.loopback := by rw [h]

end Port.Kept

/-- Sending and the return of space: of the package only ports' numbers, credit and queues change, and packets leave. -/
structure Sent (s t : State) : Prop where
  rest : t = { s with ports := t.ports, out := t.out }
  port : ∀ q, (s.port q).Kept (t.port q)

namespace Sent

theorem refl (s : State) : Sent s s := ⟨rfl, fun _ => rfl⟩

theorem trans {s t u : State} (h : Sent s t) (g : Sent t u) : Sent s u where
  rest := by
    refine g.rest.trans ?_
    rw [h.rest]
  port := fun q => (h.port q).trans (g.port q)

theorem modPort (s : State) (p : Nat) {f : Port → Port} (hf : ∀ x : Port, x.Kept (f x)) : Sent s (s.modPort p f) where
  rest := rfl
  port := fun q => by
    rw [State.port_modPort]
    split
    next h => exact h ▸ hf _
    next => exact rfl

theorem emit (s : State) (e : Emission) : Sent s (s.emit e) := ⟨rfl, fun _ => rfl⟩

theorem foldl {α : Type} {f : State → α → State} (hf : ∀ s x, Sent s (f s x)) (xs : List α) (s : State) : Sent s (xs.foldl f s) := by
  induction xs generalizing s with
  | nil => exact refl s
  | cons x xs ih => exact (hf s x).trans (ih (f s x))

theorem poolReturn (s : State) (p : Nat) : Sent s (s.poolReturn p) := by
  unfold State.poolReturn
  split
  · exact modPort s p fun _ => rfl
  · exact refl s

theorem free (s : State) (p pool g : Nat) : Sent s (s.free p pool g) := by
  unfold State.free
  split
  · split
    · exact poolReturn s p
    · exact modPort s p fun _ => rfl
  · exact refl s

variable {s t : State} (h : Sent s t)
include h

theorem fab : t.fab = s.fab := by rw [h.rest]
theorem causes : t.causes = s.causes := by rw [h.rest]
theorem stopped : t.stopped = s.stopped := by rw [h.rest]
theorem imprints : t.imprints = s.imprints := by rw [h.rest]
theorem t0 : t.t0 = s.t0 := by rw [h.rest]
theorem power : t.power = s.power := by rw [h.rest]

end Sent

/-- A packet that a port sends from its queues, and the port after it. -/
theorem portSendOne_sent {s t : State} {p : Nat} (h : s.portSendOne p = some t) : Sent s t := by
  have step : ∀ (y : Port) (e : Emission), (s.port p).Kept y → Sent s ((s.modPort p fun _ => y).emit e) := fun y e hy =>
    Sent.trans ⟨rfl, fun q => by
      rw [State.port_modPort]
      split
      next hq => exact hq ▸ hy
      next => exact rfl⟩ (Sent.emit _ e)
  unfold State.portSendOne at h
  simp only at h
  split at h
  · exact absurd h (by simp)
  split at h
  next q rest _ =>
    split at h
    · obtain rfl := Option.some.inj h
      exact (Sent.modPort s p (by intro _; rfl)).trans (Sent.emit _ _)
    · exact absurd h (by simp)
  next =>
    split at h
    · obtain rfl := Option.some.inj h
      exact (Sent.modPort s p (by intro _; rfl)).trans (Sent.emit _ _)
    · split at h
      · split at h
        · exact absurd h (by simp)
        · obtain rfl := Option.some.inj h
          exact step _ _ rfl
      · exact absurd h (by simp)

theorem Sent.portDrain (s : State) (p n : Nat) : Sent s (s.portDrain p n) := by
  induction n generalizing s with
  | zero => exact Sent.refl s
  | succ n ih =>
    unfold State.portDrain
    split
    next t ht => exact (portSendOne_sent ht).trans (ih t)
    next => exact Sent.refl s

theorem Sent.pump (s : State) (p : Nat) : Sent s (s.pump p) :=
  (Sent.portDrain s p _).trans (Sent.foldl (fun s (r : Ready) => Sent.free s r.source _ _) _ _)

theorem Sent.enqueue (s : State) (p source : Nat) (q : Packet) : Sent s (s.enqueue p source q) :=
  (Sent.modPort s p (by intro _; rfl)).trans (Sent.pump _ p)

/-! What a step of a port can reach beyond the ports (R416, R587). -/

/-- A change of ports, of interrupts and of what is sent. -/
def Ported (s t : State) : Prop := t = { s with ports := t.ports, fns := t.fns, icu := t.icu, out := t.out }

namespace Ported

theorem refl (s : State) : Ported s s := rfl

theorem trans {s t u : State} (h : Ported s t) (g : Ported t u) : Ported s u := by
  unfold Ported at *
  refine g.trans ?_
  rw [h]

theorem of_sent {s t : State} (h : Sent s t) : Ported s t := by
  unfold Ported
  rw [h.rest]

theorem of_onlyIcu {s t : State} (h : OnlyIcu s t) : Ported s t := by
  unfold Ported
  rw [h.rest]

theorem modPort (s : State) (p : Nat) (f : Port → Port) : Ported s (s.modPort p f) := rfl

theorem portTo (s : State) (p : Nat) (st : PortState) (reason : Nat) : Ported s (s.portTo p st reason) := by
  unfold State.portTo
  extract_lets was told
  split
  · exact modPort s p _
  · exact (modPort s p _).trans (of_onlyIcu (OnlyIcu.pulse _ _))

theorem portUp (s : State) (p : Nat) : Ported s (s.portUp p) := by
  unfold State.portUp
  exact ((modPort s p _).trans (portTo _ p _ _)).trans (of_sent ((Sent.poolReturn _ p).trans (Sent.pump _ p)))

theorem settlePort (s : State) (p : Nat) : Ported s (s.settlePort p) := by
  unfold State.settlePort
  extract_lets x
  split
  · exact refl s
  · extract_lets same o
    split
    · split
      · exact refl s
      · exact portUp s p
    · exact (modPort s p _).trans (portTo _ p _ _)

theorem tryHello (s : State) (p : Nat) : Ported s (s.tryHello p) := by
  unfold State.tryHello
  split
  · exact settlePort s p
  · exact refl s

theorem foldl {α : Type} {f : State → α → State} (hf : ∀ s x, Ported s (f s x)) (xs : List α) (s : State) : Ported s (xs.foldl f s) := by
  induction xs generalizing s with
  | nil => exact refl s
  | cons x xs ih => exact (hf s x).trans (ih (f s x))

variable {s t : State} (h : Ported s t)
include h

theorem fab : t.fab = s.fab := by rw [h]
theorem causes : t.causes = s.causes := by rw [h]
theorem stopped : t.stopped = s.stopped := by rw [h]
theorem back : { t with ports := s.ports, fns := s.fns, icu := s.icu, out := s.out } = s := by rw [h]

end Ported

/-- With nothing sent to the package itself and no cause met there is nothing to settle (R521). -/
theorem settle_idle {s : State} (hc : s.causes = []) (hl : s.fab.loop = []) : s.settle = s := by
  have hloop : ∀ n, s.runLoop n = s := fun n => by cases n <;> simp [State.runLoop, hl]
  unfold State.settle
  rw [hloop]
  simp [State.runCauses, hc]

/-! The steps of a port (R399). -/

/-- A step of one port between its states: the others stay. -/
structure Stepped (p : Nat) (s t : State) : Prop where
  rest : Ported s t
  others : ∀ q, q ≠ p → t.port q = s.port q

namespace Stepped

theorem trans {p : Nat} {s t u : State} (h : Stepped p s t) (g : Stepped p t u) : Stepped p s u :=
  ⟨h.rest.trans g.rest, fun q hq => (g.others q hq).trans (h.others q hq)⟩

theorem modPort (s : State) (p : Nat) (f : Port → Port) : Stepped p s (s.modPort p f) := ⟨rfl, fun _ hq => State.port_modPort_ne _ _ _ _ hq⟩

theorem portTo (s : State) (p : Nat) (st : PortState) (reason : Nat) : Stepped p s (s.portTo p st reason) := by
  refine ⟨Ported.portTo s p st reason, fun q hq => ?_⟩
  unfold State.portTo
  extract_lets was told
  split
  · exact State.port_modPort_ne _ _ _ _ hq
  · exact ((OnlyIcu.pulse _ _).port q).trans (State.port_modPort_ne _ _ _ _ hq)

theorem portCount (s : State) (p k : Nat) : Stepped p s (s.portCount p k) := modPort s p _

theorem portDown (s : State) (p : Nat) (st : PortState) (reason : Nat) : Stepped p s (s.portDown p st reason) :=
  (modPort s p _).trans (portTo _ p st reason)

theorem portRetrain (s : State) (p : Nat) : Stepped p s (s.portRetrain p) :=
  ((modPort s p _).trans (portTo _ p _ _)).trans (portCount _ p 4)

end Stepped

/-- A port's new state and reason stand; what else of it changes is whom to tell. -/
theorem portTo_port (s : State) (p : Nat) (st : PortState) (reason : Nat) :
    (s.portTo p st reason).port p = { s.port p with state := st, reason := reason, news := ((s.portTo p st reason).port p).news } := by
  unfold State.portTo
  extract_lets was told
  split
  next h =>
    rw [State.port_modPort_same, ← h]
  next => rw [(OnlyIcu.pulse _ _).port p, State.port_modPort_same]

/-- A port that starts again is at `st` for `reason`, with nothing unacknowledged. -/
theorem portDown_port (s : State) (p : Nat) (st : PortState) (reason : Nat) :
    ((s.portDown p st reason).port p).state = st ∧ ((s.portDown p st reason).port p).reason = reason
      ∧ ((s.portDown p st reason).port p).unacked = [] ∧ ((s.portDown p st reason).port p).en = (s.port p).en
      ∧ ((s.portDown p st reason).port p).loopback = (s.port p).loopback := by
  unfold State.portDown
  rw [portTo_port, State.port_modPort_same]
  exact ⟨rfl, rfl, rfl, rfl, rfl⟩

/-- A port in RETRAIN keeps what is unacknowledged and the number it expects (R395). -/
theorem portRetrain_port (s : State) (p : Nat) :
    ((s.portRetrain p).port p).state = .retrain ∧ ((s.portRetrain p).port p).unacked = (s.port p).unacked
      ∧ ((s.portRetrain p).port p).expect = (s.port p).expect := by
  unfold State.portRetrain State.portCount
  rw [State.port_modPort_same, portTo_port, State.port_modPort_same]
  exact ⟨rfl, rfl, rfl⟩

/-! HELLO is sent on entering HELLO (R397, R402). -/

/-- A port in HELLO with a HELLO due and credit for it sends it. -/
theorem portSendOne_hello {s : State} {p : Nat} (hs : s.stopped = false) (hl : (s.port p).loopback = false)
    (hr : (s.port p).toReplay = []) (hd : (s.port p).helloDue = true) (hc : 2 ≤ (s.port p).credit.getD 4 0)
    (hst : (s.port p).state = .hello) :
    s.portSendOne p = some ((s.modPort p fun x =>
      { x with helloDue := false, helloSent := true, credit := x.credit.set 4 (x.credit.getD 4 0 - 2) }).emit
        (.packet p ⟨bareHead 2 2 s.fab.endpoint, .hello (s.helloOf p)⟩)) := by
  unfold State.portSendOne
  simp only [hs, hl, hr, hd, hst, Bool.or_self, Bool.false_eq_true, if_false, beq_self_eq_true, Bool.true_or, Bool.and_true,
    decide_eq_true hc, if_true]

/-- A port in HELLO with none due sends nothing. -/
theorem portSendOne_quiet {s : State} {p : Nat} (hr : (s.port p).toReplay = []) (hd : (s.port p).helloDue = false)
    (hst : (s.port p).state ≠ .up) : s.portSendOne p = none := by
  unfold State.portSendOne
  simp [hr, hd, hst]

theorem portDrain_quiet {s : State} {p : Nat} (h : s.portSendOne p = none) (n : Nat) : s.portDrain p n = s := by
  cases n <;> simp [State.portDrain, h]

theorem freedBy_same {x y : Port} (h : y.ready = x.ready) : freedBy x y = [] := by
  unfold freedBy
  rw [h, List.filter_eq_nil_iff]
  intro r hr
  simp only [Bool.not_eq_true', Bool.not_eq_false, List.any_eq_true]
  exact ⟨r, hr, by simp⟩

/-- The port's one HELLO leaves (R402). -/
theorem pump_hello {s : State} {p : Nat} (hs : s.stopped = false) (hl : (s.port p).loopback = false) (hr : (s.port p).toReplay = [])
    (hd : (s.port p).helloDue = true) (hc : 2 ≤ (s.port p).credit.getD 4 0) (hst : (s.port p).state = .hello) :
    s.pump p = (s.modPort p fun x =>
      { x with helloDue := false, helloSent := true, credit := x.credit.set 4 (x.credit.getD 4 0 - 2) }).emit
        (.packet p ⟨bareHead 2 2 s.fab.endpoint, .hello (s.helloOf p)⟩) := by
  have hsend := portSendOne_hello hs hl hr hd hc hst
  generalize hu : (s.modPort p fun x => _).emit _ = u at hsend ⊢
  have hport : u.port p = { s.port p with helloDue := false, helloSent := true, credit := (s.port p).credit.set 4 ((s.port p).credit.getD 4 0 - 2) } := by
    rw [← hu, State.emit_port, State.port_modPort_same]
  have hquiet : u.portSendOne p = none := portSendOne_quiet (by rw [hport]; exact hr) (by rw [hport]) (by rw [hport]; simp [hst])
  have hdrain : s.portDrain p ((s.port p).ready.length + (s.port p).toReplay.length + 1) = u := by
    rw [State.portDrain, hsend]
    exact portDrain_quiet hquiet _
  unfold State.pump
  simp only [hdrain]
  rw [freedBy_same (by rw [hport])]
  rfl

/-- Sending the HELLO changes no other port. -/
theorem pump_hello_steps {s : State} {p : Nat} (hs : s.stopped = false) (hl : (s.port p).loopback = false)
    (hr : (s.port p).toReplay = []) (hd : (s.port p).helloDue = true) (hc : 2 ≤ (s.port p).credit.getD 4 0)
    (hst : (s.port p).state = .hello) :
    Stepped p s (s.pump p) ∧ ((s.pump p).port p).state = .hello ∧ ((s.pump p).port p).helloSent = true := by
  rw [pump_hello hs hl hr hd hc hst]
  refine ⟨⟨rfl, fun q hq => ?_⟩, ?_, ?_⟩
  · rw [State.emit_port, State.port_modPort_ne _ _ _ _ hq]
  · rw [State.emit_port, State.port_modPort_same, ← hst]
  · rw [State.emit_port, State.port_modPort_same]

/-- LOCK to HELLO: the port sends its HELLO at once. -/
theorem lockAchieved_steps {s : State} {p : Nat} (hs : s.stopped = false) (hl : (s.port p).loopback = false) :
    Stepped p s (((s.modPort p Port.intoHello).portTo p .hello 0).pump p)
      ∧ ((((s.modPort p Port.intoHello).portTo p .hello 0).pump p).port p).state = .hello
      ∧ ((((s.modPort p Port.intoHello).portTo p .hello 0).pump p).port p).helloSent = true := by
  have hstep : Stepped p s ((s.modPort p Port.intoHello).portTo p .hello 0) := (Stepped.modPort s p _).trans (Stepped.portTo _ p _ _)
  have hport := portTo_port (s.modPort p Port.intoHello) p .hello 0
  rw [State.port_modPort_same] at hport
  generalize (s.modPort p Port.intoHello).portTo p .hello 0 = u at hstep hport ⊢
  obtain ⟨hpump, hrest⟩ := pump_hello_steps (hstep.rest.stopped.trans hs) (by rw [hport]; exact hl) (by rw [hport]; rfl)
    (by rw [hport]; rfl) (by rw [hport]; exact Nat.le_add_left 2 30) (by rw [hport])
  exact ⟨hstep.trans hpump, hrest⟩

/-- Settles O26: each step is a change of one port; entering HELLO also sends the port's HELLO. -/
theorem portStatesFollowTheirTable : Obligations.PortStatesFollowTheirTable := by
  intro port s p x goes
  have stepped : ∀ {t : State} {st : PortState}, Stepped p s t → (t.port p).state = st → goes t st :=
    fun h hst => ⟨hst, h.others, h.rest.back⟩
  have goesTo : ∀ st, goes (s.portTo p st 0) st := fun st =>
    stepped (Stepped.portTo s p st 0) (by rw [portTo_port])
  have down : ∀ st reason, goes (s.portDown p st reason) st := fun st reason =>
    stepped (Stepped.portDown s p st reason) (portDown_port s p st reason).1
  have retrain : goes (s.portRetrain p) .retrain := stepped (Stepped.portRetrain s p) (portRetrain_port s p).1
  refine ⟨fun hlive => ⟨fun hx => ?_, fun hx => ⟨?_, ?_⟩, fun hx hl => ⟨?_, ?_⟩, fun hx hv => ?_, fun hx hsub => ?_, fun hx => ?_,
    fun hx => ⟨?_, ?_, fun hn => ?_⟩, fun hx => ?_, fun ha hx => ?_⟩, fun ha hs => ⟨fun hen => ?_, fun hen => ?_, fun on hl hx => ?_⟩⟩
  · exact ⟨_, if_pos (by simp [hlive, p, x] at hx ⊢; simp [hx]), goesTo .train⟩
  · exact ⟨_, (if_neg (by simp [hlive])).trans (if_pos hx), goesTo .lock⟩
  · exact ⟨_, if_pos (by simp only [p, x] at hx; simp [hlive, hx]), down .detect 0⟩
  · have hs : s.stopped = false := by simp only [State.live, Bool.and_eq_true, Bool.not_eq_true'] at hlive; exact hlive.2
    obtain ⟨hst, hstate, hsent⟩ := lockAchieved_steps hs hl
    exact ⟨_, (if_neg (by simp only [p, x] at hl; simp [hlive, hl])).trans (if_pos hx), stepped hst hstate, hsent⟩
  · exact ⟨_, if_pos (by simp only [p, x] at hx hl; simp [hlive, hx, hl]), down .detect 0⟩
  · exact ⟨_, if_pos (by simp only [p, x] at hx; simp [hlive, hx, hv]), down .detect 0⟩
  · refine ⟨_, (if_neg (by simp [hlive])).trans ((if_neg (by simp only [p, x] at hx; simp [hx])).trans
      (if_pos (by simp only [p, x] at hx hsub; simp [hx, hsub]))), stepped (Stepped.modPort s p _) ?_, ?_⟩
    · rw [State.port_modPort_same]; exact hx
    · rw [State.port_modPort_same]
  · exact ⟨_, if_pos (by simp only [p, x] at hx; simp [hlive, hx]), down .detect 5, (portDown_port s p .detect 5).2.2.1⟩
  · exact ⟨_, (if_neg (by simp [hlive])).trans (if_pos hx), retrain, (portRetrain_port s p).2⟩
  · refine ⟨_, if_pos (by simp only [p, x] at hx; simp [hlive, hx]), stepped ((Stepped.modPort s p _).trans (Stepped.portRetrain _ p))
      (portRetrain_port _ p).1, ?_⟩
    rw [(portRetrain_port _ p).2.1, State.port_modPort_same]
  · exact ⟨_, if_pos (by simp only [p, x] at hx hn; simp [hlive, hx, hn]), retrain, (portRetrain_port s p).2.1⟩
  · exact ⟨_, (if_neg (by simp [hlive])).trans ((if_neg (by simp only [p, x] at hx; simp [hx])).trans (if_pos hx)), down .detect 6,
      (portDown_port s p .detect 6).2.1⟩
  · exact ⟨_, if_pos (by simp only [p, x] at hx; rcases hx with hx | hx <;> simp [hlive, ha, hx]), retrain, (portRetrain_port s p).2.1⟩
  · refine ⟨_, (if_neg (by simp [ha])).trans ((if_neg (by simp only [p, x] at hen; simp [hs, hen])).trans (if_neg (by simp))),
      stepped ((Stepped.modPort s p _).trans (Stepped.portDown _ p .off 7)) (portDown_port _ p .off 7).1, (portDown_port _ p .off 7).2.1, ?_⟩
    rw [(portDown_port _ p .off 7).2.2.2.1, State.port_modPort_same]
  · refine ⟨_, (if_neg (by simp [ha])).trans ((if_neg (by simp only [p, x] at hen; simp [hs, hen])).trans (if_pos rfl)),
      stepped ((Stepped.modPort s p _).trans (Stepped.portDown _ p .detect 0)) (portDown_port _ p .detect 0).1, ?_⟩
    rw [(portDown_port _ p .detect 0).2.2.2.1, State.port_modPort_same]
  · refine ⟨_, (if_neg (by simp [ha])).trans (if_neg (by simp only [p, x] at hl hx; simp [hs, hl, hx])),
      stepped ((Stepped.modPort s p _).trans (Stepped.portDown _ p .detect 0)) (portDown_port _ p .detect 0).1, ?_⟩
    rw [(portDown_port _ p .detect 0).2.2.2.2, State.port_modPort_same]

end Sys2Proof.Machine
end

section
/-!
Links (R391 to R403, R411, R413, R433): replay, HELLO, and packets in transit.
-/
namespace Sys2Proof.Machine

open Sys2Proof

/-! Replay while something waits for credit since RETRAIN (R395, R397). -/

/-- An unacknowledged packet. -/
def waitingPacket : Packet := ⟨bareHead 3 0 0, .hello ⟨0, 0, false, 0, 1, 1, 0, 0, 0, 0⟩⟩

/-- A port in UP whose one unacknowledged packet still waits for credit since RETRAIN (R397). -/
def waitingPort : Port := { Port.reset with state := .up, unacked := [waitingPacket], toReplay := [waitingPacket] }

/-- The package after release with that port. -/
def waitingState : State := { State.reset with boot := { Boot.reset with released := true }, ports := [(0, waitingPort)] }

/-- Refutes O27: a replay leaves out what still waits for credit since RETRAIN, so that port 0 of `waitingState` sends nothing at its replay
timeout, where the statement has it send all that is unacknowledged. -/
theorem not_linkLayerAcknowledgesAndReplays : ¬ Obligations.LinkLayerAcknowledgesAndReplays := by
  intro h
  obtain ⟨hreplay, -⟩ := h 0 waitingState rfl rfl rfl
  obtain ⟨t, ht, hout, -⟩ := hreplay (by decide)
  have hexec : exec (.replayTimeout 0) waitingState = .next (waitingState.replay 0) := rfl
  have hstate : t = waitingState.replay 0 := (Host.Outcome.next.inj (hexec.symm.trans ht)).symm
  have hnone : (waitingState.replay 0).out = [] := by decide
  rw [hstate, hnone] at hout
  exact absurd hout (by decide)

/-! HELLO (R402, R403). -/

theorem live_stopped {s : State} (h : s.live = true) : s.stopped = false := by
  simp only [State.live, Bool.and_eq_true, Bool.not_eq_true'] at h
  exact h.2

/-- The outcome of a HELLO is UP or HELD (R403). -/
theorem outcome_up_or_held (s : State) (p : Nat) (h : Hello) : (s.outcome p h).1 = .up ∨ (s.outcome p h).1 = .held := by
  unfold State.outcome
  split
  · exact .inr rfl
  · split
    · exact .inr rfl
    · split
      · exact .inr rfl
      · split
        · exact .inr rfl
        · split
          · exact .inr rfl
          · exact .inl rfl

/-- What a HELLO leaves of a port's record of its peer. -/
def Port.hears (x : Port) (h : Hello) : Prop := x.lastHello = some h ∧ x.peer = h.node ∧ x.peerPort = h.port

theorem portUp_port (s : State) (p : Nat) (h : Hello) (hx : (s.port p).hears h) :
    ((s.portUp p).port p).state = .up ∧ ((s.portUp p).port p).hears h := by
  unfold State.portUp
  extract_lets x again u
  have hu : u.port p = _ := portTo_port _ p .up _
  rw [State.port_modPort_same] at hu
  have hk : (u.port p).Kept (((u.poolReturn p).pump p).port p) := ((Sent.poolReturn u p).trans (Sent.pump _ p)).port p
  unfold Port.hears
  rw [hk.state, hk.lastHello, hk.peer, hk.peerPort, hu]
  exact ⟨rfl, hx⟩

/-- A port that is settled by its last HELLO stands at the HELLO's outcome. -/
theorem settlePort_port {s : State} {p : Nat} {h : Hello} (hx : (s.port p).hears h) (hst : (s.port p).state ≠ .retrain) :
    ((s.settlePort p).port p).state = (s.outcome p h).1 ∧ ((s.outcome p h).1 = .held → ((s.settlePort p).port p).reason = (s.outcome p h).2.1)
      ∧ ((s.settlePort p).port p).hears h := by
  unfold State.settlePort
  simp only [hx.1, hst, decide_false, Bool.false_and, Bool.false_eq_true, if_false]
  rcases outcome_up_or_held s p h with ho | ho
  · rw [if_pos ho, ho]
    split
    next hup => exact ⟨hup, by simp, hx⟩
    next => exact ⟨(portUp_port s p h hx).1, by simp, (portUp_port s p h hx).2⟩
  · rw [if_neg (by simp [ho]), ho, portTo_port, State.port_modPort_same]
    exact ⟨rfl, fun _ => rfl, hx⟩

/-- The port's record of a HELLO that has come (R402). -/
def Port.hear (x : Port) (h : Hello) (v : Nat) : Port :=
  { x with lastHello := some h, helloGot := true, peer := h.node, peerKind := bit h.isSwitch, peerPort := h.port,
           peerPlane := h.plane, wire := v, freed := listAdd x.freed 4 2, changed := true }

theorem helloReceive_decides {s : State} {port : Fin 20} (h : Hello) (hlive : s.live = true) (hc : s.causes = [])
    (hloop : s.fab.loop = []) (hl : (s.port port.val).loopback = false)
    (hx : ((s.port port.val).state = .hello ∧ (s.port port.val).helloSent = true ∧ s.fab.valid = true ∧ (s.port port.val).before = none)
      ∨ (s.port port.val).state = .up ∨ (s.port port.val).state = .held) :
    ∃ t, exec (.helloReceive port h) s = .next t ∧ (t.port port.val).state = (s.outcome port.val h).1
      ∧ ((s.outcome port.val h).1 = .held → (t.port port.val).reason = (s.outcome port.val h).2.1) ∧ (t.port port.val).hears h := by
  have htalks : (s.port port.val).talks = true := by
    unfold Port.talks
    rcases hx with ⟨hx, -⟩ | hx | hx <;> simp [hl, hx]
  generalize hu : s.modPort port.val (fun x => x.hear h ((wireOf s.wireMax s.wireMin h).getD 0)) = u
  have hport : u.port port.val = (s.port port.val).hear h ((wireOf s.wireMax s.wireMin h).getD 0) := by rw [← hu, State.port_modPort_same]
  have hexec : exec (.helloReceive port h) s = .next (u.settlePort port.val).settle := by
    have hdone : (s.port port.val).state ≠ .up → (s.port port.val).state ≠ .held → u.helloDone port.val = true := by
      intro h1 h2
      obtain ⟨h3, h4, h5, -⟩ := hx.resolve_right (by simp [h1, h2])
      unfold State.helloDone
      rw [hport, ← hu]
      simp [Port.hear, h3, h4, h5]
    have hrun : exec (.helloReceive port h) s = .next (State.settle
        (if (s.port port.val).state = .up || (s.port port.val).state = .held then u.settlePort port.val else u.tryHello port.val)) :=
      (if_neg (by simp [hlive, htalks])).trans (by rw [← hu]; rfl)
    rw [hrun]
    split
    · rfl
    next hn =>
      simp only [Bool.or_eq_true, decide_eq_true_eq, not_or] at hn
      rw [State.tryHello, if_pos (hdone hn.1 hn.2)]
  have hout : u.outcome port.val h = s.outcome port.val h := by rw [← hu]; rfl
  have hported : Ported s (u.settlePort port.val) := (hu ▸ Ported.modPort s _ _ : Ported s u).trans (Ported.settlePort u _)
  refine ⟨_, hexec, ?_⟩
  rw [settle_idle (hported.causes.trans hc) (by rw [hported.fab]; exact hloop), ← hout]
  refine settlePort_port (by rw [hport]; exact ⟨rfl, rfl, rfl⟩) ?_
  rw [hport]
  show (s.port port.val).state ≠ _
  rcases hx with ⟨hx, -⟩ | hx | hx <;> simp [hx]

theorem helloTimer_sends {s : State} {port : Fin 20} (hlive : s.live = true) (hc : s.causes = []) (hloop : s.fab.loop = [])
    (hl : (s.port port.val).loopback = false) (hst : (s.port port.val).state = .hello) (hg : (s.port port.val).helloGot = false)
    (hr : (s.port port.val).toReplay = []) (hcr : 2 ≤ (s.port port.val).credit.getD 4 0) :
    ∃ t, exec (.helloTimer port) s = .next t ∧ (t.port port.val).helloSent = true
      ∧ t.out = s.out ++ [.packet port.val ⟨bareHead 2 2 s.fab.endpoint, .hello (s.helloOf port.val)⟩] := by
  generalize hu : s.modPort port.val (fun x => { x with helloDue := true }) = u
  have hport : u.port port.val = { s.port port.val with helloDue := true } := by rw [← hu, State.port_modPort_same]
  have hpump := pump_hello (s := u) (p := port.val) (by rw [← hu]; exact live_stopped hlive) (by rw [hport]; exact hl)
    (by rw [hport]; exact hr) (by rw [hport]) (by rw [hport]; exact hcr) (by rw [hport]; exact hst)
  have hsent := Sent.pump u port.val
  have hgot : (u.pump port.val).helloDone port.val = false := by
    unfold State.helloDone
    simp only [(hsent.port port.val).helloGot, hport, hg, Bool.and_false, Bool.false_and]
  have hexec : exec (.helloTimer port) s = .next ((u.pump port.val).tryHello port.val).settle :=
    (if_neg (by simp [hlive, Port.talks, hl, hst])).trans ((if_neg (by simp [hg])).trans (by rw [← hu]))
  have hidle : (u.pump port.val).settle = u.pump port.val :=
    settle_idle (by rw [hsent.causes, ← hu]; exact hc) (by rw [hsent.fab, ← hu]; exact hloop)
  refine ⟨_, hexec, ?_⟩
  rw [State.tryHello, if_neg (by simp [hgot]), hidle, hpump]
  refine ⟨?_, ?_⟩
  · rw [State.emit_port, State.port_modPort_same]
  · rw [← hu]
    rfl

/-- Settles O28: the neighbour's HELLO stands in the port before the plan decides, and sending changes neither. -/
theorem helloDecidesUpOrHeld : Obligations.HelloDecidesUpOrHeld := by
  intro port h s p x hlive hc hloop
  refine ⟨fun hl hx => ?_, fun hl hst hg hr hcr => helloTimer_sends hlive hc hloop hl hst hg hr hcr, fun a ha hv hpath => ?_⟩
  · obtain ⟨t, hexec, hstate, hreason, hlast, hnode, hport⟩ := helloReceive_decides h hlive hc hloop hl hx
    exact ⟨t, hexec, hstate, hreason, hnode, hport, hlast⟩
  · have hported : Ported { s with fab := { s.fab with valid := true } }
        ((List.range 20).foldl (fun s p => s.tryHello p) { s with fab := { s.fab with valid := true } }) :=
      Ported.foldl (fun s p => Ported.tryHello s p) _ _
    refine ⟨_, (if_neg (by rcases hpath with rfl | rfl <;> simp [ha, hv])).trans (if_neg (by simp [live_stopped hlive])), ?_⟩
    rw [settle_idle (hported.causes.trans hc) (by rw [hported.fab]; exact hloop), hported.fab]
    exact ⟨rfl, rfl⟩

/-! Space given back (R397). -/

/-- The return of space: only ports' counts of it change. -/
structure Freed (s t : State) : Prop where
  rest : t = { s with ports := t.ports }
  port : ∀ q, t.port q = { s.port q with freed := (t.port q).freed, changed := (t.port q).changed, poolDue := (t.port q).poolDue }

namespace Freed

theorem refl (s : State) : Freed s s := ⟨rfl, fun _ => rfl⟩

theorem trans {s t u : State} (h : Freed s t) (g : Freed t u) : Freed s u where
  rest := by
    refine g.rest.trans ?_
    rw [h.rest]
  port := fun q => by rw [g.port q, h.port q]

theorem modPort (s : State) (p : Nat) {f : Port → Port}
    (hf : ∀ x, f x = { x with freed := (f x).freed, changed := (f x).changed, poolDue := (f x).poolDue }) : Freed s (s.modPort p f) where
  rest := rfl
  port := fun q => by
    rw [State.port_modPort]
    split
    next h => exact h ▸ hf _
    next => rfl

theorem foldl {α : Type} {f : State → α → State} (hf : ∀ s x, Freed s (f s x)) (xs : List α) (s : State) : Freed s (xs.foldl f s) := by
  induction xs generalizing s with
  | nil => exact refl s
  | cons x xs ih => exact (hf s x).trans (ih (f s x))

theorem poolReturn (s : State) (p : Nat) : Freed s (s.poolReturn p) := by
  unfold State.poolReturn
  split
  · exact modPort s p (by intro _; rfl)
  · exact refl s

theorem free (s : State) (p pool g : Nat) : Freed s (s.free p pool g) := by
  unfold State.free
  split
  · split
    · exact poolReturn s p
    · exact modPort s p (by intro _; rfl)
  · exact refl s

variable {s t : State} (h : Freed s t)
include h

theorem out : t.out = s.out := by rw [h.rest]
theorem fab : t.fab = s.fab := by rw [h.rest]
theorem causes : t.causes = s.causes := by rw [h.rest]
theorem imprints : t.imprints = s.imprints := by rw [h.rest]
theorem t0 : t.t0 = s.t0 := by rw [h.rest]
theorem t1 : t.t1 = s.t1 := by rw [h.rest]
theorem ready (q : Nat) : (t.port q).ready = (s.port q).ready := by rw [h.port q]
theorem count (q : Nat) : (t.port q).count = (s.port q).count := by rw [h.port q]
theorem nextSeq (q : Nat) : (t.port q).nextSeq = (s.port q).nextSeq := by rw [h.port q]
theorem expect (q : Nat) : (t.port q).expect = (s.port q).expect := by rw [h.port q]

end Freed

/-! Packets in transit (R391, R398, R411). -/

/-- A search that only one element answers finds its answer. -/
theorem findSome?_only {α β : Type} [DecidableEq α] {g : α → Option β} {a : α} {b : β} {xs : List α} (hmem : a ∈ xs)
    (h : ∀ x, g x = if x = a then some b else none) : xs.findSome? g = some b := by
  induction xs with
  | nil => exact absurd hmem (by simp)
  | cons x xs ih =>
    rw [List.findSome?_cons, h x]
    by_cases hx : x = a
    · simp [hx]
    · simp only [if_neg hx]
      exact ih (by simpa [Ne.symm hx] using hmem)

/-- Every source has its turn (R398). -/
theorem mem_turns (last : Nat) {src : Nat} (h : src < 21) : src ∈ (List.range 21).map fun k => (last + 1 + k) % 21 :=
  List.mem_map.2 ⟨(src + 21 - (last + 1) % 21) % 21, List.mem_range.2 (by omega), by omega⟩

section
variable {x : Port} {src : Nat} {q : Packet} (hr : x.ready = [⟨src, q⟩])
include hr

theorem headOf_single (vc a : Nat) : x.headOf vc a = if src = a ∧ q.head.vc = vc then some (0, q) else none := by
  unfold Port.headOf
  rw [hr]
  by_cases h : src = a ∧ q.head.vc = vc
  · simp [h.1, h.2]
  · rw [if_neg h]
    simpa using h

theorem pickVc_single (hs : src < 21) (hc : x.hasCredit q = true) (hw : x.windowFree q.body.granules = true) :
    x.pickVc q.head.vc = some (src, 0, q) := by
  unfold Port.pickVc
  refine findSome?_only (mem_turns _ hs) fun a => ?_
  rw [headOf_single hr]
  by_cases h : a = src
  · simp [h, hc, hw]
  · simp [h, Ne.symm h]

theorem pickVc_other {vc : Nat} (h : q.head.vc ≠ vc) : x.pickVc vc = none := by
  unfold Port.pickVc
  refine List.findSome?_eq_none_iff.2 fun a _ => ?_
  rw [headOf_single hr, if_neg fun hn => h hn.2]

end

theorem pickVc_nil {x : Port} (hr : x.ready = []) (vc : Nat) : x.pickVc vc = none := by
  unfold Port.pickVc Port.headOf
  refine List.findSome?_eq_none_iff.2 fun a _ => ?_
  simp [hr]

/-- A port that can send what stands in its queues. -/
structure State.Sends (s : State) (p : Nat) : Prop where
  run : s.stopped = false
  awake : s.power.rest ≠ .rest
  up : (s.port p).state = .up
  straight : (s.port p).loopback = false
  noReplay : (s.port p).toReplay = []
  noHello : (s.port p).helloDue = false

/-- The port after a packet from its only queue. -/
def Port.sendOnly (x : Port) (src : Nat) (q : Packet) : Port := { (x.book q).2 with ready := [], served := x.served.set q.head.vc src }

theorem portSendOne_single {s : State} {p src : Nat} {q : Packet} (h : s.Sends p) (hr : (s.port p).ready = [⟨src, q⟩]) (hs : src < 21)
    (hv : q.head.vc < 2) (hc : (s.port p).hasCredit q = true) (hw : (s.port p).windowFree q.body.granules = true) :
    s.portSendOne p = some ((s.modPort p fun x => x.sendOnly src q).emit (.packet p ((s.port p).book q).1)) := by
  have hpick := pickVc_single hr hs hc hw
  have hmod : (s.modPort p fun _ => (s.port p).sendOnly src q) = s.modPort p fun x => x.sendOnly src q := rfl
  unfold State.portSendOne
  simp only [h.run, h.straight, h.noReplay, h.noHello, h.up, Bool.or_self, Bool.false_eq_true, if_false, Bool.false_and, beq_self_eq_true,
    Bool.true_and, bne_iff_ne, ne_eq, h.awake, not_false_eq_true, if_true]
  rcases (by omega : q.head.vc = 1 ∨ q.head.vc = 0) with h1 | h0
  · rw [h1] at hpick
    rw [hpick, ← hmod]
    simp [Port.sendOnly, Port.book, h1, hr]
  · rw [h0] at hpick
    rw [hpick, pickVc_other hr (by omega), ← hmod]
    simp [Port.sendOnly, Port.book, h0, hr]

theorem portSendOne_empty {s : State} {p : Nat} (h : s.Sends p) (hr : (s.port p).ready = []) : s.portSendOne p = none := by
  unfold State.portSendOne
  simp [h.noReplay, h.noHello, pickVc_nil hr]

/-- A packet for a port that can send it leaves at once. -/
theorem enqueue_sends {s : State} {p src : Nat} {q : Packet} (h : s.Sends p) (hr : (s.port p).ready = []) (hs : src < 21)
    (hv : q.head.vc < 2) (hc : (s.port p).hasCredit q = true) (hw : (s.port p).windowFree q.body.granules = true) :
    (s.enqueue p src q).out = s.out ++ [.packet p ((s.port p).book q).1]
      ∧ ((s.enqueue p src q).port p).nextSeq = ((s.port p).nextSeq + 1) % 4096 := by
  unfold State.enqueue
  generalize hu : s.modPort p (fun x => { x with ready := x.ready ++ [⟨src, q⟩] }) = u
  have hport : u.port p = { s.port p with ready := [⟨src, q⟩] } := by
    rw [← hu, State.port_modPort_same, hr]
    rfl
  have hsends : u.Sends p := ⟨by rw [← hu]; exact h.run, by rw [← hu]; exact h.awake, by rw [hport]; exact h.up,
    by rw [hport]; exact h.straight, by rw [hport]; exact h.noReplay, by rw [hport]; exact h.noHello⟩
  have hsend := portSendOne_single hsends (by rw [hport]) hs hv (by rw [hport]; exact hc) (by rw [hport]; exact hw)
  generalize hw : (u.modPort p fun x => x.sendOnly src q).emit (.packet p ((u.port p).book q).1) = w at hsend
  have hwport : w.port p = (u.port p).sendOnly src q := by rw [← hw, State.emit_port, State.port_modPort_same]
  have hquiet : w.portSendOne p = none := portSendOne_empty ⟨by rw [← hw]; exact hsends.run, by rw [← hw]; exact hsends.awake,
    by rw [hwport, hport]; exact h.up, by rw [hwport, hport]; exact h.straight, by rw [hwport, hport]; exact h.noReplay,
    by rw [hwport, hport]; exact h.noHello⟩ (by rw [hwport]; rfl)
  have hdrain : ∀ n, u.portDrain p (n + 1) = w := fun n => by
    rw [State.portDrain, hsend]
    exact portDrain_quiet hquiet n
  have hfreed : Freed w (u.pump p) := by
    unfold State.pump
    simp only [hdrain]
    exact Freed.foldl (fun s (r : Ready) => Freed.free s r.source _ _) _ _
  refine ⟨?_, ?_⟩
  · rw [hfreed.out, ← hw, hport, ← hu]
    rfl
  · rw [hfreed.nextSeq, hwport, hport]
    rfl

/-! Forwarding (R391, R394, R411). -/

/-- A port takes the packet it expects (R394). -/
def Port.accept (x : Port) : Port := { x with expect := (x.expect + 1) % 4096, nakSent := false, changed := true }

theorem takeSeq_expected {s : State} {p : Nat} {q : Packet} (hlive : s.live = true) (hl : (s.port p).loopback = false)
    (hst : (s.port p).state = .up) (hq : q.head.lseq = (s.port p).expect) : s.takeSeq p q = (true, s.modPort p Port.accept) := by
  unfold State.takeSeq
  have hd : (q.head.lseq + 4096 - (s.port p).expect) % 4096 = 0 := by
    rw [hq]
    omega
  simp only [hlive, hl, hst, hd, Bool.not_true, Bool.or_self, bne_self_eq_false, Bool.false_eq_true, if_false, if_true]
  rfl

theorem accept_port (s : State) (p q : Nat) : (s.modPort p Port.accept).port q = if q = p then (s.port q).accept else s.port q := by
  rw [State.port_modPort]
  split
  next h => rw [h]
  next => rfl

theorem packetForward_expired {s : State} {port : Fin 20} {p : Packet} (hb : (∃ r, p.body = .request r) ∨ ∃ r, p.body = .response r)
    (hd : p.head.dest ≠ s.fab.endpoint) (ht : s.takeSeq port.val p = (true, s.modPort port.val Port.accept)) (hh : p.head.hops = 0) :
    exec (.packetForward port p) s =
      .next (((s.modPort port.val Port.accept).portCount port.val 5).free port.val (poolOf p.head) p.body.granules) := by
  show execPacketForward port p s = _
  unfold execPacketForward
  rcases hb with ⟨r, hr⟩ | ⟨r, hr⟩ <;> simp [hr, hd, ht, hh]

theorem packetForward_forwards {s : State} {port : Fin 20} {p : Packet} {out : Nat}
    (hb : (∃ r, p.body = .request r) ∨ ∃ r, p.body = .response r) (hd : p.head.dest ≠ s.fab.endpoint)
    (ht : s.takeSeq port.val p = (true, s.modPort port.val Port.accept)) (hh : p.head.hops ≠ 0) (hto : s.transitPort p.head = some out)
    (hw : s.wrapOwner out = none) (htr : s.fab.transit.contains out = true) :
    exec (.packetForward port p) s = .next ((s.modPort port.val Port.accept).enqueue out port.val
      { p with head := { p.head with hops := p.head.hops - 1, dl := s.nextDl port.val out p.head.dl } }) := by
  have hto' : (s.modPort port.val Port.accept).transitPort p.head = some out := hto
  have hw' : (s.modPort port.val Port.accept).wrapOwner out = none := hw
  show execPacketForward port p s = _
  unfold execPacketForward
  rcases hb with ⟨r, hr⟩ | ⟨r, hr⟩
  · simp only [hr, hd, ht, hh, hto', hw', htr, State.modPort_fab] <;> rfl
  · simp only [hr, hd, ht, hh, hto', hw', htr, State.modPort_fab] <;> rfl

theorem portCount_five (s : State) (p : Nat) : ((s.portCount p 5).port p).count.getD 5 0 =
    if (s.port p).count.length ≤ 5 then 0 else ((s.port p).count.getD 5 0 + 1) % 2 ^ 64 := by
  unfold State.portCount
  rw [State.port_modPort_same]
  simp only [List.getD_eq_getElem?_getD, List.getElem?_set]
  split <;> split <;> simp_all [wrapAdd]

theorem count_port (s : State) (i : Nat) (c : Ctr) (n q : Nat) : (s.count i c n).port q = s.port q := by
  unfold State.count
  split <;> rfl

/-- Settles O31: an expected packet is taken, and then given to the port of its route, or dropped with its space given back. -/
theorem transitForwardsOrDiscards : Obligations.TransitForwardsOrDiscards := by
  intro port p s inp
  refine ⟨fun hb hd hlive hl hst hq _ => ⟨fun hh => ?_, fun out hh hto hw hout htr hr hrep hdue hup hstraight hc hwin hrest hv => ?_⟩,
    fun k hlive hk => ?_⟩
  · have htake := takeSeq_expected hlive hl hst hq
    have hfreed := Freed.free ((s.modPort inp Port.accept).portCount inp 5) inp (poolOf p.head) p.body.granules
    refine ⟨_, packetForward_expired hb hd htake hh, hfreed.out, ?_⟩
    rw [hfreed.count, portCount_five, accept_port, if_pos rfl]
    rfl
  · have htake := takeSeq_expected hlive hl hst hq
    have hkeep : ∀ {β : Type} (g : Port → β), (∀ x : Port, g x.accept = g x) →
        g ((s.modPort inp Port.accept).port out) = g (s.port out) := fun g hg => by
      rw [accept_port]
      split
      · exact hg _
      · rfl
    have hsends : (s.modPort inp Port.accept).Sends out := ⟨live_stopped hlive, hrest, (hkeep Port.state fun _ => rfl).trans hup,
      (hkeep Port.loopback fun _ => rfl).trans hstraight, (hkeep Port.toReplay fun _ => rfl).trans hrep,
      (hkeep Port.helloDue fun _ => rfl).trans hdue⟩
    obtain ⟨hsent, hnext⟩ := enqueue_sends (src := port.val)
      (q := { p with head := { p.head with hops := p.head.hops - 1, dl := s.nextDl port.val out p.head.dl } }) hsends
      ((hkeep Port.ready fun _ => rfl).trans hr) (by omega) hv ((hkeep (fun x => x.hasCredit _) fun _ => rfl).trans hc)
      ((hkeep (fun x => x.windowFree _) fun _ => rfl).trans hwin)
    refine ⟨_, packetForward_forwards hb hd htake hh hto hw htr, ?_, ?_⟩
    · rw [hsent]
      unfold Port.book
      rw [hkeep Port.nextSeq fun _ => rfl]
      rfl
    · rw [hnext, hkeep Port.nextSeq fun _ => rfl]
  · generalize hu : (s.modPort inp fun y => { y with ready := y.ready.eraseIdx k.2 }).count k.1.p.head.imprint .fabLifetime 1 = u
    have hexec : exec (.packetLifetimeExpiry port) s =
        .next ((u.free k.1.source (poolOf k.1.p.head) k.1.p.body.granules).poolReturn k.1.source) := by
      show execPacketLifetimeExpiry port s = _
      unfold execPacketLifetimeExpiry
      have hfind : (s.port port.val).ready.zipIdx.find? (fun x => x.1.source != 20) = some k := hk
      simp only [hfind, hlive, Bool.not_true, Bool.false_eq_true, if_false, ← hu, inp]
    refine ⟨_, hexec, ?_⟩
    rw [(Freed.poolReturn _ _).ready, (Freed.free u _ _ _).ready, ← hu]
    rw [count_port, State.port_modPort_same]

end Sys2Proof.Machine
end

section
/-!
Streams at the source (R429 to R433, R442): what an answer, a retry and a lost operation make of them.
-/
namespace Sys2Proof.Machine

open Sys2Proof

/-! The stream of an imprint towards a package (R429). -/

/-- Is a stream the one of `i` towards `target`? -/
def OutStream.is (x : OutStream) (i target : Nat) : Bool := x.imprint == i && x.target == target

/-- The stream of an imprint that has sent nothing to a package. -/
def State.newStream (s : State) (i target : Nat) : OutStream :=
  { imprint := i, target := target, sgen := Config.sgenDraw s.fab.boots i target + BitVec.ofNat 32 s.fab.gens, next := 0, dead := false,
    holdoff := false, outstanding := [], waiting := [] }

theorem stream_eq (s : State) (i target : Nat) :
    s.stream i target = (s.fab.streams.find? fun x => x.is i target).getD (s.newStream i target) := rfl

theorem stream_congr {s t : State} (h : t.fab = s.fab) (i target : Nat) : t.stream i target = s.stream i target := by
  unfold State.stream
  rw [h]

theorem stream_is (s : State) (i target : Nat) : (s.stream i target).is i target = true := by
  rw [stream_eq]
  cases h : s.fab.streams.find? fun x => x.is i target with
  | none => simp [OutStream.is, State.newStream]
  | some x =>
    have hx := List.find?_some h
    exact hx

theorem is_unique {x : OutStream} {i j target k : Nat} (h : x.is i target = true) (g : x.is j k = true) : i = j ∧ target = k := by
  simp only [OutStream.is, Bool.and_eq_true, beq_iff_eq] at h g
  exact ⟨h.1.symm.trans g.1, h.2.symm.trans g.2⟩

theorem is_same {x y : OutStream} {i target : Nat} (h : x.is i target = true) :
    (y.imprint == x.imprint && y.target == x.target) = y.is i target := by
  simp only [OutStream.is, Bool.and_eq_true, beq_iff_eq] at h
  rw [h.1, h.2]
  rfl

theorem find_putStream_same {xs : List OutStream} {x : OutStream} {i target : Nat} (h : x.is i target = true) :
    (putStream xs x).find? (fun y => y.is i target) = some x := by
  unfold putStream
  simp only [is_same h]
  split
  next hany =>
    induction xs with
    | nil => simp at hany
    | cons y ys ih =>
      by_cases hy : y.is i target = true
      · simp [hy, h]
      · have hys : ys.any (fun z => z.is i target) = true := by simpa [hy] using hany
        simpa [hy] using ih hys
  next hany =>
    have hnone : xs.find? (fun y => y.is i target) = none := by simpa using hany
    rw [List.find?_append, hnone]
    simp [h]

theorem find_putStream_other {xs : List OutStream} {x : OutStream} {i target j k : Nat} (h : x.is j k = true) (hne : ¬(j = i ∧ k = target)) :
    (putStream xs x).find? (fun y => y.is i target) = xs.find? fun y => y.is i target := by
  have hx : x.is i target = false := by
    rw [Bool.eq_false_iff]
    exact fun g => hne (is_unique h g)
  unfold putStream
  simp only [is_same h]
  split
  · clear * - hx hne
    induction xs with
    | nil => rfl
    | cons y ys ih =>
      by_cases hy : y.is j k = true
      · have hyi : y.is i target = false := by
          rw [Bool.eq_false_iff]
          exact fun g => hne (is_unique hy g)
        simpa [hy, hx, hyi] using ih
      · simp only [List.map_cons, if_neg hy, List.find?_cons, ih]
  · rw [List.find?_append]
    simp [hx]

theorem stream_setStream_same {s : State} {x : OutStream} {i target : Nat} (h : x.is i target = true) : (s.setStream x).stream i target = x := by
  rw [stream_eq]
  show ((putStream s.fab.streams x).find? _).getD _ = x
  rw [find_putStream_same h]
  rfl

theorem stream_setStream_other {s : State} {x : OutStream} {i target j k : Nat} (h : x.is j k = true) (hne : ¬(j = i ∧ k = target)) :
    (s.setStream x).stream i target = s.stream i target := by
  rw [stream_eq, stream_eq]
  show ((putStream s.fab.streams x).find? _).getD _ = _
  rw [find_putStream_other h hne]
  rfl

/-- A stream that has forgotten a folio's transfer. -/
def OutStream.forget (x : OutStream) (i folio : Nat) : OutStream :=
  if x.imprint = i then { x with outstanding := x.outstanding.map (Outst.forget folio), waiting := x.waiting.map (Outst.forget folio) } else x

theorem forget_is (x : OutStream) (i folio j k : Nat) : (x.forget i folio).is j k = x.is j k := by
  unfold OutStream.forget
  split <;> rfl

theorem stream_forgetMorgue (s : State) (i folio j k : Nat) : (s.forgetMorgue i folio).stream j k = (s.stream j k).forget i folio := by
  have hmap : ∀ xs : List OutStream, (xs.map fun x => x.forget i folio).find? (fun x => x.is j k) =
      (xs.find? fun x => x.is j k).map fun x => x.forget i folio := fun xs => by
    rw [List.find?_map]
    simp only [Function.comp_def, forget_is]
  have hnew : (s.newStream j k).forget i folio = s.newStream j k := by
    unfold OutStream.forget
    split <;> rfl
  rw [stream_eq, stream_eq]
  show ((s.fab.streams.map fun x => x.forget i folio).find? _).getD _ = _
  rw [hmap]
  cases s.fab.streams.find? fun x => x.is j k with
  | none => exact hnew.symm
  | some x => rfl

/-! Counts of other kinds (R363). -/

theorem find_other {c d : Ctr} (h : c ≠ d) (g : Nat → Nat) (m : List (Ctr × Nat)) :
    ((m.map fun x => if x.1 == c then (c, g x.2) else x).find? fun x => x.1 == d) = m.find? fun x => x.1 == d := by
  induction m with
  | nil => rfl
  | cons x m ih =>
    rw [List.map_cons, List.find?_cons, List.find?_cons, ih]
    by_cases hx : x.1 = c
    · have hcd : (c == d) = false := beq_eq_false_iff_ne.2 h
      simp only [hx, beq_self_eq_true, if_true, hcd]
    · simp [hx]

theorem ctrGet_ctrAdd_ne (m : List (Ctr × Nat)) {c d : Ctr} (h : c ≠ d) (n : Nat) : ctrGet (ctrAdd m c n) d = ctrGet m d := by
  unfold ctrAdd ctrGet
  split
  · rw [find_other h fun v => wrapAdd c.width v n]
  · rw [List.find?_append]
    simp [h]

theorem count_other (s : State) (i k : Nat) {c d : Ctr} (h : c ≠ d) (n : Nat) :
    ctrGet ((s.count i c n).imp k).run.counters d = ctrGet (s.imp k).run.counters d := by
  unfold State.count
  split
  · rfl
  · rw [State.imp_modRun]
    split
    next hk => rw [hk, ctrGet_ctrAdd_ne _ h]
    next => rfl

theorem count_fab (s : State) (i : Nat) (c : Ctr) (n : Nat) : (s.count i c n).fab = s.fab := by rw [count_eq]

theorem count_causes (s : State) (i : Nat) (c : Ctr) (n : Nat) : (s.count i c n).causes = s.causes := by rw [count_eq]

/-! A RESPONSE (R431, R438, R442). -/

/-- What an answered operation does beyond its stream: no cause is met and nothing is sent; the count of responses stays. -/
structure Answered (i target status : Nat) (o : Outst) (s t : State) : Prop where
  causes : t.causes = s.causes
  loop : t.fab.loop = s.fab.loop
  outstanding : (t.stream i target).outstanding.map (·.req) = (s.stream i target).outstanding.map (·.req)
  same : o.morgue = none → (t.stream i target).outstanding = (s.stream i target).outstanding
  waiting : (s.stream i target).waiting = [] → (t.stream i target).waiting = []
  count : ctrGet (t.imp i).run.counters (.fabResponses status) = ctrGet (s.imp i).run.counters (.fabResponses status)

theorem Answered.of_fab {i target status : Nat} {o : Outst} {s t : State} (hc : t.causes = s.causes) (hf : t.fab = s.fab)
    (hr : ctrGet (t.imp i).run.counters (.fabResponses status) = ctrGet (s.imp i).run.counters (.fabResponses status)) :
    Answered i target status o s t :=
  ⟨hc, by rw [hf], by rw [stream_congr hf], fun _ => by rw [stream_congr hf], fun h => by rw [stream_congr hf]; exact h, hr⟩

theorem modServe_run (s : State) (i k : Nat) (f : Serve → Serve) : ((s.modServe i f).imp k).run = (s.imp k).run := by
  rw [State.imp_modServe]
  split
  next h => rw [h]
  next => rfl

theorem zeroReply_answered (i target status : Nat) (o : Outst) (s : State) : Answered i target status o s (s.zeroReply target o) := by
  unfold State.zeroReply
  split
  · exact .of_fab rfl rfl rfl
  · exact .of_fab rfl rfl rfl

theorem Answered.trans {i target status : Nat} {o : Outst} {s t u : State} (h : Answered i target status o s t)
    (g : Answered i target status o t u) : Answered i target status o s u :=
  ⟨g.causes.trans h.causes, g.loop.trans h.loop, g.outstanding.trans h.outstanding, fun hm => (g.same hm).trans (h.same hm),
    fun hw => g.waiting (h.waiting hw), g.count.trans h.count⟩

theorem failMove_answered {i target status folio : Nat} {o : Outst} (s : State) (ho : o.morgue ≠ none) :
    Answered i target status o s (s.failMove i folio) := by
  unfold State.failMove State.giveUpMove
  generalize hu : s.count i .morgueFailed 1 = u
  have hfab : u.fab = s.fab := hu ▸ count_fab s i _ _
  have hstream : ∀ f, (((u.forgetMorgue i folio).modFolio i folio f).stream i target) = (s.stream i target).forget i folio := fun f => by
    rw [← stream_congr hfab]
    exact stream_forgetMorgue u i folio i target
  have hreq : ∀ xs : List Outst, (xs.map (Outst.forget folio)).map (·.req) = xs.map (·.req) := fun xs => by
    rw [List.map_map]
    rfl
  refine ⟨?_, ?_, ?_, fun hn => absurd hn ho, fun hw => ?_, ?_⟩
  · exact (congrArg State.causes hu.symm).trans (count_causes s i _ _)
  · show u.fab.loop = s.fab.loop
    rw [hfab]
  · rw [hstream]
    unfold OutStream.forget
    split
    · exact hreq _
    · rfl
  · rw [hstream]
    unfold OutStream.forget
    split
    · simp [hw]
    · exact hw
  · rw [State.modFolio, modServe_run]
    show ctrGet (u.imp i).run.counters _ = _
    rw [← hu, count_other s i i (by simp)]

/-- What is done with the answer to an operation (R431, R438, R442, R519). -/
def State.takeAnswer (s : State) (i target : Nat) (o : Outst) (r : Response) : State :=
  if r.epoch.toNat ≠ s.epoch i then s.count i .fabStaleResponse 1
  else if let some m := o.morgue then if r.status ≠ 0 then s.failMove i m.1 else s.morgueAnswer i m r.data
  else if r.status ≠ 0 then
    if o.roster then s.modServe i fun v => { v with refused := nub (v.refused ++ [target]) }
    else (s.zeroReply target o).refusalAt i o r.status
  else if r.op = 0x01 then s.replyTo o.core o.job target r.eseq.toNat r.data
  else if isAtomic r.op then s.replyTo o.core o.job target r.eseq.toNat (leBytes 8 r.result.toNat)
  else s

theorem takeAnswer_answered (s : State) (i target : Nat) (o : Outst) (r : Response) :
    Answered i target r.status o s (s.takeAnswer i target o r) := by
  unfold State.takeAnswer
  split
  · exact .of_fab (count_causes s i _ _) (count_fab s i _ _) (count_other s i i (by simp) 1)
  split
  next m hm =>
    split
    · exact failMove_answered s (by simp [hm])
    · exact .of_fab rfl rfl (by rw [State.morgueAnswer, State.modFolio, modServe_run])
  split
  · split
    · exact .of_fab rfl rfl (by rw [modServe_run])
    · exact (zeroReply_answered i target r.status o s).trans (.of_fab rfl rfl (by rw [State.refusalAt, modServe_run]))
  split
  · exact .of_fab rfl rfl rfl
  split
  · exact .of_fab rfl rfl rfl
  · exact .of_fab rfl rfl rfl

theorem drainStream_nothing {s : State} {i target : Nat} (h : (s.stream i target).waiting = []) (n : Nat) : s.drainStream i target n = s := by
  cases n with
  | zero => rfl
  | succ n => simp [State.drainStream, h]

theorem answer_eq {s : State} {p : Packet} {r : Response} {o : Outst}
    (ho : (s.stream p.head.imprint p.head.source).outstanding.find? (fun o => o.req.eseq == r.eseq && o.req.sgen == r.sgen) = some o) :
    s.answer p r = ((((s.setStream { s.stream p.head.imprint p.head.source with
        outstanding := (s.stream p.head.imprint p.head.source).outstanding.filter fun q => q.req.eseq != r.eseq }).count p.head.imprint
        (.fabResponses r.status) 1).takeAnswer p.head.imprint p.head.source o r).drainStream p.head.imprint p.head.source
        ((s.stream p.head.imprint p.head.source).waiting.length + 1)) := by
  unfold State.answer
  simp only [ho]
  rfl

theorem responseArrival_answers {i : Fin 16} {target : Nat} {o : Outst} {s : State} (hlive : s.live = true) (hc : s.causes = [])
    (hloop : s.fab.loop = []) {port : Fin 20} {p : Packet} {r : Response} (hb : p.body = .response r) (hd : p.head.dest = s.fab.endpoint)
    (hsrc : p.head.source = target) (himp : p.head.imprint = i.val) (hl : (s.port port.val).loopback = false)
    (hst : (s.port port.val).state = .up) (hq : p.head.lseq = (s.port port.val).expect)
    (ho : (s.stream i.val target).outstanding.find? (fun o => o.req.eseq == r.eseq && o.req.sgen == r.sgen) = some o)
    (hw : (s.stream i.val target).waiting = []) :
    ∃ t, exec (.fabResponseArrival port p) s = .next t
      ∧ (t.stream i.val target).outstanding.map (·.req) =
          ((s.stream i.val target).outstanding.filter fun q => q.req.eseq != r.eseq).map (·.req)
      ∧ (o.morgue = none → (t.stream i.val target).outstanding = (s.stream i.val target).outstanding.filter fun q => q.req.eseq != r.eseq)
      ∧ ctrGet (t.imp i.val).run.counters (.fabResponses r.status) =
          (ctrGet (s.imp i.val).run.counters (.fabResponses r.status) + 1) % 2 ^ 32 := by
  subst hsrc
  have hfreed := Freed.free (s.modPort port.val Port.accept) port.val (poolOf p.head) p.body.granules
  generalize hu : (s.modPort port.val Port.accept).free port.val (poolOf p.head) p.body.granules = u at hfreed
  have hfab : u.fab = s.fab := hfreed.fab
  have hstream : u.stream i.val p.head.source = s.stream i.val p.head.source := stream_congr hfab _ _
  have himps : u.imp i.val = s.imp i.val := by
    unfold State.imp
    rw [hfreed.imprints]
    rfl
  have hexec : exec (.fabResponseArrival port p) s = .next (u.answer p r).settle := by
    show execFabResponseArrival port p s = _
    unfold execFabResponseArrival
    simp [hb, hd, takeSeq_expected hlive hl hst hq, ← hu]
  have hans := answer_eq (s := u) (p := p) (r := r) (o := o) (by rw [himp, hstream]; exact ho)
  rw [himp, hstream] at hans
  generalize hv : (u.setStream { s.stream i.val p.head.source with
    outstanding := (s.stream i.val p.head.source).outstanding.filter fun q => q.req.eseq != r.eseq }).count i.val (.fabResponses r.status) 1 = v
    at hans
  have hvstream : v.stream i.val p.head.source = { s.stream i.val p.head.source with
      outstanding := (s.stream i.val p.head.source).outstanding.filter fun q => q.req.eseq != r.eseq } := by
    rw [← hv, stream_congr (count_fab _ _ _ _)]
    exact stream_setStream_same (stream_is s i.val p.head.source)
  have htake := takeAnswer_answered v i.val p.head.source o r
  rw [drainStream_nothing (htake.waiting (by rw [hvstream]; exact hw))] at hans
  have hidle : (u.answer p r).settle = u.answer p r := by
    refine settle_idle ?_ ?_
    · rw [hans, htake.causes, ← hv, count_causes]
      exact hfreed.causes.trans hc
    · rw [hans, htake.loop, ← hv, count_fab]
      exact (congrArg Fabric.loop hfab).trans hloop
  refine ⟨_, hexec, ?_⟩
  rw [hidle, hans]
  refine ⟨?_, fun hm => ?_, ?_⟩
  · rw [htake.outstanding, hvstream]
  · rw [htake.same hm, hvstream]
  · rw [htake.count, ← hv, count_counter _ _ _ Nat.one_ne_zero]
    show (ctrGet (u.imp i.val).run.counters _ + 1) % _ = _
    rw [himps]
    rfl

/-! Sending (R410, R429, R432, R433). -/

theorem firstHop_congr {s t : State} {i : Nat} (he : t.ed = s.ed) (hf : t.fab.endpoint = s.fab.endpoint)
    (hc : (t.imp i).cfg = (s.imp i).cfg) (hp : (t.imp i).run.ports = (s.imp i).run.ports) (hw : (t.imp i).wire = (s.imp i).wire)
    (dest flow : Nat) : t.firstHop i dest flow = s.firstHop i dest flow := by
  unfold State.firstHop State.usable State.directions State.coords State.wrapOwner State.topology
  simp only [he, hf, hc, hp, hw]

/-- Every packet of an imprint to a package has a first hop on the fabric. -/
def State.Reaches (s : State) (i target : Nat) : Prop := target ≠ s.fab.endpoint ∧ ∀ flow, (s.firstHop i target flow).isSome = true

theorem Sent.imp {s t : State} (h : Sent s t) (k : Nat) : t.imp k = s.imp k := by
  unfold State.imp
  rw [h.imprints]

theorem Sent.ed {s t : State} (h : Sent s t) : t.ed = s.ed := by rw [h.rest]

theorem Sent.reaches {s t : State} (h : Sent s t) {i target : Nat} (hr : s.Reaches i target) : t.Reaches i target :=
  ⟨by rw [h.fab]; exact hr.1, fun flow => by
    rw [firstHop_congr h.ed (by rw [h.fab]) (by rw [h.imp]) (by rw [h.imp]) (by rw [h.imp])]
    exact hr.2 flow⟩

theorem setStream_reaches {s : State} {i target : Nat} (hr : s.Reaches i target) (x : OutStream) : (s.setStream x).Reaches i target :=
  ⟨hr.1, fun flow => by
    rw [firstHop_congr (s := s) (t := s.setStream x) rfl rfl rfl rfl rfl]
    exact hr.2 flow⟩

theorem count_imp (s : State) (i k : Nat) (c : Ctr) (n : Nat) :
    ∃ cs, (s.count i c n).imp k = { s.imp k with run := { (s.imp k).run with counters := cs } } := by
  unfold State.count
  split
  · exact ⟨(s.imp k).run.counters, rfl⟩
  · rw [State.imp_modRun]
    split
    next h => exact ⟨_, by rw [h]⟩
    next => exact ⟨(s.imp k).run.counters, rfl⟩

theorem count_reaches {s : State} {i target : Nat} (hr : s.Reaches i target) (j : Nat) (c : Ctr) (n : Nat) :
    (s.count j c n).Reaches i target := by
  obtain ⟨cs, hcs⟩ := count_imp s j i c n
  refine ⟨by rw [count_fab]; exact hr.1, fun flow => ?_⟩
  rw [firstHop_congr (s := s) (t := s.count j c n) (by rw [count_eq]) (by rw [count_fab]) (by rw [hcs]) (by rw [hcs]) (by rw [hcs])]
  exact hr.2 flow

/-- A request that has a first hop is sent there. -/
theorem transmit_sent {s : State} {i target : Nat} (hr : s.Reaches i target) (o : Outst) :
    ∃ u, s.transmit i target o = (u, true) ∧ Sent s u := by
  obtain ⟨p, hp⟩ := Option.isSome_iff_exists.1 (hr.2 (flowKey o.req.addr.toNat o.sends))
  refine ⟨_, ?_, Sent.enqueue s p 20 (s.requestPacket i target o p)⟩
  unfold State.transmit
  rw [if_neg hr.1, hp]

/-- A stream that has sent one of its requests once more (R432). -/
def OutStream.resent (x : OutStream) (eseq : BitVec 32) : OutStream :=
  { x with outstanding := x.outstanding.map fun q => if q.req.eseq = eseq then { q with sends := q.sends + 1 } else q }

theorem retryTimeout_resends {i : Fin 16} {target : Nat} {eseq : BitVec 32} {o : Outst} {s : State} (hlive : s.live = true)
    (hc : s.causes = []) (hloop : s.fab.loop = []) (ho : (s.stream i.val target).outstanding.find? (fun o => o.req.eseq == eseq) = some o)
    (hsends : o.sends ≤ s.retryLimit i.val) (hr : s.Reaches i.val target) :
    ∃ t, exec (.fabRetryTimeout i target eseq) s = .next t
      ∧ (t.stream i.val target).outstanding =
          (s.stream i.val target).outstanding.map (fun q => if q.req.eseq = eseq then { q with sends := q.sends + 1 } else q)
      ∧ ctrGet (t.imp i.val).run.counters .fabResent = (ctrGet (s.imp i.val).run.counters .fabResent + 1) % 2 ^ 32 := by
  obtain ⟨u, htransmit, hsent⟩ := transmit_sent (count_reaches hr i.val .fabResent 1) o
  have hstream : u.stream i.val target = s.stream i.val target := stream_congr (hsent.fab.trans (count_fab s _ _ _)) _ _
  obtain ⟨x, hx⟩ : ∃ x, (s.stream i.val target).resent eseq = x := ⟨_, rfl⟩
  have hexec : exec (.fabRetryTimeout i target eseq) s = .next (u.setStream x).settle := by
    show execFabRetryTimeout i target eseq s = _
    unfold execFabRetryTimeout
    simp only [ho, htransmit, hstream, ← hx, OutStream.resent, hlive, Nat.not_lt.2 hsends, decide_false, Bool.not_true, Bool.or_self, Bool.false_eq_true,
      if_false, if_true]
  have hidle : (u.setStream x).settle = u.setStream x := by
    refine settle_idle ?_ ?_
    · exact hsent.causes.trans ((count_causes s _ _ _).trans hc)
    · show u.fab.loop = []
      rw [hsent.fab, count_fab, hloop]
  refine ⟨_, hexec, ?_, ?_⟩
  · rw [hidle, stream_setStream_same (by rw [← hx]; exact stream_is s i.val target), ← hx]
    rfl
  · rw [hidle]
    show ctrGet (u.imp i.val).run.counters _ = _
    rw [hsent.imp, count_counter _ _ _ Nat.one_ne_zero]
    rfl

/-- A stream that sends: no holdoff, not dead, with a way to its target; and nothing waits to be settled. -/
structure State.Flows (s : State) (i target : Nat) : Prop where
  holdoff : (s.stream i target).holdoff = false
  dead : (s.stream i target).dead = false
  causes : s.causes = []
  loop : s.fab.loop = []
  reaches : s.Reaches i target

theorem flows_setStream {s : State} {i target : Nat} (h : s.Flows i target) {x : OutStream} (hx : x.is i target = true)
    (hh : x.holdoff = false) (hd : x.dead = false) : (s.setStream x).Flows i target :=
  ⟨by rw [stream_setStream_same hx]; exact hh, by rw [stream_setStream_same hx]; exact hd, h.causes, h.loop, setStream_reaches h.reaches x⟩

theorem flows_sendOn {s : State} {i target : Nat} (h : s.Flows i target) (o : Outst) : (s.sendOn i target o).Flows i target := by
  unfold State.sendOn
  extract_lets x src o' u r
  have hx : x.is i target = true := stream_is s i target
  rw [if_neg (by simp [x, h.dead])]
  split
  · exact flows_setStream h hx h.holdoff h.dead
  · obtain ⟨v, htransmit, hsent⟩ := transmit_sent (count_reaches h.reaches i .fabSent 1) o'
    have hv : v.Flows i target := by
      have hstream : v.stream i target = s.stream i target := stream_congr (hsent.fab.trans (count_fab s _ _ _)) _ _
      refine ⟨by rw [hstream]; exact h.holdoff, by rw [hstream]; exact h.dead, hsent.causes.trans ((count_causes s _ _ _).trans h.causes), ?_,
        hsent.reaches (count_reaches h.reaches i .fabSent 1)⟩
      rw [hsent.fab, count_fab, h.loop]
    have hr : r = (v, true) := htransmit
    rw [hr, if_pos rfl]
    exact flows_setStream hv hx h.holdoff h.dead

/-- A stream after the first of those waiting has gone, and which still wait (R430). -/
def State.sendFirst (s : State) (i target : Nat) (o : Outst) (rest : List Outst) : State :=
  let u := (s.setStream { s.stream i target with waiting := [] }).sendOn i target o
  u.setStream { u.stream i target with waiting := rest }

theorem drainStream_step {s : State} {i target : Nat} {o : Outst} {rest : List Outst} (h : (s.stream i target).waiting = o :: rest) (n : Nat) :
    s.drainStream i target (n + 1) =
      if (s.stream i target).holdoff || ((s.stream i target).full && !(s.stream i target).dead) then s
      else (s.sendFirst i target o rest).drainStream i target n := by
  simp only [State.drainStream, h, State.sendFirst]

theorem flows_drainStream {s : State} {i target : Nat} (h : s.Flows i target) (n : Nat) : (s.drainStream i target n).Flows i target := by
  induction n generalizing s with
  | zero => exact h
  | succ n ih =>
    cases hw : (s.stream i target).waiting with
    | nil => rw [drainStream_nothing hw]; exact h
    | cons o rest =>
      rw [drainStream_step hw]
      split
      · exact h
      · have hsent := flows_sendOn (flows_setStream h (x := { s.stream i target with waiting := [] }) (stream_is s i target) h.holdoff h.dead) o
        exact ih (flows_setStream hsent (stream_is _ i target) hsent.holdoff hsent.dead)

theorem holdoffEnd_flows {i : Fin 16} {target : Nat} {s : State} (hlive : s.live = true) (hc : s.causes = []) (hloop : s.fab.loop = [])
    (hh : (s.stream i.val target).holdoff = true) (hd : (s.stream i.val target).dead = false) (hr : s.Reaches i.val target) :
    ∃ t, exec (.generationHoldoffEnd i target) s = .next t ∧ (t.stream i.val target).holdoff = false := by
  have hx : ({ s.stream i.val target with holdoff := false } : OutStream).is i.val target = true := stream_is s i.val target
  have hflows : (s.setStream { s.stream i.val target with holdoff := false }).Flows i.val target :=
    ⟨by rw [stream_setStream_same hx], by rw [stream_setStream_same hx]; exact hd, hc, hloop, setStream_reaches hr _⟩
  have hdrain := flows_drainStream hflows ((s.stream i.val target).waiting.length + 1)
  refine ⟨_, if_neg (by simp [hlive, hh]), ?_⟩
  rw [settle_idle hdrain.causes hdrain.loop]
  exact hdrain.holdoff

/-! A dead stream stays dead until the next generation (R432). -/

/-- A stream that is dead and holds nothing. -/
def State.DeadStream (s : State) (i target : Nat) : Prop :=
  (s.stream i target).dead = true ∧ (s.stream i target).outstanding = [] ∧ (s.stream i target).waiting = []

namespace State.DeadStream

variable {s t : State} {i target : Nat}

theorem of_fab (h : s.DeadStream i target) (hf : t.fab = s.fab) : t.DeadStream i target := by
  unfold DeadStream
  rw [stream_congr hf]
  exact h

theorem foldl {α : Type} {f : State → α → State} (hf : ∀ s x, s.DeadStream i target → (f s x).DeadStream i target) (xs : List α) (s : State)
    (h : s.DeadStream i target) : (xs.foldl f s).DeadStream i target := by
  induction xs generalizing s with
  | nil => exact h
  | cons x xs ih => exact ih _ (hf s x h)

theorem modServe (h : s.DeadStream i target) (j : Nat) (f : Serve → Serve) : (s.modServe j f).DeadStream i target := h.of_fab rfl

theorem modRun (h : s.DeadStream i target) (j : Nat) (f : Run → Run) : (s.modRun j f).DeadStream i target := h.of_fab rfl

theorem of_sent (h : s.DeadStream i target) (hs : Sent s t) : t.DeadStream i target := h.of_fab hs.fab

theorem count (h : s.DeadStream i target) (j : Nat) (c : Ctr) (n : Nat) : (s.count j c n).DeadStream i target := h.of_fab (count_fab s j c n)

theorem giveUpMove (h : s.DeadStream i target) (j folio : Nat) : (s.giveUpMove j folio).DeadStream i target := by
  have hforget : (s.forgetMorgue j folio).DeadStream i target := by
    obtain ⟨hd, ho, hw⟩ := h
    unfold DeadStream
    rw [stream_forgetMorgue]
    unfold OutStream.forget
    split
    · exact ⟨hd, by simp [ho], by simp [hw]⟩
    · exact ⟨hd, ho, hw⟩
  exact hforget.of_fab rfl

theorem cause (h : s.DeadStream i target) (j code subject : Nat) : (s.cause j code subject).DeadStream i target := by
  unfold State.cause
  split
  · exact h
  · exact h.of_fab rfl

theorem loseOp (h : s.DeadStream i target) (j k : Nat) (o : Outst) : (s.loseOp j k o).DeadStream i target := by
  unfold State.loseOp
  extract_lets u
  have hu : u.DeadStream i target := h.count j .fabLost 1
  split
  · exact ((hu.count j .morgueFailed 1).giveUpMove j _).cause j 1 k
  · split
    · exact hu
    · refine DeadStream.cause ?_ j 1 k
      unfold State.zeroReply
      split
      · exact hu.of_fab rfl
      · exact hu

theorem setStream (h : s.DeadStream i target) {x : OutStream} {j k : Nat} (hx : x.is j k = true) (hne : ¬(j = i ∧ k = target)) :
    (s.setStream x).DeadStream i target := by
  unfold DeadStream
  rw [stream_setStream_other hx hne]
  exact h

theorem transmit (h : s.DeadStream i target) (j k : Nat) (o : Outst) : (s.transmit j k o).1.DeadStream i target := by
  unfold State.transmit
  split
  · exact h
  · split
    · exact h
    · exact h.of_sent (Sent.enqueue s _ 20 _)

/-- What is sent on a dead stream is lost, and another stream is another. -/
theorem sendOn (h : s.DeadStream i target) (j k : Nat) (o : Outst) : (s.sendOn j k o).DeadStream i target := by
  unfold State.sendOn
  extract_lets x src o' u r
  have hx : x.is j k = true := stream_is s j k
  split
  · exact h.loseOp j k o
  next hdead =>
    have hne : ¬(j = i ∧ k = target) := by
      rintro ⟨rfl, rfl⟩
      exact hdead h.1
    split
    · exact h.setStream hx hne
    · have hr : r.1.DeadStream i target := (h.count j .fabSent 1).transmit j k o'
      split
      · exact hr.setStream hx hne
      · exact (h.count j .fabSent 1).loseOp j k o'

theorem sendRecover (h : s.DeadStream i target) (j e : Nat) (m : List Nat) : (s.sendRecover j e m).DeadStream i target := by
  unfold State.sendRecover
  refine foldl (fun s t hs => ?_) _ s h
  unfold State.sendRoster
  exact (foldl (fun s _ hs => hs.sendOn j t _) _ s hs).sendOn j t _

theorem agreed (h : s.DeadStream i target) (j e : Nat) (m : List Nat) (got : List Recover) : (s.agreed j e m got).DeadStream i target :=
  ((h.modServe j _).count j .abandoned _).modRun j _

theorem agree (h : s.DeadStream i target) (j : Nat) (timeout : Bool) (n : Nat) : (s.agree j timeout n).DeadStream i target := by
  induction n generalizing s timeout with
  | zero => exact h
  | succ n ih =>
    unfold State.agree
    split
    · exact h
    · extract_lets self others have_ high cut
      split
      · exact h
      · split
        · exact ih ((h.modServe j _).sendRecover j _ _) false
        · split
          · exact h.agreed j _ _ _
          · exact ih ((h.modServe j _).sendRecover j _ _) false

theorem startAgreement (h : s.DeadStream i target) (j : Nat) (got : List Recover) : (s.startAgreement j got).DeadStream i target := by
  unfold State.startAgreement
  extract_lets e m u
  exact ((h.modServe j _ : u.DeadStream i target).sendRecover j _ _).agree j false _

theorem t0Write (h : s.DeadStream i target) (a : Nat) (bs : List Byte) : (s.t0Write a bs).DeadStream i target := h.of_fab (t0Write_only s a bs).fab

theorem writeHeader (h : s.DeadStream i target) (j id : Nat) : (s.writeHeader j id).DeadStream i target := by
  unfold State.writeHeader
  split
  · exact h
  · split
    · exact h
    · split
      · exact h
      · exact h.t0Write _ _

theorem dropFolio (h : s.DeadStream i target) (j handle id : Nat) : (s.dropFolio j handle id).DeadStream i target := by
  unfold State.dropFolio
  extract_lets u
  exact (h.modServe j _ : u.DeadStream i target).writeHeader j id

theorem abandonSpills (h : s.DeadStream i target) (j : Nat) (p : Folio → Bool) : (s.abandonSpills j p).DeadStream i target := by
  unfold State.abandonSpills
  refine foldl (fun s x hs => ?_) _ s h
  split
  · split
    · exact hs.giveUpMove j _
    · exact hs
  · exact hs

theorem restartLent (h : s.DeadStream i target) (j : Nat) : (s.restartLent j).DeadStream i target := by
  unfold State.restartLent
  refine foldl (fun s x hs => ?_) _ s h
  split
  · split
    · exact hs.giveUpMove j _
    · exact hs
  · exact hs

theorem returnFolios (h : s.DeadStream i target) (j : Nat) : (s.returnFolios j).DeadStream i target := by
  unfold State.returnFolios
  refine ((foldl (fun s x hs => ?_) _ s h).abandonSpills j _).restartLent j
  exact foldl (fun s k hs => hs.dropFolio j k _) _ s hs

theorem keepRefusals (h : s.DeadStream i target) (j : Nat) : (s.keepRefusals j).DeadStream i target := by
  unfold State.keepRefusals
  extract_lets m hits
  exact foldl (fun s _ hs => hs.modServe j _) _ s h

theorem zeroTables (h : s.DeadStream i target) (j : Nat) : (s.zeroTables j).DeadStream i target := by
  unfold State.zeroTables
  split
  · exact h
  · exact foldl (fun s x hs => foldl (fun s t hs => hs.t0Write _ _) _ s hs) _ s h

theorem dropImpression (h : s.DeadStream i target) (j cause subject : Nat) : (s.dropImpression j cause subject).DeadStream i target := by
  unfold State.dropImpression
  extract_lets n s1 s2 between s3 now s4 s5
  have h1 : s1.DeadStream i target := foldl (fun s c hs => hs.of_fab (t := s.modCore c Core.abandon) rfl) _ s h
  have h2 : s2.DeadStream i target := ((h1.keepRefusals j).zeroTables j).returnFolios j
  have h3 : s3.DeadStream i target := h2.modRun j _
  have h4 : s4.DeadStream i target := h3.modServe j _
  have h5 : s5.DeadStream i target := (h4.count j .abandoned 1).of_fab (OnlyIcu.pulse _ _).fab
  exact h5.of_fab (Told.event s5 j _).fab

theorem runCauses (h : s.DeadStream i target) (n : Nat) : (s.runCauses n).DeadStream i target := by
  induction n generalizing s with
  | zero => exact h
  | succ n ih =>
    unfold State.runCauses
    split
    · exact h
    next j code subject rest _ =>
      extract_lets u
      have hu : u.DeadStream i target := h.of_fab rfl
      split
      · exact ih hu
      · refine ih ?_
        unfold State.abandon
        split
        · exact hu
        · exact (hu.dropImpression j code subject).startAgreement j []

/-- With nothing sent to the package itself, settling keeps a dead stream dead. -/
theorem settle (h : s.DeadStream i target) (hl : s.fab.loop = []) : s.settle.DeadStream i target := by
  have hloop : ∀ n, s.runLoop n = s := fun n => by cases n <;> simp [State.runLoop, hl]
  unfold State.settle
  rw [hloop]
  exact h.runCauses 64

end State.DeadStream

theorem loseOp_loop (s : State) (i target : Nat) (o : Outst) : (s.loseOp i target o).fab.loop = s.fab.loop := by
  have hcause : ∀ (s : State) code subject, (s.cause i code subject).fab = s.fab := fun s code subject => by
    unfold State.cause
    split <;> rfl
  have hzero : ∀ s : State, (s.zeroReply target o).fab = s.fab := fun s => by
    unfold State.zeroReply
    split <;> rfl
  unfold State.loseOp
  simp only
  split
  · rw [hcause]
    show ((s.count i .fabLost 1).count i .morgueFailed 1).fab.loop = _
    rw [count_fab, count_fab]
  · split
    · rw [count_fab]
    · rw [hcause, hzero, count_fab]

theorem foldl_loseOp_loop (i target : Nat) (os : List Outst) (s : State) :
    (os.foldl (fun s q => s.loseOp i target q) s).fab.loop = s.fab.loop := by
  induction os generalizing s with
  | nil => rfl
  | cons o os ih => exact (ih _).trans (loseOp_loop s i target o)

theorem operationLost_dead {i : Fin 16} {target : Nat} {eseq : BitVec 32} {o : Outst} {s : State} (hlive : s.live = true)
    (hloop : s.fab.loop = []) (ho : (s.stream i.val target).outstanding.find? (fun o => o.req.eseq == eseq) = some o)
    (hsends : s.retryLimit i.val < o.sends) :
    ∃ t, exec (.operationLost i target eseq) s = .next t ∧ t.DeadStream i.val target := by
  have hx : ({ s.stream i.val target with dead := true, outstanding := [], waiting := [] } : OutStream).is i.val target = true :=
    stream_is s i.val target
  have hdead : (s.setStream { s.stream i.val target with dead := true, outstanding := [], waiting := [] }).DeadStream i.val target := by
    unfold State.DeadStream
    rw [stream_setStream_same hx]
    exact ⟨rfl, rfl, rfl⟩
  have hexec : exec (.operationLost i target eseq) s = .next (State.settle
      ((o :: (((s.stream i.val target).outstanding.filter fun q => q.req.eseq != eseq) ++ (s.stream i.val target).waiting)).foldl
        (fun s q => s.loseOp i.val target q)
        (s.setStream { s.stream i.val target with dead := true, outstanding := [], waiting := [] }))) := by
    show execOperationLost i target eseq s = _
    unfold execOperationLost
    simp only [ho, hlive, Nat.not_le.2 hsends, decide_false, Bool.not_true, Bool.or_self, Bool.false_eq_true, if_false]
  exact ⟨_, hexec, (State.DeadStream.foldl (fun s q hs => hs.loseOp i.val target q) _ _ hdead).settle
    ((foldl_loseOp_loop _ _ _ _).trans hloop)⟩

/-- Settles O30: each command changes its own stream; a dead one stays dead through the abandonment that its loss causes. -/
theorem sourceStreamsRetryAndEnd : Obligations.SourceStreamsRetryAndEnd := by
  intro i target eseq o s x hlive hc hloop htarget
  refine ⟨fun port p r hb hd hsrc himp hl hst hq _ ho hw => responseArrival_answers hlive hc hloop hb hd hsrc himp hl hst hq ho hw,
    fun ho => ⟨fun hsends hreach => retryTimeout_resends hlive hc hloop ho hsends ⟨htarget, hreach⟩,
      fun hsends => operationLost_dead hlive hloop ho hsends⟩,
    fun hh hd hreach => holdoffEnd_flows hlive hc hloop hh hd ⟨htarget, hreach⟩⟩

end Sys2Proof.Machine
end

section
/-!
Slugs decode to the bytes they were written from (R123 to R137, R150): no canonical code word begins another, and the parse into symbols is
undone by the decoder.
-/
namespace Sys2Proof.Machine

open Sys2Proof

/-! The order of canonical code words (R133). -/

/-- A code word that comes before another: no longer, and at its length the other one's beginning is larger. -/
def CodeBefore (x y : Nat × Nat × Nat) : Prop := x.1 ≤ y.1 ∧ (x.2.1 + 1) * 2 ^ (y.1 - x.1) ≤ y.2.1

theorem two_mul_two_pow {a b : Nat} (h : b + 1 = a) : 2 * 2 ^ b = 2 ^ a := by
  rw [← h, Nat.pow_succ, Nat.mul_comm]

theorem codesOfLen_next (l : Nat) (xs : List Nat) : ∀ s code, (codesOfLen l xs s code).2 = code + xs.count l := by
  induction xs with
  | nil => intro s code; rfl
  | cons x xs ih =>
    intro s code
    by_cases h : x = l
    · simp [codesOfLen, h, ih]; omega
    · simp [codesOfLen, h, ih]

/-- Words of one length are taken in turn from the first. -/
theorem codesOfLen_mem {l : Nat} {xs : List Nat} : ∀ {s code : Nat} {x : Nat × Nat × Nat}, x ∈ (codesOfLen l xs s code).1 →
    x.1 = l ∧ code ≤ x.2.1 ∧ x.2.1 < code + xs.count l := by
  induction xs with
  | nil => intro s code x hx; simp [codesOfLen] at hx
  | cons y ys ih =>
    intro s code x hx
    by_cases h : y = l
    · simp only [codesOfLen, h, if_true, List.mem_cons] at hx
      simp only [h, List.count_cons_self]
      rcases hx with rfl | hx
      · exact ⟨rfl, Nat.le_refl _, by simp⟩
      · obtain ⟨hl, hlo, hhi⟩ := ih hx
        exact ⟨hl, by omega, by omega⟩
    · simp only [codesOfLen, h, if_false] at hx
      simpa [List.count_cons, h] using ih hx

theorem codesOfLen_ordered (l : Nat) (xs : List Nat) : ∀ s code, (codesOfLen l xs s code).1.Pairwise CodeBefore := by
  induction xs with
  | nil => intro s code; simp [codesOfLen]
  | cons y ys ih =>
    intro s code
    by_cases h : y = l
    · simp only [codesOfLen, h, if_true, List.pairwise_cons]
      refine ⟨fun x hx => ?_, ih _ _⟩
      obtain ⟨hl, hlo, -⟩ := codesOfLen_mem hx
      exact ⟨by simp [hl], by simpa [hl] using hlo⟩
    · simpa only [codesOfLen, h, if_false] using ih (s + 1) code

/-- Words of a length from `l` on begin, at length `l`, with the first word of that length or a larger one. -/
theorem canonAux_mem {lens : List Nat} : ∀ {n l code : Nat} {x : Nat × Nat × Nat}, x ∈ canonAux lens n l code →
    l ≤ x.1 ∧ x.1 < l + n ∧ code * 2 ^ (x.1 - l) ≤ x.2.1 := by
  intro n
  induction n with
  | zero => intro l code x hx; simp [canonAux] at hx
  | succ n ih =>
    intro l code x hx
    simp only [canonAux, List.mem_append, codesOfLen_next] at hx
    rcases hx with hx | hx
    · obtain ⟨hl, hlo, -⟩ := codesOfLen_mem hx
      exact ⟨by omega, by omega, by simpa [hl] using hlo⟩
    · obtain ⟨hl, hn, hlo⟩ := ih hx
      refine ⟨by omega, by omega, ?_⟩
      calc code * 2 ^ (x.1 - l) ≤ (code + lens.count l) * 2 ^ (x.1 - l) := Nat.mul_le_mul_right _ (Nat.le_add_right _ _)
        _ = (code + lens.count l) * 2 * 2 ^ (x.1 - (l + 1)) := by
          rw [Nat.mul_assoc, two_mul_two_pow (show x.1 - (l + 1) + 1 = x.1 - l by omega)]
        _ ≤ x.2.1 := hlo

theorem canonAux_ordered (lens : List Nat) : ∀ n l code, (canonAux lens n l code).Pairwise CodeBefore := by
  intro n
  induction n with
  | zero => intro l code; simp [canonAux]
  | succ n ih =>
    intro l code
    simp only [canonAux, codesOfLen_next]
    refine List.pairwise_append.mpr ⟨codesOfLen_ordered _ _ _ _, ih _ _, fun x hx y hy => ?_⟩
    obtain ⟨hxl, -, hxhi⟩ := codesOfLen_mem hx
    obtain ⟨hyl, -, hylo⟩ := canonAux_mem hy
    refine ⟨by omega, ?_⟩
    calc (x.2.1 + 1) * 2 ^ (y.1 - x.1) ≤ (code + lens.count l) * 2 ^ (y.1 - x.1) := Nat.mul_le_mul_right _ hxhi
      _ = (code + lens.count l) * 2 * 2 ^ (y.1 - (l + 1)) := by
        rw [Nat.mul_assoc, two_mul_two_pow (show y.1 - (l + 1) + 1 = y.1 - x.1 by omega)]
      _ ≤ y.2.1 := hylo

/-! The Kraft sum bounds every word (R132). -/

/-- The Kraft sum of the symbols whose length is at least `l`. -/
def kraftFrom (l : Nat) : List Nat → Nat
  | [] => 0
  | x :: xs => (if l ≤ x then 2 ^ (16 - x) else 0) + kraftFrom l xs

theorem kraftFrom_step (l : Nat) (xs : List Nat) : kraftFrom l xs = xs.count l * 2 ^ (16 - l) + kraftFrom (l + 1) xs := by
  induction xs with
  | nil => simp [kraftFrom]
  | cons x xs ih =>
    by_cases h : x = l
    · subst h; simp only [kraftFrom, List.count_cons_self, ih, Nat.le_refl, if_true, Nat.add_mul]; simp; omega
    · by_cases hl : l ≤ x
      · have : l + 1 ≤ x := by omega
        simp only [kraftFrom, hl, this, if_true, ih, List.count_cons_of_ne h]; omega
      · have : ¬ l + 1 ≤ x := by omega
        simp only [kraftFrom, hl, this, if_false, ih, List.count_cons_of_ne h]; omega

theorem kraftFrom_one (xs : List Nat) : kraftFrom 1 xs = kraft xs := by
  induction xs with
  | nil => rfl
  | cons x xs ih => by_cases h : x = 0 <;> simp [kraftFrom, kraft, ih, h, Nat.one_le_iff_ne_zero]

theorem canonAux_bound {lens : List Nat} : ∀ {n l code : Nat} {x : Nat × Nat × Nat}, n + l = 17 →
    code * 2 ^ (16 - l) + kraftFrom l lens ≤ 2 ^ 16 → x ∈ canonAux lens n l code → x.2.1 < 2 ^ x.1 := by
  intro n
  induction n with
  | zero => intro l code x _ _ hx; simp [canonAux] at hx
  | succ n ih =>
    intro l code x hn hk hx
    simp only [canonAux, List.mem_append, codesOfLen_next] at hx
    rw [kraftFrom_step] at hk
    have hsum : (code + lens.count l) * 2 ^ (16 - l) + kraftFrom (l + 1) lens ≤ 2 ^ 16 := by rw [Nat.add_mul]; omega
    rcases hx with hx | hx
    · obtain ⟨hl, -, hhi⟩ := codesOfLen_mem hx
      have hcap : (code + lens.count l) * 2 ^ (16 - l) ≤ 2 ^ l * 2 ^ (16 - l) := by
        rw [← Nat.pow_add, show l + (16 - l) = 16 by omega]; omega
      have := Nat.le_of_mul_le_mul_right hcap (Nat.two_pow_pos _)
      rw [hl]; omega
    · by_cases hlast : n = 0
      · subst hlast; simp [canonAux] at hx
      · refine ih (by omega) ?_ hx
        rw [Nat.mul_assoc, two_mul_two_pow (show 16 - (l + 1) + 1 = 16 - l by omega)]; exact hsum

/-! A canonical code is read back word by word (R134). -/

/-- A list of code words that the decoder can tell apart. -/
structure PrefixCode (codes : List (Nat × Nat × Nat)) : Prop where
  ordered : codes.Pairwise CodeBefore
  length : ∀ x ∈ codes, 1 ≤ x.1 ∧ x.1 ≤ 16
  bound : ∀ x ∈ codes, x.2.1 < 2 ^ x.1

theorem Font.codes_prefixCode {f : Font} (h : lensValid f.kind f.lens = true) : PrefixCode f.codes := by
  simp only [lensValid, Bool.and_eq_true, decide_eq_true_eq] at h
  obtain ⟨-, hkraft⟩ := h
  refine ⟨canonAux_ordered _ _ _ _, fun x hx => ?_, fun x hx => canonAux_bound rfl ?_ hx⟩
  · obtain ⟨hlo, hhi, -⟩ := canonAux_mem hx
    omega
  · rw [kraftFrom_one]; omega

/-- No word of such a code is the beginning of another. -/
theorem PrefixCode.unique {codes : List (Nat × Nat × Nat)} (h : PrefixCode codes) {x y : Nat × Nat × Nat} (hx : x ∈ codes)
    (hy : y ∈ codes) (hl : x.1 ≤ y.1) (hw : y.2.1 / 2 ^ (y.1 - x.1) = x.2.1) : x = y := by
  by_contra hne
  have hpos := Nat.two_pow_pos (y.1 - x.1)
  have hor : CodeBefore x y ∨ CodeBefore y x := by
    obtain ⟨a, ha, hxa⟩ := List.mem_iff_getElem.mp hx
    obtain ⟨b, hb, hyb⟩ := List.mem_iff_getElem.mp hy
    subst hxa hyb
    rcases Nat.lt_trichotomy a b with hab | hab | hab
    · exact .inl (List.pairwise_iff_getElem.mp h.ordered a b ha hb hab)
    · exact absurd (by simp [hab]) hne
    · exact .inr (List.pairwise_iff_getElem.mp h.ordered b a hb ha hab)
  rcases hor with ⟨-, hb⟩ | ⟨hle, hb⟩
  · have := (Nat.le_div_iff_mul_le hpos).mpr hb
    omega
  · have heq : x.1 = y.1 := by omega
    simp [heq] at hb hw
    omega

theorem msbBits_step (n c : Nat) : 2 * (c / 2 ^ (n + 1)) + bit (Nat.testBit c n) = c / 2 ^ n := by
  have hbit : bit (Nat.testBit c n) = c / 2 ^ n % 2 := by
    rw [Nat.testBit_eq_decide_div_mod_eq]
    rcases Nat.mod_two_eq_zero_or_one (c / 2 ^ n) with h | h <;> simp [bit, h]
  rw [hbit, Nat.pow_succ, ← Nat.div_div_eq_div_mul]
  omega

/-- Reading from the middle of a word gives its symbol and what follows it. -/
theorem PrefixCode.readSym_word {codes : List (Nat × Nat × Nat)} (h : PrefixCode codes) {x : Nat × Nat × Nat} (hx : x ∈ codes)
    (rest : List Bool) : ∀ m n l, m + l = x.1 → 1 ≤ m → m ≤ n →
      readSym codes n l (x.2.1 / 2 ^ m) (msbBits m x.2.1 ++ rest) = some (x.2.2, rest) := by
  intro m
  induction m with
  | zero => intro n l _ h1; omega
  | succ m ih =>
    intro n l hl _ hn
    obtain ⟨n, rfl⟩ : ∃ k, n = k + 1 := ⟨n - 1, by omega⟩
    simp only [msbBits, List.cons_append, readSym, msbBits_step]
    cases hf : codes.find? (fun y => y.1 == l + 1 && y.2.1 == x.2.1 / 2 ^ m) with
    | some y =>
      have hy := List.mem_of_find?_eq_some hf
      have hp := List.find?_some hf
      simp only [Bool.and_eq_true, beq_iff_eq] at hp
      have hyx : y = x := h.unique hy hx (by omega) (by rw [hp.2, hp.1]; congr 2; omega)
      have hm : m = 0 := by rw [hyx] at hp; omega
      subst hm
      simp [hyx, msbBits]
    | none =>
      by_cases hm : m = 0
      · subst hm
        have := List.find?_eq_none.mp hf x hx
        simp at this; omega
      · exact ih n (l + 1) (by omega) (by omega) (by omega)

theorem PrefixCode.readSym_codeWord {codes : List (Nat × Nat × Nat)} (h : PrefixCode codes) {x : Nat × Nat × Nat} (hx : x ∈ codes)
    (rest : List Bool) : readSym codes 16 0 0 (msbBits x.1 x.2.1 ++ rest) = some (x.2.2, rest) := by
  obtain ⟨h1, h16⟩ := h.length x hx
  have := h.readSym_word hx rest x.1 16 0 rfl h1 h16
  rwa [Nat.div_eq_of_lt (h.bound x hx)] at this

/-! Bits and bytes (R134). -/

theorem lsbBits_succ (n c : Nat) : lsbBits (n + 1) c = decide (c % 2 = 1) :: lsbBits n (c / 2) := by
  simp [lsbBits, List.range_succ_eq_map, Nat.testBit_succ, Function.comp_def, Nat.testBit_zero]

theorem lsbBits_append (m n c : Nat) : lsbBits (m + n) c = lsbBits m c ++ lsbBits n (c / 2 ^ m) := by
  induction m generalizing c with
  | zero => simp [lsbBits]
  | succ m ih =>
    rw [show m + 1 + n = (m + n) + 1 by omega, lsbBits_succ, ih, lsbBits_succ, Nat.div_div_eq_div_mul, ← Nat.pow_succ',
      List.cons_append]

theorem lsbBits_mod (n c : Nat) : lsbBits n (c % 2 ^ n) = lsbBits n c := by
  refine List.map_congr_left fun k hk => ?_
  simp [Nat.testBit_mod_two_pow, List.mem_range.mp hk]

theorem bitsNat_lsbBits (n c : Nat) : bitsNat (lsbBits n c) = c % 2 ^ n := by
  induction n generalizing c with
  | zero => simp [lsbBits, bitsNat, Nat.mod_one]
  | succ n ih =>
    rw [lsbBits_succ, bitsNat, ih, Nat.pow_succ', Nat.mod_mul]
    rcases Nat.mod_two_eq_zero_or_one c with h | h <;> simp [bit, h]

theorem bitsOfBytes_leBytes (n x : Nat) : bitsOfBytes (leBytes n x) = lsbBits (8 * n) x := by
  induction n generalizing x with
  | zero => rfl
  | succ n ih =>
    show lsbBits 8 (BitVec.ofNat 8 x).toNat ++ bitsOfBytes (leBytes n (x / 256)) = _
    rw [ih, BitVec.toNat_ofNat, lsbBits_mod, show 8 * (n + 1) = 8 + 8 * n by omega, lsbBits_append, show 256 = 2 ^ 8 from rfl]

theorem lsbBits_bitsNat (bs : List Bool) (n : Nat) : lsbBits (bs.length + n) (bitsNat bs) = bs ++ List.replicate n false := by
  induction bs with
  | nil => simp [lsbBits, bitsNat, List.eq_replicate_iff]
  | cons b bs ih =>
    rw [List.length_cons, show bs.length + 1 + n = bs.length + n + 1 by omega, lsbBits_succ, bitsNat,
      show (bit b + 2 * bitsNat bs) / 2 = bitsNat bs by cases b <;> simp [bit] <;> omega, ih, List.cons_append]
    congr 1
    cases b <;> simp [bit, Nat.add_mod]

/-- A payload's bits are those that were written and fewer than eight zeros (R134). -/
theorem bitsOfBytes_bytesOfBits (bs : List Bool) :
    ∃ n, n < 8 ∧ bitsOfBytes (bytesOfBits bs) = bs ++ List.replicate n false := by
  refine ⟨8 * ((bs.length + 7) / 8) - bs.length, by omega, ?_⟩
  rw [bytesOfBits, bitsOfBytes_leBytes, ← lsbBits_bitsNat]
  congr 1; omega

/-! One symbol (R129, R134). -/

/-- The bits of a symbol's raw literal. -/
def literalBits (o : Option Byte) : List Bool := match o with | some b => lsbBits 8 b.toNat | none => []

theorem PrefixCode.readSym_symBits {codes : List (Nat × Nat × Nat)} (h : PrefixCode codes) {x : Nat × Option Byte} {bits : List Bool}
    (hx : symBits codes x = some bits) (rest : List Bool) :
    readSym codes 16 0 0 (bits ++ rest) = some (x.1, literalBits x.2 ++ rest) := by
  unfold symBits at hx
  split at hx
  next => cases hx
  next c hc =>
    have hsym : c.2.2 = x.1 := by simpa using List.find?_some hc
    obtain rfl := Option.some.inj hx
    rw [List.append_assoc, ← hsym]
    exact h.readSym_codeWord (List.mem_of_find?_eq_some hc) _

theorem PrefixCode.symBits_ne_nil {codes : List (Nat × Nat × Nat)} (h : PrefixCode codes) {x : Nat × Option Byte} {bits : List Bool}
    (hx : symBits codes x = some bits) : bits ≠ [] := by
  unfold symBits at hx
  split at hx
  next => cases hx
  next c hc =>
    obtain ⟨n, hn⟩ : ∃ n, c.1 = n + 1 := ⟨c.1 - 1, by have := (h.length c (List.mem_of_find?_eq_some hc)).1; omega⟩
    obtain rfl := Option.some.inj hx
    simp [hn, msbBits]

theorem mapM_cons_eq_some {α β : Type} {f : α → Option β} {x : α} {xs : List α} {ys : List β} (h : (x :: xs).mapM f = some ys) :
    ∃ y zs, f x = some y ∧ xs.mapM f = some zs ∧ ys = y :: zs := by
  simp only [List.mapM_cons, Option.bind_eq_bind, Option.bind_eq_some_iff] at h
  obtain ⟨y, hy, zs, hzs, he⟩ := h
  exact ⟨y, zs, hy, hzs, (Option.some.inj he).symm⟩

/-! The parse and its undoing (R130). -/

theorem zeroRun_le (bs : List Byte) : zeroRun bs ≤ bs.length := by
  induction bs with
  | nil => simp [zeroRun]
  | cons b bs ih => unfold zeroRun; split <;> simp; omega

/-- A block begins with as many zeros as its zero run says, or with fewer. -/
theorem zeroRun_split {r : Nat} {bs : List Byte} (h : r ≤ zeroRun bs) : List.replicate r 0#8 ++ bs.drop r = bs := by
  induction r generalizing bs with
  | zero => simp
  | succ r ih =>
    cases bs with
    | nil => simp [zeroRun] at h
    | cons b bs =>
      unfold zeroRun at h
      split at h
      next hb => rw [List.replicate_succ, List.drop_succ_cons, List.cons_append, ih (by omega), hb]
      next => omega

section
variable {codes : List (Nat × Nat × Nat)} {bits : List Bool}

theorem PrefixCode.decodeAux_eob (h : PrefixCode codes) {k : FontKind} (hx : symBits codes (k.eob, none) = some bits)
    {j : Nat} (hj : j < 8) (m : Nat) : decodeAux k codes (m + 1) (bits ++ List.replicate j false) 0 = some [] := by
  simp [decodeAux, h.readSym_symBits hx, literalBits, hj]

theorem PrefixCode.decodeAux_huff (h : PrefixCode codes) {b : Byte} (hx : symBits codes (b.toNat, none) = some bits)
    (rest : List Bool) (m d : Nat) :
    decodeAux .huff codes (m + 1) (bits ++ rest) (d + 1) = (decodeAux .huff codes m rest d).map (b :: ·) := by
  have hb : b.toNat ≠ FontKind.huff.eob := Nat.ne_of_lt b.isLt
  simp [decodeAux, h.readSym_symBits hx, literalBits, hb]

theorem PrefixCode.decodeAux_zlit_literal (h : PrefixCode codes) {b : Byte} (hx : symBits codes (b.toNat, none) = some bits)
    (rest : List Bool) (m d : Nat) :
    decodeAux .zlit codes (m + 1) (bits ++ rest) (d + 1) = (decodeAux .zlit codes m rest d).map (b :: ·) := by
  have hlt : b.toNat < 256 := b.isLt
  have hb : b.toNat ≠ FontKind.zlit.eob := by show b.toNat ≠ 320; omega
  simp [decodeAux, h.readSym_symBits hx, literalBits, hb, hlt]

theorem PrefixCode.decodeAux_zlit_zeros (h : PrefixCode codes) {r : Nat} (h1 : 1 ≤ r) (h64 : r ≤ 64)
    (hx : symBits codes (255 + r, none) = some bits) (rest : List Bool) (m d : Nat) :
    decodeAux .zlit codes (m + 1) (bits ++ rest) (r + d) =
      (decodeAux .zlit codes m rest d).map (List.replicate r 0#8 ++ ·) := by
  have hr : 255 + r ≠ FontKind.zlit.eob := by show 255 + r ≠ 320; omega
  have hlt : ¬ 255 + r < 256 := by omega
  simp [decodeAux, h.readSym_symBits hx, literalBits, hr, hlt]

theorem PrefixCode.decodeAux_zrun_zeros (h : PrefixCode codes) (hx : symBits codes (64, none) = some bits)
    (rest : List Bool) (m d : Nat) :
    decodeAux .zrun codes (m + 1) (bits ++ rest) (64 + d) =
      (decodeAux .zrun codes m rest d).map (List.replicate 64 0#8 ++ ·) := by
  have hr : (64 : Nat) ≠ FontKind.zrun.eob := by decide
  simp [decodeAux, h.readSym_symBits hx, literalBits, hr]

theorem PrefixCode.decodeAux_zrun_literal (h : PrefixCode codes) {z : Nat} {c : Byte} (hz : z < 64)
    (hx : symBits codes (z, some c) = some bits) (rest : List Bool) (m d : Nat) :
    decodeAux .zrun codes (m + 1) (bits ++ rest) (z + 1 + d) =
      (decodeAux .zrun codes m rest d).map (List.replicate z 0#8 ++ c :: ·) := by
  have heob : z ≠ FontKind.zrun.eob := by show z ≠ 65; omega
  have hne : z ≠ 64 := by omega
  have hlen : (lsbBits 8 c.toNat).length = 8 := by simp [lsbBits]
  have hc : BitVec.ofNat 8 (bitsNat (lsbBits 8 c.toNat)) = c := by
    rw [bitsNat_lsbBits, Nat.mod_eq_of_lt c.isLt, BitVec.ofNat_toNat, BitVec.setWidth_eq]
  have htake : (lsbBits 8 c.toNat ++ rest).take 8 = lsbBits 8 c.toNat := List.take_left' hlen
  have hdrop : (lsbBits 8 c.toNat ++ rest).drop 8 = rest := List.drop_left' hlen
  have hd : ¬ z + 1 + d < z + 1 := by omega
  simp only [decodeAux, h.readSym_symBits hx, literalBits, heob, hne, htake, hdrop, hc, hd, if_false]
  simp [hlen]

end

/-- The decoder of a kind undoes its parse up to EOB. -/
theorem PrefixCode.decodeAux_parseAux {k : FontKind} {codes : List (Nat × Nat × Nat)} (h : PrefixCode codes) {j : Nat}
    (hj : j < 8) :
    ∀ (n m : Nat) (bs : List Byte) (words : List (List Bool)), bs.length ≤ n → bs.length ≤ m →
      (parseAux k n bs ++ [(k.eob, none)]).mapM (symBits codes) = some words →
      decodeAux k codes (m + 1) (words.flatten ++ List.replicate j false) bs.length = some bs := by
  have hnil : ∀ m words, [(k.eob, none)].mapM (symBits codes) = some words →
      decodeAux k codes (m + 1) (words.flatten ++ List.replicate j false) 0 = some [] := by
    intro m words hw
    obtain ⟨bits, rest, hb, hr, rfl⟩ := mapM_cons_eq_some hw
    obtain rfl : rest = [] := by simpa [eq_comm] using hr
    simpa using h.decodeAux_eob hb hj m
  intro n
  induction n with
  | zero =>
    intro m bs words hn hm hw
    obtain rfl : bs = [] := List.length_eq_zero_iff.mp (by omega)
    exact hnil m words (by simpa [parseAux] using hw)
  | succ n ih =>
    intro m bs words hn hm hw
    match bs, k with
    | [], _ => exact hnil m words (by simpa [parseAux] using hw)
    | b :: bs, .huff =>
      obtain ⟨m, rfl⟩ : ∃ q, m = q + 1 := ⟨m - 1, by simp at hm; omega⟩
      simp only [List.length_cons, Nat.add_le_add_iff_right] at hn hm
      obtain ⟨bits, rest, hb, hr, rfl⟩ := mapM_cons_eq_some hw
      rw [List.flatten_cons, List.append_assoc, List.length_cons, h.decodeAux_huff hb, ih m bs rest hn hm hr, Option.map_some]
    | b :: bs, .zlit =>
      obtain ⟨m, rfl⟩ : ∃ q, m = q + 1 := ⟨m - 1, by simp at hm; omega⟩
      simp only [parseAux] at hw
      split at hw
      next =>
        simp only [List.length_cons, Nat.add_le_add_iff_right] at hn hm
        obtain ⟨bits, rest, hb, hr, rfl⟩ := mapM_cons_eq_some hw
        rw [List.flatten_cons, List.append_assoc, List.length_cons, h.decodeAux_zlit_literal hb, ih m bs rest hn hm hr,
          Option.map_some]
      next hz =>
        have hle := zeroRun_le (b :: bs)
        obtain ⟨r, hr⟩ : ∃ r, r = min (zeroRun (b :: bs)) 64 := ⟨_, rfl⟩
        obtain ⟨bits, rest, hb, hrest, rfl⟩ := mapM_cons_eq_some hw
        rw [← hr] at hb hrest
        have hdrop : ((b :: bs).drop r).length = (b :: bs).length - r := List.length_drop
        have hd : (b :: bs).length = r + ((b :: bs).drop r).length := by omega
        rw [List.flatten_cons, List.append_assoc, hd, h.decodeAux_zlit_zeros (by omega) (by omega) hb,
          ih m _ rest (by omega) (by omega) hrest, Option.map_some, zeroRun_split (by omega)]
    | b :: bs, .zrun =>
      obtain ⟨m, rfl⟩ : ∃ q, m = q + 1 := ⟨m - 1, by simp at hm; omega⟩
      have hle := zeroRun_le (b :: bs)
      simp only [parseAux] at hw
      split at hw
      next hz =>
        obtain ⟨bits, rest, hb, hrest, rfl⟩ := mapM_cons_eq_some hw
        have hdrop : ((b :: bs).drop 64).length = (b :: bs).length - 64 := List.length_drop
        have hd : (b :: bs).length = 64 + ((b :: bs).drop 64).length := by omega
        rw [List.flatten_cons, List.append_assoc, hd, h.decodeAux_zrun_zeros hb,
          ih m _ rest (by omega) (by omega) hrest, Option.map_some, zeroRun_split hz]
      next hz =>
        have hsplit := zeroRun_split (Nat.le_refl (zeroRun (b :: bs)))
        have hdrop : ((b :: bs).drop (zeroRun (b :: bs))).length = (b :: bs).length - zeroRun (b :: bs) := List.length_drop
        split at hw
        next c cs hc =>
          rw [hc] at hsplit hdrop
          simp only [List.length_cons] at hdrop hn hm hle ⊢
          obtain ⟨bits, rest, hb, hrest, rfl⟩ := mapM_cons_eq_some hw
          rw [List.flatten_cons, List.append_assoc, show bs.length + 1 = zeroRun (b :: bs) + 1 + cs.length by omega,
            h.decodeAux_zrun_literal (by omega) hb, ih m cs rest (by omega) (by omega) hrest, Option.map_some, hsplit]
        next hc =>
          rw [hc] at hsplit hdrop
          simp only [List.length_cons, List.length_nil, List.append_nil] at hdrop hle hsplit ⊢
          obtain ⟨z, hzr⟩ : ∃ z, zeroRun (b :: bs) = z + 1 := ⟨zeroRun (b :: bs) - 1, by omega⟩
          rw [hzr, Nat.add_sub_cancel] at hw
          rw [hzr] at hsplit hdrop hz
          obtain ⟨bits, rest, hb, hrest, rfl⟩ := mapM_cons_eq_some hw
          rw [List.flatten_cons, List.append_assoc, show bs.length + 1 = z + 1 + 0 by omega,
            h.decodeAux_zrun_literal (by omega) hb, hnil m rest hrest, Option.map_some, ← hsplit, List.replicate_succ']

/-- What an encoder writes in a valid font is not empty and decodes to what it was written from (R130, R134). -/
theorem decodePayload_encodePayload {f : Font} {bs p : List Byte} (hv : lensValid f.kind f.lens = true)
    (h : encodePayload f bs = some p) : 1 ≤ p.length ∧ decodePayload f bs.length p = some bs := by
  have hc := Font.codes_prefixCode hv
  simp only [encodePayload, Option.map_eq_some_iff] at h
  obtain ⟨bits, ⟨words, hw, rfl⟩, rfl⟩ := h
  refine ⟨?_, ?_⟩
  · have hne : words.flatten ≠ [] := by
      cases hp : parseBlock f.kind bs with
      | nil => simp [parseBlock] at hp
      | cons x xs =>
        rw [hp] at hw
        obtain ⟨first, rest, hf, -, rfl⟩ := mapM_cons_eq_some hw
        simp [hc.symBits_ne_nil hf]
    have := List.length_pos_iff.mpr hne
    rw [bytesOfBits, length_leBytes]
    omega
  · obtain ⟨j, hj, hbits⟩ := bitsOfBytes_bytesOfBits words.flatten
    rw [decodePayload, hbits]
    exact hc.decodeAux_parseAux hj _ _ _ _ (Nat.le_refl _) (Nat.le_refl _) hw

/-! Headers and the outcome of a slug (R123, R126, R150). -/

theorem crcBits_lt : ∀ n c : Nat, c < 2 ^ 32 → crcBits n c < 2 ^ 32
  | 0, _, h => h
  | n + 1, c, h => by
    refine crcBits_lt n _ ?_
    split
    · exact Nat.xor_lt_two_pow (by omega) (by decide)
    · omega

theorem crcStep_lt : ∀ (bs : List Byte) (c : Nat), c < 2 ^ 32 → crcStep bs c < 2 ^ 32
  | [], _, h => h
  | b :: bs, _, h => crcStep_lt bs _ (crcBits_lt 8 _ (Nat.xor_lt_two_pow h (Nat.lt_trans b.isLt (by decide))))

theorem crc32c_lt (bs : List Byte) : crc32c bs < 2 ^ 32 :=
  Nat.xor_lt_two_pow (crcStep_lt bs _ (by decide)) (by decide)

theorem SlugHeader.bytes_length (h : SlugHeader) : h.bytes.length = 16 := rfl

theorem SlugHeader.ofBytes_bytes (h : SlugHeader) (hfont : h.font < 256 ^ 2) (hformat : h.format < 256 ^ 1) (henc : h.enc < 256 ^ 4)
    (hdec : h.dec < 256 ^ 4) (hcheck : h.check < 256 ^ 4) (rest : List Byte) : SlugHeader.ofBytes (h.bytes ++ rest) = h := by
  show SlugHeader.mk (ofLeBytes (leBytes 2 h.font)) (ofLeBytes (leBytes 1 h.format)) (ofLeBytes (leBytes 4 h.enc))
    (ofLeBytes (leBytes 4 h.dec)) (ofLeBytes (leBytes 4 h.check)) = h
  simp only [ofLeBytes_leBytes]
  rw [Nat.mod_eq_of_lt hfont, Nat.mod_eq_of_lt hformat, Nat.mod_eq_of_lt henc, Nat.mod_eq_of_lt hdec, Nat.mod_eq_of_lt hcheck]

/-- A format and a count of at most 65,536 decoded bytes fit their header fields. -/
theorem slugBytes_fields {format dec d : Nat} (h : slugBytes format dec = some d) (hd : d ≤ 65536) :
    format < 256 ^ 1 ∧ dec < 256 ^ 4 := by
  by_cases hp : format = 0x81 ∨ format = 0x82
  · rw [slugBytes_scalePlane dec hp] at h
    have := Option.some.inj h
    omega
  · obtain ⟨h1, h2⟩ := not_or.mp hp
    cases hf : Elem.ofCode format with
    | none => rw [slugBytes_unknown dec hf h1 h2] at h; cases h
    | some f =>
      have hfmt : format < 256 ^ 1 := by
        unfold Elem.ofCode at hf
        split at hf
        case h_11 => cases hf
        all_goals decide
      rw [slugBytes_elem hf] at h
      refine ⟨hfmt, ?_⟩
      by_cases ht : f = .ternary
      · rw [if_pos ht] at h; omega
      · rw [if_neg ht] at h
        have hbits : 1 ≤ f.bits := by cases f <;> simp_all [Elem.bits]
        have := Nat.le_mul_of_pos_right dec hbits
        omega

/-- A slug with a well-formed header of the descriptor's format and count and with the CRC of its payload is decoded in its font,
or read as it stands. -/
theorem decideSlug_good {fonts : List Font} {format dec : Nat} {font : Nat} {payload pad bs : List Byte}
    (hs : slugBytes format dec = some bs.length) (h65 : bs.length ≤ 65536) (h1 : 1 ≤ payload.length)
    (hle : payload.length ≤ bs.length) (hpad : 31 ≤ pad.length) (hid : font ≤ 0x10FF)
    (hfont : (font = 0 ∧ payload = bs) ∨
      (font ≠ 0 ∧ ∃ f, fonts.find? (fun g => g.id == font) = some f ∧ decodePayload f bs.length payload = some bs)) :
    (decideSlug fonts format dec ((SlugHeader.mk font format payload.length dec (crc32c payload)).bytes ++ payload ++ pad)).1 = .good
    ∧ (decideSlug fonts format dec ((SlugHeader.mk font format payload.length dec (crc32c payload)).bytes ++ payload ++ pad)).2.1 =
      bs := by
  obtain ⟨hfmt, hdec⟩ := slugBytes_fields hs h65
  set h := SlugHeader.mk font format payload.length dec (crc32c payload) with hh
  have hof : SlugHeader.ofBytes (h.bytes ++ payload ++ pad) = h := by
    rw [List.append_assoc]
    exact h.ofBytes_bytes (by simp [hh]; omega) hfmt (by simp [hh]; omega) hdec (crc32c_lt _) _
  have hpay : ((h.bytes ++ payload ++ pad).drop 16).take h.enc = payload := by
    rw [List.append_assoc, List.drop_left' h.bytes_length]
    exact List.take_left' rfl
  have hwf : h.wellFormed = true := by
    rw [SlugHeader.wellFormed_iff]
    refine ⟨bs.length, hs, by omega, h65, h1, hle, fun h0 => ?_⟩
    rcases hfont with ⟨-, rfl⟩ | ⟨hne, -⟩
    · rfl
    · exact absurd h0 hne
  have hsize : ¬ ((h.bytes ++ payload ++ pad).length < 16 ∨ h.enc = 0 ∨ bs.length < h.enc ∨
      (h.bytes ++ payload ++ pad).length < footprint h.enc) := by
    have hfp : footprint h.enc ≤ 16 + payload.length + 31 := by
      simp only [footprint, roundUp, ceilDiv, hh]; omega
    have henc : h.enc = payload.length := rfl
    simp only [List.length_append, h.bytes_length]
    omega
  unfold decideSlug
  simp only [hs, Option.getD_some, hof, hpay, hwf]
  rw [if_neg (by simpa [not_or, and_assoc] using hsize)]
  rcases hfont with ⟨h0, rfl⟩ | ⟨hne, f, hfind, hdecode⟩
  · simp [hh, h0]
  · have hany : fonts.any (fun g => g.id == font) = true :=
      List.any_eq_true.mpr ⟨f, List.mem_of_find?_eq_some hfind, by simpa using List.find?_some hfind⟩
    simp [hh, hne, hany, hfind, hdecode, Nat.not_lt.mpr hid]

/-- Settles O7: no canonical code word begins another, so that the decoder follows the parse symbol by symbol, and the header says what the
decoder needs. -/
theorem slugsDecodeToTheirBytes : Obligations.SlugsDecodeToTheirBytes := by
  unfold Obligations.SlugsDecodeToTheirBytes
  intro font fonts format dec bs pad hs h1 h65 hpad hfont
  have hstored := decideSlug_good (fonts := fonts) (font := 0) hs h65 h1 (Nat.le_refl _) hpad (by decide) (.inl ⟨rfl, rfl⟩)
  unfold encodeSlug
  cases font with
  | none => exact hstored
  | some f =>
    obtain ⟨hv, -, hpos, hid, hfind⟩ := hfont f rfl
    cases hp : encodePayload f bs with
    | none => simpa only [hp] using hstored
    | some p =>
      simp only [hp]
      split
      next => exact hstored
      next hle =>
        obtain ⟨hp1, hdec⟩ := decodePayload_encodePayload hv hp
        exact decideSlug_good hs h65 hp1 (by omega) hpad hid (.inr ⟨by omega, f, hfind, hdec⟩)

end Sys2Proof.Machine
end

section
/-!
What a run of writes by one imprint leaves in sound T0 (R224, R225, R231, R232): rights stay, and each byte is that of the last write
that reached it.
-/
namespace Sys2Proof.Machine

open Sys2Proof

/-! Ranges of bytes. -/

/-- Bytes as an address reads them, after a write. -/
def putBytes (f : Nat → Byte) (p : Nat × List Byte) : Nat → Byte :=
  fun x => if p.1 ≤ x ∧ x < p.1 + p.2.length then p.2.getD (x - p.1) 0#8 else f x

theorem putBytes_outside {f : Nat → Byte} {p : Nat × List Byte} {x : Nat} (h : x < p.1 ∨ p.1 + p.2.length ≤ x) :
    putBytes f p x = f x := if_neg (by omega)

theorem foldl_putBytes_outside {ps : List (Nat × List Byte)} {x : Nat} (h : ∀ p ∈ ps, x < p.1 ∨ p.1 + p.2.length ≤ x) :
    ∀ f, ps.foldl putBytes f x = f x := by
  induction ps with
  | nil => intro f; rfl
  | cons p ps ih =>
    intro f
    rw [List.foldl_cons, ih fun q hq => h q (List.mem_cons_of_mem _ hq), putBytes_outside (h p List.mem_cons_self)]

/-- Two writes apart from each other. -/
def Apart (p q : Nat × List Byte) : Prop := p.1 + p.2.length ≤ q.1 ∨ q.1 + q.2.length ≤ p.1

/-- Of writes apart from each other each one stands. -/
theorem foldl_putBytes_mem {ps : List (Nat × List Byte)} (hps : ps.Pairwise Apart) {p : Nat × List Byte} (hp : p ∈ ps) {k : Nat}
    (hk : k < p.2.length) : ∀ f, ps.foldl putBytes f (p.1 + k) = p.2.getD k 0#8 := by
  induction ps with
  | nil => cases hp
  | cons q qs ih =>
    intro f
    obtain ⟨hq, hqs⟩ := List.pairwise_cons.mp hps
    rw [List.foldl_cons]
    rcases List.mem_cons.mp hp with rfl | hp
    · rw [foldl_putBytes_outside (fun r hr => by have := hq r hr; unfold Apart at this; omega)]
      simp [putBytes, hk]
    · exact ih hqs hp _

theorem memRead_byteAt (s : State) (a n : Nat) : memRead s.t0.bytes a n = (List.range n).map fun k => s.byteAt (a + k) :=
  memRead_eq_map _ _ _

theorem holds_iff (s : State) (a : Nat) (bs : List Byte) :
    s.holds a bs ↔ ∀ k, k < bs.length → s.byteAt (a + k) = bs.getD k 0#8 := by
  unfold State.holds
  rw [memRead_byteAt]
  refine ⟨fun h k hk => ?_, fun h => List.ext_getElem (by simp) fun k h1 h2 => ?_⟩
  · have := congrArg (fun l => l.getD k 0#8) h
    simpa [List.getD_eq_getElem?_getD, hk] using this
  · simp [h k h2, h2]

theorem memRead_part (m : Sp Byte) (a : Nat) {k n l : Nat} (h : k + n ≤ l) :
    ((memRead m a l).drop k).take n = memRead m (a + k) n := by
  rw [memRead_eq_map, memRead_eq_map]
  refine List.ext_getElem (by simp; omega) fun j h1 h2 => ?_
  simp [Nat.add_assoc]

/-- A part of bytes that stand somewhere. -/
theorem holds_part {s : State} {a : Nat} {bs : List Byte} (h : s.holds a bs) {k n : Nat} (hk : k + n ≤ bs.length) :
    memRead s.t0.bytes (a + k) n = (bs.drop k).take n := by
  rw [← memRead_part _ _ hk, h]

/-! Groups of bytes. -/

theorem chunksAux_of_mul {α : Type} {w : Nat} (hw : 0 < w) : ∀ (n fuel : Nat) (xs : List α), xs.length = w * n → n ≤ fuel →
    chunksAux w fuel xs = (List.range n).map fun k => (xs.drop (w * k)).take w := by
  intro n
  induction n with
  | zero =>
    intro fuel xs hx _
    obtain rfl : xs = [] := List.length_eq_zero_iff.mp (by simpa using hx)
    cases fuel <;> rfl
  | succ n ih =>
    intro fuel xs hx hf
    obtain ⟨fuel, rfl⟩ : ∃ q, fuel = q + 1 := ⟨fuel - 1, by omega⟩
    rw [Nat.mul_succ] at hx
    cases xs with
    | nil => simp at hx; omega
    | cons x xs =>
      show (x :: xs).take w :: chunksAux w fuel ((x :: xs).drop w) = _
      rw [ih fuel _ (by rw [List.length_drop]; omega) (by omega), List.range_succ_eq_map]
      simp [List.drop_drop, Function.comp_def, Nat.mul_succ, Nat.add_comm]

theorem chunks_of_mul {α : Type} {w n : Nat} (hw : 0 < w) {xs : List α} (h : xs.length = w * n) :
    chunks w xs = (List.range n).map fun k => (xs.drop (w * k)).take w :=
  chunksAux_of_mul hw n _ xs h (by rw [h]; exact Nat.le_mul_of_pos_left n hw)

/-- The groups of a range are the ranges of the groups. -/
theorem chunks_memRead {w n : Nat} (hw : 0 < w) (m : Sp Byte) (a : Nat) :
    chunks w (memRead m a (w * n)) = (List.range n).map fun k => memRead m (a + w * k) w := by
  rw [chunks_of_mul hw (memRead_length _ _ _)]
  refine List.map_congr_left fun k hk => memRead_part _ _ ?_
  rw [← Nat.mul_succ]
  exact Nat.mul_le_mul_left _ (List.mem_range.mp hk)

theorem u32s_memRead (m : Sp Byte) (a n : Nat) :
    u32s (memRead m a (4 * n)) = (List.range n).map fun k => ofLeBytes (memRead m (a + 4 * k) 4) := by
  rw [u32s, chunks_memRead (by decide), List.map_map]; rfl

theorem length_flatMap_const {α : Type} {w : Nat} {f : α → List Byte} (hf : ∀ x, (f x).length = w) (xs : List α) :
    (xs.flatMap f).length = w * xs.length := by
  induction xs with
  | nil => rfl
  | cons x xs ih => rw [List.flatMap_cons, List.length_append, hf, ih, List.length_cons, Nat.mul_succ, Nat.add_comm]

theorem drop_flatMap_const {α : Type} {w : Nat} {f : α → List Byte} (hf : ∀ x, (f x).length = w) : ∀ (xs : List α) (k : Nat)
    (hk : k < xs.length), ((xs.flatMap f).drop (w * k)).take w = f xs[k] := by
  intro xs
  induction xs with
  | nil => intro k hk; cases hk
  | cons x xs ih =>
    intro k hk
    cases k with
    | zero => simp [← hf x]
    | succ k =>
      rw [List.flatMap_cons, Nat.mul_succ, Nat.add_comm, ← List.drop_drop, ← hf x, List.drop_left, hf x]
      exact ih k (by simpa using hk)

/-- Of a run of parts of one width each part stands at its place. -/
theorem holds_flatMap {α : Type} {w : Nat} {f : α → List Byte} (hf : ∀ x, (f x).length = w) {s : State} {a : Nat} {xs : List α}
    (h : s.holds a (xs.flatMap f)) {k : Nat} (hk : k < xs.length) : memRead s.t0.bytes (a + w * k) w = f xs[k] := by
  rw [holds_part h, drop_flatMap_const hf xs k hk]
  rw [length_flatMap_const hf, ← Nat.mul_succ]
  exact Nat.mul_le_mul_left _ hk

/-! Rights (R224). -/

/-- Of two states, the parts that an imprint's rights rest on are the same. -/
structure SameRights (i : Nat) (s t : State) : Prop where
  cfg : (t.imp i).cfg = (s.imp i).cfg
  manifest : (t.imp i).run.manifest = (s.imp i).run.manifest
  coreMap : t.ed.coreMap = s.ed.coreMap

theorem SameRights.refl (i : Nat) (s : State) : SameRights i s s := ⟨rfl, rfl, rfl⟩

theorem SameRights.trans {i : Nat} {s t u : State} (h : SameRights i s t) (g : SameRights i t u) : SameRights i s u :=
  ⟨g.cfg.trans h.cfg, g.manifest.trans h.manifest, g.coreMap.trans h.coreMap⟩

theorem SameRights.of_imp {i : Nat} {s t : State} (h : t.imp i = s.imp i) (he : t.ed = s.ed) : SameRights i s t :=
  ⟨by rw [h], by rw [h], by rw [he]⟩

theorem SameRights.ownSlice {i : Nat} {s t : State} (h : SameRights i s t) (a : Nat) : t.ownSlice i a = s.ownSlice i a := by
  unfold State.ownSlice State.sliceOn
  rw [h.cfg, h.coreMap]

theorem SameRights.draftArea {i : Nat} {s t : State} (h : SameRights i s t) (a : Nat) : t.draftArea i a = s.draftArea i a := by
  unfold State.draftArea
  rw [h.manifest]

theorem SameRights.mayWrite {i : Nat} {s t : State} (h : SameRights i s t) (a : Nat) : t.mayWrite i a = s.mayWrite i a := by
  unfold State.mayWrite
  rw [h.ownSlice, h.draftArea]

theorem SameRights.mayWriteAll {i : Nat} {s t : State} (h : SameRights i s t) (a n : Nat) :
    t.mayWriteAll i a n = s.mayWriteAll i a n := by
  unfold State.mayWriteAll
  simp only [h.mayWrite]

theorem SameRights.mayReadAll {i : Nat} {s t : State} (h : SameRights i s t) (a n : Nat) :
    t.mayReadAll i a n = s.mayReadAll i a n := by
  unfold State.mayReadAll State.mayRead
  simp only [h.ownSlice]

theorem SameRights.readable {i : Nat} {s t : State} (h : SameRights i s t) (a n : Nat) : t.readable i a n = s.readable i a n := by
  rw [State.readable, h.mayReadAll]; rfl

theorem SameRights.writable {i : Nat} {s t : State} (h : SameRights i s t) (a n : Nat) : t.writable i a n = s.writable i a n := by
  rw [State.writable, h.mayWriteAll]; rfl

theorem Eff.sameRights {op core i : Nat} {s t : State} (h : Eff op core i s t) : SameRights i s t :=
  ⟨h.own.cfg, h.own.manifest, by rw [h.rest]⟩

/-! Runs of writes. -/

/-- From `s` to `t` an imprint's rights stay, and where no T0 word is flipped, T0 takes the writes `ps` that lie within its rights,
in order, and nothing else. -/
structure Wrote (i : Nat) (s t : State) (ps : List (Nat × List Byte)) : Prop where
  rights : SameRights i s t
  sound : s.sound = true → t.sound = true
  bytes : s.sound = true → t.byteAt = (ps.filter fun p => s.mayWriteAll i p.1 p.2.length).foldl putBytes s.byteAt

theorem Wrote.trans {i : Nat} {s t u : State} {ps qs : List (Nat × List Byte)} (h : Wrote i s t ps) (g : Wrote i t u qs) :
    Wrote i s u (ps ++ qs) where
  rights := h.rights.trans g.rights
  sound hs := g.sound (h.sound hs)
  bytes hs := by
    rw [g.bytes (h.sound hs), h.bytes hs, List.filter_append, List.foldl_append]
    simp only [h.rights.mayWriteAll]

theorem Wrote.of_t0 {i : Nat} {s t : State} (h : SameRights i s t) (ht : t.t0 = s.t0) : Wrote i s t [] :=
  ⟨h, fun hs => by rwa [State.sound, ht], fun _ => by funext x; simp [State.byteAt, ht]⟩

theorem Wrote.refl (i : Nat) (s : State) : Wrote i s s [] := .of_t0 (.refl i s) rfl

/-- A step that leaves T0's bytes and codes alone writes nothing. -/
theorem Wrote.quiet {i : Nat} {s t : State} (h : SameRights i s t) (hb : t.t0.bytes = s.t0.bytes) (hf : t.t0.flips = s.t0.flips) :
    Wrote i s t [] :=
  ⟨h, fun hs => by rwa [State.sound, hf], fun _ => by funext x; simp [State.byteAt, hb]⟩

theorem Wrote.coreRead (i : Nat) (s : State) (a n : Nat) : Wrote i s (s.coreRead i a n).2.2 [] :=
  .quiet (.of_imp ((coreRead_only s i a n).imp i) (by rw [coreRead_only s i a n])) (coreRead_bytes s i a n) (coreRead_flips s i a n)

theorem Wrote.coreWrite (i : Nat) (s : State) (a : Nat) (bs : List Byte) : Wrote i s (s.coreWrite i a bs).2 [(a, bs)] where
  rights := .of_imp ((coreWrite_only s i a bs).imp i) (by rw [coreWrite_only s i a bs])
  sound := coreWrite_sound s i a bs
  bytes hs := by
    funext x
    unfold State.coreWrite
    by_cases hb : bs = []
    · subst hb
      by_cases hm : s.mayWriteAll i a 0 = true
      · rw [List.filter_cons_of_pos (by simpa using hm)]
        simp [putBytes, show ¬ (a ≤ x ∧ x < a) by omega]
      · rw [List.filter_cons_of_neg (by simpa using hm)]
        simp
    · rw [if_neg (by simpa using hb)]
      by_cases hm : s.mayWriteAll i a bs.length = true
      · rw [List.filter_cons_of_pos (by simpa using hm), if_pos hm]
        show spGet 0#8 (s.t0Write a bs).t0.bytes x = _
        rw [t0Write_bytes_sound s a bs hs, spGet_memWrite]
        rfl
      · rw [List.filter_cons_of_neg (by simpa using hm), if_neg hm]
        rfl

theorem Wrote.report (i : Nat) (s : State) (r : Report) : Wrote i s (s.report r) [] :=
  .of_t0 (.of_imp ((report_only s r).imp i) (by rw [report_only s r])) (report_t0 s r)

theorem Wrote.modRun (i : Nat) (s : State) (f : Run → Run) (hf : ∀ r, (f r).manifest = r.manifest) : Wrote i s (s.modRun i f) [] := by
  refine .of_t0 ⟨?_, ?_, rfl⟩ rfl <;> rw [State.imp_modRun_same]
  exact hf _

theorem Wrote.count (i : Nat) (s : State) (c : Ctr) (n : Nat) : Wrote i s (s.count i c n) [] := by
  unfold State.count
  split
  · exact .refl i s
  · exact .modRun i s _ fun _ => rfl

theorem Wrote.modCore (i : Nat) (s : State) (c : Nat) (f : Core → Core) : Wrote i s (s.modCore c f) [] :=
  .of_t0 (.of_imp rfl rfl) rfl

theorem Wrote.handOver (i : Nat) (s : State) (core job : Nat) (r : BitVec 512) : Wrote i s (s.handOver core job r) [] :=
  .modCore i s core _

theorem Wrote.badIndex (i : Nat) (s : State) (a : Nat) : Wrote i s (s.badIndex i a) [] := .report i s _

/-- A fold whose steps write what their elements say, in every state that an invariant describes. -/
theorem Wrote.foldl {α : Type} {i : Nat} {P : State → Prop} {f : State → α → State} {w : α → List (Nat × List Byte)} (xs : List α)
    (hf : ∀ u, P u → ∀ x ∈ xs, Wrote i u (f u x) (w x) ∧ P (f u x)) :
    ∀ s, P s → Wrote i s (xs.foldl f s) (xs.flatMap w) ∧ P (xs.foldl f s) := by
  induction xs with
  | nil => intro s hs; exact ⟨.refl i s, hs⟩
  | cons x xs ih =>
    intro s hs
    obtain ⟨hw, hp⟩ := hf s hs x List.mem_cons_self
    obtain ⟨hws, hps⟩ := ih (fun u hu y hy => hf u hu y (List.mem_cons_of_mem _ hy)) _ hp
    exact ⟨hw.trans hws, hps⟩

/-- Within an imprint's rights, a read of sound T0 that follows no write delivers what stood there. -/
theorem Wrote.read {i : Nat} {s u : State} (h : Wrote i s u []) (hs : s.sound = true) {a n : Nat} (hr : s.readable i a n = true) :
    (u.coreRead i a n).1 = memRead s.t0.bytes a n ∧ (u.coreRead i a n).2.1 = true := by
  obtain ⟨h1, h2⟩ := coreRead_sound u i a n (h.sound hs) (by rw [h.rights.readable, hr])
  refine ⟨?_, h2⟩
  have hb : u.byteAt = s.byteAt := by simpa using h.bytes hs
  rw [h1, memRead_byteAt, memRead_byteAt, hb]

theorem Wrote.outside {i : Nat} {s t : State} {ps : List (Nat × List Byte)} (h : Wrote i s t ps) (hs : s.sound = true) {x : Nat}
    (hx : ∀ p ∈ ps, x < p.1 ∨ p.1 + p.2.length ≤ x) : t.byteAt x = s.byteAt x := by
  rw [h.bytes hs]
  exact foldl_putBytes_outside (fun p hp => hx p (List.mem_of_mem_filter hp)) _

theorem Wrote.sameOutside {i : Nat} {s t : State} {ps : List (Nat × List Byte)} (h : Wrote i s t ps) (hs : s.sound = true) {a n : Nat}
    (hps : ∀ p ∈ ps, a ≤ p.1 ∧ p.1 + p.2.length ≤ a + n) : s.sameOutside t a n := by
  intro x hx
  refine h.outside hs fun p hp => ?_
  have := hps p hp
  omega

/-- Each of a run of writes apart from each other stands, if it lies within the imprint's rights. -/
theorem Wrote.holds {i : Nat} {s t : State} {ps : List (Nat × List Byte)} (h : Wrote i s t ps) (hs : s.sound = true)
    (hps : ps.Pairwise Apart) {p : Nat × List Byte} (hp : p ∈ ps) (hw : s.mayWriteAll i p.1 p.2.length = true) : t.holds p.1 p.2 := by
  rw [holds_iff]
  intro k hk
  rw [h.bytes hs]
  exact foldl_putBytes_mem (hps.filter _) (List.mem_filter.mpr ⟨hp, by simpa using hw⟩) hk _

theorem mayWriteAll_of_writable {s : State} {i a n : Nat} (h : s.writable i a n = true) : s.mayWriteAll i a n = true :=
  (Bool.and_eq_true_iff.mp h).2

/-- One write within rights. -/
theorem Wrote.single {i : Nat} {s t : State} {a : Nat} {bs : List Byte} (h : Wrote i s t [(a, bs)]) (hs : s.sound = true) :
    (s.writable i a bs.length = true → t.holds a bs) ∧ s.sameOutside t a bs.length :=
  ⟨fun hw => h.holds hs (List.pairwise_singleton _ _) List.mem_cons_self (mayWriteAll_of_writable hw),
    h.sameOutside hs fun p hp => by obtain rfl := List.mem_singleton.mp hp; exact ⟨Nat.le_refl _, Nat.le_refl _⟩⟩

/-- A ready command writes what its hand-over and its effect write. -/
theorem Wrote.command {s : State} {core job op i : Nat} {r : BitVec 512} (h : s.ready core job op = some (i, r))
    {e : Nat → BitVec 512 → State → State} {ps : List (Nat × List Byte)}
    (he : Wrote i s (e i r (s.handOver core job r)) ps) :
    ∃ t, s.command core job op e = .next t ∧ Wrote i s t ps ∧ OnlyT0 (e i r (s.handOver core job r)) t
      ∧ t.t0 = (e i r (s.handOver core job r)).t0 := by
  obtain ⟨t, ht, honly, ht0⟩ := command_next h e
  refine ⟨t, ht, ?_, honly, ht0⟩
  have hstamp : Wrote i (e i r (s.handOver core job r)) t [] := .of_t0 (.of_imp (honly.imp i) (by rw [honly])) ht0
  simpa using he.trans hstamp

end Sys2Proof.Machine
end

section
/-!
The Imposer's orderings and gatherings (R287).
-/
namespace Sys2Proof.Machine

open Sys2Proof

/-! The stable sort (R287). -/

/-- A member goes before the members that it precedes and after the others. -/
theorem insertBy_pairwise {α : Type} {R : α → α → Prop} (htrans : ∀ x y z, R x y → R y z → R x z) {lt : α → α → Bool} {x : α} :
    ∀ {ys : List α}, (∀ y ∈ ys, lt x y = true → R x y) → (∀ y ∈ ys, lt x y = false → R y x) → ys.Pairwise R →
      (insertBy lt x ys).Pairwise R := by
  intro ys
  induction ys with
  | nil => intro _ _ _; exact List.pairwise_singleton R x
  | cons y ys ih =>
    intro hlt hge hys
    obtain ⟨hy, hrest⟩ := List.pairwise_cons.mp hys
    unfold insertBy
    split
    next h =>
      have hxy := hlt y List.mem_cons_self h
      refine List.pairwise_cons.mpr ⟨fun z hz => ?_, hys⟩
      rcases List.mem_cons.mp hz with rfl | hz
      · exact hxy
      · exact htrans _ _ _ hxy (hy z hz)
    next h =>
      have hyx := hge y List.mem_cons_self (by simpa using h)
      refine List.pairwise_cons.mpr ⟨fun z hz => ?_, ih (fun z hz => hlt z (List.mem_cons_of_mem _ hz))
        (fun z hz => hge z (List.mem_cons_of_mem _ hz)) hrest⟩
      rcases List.mem_cons.mp ((insertBy_perm lt x ys).mem_iff.mp hz) with rfl | hz
      · exact hyx
      · exact hy z hz

/-- A sort orders by `R` when each member, taken in turn, stands by `R` to those before it as the test says. -/
theorem sortBy_pairwise {α : Type} {R : α → α → Prop} (htrans : ∀ x y z, R x y → R y z → R x z) {lt : α → α → Bool}
    {xs : List α} (h : xs.Pairwise fun y x => (lt x y = true → R x y) ∧ (lt x y = false → R y x)) : (sortBy lt xs).Pairwise R := by
  suffices hfold : ∀ (xs acc : List α), acc.Pairwise R →
      xs.Pairwise (fun y x => (lt x y = true → R x y) ∧ (lt x y = false → R y x)) →
      (∀ y ∈ acc, ∀ x ∈ xs, (lt x y = true → R x y) ∧ (lt x y = false → R y x)) →
      (xs.foldl (fun acc x => insertBy lt x acc) acc).Pairwise R from
    hfold xs [] List.Pairwise.nil h (by simp)
  intro xs
  induction xs with
  | nil => intro acc hacc _ _; exact hacc
  | cons x xs ih =>
    intro acc hacc hxs hcross
    obtain ⟨hx, hrest⟩ := List.pairwise_cons.mp hxs
    refine ih _ (insertBy_pairwise htrans (fun y hy => (hcross y hy x List.mem_cons_self).1)
      (fun y hy => (hcross y hy x List.mem_cons_self).2) hacc) hrest fun y hy z hz => ?_
    rcases List.mem_cons.mp ((insertBy_perm lt x acc).mem_iff.mp hy) with rfl | hy
    · exact hx z hz
    · exact hcross y hy z (List.mem_cons_of_mem _ hz)

theorem zipIdx_map_range {α : Type} (n : Nat) (f : Nat → α) :
    ((List.range n).map f).zipIdx = (List.range n).map fun k => (f k, k) :=
  List.ext_getElem (by simp) fun k h1 h2 => by simp

/-- Keys sorted by a strict order of their values: ascending, and equal keys in index order. -/
theorem sortBy_keys {lt : Nat → Nat → Bool} {v : Nat → Int} (hlt : ∀ a b, lt a b = true ↔ v a < v b) (xs : List Nat) :
    (sortBy (fun p q => lt p.2 q.2) (xs.zipIdx.map fun p => (p.2, p.1))).Pairwise fun p q =>
      v p.2 < v q.2 ∨ (v p.2 = v q.2 ∧ p.1 < q.1) := by
  refine sortBy_pairwise (fun _ _ _ h g => by omega) ?_
  rw [List.pairwise_map, List.pairwise_iff_getElem]
  intro a b ha hb hab
  simp only [List.getElem_zipIdx, Bool.eq_false_iff, ne_eq, hlt]
  omega

theorem pairBytes_length (ps : List (Nat × Nat)) : (pairBytes ps).length = 8 * ps.length :=
  length_flatMap_const (fun p => by simp [length_leBytes]) ps

/-! The machine's commands. -/

section
variable {core : Fin 192} {job : Fin 8} {s : State} {i : Nat} {r : BitVec 512}

/-- The keys at SRC_A with their indices. -/
def keysAt (s : State) (b : VectorBody) : List (Nat × Nat) :=
  (u32s (memRead s.t0.bytes b.srcA (4 * b.n))).zipIdx.map fun p => (p.2, p.1)

theorem keysAt_length (s : State) (b : VectorBody) : (keysAt s b).length = b.n := by
  simp [keysAt, u32s_memRead]

/-- A command that reads `n` bytes at one place and writes a function of them at another. -/
theorem exec_readWrite {op a n at_ : Nat} {e : Nat → BitVec 512 → State → State}
    (h : s.ready core.val job.val op = some (i, r)) (hs : s.sound = true)
    (hr : s.readable i a n = true) (g : List Byte → List Byte)
    (he : ∀ u, e i r u = ((u.coreRead i a n).2.2.coreWrite i at_ (g (u.coreRead i a n).1)).2) :
    ∃ t, s.command core.val job.val op e = .next t ∧ Wrote i s t [(at_, g (memRead s.t0.bytes a n))] := by
  have hread := ((Wrote.handOver i s core.val job.val r).read hs hr).1
  obtain ⟨t, ht, hw, -⟩ := Wrote.command (e := e) h
    (by rw [he]; exact ((Wrote.handOver i s _ _ r).trans (.coreRead i _ a n)).trans (.coreWrite i _ at_ _))
  rw [hread] at hw
  exact ⟨t, ht, hw⟩

theorem exec_sort (h : s.ready core.val job.val 0x54 = some (i, r)) (hs : s.sound = true)
    (hr : s.readable i (vectorBody r).srcA (4 * (vectorBody r).n) = true) :
    ∃ t, exec (.sort core job) s = .next t
      ∧ Wrote i s t [((vectorBody r).dst,
          pairBytes (sortBy (fun p q => keyLt (vectorBody r).key p.2 q.2) (keysAt s (vectorBody r))))] := by
  show ∃ t, execSort core job s = .next t ∧ _
  unfold execSort
  refine exec_readWrite (at_ := (vectorBody r).dst) h hs hr
    (fun bs => pairBytes (sortBy (fun p q => keyLt (vectorBody r).key p.2 q.2) ((u32s bs).zipIdx.map fun p => (p.2, p.1)))) ?_
  exact fun _ => rfl

theorem exec_topk (h : s.ready core.val job.val 0x55 = some (i, r)) (hs : s.sound = true)
    (hr : s.readable i (vectorBody r).srcA (4 * (vectorBody r).n) = true) :
    let top := (sortBy (fun p q => keyGt (vectorBody r).key p.2 q.2) (keysAt s (vectorBody r))).take (vectorBody r).k
    ∃ t, exec (.topk core job) s = .next t
      ∧ Wrote i s t [((vectorBody r).dst,
          pairBytes (top ++ List.replicate ((vectorBody r).k - top.length) (0xFFFFFFFF, 0)))] := by
  show ∃ t, execTopk core job s = .next t ∧ _
  unfold execTopk
  exact exec_readWrite h hs hr
    (fun bs =>
      let top := (sortBy (fun p q => keyGt (vectorBody r).key p.2 q.2) ((u32s bs).zipIdx.map fun p => (p.2, p.1))).take (vectorBody r).k
      pairBytes (top ++ List.replicate ((vectorBody r).k - top.length) (0xFFFFFFFF, 0)))
    fun _ => rfl

theorem exec_scan (h : s.ready core.val job.val 0x58 = some (i, r)) (hs : s.sound = true) (hk : (vectorBody r).key ≠ 2)
    (hr : s.readable i (vectorBody r).srcA (4 * (vectorBody r).n) = true) :
    ∃ t, exec (.scan core job) s = .next t
      ∧ Wrote i s t [((vectorBody r).dst,
          u32Bytes (scanInt 0 (u32s (memRead s.t0.bytes (vectorBody r).srcA (4 * (vectorBody r).n)))))] := by
  show ∃ t, execScan core job s = .next t ∧ _
  unfold execScan
  exact exec_readWrite h hs hr (fun bs => u32Bytes (scanInt 0 (u32s bs))) fun u => by simp only [if_neg hk]

end

theorem scanInt_length (acc : Nat) (xs : List Nat) : (scanInt acc xs).length = xs.length := by
  induction xs generalizing acc with
  | nil => rfl
  | cons x xs ih => simp [scanInt, ih]

/-- A running sum is the sum of the members so far. -/
theorem scanInt_getElem : ∀ (xs : List Nat) (acc k : Nat) (hk : k < (scanInt acc xs).length),
    (scanInt acc xs)[k] = (acc + (xs.take (k + 1)).sum) % 2 ^ 32 := by
  intro xs
  induction xs with
  | nil => intro acc k hk; simp [scanInt] at hk
  | cons x xs ih =>
    intro acc k hk
    cases k with
    | zero => simp [scanInt]
    | succ k =>
      simp only [scanInt, List.getElem_cons_succ, ih, List.take_succ_cons, List.sum_cons]
      rw [Nat.mod_add_mod, Nat.add_assoc]

/-! Gathering and scattering (R225, R287). -/

theorem flatMap_zipIdx {α β : Type} (f : α → List β) (xs : List α) (n : Nat) :
    ((xs.zipIdx n).flatMap fun p => f p.1) = xs.flatMap f := by
  induction xs generalizing n with
  | nil => rfl
  | cons x xs ih => simp [List.zipIdx_cons, ih]

/-- One element of a GATHER: what it adds to the bytes gathered, and what its read leaves. -/
def gatherStep (i : Nat) (b : VectorBody) (w : Nat) (acc : List Byte × State) (k : Nat × Nat) : List Byte × State :=
  let x := acc.2.coreRead i (b.srcA + w * k.1) w
  if decide (k.1 < b.k) && x.2.1 then (acc.1 ++ x.1, x.2.2)
  else (acc.1 ++ List.replicate w 0#8, acc.2.badIndex i (b.srcB + 4 * k.2))

/-- Elements that are all within the source and the imprint's rights are gathered as they stand. -/
theorem gatherStep_foldl {i : Nat} {b : VectorBody} {w : Nat} {s : State} (hs : s.sound = true) :
    ∀ {ks : List (Nat × Nat)}, (∀ k ∈ ks, k.1 < b.k ∧ s.readable i (b.srcA + w * k.1) w = true) →
      ∀ (out : List Byte) (u : State), Wrote i s u [] → Wrote i s (ks.foldl (gatherStep i b w) (out, u)).2 []
        ∧ (ks.foldl (gatherStep i b w) (out, u)).1 = out ++ ks.flatMap fun k => memRead s.t0.bytes (b.srcA + w * k.1) w := by
  intro ks
  induction ks with
  | nil => intro _ out u hu; exact ⟨hu, by simp⟩
  | cons k ks ih =>
    intro hk out u hu
    obtain ⟨hlt, hr⟩ := hk k List.mem_cons_self
    obtain ⟨hread, hin⟩ := hu.read hs hr
    have hstep : gatherStep i b w (out, u) k =
        (out ++ memRead s.t0.bytes (b.srcA + w * k.1) w, (u.coreRead i (b.srcA + w * k.1) w).2.2) := by
      simp [gatherStep, hlt, hin, hread]
    rw [List.foldl_cons, hstep]
    obtain ⟨hw, hout⟩ := ih (fun q hq => hk q (List.mem_cons_of_mem _ hq)) _ _ (hu.trans (.coreRead i u _ _))
    exact ⟨hw, by rw [hout, List.flatMap_cons, List.append_assoc]⟩

/-- One element of a SCATTER. -/
def scatterStep (i : Nat) (b : VectorBody) (w : Nat) (s : State) (p : (Nat × Nat) × List Byte) : State :=
  if decide (p.1.1 < b.k) && s.mayWriteAll i (b.dst + w * p.1.1) p.2.length then (s.coreWrite i (b.dst + w * p.1.1) p.2).2
  else s.badIndex i (b.srcB + 4 * p.1.2)

/-- What an element of a SCATTER writes. -/
def scatterWrite (b : VectorBody) (w : Nat) (p : (Nat × Nat) × List Byte) : List (Nat × List Byte) :=
  if p.1.1 < b.k then [(b.dst + w * p.1.1, p.2)] else []

/-- A write outside the imprint's rights is none. -/
theorem Wrote.dropped {i : Nat} {s t : State} (h : Wrote i s t []) {a : Nat} {bs : List Byte}
    (hm : s.mayWriteAll i a bs.length = false) : Wrote i s t [(a, bs)] :=
  ⟨h.rights, h.sound, fun hs => by rw [h.bytes hs, List.filter_cons_of_neg (by simpa using hm)]⟩

theorem scatterStep_wrote (i : Nat) (b : VectorBody) (w : Nat) (s : State) (p : (Nat × Nat) × List Byte) :
    Wrote i s (scatterStep i b w s p) (scatterWrite b w p) := by
  unfold scatterStep scatterWrite
  by_cases hk : p.1.1 < b.k
  · cases hm : s.mayWriteAll i (b.dst + w * p.1.1) p.2.length with
    | true => simpa [hk] using Wrote.coreWrite i s (b.dst + w * p.1.1) p.2
    | false => simpa [hk] using (Wrote.badIndex i s (b.srcB + 4 * p.1.2)).dropped hm
  · simpa [hk] using Wrote.badIndex i s (b.srcB + 4 * p.1.2)

section
variable {core : Fin 192} {job : Fin 8} {s : State} {i : Nat} {r : BitVec 512}

/-- The index list at SRC_B. -/
def indexAt (s : State) (b : VectorBody) : List Nat := u32s (memRead s.t0.bytes b.srcB (4 * b.n))

theorem indexAt_length (s : State) (b : VectorBody) : (indexAt s b).length = b.n := by simp [indexAt, u32s_memRead]

theorem exec_imposerGather (h : s.ready core.val job.val 0x56 = some (i, r)) (hs : s.sound = true)
    (hr : s.readable i (vectorBody r).srcB (4 * (vectorBody r).n) = true)
    (hidx : ∀ k ∈ indexAt s (vectorBody r), k < (vectorBody r).k
      ∧ s.readable i ((vectorBody r).srcA + gatherBytes (vectorBody r).inFmt * k) (gatherBytes (vectorBody r).inFmt) = true) :
    ∃ t, exec (.imposerGather core job) s = .next t
      ∧ Wrote i s t [((vectorBody r).dst, (indexAt s (vectorBody r)).flatMap fun k =>
          memRead s.t0.bytes ((vectorBody r).srcA + gatherBytes (vectorBody r).inFmt * k) (gatherBytes (vectorBody r).inFmt))] := by
  have hhand := Wrote.handOver i s core.val job.val r
  have hread := (hhand.read hs hr).1
  obtain ⟨hw, hout⟩ := gatherStep_foldl (ks := (indexAt s (vectorBody r)).zipIdx) hs
    (fun k hk => hidx k.1 (List.fst_mem_of_mem_zipIdx hk)) [] _ (hhand.trans (.coreRead i _ (vectorBody r).srcB (4 * (vectorBody r).n)))
  show ∃ t, execImposerGather core job s = .next t ∧ _
  unfold execImposerGather
  obtain ⟨t, ht, hall, -⟩ := Wrote.command h (e := fun i r s =>
    let b := vectorBody r
    let w := gatherBytes b.inFmt
    let ix := s.coreRead i b.srcB (4 * b.n)
    let out := (u32s ix.1).zipIdx.foldl (gatherStep i b w) ([], ix.2.2)
    (out.2.coreWrite i b.dst out.1).2) (by
      simp only [hread]
      exact hw.trans (.coreWrite i _ (vectorBody r).dst _))
  refine ⟨t, ht, ?_⟩
  rw [← indexAt, hout, List.nil_append, flatMap_zipIdx fun k =>
    memRead s.t0.bytes ((vectorBody r).srcA + gatherBytes (vectorBody r).inFmt * k) (gatherBytes (vectorBody r).inFmt)] at hall
  exact hall

theorem exec_imposerScatter (h : s.ready core.val job.val 0x57 = some (i, r)) (hs : s.sound = true)
    (hr : s.readable i (vectorBody r).srcB (4 * (vectorBody r).n) = true)
    (ha : s.readable i (vectorBody r).srcA (gatherBytes (vectorBody r).inFmt * (vectorBody r).n) = true) :
    ∃ t, exec (.imposerScatter core job) s = .next t
      ∧ Wrote i s t (((indexAt s (vectorBody r)).zipIdx.zip (chunks (gatherBytes (vectorBody r).inFmt)
          (memRead s.t0.bytes (vectorBody r).srcA (gatherBytes (vectorBody r).inFmt * (vectorBody r).n)))).flatMap
          (scatterWrite (vectorBody r) (gatherBytes (vectorBody r).inFmt))) := by
  have hhand := Wrote.handOver i s core.val job.val r
  have hread := (hhand.read hs hr).1
  have hix := hhand.trans (.coreRead i _ (vectorBody r).srcB (4 * (vectorBody r).n))
  have hsrc := (hix.read hs ha).1
  show ∃ t, execImposerScatter core job s = .next t ∧ _
  unfold execImposerScatter
  obtain ⟨t, ht, hall, -⟩ := Wrote.command h (e := fun i r s =>
    let b := vectorBody r
    let w := gatherBytes b.inFmt
    let ix := s.coreRead i b.srcB (4 * b.n)
    let x := ix.2.2.coreRead i b.srcA (w * b.n)
    ((u32s ix.1).zipIdx.zip (chunks w x.1)).foldl (scatterStep i b w) x.2.2) (by
      simp only [hread, hsrc]
      exact (hix.trans (.coreRead i _ _ _)).trans
        (Wrote.foldl (P := fun _ => True) _ (fun u _ p _ => ⟨scatterStep_wrote i _ _ u p, trivial⟩) _ trivial).1)
  exact ⟨t, ht, hall⟩

end

theorem gatherBytes_pos (fmt : Nat) : 0 < gatherBytes fmt := by
  unfold gatherBytes
  split <;> omega

/-- The `k`-th write of a SCATTER, when its index lies in the destination. -/
theorem scatterWrites_eq (s : State) (b : VectorBody) (w : Nat) (hw : 0 < w) :
    ((indexAt s b).zipIdx.zip (chunks w (memRead s.t0.bytes b.srcA (w * b.n)))).flatMap (scatterWrite b w) =
      (List.range b.n).flatMap fun k => if (indexAt s b).getD k 0 < b.k then
        [(b.dst + w * (indexAt s b).getD k 0, memRead s.t0.bytes (b.srcA + w * k) w)] else [] := by
  have hix : (indexAt s b).zipIdx = (List.range b.n).map fun k => ((indexAt s b).getD k 0, k) :=
    List.ext_getElem (by simp [indexAt_length]) fun k h1 h2 => by
      have hk : k < (indexAt s b).length := by simpa using h1
      simp [hk]
  rw [hix, chunks_memRead hw, List.zip_map', List.flatMap_map]
  rfl

/-- Equal parts at different multiples of their width stand apart. -/
theorem apart_of_index_ne {d w m n : Nat} {xs ys : List Byte} (hx : xs.length = w) (hy : ys.length = w) (h : m ≠ n) :
    Apart (d + w * m, xs) (d + w * n, ys) := by
  simp only [Apart, hx, hy]
  rcases Nat.lt_or_gt_of_ne h with h | h
  · have := Nat.mul_le_mul_left w h
    rw [Nat.mul_succ] at this
    omega
  · have := Nat.mul_le_mul_left w h
    rw [Nat.mul_succ] at this
    omega

theorem scatterWrites_apart {s : State} {b : VectorBody} {w : Nat} (hnd : (indexAt s b).Nodup) :
    ((List.range b.n).flatMap fun k => if (indexAt s b).getD k 0 < b.k then
        [(b.dst + w * (indexAt s b).getD k 0, memRead s.t0.bytes (b.srcA + w * k) w)] else []).Pairwise Apart := by
  rw [List.pairwise_flatMap]
  refine ⟨fun k _ => by split <;> simp, ?_⟩
  refine (List.pairwise_lt_range).imp_of_mem fun {j k} hj hk hjk p hp q hq => ?_
  split at hp <;> [skip; cases hp]
  split at hq <;> [skip; cases hq]
  obtain rfl := List.mem_singleton.mp hp
  obtain rfl := List.mem_singleton.mp hq
  refine apart_of_index_ne (memRead_length _ _ _) (memRead_length _ _ _) fun he => ?_
  have hj' : j < (indexAt s b).length := by rw [indexAt_length]; exact List.mem_range.mp hj
  have hk' : k < (indexAt s b).length := by rw [indexAt_length]; exact List.mem_range.mp hk
  simp only [List.getD_eq_getElem?_getD, List.getElem?_eq_getElem, hj', hk', Option.getD_some] at he
  exact absurd ((List.Nodup.getElem_inj_iff hnd).mp he) (Nat.ne_of_lt hjk)

/-- Settles O22: each command reads its operands, and what it writes there is in order, or each part at its place. -/
theorem imposerOrdersAndGathers : Obligations.ImposerOrdersAndGathers := by
  unfold Obligations.ImposerOrdersAndGathers
  intro core job s i r hs b keys idx w
  have hw : 0 < w := gatherBytes_pos _
  refine ⟨fun h hr hwr => ?sort, fun h hr hwr => ?topk, fun h hk hr hwr => ?scan, fun h hr hwr hidx => ?gather,
    fun h hr ha hnd => ?scatter⟩
  case sort =>
    obtain ⟨t, ht, hwrote⟩ := exec_sort h hs hr
    have hperm : (sortBy (fun p q => keyLt b.key p.2 q.2) (keysAt s b)).Perm keys := sortBy_perm _ _
    have hlen : (pairBytes (sortBy (fun p q => keyLt b.key p.2 q.2) (keysAt s b))).length = 8 * b.n := by
      rw [pairBytes_length, hperm.length_eq]
      exact congrArg _ (keysAt_length s b)
    obtain ⟨hholds, hout⟩ := hwrote.single hs
    rw [hlen] at hholds hout
    refine ⟨t, _, ht, hholds hwr, hout, hperm, fun hk => ?_, fun hk => ?_⟩
    · have := sortBy_keys (lt := keyLt b.key) (v := Nat.cast) (fun x y => by simp [hk, keyLt])
        (u32s (memRead s.t0.bytes b.srcA (4 * b.n)))
      exact this.imp fun hpq => by simpa only [Nat.cast_lt, Nat.cast_inj] using hpq
    · exact sortBy_keys (lt := keyLt b.key) (v := signedOf 32) (fun x y => by simp [hk, keyLt]) _
  case topk =>
    obtain ⟨t, ht, hwrote⟩ := exec_topk h hs hr
    have hlen : (sortBy (fun p q => keyGt b.key p.2 q.2) (keysAt s b)).length = b.n := by
      rw [(sortBy_perm _ _).length_eq, keysAt_length]
    have htop : ((sortBy (fun p q => keyGt b.key p.2 q.2) (keysAt s b)).take b.k).length = min b.k b.n := by
      rw [List.length_take, hlen]
    obtain ⟨hholds, hout⟩ := hwrote.single hs
    rw [pairBytes_length, List.length_append, List.length_replicate, htop,
      show min b.k b.n + (b.k - min b.k b.n) = b.k by omega] at hholds hout
    refine ⟨t, _, ht, htop, List.take_prefix _ _, ?_, hout⟩
    rw [show b.k - b.n = b.k - min b.k b.n by omega]
    exact hholds hwr
  case scan =>
    obtain ⟨t, ht, hwrote⟩ := exec_scan h hs hk hr
    have hlen : (scanInt 0 (u32s (memRead s.t0.bytes b.srcA (4 * b.n)))).length = b.n := by
      rw [scanInt_length]; simp [u32s_memRead]
    obtain ⟨hholds, hout⟩ := hwrote.single hs
    have h4 : ∀ x, (leBytes 4 x).length = 4 := length_leBytes 4
    rw [u32Bytes, length_flatMap_const h4, hlen] at hholds hout
    refine ⟨t, ht, hout, fun k hk => ?_⟩
    rw [holds_flatMap h4 (hholds hwr) (by rw [hlen]; exact hk), ofLeBytes_leBytes, scanInt_getElem, Nat.zero_add]
    exact Nat.mod_mod _ _
  case gather =>
    obtain ⟨t, ht, hwrote⟩ := exec_imposerGather h hs hr hidx
    obtain ⟨hholds, hout⟩ := hwrote.single hs
    rw [length_flatMap_const (fun k => memRead_length _ _ _), indexAt_length] at hholds hout
    exact ⟨t, ht, hholds hwr, hout⟩
  case scatter =>
    obtain ⟨t, ht, hwrote⟩ := exec_imposerScatter h hs hr ha
    rw [scatterWrites_eq s b w hw] at hwrote
    refine ⟨t, ht, fun k hk hlt hwr => ?_, fun x hx => ?_⟩
    · refine hwrote.holds (p := (b.dst + w * idx.getD k 0, memRead s.t0.bytes (b.srcA + w * k) w)) hs (scatterWrites_apart hnd) ?_ ?_
      · exact List.mem_flatMap.mpr ⟨k, List.mem_range.mpr hk, (if_pos hlt).symm ▸ List.mem_singleton_self _⟩
      · rw [memRead_length]; exact mayWriteAll_of_writable hwr
    · refine hwrote.outside hs fun p hp => ?_
      obtain ⟨k, hk, hp⟩ := List.mem_flatMap.mp hp
      split at hp <;> [skip; cases hp]
      obtain rfl := List.mem_singleton.mp hp
      have hk' : k < (indexAt s b).length := by rw [indexAt_length]; exact List.mem_range.mp hk
      have := hx ((indexAt s b).getD k 0) (by
        rw [List.getD_eq_getElem _ _ hk']; exact List.getElem_mem hk')
      simpa [memRead_length] using this

end Sys2Proof.Machine
end

section
/-!
Where results go that no fresh block and no run-time tensor holds (R92, R164), and states beside T0 and the cores.
-/
namespace Sys2Proof.Machine

open Sys2Proof

/-! Fresh blocks and run-time tensors. -/

theorem mem_onward {c : Core} {job : Nat} {r : BitVec 512} : r ∈ c.onward job ↔ r ∈ c.stream job := by
  rw [Core.onward, List.mem_append, or_comm, ← List.mem_append, List.take_append_drop]

/-- The fresh block that an attend record gives an offset, if it does. -/
def freshOf (kvBytes : AttendBody → Nat) (off : Nat) (r : BitVec 512) : Option (AttendBody × Bool × Nat) :=
  if (cmdHead r).opcode != 0x30 then none
  else
    let b := attendBody r
    let n := b.nF * kvBytes b
    let vBase := roundUp (b.freshOff + n) 256
    if n = 0 then none
    else if b.freshOff ≤ off && off < b.freshOff + n then some (b, false, off - b.freshOff)
    else if vBase ≤ off && off < vBase + n then some (b, true, off - vBase)
    else none

/-- Whether an offset lies in no fresh block does not depend on where the streams stand. -/
theorem freshAt_eq_none (c : Core) (kvBytes : AttendBody → Nat) (off : Nat) :
    c.freshAt kvBytes off = none ↔ ∀ x ∈ c.streams, ∀ r ∈ spGet [] c.streams x.1, freshOf kvBytes off r = none := by
  show (c.streams.flatMap fun x => c.onward x.1).findSome? (freshOf kvBytes off) = none ↔ _
  simp only [List.findSome?_eq_none_iff, List.mem_flatMap, mem_onward, Core.stream]
  exact ⟨fun h x hx r hr => h r ⟨x, hx, hr⟩, fun h r ⟨x, hx, hr⟩ => h x hx r hr⟩

theorem kvBytes_congr {s t : State} {i : Nat} (h : t.cfg i = s.cfg i) : t.kvBytes i = s.kvBytes i := by
  funext b
  unfold State.kvBytes State.layer
  rw [h]

theorem freshBlock_none_congr {s t : State} {i a : Nat} (hc : t.cfg i = s.cfg i) (hs : ∀ k, (t.core k).streams = (s.core k).streams)
    (h : s.freshBlock i a = none) : t.freshBlock i a = none := by
  unfold State.freshBlock at h ⊢
  split at h
  next hr => rw [if_pos hr]
  next hr =>
    rw [if_neg hr]
    rw [freshAt_eq_none] at h ⊢
    rw [hs, kvBytes_congr hc]
    exact h

theorem runtimeAt_congr {s t : State} {i : Nat} (h : t.cfg i = s.cfg i) (a : Nat) : t.runtimeAt i a = s.runtimeAt i a := by
  unfold State.runtimeAt
  rw [h]

theorem handOver_all_streams (s : State) (core job : Nat) (r : BitVec 512) (k : Nat) :
    ((s.handOver core job r).core k).streams = (s.core k).streams := by
  by_cases hk : k = core
  · subst hk; exact handOver_streams s k job r
  · rw [handOver_core_ne s core job r hk]

/-! Plain results. -/

/-- The bytes of rows of results under no block scales. -/
def resultBytes (f : Elem) (rows : List (List F32)) : List Byte := rows.flatMap fun x => packRow f (quantRow f .none x).1

/-- The conversion faults of rows of results under no block scales are counted (R67). -/
def State.countPlain (s : State) (i : Nat) (f : Elem) (rows : List (List F32)) : State :=
  s.count i .convFaults ((rows.map (quantRow f .none)).map (·.2.2)).sum

theorem writePlainRows_none (s : State) (i : Nat) (f : Elem) (a : Nat) (rows : List (List F32)) :
    s.writePlainRows i f .none a rows = ((s.countPlain i f rows).coreWrite i a (resultBytes f rows)).2 := by
  unfold State.writePlainRows State.countPlain resultBytes
  simp only [List.flatMap_map]
  rfl

/-- Results for a place that no fresh block and no run-time tensor holds are written there as they are. -/
theorem writeOut_plain {s : State} {i a : Nat} (hf : s.freshBlock i a = none) (hr : s.runtimeAt i a = none) (core : Nat) (f : Elem)
    (rows : List (List F32)) : s.writeOut core i f .none a rows = ((s.countPlain i f rows).coreWrite i a (resultBytes f rows)).2 := by
  rw [← writePlainRows_none]
  unfold State.writeOut State.writeRows
  rw [hf, hr]

theorem Wrote.countPlain (i : Nat) (s : State) (f : Elem) (rows : List (List F32)) : Wrote i s (s.countPlain i f rows) [] :=
  .count i s _ _

theorem Wrote.writeOut {s : State} {i a : Nat} (hf : s.freshBlock i a = none) (hr : s.runtimeAt i a = none) (core : Nat) (f : Elem)
    (rows : List (List F32)) : Wrote i s (s.writeOut core i f .none a rows) [(a, resultBytes f rows)] := by
  rw [writeOut_plain hf hr]
  exact (Wrote.countPlain i s f rows).trans (.coreWrite i _ a _)

/-! States that differ beside T0's bytes and the cores. -/

/-- From `s` to `t` no T0 byte and no core changes, and the imprint's rights stay. -/
structure Aside (i : Nat) (s t : State) : Prop where
  wrote : Wrote i s t []
  cores : t.cores = s.cores
  endpoint : t.fab = s.fab

theorem Aside.refl (i : Nat) (s : State) : Aside i s s := ⟨.refl i s, rfl, rfl⟩

theorem Aside.trans {i : Nat} {s t u : State} (h : Aside i s t) (g : Aside i t u) : Aside i s u :=
  ⟨by simpa using h.wrote.trans g.wrote, g.cores.trans h.cores, g.endpoint.trans h.endpoint⟩

theorem Aside.core {i : Nat} {s t : State} (h : Aside i s t) (k : Nat) : t.core k = s.core k := by unfold State.core; rw [h.cores]

theorem Aside.coreRead (i : Nat) (s : State) (a n : Nat) : Aside i s (s.coreRead i a n).2.2 :=
  ⟨.coreRead i s a n, (coreRead_only s i a n).cores, (coreRead_only s i a n).fab⟩

theorem Aside.modRun (i : Nat) (s : State) (f : Run → Run) (hf : ∀ r, (f r).manifest = r.manifest) : Aside i s (s.modRun i f) :=
  ⟨.modRun i s f hf, rfl, rfl⟩

theorem Aside.count (i : Nat) (s : State) (c : Ctr) (n : Nat) : Aside i s (s.count i c n) :=
  ⟨.count i s c n, by rw [count_eq], by rw [count_eq]⟩

theorem Aside.report (i : Nat) (s : State) (r : Report) : Aside i s (s.report r) :=
  ⟨.report i s r, (report_only s r).cores, (report_only s r).fab⟩

theorem Aside.hurtSlot (i : Nat) (s : State) (n st : Nat) : Aside i s (s.hurtSlot i n st) :=
  .modRun i s _ fun r => by split <;> rfl

theorem Aside.ite {i : Nat} {s t u : State} {p : Prop} [Decidable p] (h : Aside i s t) (g : Aside i s u) :
    Aside i s (if p then t else u) := by
  split <;> assumption

theorem Aside.foldl {α : Type} {i : Nat} {f : State → α → State} (hf : ∀ s x, Aside i s (f s x)) (xs : List α) (s : State) :
    Aside i s (xs.foldl f s) := by
  induction xs generalizing s with
  | nil => exact .refl i s
  | cons x xs ih => exact (hf s x).trans (ih _)

theorem Aside.freshBlock_none {i a : Nat} {s t : State} (h : Aside i s t) (hf : s.freshBlock i a = none) : t.freshBlock i a = none :=
  freshBlock_none_congr h.wrote.rights.cfg (fun k => by rw [h.core]) hf

theorem Aside.runtimeAt {i a : Nat} {s t : State} (h : Aside i s t) : t.runtimeAt i a = s.runtimeAt i a :=
  runtimeAt_congr h.wrote.rights.cfg a

theorem handOver_freshBlock_none {s : State} {i a : Nat} (h : s.freshBlock i a = none) (core job : Nat) (r : BitVec 512) :
    (s.handOver core job r).freshBlock i a = none :=
  freshBlock_none_congr (s := s) rfl (handOver_all_streams s core job r) h

/-! Rights byte by byte. -/

theorem t0Off_eq (a : Nat) : t0Off a = a % 67108864 := by simp [t0Off, bitsOf]

theorem isReserve_iff (a : Nat) : isReserve a = true ↔ 0xF0 ≤ a / 67108864 % 256 ∧ a / 67108864 % 256 ≤ 0xF3 := by
  rw [isReserve, Bool.and_eq_true, decide_eq_true_eq, decide_eq_true_eq, t0Core_eq]
  norm_num

theorem t0Exists_iff (a : Nat) : t0Exists a = true ↔
    a < 17179869184 ∧ ((a / 67108864 % 256 < 192 ∧ a % 67108864 < 0x3000000) ∨
      (0xF0 ≤ a / 67108864 % 256 ∧ a / 67108864 % 256 ≤ 0xF3)) := by
  rw [t0Exists, Bool.and_eq_true, Bool.or_eq_true, Bool.and_eq_true, isReserve_iff, decide_eq_true_eq, decide_eq_true_eq,
    decide_eq_true_eq, t0Core_eq, t0Off_eq]
  norm_num

/-- A core may write a range each of whose bytes it may write: no range leaves a slice without passing an address that does not
exist. -/
theorem mayWriteAll_of_all {s : State} {i a n : Nat} (hn : 0 < n) (h : ∀ x, a ≤ x → x < a + n → s.mayWrite i x = true) :
    s.mayWriteAll i a n = true := by
  have hex : ∀ x, a ≤ x → x < a + n → t0Exists x = true := fun x h1 h2 => by
    have := h x h1 h2
    rw [State.mayWrite, Bool.and_eq_true] at this
    exact this.1
  unfold State.mayWriteAll
  rw [h a (Nat.le_refl a) (by omega), h (a + n - 1) (by omega) (by omega), Bool.true_and, Bool.true_and]
  split
  next hr => simp only [List.all_eq_true, List.mem_range]; exact fun k hk => h (a + k) (by omega) (by omega)
  next hr =>
    rw [beq_iff_eq, t0Core_eq, t0Core_eq]
    by_contra hne
    rw [isReserve_iff] at hr
    have ha := (t0Exists_iff a).mp (hex a (Nat.le_refl a) (by omega))
    have hb := (t0Exists_iff _).mp (hex (a + n - 1) (by omega) (by omega))
    have hgap := (t0Exists_iff _).mp (hex (a / 67108864 * 67108864 + 0x3000000) (by omega) (by omega))
    omega

theorem holds_append_left {s : State} {a : Nat} {xs ys : List Byte} (h : s.holds a (xs ++ ys)) : s.holds a xs := by
  have := holds_part h (k := 0) (n := xs.length) (by simp)
  simpa [State.holds] using this

end Sys2Proof.Machine
end

section
/-!
The Imposer's segments, blocks, collation and fonts (R74, R139, R264 to R267, R273, R281, R283).
-/
namespace Sys2Proof.Machine

open Sys2Proof

/-! SEGREDUCE and FONT_BUILD. -/

section
variable {core : Fin 192} {job : Fin 8} {s : State} {i : Nat} {r : BitVec 512}

/-- The bytes of the sums of integer segments. -/
def segSums (n k : Nat) (xs starts : List Nat) : List Byte :=
  (List.range k).flatMap fun j => leBytes 4 (((xs.drop (starts.getD j n)).take (starts.getD (j + 1) n - starts.getD j n)).sum % 2 ^ 32)

theorem exec_segreduce (h : s.ready core.val job.val 0x59 = some (i, r)) (hs : s.sound = true) (hk : (vectorBody r).key ≠ 2)
    (hr : s.readable i (vectorBody r).srcA (4 * (vectorBody r).n) = true)
    (hb : s.readable i (vectorBody r).srcB (4 * (vectorBody r).k) = true) :
    ∃ t, exec (.segreduce core job) s = .next t
      ∧ Wrote i s t [((vectorBody r).dst, segSums (vectorBody r).n (vectorBody r).k
          (u32s (memRead s.t0.bytes (vectorBody r).srcA (4 * (vectorBody r).n)))
          (u32s (memRead s.t0.bytes (vectorBody r).srcB (4 * (vectorBody r).k))))] := by
  have hhand := Wrote.handOver i s core.val job.val r
  have hxs := (hhand.read hs hr).1
  have hx := hhand.trans (.coreRead i _ (vectorBody r).srcA (4 * (vectorBody r).n))
  have hstarts := (hx.read hs hb).1
  show ∃ t, execSegreduce core job s = .next t ∧ _
  unfold execSegreduce
  obtain ⟨t, ht, hall, -⟩ := Wrote.command h (e := fun i r s =>
    let b := vectorBody r
    let x := s.coreRead i b.srcA (4 * b.n)
    let y := x.2.2.coreRead i b.srcB (4 * b.k)
    let starts := u32s y.1
    let segs := (List.range b.k).map fun k =>
      let lo := starts.getD k b.n
      let hi := starts.getD (k + 1) b.n
      (((chunks 4 x.1).drop lo).take (hi - lo)).map ofLeBytes
    let out := segs.flatMap fun sg =>
      if b.key = 2 then leBytes 4 (treeF (sg.map (BitVec.ofNat 32))).toNat else leBytes 4 (sg.sum % 2 ^ 32)
    (y.2.2.coreWrite i b.dst out).2)
    (ps := [((vectorBody r).dst, segSums (vectorBody r).n (vectorBody r).k
          (u32s (memRead s.t0.bytes (vectorBody r).srcA (4 * (vectorBody r).n)))
          (u32s (memRead s.t0.bytes (vectorBody r).srcB (4 * (vectorBody r).k))))]) (by
      simp only [hxs, hstarts, hk, if_false, List.flatMap_map, List.map_take, List.map_drop]
      exact (hx.trans (.coreRead i _ _ _)).trans (.coreWrite i _ _ _))
  exact ⟨t, ht, hall⟩

theorem segSums_length (n k : Nat) (xs starts : List Nat) : (segSums n k xs starts).length = 4 * k := by
  rw [segSums, length_flatMap_const fun j => length_leBytes 4 _, List.length_range]

/-- The font that FONT_BUILD makes of the counts at SRC_A. -/
def builtFont (s : State) (i : Nat) (b : VectorBody) (fs : FontStream) : Font :=
  ⟨0x1000 + 2 * b.aux + (if spGet 2 (s.imp i).run.fontActive b.aux = 0 then 1 else 0), fs.kind,
    fontLens fs.kind ((chunks 8 (memRead s.t0.bytes b.srcA (8 * fs.kind.alphabet))).map ofLeBytes)⟩

theorem exec_fontBuild {fs : FontStream} (h : s.ready core.val job.val 0x5A = some (i, r)) (hs : s.sound = true)
    (hfs : ((s.cfg i).bind fun g => g.formats.streams[(vectorBody r).aux]?) = some fs)
    (hr : s.readable i (vectorBody r).srcA (8 * fs.kind.alphabet) = true) :
    ∃ t, exec (.fontBuild core job) s = .next t
      ∧ Wrote i s t [((vectorBody r).dst, (builtFont s i (vectorBody r) fs).image)]
      ∧ (t.imp i).run.fontSlots = spPut none (s.imp i).run.fontSlots
          (2 * (vectorBody r).aux + (if spGet 2 (s.imp i).run.fontActive (vectorBody r).aux = 0 then 1 else 0))
          (some (builtFont s i (vectorBody r) fs))
      ∧ (t.imp i).run.fontBuilt = spPut false (s.imp i).run.fontBuilt (vectorBody r).aux true := by
  have hhand := Wrote.handOver i s core.val job.val r
  have hread := (hhand.read hs hr).1
  have hx := hhand.trans (.coreRead i _ (vectorBody r).srcA (8 * fs.kind.alphabet))
  have himp : (((s.handOver core.val job.val r).coreRead i (vectorBody r).srcA (8 * fs.kind.alphabet)).2.2).imp i = s.imp i :=
    (coreRead_only _ i _ _).imp i
  have hcfg : (((s.handOver core.val job.val r).cfg i).bind fun g => g.formats.streams[(vectorBody r).aux]?) = some fs := hfs
  have hhimp : (s.handOver core.val job.val r).imp i = s.imp i := rfl
  show ∃ t, execFontBuild core job s = .next t ∧ _
  unfold execFontBuild
  obtain ⟨t, ht, honly, ht0⟩ := command_next h (fun i r s =>
    let b := vectorBody r
    match (s.cfg i).bind fun g => g.formats.streams[b.aux]? with
    | none => s
    | some fs =>
      let n := fs.kind.alphabet
      let x := s.coreRead i b.srcA (8 * n)
      let cs := (chunks 8 x.1).map ofLeBytes
      let parity := if spGet 2 (s.imp i).run.fontActive b.aux = 0 then 1 else 0
      let font : Font := ⟨0x1000 + 2 * b.aux + parity, fs.kind, fontLens fs.kind cs⟩
      let s := x.2.2.modRun i fun u =>
        { u with fontSlots := spPut none u.fontSlots (2 * b.aux + parity) (some font),
                 fontBuilt := spPut false u.fontBuilt b.aux true }
      (s.coreWrite i b.dst font.image).2)
  simp only [hcfg, hread, hhimp] at honly ht0
  refine ⟨t, ht, ?_, ?_, ?_⟩
  · have hstamp := Wrote.of_t0 (i := i) (.of_imp (honly.imp i) (by rw [honly])) ht0
    refine Wrote.trans (ps := [(_, _)]) (qs := []) (Wrote.trans (ps := []) (qs := [(_, _)]) (hx.trans (.modRun i _ _ ?_))
      (.coreWrite i _ _ _)) hstamp
    exact fun _ => rfl
  · rw [honly.imp, (coreWrite_only _ _ _ _).imp, State.imp_modRun_same, himp]
    rfl
  · rw [honly.imp, (coreWrite_only _ _ _ _).imp, State.imp_modRun_same, himp]

end

/-! Blocks (R273). -/

theorem BlockHead.bytes_length (h : BlockHead) : h.bytes.length = 64 := by
  simp [BlockHead.bytes, length_leBytes]

/-- Of two states, what a block header of this package says is the same. -/
structure SameHead (i : Nat) (s t : State) : Prop where
  wire : (t.imp i).wire = (s.imp i).wire
  impression : (t.imp i).run.impression = (s.imp i).run.impression
  epoch : (t.imp i).run.epoch = (s.imp i).run.epoch
  endpoint : t.fab.endpoint = s.fab.endpoint

theorem SameHead.refl (i : Nat) (s : State) : SameHead i s s := ⟨rfl, rfl, rfl, rfl⟩

theorem SameHead.trans {i : Nat} {s t u : State} (h : SameHead i s t) (g : SameHead i t u) : SameHead i s u :=
  ⟨g.wire.trans h.wire, g.impression.trans h.impression, g.epoch.trans h.epoch, g.endpoint.trans h.endpoint⟩

theorem SameHead.of_imp {i : Nat} {s t : State} (h : t.imp i = s.imp i) (hf : t.fab = s.fab) : SameHead i s t :=
  ⟨by rw [h], by rw [h], by rw [h], by rw [hf]⟩

theorem SameHead.onlyT0 {s t : State} (i : Nat) (h : OnlyT0 s t) : SameHead i s t := .of_imp (h.imp i) h.fab

theorem SameHead.handOver (i : Nat) (s : State) (core job : Nat) (r : BitVec 512) : SameHead i s (s.handOver core job r) :=
  ⟨rfl, rfl, rfl, rfl⟩

theorem SameHead.coreWrite (i : Nat) (s : State) (a : Nat) (bs : List Byte) : SameHead i s (s.coreWrite i a bs).2 :=
  .onlyT0 i (coreWrite_only s i a bs)

theorem SameHead.modRun (i : Nat) (s : State) (f : Run → Run) (hi : ∀ r, (f r).impression = r.impression)
    (he : ∀ r, (f r).epoch = r.epoch) : SameHead i s (s.modRun i f) := by
  refine ⟨?_, ?_, ?_, rfl⟩ <;> rw [State.imp_modRun_same]
  · exact hi _
  · exact he _

theorem SameHead.count (i : Nat) (s : State) (c : Ctr) (n : Nat) : SameHead i s (s.count i c n) := by
  unfold State.count
  split
  · exact .refl i s
  · exact .modRun i s _ (fun _ => rfl) fun _ => rfl

theorem SameHead.blockHead {i : Nat} {s t : State} (h : SameHead i s t) (type layer expert replica count dest : Nat) :
    t.blockHead i type layer expert replica count dest = s.blockHead i type layer expert replica count dest := by
  simp only [State.blockHead, h.wire, h.impression, h.epoch, h.endpoint]

/-- Blocks of at most `w` bytes at consecutive multiples of it stand apart. -/
theorem blocks_apart {w d n : Nat} {f : Nat → List Byte} (hf : ∀ k, (f k).length ≤ w) :
    ((List.range n).flatMap fun k => [(d + k * w, f k)]).Pairwise Apart := by
  rw [List.pairwise_flatMap]
  refine ⟨fun _ _ => List.pairwise_singleton _ _, List.pairwise_lt_range.imp fun {j k} hjk p hp q hq => ?_⟩
  obtain rfl := List.mem_singleton.mp hp
  obtain rfl := List.mem_singleton.mp hq
  have := Nat.mul_le_mul_right w hjk
  rw [Nat.succ_mul] at this
  have := hf j
  exact .inl (show d + j * w + (f j).length ≤ d + k * w by omega)

/-- A list of blocks lies in its strides. -/
theorem Wrote.blocks {i : Nat} {s t : State} {w d n : Nat} {f : Nat → List Byte} (hf : ∀ k, (f k).length ≤ w)
    (h : Wrote i s t ((List.range n).flatMap fun k => [(d + k * w, f k)])) (hs : s.sound = true) :
    (∀ k, k < n → 0 < (f k).length → (∀ x, d ≤ x → x < d + n * w → s.mayWrite i x = true) → t.holds (d + k * w) (f k))
      ∧ s.sameOutside t d (n * w) := by
  have hin : ∀ k, k < n → d + k * w + w ≤ d + n * w := fun k hk => by
    have := Nat.mul_le_mul_right w hk
    rw [Nat.succ_mul] at this
    omega
  refine ⟨fun k hk hpos hm => ?_, h.sameOutside hs fun p hp => ?_⟩
  · refine h.holds (p := (d + k * w, f k)) hs (blocks_apart hf)
      (List.mem_flatMap.mpr ⟨k, List.mem_range.mpr hk, List.mem_singleton_self _⟩) ?_
    have := hin k hk
    have := hf k
    refine mayWriteAll_of_all hpos fun x (h1 : d + k * w ≤ x) (h2 : x < d + k * w + (f k).length) => ?_
    exact hm x (by omega) (by omega)
  · obtain ⟨k, hk, hp⟩ := List.mem_flatMap.mp hp
    obtain rfl := List.mem_singleton.mp hp
    have := hin k (List.mem_range.mp hk)
    have := hf k
    exact ⟨by show d ≤ d + k * w; omega, by show d + k * w + (f k).length ≤ d + n * w; omega⟩

/-! ROUTE_LOCAL (R261, R264, R267). -/

/-- The finite affinities of the package's `n` tokens for an expert. -/
def routeCand (b : VectorBody) (n : Nat) (a : List F32) (e : Nat) : List (Nat × F32) :=
  ((List.range n).map fun t => (t, a.getD (t * b.k + e) nanF)).filter fun p => isFin p.2

/-- The ranked tokens that an expert's CANDIDATES block carries. -/
def routeRanked (b : VectorBody) (n c : Nat) (a : List F32) (e : Nat) : List (Nat × F32) :=
  (sortBy (fun p q => affGt p.2 q.2) (routeCand b n a e)).take c

/-- The package of an expert's first replica. -/
def homeOf (s : State) (l : ExpertLayer) (e : Nat) : Nat :=
  ((l.experts[e]?).bind fun p => p.replicas.head?).map (·.1) |>.getD s.fab.endpoint

/-- The CANDIDATES block of an expert. -/
def candBlock (s : State) (i : Nat) (b : VectorBody) (l : ExpertLayer) (n c : Nat) (a : List F32) (e : Nat) : List Byte :=
  (s.blockHead i 0x11 b.aux e 0xFF (routeRanked b n c a e).length (homeOf s l e)).bytes
    ++ (routeRanked b n c a e).flatMap fun p => leBytes 4 p.2.toNat ++ leBytes 2 p.1 ++ leBytes 2 0

/-- ROUTE_LOCAL's work for one expert. -/
def routeExpert (i : Nat) (b : VectorBody) (l : ExpertLayer) (n c : Nat) (a : List F32) (s : State) (e : Nat) : State :=
  let s := s.count i .nonFinite (((List.range n).map fun t => (t, a.getD (t * b.k + e) nanF)).length - (routeCand b n a e).length)
  let h := s.blockHead i 0x11 b.aux e 0xFF (routeRanked b n c a e).length (homeOf s l e)
  let s := s.modRun i fun u => { u with cands := spPut 0 u.cands (b.aux * 4096 + e) (routeCand b n a e).length }
  (s.coreWrite i (b.dst + e * candStride b.cap)
    (h.bytes ++ (routeRanked b n c a e).flatMap fun p => leBytes 4 p.2.toNat ++ leBytes 2 p.1 ++ leBytes 2 0)).2

theorem routeRanked_length (b : VectorBody) (n c : Nat) (a : List F32) (e : Nat) :
    (routeRanked b n c a e).length =
      min c ((List.range n).filter fun k => isFin (a.getD (k * b.k + e) nanF)).length := by
  rw [routeRanked, List.length_take, (sortBy_perm _ _).length_eq, routeCand, List.filter_map, List.length_map]
  rfl

theorem candBlock_length (s : State) (i : Nat) (b : VectorBody) (l : ExpertLayer) (n c : Nat) (a : List F32) (e : Nat) :
    (candBlock s i b l n c a e).length = 64 + 8 * (routeRanked b n c a e).length := by
  rw [candBlock, List.length_append, BlockHead.bytes_length, length_flatMap_const (w := 8) fun p => by simp [length_leBytes]]

theorem homeOf_congr {i : Nat} {s t : State} (h : SameHead i s t) (l : ExpertLayer) (e : Nat) : homeOf t l e = homeOf s l e := by
  unfold homeOf
  rw [h.endpoint]

theorem candBlock_congr {i : Nat} {s t : State} (h : SameHead i s t) (b : VectorBody) (l : ExpertLayer) (n c : Nat) (a : List F32)
    (e : Nat) : candBlock t i b l n c a e = candBlock s i b l n c a e := by
  unfold candBlock
  rw [h.blockHead, homeOf_congr h]

theorem routeExpert_wrote {i : Nat} {s u : State} (hu : SameHead i s u) (b : VectorBody) (l : ExpertLayer) (n c : Nat)
    (a : List F32) (e : Nat) : Wrote i u (routeExpert i b l n c a u e) [(b.dst + e * candStride b.cap, candBlock s i b l n c a e)]
      ∧ SameHead i s (routeExpert i b l n c a u e) := by
  have hcount := SameHead.count i u .nonFinite
    (((List.range n).map fun t => (t, a.getD (t * b.k + e) nanF)).length - (routeCand b n a e).length)
  rw [← candBlock_congr (hu.trans hcount)]
  unfold routeExpert
  refine ⟨?_, (hu.trans hcount).trans ((SameHead.modRun i _ _ ?_ ?_).trans (.onlyT0 i (coreWrite_only _ i _ _)))⟩
  · refine Wrote.trans (ps := []) (qs := [(_, _)]) (Wrote.trans (ps := []) (qs := []) (.count i u _ _) (.modRun i _ _ ?_)) (.coreWrite i _ _ _)
    exact fun _ => rfl
  · exact fun _ => rfl
  · exact fun _ => rfl

theorem count_cands (s : State) (i : Nat) (c : Ctr) (n : Nat) : ((s.count i c n).imp i).run.cands = (s.imp i).run.cands := by
  unfold State.count
  split
  · rfl
  · rw [State.imp_modRun_same]

theorem routeExpert_cands (i : Nat) (b : VectorBody) (l : ExpertLayer) (n c : Nat) (a : List F32) (s : State) (e : Nat) :
    ((routeExpert i b l n c a s e).imp i).run.cands =
      spPut 0 (s.imp i).run.cands (b.aux * 4096 + e) (routeCand b n a e).length := by
  unfold routeExpert
  rw [(coreWrite_only _ i _ _).imp, State.imp_modRun_same]
  show spPut 0 ((State.count _ _ _ _).imp i).run.cands _ _ = _
  rw [count_cands]

/-- After the first `n` experts each of them has its count. -/
theorem routeExpert_foldl_cands (i : Nat) (b : VectorBody) (l : ExpertLayer) (m c : Nat) (a : List F32) (s : State) (n e : Nat)
    (he : e < n) : spGet 0 (((List.range n).foldl (routeExpert i b l m c a) s).imp i).run.cands (b.aux * 4096 + e) =
      (routeCand b m a e).length := by
  induction n with
  | zero => omega
  | succ n ih =>
    rw [List.range_succ, List.foldl_append, List.foldl_cons, List.foldl_nil, routeExpert_cands]
    by_cases hn : e = n
    · subst hn; exact spGet_spPut_same _ _ _ _
    · rw [spGet_spPut_ne _ _ _ _ _ (by omega)]
      exact ih (by omega)

/-- The tokens that an expert layer chooses among (R262). -/
def domainSize (s : State) (i : Nat) (l : ExpertLayer) : Nat := if l.group then (s.imp i).run.nDom else (s.imp i).run.routed

section
variable {core : Fin 192} {job : Fin 8} {s : State} {i : Nat} {r : BitVec 512} {l : ExpertLayer}

theorem exec_routeLocal (h : s.ready core.val job.val 0x50 = some (i, r)) (hs : s.sound = true)
    (hl : s.expertLayer i (vectorBody r).aux = some l)
    (hr : s.readable i (vectorBody r).srcA (4 * (vectorBody r).n * (vectorBody r).k) = true) {n c : Nat} {a : List F32}
    (hn : n = min (vectorBody r).n (s.imp i).run.routed)
    (hc : c = capacity (vectorBody r).cap l.f (domainSize s i l) l.experts.length)
    (ha : a = f32s (memRead s.t0.bytes (vectorBody r).srcA (4 * (vectorBody r).n * (vectorBody r).k))) :
    ∃ t, exec (.routeLocal core job) s = .next t
      ∧ Wrote i s t ((List.range (vectorBody r).k).flatMap fun e =>
          [((vectorBody r).dst + e * candStride (vectorBody r).cap, candBlock s i (vectorBody r) l n c a e)])
      ∧ ∀ e, e < (vectorBody r).k →
          spGet 0 (t.imp i).run.cands ((vectorBody r).aux * 4096 + e) = (routeCand (vectorBody r) n a e).length := by
  have hhand := Wrote.handOver i s core.val job.val r
  have hread := (hhand.read hs hr).1
  have hx := hhand.trans (.coreRead i _ (vectorBody r).srcA (4 * (vectorBody r).n * (vectorBody r).k))
  have hhead : SameHead i s ((s.handOver core.val job.val r).coreRead i (vectorBody r).srcA
      (4 * (vectorBody r).n * (vectorBody r).k)).2.2 :=
    (SameHead.handOver i s _ _ r).trans (.onlyT0 i (coreRead_only _ i _ _))
  have hlh : (s.handOver core.val job.val r).expertLayer i (vectorBody r).aux = some l := hl
  have himp : (s.handOver core.val job.val r).imp i = s.imp i := rfl
  show ∃ t, execRouteLocal core job s = .next t ∧ _
  unfold execRouteLocal
  obtain ⟨t, ht, hall, honly, -⟩ := Wrote.command h (e := fun i r s =>
    let b := vectorBody r
    match s.expertLayer i b.aux with
    | none => s
    | some l =>
      let run := (s.imp i).run
      let n := min b.n run.routed
      let x := s.coreRead i b.srcA (4 * b.n * b.k)
      let a := f32s x.1
      let c := capacity b.cap l.f (if l.group then run.nDom else run.routed) l.experts.length
      (List.range b.k).foldl (routeExpert i b l n c a) x.2.2)
    (ps := (List.range (vectorBody r).k).flatMap fun e =>
      [((vectorBody r).dst + e * candStride (vectorBody r).cap, candBlock s i (vectorBody r) l n c a e)]) (by
      simp only [hlh, hread, himp, ← hn, ← ha]
      exact hx.trans (Wrote.foldl (P := SameHead i s) _ (fun u hu e _ => hc ▸ routeExpert_wrote hu _ l n _ a e) _ hhead).1)
  refine ⟨t, ht, hall, fun e he => ?_⟩
  rw [honly.imp]
  simp only [hlh, hread, himp, ← hn, ← ha]
  exact routeExpert_foldl_cands i _ l n _ a _ _ e he

/-! ROUTE_MERGE (R264, R267 to R269). -/

/-- The members of a CANDIDATES block of `bytes`, with its source. -/
def candList (cap : Nat) (bs : List Byte) : Nat × List (F32 × Nat) :=
  let h := BlockHead.ofBytes bs
  (h.source, (List.range (min h.count cap)).map fun j =>
    let f := fun o n => ofLeBytes ((bs.drop (64 + 8 * j + o)).take n)
    ((BitVec.ofNat 32 (f 0 4) : F32), f 4 2))

/-- The members of all blocks that capacity takes, by source and the index there, each with its replica. -/
def mergePicks (blocks : List (Nat × List (F32 × Nat))) (c reps : Nat) : List (Nat × Nat × Nat) :=
  let all := blocks.flatMap fun p => p.2.map fun q => (q.1, p.1, q.2)
  let rank := sortBy (fun p q => affGt p.1 q.1 || (eqF p.1 q.1 &&
    (decide (p.2.1 < q.2.1) || (p.2.1 == q.2.1 && decide (p.2.2 < q.2.2))))) all
  let taken := sortBy (fun p q => decide (p.2.1 < q.2.1) || (p.2.1 == q.2.1 && decide (p.2.2 < q.2.2))) (rank.take c)
  taken.zipIdx.map fun p => (p.1.2.1, p.1.2.2, p.2 % reps)

/-- The picks of one source. -/
def picksOf (picks : List (Nat × Nat × Nat)) (source : Nat) : List (Nat × Nat × Nat) := picks.filter fun q => q.1 == source

/-- The PICKS block for a source. -/
def picksBlock (s : State) (i layer e : Nat) (picks : List (Nat × Nat × Nat)) (source : Nat) : List Byte :=
  (s.blockHead i 0x12 layer e 0xFF (picksOf picks source).length source).bytes
    ++ (picksOf picks source).flatMap fun q => leBytes 4 (q.2.1 + q.2.2 * 65536)

theorem mergePicks_length (blocks : List (Nat × List (F32 × Nat))) (c reps : Nat) : (mergePicks blocks c reps).length ≤ c := by
  simp only [mergePicks, List.length_map, List.length_zipIdx, (sortBy_perm _ _).length_eq, List.length_take]
  exact Nat.min_le_left _ _

theorem picksOf_length (blocks : List (Nat × List (F32 × Nat))) (c reps source : Nat) :
    (picksOf (mergePicks blocks c reps) source).length ≤ c :=
  (List.length_filter_le _ _).trans (mergePicks_length blocks c reps)

theorem picksBlock_length (s : State) (i layer e : Nat) (picks : List (Nat × Nat × Nat)) (source : Nat) :
    (picksBlock s i layer e picks source).length = 64 + 4 * (picksOf picks source).length := by
  rw [picksBlock, List.length_append, BlockHead.bytes_length, length_flatMap_const (w := 4) fun p => length_leBytes 4 _]

/-- The source of a block that is read from T0. -/
theorem source_memRead (m : Sp Byte) (a : Nat) {n : Nat} (h : 40 ≤ n) :
    (BlockHead.ofBytes (memRead m a n)).source = ofLeBytes (memRead m (a + 36) 4) := by
  show ofLeBytes (((memRead m a n).drop 36).take 4) = _
  rw [memRead_part _ _ (by omega)]

/-- The blocks that ROUTE_MERGE reads. -/
def mergeBlocks (s : State) (b : VectorBody) : List (Nat × List (F32 × Nat)) :=
  (List.range b.k).map fun k => candList b.cap (memRead s.t0.bytes (b.srcA + k * candStride b.cap) (candStride b.cap))

theorem picksBlock_congr {i : Nat} {s t : State} (h : SameHead i s t) (layer e : Nat) (picks : List (Nat × Nat × Nat))
    (source : Nat) : picksBlock t i layer e picks source = picksBlock s i layer e picks source := by
  unfold picksBlock
  rw [h.blockHead]

theorem mergeStep_wrote {i : Nat} {s u : State} (hu : SameHead i s u) (layer e : Nat) (picks : List (Nat × Nat × Nat))
    (at_ source : Nat) : Wrote i u (u.coreWrite i at_ (picksBlock u i layer e picks source)).2 [(at_, picksBlock s i layer e picks source)]
      ∧ SameHead i s (u.coreWrite i at_ (picksBlock u i layer e picks source)).2 := by
  refine ⟨?_, hu.trans (.coreWrite i u _ _)⟩
  rw [← picksBlock_congr hu]
  exact .coreWrite i u _ _

theorem candStride_ge (cap : Nat) : 64 + 8 * cap ≤ candStride cap := by
  unfold candStride roundUp ceilDiv
  omega

theorem header_le_candStride (cap : Nat) : 40 ≤ candStride cap := by
  have := candStride_ge cap
  omega

theorem picksStride_ge (cap : Nat) : 64 + 4 * cap ≤ picksStride cap := by
  unfold picksStride roundUp ceilDiv
  omega

/-- ROUTE_MERGE's effect, by its parts. -/
def mergeEffect (i : Nat) (r : BitVec 512) (s : State) : State :=
  let b := vectorBody r
  let layer := b.aux % 65536
  let e := b.aux / 65536
  match s.expertLayer i layer with
  | none => s
  | some l =>
    let reps := ((l.experts[e]?).map fun p => p.replicas.length).getD 1
    let x := s.coreRead i b.srcA (b.k * candStride b.cap)
    let blocks := (List.range b.k).map fun k => candList b.cap ((x.1.drop (k * candStride b.cap)).take (candStride b.cap))
    let c := capacity b.cap l.f (domainSize s i l) l.experts.length
    let picks := mergePicks blocks c reps
    blocks.zipIdx.foldl (fun s p =>
      (s.coreWrite i (b.dst + p.2 * picksStride b.cap) (picksBlock s i layer e picks p.1.1)).2) x.2.2

theorem execRouteMerge_eq (core : Fin 192) (job : Fin 8) (s : State) :
    exec (.routeMerge core job) s = s.command core.val job.val 0x51 mergeEffect := by
  show execRouteMerge core job s = _
  unfold execRouteMerge mergeEffect mergePicks candList picksBlock picksOf domainSize
  rfl

theorem exec_routeMerge (h : s.ready core.val job.val 0x51 = some (i, r)) (hs : s.sound = true)
    (hl : s.expertLayer i ((vectorBody r).aux % 65536) = some l)
    (hr : s.readable i (vectorBody r).srcA ((vectorBody r).k * candStride (vectorBody r).cap) = true) :
    ∃ reps t, exec (.routeMerge core job) s = .next t
      ∧ Wrote i s t ((List.range (vectorBody r).k).flatMap fun k =>
          [((vectorBody r).dst + k * picksStride (vectorBody r).cap,
            picksBlock s i ((vectorBody r).aux % 65536) ((vectorBody r).aux / 65536)
              (mergePicks (mergeBlocks s (vectorBody r))
                (capacity (vectorBody r).cap l.f (domainSize s i l) l.experts.length) reps)
              (BlockHead.ofBytes (memRead s.t0.bytes ((vectorBody r).srcA + k * candStride (vectorBody r).cap) 64)).source)]) := by
  have hhand := Wrote.handOver i s core.val job.val r
  have hread := (hhand.read hs hr).1
  have hx := hhand.trans (.coreRead i _ (vectorBody r).srcA ((vectorBody r).k * candStride (vectorBody r).cap))
  have hhead : SameHead i s ((s.handOver core.val job.val r).coreRead i (vectorBody r).srcA
      ((vectorBody r).k * candStride (vectorBody r).cap)).2.2 :=
    (SameHead.handOver i s _ _ r).trans (.onlyT0 i (coreRead_only _ i _ _))
  have hlh : (s.handOver core.val job.val r).expertLayer i ((vectorBody r).aux % 65536) = some l := hl
  have himp : (s.handOver core.val job.val r).imp i = s.imp i := rfl
  have hblocks : ((List.range (vectorBody r).k).map fun k => candList (vectorBody r).cap
      (((memRead s.t0.bytes (vectorBody r).srcA ((vectorBody r).k * candStride (vectorBody r).cap)).drop
        (k * candStride (vectorBody r).cap)).take (candStride (vectorBody r).cap))) = mergeBlocks s (vectorBody r) := by
    refine List.map_congr_left fun k hk => ?_
    rw [memRead_part]
    rw [← Nat.succ_mul]
    exact Nat.mul_le_mul_right _ (List.mem_range.mp hk)
  refine ⟨((l.experts[(vectorBody r).aux / 65536]?).map fun p => p.replicas.length).getD 1, ?_⟩
  obtain ⟨t, ht, hall, -⟩ := Wrote.command h (e := mergeEffect)
    (ps := (mergeBlocks s (vectorBody r)).zipIdx.flatMap fun p => [((vectorBody r).dst + p.2 * picksStride (vectorBody r).cap,
      picksBlock s i ((vectorBody r).aux % 65536) ((vectorBody r).aux / 65536)
        (mergePicks (mergeBlocks s (vectorBody r)) (capacity (vectorBody r).cap l.f (domainSize s i l) l.experts.length)
          (((l.experts[(vectorBody r).aux / 65536]?).map fun p => p.replicas.length).getD 1)) p.1.1)]) (by
      have hdom : domainSize (s.handOver core.val job.val r) i l = domainSize s i l := rfl
      simp only [mergeEffect, hlh, hread, hdom, hblocks]
      refine Wrote.trans (ps := []) hx (Wrote.foldl (P := SameHead i s) _ (fun u hu p _ => ?_) _ hhead).1
      exact mergeStep_wrote hu _ _ _ _ _)
  refine ⟨t, (execRouteMerge_eq core job s).trans ht, ?_⟩
  rw [mergeBlocks, zipIdx_map_range, List.flatMap_map] at hall
  refine cast (congrArg (Wrote i s t) (List.flatMap_congr fun k _ => ?_)) hall
  have hsrc : (candList (vectorBody r).cap (memRead s.t0.bytes ((vectorBody r).srcA + k * candStride (vectorBody r).cap)
      (candStride (vectorBody r).cap))).1 =
      (BlockHead.ofBytes (memRead s.t0.bytes ((vectorBody r).srcA + k * candStride (vectorBody r).cap) 64)).source := by
    rw [source_memRead _ _ (by decide)]
    exact source_memRead _ _ (header_le_candStride _)
  rw [hsrc]
  rfl

end

/-! IMPOSE (R281, R283). -/

/-- A ready command brings about what its effect does, where only T0 and the reports can change after it. -/
theorem command_effect {s : State} {core job op i : Nat} {r : BitVec 512} (h : s.ready core job op = some (i, r))
    {e : Nat → BitVec 512 → State → State} {P : State → Prop} (hP : ∀ u v, OnlyT0 u v → v.t0 = u.t0 → P u → P v)
    (he : P (e i r (s.handOver core job r))) : ∃ t, s.command core job op e = .next t ∧ P t := by
  obtain ⟨t, ht, honly, ht0⟩ := command_next h e
  exact ⟨t, ht, hP _ _ honly ht0 he⟩

theorem Wrote.after {i : Nat} {s u v : State} {ps : List (Nat × List Byte)} (h : Wrote i s u ps) (ho : OnlyT0 u v) (h0 : v.t0 = u.t0) :
    Wrote i s v ps := by
  simpa using h.trans (.of_t0 (.of_imp (ho.imp i) (by rw [ho])) h0)

/-- From the picks that a core held, those of one layer have grown by picks of one kind. -/
structure PicksGrow (x : Core) (layer : Nat) (ok : Pick → Prop) (y : Core) : Prop where
  others : ∀ k, k ≠ layer → spGet [] y.picks k = spGet [] x.picks k
  own : ∃ ps, spGet [] y.picks layer = spGet [] x.picks layer ++ ps ∧ ∀ p ∈ ps, ok p

theorem PicksGrow.refl (x : Core) (layer : Nat) (ok : Pick → Prop) : PicksGrow x layer ok x :=
  ⟨fun _ _ => rfl, [], by simp⟩

theorem PicksGrow.append {x y : Core} {layer : Nat} {ok : Pick → Prop} (h : PicksGrow x layer ok y) {recs : List Pick}
    (hr : ∀ p ∈ recs, ok p) (sent : Sp (List Nat)) :
    PicksGrow x layer ok { y with picks := spMod [] y.picks layer fun old => old ++ recs, sent := sent } := by
  obtain ⟨ps, hps, hok⟩ := h.own
  refine ⟨fun k hk => ?_, ps ++ recs, ?_, fun p hp => ?_⟩
  · exact (spGet_spMod_ne [] y.picks layer k (fun old => old ++ recs) hk).trans (h.others k hk)
  · show spGet [] (spMod [] y.picks layer fun old => old ++ recs) layer = _
    rw [spGet_spMod_same, hps, List.append_assoc]
  · rcases List.mem_append.mp hp with hp | hp
    · exact hok p hp
    · exact hr p hp

/-- A pick that a layer's experts have room for. -/
def PickFits (l : ExpertLayer) (routed : Nat) (p : Pick) : Prop :=
  p.li < routed ∧ p.replica < (((l.experts[p.expert]?).map (·.replicas)).getD []).length

theorem handOver_picks (s : State) (core job : Nat) (r : BitVec 512) :
    ((s.handOver core job r).core core).picks = (s.core core).picks := by
  rw [State.handOver, State.core_modCore_same]
  rfl

section
variable {core : Fin 192} {job : Fin 8} {s : State} {i : Nat} {r : BitVec 512} {l : ExpertLayer}

theorem exec_impose (h : s.ready core.val job.val 0x52 = some (i, r)) (hs : s.sound = true)
    (hr : s.readable i (vectorBody r).srcA 64 = true)
    (hl : s.expertLayer i (BlockHead.ofBytes (memRead s.t0.bytes (vectorBody r).srcA 64)).layer = some l) :
    ∃ t, exec (.impose core job) s = .next t
      ∧ PicksGrow (s.core core.val) (BlockHead.ofBytes (memRead s.t0.bytes (vectorBody r).srcA 64)).layer
          (PickFits l (s.imp i).run.routed) (t.core core.val) := by
  have hread := ((Wrote.handOver i s core.val job.val r).read hs hr).1
  have hstart : PicksGrow (s.core core.val) (BlockHead.ofBytes (memRead s.t0.bytes (vectorBody r).srcA 64)).layer
      (PickFits l (s.imp i).run.routed) ((s.handOver core.val job.val r).core core.val) :=
    ⟨fun k _ => by rw [handOver_picks], [], by simp [handOver_picks]⟩
  show ∃ t, execImpose core job s = .next t ∧ _
  unfold execImpose
  refine command_effect h (fun u v huv _ hu => by rwa [huv.core]) ?_
  extract_lets b h0 layer run
  have hlayer : layer = (BlockHead.ofBytes (memRead s.t0.bytes (vectorBody r).srcA 64)).layer := by rw [← hread]
  have hl' : h0.2.2.expertLayer i layer = some l := by
    rw [← hl, hlayer]
    unfold State.expertLayer State.placement State.cfg
    rw [(coreRead_only _ i _ _).imp]
    rfl
  have hrun : run = (s.imp i).run := rfl
  rw [← hlayer, ← hrun] at hstart ⊢
  split
  next hnone => rw [hl'] at hnone; cases hnone
  next l1 hl1 =>
  obtain rfl : l = l1 := by rw [hl'] at hl1; exact Option.some.inj hl1
  extract_lets cap nb nE x g a out
  refine List.foldlRecOn (motive := fun acc : State × Nat => PicksGrow (s.core core.val) _ (PickFits l run.routed)
    (acc.1.core core.val)) _ _ ?_ fun acc hacc k _ => ?_
  · show PicksGrow _ _ _ (g.2.2.core core.val)
    rw [(coreRead_only _ i _ _).core, (coreRead_only _ i _ _).core, (coreRead_only _ i _ _).core]
    exact hstart
  · extract_lets s0 bs hd e reps entries okBody s1 good s2 s3 s4
    have h1 : s1.cores = s0.cores := by
      show (if okBody = true then s0 else _).cores = _
      exact (Aside.ite (.refl i s0) (.foldl (fun u n => .hurtSlot i u n 0x0300) _ s0)).cores
    have h3 : s3.core core.val = acc.1.core core.val := by
      have h2 : s2.cores = s1.cores := (Aside.count i s1 _ _).cores
      have h3 : s3.cores = s2.cores := (Aside.count i s2 _ _).cores
      unfold State.core
      rw [h3, h2, h1]
    have hgood : ∀ p ∈ good, p.1 < run.routed := by
      intro p hp
      have hg : good = if okBody = true then entries else [] := rfl
      rw [hg] at hp
      split at hp
      next hok =>
        have hb : okBody = (entries.all (fun p => decide (p.1 < run.routed) && decide (p.2 < reps.length))
          && ascending (entries.map (·.1))) := rfl
        rw [hb, Bool.and_eq_true, List.all_eq_true] at hok
        simpa using (Bool.and_eq_true_iff.mp (hok.1 p hp)).1
      next => cases hp
    refine List.foldlRecOn (motive := fun u : State => PicksGrow (s.core core.val) _ (PickFits l run.routed) (u.core core.val)) _ _
      (h3 ▸ hacc) fun u hu q hq => ?_
    extract_lets mine rowB dest hdr s5 recs
    rw [State.core_modCore_same, (coreWrite_only u i _ _).core]
    refine hu.append (fun p hp => ?_) _
    obtain ⟨y, hy, rfl⟩ := List.mem_map.mp hp
    have hmine : y.1 ∈ mine := List.fst_mem_of_mem_zipIdx hy
    obtain ⟨z, hz, hzy⟩ := List.mem_map.mp hmine
    exact ⟨by show y.1 < _; rw [← hzy]; exact hgood z (List.mem_filter.mp hz).1, List.mem_range.mp hq⟩

/-! COLLATE (R281 to R285). -/

/-- Tokens without a pick have no gates, and their sums are zero. -/
theorem gatesOf_nil (taken : Bool) : gatesOf taken [] = ([], false) := by
  simp [gatesOf]

theorem exec_collate (h : s.ready core.val job.val 0x53 = some (i, r)) (hs : s.sound = true)
    (hr : s.readable i (vectorBody r).srcA 64 = true)
    (hl : s.expertLayer i (BlockHead.ofBytes (memRead s.t0.bytes (vectorBody r).srcA 64)).layer = some l)
    (hp : spGet [] (s.core core.val).picks (BlockHead.ofBytes (memRead s.t0.bytes (vectorBody r).srcA 64)).layer = [])
    (hf : s.freshBlock i (vectorBody r).dst = none) (hrt : s.runtimeAt i (vectorBody r).dst = none) (ho : l.outScale = .none) :
    ∃ t, exec (.collate core job) s = .next t
      ∧ Wrote i s t [((vectorBody r).dst,
          resultBytes l.outFmt (List.replicate (vectorBody r).n (List.replicate (vectorBody r).aux (zeroF false))))] := by
  have hhand := Wrote.handOver i s core.val job.val r
  have hread := (hhand.read hs hr).1
  have hfh := handOver_freshBlock_none hf core.val job.val r
  have hph := handOver_picks s core.val job.val r
  show ∃ t, execCollate core job s = .next t ∧ _
  unfold execCollate
  refine command_effect h (fun u v huv h0 hu => hu.after huv h0) ?_
  extract_lets b h0 layer d
  have hlayer : layer = (BlockHead.ofBytes (memRead s.t0.bytes (vectorBody r).srcA 64)).layer := by rw [← hread]
  have hl' : h0.2.2.expertLayer i layer = some l := by
    rw [← hl, hlayer]
    unfold State.expertLayer State.placement State.cfg
    rw [(coreRead_only _ i _ _).imp]
    rfl
  split
  next hnone => rw [hl'] at hnone; cases hnone
  next l1 hl1 =>
  obtain rfl : l = l1 := by rw [hl'] at hl1; exact Option.some.inj hl1
  extract_lets rowB places got s1 ts s2 recs toks s3 out1 out2
  have h1 : Aside i (s.handOver core.val job.val r) s1 := by
    refine List.foldlRecOn (motive := fun acc : List ReturnBlock × Nat × State =>
      Aside i (s.handOver core.val job.val r) acc.2.2) _ _ (.coreRead i _ _ _) fun acc hacc p _ => ?_
    extract_lets sz x bs u hd n u16 lis sts base rows sent okBody u2 blk
    have hx : Aside i acc.2.2 u := .coreRead i _ _ _
    have hu2 : Aside i u u2 := .ite (.refl i u) (.foldl (fun v n => .hurtSlot i v n 0x0300) _ u)
    exact (hacc.trans hx).trans hu2
  have h2 : Aside i s1 s2 := by
    refine .foldl (fun u k => .foldl (fun u p => .ite (.refl i u) ?_) _ u) _ s1
    cases ts[p.1]? with
    | none => exact .refl i u
    | some t => exact .modRun i u _ fun _ => rfl
  have h3 : Aside i s2 s3 := .count i s2 _ _
  have h13 := (h1.trans h2).trans h3
  have hrecs : recs = [] := by
    show spGet [] (s2.core core.val).picks layer = []
    rw [(h1.trans h2).core, hph, hlayer]
    exact hp
  have htoks : toks = List.replicate (min b.n (s2.imp i).run.routed) ([], false) := by
    show (List.range _).map _ = _
    rw [hrecs]
    exact List.eq_replicate_iff.mpr ⟨by simp, fun x hx => by
      obtain ⟨k, -, rfl⟩ := List.mem_map.mp hx
      exact gatesOf_nil _⟩
  have hout : out2 = List.replicate b.n (List.replicate d (zeroF false)) := by
    show toks.map _ ++ List.replicate (b.n - (toks.map _).length) _ = _
    rw [htoks]
    simp only [List.map_replicate, List.length_replicate, List.foldl_nil, List.map_const', List.length_range,
      List.replicate_append_replicate]
    rw [show min b.n (s2.imp i).run.routed + (b.n - min b.n (s2.imp i).run.routed) = b.n by omega]
  rw [hout, ho]
  exact Wrote.trans (ps := []) (hhand.trans h13.wrote)
    (Wrote.writeOut (h13.freshBlock_none hfh) (h13.runtimeAt.trans hrt) _ _ _)

end

theorem resultBytes_replicate (f : Elem) (n : Nat) (x : List F32) :
    resultBytes f (List.replicate n x) = (List.range n).flatMap fun _ => packRow f (quantRow f .none x).1 := by
  unfold resultBytes
  rw [List.flatMap_def, List.flatMap_def, List.map_replicate, List.map_const', List.length_range]

theorem routeCand_length (b : VectorBody) (n : Nat) (a : List F32) (e : Nat) :
    (routeCand b n a e).length = ((List.range n).filter fun k => isFin (a.getD (k * b.k + e) nanF)).length := by
  rw [routeCand, List.filter_map, List.length_map]
  rfl

theorem capacity_le (cap f n e : Nat) : capacity cap f n e ≤ cap := Nat.min_le_left _ _

theorem candBlock_fits (s : State) (i : Nat) (b : VectorBody) (l : ExpertLayer) (n c : Nat) (a : List F32) (e : Nat) (hc : c ≤ b.cap) :
    (candBlock s i b l n c a e).length ≤ candStride b.cap := by
  rw [candBlock_length, routeRanked_length]
  have := candStride_ge b.cap
  omega

theorem picksBlock_fits (s : State) (i layer e : Nat) (blocks : List (Nat × List (F32 × Nat))) {c cap : Nat} (reps source : Nat)
    (hc : c ≤ cap) : (picksBlock s i layer e (mergePicks blocks c reps) source).length ≤ picksStride cap := by
  rw [picksBlock_length]
  have := picksStride_ge cap
  have := picksOf_length blocks c reps source
  omega

/-- Settles O23: each command's blocks and results stand where they were written, and its picks and counts are those of its operands. -/
theorem imposerRoutesAndBuilds : Obligations.ImposerRoutesAndBuilds := by
  unfold Obligations.ImposerRoutesAndBuilds
  intro core job s i r hs b
  refine ⟨fun h hk hr hb hw => ?segreduce, fun l h hl hr => ?routeLocal, fun l h hl hr hw => ?routeMerge,
    fun l h hr hl => ?impose, fun l h hr hl hp hf hrt ho => ?collate, fun fs h hfs hr => ?fontBuild⟩
  case segreduce =>
    intro xs starts
    obtain ⟨t, ht, hwrote⟩ := exec_segreduce h hs hk hr hb
    obtain ⟨hholds, hout⟩ := hwrote.single hs
    rw [segSums_length] at hholds hout
    refine ⟨t, ht, hout, fun k hk => ?_⟩
    have hpart := holds_flatMap (w := 4) (fun j => length_leBytes 4 _) (hholds hw) (k := k) (by simpa using hk)
    rw [hpart, ofLeBytes_leBytes, List.getElem_range]
    exact Nat.mod_mod _ _
  case routeLocal =>
    intro a finite c home
    obtain ⟨t, ht, hwrote, hcands⟩ := exec_routeLocal h hs hl hr rfl rfl rfl
    obtain ⟨hholds, hout⟩ := hwrote.blocks (fun e => candBlock_fits _ _ _ _ _ _ _ _ (capacity_le _ _ _ _)) hs
    refine ⟨t, ht, fun e he => (hcands e he).trans (routeCand_length _ _ _ _), fun hm e he => ?_, hout⟩
    have := holds_append_left (hholds e he (by rw [candBlock_length]; omega) hm)
    rwa [routeRanked_length] at this
  case routeMerge =>
    obtain ⟨reps, t, ht, hwrote⟩ := exec_routeMerge h hs hl hr
    obtain ⟨hholds, hout⟩ := hwrote.blocks (fun k => picksBlock_fits _ _ _ _ _ _ _ (capacity_le _ _ _ _)) hs
    refine ⟨t, (List.range b.k).map fun k => (picksOf (mergePicks (mergeBlocks s b)
      (capacity b.cap l.f (domainSize s i l) l.experts.length) reps)
      (BlockHead.ofBytes (memRead s.t0.bytes (b.srcA + k * candStride b.cap) 64)).source).length, ht, by simp, fun n hn => ?_,
      fun k hk => ?_, hout⟩
    · obtain ⟨k, -, rfl⟩ := List.mem_map.mp hn
      exact picksOf_length _ _ _ _
    · have := holds_append_left (hholds k hk (by rw [picksBlock_length]; omega) hw)
      simpa [hk] using this
  case impose =>
    obtain ⟨t, ht, hgrow⟩ := exec_impose h hs hr hl
    exact ⟨t, ht, hgrow.others, hgrow.own⟩
  case collate =>
    intro bs hw
    obtain ⟨t, ht, hwrote⟩ := exec_collate h hs hr hl hp hf hrt ho
    rw [resultBytes_replicate] at hwrote
    obtain ⟨hholds, hout⟩ := hwrote.single hs
    exact ⟨t, ht, hholds hw, hout⟩
  case fontBuild =>
    intro font
    obtain ⟨t, ht, hwrote, hslots, hbuilt⟩ := exec_fontBuild h hs hfs hr
    obtain ⟨hholds, hout⟩ := hwrote.single hs
    exact ⟨t, ht, by rw [hslots]; exact spGet_spPut_same _ _ _ _, by rw [hbuilt]; exact spGet_spPut_same _ _ _ _, hholds, hout⟩

end Sys2Proof.Machine
end

section
/-!
Chase within the package (R235, R237, R276, R281, R282, R309): what it moves in T0.
-/
namespace Sys2Proof.Machine

open Sys2Proof

/-! Reads and writes of Chase outside bays. -/

/-- Of two states, what Chase asks of an imprint and of the package is the same. -/
structure Carries (i : Nat) (s t : State) : Prop where
  imp : t.imp i = s.imp i
  fab : t.fab = s.fab
  ed : t.ed = s.ed

theorem Carries.refl (i : Nat) (s : State) : Carries i s s := ⟨rfl, rfl, rfl⟩

theorem Carries.trans {i : Nat} {s t u : State} (h : Carries i s t) (g : Carries i t u) : Carries i s u :=
  ⟨g.imp.trans h.imp, g.fab.trans h.fab, g.ed.trans h.ed⟩

theorem Carries.onlyT0 {s t : State} (i : Nat) (h : OnlyT0 s t) : Carries i s t := ⟨h.imp i, h.fab, by rw [h]⟩

theorem Carries.handOver (i : Nat) (s : State) (core job : Nat) (r : BitVec 512) : Carries i s (s.handOver core job r) :=
  ⟨rfl, rfl, rfl⟩

theorem Carries.rights {i : Nat} {s t : State} (h : Carries i s t) : SameRights i s t := .of_imp h.imp h.ed

/-- Of two states, the bays of an imprint stand at the same places. -/
structure SameBays (i : Nat) (s t : State) : Prop where
  cfg : (t.imp i).cfg = (s.imp i).cfg
  placement : (t.imp i).serve.placement = (s.imp i).serve.placement
  endpoint : t.fab.endpoint = s.fab.endpoint
  ed : t.ed = s.ed

theorem SameBays.bayAt {i : Nat} {s t : State} (h : SameBays i s t) (a : Nat) : t.bayAt i a = s.bayAt i a := by
  have hp : t.placement i = s.placement i := by
    unfold State.placement State.cfg
    rw [h.placement, h.cfg]
  have hl : t.lockSet i = s.lockSet i := by
    unfold State.lockSet State.topology
    rw [h.cfg, h.endpoint, h.ed]
  unfold State.bayAt State.baySlotAt State.baySlots
  rw [hp, hl, h.endpoint]

theorem Carries.sameBays {i : Nat} {s t : State} (h : Carries i s t) : SameBays i s t :=
  ⟨by rw [h.imp], by rw [h.imp], by rw [h.fab], h.ed⟩

theorem Eff.sameBays {op core i : Nat} {s t : State} (h : Eff op core i s t) : SameBays i s t := by
  have hp : (t.imp i).serve.placement = (s.imp i).serve.placement := by
    have := h.own
    unfold Imprint.sameBut at this
    rw [this]
  exact ⟨h.own.cfg, hp, by rw [h.rest], by rw [h.rest]⟩

theorem chasePut_plain {s : State} {i a : Nat} (h : s.bayAt i a = none) (bs : List Byte) :
    s.chasePut i a bs = (s.coreWrite i a bs).2 := by
  unfold State.chasePut
  rw [h]

/-- Of no row that Chase reads does a DISPATCH block fail its check. -/
def CleanRead (s : State) (i a n : Nat) : Prop := ∀ l ∈ linesOf a n, s.badDispatch i (max a (256 * l)) = false

/-- A clean read with no spoiled rows noted is a plain one. -/
theorem chaseRead_clean {s : State} {i a n : Nat} (hb : (s.imp i).run.badRows = []) (hc : CleanRead s i a n) (dst : Nat) :
    s.chaseRead i a n dst = s.coreRead i a n := by
  have hbad : ((linesOf a n).filter fun l => s.badDispatch i (max a (256 * l))) = [] :=
    List.filter_eq_nil_iff.mpr fun l hl => by simp [hc l hl]
  have hmarks : ((s.coreRead i a n).2.2.imp i).run.badRows.isEmpty = true := by rw [(coreRead_only s i a n).imp, hb]; rfl
  unfold State.chaseRead
  simp only [hbad, List.isEmpty_nil, if_true, State.moveMarks, hmarks]

theorem stampReturn_length (s : State) (i a : Nat) (bs : List Byte) : (s.stampReturn i a bs).length = bs.length := by
  unfold State.stampReturn
  extract_lets h stride rows sts at_
  split
  · rfl
  · have hsts : (sts.flatMap (leBytes 2)).length = 2 * h.count := by
      rw [length_flatMap_const (length_leBytes 2), List.length_map, List.length_range]
    simp only [List.length_append, List.length_take, List.length_drop, hsts]
    omega

/-- One row that Chase moves: read at `a`, written at `d`. -/
theorem Wrote.move {i : Nat} {s u : State} {a d n : Nat} (hu : Carries i s u) (hus : u.sound = true)
    (hbad : (s.imp i).run.badRows = []) (hclean : CleanRead u i a n) (hr : s.readable i a n = true) (hbay : s.bayAt i d = none)
    (hsrc : memRead u.t0.bytes a n = memRead s.t0.bytes a n) :
    (u.chaseRead i a n d).1 = memRead s.t0.bytes a n ∧ (u.chaseRead i a n d).2.1 = true
      ∧ Wrote i u ((u.chaseRead i a n d).2.2.chasePut i d (memRead s.t0.bytes a n)) [(d, memRead s.t0.bytes a n)]
      ∧ Carries i s ((u.chaseRead i a n d).2.2.chasePut i d (memRead s.t0.bytes a n)) := by
  rw [chaseRead_clean (by rw [hu.imp]; exact hbad) hclean]
  obtain ⟨hread, hin⟩ := coreRead_sound u i a n hus (by rw [hu.rights.readable]; exact hr)
  have hcar : Carries i s (u.coreRead i a n).2.2 := hu.trans (.onlyT0 i (coreRead_only u i a n))
  rw [chasePut_plain (hcar.sameBays.bayAt d ▸ hbay)]
  exact ⟨hread.trans hsrc, hin, Wrote.trans (ps := []) (.coreRead i u a n) (.coreWrite i _ d _),
    hcar.trans (.onlyT0 i (coreWrite_only _ i d _))⟩

/-! COPY. -/

/-- The u16 index list of a Chase command (R274; log 39). -/
def chaseIndex (s : State) (core : Nat) (b : ChaseBody) : List Nat :=
  (chunks 2 (memRead s.t0.bytes (t0Addr core b.index) (2 * b.count))).map ofLeBytes

theorem chaseIndex_length (s : State) (core : Nat) (b : ChaseBody) : (chaseIndex s core b).length = b.count := by
  rw [chaseIndex, chunks_memRead (by decide), List.length_map, List.length_map, List.length_range]

theorem zipIdx_chaseIndex (s : State) (c : Nat) (b : ChaseBody) :
    (chaseIndex s c b).zipIdx = (List.range b.count).map fun k => ((chaseIndex s c b).getD k 0, k) :=
  List.ext_getElem (by simp [chaseIndex_length]) fun k h1 h2 => by
    have hk : k < (chaseIndex s c b).length := by simpa using h1
    simp [hk]

theorem chaseIndex_getD_mem (s : State) (c : Nat) (b : ChaseBody) {k : Nat} (hk : k < b.count) :
    (chaseIndex s c b).getD k 0 ∈ chaseIndex s c b := by
  rw [← chaseIndex_length s c b] at hk
  rw [List.getD_eq_getElem _ _ hk]
  exact List.getElem_mem hk

theorem memRead_sameOutside {s t : State} {a n d m : Nat} (h : s.sameOutside t d m) (hd : a + n ≤ d ∨ d + m ≤ a) :
    memRead t.t0.bytes a n = memRead s.t0.bytes a n := by
  rw [memRead_byteAt, memRead_byteAt]
  exact List.map_congr_left fun k hk => h (a + k) (by have := List.mem_range.mp hk; omega)

section
variable {core : Fin 192} {job : Fin 8} {s : State} {i : Nat} {r : BitVec 512}

theorem exec_chaseCopy (h : s.ready core.val job.val 0x60 = some (i, r)) (hs : s.sound = true) (hbad : (s.imp i).run.badRows = [])
    (hbay : s.bayAt i (chaseBody r).dst = none) (hr : s.readable i (chaseBody r).src (chaseBody r).bytes = true)
    (hclean : CleanRead s i (chaseBody r).src (chaseBody r).bytes) :
    ∃ t, exec (.chaseCopy core job) s = .next t
      ∧ Wrote i s t [((chaseBody r).dst,
          s.stampReturn i (chaseBody r).src (memRead s.t0.bytes (chaseBody r).src (chaseBody r).bytes))] := by
  have hhand := Wrote.handOver i s core.val job.val r
  have hcar := Carries.handOver i s core.val job.val r
  obtain ⟨hread, -⟩ := hhand.read hs hr
  have hplain := chaseRead_clean (s := s.handOver core.val job.val r) (i := i) hbad hclean (chaseBody r).dst
  show ∃ t, execChaseCopy core job s = .next t ∧ _
  unfold execChaseCopy
  refine command_effect h (fun u v huv h0 hu => hu.after huv h0) ?_
  extract_lets b x
  have hx : x = (s.handOver core.val job.val r).coreRead i b.src b.bytes := hplain
  have hxc : Carries i s x.2.2 := by rw [hx]; exact hcar.trans (.onlyT0 i (coreRead_only _ i _ _))
  rw [chasePut_plain (hxc.sameBays.bayAt b.dst ▸ hbay), hx, hread]
  exact Wrote.trans (ps := []) (Wrote.trans (ps := []) (qs := []) hhand (.coreRead i _ _ _)) (.coreWrite i _ _ _)

theorem exec_chaseGather (h : s.ready core.val job.val 0x61 = some (i, r)) (hs : s.sound = true) (hbad : (s.imp i).run.badRows = [])
    (hr : s.readable i (t0Addr core.val (chaseBody r).index) (2 * (chaseBody r).count) = true)
    (hrow : ∀ k, k < (chaseBody r).count →
      s.bayAt i ((chaseBody r).dst + k * (chaseBody r).bytes) = none
        ∧ s.readable i ((chaseBody r).src + (chaseIndex s core.val (chaseBody r)).getD k 0 * (chaseBody r).bytes) (chaseBody r).bytes
            = true
        ∧ (∀ u : State, u.imp i = s.imp i → s.sameOutside u (chaseBody r).dst ((chaseBody r).count * (chaseBody r).bytes) →
            CleanRead u i ((chaseBody r).src + (chaseIndex s core.val (chaseBody r)).getD k 0 * (chaseBody r).bytes)
              (chaseBody r).bytes)
        ∧ ((chaseBody r).src + (chaseIndex s core.val (chaseBody r)).getD k 0 * (chaseBody r).bytes + (chaseBody r).bytes ≤
            (chaseBody r).dst ∨ (chaseBody r).dst + (chaseBody r).count * (chaseBody r).bytes ≤
            (chaseBody r).src + (chaseIndex s core.val (chaseBody r)).getD k 0 * (chaseBody r).bytes)) :
    ∃ t, exec (.chaseGather core job) s = .next t
      ∧ Wrote i s t ((List.range (chaseBody r).count).flatMap fun k => [((chaseBody r).dst + k * (chaseBody r).bytes,
          memRead s.t0.bytes ((chaseBody r).src + (chaseIndex s core.val (chaseBody r)).getD k 0 * (chaseBody r).bytes)
            (chaseBody r).bytes)]) := by
  have hhand := Wrote.handOver i s core.val job.val r
  have hread := (hhand.read hs hr).1
  show ∃ t, execChaseGather core job s = .next t ∧ _
  unfold execChaseGather
  refine command_effect h (fun u v huv h0 hu => hu.after huv h0) ?_
  extract_lets b l
  rw [show chaseBody r = b from rfl] at hrow hread ⊢
  have hl : l.1 = chaseIndex s core.val b := by show (chunks 2 _).map ofLeBytes = _; rw [hread]; rfl
  have hl2 : Wrote i s l.2 [] := Wrote.trans (ps := []) (qs := []) hhand (.coreRead i _ _ _)
  have hc2 : Carries i s l.2 := (Carries.handOver i s _ _ r).trans (.onlyT0 i (coreRead_only _ i _ _))
  rw [hl, zipIdx_chaseIndex, List.foldl_map]
  refine Wrote.trans (ps := []) hl2 (Wrote.foldl
    (P := fun u => Carries i s u ∧ s.sameOutside u b.dst (b.count * b.bytes) ∧ u.sound = true) _ (fun u hu k hk => ?_) _
    ⟨hc2, hl2.sameOutside hs (by simp), hl2.sound hs⟩).1
  obtain ⟨hcar, hsame, hus⟩ := hu
  obtain ⟨hbay, hrd, hclean, hapart⟩ := hrow k (List.mem_range.mp hk)
  obtain ⟨hval, hin, hwrote, hcar'⟩ := Wrote.move hcar hus hbad (hclean u hcar.imp hsame) hrd hbay (memRead_sameOutside hsame hapart)
  simp only [hval, hin, if_true]
  have hin' : b.dst + k * b.bytes + b.bytes ≤ b.dst + b.count * b.bytes := by
    have := Nat.mul_le_mul_right b.bytes (List.mem_range.mp hk)
    rw [Nat.succ_mul] at this
    omega
  refine ⟨hwrote, hcar', fun x hx => ?_, hwrote.sound hus⟩
  rw [hwrote.outside hus fun p hp => ?_]
  · exact hsame x hx
  · obtain rfl := List.mem_singleton.mp hp
    simp only [memRead_length]
    omega

theorem exec_chaseScatter (h : s.ready core.val job.val 0x62 = some (i, r)) (hs : s.sound = true) (hbad : (s.imp i).run.badRows = [])
    (hr : s.readable i (t0Addr core.val (chaseBody r).index) (2 * (chaseBody r).count) = true)
    (hrow : ∀ k, k < (chaseBody r).count →
      s.bayAt i ((chaseBody r).dst + (chaseIndex s core.val (chaseBody r)).getD k 0 * (chaseBody r).bytes) = none
        ∧ s.writable i ((chaseBody r).dst + (chaseIndex s core.val (chaseBody r)).getD k 0 * (chaseBody r).bytes) (chaseBody r).bytes
            = true
        ∧ s.readable i ((chaseBody r).src + k * (chaseBody r).bytes) (chaseBody r).bytes = true
        ∧ (∀ u : State, u.imp i = s.imp i → (∀ x, (∀ m ∈ chaseIndex s core.val (chaseBody r),
            x < (chaseBody r).dst + m * (chaseBody r).bytes ∨ (chaseBody r).dst + m * (chaseBody r).bytes + (chaseBody r).bytes ≤ x) →
            u.byteAt x = s.byteAt x) → CleanRead u i ((chaseBody r).src + k * (chaseBody r).bytes) (chaseBody r).bytes)
        ∧ ((chaseBody r).dst + (chaseIndex s core.val (chaseBody r)).getD k 0 * (chaseBody r).bytes + (chaseBody r).bytes ≤
            (chaseBody r).src ∨ (chaseBody r).src + (chaseBody r).count * (chaseBody r).bytes ≤
            (chaseBody r).dst + (chaseIndex s core.val (chaseBody r)).getD k 0 * (chaseBody r).bytes)) :
    ∃ t, exec (.chaseScatter core job) s = .next t
      ∧ Wrote i s t ((List.range (chaseBody r).count).flatMap fun k =>
          [((chaseBody r).dst + (chaseIndex s core.val (chaseBody r)).getD k 0 * (chaseBody r).bytes,
            memRead s.t0.bytes ((chaseBody r).src + k * (chaseBody r).bytes) (chaseBody r).bytes)]) := by
  have hhand := Wrote.handOver i s core.val job.val r
  have hread := (hhand.read hs hr).1
  show ∃ t, execChaseScatter core job s = .next t ∧ _
  unfold execChaseScatter
  refine command_effect h (fun u v huv h0 hu => hu.after huv h0) ?_
  extract_lets b l
  rw [show chaseBody r = b from rfl] at hrow hread ⊢
  have hl : l.1 = chaseIndex s core.val b := by show (chunks 2 _).map ofLeBytes = _; rw [hread]; rfl
  have hl2 : Wrote i s l.2 [] := Wrote.trans (ps := []) (qs := []) hhand (.coreRead i _ _ _)
  have hc2 : Carries i s l.2 := (Carries.handOver i s _ _ r).trans (.onlyT0 i (coreRead_only _ i _ _))
  rw [hl, zipIdx_chaseIndex, List.foldl_map]
  refine Wrote.trans (ps := []) hl2 (Wrote.foldl
    (P := fun u => Carries i s u ∧ (∀ x, (∀ m ∈ chaseIndex s core.val b, x < b.dst + m * b.bytes ∨ b.dst + m * b.bytes + b.bytes ≤ x) →
      u.byteAt x = s.byteAt x) ∧ u.sound = true) _ (fun u hu k hk => ?_) _
    ⟨hc2, fun x _ => hl2.outside hs (by simp), hl2.sound hs⟩).1
  obtain ⟨hcar, hsame, hus⟩ := hu
  have hk' := List.mem_range.mp hk
  obtain ⟨hbay, hw, hrd, hclean, -⟩ := hrow k hk'
  have hsrc : memRead u.t0.bytes (b.src + k * b.bytes) b.bytes = memRead s.t0.bytes (b.src + k * b.bytes) b.bytes := by
    rw [memRead_byteAt, memRead_byteAt]
    refine List.map_congr_left fun q hq => hsame _ fun m hm => ?_
    have hq' := List.mem_range.mp hq
    obtain ⟨j, hj, rfl⟩ := List.mem_iff_getElem.mp hm
    rw [chaseIndex_length] at hj
    have hap := (hrow j hj).2.2.2.2
    rw [List.getD_eq_getElem _ _ (by rw [chaseIndex_length]; exact hj)] at hap
    have := Nat.mul_le_mul_right b.bytes hk'
    rw [Nat.succ_mul] at this
    omega
  obtain ⟨hval, -, hwrote, hcar'⟩ := Wrote.move hcar hus hbad (hclean u hcar.imp hsame) hrd hbay hsrc
  have hmay : u.mayWriteAll i (b.dst + (chaseIndex s core.val b).getD k 0 * b.bytes) b.bytes = true := by
    rw [hcar.rights.mayWriteAll]; exact mayWriteAll_of_writable hw
  simp only [hval, hmay, if_true]
  refine ⟨hwrote, hcar', fun x hx => ?_, hwrote.sound hus⟩
  rw [hwrote.outside hus fun p hp => ?_]
  · exact hsame x hx
  · obtain rfl := List.mem_singleton.mp hp
    simp only [memRead_length]
    exact hx _ (chaseIndex_getD_mem s core.val b hk')

theorem exec_bcast (h : s.ready core.val job.val 0x63 = some (i, r)) (hs : s.sound = true)
    (hr : s.readable i (t0Addr core.val (chaseBody r).index) (2 * (chaseBody r).count) = true)
    (hb : s.readable i (chaseBody r).src (chaseBody r).bytes = true) :
    ∃ t, exec (.bcast core job) s = .next t
      ∧ Wrote i s t ((chaseIndex s core.val (chaseBody r)).zipIdx.flatMap fun c =>
          [(t0Addr c.1 (t0Off (chaseBody r).dst), memRead s.t0.bytes (chaseBody r).src (chaseBody r).bytes)]) := by
  have hhand := Wrote.handOver i s core.val job.val r
  have hread := (hhand.read hs hr).1
  show ∃ t, execBcast core job s = .next t ∧ _
  unfold execBcast
  refine command_effect h (fun u v huv h0 hu => hu.after huv h0) ?_
  extract_lets b l x
  rw [show chaseBody r = b from rfl] at hread hb ⊢
  have hl : l.1 = chaseIndex s core.val b := by show (chunks 2 _).map ofLeBytes = _; rw [hread]; rfl
  have hl2 : Wrote i s l.2 [] := Wrote.trans (ps := []) (qs := []) hhand (.coreRead i _ _ _)
  have hx : x.1 = memRead s.t0.bytes b.src b.bytes := (hl2.read hs hb).1
  rw [hl, hx]
  refine Wrote.trans (ps := []) (Wrote.trans (ps := []) (qs := []) hl2 (.coreRead i _ _ _))
    (Wrote.foldl (P := fun _ => True) _ (fun u _ c _ => ⟨?_, trivial⟩) _ trivial).1
  extract_lets y
  split
  · exact .coreWrite i u _ _
  · exact Wrote.trans (qs := []) (.coreWrite i u _ _) (.badIndex i _ _)

end

/-! A run of equal or apart writes. -/

/-- Of writes each of which repeats or stands apart from another, each one stands. -/
theorem foldl_putBytes_same {ps : List (Nat × List Byte)} {p : Nat × List Byte} (hps : ∀ q ∈ ps, q = p ∨ Apart p q) {k : Nat}
    (hk : k < p.2.length) : ∀ f, (p ∈ ps ∨ f (p.1 + k) = p.2.getD k 0#8) → ps.foldl putBytes f (p.1 + k) = p.2.getD k 0#8 := by
  induction ps with
  | nil =>
    intro f hf
    rcases hf with hf | hf
    · cases hf
    · exact hf
  | cons q qs ih =>
    intro f hf
    rw [List.foldl_cons]
    refine ih (fun q hq => hps q (List.mem_cons_of_mem _ hq)) _ ?_
    rcases hps q List.mem_cons_self with rfl | hap
    · exact .inr (by simp [putBytes, hk])
    · rcases hf with hf | hf
      · rcases List.mem_cons.mp hf with rfl | hf
        · exact .inr (by simp [putBytes, hk])
        · exact .inl hf
      · right
        rw [putBytes_outside (by unfold Apart at hap; omega)]
        exact hf

theorem Wrote.holds_same {i : Nat} {s t : State} {ps : List (Nat × List Byte)} (h : Wrote i s t ps) (hs : s.sound = true)
    {p : Nat × List Byte} (hps : ∀ q ∈ ps, q = p ∨ Apart p q) (hp : p ∈ ps) (hw : s.mayWriteAll i p.1 p.2.length = true) :
    t.holds p.1 p.2 := by
  rw [holds_iff]
  intro k hk
  rw [h.bytes hs]
  exact foldl_putBytes_same (fun q hq => hps q (List.mem_of_mem_filter hq)) hk _
    (.inl (List.mem_filter.mpr ⟨hp, by simpa using hw⟩))

end Sys2Proof.Machine
end

section
/-!
Chase and T1 (R234, R235, R237, R239, R309).
-/
namespace Sys2Proof.Machine

open Sys2Proof

/-! T1 byte by byte (R235). -/

/-- The byte that stands at an address of a channel set. -/
def State.t1ByteAt (s : State) (set : List Nat) (x : Nat) : Byte :=
  spGet 0#8 (s.ch (t1Map set (x / 256)).1).data (256 * (t1Map set (x / 256)).2 + x % 256)

theorem t1Line_length (s : State) (i l : Nat) : (s.t1Line i l).length = 256 := by
  unfold State.t1Line
  extract_lets m c
  split
  · exact List.length_replicate
  · exact memRead_length _ _ _

theorem linesOf_eq {a n : Nat} (hn : 0 < n) :
    linesOf a n = (List.range ((a + n - 1) / 256 - a / 256 + 1)).map (a / 256 + ·) := by
  rw [linesOf, if_neg (by omega)]

theorem t1Bytes_length (s : State) (i a : Nat) {n : Nat} (hn : 0 < n) : (s.t1Bytes i a n).length = n := by
  rw [State.t1Bytes, List.length_take, List.length_drop, length_flatMap_const (t1Line_length s i), t1Lines, linesOf_eq hn,
    List.length_map, List.length_range]
  omega

theorem flatMap_range_blocks {α : Type} (g : Nat → α) (w n : Nat) :
    ((List.range n).flatMap fun k => (List.range w).map fun j => g (w * k + j)) = (List.range (w * n)).map g := by
  induction n with
  | zero => simp
  | succ n ih =>
    rw [List.range_succ, List.flatMap_append, ih, Nat.mul_succ, List.range_add, List.map_append]
    simp

theorem segBad_of_bad_nil {c : Channel} (h : c.bad = []) (seg : Nat) : c.segBad seg = false := by
  simp [Channel.segBad, Channel.badOf, h]

/-- Where no channel is damaged a requester meets the bytes as they stand. -/
theorem t1Bytes_eq {s : State} (hb : ∀ c, (s.ch c).bad = []) (i a : Nat) {n : Nat} (hn : 0 < n) :
    s.t1Bytes i a n = (List.range n).map fun k => s.t1ByteAt (s.channelSet i) (a + k) := by
  have hline : ∀ l, s.t1Line i l = (List.range 256).map fun j => s.t1ByteAt (s.channelSet i) (256 * l + j) := fun l => by
    unfold State.t1Line
    extract_lets m c
    rw [if_neg (by rw [segBad_of_bad_nil (hb _)]; decide), memRead_eq_map]
    refine List.map_congr_left fun j hj => ?_
    have hj' := List.mem_range.mp hj
    rw [State.t1ByteAt, show (256 * l + j) / 256 = l by omega, show (256 * l + j) % 256 = j by omega]
  have hall : (t1Lines a n).flatMap (s.t1Line i) = (List.range (256 * ((a + n - 1) / 256 - a / 256 + 1))).map fun j =>
      s.t1ByteAt (s.channelSet i) (256 * (a / 256) + j) := by
    rw [← flatMap_range_blocks (fun j => s.t1ByteAt (s.channelSet i) (256 * (a / 256) + j)), t1Lines, linesOf_eq hn,
      List.flatMap_map]
    refine List.flatMap_congr fun k _ => (hline _).trans (List.map_congr_left fun j _ => ?_)
    congr 1; omega
  rw [State.t1Bytes, hall]
  refine List.ext_getElem (by simp; omega) fun k h1 h2 => ?_
  simp only [List.getElem_take, List.getElem_drop, List.getElem_map, List.getElem_range]
  congr 1; omega

/-- A piece within one line lands at its addresses and nowhere else. -/
theorem t1ByteAt_t1Put {s : State} {i a : Nat} {bs : List Byte} (hd : (s.channelSet i).Nodup) (hne : s.channelSet i ≠ [])
    (hp : a % 256 + bs.length ≤ 256) (x : Nat) :
    (s.t1Put i a bs).t1ByteAt (s.channelSet i) x = putBytes (s.t1ByteAt (s.channelSet i)) (a, bs) x := by
  unfold State.t1Put
  extract_lets m
  by_cases hch : (t1Map (s.channelSet i) (x / 256)).1 = m.1
  · have hdata : ((s.modCh m.1 fun c => { c with data := memWrite c.data (256 * m.2 + a % 256) bs }).ch m.1).data =
        memWrite (s.ch m.1).data (256 * m.2 + a % 256) bs := by rw [State.ch_modCh_same]
    rw [State.t1ByteAt, hch, hdata, spGet_memWrite]
    by_cases hq : (t1Map (s.channelSet i) (x / 256)).2 = m.2
    · have hl : x / 256 = a / 256 := t1Map_injective hd hne (Prod.ext hch hq)
      have hiff : (256 * m.2 + a % 256 ≤ 256 * (t1Map (s.channelSet i) (x / 256)).2 + x % 256 ∧
          256 * (t1Map (s.channelSet i) (x / 256)).2 + x % 256 < 256 * m.2 + a % 256 + bs.length) ↔ a ≤ x ∧ x < a + bs.length := by
        rw [hq]; omega
      by_cases hin : a ≤ x ∧ x < a + bs.length
      · rw [if_pos (hiff.mpr hin), putBytes, if_pos hin, hq]
        congr 1
        show _ = x - a
        omega
      · rw [if_neg (mt hiff.mp hin), putBytes, if_neg hin, State.t1ByteAt, hch]
    · rw [if_neg (by omega), putBytes_outside, State.t1ByteAt, hch]
      have hl : x / 256 ≠ a / 256 := fun e => hq (by rw [e])
      show x < a ∨ a + bs.length ≤ x
      omega
  · rw [State.t1ByteAt, State.ch_modCh_ne _ _ _ _ hch, putBytes_outside, State.t1ByteAt]
    have hl : x / 256 ≠ a / 256 := fun e => hch (by rw [e])
    show x < a ∨ a + bs.length ≤ x
    omega

/-- The pieces of a write, one after another, are the write. -/
theorem putBytes_split (f : Nat → Byte) (a k : Nat) (bs : List Byte) (hk : k ≤ bs.length) :
    putBytes (putBytes f (a, bs.take k)) (a + k, bs.drop k) = putBytes f (a, bs) := by
  funext x
  simp only [putBytes, List.length_take, List.length_drop]
  by_cases h1 : a ≤ x ∧ x < a + bs.length
  · rw [if_pos h1]
    by_cases h2 : a + k ≤ x
    · rw [if_pos (by omega)]
      simp only [List.getD_eq_getElem?_getD, List.getElem?_drop]
      congr 2; omega
    · rw [if_neg (by omega), if_pos (by omega)]
      simp only [List.getD_eq_getElem?_getD, List.getElem?_take]
      rw [if_pos (by omega)]
  · rw [if_neg (by omega), if_neg (by omega), if_neg h1]

/-- T1 between two states: the same imprints, T0 and codes. -/
structure OnlyT1 (s t : State) : Prop where
  imprints : t.imprints = s.imprints
  t0 : t.t0 = s.t0

theorem OnlyT1.refl (s : State) : OnlyT1 s s := ⟨rfl, rfl⟩

theorem OnlyT1.trans {s t u : State} (h : OnlyT1 s t) (g : OnlyT1 t u) : OnlyT1 s u :=
  ⟨g.imprints.trans h.imprints, g.t0.trans h.t0⟩

theorem OnlyT1.channelSet {s t : State} (h : OnlyT1 s t) (i : Nat) : t.channelSet i = s.channelSet i := by
  unfold State.channelSet State.imp
  rw [h.imprints]

theorem t1Put_only (s : State) (i a : Nat) (bs : List Byte) : OnlyT1 s (s.t1Put i a bs) := ⟨rfl, rfl⟩

theorem t1Put_bad {s : State} (hb : ∀ c, (s.ch c).bad = []) (i a : Nat) (bs : List Byte) (c : Nat) :
    ((s.t1Put i a bs).ch c).bad = [] := by
  unfold State.t1Put
  by_cases hc : c = (t1Map (s.channelSet i) (a / 256)).1
  · subst hc
    rw [State.ch_modCh_same]
    exact hb _
  · rw [State.ch_modCh_ne _ _ _ _ hc]
    exact hb _

/-- Bytes put piece by piece stand in T1. -/
theorem t1Put_foldl {i : Nat} {set : List Nat} (hd : set.Nodup) (hne : set ≠ []) : ∀ (fuel a : Nat) (bs : List Byte) (s : State),
    s.channelSet i = set → bs.length < fuel → (∀ c, (s.ch c).bad = []) →
      OnlyT1 s ((cut256 fuel a bs).foldl (fun s x => s.t1Put i x.1 x.2) s)
        ∧ (∀ c, (((cut256 fuel a bs).foldl (fun s x => s.t1Put i x.1 x.2) s).ch c).bad = [])
        ∧ ∀ x, ((cut256 fuel a bs).foldl (fun s x => s.t1Put i x.1 x.2) s).t1ByteAt set x = putBytes (s.t1ByteAt set) (a, bs) x := by
  intro fuel
  induction fuel with
  | zero => intro a bs s _ h; omega
  | succ fuel ih =>
    intro a bs s hs hlen hb
    match bs with
    | [] => exact ⟨.refl s, hb, fun x => by simp [cut256, putBytes, show ¬ (a ≤ x ∧ x < a) by omega]⟩
    | b :: bs =>
      simp only [cut256, List.foldl_cons]
      have hpos : 0 < (b :: bs).length := Nat.succ_pos _
      have hput := t1Put_only s i a ((b :: bs).take (256 - a % 256))
      obtain ⟨honly, hbad, hbytes⟩ := ih (a + (256 - a % 256)) ((b :: bs).drop (256 - a % 256)) _ ((hput.channelSet i).trans hs)
        (by rw [List.length_drop]; omega) (t1Put_bad hb i a _)
      refine ⟨hput.trans honly, hbad, fun x => ?_⟩
      rw [hbytes]
      have hfun : (s.t1Put i a ((b :: bs).take (256 - a % 256))).t1ByteAt set =
          putBytes (s.t1ByteAt set) (a, (b :: bs).take (256 - a % 256)) := by
        funext y
        subst hs
        exact t1ByteAt_t1Put hd hne (by rw [List.length_take]; omega) y
      rw [hfun]
      by_cases hk : 256 - a % 256 ≤ (b :: bs).length
      · rw [putBytes_split _ _ _ _ hk]
      · rw [List.take_of_length_le (by omega), List.drop_of_length_le (by omega)]
        refine putBytes_outside ?_
        show x < _ ∨ _ + 0 ≤ x
        omega

/-- Of sound channels a merge mends what needs no mending. -/
theorem mergeSeg_sound {s : State} (hb : ∀ c, (s.ch c).bad = []) (i a n : Nat) (x : Nat × Nat) :
    OnlyT1 s (s.mergeSeg i a n x) ∧ ∀ c, ((s.mergeSeg i a n x).ch c).bad = [] ∧ ((s.mergeSeg i a n x).ch c).data = (s.ch c).data := by
  have hmend : ∀ c, ((s.modCh x.1 fun c => c.mend x.2).ch c).bad = []
      ∧ ((s.modCh x.1 fun c => c.mend x.2).ch c).data = (s.ch c).data := fun c => by
    by_cases hc : c = x.1
    · subst hc
      rw [State.ch_modCh_same]
      exact ⟨by simp [Channel.mend, hb], rfl⟩
    · rw [State.ch_modCh_ne _ _ _ _ hc]
      exact ⟨hb c, rfl⟩
  have htouch : s.touchSeg x.1 x.2 = s := by
    unfold State.touchSeg
    extract_lets c
    rw [if_neg (by rw [segBad_of_bad_nil (hb _)]; decide), if_neg (by simp [Channel.segFixed, Channel.badOf, c, hb])]
  have heq : s.mergeSeg i a n x = s.modCh x.1 fun c => c.mend x.2 := by
    unfold State.mergeSeg
    extract_lets set whole c named s1
    rw [if_neg (c := c.segBad x.2 = true) (by rw [segBad_of_bad_nil (hb _)]; decide), htouch, ite_self]
  rw [heq]
  exact ⟨⟨rfl, rfl⟩, hmend⟩

theorem mergeSeg_foldl {i a n : Nat} (xs : List (Nat × Nat)) : ∀ {s : State}, (∀ c, (s.ch c).bad = []) →
    OnlyT1 s (xs.foldl (fun s x => s.mergeSeg i a n x) s)
      ∧ ∀ c, ((xs.foldl (fun s x => s.mergeSeg i a n x) s).ch c).bad = []
        ∧ ((xs.foldl (fun s x => s.mergeSeg i a n x) s).ch c).data = (s.ch c).data := by
  induction xs with
  | nil => intro s hb; exact ⟨.refl s, fun c => ⟨hb c, rfl⟩⟩
  | cons x xs ih =>
    intro s hb
    obtain ⟨honly, hch⟩ := mergeSeg_sound hb i a n x
    obtain ⟨honly', hch'⟩ := ih (s := s.mergeSeg i a n x) fun c => (hch c).1
    exact ⟨honly.trans honly', fun c => ⟨(hch' c).1, (hch' c).2.trans (hch c).2⟩⟩

/-- A range of sound channels reads back what was written to it. -/
theorem t1Bytes_t1Write {s : State} {i a : Nat} {bs : List Byte} (hn : bs ≠ []) (hd : (s.channelSet i).Nodup)
    (hne : (s.channelSet i).isEmpty = false) (hin : s.t1Inside i a bs.length = true) (hb : ∀ c, (s.ch c).bad = []) :
    OnlyT1 s (s.t1Write i a bs) ∧ (s.t1Write i a bs).t1Bytes i a bs.length = bs := by
  have hne' : s.channelSet i ≠ [] := fun e => by rw [e] at hne; cases hne
  unfold State.t1Write
  rw [if_neg (by simp [hne', hin])]
  extract_lets s1
  obtain ⟨honly, hch⟩ := mergeSeg_foldl (i := i) (a := a) (n := bs.length) (s.t1Segs i a bs.length) hb
  obtain ⟨honly', hbad, hbytes⟩ := t1Put_foldl hd hne' (bs.length + 1) a bs s1 (honly.channelSet i) (by omega) fun c => (hch c).1
  refine ⟨honly.trans honly', ?_⟩
  rw [t1Bytes_eq hbad i a (List.length_pos_iff.mpr hn), (honly.trans honly').channelSet]
  refine List.ext_getElem (by simp) fun k h1 h2 => ?_
  simp only [List.getElem_map, List.getElem_range, hbytes]
  simp [putBytes, h2]

/-! The machine's commands. -/

theorem Wrote.of_flatMap_nil {α : Type} {i : Nat} {s t : State} {xs : List α}
    (h : Wrote i s t (xs.flatMap fun _ => [])) : Wrote i s t [] := by
  rwa [List.flatMap_eq_nil_iff.mpr fun _ _ => rfl] at h

theorem Wrote.trans_nil {i : Nat} {s t u : State} (h : Wrote i s t []) (g : Wrote i t u []) : Wrote i s u [] := h.trans g

/-- A fold whose steps write nothing writes nothing. -/
theorem Wrote.foldl_nil {α : Type} {i : Nat} {f : State → α → State} (hf : ∀ u x, Wrote i u (f u x) []) (xs : List α) (s : State) :
    Wrote i s (xs.foldl f s) [] :=
  (Wrote.foldl (P := fun _ => True) (w := fun _ => []) xs (fun u _ x _ => ⟨hf u x, trivial⟩) s trivial).1.of_flatMap_nil

theorem Wrote.touchSeg (i : Nat) (s : State) (ch seg : Nat) : Wrote i s (s.touchSeg ch seg) [] := by
  have hmod : ∀ f, Wrote i s (s.modCh ch f) [] := fun f => .of_t0 (.of_imp rfl rfl) rfl
  unfold State.touchSeg
  extract_lets c
  split
  · exact Wrote.trans_nil (hmod _) (.foldl_nil (fun u q => .report i u _) _ _)
  · split
    · exact hmod _
    · exact .refl i s

theorem Wrote.countSlugs (i : Nat) (s : State) (sts : List Nat) : Wrote i s (s.countSlugs i sts) [] :=
  Wrote.trans_nil (.count i s _ _) (.count i _ _ _)

theorem Wrote.coldSlugs (i : Nat) (s : State) (a n : Nat) : Wrote i s (s.coldSlugs i a n) [] := by
  unfold State.coldSlugs
  split
  next => exact .refl i s
  next g _ =>
    extract_lets fonts
    refine .foldl_nil (fun u x => ?_) _ s
    extract_lets t image region elemsRun plane all wrong
    split
    · exact .refl i u
    · exact Wrote.trans_nil (.countSlugs i u _) (.foldl_nil (fun v o => .report i v _) _ _)

section
variable {core : Fin 192} {job : Fin 8} {s : State} {i : Nat} {r : BitVec 512}

theorem exec_t1Write (h : s.ready core.val job.val 0x65 = some (i, r)) (hs : s.sound = true)
    (hr : s.readable i (chaseBody r).src (chaseBody r).bytes = true) (hd : (s.channelSet i).Nodup)
    (hne : (s.channelSet i).isEmpty = false) (hin : s.t1Inside i (chaseBody r).dst (chaseBody r).bytes = true)
    (hb : ∀ c, (s.ch c).bad = []) :
    ∃ t, exec (.t1Write core job) s = .next t
      ∧ t.t1Bytes i (chaseBody r).dst (chaseBody r).bytes = memRead s.t0.bytes (chaseBody r).src (chaseBody r).bytes
      ∧ ∀ x, t.byteAt x = s.byteAt x := by
  have hread := ((Wrote.handOver i s core.val job.val r).read hs hr).1
  have hpos : 0 < (chaseBody r).bytes := by
    rw [State.readable, Bool.and_eq_true] at hr
    exact of_decide_eq_true hr.1
  show ∃ t, execT1Write core job s = .next t ∧ _
  unfold execT1Write
  refine command_effect h (fun u v huv h0 hu => ?_) ?_
  · have hbytes : v.t1Bytes i (chaseBody r).dst (chaseBody r).bytes = u.t1Bytes i (chaseBody r).dst (chaseBody r).bytes := by
      unfold State.t1Bytes State.t1Line State.channelSet
      simp only [huv.imp, huv.ch]
    exact ⟨hbytes.trans hu.1, fun x => (by rw [State.byteAt, h0]; exact hu.2 x)⟩
  · extract_lets b x
    rw [show chaseBody r = b from rfl] at hread hin hpos ⊢
    have honly := coreRead_only (s.handOver core.val job.val r) i b.src b.bytes
    have hset : x.2.2.channelSet i = s.channelSet i := by
      unfold State.channelSet
      rw [honly.imp]
      rfl
    have hlen : x.1.length = b.bytes := coreRead_length _ _ _ _
    have hinside : x.2.2.t1Inside i b.dst x.1.length = true := by
      rw [hlen, State.t1Inside, hset]
      exact hin
    obtain ⟨hT1, hback⟩ := t1Bytes_t1Write (s := x.2.2) (i := i) (a := b.dst) (bs := x.1)
      (by intro e; rw [e] at hlen; simp at hlen; omega) (hset ▸ hd) (by rw [hset]; exact hne) hinside
      fun c => by rw [honly.ch]; exact hb c
    rw [hlen] at hback
    refine ⟨hback.trans hread, fun y => ?_⟩
    rw [State.byteAt, hT1.t0]
    show spGet 0#8 x.2.2.t0.bytes y = _
    rw [coreRead_bytes]
    rfl

theorem exec_t1Read (h : s.ready core.val job.val 0x64 = some (i, r)) (hbay : s.bayAt i (chaseBody r).dst = none)
    (hne : (s.channelSet i).isEmpty = false) (hin : s.t1Inside i (chaseBody r).src (chaseBody r).bytes = true) :
    ∃ t, exec (.t1Read core job) s = .next t
      ∧ Wrote i s t [((chaseBody r).dst, s.t1Bytes i (chaseBody r).src (chaseBody r).bytes)] := by
  show ∃ t, execT1Read core job s = .next t ∧ _
  unfold execT1Read
  refine command_effect h (fun u v huv h0 hu => hu.after huv h0) ?_
  extract_lets b x
  rw [show chaseBody r = b from rfl] at hbay hin ⊢
  have hx : x = (s.t1Bytes i b.src b.bytes,
      (s.t1Segs i b.src b.bytes).foldl (fun s x => s.touchSeg x.1 x.2) (s.handOver core.val job.val r)) := by
    show State.t1Read _ i b.src b.bytes = _
    unfold State.t1Read
    rw [if_neg]
    · rfl
    · show ¬ ((s.channelSet i).isEmpty || !s.t1Inside i b.src b.bytes) = true
      rw [hne, hin]
      decide
  have heff : Eff 0x64 core.val i (s.handOver core.val job.val r) (x.2.coldSlugs i b.src b.bytes) :=
    (Eff.t1Read _ _ _ _ _).trans (Eff.coldSlugs _ _ _ _ _)
  have hbay' : (x.2.coldSlugs i b.src b.bytes).bayAt i b.dst = none := by
    rw [heff.sameBays.bayAt, (Carries.handOver i s core.val job.val r).sameBays.bayAt]
    exact hbay
  have hw : Wrote i s x.2 [] := by
    rw [hx]
    exact Wrote.trans_nil (.handOver i s core.val job.val r) (.foldl_nil (fun u q => .touchSeg i u _ _) _ _)
  rw [chasePut_plain hbay', show x.1 = s.t1Bytes i b.src b.bytes by rw [hx]]
  exact Wrote.trans (ps := []) (Wrote.trans_nil hw (.coldSlugs i _ _ _)) (.coreWrite i _ _ _)

end

theorem pos_of_writable {s : State} {i a n : Nat} (h : s.writable i a n = true) : 0 < n := by
  rw [State.writable, Bool.and_eq_true] at h
  exact of_decide_eq_true h.1

theorem scatterRows_apart {s : State} {c : Nat} {b : ChaseBody} (hnd : (chaseIndex s c b).Nodup) :
    ((List.range b.count).flatMap fun k => [(b.dst + (chaseIndex s c b).getD k 0 * b.bytes,
      memRead s.t0.bytes (b.src + k * b.bytes) b.bytes)]).Pairwise Apart := by
  rw [List.pairwise_flatMap]
  refine ⟨fun _ _ => List.pairwise_singleton _ _, (List.pairwise_lt_range).imp_of_mem fun {j k} hj hk hjk p hp q hq => ?_⟩
  obtain rfl := List.mem_singleton.mp hp
  obtain rfl := List.mem_singleton.mp hq
  have hj' : j < (chaseIndex s c b).length := by rw [chaseIndex_length]; exact List.mem_range.mp hj
  have hk' : k < (chaseIndex s c b).length := by rw [chaseIndex_length]; exact List.mem_range.mp hk
  simp only [Nat.mul_comm _ b.bytes]
  refine apart_of_index_ne (memRead_length _ _ _) (memRead_length _ _ _) fun he => ?_
  rw [List.getD_eq_getElem _ _ hj', List.getD_eq_getElem _ _ hk'] at he
  exact absurd ((List.Nodup.getElem_inj_iff hnd).mp he) (Nat.ne_of_lt hjk)

/-- The same offset of two different cores' slices: as far apart as slices are. -/
theorem apart_of_core_ne {c d off n : Nat} (hoff : off + n ≤ 2 ^ 26) {xs ys : List Byte} (hx : xs.length = n) (hy : ys.length = n)
    (h : c ≠ d) : Apart (t0Addr c off, xs) (t0Addr d off, ys) := by
  simp only [Apart, t0Addr, hx, hy]
  omega

/-- Settles O24: each row is read where its source still stands, and each destination is written once, or with the same bytes. -/
theorem chaseMovesBytes : Obligations.ChaseMovesBytes := by
  unfold Obligations.ChaseMovesBytes
  intro core job s i r hs hbad b idx clean
  refine ⟨fun h hbay hr hw hc => ?copy, fun h hix hrow => ?gather, fun h hix hnd hrow => ?scatter, fun h hix hr hoff => ?bcast,
    fun h hbay hw hne hin => ?t1Read, fun h hr hd hne hin hb => exec_t1Write h hs hr hd hne hin hb⟩
  case copy =>
    obtain ⟨t, ht, hwrote⟩ := exec_chaseCopy h hs hbad hbay hr hc
    obtain ⟨hholds, hout⟩ := hwrote.single hs
    rw [stampReturn_length, memRead_length] at hholds hout
    exact ⟨t, ht, hholds hw, hout⟩
  case gather =>
    obtain ⟨t, ht, hwrote⟩ := exec_chaseGather h hs hbad hix fun k hk => by
      obtain ⟨hbay, -, hrd, hcl, hap⟩ := hrow k hk
      exact ⟨hbay, hrd, hcl, hap⟩
    refine ⟨t, ht, fun k hk => ?_, ?_⟩
    · refine hwrote.holds (p := (b.dst + k * b.bytes, memRead s.t0.bytes (b.src + idx.getD k 0 * b.bytes) b.bytes)) hs
        (blocks_apart fun k => Nat.le_of_eq (memRead_length _ _ _))
        (List.mem_flatMap.mpr ⟨k, List.mem_range.mpr hk, List.mem_singleton_self _⟩) ?_
      rw [memRead_length]
      exact mayWriteAll_of_writable (hrow k hk).2.1
    · exact (hwrote.blocks (fun k => Nat.le_of_eq (memRead_length _ _ _)) hs).2
  case scatter =>
    obtain ⟨t, ht, hwrote⟩ := exec_chaseScatter h hs hbad hix hrow
    refine ⟨t, ht, fun k hk => ?_, fun x hx => hwrote.outside hs fun p hp => ?_⟩
    · refine hwrote.holds (p := (b.dst + idx.getD k 0 * b.bytes, memRead s.t0.bytes (b.src + k * b.bytes) b.bytes)) hs ?_
        (List.mem_flatMap.mpr ⟨k, List.mem_range.mpr hk, List.mem_singleton_self _⟩) ?_
      · exact scatterRows_apart hnd
      · rw [memRead_length]
        exact mayWriteAll_of_writable (hrow k hk).2.1
    · obtain ⟨k, hk, hp⟩ := List.mem_flatMap.mp hp
      obtain rfl := List.mem_singleton.mp hp
      simp only [memRead_length]
      exact hx _ (chaseIndex_getD_mem s core.val b (List.mem_range.mp hk))
  case bcast =>
    obtain ⟨t, ht, hwrote⟩ := exec_bcast h hs hix hr
    refine ⟨t, ht, fun c hc hw => ?_, fun x hx => hwrote.outside hs fun p hp => ?_⟩
    · obtain ⟨q, hq, rfl⟩ : ∃ q ∈ idx.zipIdx, q.1 = c := by
        rw [← List.mem_map, List.zipIdx_map_fst]
        exact hc
      refine hwrote.holds_same (p := (t0Addr q.1 (t0Off b.dst), memRead s.t0.bytes b.src b.bytes)) hs (fun p hp => ?_)
        (List.mem_flatMap.mpr ⟨q, hq, List.mem_singleton_self _⟩) ?_
      · obtain ⟨q', -, hp⟩ := List.mem_flatMap.mp hp
        obtain rfl := List.mem_singleton.mp hp
        by_cases he : q'.1 = q.1
        · exact .inl (by rw [he])
        · exact .inr (apart_of_core_ne hoff (memRead_length _ _ _) (memRead_length _ _ _) (Ne.symm he))
      · rw [memRead_length]
        exact mayWriteAll_of_writable hw
    · obtain ⟨q, hq, hp⟩ := List.mem_flatMap.mp hp
      obtain rfl := List.mem_singleton.mp hp
      simp only [memRead_length]
      exact hx _ (List.fst_mem_of_mem_zipIdx hq)
  case t1Read =>
    obtain ⟨t, ht, hwrote⟩ := exec_t1Read h hbay hne hin
    obtain ⟨hholds, hout⟩ := hwrote.single hs
    rw [t1Bytes_length s i b.src (pos_of_writable hw)] at hholds hout
    exact ⟨t, ht, hholds hw, hout⟩

end Sys2Proof.Machine
end

section
/-!
Reading operands: what the reads of a command, and the reports of what they met, leave as it was.
-/
namespace Sys2Proof.Machine

open Sys2Proof

/-! What every effect keeps. -/

theorem Core.sameBut.streams {op : Nat} {x y : Core} (h : x.sameBut op y) : y.streams = x.streams := by
  unfold Core.sameBut at h
  split_ifs at h <;> rw [h]

theorem Eff.streams {op core i : Nat} {s t : State} (h : Eff op core i s t) (k : Nat) : (t.core k).streams = (s.core k).streams := by
  by_cases hk : k = core
  · subst hk; exact h.core.streams
  · rw [h.cores k hk]

theorem Eff.freshBlock_none {op core i a : Nat} {s t : State} (h : Eff op core i s t) (hf : s.freshBlock i a = none) :
    t.freshBlock i a = none := freshBlock_none_congr h.cfg h.streams hf

theorem Eff.runtimeAt {op core i : Nat} {s t : State} (h : Eff op core i s t) (a : Nat) : t.runtimeAt i a = s.runtimeAt i a :=
  runtimeAt_congr h.cfg a

theorem Eff.placement {op core i : Nat} {s t : State} (h : Eff op core i s t) : t.placement i = s.placement i := by
  have hp : (t.imp i).serve.placement = (s.imp i).serve.placement := by
    have := h.own; unfold Imprint.sameBut at this; rw [this]
  unfold State.placement
  rw [hp, h.cfg]

theorem Eff.expertRows {op core i : Nat} {s t : State} (h : Eff op core i s t) (k : Nat) (d : TensorDesc) :
    t.expertRows i k d = s.expertRows i k d := by
  have hf : t.fab.endpoint = s.fab.endpoint := by rw [h.rest]
  unfold State.expertRows
  rw [h.placement, hf]

/-- An effect of an opcode that owns nothing of its core leaves it as it is. -/
theorem Eff.core_eq {core i : Nat} {s t : State} (h : Eff 0x40 core i s t) : t.core core = s.core core := h.core

/-! Reads. -/

/-- From `s` to `t` an effect of a core and an imprint changes no byte of T0, no flipped bit, no output scale and no accumulator. -/
structure Reads (op core i : Nat) (s t : State) : Prop where
  eff : Eff op core i s t
  bytes : t.t0.bytes = s.t0.bytes
  flips : t.t0.flips = s.t0.flips
  scales : (t.imp i).run.scales = (s.imp i).run.scales
  accP : (t.core core).accP = (s.core core).accP
  accR : (t.core core).accR = (s.core core).accR

section
variable {op core i : Nat} {s t u : State}

theorem Reads.refl (op core i : Nat) (s : State) : Reads op core i s s := ⟨.refl _ _ _ s, rfl, rfl, rfl, rfl, rfl⟩

theorem Reads.trans (h : Reads op core i s t) (g : Reads op core i t u) : Reads op core i s u :=
  ⟨h.eff.trans g.eff, g.bytes.trans h.bytes, g.flips.trans h.flips, g.scales.trans h.scales, g.accP.trans h.accP, g.accR.trans h.accR⟩

theorem Reads.ite {p : Prop} [Decidable p] (h : Reads op core i s t) (g : Reads op core i s u) :
    Reads op core i s (if p then t else u) := by
  split <;> assumption

theorem Reads.foldl {α : Type} {f : State → α → State} (hf : ∀ s x, Reads op core i s (f s x)) (xs : List α) (s : State) :
    Reads op core i s (xs.foldl f s) := by
  induction xs generalizing s with
  | nil => exact .refl op core i s
  | cons x xs ih => exact (hf s x).trans (ih _)

theorem Reads.wrote (h : Reads op core i s t) : Wrote i s t [] := .quiet h.eff.sameRights h.bytes h.flips

theorem Reads.byteAt (h : Reads op core i s t) (x : Nat) : t.byteAt x = s.byteAt x := by rw [State.byteAt, h.bytes]; rfl

theorem Reads.tensorScale (h : Reads op core i s t) (d : Nat) : t.tensorScale i d = s.tensorScale i d := by
  unfold State.tensorScale State.desc
  rw [h.eff.cfg, h.scales]

/-- A step beside the cores and T0's bytes. -/
theorem Reads.of_cores (h : Eff op core i s t) (hb : t.t0.bytes = s.t0.bytes) (hf : t.t0.flips = s.t0.flips)
    (hs : (t.imp i).run.scales = (s.imp i).run.scales) (hc : t.cores = s.cores) : Reads op core i s t := by
  have hk : t.core core = s.core core := by unfold State.core; rw [hc]
  exact ⟨h, hb, hf, hs, by rw [hk], by rw [hk]⟩

theorem Reads.report (op core i : Nat) (s : State) (r : Report) : Reads op core i s (s.report r) :=
  .of_cores (.report op core i s r) (by rw [report_t0]) (by rw [report_t0]) (by rw [(report_only s r).imp]) (report_only s r).cores

theorem Reads.coreRead (op core i : Nat) (s : State) (a n : Nat) : Reads op core i s (s.coreRead i a n).2.2 :=
  .of_cores (.coreRead op core i s i a n) (coreRead_bytes s i a n) (coreRead_flips s i a n) (by rw [(coreRead_only s i a n).imp])
    (coreRead_only s i a n).cores

theorem Reads.modRun (op core i : Nat) (s : State) (f : Run → Run) (h : (s.imp i).sameBut { s.imp i with run := f (s.imp i).run })
    (hf : (f (s.imp i).run).scales = (s.imp i).run.scales) : Reads op core i s (s.modRun i f) :=
  .of_cores (.modRun op core s f h) rfl rfl (by rw [State.imp_modRun_same]; exact hf) rfl

theorem Reads.count (op core i : Nat) (s : State) (c : Ctr) (n : Nat) : Reads op core i s (s.count i c n) := by
  unfold State.count
  exact .ite (.refl op core i s) (.modRun op core i s _ rfl rfl)

theorem Reads.countSlugs (op core i : Nat) (s : State) (sts : List Nat) : Reads op core i s (s.countSlugs i sts) :=
  (Reads.count op core i s _ _).trans (.count op core i _ _ _)

theorem Reads.damageSlot (op core i : Nat) (s : State) (n st : Nat) : Reads op core i s (s.damageSlot i n st) := by
  unfold State.damageSlot
  split
  · exact .report op core i s _
  · exact .refl op core i s

theorem Reads.hurtRows (op core i : Nat) (s : State) (rows : List Nat) (st : Nat) : Reads op core i s (s.hurtRows i rows st) :=
  .foldl (fun s n => .damageSlot op core i s n st) _ s

theorem Reads.hurtTensor (op core i : Nat) (s : State) (d st : Nat) : Reads op core i s (s.hurtTensor i d st) :=
  .report op core i s _

theorem Reads.badIndex (op core i : Nat) (s : State) (a : Nat) : Reads op core i s (s.badIndex i a) := .report op core i s _

theorem Reads.slugTrouble (op core i : Nat) (s : State) (d : Nat) (shared : Bool) (rowOf : Nat → Nat) (x : RowsRead) :
    Reads op core i s (s.slugTrouble i d shared rowOf x) :=
  (Reads.countSlugs op core i s _).trans
    (.foldl (fun s (y : Nat × Nat) => .ite (.hurtTensor op core i s d y.2) (.hurtRows op core i s _ y.2)) _ _)

theorem Reads.readSlug (op core i : Nat) (s : State) (fonts : List Font) (format dec a room : Nat) :
    Reads op core i s (s.readSlug i fonts format dec a room).2 := by
  unfold State.readSlug
  extract_lets h e d p
  have h1 : Reads op core i s h.2.2 := .coreRead op core i s a _
  split
  · exact h1
  · exact h1.trans (.coreRead op core i _ _ _)

theorem Reads.deliverSlugs (op core i : Nat) (fonts : List Font) (format per elems : Nat) (cap : Option Nat) (stop n : Nat) :
    ∀ (s : State) (j a : Nat) (lost : Bool), Reads op core i s (s.deliverSlugs i fonts format per elems cap stop n j a lost).2 := by
  induction n with
  | zero => exact fun s j a lost => .refl op core i s
  | succ n ih =>
    intro s j a lost
    unfold State.deliverSlugs
    extract_lets dec d off x rest
    have hx : Reads op core i s x.2 := by
      show Reads op core i s
        (if lost = true then (decideSlug fonts format dec [], s) else s.readSlug i fonts format dec a (cap.getD (stop - a))).2
      cases lost
      · exact .readSlug op core i s fonts format dec a _
      · exact .refl op core i s
    exact hx.trans (ih x.2 _ _ _)

theorem Reads.readRange (op core i : Nat) (s : State) (fonts : List Font) (t : TensorDesc) (run : Bool)
    (format base elems lo hi : Nat) : Reads op core i s (s.readRange i fonts t run format base elems lo hi).2 := by
  unfold State.readRange
  split
  · exact .deliverSlugs op core i fonts format _ _ _ _ _ s _ _ _
  · exact .coreRead op core i s _ _

theorem Reads.readRanges (op core i : Nat) (fonts : List Font) (t : TensorDesc) (run : Bool) (format base elems : Nat)
    (xs : List (Nat × Nat)) : ∀ s : State, Reads op core i s (s.readRanges i fonts t run format base elems xs).2 := by
  induction xs with
  | nil => exact fun s => .refl op core i s
  | cons x xs ih => exact fun s => (Reads.readRange op core i s fonts t run format base elems x.1 x.2).trans (ih _)

theorem Reads.readRows (op core i : Nat) (s : State) (fonts : List Font) (t : TensorDesc) (r0 n k0 len : Nat) :
    Reads op core i s (s.readRows i fonts t r0 n k0 len).2 := by
  unfold State.readRows
  extract_lets f rb e codes bad b plane p
  have h : Reads op core i s e.2 := .readRanges op core i fonts t _ _ _ _ _ s
  split
  · exact h
  · exact h.trans (.readRanges op core i fonts t _ _ _ _ _ e.2)

theorem Reads.moveMarks (op core i : Nat) (s : State) (src n dst m num den : Nat) :
    Reads op core i s (s.moveMarks i src n dst m num den) := by
  unfold State.moveMarks
  exact .ite (.refl op core i s) (.modRun op core i s _ rfl rfl)

theorem Reads.plateRows (op core i : Nat) (s : State) (c lane d r0 n k0 len : Nat) :
    Reads op core i s (s.plateRows c i lane d r0 n k0 len).2 := by
  unfold State.plateRows
  split
  · exact .refl op core i s
  · exact (Reads.readRows op core i s _ _ _ _ _ _).trans (.slugTrouble op core i _ _ _ _ _)

theorem Reads.adapterTrouble (op core i : Nat) (s : State) (c lane : Nat) (b : MatrixBody) (p : PlateEntry) (k kTotal : Nat)
    (batch : List (Option Nat)) : Reads op core i s (s.adapterTrouble c i lane b p k kTotal batch) := by
  unfold State.adapterTrouble
  refine .foldl (fun s q => ?_) _ s
  split
  · exact .refl op core i s
  · exact (Reads.countSlugs op core i s _).trans (.foldl (fun s st => .report op core i s _) _ _)

/-- A change of the core that is none of its accumulators. -/
theorem Reads.modCore (i : Nat) (s : State) (f : Core → Core) (h : (s.core core).sameBut op (f (s.core core)))
    (hp : (f (s.core core)).accP = (s.core core).accP) (hr : (f (s.core core)).accR = (s.core core).accR) :
    Reads op core i s (s.modCore core f) :=
  ⟨.modCore s f h, rfl, rfl, rfl, by rw [State.core_modCore_same]; exact hp, by rw [State.core_modCore_same]; exact hr⟩

end

end Sys2Proof.Machine
end

section
/-!
Operand loads (R81, R303).
-/
namespace Sys2Proof.Machine

open Sys2Proof

/-- What an operand load leaves in its core (R81, R303; log 20). -/
def Core.loaded (c : Core) (roller : Bool) (b : LoadBody) (d : TensorDesc) (bytes : List Byte) (bad : List (Nat × Nat)) : Core :=
  let c := c.stage roller (b.half * halfBytes roller + b.off) bytes
  let half := b.half + (if roller then 2 else 0)
  { c with staged := ⟨half, b.off, stagedStride d b.kLen, b.desc, TensorRow d b.src, b.rows, bad⟩
             :: c.staged.filter (fun g => g.half != half || g.off != b.off) }

/-- An operand load reads rows, reports what it met, and stages them. -/
theorem loadOperand_eq {s : State} {i : Nat} {r : BitVec 512} {d : TensorDesc} (hd : s.desc i (loadBody r).desc = some d) (roller : Bool)
    (core : Nat) : ∃ u bad, Reads 0x40 core i s u ∧ (s.expertRows i core d = false → bad = [])
      ∧ loadOperand roller core i r s = u.modCore core fun c => c.loaded roller (loadBody r) d (stagedRows d
          (s.readRows i ((s.core core).laneFonts (if roller then 3 else 1)) d (TensorRow d (loadBody r).src) (loadBody r).rows
            (loadBody r).k0 (loadBody r).kLen).1) bad := by
  unfold loadOperand
  extract_lets b fonts
  split
  next hn => cases hn.symm.trans hd
  next d' hd' =>
  obtain rfl : d' = d := Option.some.inj (hd'.symm.trans hd)
  extract_lets row0 expert marks x bad s1 s2
  have h0 : Reads 0x40 core i s x.2 := .readRows _ core i s _ _ _ _ _ _
  have h1 : Reads 0x40 core i x.2 s1 := .ite (.countSlugs _ core i _ _) (.slugTrouble _ core i _ _ _ _ _)
  have h2 : Reads 0x40 core i s1 s2 :=
    .ite (.refl _ core i s1) (.ite (.hurtTensor _ core i s1 _ _) (.hurtRows _ core i s1 _ _))
  exact ⟨s2, _, (h0.trans h1).trans h2, fun he => if_neg (by rw [show expert = false from he]; decide), rfl⟩

theorem loaded_stagedBytes (c : Core) (roller : Bool) (b : LoadBody) (d : TensorDesc) (bytes : List Byte) (bad : List (Nat × Nat)) :
    (c.loaded roller b d bytes bad).stagedBytes roller = 
      memRead (memWrite (if roller then c.tokens else c.staging) (b.half * halfBytes roller + b.off) bytes) := by
  cases roller <;> rfl

theorem loaded_stagedBytes_other (c : Core) (roller : Bool) (b : LoadBody) (d : TensorDesc) (bytes : List Byte)
    (bad : List (Nat × Nat)) : (c.loaded roller b d bytes bad).stagedBytes (!roller) = c.stagedBytes (!roller) := by
  cases roller <;> rfl

theorem handOver_stagedBytes (s : State) (core job : Nat) (r : BitVec 512) :
    ((s.handOver core job r).core core).stagedBytes = (s.core core).stagedBytes := by
  rw [State.handOver, State.core_modCore_same]
  rfl

/-- Settles O19: a load reads, which leaves T0's bytes and the buffers alone, and then stages what it read. -/
theorem operandLoadStagesRows : Obligations.OperandLoadStagesRows := by
  intro roller core job s i r d hr hd
  have hexec : exec (if roller then .tLoad core job else .aLoad core job) s
      = s.command core.val job.val (if roller then 0x21 else 0x11) fun i r s => loadOperand roller core.val i r s := by
    cases roller <;> rfl
  rw [hexec]
  obtain ⟨t, ht, honly, ht0⟩ := command_next hr (fun i r s => loadOperand roller core.val i r s)
  have hd' : (s.handOver core.val job.val r).desc i (loadBody r).desc = some d := hd
  obtain ⟨u, bad, hu, hbad, heq⟩ := loadOperand_eq hd' roller core.val
  rw [heq] at honly ht0
  have hcore : t.core core.val = _ := (honly.core core.val).trans (State.core_modCore_same _ _ _)
  have hk : u.core core.val = (s.handOver core.val job.val r).core core.val := hu.eff.core_eq
  have hbuf : ∀ w, (u.core core.val).stagedBytes w = (s.core core.val).stagedBytes w := fun w => by
    rw [hk, handOver_stagedBytes]
  refine ⟨t, ht, ⟨?_, ?_, ?_, bad, ?_, hbad⟩, fun x => ?_⟩
  · rw [hcore, loaded_stagedBytes]
    exact memRead_memWrite _ _ _
  · rw [hcore, loaded_stagedBytes_other, hbuf]
  · intro q n hq
    rw [hcore, loaded_stagedBytes, ← hbuf]
    exact memRead_memWrite_apart _ _ _ _ _ hq
  · rw [hcore]
    exact List.mem_cons_self
  · rw [State.byteAt, ht0]
    exact (hu.byteAt x)

end Sys2Proof.Machine
end

section
/-!
Tiles of the matrix engines (R69, R91, R92).
-/
namespace Sys2Proof.Machine

open Sys2Proof

/-! Rows of values stored one after another. -/

section
variable {α : Type} [DecidableEq α] (d : α)

/-- Values stored one after another from an index. -/
theorem spGet_putRun (p x : Nat) (row : List α) : ∀ (k : Nat) (q : Sp α),
    spGet d ((row.zipIdx k).foldl (fun q y => spPut d q (p + y.2) y.1) q) x =
      if p + k ≤ x ∧ x < p + k + row.length then row.getD (x - (p + k)) d else spGet d q x := by
  induction row with
  | nil => intro k q; rw [if_neg (by simp)]; rfl
  | cons v row ih =>
    intro k q
    rw [List.zipIdx_cons, List.foldl_cons, ih, spGet_spPut]
    simp only [List.length_cons]
    by_cases hx : x = p + k
    · subst hx; simp
    · by_cases hin : p + (k + 1) ≤ x ∧ x < p + (k + 1) + row.length
      · rw [if_pos hin, if_pos (by omega), show x - (p + k) = (x - (p + (k + 1))) + 1 by omega, List.getD_cons_succ]
      · rw [if_neg hin, if_neg (by omega), if_neg (by omega)]

/-- Rows of one width stored one after another: what lies apart from them stays, and each value stands at its place. -/
theorem spGet_putRows (base n : Nat) (rows : List (List α)) (hn : ∀ row ∈ rows, row.length = n) : ∀ (k : Nat) (q : Sp α),
    (∀ x, (x < base + k * n ∨ base + (k + rows.length) * n ≤ x) →
      spGet d ((rows.zipIdx k).foldl (fun q x => x.1.zipIdx.foldl (fun q y => spPut d q (base + x.2 * n + y.2) y.1) q) q) x = spGet d q x)
    ∧ ∀ m j, (hm : m < rows.length) → j < n →
      spGet d ((rows.zipIdx k).foldl (fun q x => x.1.zipIdx.foldl (fun q y => spPut d q (base + x.2 * n + y.2) y.1) q) q)
        (base + (k + m) * n + j) = rows[m].getD j d := by
  induction rows with
  | nil => exact fun k q => ⟨fun _ _ => rfl, fun m j hm => absurd hm (Nat.not_lt_zero m)⟩
  | cons row rows ih =>
    intro k q
    have hrow : row.length = n := hn row List.mem_cons_self
    have hk : (k + 1) * n = k * n + n := Nat.succ_mul k n
    obtain ⟨hout, hin⟩ := ih (fun r hr => hn r (List.mem_cons_of_mem _ hr)) (k + 1)
      (row.zipIdx.foldl (fun q y => spPut d q (base + k * n + y.2) y.1) q)
    simp only [List.zipIdx_cons, List.foldl_cons, List.length_cons]
    have hl : (k + (rows.length + 1)) * n = (k + 1 + rows.length) * n := by ring
    have hle : (k + 1) * n ≤ (k + 1 + rows.length) * n := Nat.mul_le_mul_right _ (by omega)
    refine ⟨fun x hx => ?_, fun m j hm hj => ?_⟩
    · rw [hout x (by omega), spGet_putRun, if_neg (by omega)]
    · cases m with
      | zero =>
        rw [hout _ (by simp only [Nat.add_zero]; omega), spGet_putRun, if_pos (by simp only [Nat.add_zero]; omega)]
        simp
      | succ m =>
        rw [show k + (m + 1) = k + 1 + m by omega]
        exact hin m j (by omega) hj

end

/-! What a tile leaves. -/

/-- What an accumulator of a tile without UP takes (R69, R91, R92). -/
def tileAcc (b : MatrixBody) (w a : TensorDesc) (cl : MClass) (len : Nat) (ta : Num) (ws rows : OpRows) (old : Sp F32) (m n : Nat) : F32 :=
  (passResults (ws.nums.getD n []) (rows.nums.getD m []) (ws.scales.getD n []) (rows.scales.getD m []) w.fmt.block a.fmt.block
    (F32num w.tscale) ta (groupSize cl w.fmt w.sf a.fmt a.sf) len).foldl addF
      (if b.cont then spGet 0#32 old (b.accBase + m * b.n + n) else zeroF false)

/-- The accumulators of an engine (R81). -/
def Core.accs (c : Core) (roller : Bool) : Sp F32 := if roller then c.accR else c.accP

/-- Put the accumulators of an engine. -/
def Core.setAccs (c : Core) (roller : Bool) (q : Sp F32) : Core := if roller then { c with accR := q } else { c with accP := q }

theorem Core.accs_setAccs (c : Core) (roller : Bool) (q : Sp F32) : (c.setAccs roller q).accs roller = q := by cases roller <;> rfl

theorem Core.setAccs_sameBut (c : Core) (roller : Bool) (q : Sp F32) :
    c.sameBut (if roller then 0x20 else 0x10) (c.setAccs roller q) := by cases roller <;> rfl

/-- The values of a tile, row by row. -/
def tileOut (b : MatrixBody) (acc : Nat → Nat → F32) : List (List F32) := (List.range b.m).map fun m => (List.range b.n).map (acc m)

/-- The accumulators with a tile's values. -/
def putTile (b : MatrixBody) (acc : Nat → Nat → F32) (q : Sp F32) : Sp F32 :=
  (tileOut b acc).zipIdx.foldl (fun q x => x.1.zipIdx.foldl (fun q y => spPut 0#32 q (b.accBase + x.2 * b.n + y.2) y.1) q) q

theorem putTile_spec (b : MatrixBody) (acc : Nat → Nat → F32) (q : Sp F32) :
    (∀ m n, m < b.m → n < b.n → spGet 0#32 (putTile b acc q) (b.accBase + m * b.n + n) = acc m n)
    ∧ ∀ x, (x < b.accBase ∨ b.accBase + b.m * b.n ≤ x) → spGet 0#32 (putTile b acc q) x = spGet 0#32 q x := by
  have hlen : (tileOut b acc).length = b.m := by simp [tileOut]
  obtain ⟨hout, hin⟩ := spGet_putRows 0#32 b.accBase b.n (tileOut b acc) (by simp [tileOut]) 0 q
  simp only [Nat.zero_add, Nat.zero_mul, Nat.add_zero, hlen] at hout hin
  refine ⟨fun m n hm hn => (hin m n hm hn).trans ?_, hout⟩
  simp [tileOut, hn, List.getD_eq_getElem?_getD]

/-- The down stage of the Overprint changes nothing but the rank buffer, beyond its reads. -/
theorem Reads.downStage {op core i : Nat} (hop : op = 0x10 ∨ op = 0x20) (s : State) (lane : Nat) (b : MatrixBody) (p : PlateEntry)
    (k kTotal : Nat) (rows : OpRows) (block : Nat) (ts : Num) (batch : Nat → Option Nat) :
    Reads op core i s (s.downStage core i lane b p k kTotal rows block ts batch) := by
  unfold State.downStage
  extract_lets fonts range corr c s1
  have h1 : Reads op core i s s1 := by
    show Reads op core i s (if corr.isEmpty then ([], s) else s.plateRows core i lane p.vDesc (corr.headD 0) corr.length b.wK k).2
    split
    · exact .refl op core i s
    · exact .plateRows op core i s core lane _ _ _ _ _
  refine h1.trans (.foldl (fun s x => ?_) _ s1)
  extract_lets ad
  refine .foldl (fun s j => .modCore i s _ ?_ rfl rfl) _ s
  rcases hop with rfl | rfl <;> rfl

theorem Core.keepWeights_accs (c : Core) (roller : Bool) (w : TensorDesc) (x : RowsRead) (n passes len : Nat) :
    (c.keepWeights roller w x n passes len).accP = c.accP ∧ (c.keepWeights roller w x n passes len).accR = c.accR := by
  cases roller <;> exact ⟨rfl, rfl⟩

/-- A tile's opcode. -/
def tileOp (roller : Bool) : Nat := if roller then 0x20 else 0x10

theorem Reads.accs {op core i : Nat} {s t : State} (h : Reads op core i s t) (roller : Bool) :
    (t.core core).accs roller = (s.core core).accs roller := by
  cases roller
  · exact h.accP
  · exact h.accR

/-- A tile without UP reads, puts its values into the accumulators, and with WRITE writes them. -/
theorem matrixTile_eq {s : State} {i : Nat} {r : BitVec 512} {w a : TensorDesc} {cl : MClass} (roller : Bool) (core : Nat)
    (hup : (matrixBody r).up = false) (hw : s.desc i (matrixBody r).wDesc = some w) (ha : s.desc i (matrixBody r).aDesc = some a)
    (hcl : pairing w.fmt a.fmt = some cl) :
    let b := matrixBody r
    let len := passElems roller w a
    let x := (s.readRows i ((s.core core).laneFonts (if roller then 2 else 0)) w b.wCol b.n b.wK (b.passes * len)).1
    let rows := (s.core core).tileRows roller a.fmt a.sf (b.half * halfBytes roller + b.aOff) b.m (b.passes * len)
    let acc := tileAcc b w a cl len (F32num (s.tensorScale i b.aDesc)) (opRows w.fmt w.sf x.codes x.scales).1 rows
      ((s.core core).accs roller)
    ∃ u marks batch, Reads (tileOp roller) core i s u ∧ (s.expertRows i core a = false → marks = List.replicate b.m none)
      ∧ matrixTile roller core i r s =
        (let v := u.modCore core fun c => c.setAccs roller (putTile b acc ((s.core core).accs roller))
         if !b.write then v else v.writeTile core i b batch marks (tileOut b acc)) := by
  intro b len x rows acc
  have hop : tileOp roller = 0x10 ∨ tileOp roller = 0x20 := by cases roller <;> simp [tileOp]
  unfold matrixTile
  extract_lets lane c known half
  split
  next w' a' hw' ha' =>
    obtain rfl : w = w' := Option.some.inj (hw.symm.trans hw')
    obtain rfl : a = a' := Option.some.inj (ha.symm.trans ha')
    split
    next hn => cases hn.symm.trans hcl
    next cl' hcl' =>
      obtain rfl : cl = cl' := Option.some.inj (hcl.symm.trans hcl')
      extract_lets k rows' batch wr s1 wx s2 s3 g ta tw plate s4 s5 ups s6 accs out accs2 s7 shared marks
      have h2 : Reads (tileOp roller) core i s s2 := ((Reads.readRows _ core i s _ _ _ _ _ _).trans
        (.slugTrouble _ core i _ _ _ _ _)).trans (.ite (.hurtTensor _ core i s1 _ _) (.refl _ core i s1))
      have h3 : Reads (tileOp roller) core i s s3 := h2.trans (.modCore i s2 _
        (Core.keepWeights_sameBut roller _ _ _ _ _ _) (Core.keepWeights_accs _ roller _ _ _ _ _).1
        (Core.keepWeights_accs _ roller _ _ _ _ _).2)
      have h4 : Reads (tileOp roller) core i s s4 := by
        refine h3.trans ?_
        show Reads (tileOp roller) core i s3 (match plate with | some p => _ | none => _)
        cases plate with
        | none => exact .refl _ core i s3
        | some p => exact .adapterTrouble _ core i s3 _ _ _ _ _ _ _
      have h5 : Reads (tileOp roller) core i s s5 := by
        refine h4.trans ?_
        show Reads (tileOp roller) core i s4 (match plate with | some p => _ | none => _)
        cases plate with
        | none => exact .refl _ core i s4
        | some p => exact .ite (.downStage hop s4 _ _ _ _ _ _ _ _ _) (.refl _ core i s4)
      have h6 : Reads (tileOp roller) core i s s6 := by
        refine h5.trans ?_
        show Reads (tileOp roller) core i s5 ups.2
        have : ∀ q : Option PlateEntry, Reads (tileOp roller) core i s5 (match q with
          | some p => if b.up && 0 < p.rc then s5.plateRows core i lane p.uDesc b.wCol b.n 0 p.rc else ([], s5)
          | none => ([], s5)).2 := by
          intro q
          cases q with
          | none => exact .refl _ core i s5
          | some p =>
            dsimp only
            split
            · exact .plateRows _ core i s5 core lane _ _ _ _ _
            · exact .refl _ core i s5
        exact this plate
      have haccs : accs = (s.core core).accs roller := h6.accs roller
      have hta : ta = F32num (s.tensorScale i b.aDesc) := congrArg F32num (h3.tensorScale _)
      have hout : out = tileOut b acc := by
        refine List.map_congr_left fun m _ => List.map_congr_left fun n _ => ?_
        have key : ∀ (q : Option PlateEntry) (f : PlateEntry → F32) (z : F32),
            (match q with | some p => if b.up then f p else z | none => z) = z := by
          intro q f z
          cases q
          · rfl
          · exact if_neg (by rw [show b.up = false from hup]; decide)
        refine (key plate _ _).trans ?_
        rw [haccs, hta]
        rfl
      have haccs2 : accs2 = putTile b acc ((s.core core).accs roller) := by
        show List.foldl _ accs out.zipIdx = _
        rw [haccs, hout]
        rfl
      have hs7 : s7 = s6.modCore core fun c => c.setAccs roller (putTile b acc ((s.core core).accs roller)) := by
        rw [← haccs2]
        rfl
      have hexp : s7.expertRows i core a = s.expertRows i core a := h6.eff.expertRows core a
      refine ⟨s6, marks, batch, h6, fun he => ?_, ?_⟩
      · refine List.eq_replicate_iff.mpr ⟨by simp [marks, b], fun y hy => ?_⟩
        obtain ⟨m, -, rfl⟩ := List.mem_map.mp hy
        exact if_neg (by rw [hexp, he]; decide)
      · rw [← hs7, ← hout]
  next hn => exact absurd ha (hn w a hw)

theorem tile_resultBytes (f : Elem) (m : Nat) (row : Nat → List F32) : resultBytes f ((List.range m).map row)
    = (List.range m).flatMap fun k => packRow f (quantRow f .none (row k)).1 := by
  rw [resultBytes, List.flatMap_map]

theorem moveMarks_t0 (s : State) (i src n dst m num den : Nat) : (s.moveMarks i src n dst m num den).t0 = s.t0 := by
  unfold State.moveMarks
  split <;> rfl

theorem countPlain_t0 (s : State) (i : Nat) (f : Elem) (rows : List (List F32)) : (s.countPlain i f rows).t0 = s.t0 := by
  rw [State.countPlain, count_eq]

/-- The rows that a tile writes: those of an expert that met damage are zeros (R92, R282). -/
def tileRowsOut (b : MatrixBody) (out : List (List F32)) (marks : List (Option Nat)) : List (List F32) :=
  (out.zip marks).map fun x => x.1.map fun v => if x.2.isSome then zeroF false else mulF v b.outFactor

theorem tileRowsOut_none (b : MatrixBody) (acc : Nat → Nat → F32) : tileRowsOut b (tileOut b acc) (List.replicate b.m none)
    = (List.range b.m).map fun m => (List.range b.n).map fun n => mulF (acc m n) b.outFactor := by
  refine List.ext_getElem (by simp [tileRowsOut, tileOut]) fun k h1 h2 => ?_
  simp [tileRowsOut, tileOut]

/-- A tile's output for a place that no fresh block and no run-time tensor holds is one write, after what the Densitometer observes. -/
theorem writeTile_plain {s : State} {i : Nat} {b : MatrixBody} (hf : s.freshBlock i b.outAddr = none)
    (hr : s.runtimeAt i b.outAddr = none) (hsf : (Scale.ofCode b.outSf).getD .none = .none) (core : Nat)
    (batch marks : List (Option Nat)) (out : List (List F32)) : ∃ z, Eff 0x40 core i s z ∧ (b.watch = 0xFF → z.t0 = s.t0)
      ∧ s.writeTile core i b batch marks out =
        (z.coreWrite i b.outAddr (resultBytes ((Elem.ofCode b.outFmt).getD .fp32) (tileRowsOut b out marks))).2 := by
  unfold State.writeTile
  extract_lets s1 rowsOut s2 f stride spoiled s3 s4
  have h1 : Eff 0x40 core i s s1 := by
    refine .ite (.refl _ core i s) (.foldl ?_ _ s)
    intro s x
    cases x.2 with
    | none => exact .refl _ core i s
    | some row => exact .addSquares _ core s _ _ _ _ _
  have hw1 : b.watch = 0xFF → s1 = s := fun hw => if_pos hw
  have hs2 : s2 = s1 := by
    show (match s1.runtimeAt i b.outAddr with | some (d, _) => _ | none => _) = _
    rw [(h1.runtimeAt _).trans hr]
  have h3 : Eff 0x40 core i s2 s3 := .foldl (fun s _ => .moveMarks _ core s _ _ _ _ _ _) _ s2
  have ht3 : s3.t0 = s2.t0 := List.foldlRecOn (motive := fun (u : State) => u.t0 = s2.t0) _ _ rfl fun u hu m _ => (moveMarks_t0 _ _ _ _ _ _ _ _).trans hu
  have h4 : Eff 0x40 core i s3 s4 := .ite (.refl _ core i s3) (.markRows _ core s3 _)
  have ht4 : s4.t0 = s3.t0 := by
    show (if spoiled.isEmpty then s3 else _).t0 = s3.t0
    split <;> rfl
  rw [hs2] at h3 ht3
  have h := (h1.trans h3).trans h4
  rw [hsf, writeOut_plain (h.freshBlock_none hf) ((h.runtimeAt _).trans hr)]
  exact ⟨_, h.trans (.count _ core s4 _ _), fun hw => (countPlain_t0 s4 i _ _).trans (ht4.trans (ht3.trans (by rw [hw1 hw]))),
    rfl⟩

theorem handOver_tile (s : State) (core job : Nat) (r : BitVec 512) (roller : Bool) :
    ((s.handOver core job r).core core).accs roller = (s.core core).accs roller := by
  rw [State.handOver, State.core_modCore_same]
  cases roller <;> rfl

/-- Settles O18: without UP nothing but the accumulators, and with WRITE the output's place, takes a tile's values. -/
theorem tileAccumulatesItsPasses : Obligations.TileAccumulatesItsPasses := by
  intro roller core job s i r w a cl hr hup hw ha hcl b h len rows wr ws old acc f bs
  have hexec : exec (if roller then .rollerTile core job else .platenTile core job) s
      = s.command core.val job.val (tileOp roller) fun i r s => matrixTile roller core.val i r s := by
    cases roller <;> rfl
  rw [hexec]
  obtain ⟨t, ht, honly, ht0⟩ := command_next hr (fun i r s => matrixTile roller core.val i r s)
  obtain ⟨u, marks, batch, hu, hmarks, heq⟩ := matrixTile_eq (s := h) roller core.val hup hw ha hcl
  have hacc : tileAcc b w a cl len (F32num (h.tensorScale i b.aDesc)) ws.1 rows ((h.core core.val).accs roller) = acc := by
    rw [handOver_tile]
    rfl
  have hold : (h.core core.val).accs roller = old := handOver_tile s core.val job.val r roller
  simp only [] at heq
  rw [show tileAcc _ w a cl _ _ _ _ _ = acc from hacc, hold] at heq
  generalize hv : (u.modCore core.val fun c => c.setAccs roller (putTile b acc old)) = v at heq
  have hvw : Wrote i s v [] := hv ▸ ((Wrote.handOver i s core.val job.val r).trans hu.wrote).trans (.modCore i u _ _)
  have hvb : ∀ x, v.byteAt x = s.byteAt x := fun x => by rw [← hv]; exact hu.byteAt x
  have hva : (v.core core.val).accs roller = putTile b acc old := by rw [← hv, State.core_modCore_same, Core.accs_setAccs]
  obtain ⟨hin, hout⟩ := putTile_spec b acc old
  have hve : Eff (tileOp roller) core.val i h v :=
    hv ▸ hu.eff.trans (.modCore u _ (Core.setAccs_sameBut _ roller _))
  have hcore : (t.core core.val).accs roller = putTile b acc old := by
    rw [honly.core, heq]
    split
    · exact hva
    · rw [(Eff.writeTile 0x40 core.val v core.val b batch marks _).core_eq, hva]
  refine ⟨t, ht, ⟨fun m n hm hn => ?_, fun q hq => ?_⟩, fun hwr x => ?_, fun hwr hex hsf hfb hrt hwb => ?_⟩
  · show spGet 0#32 ((t.core core.val).accs roller) _ = _
    rw [hcore]
    exact hin m n hm hn
  · show spGet 0#32 ((t.core core.val).accs roller) _ = _
    rw [hcore]
    exact hout q hq
  · rw [State.byteAt, ht0, heq, if_pos (by rw [show (matrixBody r).write = false from hwr]; rfl)]
    exact hvb x
  · rw [if_neg (by rw [show (matrixBody r).write = true from hwr]; decide)] at heq
    obtain ⟨z, hz, hzt, hze⟩ := writeTile_plain (hve.freshBlock_none (handOver_freshBlock_none hfb core.val job.val r))
      ((hve.runtimeAt _).trans hrt) hsf core.val batch marks (tileOut b acc)
    rw [hmarks hex, tileRowsOut_none, tile_resultBytes] at hze
    have ht0' : t.t0 = (z.coreWrite i b.outAddr bs).2.t0 := by rw [ht0, heq, hmarks hex, hze]
    have hrights : SameRights i s z := hvw.rights.trans hz.sameRights
    refine ⟨?_, fun hs hwatch => ?_⟩
    · rw [State.holds, ht0']
      exact coreWrite_holds z i b.outAddr bs (by rw [hrights.writable]; exact hwb)
    · have hzw : Wrote i s z [] := hvw.trans_nil (.of_t0 hz.sameRights (hzt hwatch))
      intro x hx
      rw [State.byteAt, ht0']
      exact ((hzw.trans (.coreWrite i z b.outAddr bs)).single hs).2 x hx

end Sys2Proof.Machine
end

section
/-!
The Setter (R74, R75, R139, R307, R353, R354).
-/
namespace Sys2Proof.Machine

open Sys2Proof

theorem Reads.readVals (op core i : Nat) (s : State) (fmt a n : Nat) : Reads op core i s (s.readVals i fmt a n).2 :=
  .coreRead op core i s _ _

/-- After reads alone one write leaves its bytes where its imprint may write, and nothing else. -/
theorem Reads.written {op core' i core job a : Nat} {s t u : State} {r : BitVec 512} {bs : List Byte}
    (hu : Reads op core' i (s.handOver core job r) u) (ht : t.t0 = (u.coreWrite i a bs).2.t0) :
    (s.writable i a bs.length = true → t.holds a bs) ∧ (s.sound = true → s.sameOutside t a bs.length) := by
  have hw : Wrote i s u [] := (Wrote.handOver i s core job r).trans_nil hu.wrote
  refine ⟨fun hwr => ?_, fun hs x hx => ?_⟩
  · rw [State.holds, ht]
    exact coreWrite_holds u i a bs (by rw [hw.rights.writable]; exact hwr)
  · rw [State.byteAt, ht]
    exact ((hw.trans (.coreWrite i u a bs)).single hs).2 x hx

/-- A ready command that reads, and then writes results for a place that no fresh block and no run-time tensor holds. -/
theorem command_writeOut {s : State} {core job op i : Nat} {r : BitVec 512} (h : s.ready core job op = some (i, r))
    {e : Nat → BitVec 512 → State → State} {op' core' k a : Nat} {f : Elem} {rows : List (List F32)} {u : State}
    (hu : Reads op' core' i (s.handOver core job r) u) (hf : s.freshBlock i a = none) (hr : s.runtimeAt i a = none)
    (he : e i r (s.handOver core job r) = u.writeOut k i f .none a rows) :
    ∃ t, s.command core job op e = .next t ∧ (s.writable i a (resultBytes f rows).length = true → t.holds a (resultBytes f rows))
      ∧ (s.sound = true → s.sameOutside t a (resultBytes f rows).length) := by
  rw [writeOut_plain (hu.eff.freshBlock_none (handOver_freshBlock_none hf core job r)) ((hu.eff.runtimeAt a).trans hr)] at he
  obtain ⟨t, ht, -, ht0⟩ := command_next h e
  rw [he] at ht0
  exact ⟨t, ht, (hu.trans (.count op' core' i u _ _)).written ht0⟩

theorem resultBytes_singleton (f : Elem) (x : List F32) : resultBytes f [x] = packRow f (quantRow f .none x).1 := by
  simp [resultBytes]

/-! FONT_STATS (R139). -/

/-- Writes that agree about a byte, one of which reaches it, leave it so. -/
theorem foldl_putBytes_value {ps : List (Nat × List Byte)} {y : Nat} {v : Byte}
    (h : ∀ p ∈ ps, p.1 ≤ y → y < p.1 + p.2.length → p.2.getD (y - p.1) 0#8 = v) :
    ∀ f, ((∃ p ∈ ps, p.1 ≤ y ∧ y < p.1 + p.2.length) ∨ f y = v) → ps.foldl putBytes f y = v := by
  induction ps with
  | nil =>
    rintro f (⟨p, hp, -⟩ | hf)
    · cases hp
    · exact hf
  | cons q qs ih =>
    intro f hf
    refine ih (fun p hp => h p (List.mem_cons_of_mem _ hp)) _ ?_
    by_cases hq : q.1 ≤ y ∧ y < q.1 + q.2.length
    · exact .inr ((if_pos hq).trans (h q List.mem_cons_self hq.1 hq.2))
    · rcases hf with ⟨p, hp, hy⟩ | hf
      · rcases List.mem_cons.mp hp with rfl | hp
        · exact absurd hy hq
        · exact .inl ⟨p, hp, hy⟩
      · exact .inr ((if_neg hq).trans hf)

theorem getD_replicate_zero (n k : Nat) : (List.replicate n 0#8).getD k 0#8 = 0#8 := by
  rw [List.getD_eq_getElem?_getD, List.getElem?_replicate]
  split <;> rfl

/-- FONT_STATS' sums so far, and one table more. -/
def statsStep (i n : Nat) (a : List Nat × State) (t : Nat × Nat) : List Nat × State :=
  let x := a.2.coreRead i t.2 (8 * n)
  let cs := (chunks 8 x.1).map ofLeBytes
  ((a.1.zip cs).map fun p => wrapAdd 64 p.1 p.2, (x.2.2.coreWrite i t.2 (List.replicate (8 * n) 0#8)).2)

/-- The writes that zero the tables. -/
def zeroTables (n : Nat) (tables : List (Nat × Nat)) : List (Nat × List Byte) :=
  tables.map fun x => (x.2, List.replicate (8 * n) 0#8)

theorem statsStep_wrote (i n : Nat) (a : List Nat × State) (t : Nat × Nat) :
    Wrote i a.2 (statsStep i n a t).2 [(t.2, List.replicate (8 * n) 0#8)] :=
  (Wrote.coreRead i a.2 t.2 (8 * n)).trans (.coreWrite i _ t.2 _)

theorem statsFold_wrote (i n : Nat) (tables : List (Nat × Nat)) : ∀ a : List Nat × State,
    Wrote i a.2 (tables.foldl (statsStep i n) a).2 (zeroTables n tables) := by
  induction tables with
  | nil => exact fun a => .refl i a.2
  | cons x xs ih => exact fun a => (statsStep_wrote i n a x).trans (ih _)

theorem statsStep_length (i n : Nat) (a : List Nat × State) (t : Nat × Nat) (h : a.1.length = n) :
    (statsStep i n a t).1.length = n := by
  have : (chunks 8 (a.2.coreRead i t.2 (8 * n)).1).length = n := by rw [chunks_of_mul (by decide) (coreRead_length _ _ _ _)]; simp
  simp [statsStep, h, this]

theorem statsFold_length (i n : Nat) (tables : List (Nat × Nat)) : ∀ a : List Nat × State, a.1.length = n →
    (tables.foldl (statsStep i n) a).1.length = n := by
  induction tables with
  | nil => exact fun a h => h
  | cons x xs ih => exact fun a h => ih _ (statsStep_length i n a x h)

/-- Entry `k` of the count table at an address. -/
def countEntry (s : State) (a k : Nat) : Nat := ofLeBytes (memRead s.t0.bytes (a + 8 * k) 8)

/-- Tables apart from each other are summed as they stood. -/
theorem statsFold_sums (i n : Nat) (tables : List (Nat × Nat)) : ∀ (g : Nat → Nat) (u : State), (∀ k, g k < 2 ^ 64) → u.sound = true →
    (∀ x ∈ tables, u.readable i x.2 (8 * n) = true) →
    (tables.Pairwise fun x y => x.2 + 8 * n ≤ y.2 ∨ y.2 + 8 * n ≤ x.2) →
    (tables.foldl (statsStep i n) ((List.range n).map g, u)).1
      = (List.range n).map fun k => (g k + (tables.map fun x => countEntry u x.2 k).sum) % 2 ^ 64 := by
  induction tables with
  | nil => exact fun g u hg _ _ _ => List.map_congr_left fun k _ => (Nat.mod_eq_of_lt (hg k)).symm
  | cons x xs ih =>
    intro g u hg hs hr hp
    obtain ⟨hx, hxs⟩ := List.pairwise_cons.mp hp
    have hw := statsStep_wrote i n ((List.range n).map g, u) x
    have hread : (u.coreRead i x.2 (8 * n)).1 = memRead u.t0.bytes x.2 (8 * n) :=
      (coreRead_sound u i x.2 (8 * n) hs (hr x List.mem_cons_self)).1
    have hstep : (statsStep i n ((List.range n).map g, u) x).1
        = (List.range n).map fun k => (g k + countEntry u x.2 k) % 2 ^ 64 := by
      show (List.zip _ ((chunks 8 (u.coreRead i x.2 (8 * n)).1).map ofLeBytes)).map _ = _
      rw [hread, chunks_memRead (by decide), List.map_map, List.zip_map', List.map_map]
      rfl
    rw [List.foldl_cons, show statsStep i n ((List.range n).map g, u) x
        = ((List.range n).map fun k => (g k + countEntry u x.2 k) % 2 ^ 64, (statsStep i n ((List.range n).map g, u) x).2) from
      Prod.ext hstep rfl, ih _ _ (fun k => Nat.mod_lt _ (by norm_num)) (hw.sound hs)
      (fun y hy => by rw [hw.rights.readable]; exact hr y (List.mem_cons_of_mem _ hy)) hxs]
    refine List.map_congr_left fun k hk => ?_
    have hsame : (xs.map fun y => countEntry (statsStep i n ((List.range n).map g, u) x).2 y.2 k)
        = xs.map fun y => countEntry u y.2 k := by
      refine List.map_congr_left fun y hy => ?_
      have hap := hx y hy
      have hkn := List.mem_range.mp hk
      rw [countEntry, countEntry, memRead_byteAt, memRead_byteAt]
      refine congrArg ofLeBytes (List.map_congr_left fun j hj => hw.outside hs fun p hp => ?_)
      obtain rfl := List.mem_singleton.mp hp
      have hj := List.mem_range.mp hj
      simp only [List.length_replicate]
      omega
    rw [hsame, List.map_cons, List.sum_cons, Nat.mod_add_mod, Nat.add_assoc]

/-- What FONT_STATS does. -/
def fontStats (i : Nat) (b : VectorBody) (fs : FontStream) (s : State) : State :=
  let acc := fs.tables.foldl (statsStep i fs.kind.alphabet) (List.replicate fs.kind.alphabet 0, s)
  (acc.2.coreWrite i b.dst (acc.1.flatMap (leBytes 8))).2

theorem fontStats_wrote (i : Nat) (b : VectorBody) (fs : FontStream) (s : State) : ∃ bs : List Byte,
    bs.length = 8 * fs.kind.alphabet ∧ Wrote i s (fontStats i b fs s) (zeroTables fs.kind.alphabet fs.tables ++ [(b.dst, bs)]) := by
  refine ⟨_, ?_, (statsFold_wrote i fs.kind.alphabet fs.tables (List.replicate fs.kind.alphabet 0, s)).trans (.coreWrite i _ b.dst _)⟩
  rw [length_flatMap_const (length_leBytes 8), statsFold_length _ _ _ _ (by simp)]

/-- FONT_STATS' effect. -/
def fontStatsEffect (i : Nat) (r : BitVec 512) (s : State) : State :=
  match (s.cfg i).bind fun g => g.formats.streams[(vectorBody r).aux]? with
  | none => s
  | some fs => fontStats i (vectorBody r) fs s

theorem fontStatsEffect_of_stream {s : State} {i : Nat} {r : BitVec 512} {fs : FontStream}
    (h : ((s.cfg i).bind fun g => g.formats.streams[(vectorBody r).aux]?) = some fs) :
    fontStatsEffect i r s = fontStats i (vectorBody r) fs s := by
  rw [fontStatsEffect, h]

/-- FONT_STATS of a stream leaves its writes. -/
theorem exec_fontStats_next {core : Fin 192} {job : Fin 8} {s : State} {i : Nat} {r : BitVec 512} {fs : FontStream}
    (hr : s.ready core.val job.val 0x43 = some (i, r))
    (hfs : ((s.cfg i).bind fun g => g.formats.streams[(vectorBody r).aux]?) = some fs) :
    ∃ t bs, exec (.fontStats core job) s = .next t ∧ bs.length = 8 * fs.kind.alphabet
      ∧ Wrote i s t (zeroTables fs.kind.alphabet fs.tables ++ [((vectorBody r).dst, bs)])
      ∧ t.t0 = (fontStats i (vectorBody r) fs (s.handOver core.val job.val r)).t0 := by
  have heff : fontStatsEffect i r (s.handOver core.val job.val r) = _ := fontStatsEffect_of_stream hfs
  obtain ⟨bs, hbs, hw⟩ := fontStats_wrote i (vectorBody r) fs (s.handOver core.val job.val r)
  obtain ⟨t, ht, hwt, -, ht0⟩ := Wrote.command hr (e := fontStatsEffect) (by
    rw [heff]; exact (Wrote.handOver i s core.val job.val r).trans hw)
  exact ⟨t, bs, ht, hbs, hwt, by rw [ht0, heff]⟩

/-- FONT_STATS' sums stand at DST. -/
theorem fontStats_sums {s t : State} {core job i k : Nat} {r : BitVec 512} {fs : FontStream} (hs : s.sound = true)
    (hread : ∀ x ∈ fs.tables, s.readable i x.2 (8 * fs.kind.alphabet) = true)
    (hpair : fs.tables.Pairwise fun x y => x.2 + 8 * fs.kind.alphabet ≤ y.2 ∨ y.2 + 8 * fs.kind.alphabet ≤ x.2)
    (hw : s.writable i (vectorBody r).dst (8 * fs.kind.alphabet) = true)
    (ht0 : t.t0 = (fontStats i (vectorBody r) fs (s.handOver core job r)).t0) (hk : k < fs.kind.alphabet) :
    countEntry t (vectorBody r).dst k = (fs.tables.map fun x => countEntry s x.2 k).sum % 2 ^ 64 := by
  obtain ⟨hw0, hsum⟩ := And.intro
    (statsFold_wrote i fs.kind.alphabet fs.tables (List.replicate fs.kind.alphabet 0, s.handOver core job r))
    (statsFold_sums i fs.kind.alphabet fs.tables (fun _ => 0) (s.handOver core job r) (fun _ => by norm_num) hs hread hpair)
  rw [List.map_const', List.length_range] at hsum
  have hlen := statsFold_length i fs.kind.alphabet fs.tables (List.replicate fs.kind.alphabet 0, s.handOver core job r) (by simp)
  have hh := coreWrite_holds _ i (vectorBody r).dst ((fs.tables.foldl (statsStep i fs.kind.alphabet)
    (List.replicate fs.kind.alphabet 0, s.handOver core job r)).1.flatMap (leBytes 8)) (by
      rw [length_flatMap_const (length_leBytes 8), hlen, hw0.rights.writable]; exact hw)
  rw [countEntry, ht0]
  refine (congrArg ofLeBytes (holds_flatMap (length_leBytes 8) hh (by rw [hlen]; exact hk))).trans ?_
  rw [ofLeBytes_leBytes]
  simp only [hsum, List.getElem_map, List.getElem_range, Nat.zero_add]
  exact Nat.mod_mod _ _

/-! SAMPLE (R353, R354). -/

/-- SAMPLE of a slot reads, adds a decision to the slot's, and writes its record. -/
theorem exec_sample {core : Fin 192} {job : Fin 8} {s : State} {i : Nat} {r : BitVec 512} {e : Slot}
    (hr : s.ready core.val job.val 0x42 = some (i, r)) (he : slotAt (s.imp i).run.manifest (vectorBody r).aux = some e) :
    ∃ t, exec (.sample core job) s = .next t ∧ ∃ u d, Reads 0x40 core.val i (s.handOver core.val job.val r) u ∧ OnlyT0 u t
      ∧ spGet [] (u.imp i).run.decisions (vectorBody r).aux = spGet [] (s.imp i).run.decisions (vectorBody r).aux ++ [d]
      ∧ t.t0 = (u.coreWrite i (vectorBody r).dst (leBytes 8 (d.token + (d.child.getD 0x7F) * 2 ^ 32))).2.t0 := by
  show ∃ t, execSample core job s = .next t ∧ _
  unfold execSample
  refine command_effect hr (fun u v huv h0 ⟨w, d, hw, huw, hd, ht⟩ => ⟨w, d, hw, huw.trans huv, hd, h0.trans ht⟩) ?_
  extract_lets b x p done dk
  split
  next hn => cases hn.symm.trans he
  next e' he' =>
  extract_lets row kids q s1 toks s2 ts d s3 node
  have h1 : Reads 0x40 core.val i (s.handOver core.val job.val r) s1 := by
    refine (Reads.coreRead _ _ i _ _ _).trans (?_ : Reads _ _ i x.2.2 q.2.2)
    show Reads _ _ i x.2.2 (if kids.isEmpty then ([], true, x.2.2) else x.2.2.coreRead i b.srcB (8 * dk)).2.2
    split
    · exact .refl _ _ i _
    · exact .coreRead _ _ i _ _ _
  have h3 : Reads 0x40 core.val i (s.handOver core.val job.val r) s3 :=
    (h1.trans (.coreRead _ _ i _ _ _)).trans (.modRun _ _ i _ _ rfl rfl)
  refine ⟨s3, ⟨d.1, d.2, p.isEmpty⟩, h3, coreWrite_only s3 i _ _, ?_, ?_⟩
  · show spGet [] (s3.imp i).run.decisions b.aux = _
    rw [State.imp_modRun_same]
    exact spGet_spPut_same _ _ _ _
  · have hnode : node = d.2.getD 0x7F := by
      show (match d.2 with | some n => n | none => 0x7F) = _
      cases d.2 <;> rfl
    rw [hnode]

/-- SAMPLE of an unused slot writes the record of no node. -/
theorem exec_sample_none {core : Fin 192} {job : Fin 8} {s : State} {i : Nat} {r : BitVec 512}
    (hr : s.ready core.val job.val 0x42 = some (i, r)) (hn : slotAt (s.imp i).run.manifest (vectorBody r).aux = none) :
    ∃ t, exec (.sample core job) s = .next t ∧ t.t0 = (((s.handOver core.val job.val r).coreRead i (vectorBody r).srcA
      (8 * (vectorBody r).n)).2.2.coreWrite i (vectorBody r).dst (leBytes 8 (0x7F * 2 ^ 32))).2.t0 := by
  show ∃ t, execSample core job s = .next t ∧ _
  unfold execSample
  refine command_effect hr (fun u v _ h0 hu => h0.trans hu) ?_
  extract_lets b x p done dk
  split
  · rfl
  next e he => cases hn.symm.trans he

/-- ELEMENT's effect. -/
def elementEffect (core i : Nat) (r : BitVec 512) (s : State) : State :=
  let b := vectorBody r
  let x := s.readVals i b.inFmt b.srcA b.n
  let two := decide (b.subop ≤ 4)
  let y := if two then x.2.readVals i b.inFmt b.srcB b.n else ([], x.2)
  let f := (Elem.ofCode b.outFmt).getD .fp32
  let z := if b.subop = 2 then y.2.readVals i b.outFmt b.dst b.n else ([], y.2)
  let out := x.1.zipIdx.map fun p => elementOp b.subop b.imm p.1 (y.1.getD p.2 0#32) (z.1.getD p.2 0#32)
  let g := (Elem.ofCode b.inFmt).getD .fp32
  let s := z.2.moveMarks i b.srcA (g.bytes b.n) b.dst (f.bytes b.n) f.bits g.bits
  s.writeOut core i f (if b.subop = 8 then (Scale.ofCode b.outSf).getD .none else .none) b.dst [out]

theorem elementEffect_plain {core i : Nat} {r : BitVec 512} {s : State} (hsub : (vectorBody r).subop ≠ 8) :
    elementEffect core i r s =
      let b := vectorBody r
      let x := s.readVals i b.inFmt b.srcA b.n
      let y := if b.subop ≤ 4 then x.2.readVals i b.inFmt b.srcB b.n else ([], x.2)
      let f := (Elem.ofCode b.outFmt).getD .fp32
      let g := (Elem.ofCode b.inFmt).getD .fp32
      let z := if b.subop = 2 then y.2.readVals i b.outFmt b.dst b.n else ([], y.2)
      (z.2.moveMarks i b.srcA (g.bytes b.n) b.dst (f.bytes b.n) f.bits g.bits).writeOut core i f .none b.dst
        [x.1.zipIdx.map fun p => elementOp b.subop b.imm p.1 (y.1.getD p.2 0#32) (z.1.getD p.2 0#32)] := by
  unfold elementEffect
  simp only [decide_eq_true_eq, if_neg hsub]

/-- ELEMENT of one place writes its result codes where no fresh block and no run-time tensor holds them. -/
theorem exec_element_plain {core : Fin 192} {job : Fin 8} {s : State} {i : Nat} {r : BitVec 512} :
    let b := vectorBody r
    let h := s.handOver core.val job.val r
    let f := (Elem.ofCode b.outFmt).getD .fp32
    s.ready core.val job.val 0x40 = some (i, r) → b.subop ≠ 8 → s.freshBlock i b.dst = none → s.runtimeAt i b.dst = none →
      let x := h.readVals i b.inFmt b.srcA b.n
      let y := if b.subop ≤ 4 then x.2.readVals i b.inFmt b.srcB b.n else ([], x.2)
      let z := if b.subop = 2 then y.2.readVals i b.outFmt b.dst b.n else ([], y.2)
      let out := x.1.zipIdx.map fun p => elementOp b.subop b.imm p.1 (y.1.getD p.2 0#32) (z.1.getD p.2 0#32)
      let bs := packRow f (quantRow f .none out).1
      s.writable i b.dst bs.length = true → ∃ t, exec (.element core job) s = .next t ∧ t.holds b.dst bs
        ∧ (s.sound = true → s.sameOutside t b.dst bs.length) := by
  intro b h f hr hsub hf hrt x y z out bs hw
  have hx : Reads 0x40 core.val i h x.2 := .readVals _ _ i h _ _ _
  have hy : Reads 0x40 core.val i x.2 y.2 := by
    show Reads _ _ i x.2 (if b.subop ≤ 4 then x.2.readVals i b.inFmt b.srcB b.n else ([], x.2)).2
    split
    · exact .readVals _ _ i _ _ _ _
    · exact .refl _ _ i _
  have hz : Reads 0x40 core.val i y.2 z.2 := by
    show Reads _ _ i y.2 (if b.subop = 2 then y.2.readVals i b.outFmt b.dst b.n else ([], y.2)).2
    split
    · exact .readVals _ _ i _ _ _ _
    · exact .refl _ _ i _
  obtain ⟨t, ht, hh, ho⟩ := command_writeOut hr (e := elementEffect core.val) (((hx.trans hy).trans hz).trans (.moveMarks _ _ i _ _ _ _ _ _ _)) hf hrt
    (elementEffect_plain hsub)
  rw [resultBytes_singleton] at hh ho
  exact ⟨t, ht, hh hw, ho⟩

/-- Settles O21: each command of the Setter reads, and then writes what the obligation says. -/
theorem setterResults : Obligations.SetterResults := by
  intro core job s i r b h f
  refine ⟨?_, ?_, fun hr => ⟨fun hn hw => ?_, fun e he => ?_⟩, fun fs hr hfs => ?_, fun fs hr hs hfs => ?_⟩
  · exact fun hr hsub hf hrt => exec_element_plain hr hsub hf hrt
  · intro hr hf hrt x v bs hw
    have hu : Reads 0x40 core.val i (s.handOver core.val job.val r) (h.readVals i b.inFmt b.srcA b.n).2 := .readVals _ _ i _ _ _ _
    have hv : (match b.subop with
        | 0 => lanesTree treeF x
        | 1 => lanesTree (fun xs => treeMaxAux xs.length xs) x
        | _ => lanesTree treeF (x.map fun v => mulF v v)) = v := by
      show _ = if b.subop = 0 then _ else if b.subop = 1 then _ else _
      generalize b.subop = q
      rcases q with _ | _ | q <;> rfl
    obtain ⟨t, ht, hh, ho⟩ := command_writeOut hr
      (e := fun i r s => (s.readVals i (vectorBody r).inFmt (vectorBody r).srcA (vectorBody r).n).2.writeOut core.val i
        ((Elem.ofCode (vectorBody r).outFmt).getD .fp32) .none (vectorBody r).dst
        [[match (vectorBody r).subop with
          | 0 => lanesTree treeF (s.readVals i (vectorBody r).inFmt (vectorBody r).srcA (vectorBody r).n).1
          | 1 => lanesTree (fun xs => treeMaxAux xs.length xs)
              (s.readVals i (vectorBody r).inFmt (vectorBody r).srcA (vectorBody r).n).1
          | _ => lanesTree treeF
              ((s.readVals i (vectorBody r).inFmt (vectorBody r).srcA (vectorBody r).n).1.map fun v => mulF v v)]])
      hu hf hrt (congrArg (fun v => State.writeOut _ core.val i f .none b.dst [[v]]) hv)
    rw [resultBytes_singleton] at hh ho
    exact ⟨t, ht, hh hw, ho⟩
  · have hu : Reads 0x40 core.val i (s.handOver core.val job.val r) (h.coreRead i b.srcA (8 * b.n)).2.2 := .coreRead _ _ i _ _ _
    obtain ⟨t, ht, ht0⟩ := exec_sample_none hr hn
    obtain ⟨hh, ho⟩ := hu.written ht0
    rw [length_leBytes] at hh ho
    exact ⟨t, ht, hh hw, ho⟩
  · obtain ⟨t, ht, u, d, hu, honly, hd, ht0⟩ := exec_sample hr he
    refine ⟨t, d, ht, by rw [honly.imp]; exact hd, ?_⟩
    have := hu.written ht0
    rwa [length_leBytes] at this
  · obtain ⟨t, bs, ht, hbs, hw, -⟩ := exec_fontStats_next hr hfs
    refine ⟨t, ht, fun x hx hwr hap hs k hk => ?_⟩
    have hzero : t.byteAt (x.2 + k) = (List.replicate (8 * fs.kind.alphabet) 0#8).getD k 0#8 := by
      rw [hw.bytes hs, List.filter_append, List.foldl_append, foldl_putBytes_outside fun p hp => ?_]
      · refine foldl_putBytes_value (fun p hp _ _ => ?_) _ (.inl ⟨(x.2, List.replicate (8 * fs.kind.alphabet) 0#8),
          List.mem_filter.mpr ⟨List.mem_map_of_mem hx, ?_⟩, Nat.le_add_right _ _, ?_⟩)
        · obtain ⟨z, -, rfl⟩ := List.mem_map.mp (List.mem_of_mem_filter hp)
          rw [getD_replicate_zero, getD_replicate_zero]
        · rw [List.length_replicate]
          exact mayWriteAll_of_writable hwr
        · simpa using hk
      · rw [show b = vectorBody r from rfl] at hap
        obtain rfl := List.mem_singleton.mp (List.mem_of_mem_filter hp)
        simp only [hbs]
        omega
    rw [hzero, getD_replicate_zero]
  · obtain ⟨t, bs, ht, hbs, hw, ht0⟩ := exec_fontStats_next hr hfs
    refine ⟨t, ht, fun hread hpair hwr k hk => ?_, fun y hy hys => hw.outside hs fun p hp => ?_⟩
    · exact fontStats_sums hs hread hpair hwr ht0 hk
    · rcases List.mem_append.mp hp with hp | hp
      · obtain ⟨x, hx, rfl⟩ := List.mem_map.mp hp
        have := hys x hx
        simp only [List.length_replicate]
        omega
      · obtain rfl := List.mem_singleton.mp hp
        simp only [hbs]
        omega

end Sys2Proof.Machine
end

section
/-!
The Galley's store and what a tile reads (R159 to R175).
-/
namespace Sys2Proof.Machine

open Sys2Proof

/-! The store (R159). -/

theorem putAtt_galley (c : Core) (d row : Nat) {x : AttState} (hx : x.o.length = d) (q : Nat) :
    spGet 0#32 (c.putAtt d row x).galley q = if stateIndex d row ≤ q ∧ q < stateIndex d row + (d + 2)
      then (x.m :: x.l :: x.o).getD (q - stateIndex d row) 0#32 else spGet 0#32 c.galley q := by
  refine (spGet_putRun 0#32 (stateIndex d row) q (x.m :: x.l :: x.o) 0 c.galley).trans ?_
  simp only [Nat.add_zero, List.length_cons, hx]

theorem attState_putAtt_same (c : Core) (d row : Nat) {x : AttState} (hx : x.o.length = d) :
    (c.putAtt d row x).attState d row = x := by
  have hg : ∀ k, k < d + 2 → spGet 0#32 (c.putAtt d row x).galley (stateIndex d row + k) = (x.m :: x.l :: x.o).getD k 0#32 := fun k hk => by
    rw [putAtt_galley c d row hx, if_pos (by omega), Nat.add_sub_cancel_left]
  unfold Core.attState
  simp only [hg 0 (by omega), hg 1 (by omega)]
  have ho : (List.range d).map (fun j => spGet 0#32 (c.putAtt d row x).galley (stateIndex d row + (2 + j))) = x.o := by
    refine List.ext_getElem (by simp [hx]) fun j h1 h2 => ?_
    rw [List.getElem_map, List.getElem_range, hg _ (by omega), Nat.add_comm 2 j]
    simp [h2]
  rw [ho]
  rfl

theorem stateIndex_apart {d row row' : Nat} (h : row' ≠ row) : stateIndex d row' + (d + 2) ≤ stateIndex d row
    ∨ stateIndex d row + (d + 2) ≤ stateIndex d row' := by
  unfold stateIndex
  rcases Nat.lt_or_gt_of_ne h with hlt | hgt
  · have := Nat.mul_le_mul_right (d + 2) (show row' + 1 ≤ row from hlt)
    rw [Nat.succ_mul] at this
    omega
  · have := Nat.mul_le_mul_right (d + 2) (show row + 1 ≤ row' from hgt)
    rw [Nat.succ_mul] at this
    omega

theorem attState_putAtt_ne (c : Core) (d : Nat) {row row' : Nat} {x : AttState} (hx : x.o.length = d) (h : row' ≠ row) :
    (c.putAtt d row x).attState d row' = c.attState d row' := by
  have hap := stateIndex_apart (d := d) h
  have hg : ∀ k, k < d + 2 → spGet 0#32 (c.putAtt d row x).galley (stateIndex d row' + k)
      = spGet 0#32 c.galley (stateIndex d row' + k) := fun k hk => by rw [putAtt_galley c d row hx, if_neg (by omega)]
  unfold Core.attState
  simp only [hg 0 (by omega), hg 1 (by omega)]
  congr 1
  exact List.map_congr_left fun j hj => hg _ (by have := List.mem_range.mp hj; omega)

/-- States put one after another stand at their rows, and every other row is as it was. -/
theorem attState_putStates (d base row : Nat) (states : List AttState) (h : ∀ x ∈ states, x.o.length = d) : ∀ (k : Nat) (c : Core),
    (((states.zipIdx k).foldl (fun c x => c.putAtt d (base + x.2) x.1) c).attState d row) =
      if base + k ≤ row ∧ row < base + k + states.length then states.getD (row - (base + k)) (AttState.zero d) else c.attState d row := by
  induction states with
  | nil => intro k c; rw [if_neg (by simp)]; rfl
  | cons x states ih =>
    intro k c
    have hx := h x List.mem_cons_self
    rw [List.zipIdx_cons, List.foldl_cons, ih fun y hy => h y (List.mem_cons_of_mem _ hy)]
    simp only [List.length_cons]
    by_cases hr : row = base + k
    · subst hr
      rw [if_neg (by omega), if_pos (by omega), attState_putAtt_same c d _ hx]
      simp
    · rw [attState_putAtt_ne c d hx hr]
      by_cases hin : base + (k + 1) ≤ row ∧ row < base + (k + 1) + states.length
      · rw [if_pos hin, if_pos (by omega), show row - (base + k) = (row - (base + (k + 1))) + 1 by omega, List.getD_cons_succ]
      · rw [if_neg hin, if_neg (by omega)]

/-! The lengths of states. -/

theorem chunkUpdate_length (st : AttState) (keys : List (Bool × F32 × List Num × F32)) :
    (chunkUpdate st keys).o.length = st.o.length := by
  unfold chunkUpdate
  extract_lets vis mc mn a p l seen o
  split
  · rfl
  · split
    · rfl
    · simp [o]

theorem foldl_chunkUpdate_length {α : Type} (f : α → List (Bool × F32 × List Num × F32)) (xs : List α) : ∀ st : AttState,
    (xs.foldl (fun st ks => chunkUpdate st (f ks)) st).o.length = st.o.length := by
  induction xs with
  | nil => exact fun _ => rfl
  | cons x xs ih => exact fun st => (ih _).trans (chunkUpdate_length st _)

theorem attState_length (c : Core) (d row : Nat) : (c.attState d row).o.length = d := by simp [Core.attState]

theorem mergeStates_length {a b : AttState} {d : Nat} (ha : a.o.length = d) (hb : b.o.length = d) : (mergeStates a b).o.length = d := by
  unfold mergeStates
  extract_lets m a1 a2
  split <;> simp [ha, hb]

theorem ofTriple_length {bs : List Byte} {d : Nat} (h : bs.length = 4 * (d + 2)) : (AttState.ofTriple bs).o.length = d := by
  simp [AttState.ofTriple, f32s, chunks_of_mul (w := 4) (by decide) h]

theorem triple_length {x : AttState} {d : Nat} (h : x.o.length = d) : x.triple.length = 4 * (d + 2) := by
  rw [AttState.triple, f32Bytes, length_flatMap_const fun v => length_leBytes 4 _]
  simp [h]

/-! What a tile reads. -/

section
variable (op core i : Nat)

theorem Reads.foldl_snd {α β : Type} {f : β × State → α → β × State} (hf : ∀ a x, Reads op core i a.2 (f a x).2)
    (xs : List α) (a : β × State) : Reads op core i a.2 (xs.foldl f a).2 := by
  induction xs generalizing a with
  | nil => exact .refl op core i a.2
  | cons x xs ih => exact (hf a x).trans (ih (f a x))

theorem Reads.folioKeys (s : State) (l : LayerCfg) (slice page entry : Nat) :
    Reads op core i s (s.folioKeys i l slice page entry).2 := by
  have key : ∀ P : List (List Key) × State → Prop, (∀ x t, Reads op core i s t → P (x, t)) → P (s.folioKeys i l slice page entry) := by
    intro P hP
    unfold State.folioKeys
    extract_lets id tier a rb h f base sound b row keys
    have h1 : Reads op core i s h.2.2 := .coreRead op core i s _ _
    have h2 : Reads op core i h.2.2 b.2.2 := .coreRead op core i _ _ _
    clear_value keys row id tier a rb sound base f b h
    refine iteInduction (motive := P) (fun _ => hP _ _ (.refl op core i s)) (fun _ => ?_)
    refine iteInduction (motive := P) (fun _ => hP _ _ (h1.trans (.badIndex op core i _ _))) (fun _ => ?_)
    exact iteInduction (motive := P) (fun _ => hP _ _ (.ite h1 (h1.trans (.report op core i _ _)))) (fun _ => hP _ _ (h1.trans h2))
  exact key (fun r => Reads op core i s r.2) fun _ _ h => h

theorem Reads.freshKeys (s : State) (l : LayerCfg) (b : AttendBody) (t : Slot) (k : Nat) :
    Reads op core i s (s.freshKeys i k l b t).2 :=
  (Reads.coreRead op core i s _ _).trans (.coreRead op core i _ _ _)

theorem Reads.queryRows (s : State) (c off d rows : Nat) : Reads op core i s (s.queryRows i c off d rows).2 :=
  (Reads.coreRead op core i s _ _).trans (.coreRead op core i _ _ _)

theorem Reads.shardKeys (s : State) (c : Nat) (l : LayerCfg) (b : AttendBody) : Reads op core i s (s.shardKeys c i l b).2 := by
  unfold State.shardKeys
  extract_lets page
  clear_value page
  cases page with
  | none => exact .refl op core i s
  | some a =>
    dsimp only
    have hp : Reads op core i s (s.coreRead i a (8 * b.e)).2.2 := .coreRead op core i s _ _
    generalize s.coreRead i a (8 * b.e) = p at hp ⊢
    refine hp.trans (.foldl_snd op core i (fun acc e => ?_) _ (([] : List (List Key)), p.2.2))
    exact .folioKeys op core i acc.2 l _ _ _

theorem Reads.tileMasks (s : State) (c : Nat) (l : LayerCfg) (b : AttendBody) (slot : Option Slot) :
    Reads op core i s (s.tileMasks c i l b slot).2 := by
  have hx : Reads op core i s (if b.document then s.coreRead i (t0Addr c b.segOff) (4 * 4096) else ([], true, s)).2.2 := by
    cases b.document
    · exact .refl op core i s
    · exact .coreRead op core i s (t0Addr c b.segOff) (4 * 4096)
  exact hx.trans (.coreRead op core i _ _ _)

end

end Sys2Proof.Machine
end

section
/-!
ATTEND and MERGE (R163 to R165, R181).
-/
namespace Sys2Proof.Machine

open Sys2Proof

/-- States are put into a core's store, row after row. -/
def State.putStates (s : State) (core d row : Nat) (states : List AttState) : State :=
  s.modCore core fun c => states.zipIdx.foldl (fun c x => c.putAtt d (row + x.2) x.1) c

theorem Reads.putStates (core i : Nat) (s : State) (d row : Nat) (states : List AttState) :
    Reads 0x30 core i s (s.putStates core d row states) := by
  have h : Eff 0x30 core i s (s.putStates core d row states) := .putStates (Or.inl rfl) s d row states
  have hg : (s.putStates core d row states).core core
      = { s.core core with galley := ((s.putStates core d row states).core core).galley } := h.core
  exact ⟨h, rfl, rfl, rfl, by rw [hg], by rw [hg]⟩

theorem Reads.widen {core i : Nat} {s t : State} (h : Reads 0x40 core i s t) (op : Nat) : Reads op core i s t where
  eff := { h.eff with core := by rw [h.eff.core_eq]; exact Core.sameBut_refl op _ }
  bytes := h.bytes
  flips := h.flips
  scales := h.scales
  accP := h.accP
  accR := h.accR

theorem handOver_galley (s : State) (core job : Nat) (r : BitVec 512) :
    ((s.handOver core job r).core core).galley = (s.core core).galley := by
  rw [State.handOver, State.core_modCore_same]
  rfl

theorem handOver_attState (s : State) (core job : Nat) (r : BitVec 512) (d row : Nat) :
    ((s.handOver core job r).core core).attState d row = (s.core core).attState d row := by
  unfold Core.attState
  rw [handOver_galley]

/-- The bytes in which a tile of the Galley writes states (R164, R165). -/
def attBytes (final : Bool) (fmt : Nat) (factor : F32) (states : List AttState) : List Byte :=
  if final then resultBytes ((Elem.ofCode fmt).getD .fp32) (states.map fun x => x.final factor) else states.flatMap AttState.triple

/-- States are written as triples anywhere, and as final rows where no run-time tensor stands. -/
theorem writeAtt_plain {s : State} {i off core : Nat} {final : Bool} {outSf : Nat}
    (h : final = true → (Scale.ofCode outSf).getD .none = .none ∧ s.runtimeAt i (t0Addr core off) = none) (outFmt : Nat) (factor : F32)
    (states : List AttState) : ∃ z : State, Reads 0x40 core i s z
      ∧ s.writeAtt core i final outFmt outSf factor off states
        = (z.coreWrite i (t0Addr core off) (attBytes final outFmt factor states)).2 := by
  cases final with
  | false => exact ⟨s, .refl _ core i s, rfl⟩
  | true =>
    obtain ⟨hsf, hr⟩ := h rfl
    refine ⟨s.countPlain i ((Elem.ofCode outFmt).getD .fp32) (states.map fun x => x.final factor), .count 0x40 core i s .convFaults _, ?_⟩
    show s.writeRows core i _ _ _ _ = _
    unfold State.writeRows
    rw [hr, hsf]
    exact writePlainRows_none s i _ _ _

/-- What a tile of the Galley leaves: the states in its store and, where it writes, their bytes at its place and nothing else. -/
structure GalleyTile (s t : State) (core i d row a : Nat) (states : List AttState) (silent final : Bool) (outFmt outSf : Nat)
    (factor : F32) : Prop where
  store : ∀ k, (t.core core).attState d k =
    if row ≤ k ∧ k < row + states.length then states.getD (k - row) (AttState.zero d) else (s.core core).attState d k
  quiet : silent = true → ∀ x, t.byteAt x = s.byteAt x
  written : silent = false → (final = true → (Scale.ofCode outSf).getD .none = .none ∧ s.runtimeAt i a = none) →
    (s.writable i a (attBytes final outFmt factor states).length = true → t.holds a (attBytes final outFmt factor states))
    ∧ (s.sound = true → s.sameOutside t a (attBytes final outFmt factor states).length)

theorem galleyTile_of {s u t : State} {core job i d row off outFmt outSf : Nat} {r : BitVec 512} {states : List AttState}
    {silent final : Bool} {factor : F32} (hu : Reads 0x40 core i (s.handOver core job r) u) (hd : ∀ x ∈ states, x.o.length = d)
    (honly : OnlyT0 (if silent then u.putStates core d row states
      else (u.putStates core d row states).writeAtt core i final outFmt outSf factor off states) t)
    (ht0 : t.t0 = (if silent then u.putStates core d row states
      else (u.putStates core d row states).writeAtt core i final outFmt outSf factor off states).t0) :
    GalleyTile s t core i d row (t0Addr core off) states silent final outFmt outSf factor := by
  have hv : Reads 0x30 core i (s.handOver core job r) (u.putStates core d row states) :=
    (hu.widen 0x30).trans (.putStates core i u d row states)
  have hcore : t.core core = (u.putStates core d row states).core core := by
    rw [honly.core]
    split
    · rfl
    · exact (Eff.writeAtt 0x40 core _ core _ _ _ _ _ _).core_eq
  refine ⟨fun k => ?_, fun hs x => ?_, fun hs hf => ?_⟩
  · rw [hcore, State.putStates, State.core_modCore_same, attState_putStates d row k states hd, hu.eff.core_eq, handOver_attState]
    rfl
  · rw [State.byteAt, ht0, if_pos hs]
    exact hv.byteAt x
  · obtain ⟨z, hz, heq⟩ := writeAtt_plain (s := u.putStates core d row states) (core := core) (off := off)
      (fun h => ⟨(hf h).1, (hv.eff.runtimeAt _).trans (hf h).2⟩) outFmt factor states
    rw [hs, if_neg (by decide), heq] at ht0
    exact (hv.trans (hz.widen 0x30)).written ht0

/-- The store's rows of a tile. -/
theorem GalleyTile.states_eq {s t : State} {core i d row a : Nat} {states : List AttState} {silent final : Bool} {outFmt outSf : Nat}
    {factor : F32} (h : GalleyTile s t core i d row a states silent final outFmt outSf factor) {n : Nat} (hn : states.length = n) :
    ((List.range n).map fun k => (t.core core).attState d (row + k)) = states := by
  subst hn
  refine List.ext_getElem (by simp) fun k h1 h2 => ?_
  rw [List.getElem_map, List.getElem_range, h.store, if_pos (by omega)]
  simp [h2]

/-- An attend tile reads, puts its states into the store, and writes them unless it is silent. -/
theorem attendTile_eq {s : State} {i : Nat} {r : BitVec 512} {l : LayerCfg} (core : Nat)
    (hl : s.layer i (attendBody r).layer = some l) :
    let b := attendBody r
    ∃ u states, Reads 0x40 core i s u ∧ states.length = b.rows ∧ (∀ x ∈ states, x.o.length = l.d)
      ∧ attendTile core i r s = if b.silent then u.putStates core l.d b.stateRow states
        else (u.putStates core l.d b.stateRow states).writeAtt core i b.final b.outFmt b.outSf b.outFactor b.outOff states := by
  intro b
  unfold attendTile
  extract_lets slot
  split
  next hn => cases hn.symm.trans hl
  next l' hl' =>
    obtain rfl : l = l' := Option.some.inj (hl.symm.trans hl')
    extract_lets qx fo fx mx mk s1 c states s2
    have h3 : Reads 0x40 core i fo.2 fx.2 := by
      show Reads 0x40 core i fo.2 (match slot with
        | some t => if b.nF = 0 then ([], fo.2) else fo.2.freshKeys i core l b t
        | none => ([], fo.2)).2
      cases slot with
      | none => exact .refl _ core i fo.2
      | some t =>
        dsimp only
        split
        · exact .refl _ core i fo.2
        · exact .freshKeys _ core i fo.2 l b t core
    have h5 : Reads 0x40 core i mx.2 s1 := .ite (.damageSlot _ core i mx.2 _ _) (.refl _ core i mx.2)
    have h : Reads 0x40 core i s s1 := ((((Reads.queryRows _ core i s _ _ _ _).trans (.shardKeys _ core i qx.2 core l b)).trans h3).trans
      (.tileMasks _ core i fx.2 core l b slot)).trans h5
    refine ⟨s1, states, h, by simp [states], fun x hx => ?_, rfl⟩
    obtain ⟨row, -, rfl⟩ := List.mem_map.mp hx
    refine (foldl_chunkUpdate_length _ _ _).trans ?_
    split
    · exact attState_length c l.d _
    · exact List.length_replicate

/-- The states that MERGE makes. -/
def mergedStates (c : Core) (b : MergeBody) (d : Nat) (right : List Byte) : List AttState :=
  (List.range b.rows).map fun row =>
    mergeStates (c.attState d (b.stateRow + row)) (AttState.ofTriple ((right.drop (row * (4 * (d + 2)))).take (4 * (d + 2))))

/-- MERGE's effect. -/
def galleyMerge (core i : Nat) (r : BitVec 512) (s : State) : State :=
  let b := mergeBody r
  match s.layer i b.layer with
  | none => s
  | some l =>
    let x := s.coreRead i (t0Addr core b.right) (b.rows * (4 * (l.d + 2)))
    let states := mergedStates (x.2.2.core core) b l.d x.1
    (x.2.2.putStates core l.d b.stateRow states).writeAtt core i b.final b.outFmt b.outSf b.outFactor b.outOff states

/-- MERGE reads the right triples, and puts and writes what they and the store make. -/
theorem galleyMerge_eq {s : State} {i : Nat} {r : BitVec 512} {l : LayerCfg} (core : Nat) (hl : s.layer i (mergeBody r).layer = some l) :
    let b := mergeBody r
    let states := mergedStates (s.core core) b l.d (s.coreRead i (t0Addr core b.right) (b.rows * (4 * (l.d + 2)))).1
    ∃ u, Reads 0x40 core i s u ∧ galleyMerge core i r s
      = (u.putStates core l.d b.stateRow states).writeAtt core i b.final b.outFmt b.outSf b.outFactor b.outOff states := by
  unfold galleyMerge
  extract_lets b states
  split
  next hn => cases hn.symm.trans hl
  next l' hl' =>
    obtain rfl : l = l' := Option.some.inj (hl.symm.trans hl')
    extract_lets x made
    have hmade : made = states := by
      show mergedStates (x.2.2.core core) b l.d x.1 = _
      rw [(coreRead_only s i _ _).core]
    exact ⟨x.2.2, .coreRead _ core i s _ _, by rw [hmade]⟩

theorem mergedStates_count (c : Core) (b : MergeBody) (d : Nat) (right : List Byte) : (mergedStates c b d right).length = b.rows := by
  simp [mergedStates]

theorem mergedStates_length {c : Core} {b : MergeBody} {d : Nat} {right : List Byte} (h : right.length = b.rows * (4 * (d + 2))) :
    ∀ x ∈ mergedStates c b d right, x.o.length = d := by
  intro x hx
  obtain ⟨row, hrow, rfl⟩ := List.mem_map.mp hx
  have hrow := Nat.mul_le_mul_right (4 * (d + 2)) (show row + 1 ≤ b.rows from List.mem_range.mp hrow)
  rw [Nat.succ_mul] at hrow
  refine mergeStates_length (attState_length _ _ _) (ofTriple_length ?_)
  rw [List.length_take, List.length_drop, h]
  omega

theorem attBytes_triples (outFmt : Nat) (factor : F32) (states : List AttState) :
    attBytes false outFmt factor states = states.flatMap AttState.triple := rfl

theorem attBytes_final (outFmt : Nat) (factor : F32) (states : List AttState) : attBytes true outFmt factor states
    = states.flatMap fun x => packRow ((Elem.ofCode outFmt).getD .fp32) (quantRow ((Elem.ofCode outFmt).getD .fp32) .none
        (x.final factor)).1 := List.flatMap_map _ _ _

theorem length_triples {states : List AttState} {d : Nat} (h : ∀ x ∈ states, x.o.length = d) :
    (states.flatMap AttState.triple).length = states.length * (4 * (d + 2)) := by
  induction states with
  | nil => simp
  | cons x xs ih =>
    rw [List.flatMap_cons, List.length_append, triple_length (h x List.mem_cons_self), ih fun y hy => h y (List.mem_cons_of_mem _ hy),
      List.length_cons]
    ring

section
variable {s t : State} {core i d row a n outFmt outSf : Nat} {states : List AttState} {silent final : Bool} {factor : F32}

theorem GalleyTile.triples (h : GalleyTile s t core i d row a states silent final outFmt outSf factor) (hn : states.length = n)
    (hd : ∀ x ∈ states, x.o.length = d) (hs : silent = false) (hf : final = false) :
    (s.writable i a (n * (4 * (d + 2))) = true →
      t.holds a (((List.range n).map fun k => (t.core core).attState d (row + k)).flatMap AttState.triple))
    ∧ (s.sound = true → s.sameOutside t a (n * (4 * (d + 2)))) := by
  have := h.written hs fun hc => absurd (hf.symm.trans hc) (by decide)
  rw [hf, attBytes_triples, length_triples hd, hn] at this
  rwa [h.states_eq hn]

theorem GalleyTile.finals (h : GalleyTile s t core i d row a states silent final outFmt outSf factor) (hn : states.length = n)
    (hs : silent = false) (hf : final = true) (hsf : (Scale.ofCode outSf).getD .none = .none) (hr : s.runtimeAt i a = none) :
    let bs := ((List.range n).map fun k => (t.core core).attState d (row + k)).flatMap fun x => packRow ((Elem.ofCode outFmt).getD .fp32)
      (quantRow ((Elem.ofCode outFmt).getD .fp32) .none (x.final factor)).1
    (s.writable i a bs.length = true → t.holds a bs) ∧ (s.sound = true → s.sameOutside t a bs.length) := by
  have := h.written hs fun _ => ⟨hsf, hr⟩
  rw [hf, attBytes_final] at this
  rwa [h.states_eq hn]

theorem GalleyTile.other (h : GalleyTile s t core i d row a states silent final outFmt outSf factor) (hn : states.length = n) {k : Nat}
    (hk : k < row ∨ row + n ≤ k) : (t.core core).attState d k = (s.core core).attState d k := by
  rw [h.store, if_neg (by omega)]

end

/-- Settles O20: a tile reads, keeps its states in the store, and writes those. -/
theorem galleyWritesItsStateAsTriples : Obligations.GalleyWritesItsStateAsTriples := by
  intro core job s i r l states final
  refine ⟨fun hr hl => ?_, fun hr hl => ?_⟩
  · obtain ⟨t, ht, honly, ht0⟩ := command_next hr (attendTile core.val)
    obtain ⟨u, xs, hu, hlen, hd, heq⟩ := attendTile_eq (s := s.handOver core.val job.val r) core.val hl
    rw [heq] at honly ht0
    have hg := galleyTile_of hu hd honly ht0
    exact ⟨t, ht, hg.quiet, fun hs hf => (hg.triples hlen hd hs hf).1, fun hs hf => (hg.triples hlen hd hs hf).2,
      fun hs hf hsf hrt => hg.finals hlen hs hf hsf hrt, fun k hk => hg.other hlen hk⟩
  · obtain ⟨t, ht, honly, ht0⟩ := command_next hr (galleyMerge core.val)
    obtain ⟨u, hu, heq⟩ := galleyMerge_eq (s := s.handOver core.val job.val r) core.val hl
    rw [heq] at honly ht0
    have hlen := mergedStates_count ((s.handOver core.val job.val r).core core.val) (mergeBody r) l.d
      ((s.handOver core.val job.val r).coreRead i (t0Addr core.val (mergeBody r).right) ((mergeBody r).rows * (4 * (l.d + 2)))).1
    have hg := galleyTile_of (silent := false) hu (mergedStates_length (coreRead_length _ _ _ _)) honly ht0
    refine ⟨t, ht, fun k hk => ?_, fun hf => (hg.triples hlen (mergedStates_length (coreRead_length _ _ _ _)) rfl hf).1, fun hf => (hg.triples hlen (mergedStates_length (coreRead_length _ _ _ _)) rfl hf).2,
      fun hf hsf hrt => hg.finals hlen rfl hf hsf hrt, fun k hk => hg.other hlen hk⟩
    rw [hg.store, if_pos (by omega), Nat.add_sub_cancel_left, mergedStates, List.getD_eq_getElem?_getD, List.getElem?_map,
      List.getElem?_range hk, Option.map_some, Option.getD_some, handOver_attState]

end Sys2Proof.Machine
end

section
/-!
Requests at their target (R417, R419, R424, R431, R440).
-/
namespace Sys2Proof.Machine

open Sys2Proof

/-! What applying a request leaves alone. -/

/-- From `s` to `t` the replay tables, what the package has sent to itself, the ports and the causes of an impression's end stay. -/
structure Aloof (s t : State) : Prop where
  tables : t.fab.tables = s.fab.tables
  loop : t.fab.loop = s.fab.loop
  endpoint : t.fab.endpoint = s.fab.endpoint
  causes : t.causes = s.causes
  ports : t.ports = s.ports

namespace Aloof

variable {s t u : State}

theorem refl (s : State) : Aloof s s := ⟨rfl, rfl, rfl, rfl, rfl⟩

theorem trans (h : Aloof s t) (g : Aloof t u) : Aloof s u :=
  ⟨g.tables.trans h.tables, g.loop.trans h.loop, g.endpoint.trans h.endpoint, g.causes.trans h.causes, g.ports.trans h.ports⟩

theorem of_fab (hf : t.fab = s.fab) (hc : t.causes = s.causes) (hp : t.ports = s.ports) : Aloof s t :=
  ⟨by rw [hf], by rw [hf], by rw [hf], hc, hp⟩

theorem of_onlyT0 (h : OnlyT0 s t) : Aloof s t := .of_fab h.fab (by rw [h]) (by rw [h])

theorem count (s : State) (i : Nat) (c : Ctr) (n : Nat) : Aloof s (s.count i c n) := .of_fab (count_fab s i c n) (count_causes s i c n) (by rw [count_eq])

theorem setGate (s : State) (g : Nat × Nat × Nat) (op : Bool) : Aloof s (s.setGate g op) := ⟨rfl, rfl, rfl, rfl, rfl⟩

theorem ite {p : Prop} [Decidable p] (h : Aloof s t) (g : Aloof s u) : Aloof s (if p then t else u) := by split <;> assumption

theorem foldl {α : Type} {f : State → α → State} (hf : ∀ s x, Aloof s (f s x)) (xs : List α) (s : State) : Aloof s (xs.foldl f s) := by
  induction xs generalizing s with
  | nil => exact .refl s
  | cons x xs ih => exact (hf s x).trans (ih _)

theorem modCh (s : State) (c : Nat) (f : Channel → Channel) : Aloof s (s.modCh c f) := ⟨rfl, rfl, rfl, rfl, rfl⟩

theorem reportLines (s : State) (ch : Nat) (ls : List Nat) : Aloof s (s.reportLines ch ls) :=
  .foldl (fun s _ => .of_onlyT0 (report_only s _)) ls s

theorem touchSeg (s : State) (ch seg : Nat) : Aloof s (s.touchSeg ch seg) := by
  unfold State.touchSeg
  exact .ite ((modCh s _ _).trans (.reportLines _ _ _)) (.ite (.modCh s _ _) (.refl s))

theorem mergeSeg (s : State) (i a n : Nat) (x : Nat × Nat) : Aloof s (s.mergeSeg i a n x) := by
  unfold State.mergeSeg
  exact .ite (.modCh s _ _) (.ite ((modCh s _ _).trans (.reportLines _ _ _)) ((touchSeg s _ _).trans (.modCh _ _ _)))

theorem t1Read (s : State) (i a n : Nat) : Aloof s (s.t1Read i a n).2 := by
  unfold State.t1Read
  split
  · exact .refl s
  · exact .foldl (fun s x => .touchSeg s _ _) _ s

theorem t1Write (s : State) (i a : Nat) (bs : List Byte) : Aloof s (s.t1Write i a bs) := by
  unfold State.t1Write
  exact .ite (.refl s) ((foldl (fun s x => .mergeSeg s _ _ _ x) _ s).trans (.foldl (fun s x => .modCh s _ _) _ _))

theorem remRead (s : State) (i : Nat) (r : Request) (n : Nat) : Aloof s (s.remRead i r n).2.2 := by
  unfold State.remRead
  extract_lets off
  split
  · exact .t1Read s i off n
  · exact .of_onlyT0 (t0Read_only s off n)

theorem remWrite (s : State) (i : Nat) (r : Request) (bs : List Byte) : Aloof s (s.remWrite i r bs) := by
  unfold State.remWrite
  exact .ite (.t1Write s i _ bs) (.of_onlyT0 (t0Write_only s _ bs))

theorem headCount (s : State) (i : Nat) (c : HeadCheck) : Aloof s (s.headCount i c) := by
  cases c
  · exact .refl s
  · exact .count s i _ 1
  · exact .count s i _ 1
  · exact .count s i _ 1

theorem bayStore (s : State) (i : Nat) (b : BayAt) (a : Nat) (bs : List Byte) : Aloof s (s.bayStore i b a bs).2 := by
  unfold State.bayStore
  split
  · extract_lets c
    split
    · exact .setGate s _ true
    · exact (headCount s i c).trans (.setGate _ _ false)
  · exact .refl s

theorem modServe (s : State) (i : Nat) (f : Serve → Serve) : Aloof s (s.modServe i f) := ⟨rfl, rfl, rfl, rfl, rfl⟩

theorem takeRoster (s : State) (i m : Nat) : Aloof s (s.takeRoster i m) := by
  unfold State.takeRoster
  exact .ite (.refl s) (.modServe s i _)

theorem applyFlag (s : State) (i a : Nat) (v : BitVec 64) : Aloof s (s.applyFlag i a v) := by
  unfold State.applyFlag
  extract_lets s1
  have h1 : Aloof s s1 := (of_onlyT0 (t0Write_only s a _)).trans (.modServe _ i _)
  split
  · exact h1.trans (.setGate s1 _ _)
  · exact h1.trans ((takeRoster s1 i _).trans (.setGate _ _ _))
  · exact h1

theorem applyReq (s : State) (src simp : Nat) (r : Request) : Aloof s (s.applyReq src simp r).2.2.2 := by
  unfold State.applyReq
  extract_lets i x old new s1
  have hx : Aloof s x.2.2 := .remRead s i r r.length
  split
  · exact hx
  · split
    · split
      · exact (bayStore s i _ _ _).trans (.ite (.remWrite _ i r _) (.refl _))
      · exact .remWrite s i r r.data
    · split
      · split
        · exact (count s i _ 1).trans (.count _ i _ 1)
        · exact .applyFlag s i _ _
      · split
        · exact hx
        · exact hx.trans (.remWrite _ i r _)

end Aloof

/-! Replay tables (R431, R433, R434). -/

theorem table_congr {s t : State} (h : t.fab.tables = s.fab.tables) (src simp : Nat) : t.table src simp = s.table src simp := by
  unfold State.table
  rw [h]

theorem table_spec {s : State} {src simp : Nat} {b : InStream} (h : s.table src simp = some b) :
    b ∈ s.fab.tables ∧ b.source = src ∧ b.imprint = simp := by
  have hb := List.find?_some h
  simp only [Bool.and_eq_true, beq_iff_eq] at hb
  exact ⟨List.mem_of_find?_eq_some h, hb⟩

/-- A table put back is found in place of the one that was there. -/
theorem table_setTable {s : State} {src simp : Nat} {b c : InStream} (h : s.table src simp = some c) (hs : b.source = src)
    (hi : b.imprint = simp) : (s.setTable b).table src simp = some b := by
  subst hs hi
  show (s.fab.tables.map _).find? _ = _
  unfold State.table at h
  revert h
  induction s.fab.tables with
  | nil => exact fun h => by cases h
  | cons u us ih =>
    intro h
    rw [List.find?_cons] at h
    rw [List.map_cons, List.find?_cons]
    by_cases hu : (u.source == b.source && u.imprint == b.imprint) = true
    · simp only [hu, if_true, beq_self_eq_true, Bool.and_self]
    · rw [Bool.not_eq_true] at hu
      simp only [hu, Bool.false_eq_true, if_false] at h ⊢
      exact ih h

theorem advance_entries (n : Nat) : ∀ t : InStream, (t.advance n).source = t.source ∧ (t.advance n).imprint = t.imprint
    ∧ ((t.advance n).entries = t.entries ∨ (t.advance n).entries = t.entries.filter t.keeps) := by
  induction n with
  | zero => exact fun t => ⟨rfl, rfl, .inl rfl⟩
  | succ n ih =>
    intro t
    unfold InStream.advance
    split
    · exact ih { t with base := t.base + 1 }
    · exact ⟨rfl, rfl, .inr rfl⟩

/-- The stream's table once an entry has a state. -/
def InStream.withEntry (t : InStream) (e : BitVec 32) (st : EntryState) : InStream :=
  InStream.advance { t with entries := t.entries.map fun x => if x.eseq = e then { x with state := st } else x } 4097

theorem setEntry_eq {s : State} {src simp : Nat} {t : InStream} (h : s.table src simp = some t) (e : BitVec 32) (st : EntryState) :
    s.setEntry src simp e st = s.setTable (t.withEntry e st) := by
  unfold State.setEntry
  rw [h]
  rfl

theorem withEntry_mem {t : InStream} {e : BitVec 32} {st : EntryState} {x : Entry} (h : x ∈ (t.withEntry e st).entries) :
    ∃ y ∈ t.entries, x.eseq = y.eseq ∧ x.state = if y.eseq = e then st else y.state := by
  have hx : x ∈ t.entries.map fun x => if x.eseq = e then { x with state := st } else x := by
    rcases (advance_entries 4097 { t with entries := t.entries.map fun x => if x.eseq = e then { x with state := st } else x }).2.2 with h1 | h1
    · rwa [InStream.withEntry, h1] at h
    · rw [InStream.withEntry, h1] at h
      exact List.mem_of_mem_filter h
  obtain ⟨y, hy, rfl⟩ := List.mem_map.mp hx
  refine ⟨y, hy, ?_⟩
  split <;> exact ⟨rfl, rfl⟩

theorem table_setEntry {s : State} {src simp : Nat} {t : InStream} (h : s.table src simp = some t) (e : BitVec 32) (st : EntryState) :
    (s.setEntry src simp e st).table src simp = some (t.withEntry e st) := by
  obtain ⟨-, hs, hi⟩ := table_spec h
  obtain ⟨h1, h2, -⟩ := advance_entries 4097 { t with entries := t.entries.map fun x => if x.eseq = e then { x with state := st } else x }
  rw [setEntry_eq h]
  exact table_setTable h (h1.trans hs) (h2.trans hi)

/-- A response to another endpoint is sent, and nothing else changes. -/
theorem Sent.respond {s : State} {p : Packet} (h : p.head.source ≠ s.fab.endpoint) (r : Request) (st : Nat) (v : BitVec 64) (data : List Byte)
    (replayed : Bool) : Sent s (s.respond p r st v data replayed) := by
  unfold State.respond
  extract_lets i body opt head
  rw [if_neg h]
  split
  · exact .enqueue s _ _ _
  · exact .refl s

/-- With no request held, nothing of a stream is let go. -/
theorem release_nothing {s : State} {src simp : Nat} (h : ∀ b, s.table src simp = some b → ∀ x ∈ b.entries, x.state ≠ .held) (n : Nat) :
    s.release src simp n = s := by
  cases n with
  | zero => rfl
  | succ n =>
    unfold State.release
    split
    · rfl
    next x r hx =>
    obtain ⟨b, hb, hr⟩ := Option.bind_eq_some_iff.mp hx
    obtain ⟨e, he, hs⟩ := List.exists_of_findSome?_eq_some hr
    rw [if_neg (h b hb e he)] at hs
    cases hs

/-- A request that is finished has its state in its stream's table; its response is sent. -/
theorem finish_spec {s : State} {x : Entry} {t : InStream} (ht : s.table x.p.head.source x.p.head.imprint = some t)
    (hne : x.p.head.source ≠ s.fab.endpoint) (r : Request) (st : Nat) (v : BitVec 64) (data : List Byte) :
    (s.finish x r st v data).table x.p.head.source x.p.head.imprint = some (t.withEntry x.eseq (.done st v))
    ∧ (s.finish x r st v data).fab.loop = s.fab.loop ∧ (s.finish x r st v data).causes = s.causes
    ∧ (s.finish x r st v data).t0 = s.t0 ∧ ∀ q, (s.port q).Kept ((s.finish x r st v data).port q) := by
  have hse : s.setEntry x.p.head.source x.p.head.imprint x.eseq (.done st v) = s.setTable (t.withEntry x.eseq (.done st v)) :=
    setEntry_eq ht _ _
  have hsent : Sent (s.setTable (t.withEntry x.eseq (.done st v))) (s.finish x r st v data) := by
    unfold State.finish
    rw [hse]
    exact Sent.respond (s := s.setTable _) hne r st v data false
  refine ⟨?_, by rw [hsent.fab]; rfl, hsent.causes, hsent.t0, hsent.port⟩
  rw [table_congr (s := s.setTable (t.withEntry x.eseq (.done st v))) (by rw [hsent.fab]), ← hse]
  exact table_setEntry ht _ _

end Sys2Proof.Machine
end

section
/-!
A request takes effect once (R417, R419, R431, R440).
-/
namespace Sys2Proof.Machine

open Sys2Proof

theorem withEntry_get {t : InStream} {x : Entry} (h : t.entries = [x]) (hk : t.highest = some x.eseq) (st : EntryState) :
    (t.withEntry x.eseq st).entries = [{ x with state := st }] := by
  unfold InStream.withEntry
  rcases (advance_entries 4097 { t with entries := t.entries.map fun y => if y.eseq = x.eseq then { y with state := st } else y }).2.2
    with h1 | h1
  · rw [h1]
    simp [h]
  · rw [h1]
    have hkeep : ∀ y : Entry, y.eseq = x.eseq → ∀ es : List Entry, InStream.keeps { t with entries := es } y = true := by
      intro y hy es
      simp [InStream.keeps, hk, hy, behindBy]
    simp [h, hkeep]

/-- The table of a new stream with its first request. -/
def firstTable (s : State) (port : Nat) (p : Packet) (r : Request) : InStream :=
  { InStream.fresh p.head.source p.head.imprint r.sgen s.cycle with
    entries := [⟨r.eseq, port, p, .held⟩], highest := some r.eseq,
    base := (InStream.fresh p.head.source p.head.imprint r.sgen s.cycle).floor r.eseq }

/-- The package with that table. -/
def State.withFirst (s : State) (port : Nat) (p : Packet) (r : Request) : State :=
  (s.mapTables fun ts => ts ++ [InStream.fresh p.head.source p.head.imprint r.sgen s.cycle]).setTable (firstTable s port p r)

theorem table_append_fresh {s : State} {src simp : Nat} (h : s.table src simp = none) (sgen : BitVec 32) (now : Nat) :
    (s.mapTables fun ts => ts ++ [InStream.fresh src simp sgen now]).table src simp = some (InStream.fresh src simp sgen now) := by
  show (s.fab.tables ++ _).find? _ = _
  rw [List.find?_append, show s.fab.tables.find? _ = none from h]
  simp [InStream.fresh]

theorem table_withFirst {s : State} {port : Nat} {p : Packet} {r : Request} (h : s.table p.head.source p.head.imprint = none) :
    (s.withFirst port p r).table p.head.source p.head.imprint = some (firstTable s port p r) :=
  table_setTable (table_append_fresh h _ _) rfl rfl

/-- The first request of a stream that nothing refuses and nothing holds is started. -/
theorem arrive_first {s : State} {port : Nat} {p : Packet} {r : Request} (ht : s.table p.head.source p.head.imprint = none)
    (hlen : s.fab.tables.length < 512) (href : s.refusal p.head.source p.head.imprint r = none)
    (hgo : ((r.op = 0x03 || isAtomic r.op) && !(firstTable s port p r).clear r.eseq (r.op == 0x03)) = false) :
    ∃ n, s.arrive port p r = ((s.withFirst port p r).start ⟨r.eseq, port, p, .held⟩ r).release p.head.source p.head.imprint n := by
  have hopen : s.openTable p.head.source p.head.imprint r.sgen
      = some (s.mapTables fun ts => ts ++ [InStream.fresh p.head.source p.head.imprint r.sgen s.cycle]) := by
    unfold State.openTable
    rw [ht]
    exact if_pos hlen
  have hfresh := table_append_fresh ht r.sgen s.cycle
  have href' : (s.withFirst port p r).refusal p.head.source p.head.imprint r = none := href
  unfold State.arrive
  extract_lets src simp i pool g x
  split
  next hn => cases hn.symm.trans hopen
  next s1 hs1 =>
  obtain rfl : s1 = _ := Option.some.inj (hs1.symm.trans hopen)
  split
  next hn => cases hn.symm.trans hfresh
  next t1 ht1 =>
  obtain rfl : t1 = _ := Option.some.inj (ht1.symm.trans hfresh)
  extract_lets old sf d high es t2 s2 s3
  rw [if_neg (show ¬ old = true from Bool.false_ne_true)]
  have hs3 : s3 = (s.withFirst port p r).start ⟨r.eseq, port, p, .held⟩ r := by
    show (match (s.withFirst port p r).refusal src simp r with | some _ => _ | none => _) = _
    rw [href']
    exact if_neg (Bool.eq_false_iff.mp hgo)
  exact ⟨_, by rw [← hs3]; rfl⟩

/-- A request stands in its stream's table as done. -/
def State.DoneAs (t : State) (p : Packet) (r : Request) (st : Nat) (v : BitVec 64) : Prop :=
  ∃ b ∈ t.fab.tables, b.source = p.head.source ∧ b.imprint = p.head.imprint ∧ ∃ e ∈ b.entries, e.eseq = r.eseq ∧ e.state = .done st v

/-- A started T0 request is applied, and stands in its stream's table as done. -/
theorem start_done {u : State} {x : Entry} {r : Request} {b : InStream} (hsp : remSpace r.addr = 1)
    (hb : u.table x.p.head.source x.p.head.imprint = some b) (hes : b.entries = [x]) (hk : b.highest = some x.eseq)
    (hne : x.p.head.source ≠ u.fab.endpoint) :
    let a := u.applyReq x.p.head.source x.p.head.imprint r
    (∃ c, (u.start x r).table x.p.head.source x.p.head.imprint = some c ∧ c.entries = [{ x with state := .done a.1 a.2.1 }])
      ∧ (u.start x r).fab.loop = u.fab.loop ∧ (u.start x r).causes = u.causes ∧ (u.start x r).t0 = a.2.2.2.t0
      ∧ ∀ q, (u.port q).Kept ((u.start x r).port q) := by
  intro a
  have ha : Aloof u a.2.2.2 := .applyReq u _ _ r
  have hf := Sent.free a.2.2.2 x.port (poolOf x.p.head) x.p.body.granules
  have hstart : u.start x r = (a.2.2.2.free x.port (poolOf x.p.head) x.p.body.granules).finish x r a.1 a.2.1 a.2.2.1 :=
    if_neg (by rw [hsp]; decide)
  obtain ⟨htab, hloop, hc, h0, hport⟩ := finish_spec (x := x) (t := b)
    ((table_congr (by rw [hf.fab]) _ _).trans ((table_congr ha.tables _ _).trans hb)) (by rw [hf.fab, ha.endpoint]; exact hne) r a.1 a.2.1 a.2.2.1
  rw [hstart]
  refine ⟨⟨_, htab, withEntry_get hes hk _⟩, hloop.trans (by rw [hf.fab, ha.loop]), hc.trans (hf.causes.trans ha.causes),
    h0.trans hf.t0, fun q => ?_⟩
  have hq : a.2.2.2.port q = u.port q := by unfold State.port; rw [ha.ports]
  exact hq ▸ (hf.port q).trans (hport q)

section
variable {port : Fin 20} {p : Packet} {r : Request} {s : State}

/-- An expected request for this package arrives, and what it causes is settled. -/
theorem requestArrival_eq (hb : p.body = .request r) (hd : p.head.dest = s.fab.endpoint) (hlive : s.live = true)
    (hl : (s.port port.val).loopback = false) (hst : (s.port port.val).state = .up) (hq : p.head.lseq = (s.port port.val).expect) :
    exec (.fabRequestArrival port p) s = .next ((s.modPort port.val Port.accept).arrive port.val p r).settle := by
  show execFabRequestArrival port p s = _
  unfold execFabRequestArrival
  rw [hb]
  simp only [takeSeq_expected hlive hl hst hq, hd, ne_eq, not_true_eq_false, if_false, if_true]

/-- The first request of a stream that T0 serves at once takes effect and is recorded. -/
theorem requestArrival_first (hb : p.body = .request r) (hd : p.head.dest = s.fab.endpoint) (hne : p.head.source ≠ s.fab.endpoint)
    (hc : s.causes = []) (hloop : s.fab.loop = []) (hlive : s.live = true) (hl : (s.port port.val).loopback = false)
    (hst : (s.port port.val).state = .up) (hq : p.head.lseq = (s.port port.val).expect)
    (ht : s.table p.head.source p.head.imprint = none) (hlen : s.fab.tables.length < 512)
    (href : s.refusal p.head.source p.head.imprint r = none) (hsp : remSpace r.addr = 1)
    (hgo : ((r.op = 0x03 || isAtomic r.op) && !(firstTable s port.val p r).clear r.eseq (r.op == 0x03)) = false)
    {u : State} (hu : u = (s.modPort port.val Port.accept).withFirst port.val p r) {a : Nat × BitVec 64 × List Byte × State}
    (ha : u.applyReq p.head.source p.head.imprint r = a) :
    ∃ t, exec (.fabRequestArrival port p) s = .next t ∧ t.t0 = a.2.2.2.t0 ∧ t.DoneAs p r a.1 a.2.1
      ∧ (t.port port.val).expect = ((s.port port.val).expect + 1) % 4096 := by
  subst hu ha
  obtain ⟨n, harr⟩ := arrive_first (s := s.modPort port.val Port.accept) (port := port.val) ht hlen href hgo
  obtain ⟨⟨c, hc', hes⟩, hlp, hcs, h0, hport⟩ := start_done (u := (s.modPort port.val Port.accept).withFirst port.val p r)
    (x := ⟨r.eseq, port.val, p, .held⟩) (r := r) (b := firstTable (s.modPort port.val Port.accept) port.val p r) hsp (table_withFirst ht) rfl rfl hne
  rw [release_nothing (by
    intro b hb' x hx
    obtain rfl : c = b := Option.some.inj (hc'.symm.trans hb')
    rw [hes] at hx
    obtain rfl := List.mem_singleton.mp hx
    exact fun h => by cases h)] at harr
  obtain ⟨hmem, hsrc, himp⟩ := table_spec hc'
  refine ⟨_, requestArrival_eq hb hd hlive hl hst hq, ?_⟩
  rw [harr, settle_idle (hcs.trans hc) (hlp.trans hloop)]
  refine ⟨h0, ⟨c, hmem, hsrc, himp, _, by rw [hes]; exact List.mem_singleton_self _, rfl, rfl⟩, ?_⟩
  rw [(hport port.val).expect]
  show (((s.modPort port.val Port.accept).port port.val)).expect = _
  rw [accept_port, if_pos rfl]
  rfl

end

theorem bayAt_congr {s t : State} {i : Nat} (hi : t.imp i = s.imp i) (he : t.ed = s.ed) (hf : t.fab.endpoint = s.fab.endpoint) (a : Nat) :
    t.bayAt i a = s.bayAt i a := by
  unfold State.bayAt State.lockSet State.topology State.baySlotAt State.baySlots State.placement State.cfg
  rw [hi, he, hf]

theorem isShared_congr {s t : State} {i : Nat} (hi : t.imp i = s.imp i) (src simp : Nat) (r : Request) :
    t.isShared i src simp r = s.isShared i src simp r := by
  unfold State.isShared
  rw [hi]

/-! What applying a request to T0 gives (R417, R419). -/

theorem applyReq_store {u : State} {r : Request} (hop : r.op = 0x02) (hsp : remSpace r.addr = 1)
    (hbay : u.bayAt (remImp r.addr) (remOff r.addr) = none) (src simp : Nat) :
    u.applyReq src simp r = (0, 0, [], u.t0Write (remOff r.addr) r.data) := by
  unfold State.applyReq
  simp only [hop, hsp, if_true, hbay, State.remWrite]
  rfl

theorem applyReq_atomic {u : State} {r : Request} {src simp : Nat} (hop : isAtomic r.op = true) (hsp : remSpace r.addr = 1) (hs : u.sound = true)
    (hsh : u.isShared (remImp r.addr) src simp r = false) :
    let old := ofLeBytes (memRead u.t0.bytes (remOff r.addr) r.length)
    let new := leBytes r.length (atomicNew r.op (8 * r.length) old r.operand.toNat r.compare.toNat)
    u.applyReq src simp r = (0, BitVec.ofNat 64 old, [], (u.t0Read (remOff r.addr) r.length).2.t0Write (remOff r.addr) new) := by
  intro old new
  have h1 : r.op ≠ 0x01 ∧ r.op ≠ 0x02 ∧ r.op ≠ 0x03 := by
    simp only [isAtomic, Bool.and_eq_true, decide_eq_true_eq] at hop
    omega
  have hread : u.remRead (remImp r.addr) r r.length = (memRead u.t0.bytes (remOff r.addr) r.length, false, (u.t0Read (remOff r.addr) r.length).2) := by
    unfold State.remRead
    rw [if_neg (by rw [hsp]; decide)]
    simp only [t0Read_sound u _ _ hs]
    refine Prod.ext rfl (Prod.ext ?_ rfl)
    exact List.any_eq_false.mpr fun l _ => by rw [lineBad_sound u l hs]; decide
  have hw : ∀ v : State, v.remWrite (remImp r.addr) r new = v.t0Write (remOff r.addr) new := fun v => if_neg (by rw [hsp]; decide)
  have hsh' : ((u.t0Read (remOff r.addr) r.length).2.t0Write (remOff r.addr) new).isShared (remImp r.addr) src simp r = false := by
    have ho := (t0Read_only u (remOff r.addr) r.length).trans (t0Write_only _ (remOff r.addr) new)
    rw [← hsh]
    unfold State.isShared
    rw [ho.imp]
  unfold State.applyReq
  simp only [h1.1, h1.2.1, h1.2.2, if_false, hread, Bool.false_eq_true]
  rw [hw, hsh']
  rfl

/-- Bytes put into sound T0 stand there, and nothing else changes. -/
theorem t0Write_spec {s u t : State} (hu : u.t0.bytes = s.t0.bytes) (hs : u.sound = true) {a : Nat} {bs : List Byte}
    (ht : t.t0 = (u.t0Write a bs).t0) : t.holds a bs ∧ s.sameOutside t a bs.length := by
  refine ⟨?_, fun x hx => ?_⟩
  · rw [State.holds, ht]
    exact t0Write_holds u a bs
  · have hsame := t0Write_sameOutside u a bs hs x hx
    rw [State.byteAt, ht]
    exact hsame.trans (by rw [State.byteAt, hu]; rfl)

theorem firstTable_clear (s : State) (port : Nat) (p : Packet) {r : Request} (h : r.eseq = 0) (b : Bool) :
    (firstTable s port p r).clear r.eseq b = true := by
  unfold InStream.clear firstTable
  simp [h, InStream.fresh, InStream.floor]

/-! A request that is done already (R431). -/

/-- From `s` to `t` no byte of T0 or T1 changes, nothing is sent to the package itself, and no impression ends. -/
structure Rereads (s t : State) : Prop where
  bytes : t.t0.bytes = s.t0.bytes
  data : ∀ c, (t.ch c).data = (s.ch c).data
  loop : t.fab.loop = s.fab.loop
  endpoint : t.fab.endpoint = s.fab.endpoint
  causes : t.causes = s.causes

namespace Rereads

variable {s t u : State}

theorem refl (s : State) : Rereads s s := ⟨rfl, fun _ => rfl, rfl, rfl, rfl⟩

theorem trans (h : Rereads s t) (g : Rereads t u) : Rereads s u :=
  ⟨g.bytes.trans h.bytes, fun c => (g.data c).trans (h.data c), g.loop.trans h.loop, g.endpoint.trans h.endpoint, g.causes.trans h.causes⟩

theorem of_sent (h : Sent s t) : Rereads s t :=
  ⟨by rw [h.t0], fun c => by rw [State.ch, h.rest]; rfl, by rw [h.fab], by rw [h.fab], h.causes⟩

theorem count (s : State) (i : Nat) (c : Ctr) (n : Nat) : Rereads s (s.count i c n) := by
  rw [count_eq]
  exact ⟨rfl, fun _ => rfl, rfl, rfl, rfl⟩

theorem foldl {α : Type} {f : State → α → State} (hf : ∀ s x, Rereads s (f s x)) (xs : List α) (s : State) : Rereads s (xs.foldl f s) := by
  induction xs generalizing s with
  | nil => exact .refl s
  | cons x xs ih => exact (hf s x).trans (ih _)

theorem report (s : State) (r : Report) : Rereads s (s.report r) :=
  ⟨by rw [report_t0], fun c => by rw [(report_only s r).ch], by rw [(report_only s r).fab], by rw [(report_only s r).fab], by rw [report_only s r]⟩

theorem modCh (s : State) (c : Nat) (f : Channel → Channel) (hf : ∀ x, (f x).data = x.data) : Rereads s (s.modCh c f) :=
  ⟨rfl, fun k => by
    by_cases hk : k = c
    · subst hk
      rw [State.ch_modCh_same]
      exact hf _
    · rw [State.ch_modCh_ne _ _ _ _ hk], rfl, rfl, rfl⟩

theorem reportLines (s : State) (ch : Nat) (ls : List Nat) : Rereads s (s.reportLines ch ls) :=
  .foldl (fun s _ => .report s _) ls s

theorem touchSeg (s : State) (ch seg : Nat) : Rereads s (s.touchSeg ch seg) := by
  unfold State.touchSeg
  extract_lets c
  split
  · refine (modCh s ch _ ?_).trans (.reportLines _ _ _)
    exact fun _ => rfl
  · split
    · exact .modCh s _ _ fun _ => rfl
    · exact .refl s

theorem remRead (s : State) (i : Nat) (r : Request) (n : Nat) : Rereads s (s.remRead i r n).2.2 := by
  unfold State.remRead
  extract_lets off
  split
  · show Rereads s (s.t1Read i off n).2
    unfold State.t1Read
    split
    · exact .refl s
    · exact .foldl (fun s x => .touchSeg s _ _) _ s
  · have h := t0Read_only s off n
    exact ⟨t0Read_bytes s off n, fun c => by rw [show (s.t0Read off n).2.ch c = s.ch c from h.ch c], by rw [h.fab], by rw [h.fab], by rw [h]⟩

end Rereads

/-- A request that is done is answered again, and changes nothing. -/
theorem arrive_again {s : State} {port : Nat} {p : Packet} {r : Request} {b : InStream} {e : Entry} {st : Nat} {v : BitVec 64}
    (hne : p.head.source ≠ s.fab.endpoint) (ht : s.table p.head.source p.head.imprint = some b) (hg : b.sgen = r.sgen)
    (he : b.entries.find? (fun x => x.eseq == r.eseq) = some e) (hs : e.state = .done st v) : Rereads s (s.arrive port p r) := by
  have hopen : s.openTable p.head.source p.head.imprint r.sgen = some (s.setTable { b with lastAt := s.cycle }) := by
    unfold State.openTable
    rw [ht]
    exact if_pos hg
  obtain ⟨-, hsrc, himp⟩ := table_spec ht
  have htab : (s.setTable { b with lastAt := s.cycle }).table p.head.source p.head.imprint = some { b with lastAt := s.cycle } :=
    table_setTable ht hsrc himp
  have h0 : Rereads s (s.setTable { b with lastAt := s.cycle }) := ⟨rfl, fun _ => rfl, rfl, rfl, rfl⟩
  unfold State.arrive
  extract_lets src simp i pool g x
  split
  next hn => cases hn.symm.trans hopen
  next s1 hs1 =>
  obtain rfl : s1 = _ := Option.some.inj (hs1.symm.trans hopen)
  split
  next hn => cases hn.symm.trans htab
  next t1 ht1 =>
  obtain rfl : t1 = _ := Option.some.inj (ht1.symm.trans htab)
  extract_lets old sf d high es t2 s2 s3
  have hfree : ∀ w : State, Rereads w (w.free port pool g) := fun w => .of_sent (.free w port pool g)
  split
  · exact h0.trans ((Rereads.count _ i _ 1).trans (hfree _))
  · split
    next x1 hx1 =>
      obtain rfl : x1 = e := Option.some.inj (hx1.symm.trans he)
      have hsf := h0.trans (hfree _)
      split
      · split
        · have hd := hsf.trans (.remRead sf i r r.length)
          exact hd.trans (.of_sent (.respond (by rw [hd.endpoint]; exact hne) _ _ _ _ _))
        · exact hsf.trans (.of_sent (.respond (by rw [hsf.endpoint]; exact hne) _ _ _ _ _))
      next hnot => exact absurd hs (hnot _ _)
    next hn => cases hn.symm.trans he

/-! A T1 operation (R246, R440). -/

/-- The first operation of a channel's queue, once served, is done in its stream's table. -/
theorem runT1_done {s : State} {o : T1Op} {e : Entry} {r : Request} (he : s.t1Entry o = some (e, r)) (hsrc : e.p.head.source = o.source)
    (himp : e.p.head.imprint = o.imprint) (hne : o.source ≠ s.fab.endpoint)
    (hheld : ∀ b, s.table o.source o.imprint = some b → ∀ x ∈ b.entries, x.state ≠ .held) :
    (s.runT1 o).fab.loop = s.fab.loop ∧ (s.runT1 o).causes = s.causes
      ∧ ∀ b, (s.runT1 o).table o.source o.imprint = some b → ∀ x ∈ b.entries, x.eseq = o.eseq → x.state.isDone = true := by
  obtain ⟨t, ht, hfind⟩ := Option.bind_eq_some_iff.mp he
  obtain ⟨y, hy, hyr⟩ := Option.bind_eq_some_iff.mp hfind
  obtain ⟨r', -, hr'⟩ := Option.map_eq_some_iff.mp hyr
  obtain rfl : y = e := congrArg Prod.fst hr'
  have heseq : y.eseq = o.eseq := by
    have := List.find?_some hy
    simp only [Bool.and_eq_true, beq_iff_eq] at this
    exact this.1
  have ha : Aloof s (s.applyReq o.source o.imprint r).2.2.2 := .applyReq s _ _ r
  obtain ⟨htab, hloop, hc, -, -⟩ := finish_spec (s := (s.applyReq o.source o.imprint r).2.2.2) (x := y) (t := t)
    (by rw [hsrc, himp, table_congr ha.tables]; exact ht) (by rw [hsrc, ha.endpoint]; exact hne) r (s.applyReq o.source o.imprint r).1
    (s.applyReq o.source o.imprint r).2.1 (s.applyReq o.source o.imprint r).2.2.1
  rw [hsrc, himp] at htab
  have hrun : s.runT1 o = (s.applyReq o.source o.imprint r).2.2.2.finish y r (s.applyReq o.source o.imprint r).1
      (s.applyReq o.source o.imprint r).2.1 (s.applyReq o.source o.imprint r).2.2.1 := by
    unfold State.runT1
    rw [he]
    refine release_nothing (fun b hb x hx => ?_) _
    obtain rfl := Option.some.inj (htab.symm.trans hb)
    obtain ⟨z, hz, -, hst⟩ := withEntry_mem hx
    rw [hst]
    split
    · exact fun h => by cases h
    · exact hheld t ht z hz
  rw [hrun]
  refine ⟨hloop.trans ha.loop, hc.trans ha.causes, fun b hb x hx hxe => ?_⟩
  obtain rfl := Option.some.inj (htab.symm.trans hb)
  obtain ⟨z, hz, hze, hst⟩ := withEntry_mem hx
  rw [hst, if_pos (by rw [← hze, hxe, heseq])]
  rfl

theorem queueRoom_aloof (s : State) (ch : Nat) : (s.queueRoom ch).fab.tables = s.fab.tables ∧ (s.queueRoom ch).fab.loop = s.fab.loop
    ∧ (s.queueRoom ch).causes = s.causes := by
  unfold State.queueRoom
  extract_lets q owed q' fab s1
  have h : Sent s1 (owed.foldl (fun s w => s.free w.1 w.2.1 w.2.2) s1) := .foldl (fun s w => .free s _ _ _) owed s1
  exact ⟨by rw [h.fab], by rw [h.fab], h.causes⟩

theorem t1FabricSlot_done {ch : Fin 384} {s : State} {o : T1Op} {e : Entry} {r : Request} (hq : spGet [] s.fab.t1q ch.val = [o])
    (he : s.t1Entry o = some (e, r)) (hsrc : e.p.head.source = o.source) (himp : e.p.head.imprint = o.imprint) (hlive : s.live = true)
    (hlevel : s.issueLevel ≠ 0) (hc : s.causes = []) (hloop : s.fab.loop = []) (hne : o.source ≠ s.fab.endpoint)
    (hheld : ∀ b, s.table o.source o.imprint = some b → ∀ x ∈ b.entries, x.state ≠ .held) :
    ∃ t, exec (.t1FabricSlot ch) s = .next t
      ∧ ∀ b, t.table o.source o.imprint = some b → ∀ x ∈ b.entries, x.eseq = o.eseq → x.state.isDone = true := by
  let s1 : State := { s with fab := { s.fab with t1q := spPut [] s.fab.t1q ch.val [] } }
  obtain ⟨hl1, hc1, hdone⟩ := runT1_done (s := s1) (o := o) he hsrc himp hne hheld
  obtain ⟨ht2, hl2, hc2⟩ := queueRoom_aloof (s1.runT1 o) ch.val
  have hexec : exec (.t1FabricSlot ch) s = .next ((s1.runT1 o).queueRoom ch.val).settle := by
    show execT1FabricSlot ch s = _
    unfold execT1FabricSlot
    extract_lets c q
    rw [show q = [o] from hq]
    simp only [hlive, hlevel, Bool.not_true, decide_false, Bool.or_self, Bool.false_eq_true, if_false, List.takeWhile, beq_self_eq_true,
      List.length_singleton, List.drop_one, List.tail_cons, List.foldl_cons, List.foldl_nil]
    rfl
  refine ⟨_, hexec, ?_⟩
  rw [settle_idle (hc2.trans (hc1.trans hc)) (hl2.trans (hl1.trans hloop))]
  intro b hb
  exact hdone b ((table_congr ht2 _ _).symm.trans hb)

/-- The state in which the first request of a stream is applied differs from the one it arrives in only in its port and its tables. -/
theorem firstState_exists (s : State) (port : Nat) (p : Packet) (r : Request) : ∃ u, u = (s.modPort port Port.accept).withFirst port p r
    ∧ u.t0 = s.t0 ∧ (∀ i, u.imp i = s.imp i) ∧ u.ed = s.ed ∧ u.fab.endpoint = s.fab.endpoint :=
  ⟨_, rfl, rfl, fun _ => rfl, rfl, rfl⟩

/-- Settles O29: a request that is let through is applied and recorded, one that is recorded is answered again. -/
theorem requestsTakeEffectOnce : Obligations.RequestsTakeEffectOnce := by
  intro port p r s i done
  refine ⟨fun hb hd hne hc hloop hlive hl hst hq hex hs => ⟨fun ht hlen href hsp => ⟨fun hop hbay => ?_, ?_⟩,
    fun b e st v ht hg he hdone => ?_⟩, fun ch o e hqueue he hsrc himp hlive hlevel hc hloop hne hheld =>
      t1FabricSlot_done hqueue he hsrc himp hlive hlevel hc hloop hne hheld⟩
  · obtain ⟨u, hu, hu0, hui, hue, huf⟩ := firstState_exists s port.val p r
    have happ := applyReq_store (u := u) hop hsp ((bayAt_congr (hui _) hue huf _).trans hbay) p.head.source p.head.imprint
    obtain ⟨t, hexec, h0, hd', hx⟩ := requestArrival_first hb hd hne hc hloop hlive hl hst hq ht hlen href hsp (by rw [hop]; rfl)
      hu happ
    obtain ⟨hh, ho⟩ := t0Write_spec (s := s) (by rw [hu0]) (by rw [State.sound, hu0]; exact hs) h0
    exact ⟨t, hexec, hh, hd', ho, hx⟩
  · intro hop hseq hsh old
    obtain ⟨u, hu, hu0, hui, hue, huf⟩ := firstState_exists s port.val p r
    have hsu : u.sound = true := by rw [State.sound, hu0]; exact hs
    have happ := applyReq_atomic (src := p.head.source) (simp := p.head.imprint) hop hsp hsu ((isShared_congr (hui _) _ _ r).trans hsh)
    simp only [hu0] at happ
    obtain ⟨t, hexec, h0, hd', -⟩ := requestArrival_first hb hd hne hc hloop hlive hl hst hq ht hlen href hsp
      (by rw [firstTable_clear _ _ _ hseq, Bool.not_true, Bool.and_false]) hu happ
    obtain ⟨hh, ho⟩ := t0Write_spec (s := s) ((t0Read_bytes _ _ _).trans (by rw [hu0])) ((t0Read_sound_keep _ _ _).trans hsu) h0
    rw [length_leBytes] at ho
    exact ⟨t, hexec, hh, hd', ho⟩
  · have hrr := arrive_again (s := s.modPort port.val Port.accept) (port := port.val) hne ht hg he hdone
    generalize hu : (s.modPort port.val Port.accept).arrive port.val p r = u at hrr
    have hset : u.settle = u := settle_idle (hrr.causes.trans hc) (hrr.loop.trans hloop)
    refine ⟨u, by rw [requestArrival_eq hb hd hlive hl hst hq, hu, hset], fun a => ?_, hrr.data⟩
    rw [State.byteAt, hrr.bytes]
    rfl

end Sys2Proof.Machine
end


section
/-!
The canonical form (log 1) through every shared operation. `Canon s` is the invariant; each lemma says that one operation keeps it, so
that a chain of operations is a chain of these lemmas.
-/
namespace Sys2Proof.Machine

open Sys2Proof

/-- An outcome whose successor, if it has one, is canonical. -/
def CanonOutcome (o : Host.Outcome State Fault Refusal) : Prop := ∀ t, o = .next t → Canon t

theorem Canon.next {s : State} (h : Canon s) : CanonOutcome (.next s) := by
  intro t e
  cases e
  exact h

theorem Canon.ite {s t : State} {p : Prop} [Decidable p] (h : Canon s) (g : Canon t) : Canon (if p then s else t) := by
  split <;> assumption

theorem Canon.foldl {α : Type} {f : State → α → State} (hf : ∀ s x, Canon s → Canon (f s x)) {s : State} (h : Canon s) (xs : List α) :
    Canon (xs.foldl f s) := by
  induction xs generalizing s with
  | nil => exact h
  | cons x xs ih => exact ih (hf s x h)

/-- A state with the same memories and tables is as canonical. -/
theorem Canon.same {s t : State} (h : Canon s) (h1 : t.t0 = s.t0) (h2 : t.t1 = s.t1) (h3 : t.cores = s.cores)
    (h4 : t.imprints = s.imprints) (h5 : t.fns = s.fns) (h6 : t.ports = s.ports) : Canon t := by
  rw [canon_iff] at *
  rw [h1, h2, h3, h4, h5, h6]
  exact h

section
variable {s : State} (h : Canon s)
include h

theorem Canon.modCore (c : Nat) (f : Core → Core) : Canon (s.modCore c f) := (Keeps.modCore s c f).2 h
theorem Canon.modImp (i : Nat) (f : Imprint → Imprint) : Canon (s.modImp i f) := (Keeps.modImp s i f).2 h
theorem Canon.modRun (i : Nat) (f : Run → Run) : Canon (s.modRun i f) := (Keeps.modRun s i f).2 h
theorem Canon.modServe (i : Nat) (f : Serve → Serve) : Canon (s.modServe i f) := (Keeps.modServe s i f).2 h
theorem Canon.modFolio (i id : Nat) (f : Folio → Folio) : Canon (s.modFolio i id f) := h.modServe i _
theorem Canon.modFn (k : Nat) (f : Fn → Fn) : Canon (s.modFn k f) := (Keeps.modFn s k f).2 h
theorem Canon.modRing (f k : Nat) (g : Ring → Ring) : Canon (s.modRing f k g) := (Keeps.modRing s f k g).2 h
theorem Canon.modPort (p : Nat) (f : Port → Port) : Canon (s.modPort p f) := (Keeps.modPort s p f).2 h
theorem Canon.modPower (f : Power → Power) : Canon (s.modPower f) := (Keeps.modPower s f).2 h
theorem Canon.emit (e : Emission) : Canon (s.emit e) := (Keeps.emit s e).2 h
theorem Canon.setStream (x : OutStream) : Canon (s.setStream x) := (Keeps.setStream s x).2 h
theorem Canon.count (i : Nat) (c : Ctr) (n : Nat) : Canon (s.count i c n) := (Keeps.count s i c n).2 h
theorem Canon.cause (i code subject : Nat) : Canon (s.cause i code subject) := (Keeps.cause s i code subject).2 h
theorem Canon.report (r : Report) : Canon (s.report r) := (Keeps.report s r).2 h
theorem Canon.t0Read (a n : Nat) : Canon (s.t0Read a n).2 := (Keeps.t0Read s a n).2 h
theorem Canon.t0Write (a : Nat) (bs : List Byte) : Canon (s.t0Write a bs) := (Keeps.t0Write s a bs).2 h
theorem Canon.coreRead (i a n : Nat) : Canon (s.coreRead i a n).2.2 := (Keeps.coreRead s i a n).2 h
theorem Canon.coreWrite (i a : Nat) (bs : List Byte) : Canon (s.coreWrite i a bs).2 := (Keeps.coreWrite s i a bs).2 h
theorem Canon.t1Put (i a : Nat) (bs : List Byte) : Canon (s.t1Put i a bs) := (Keeps.t1Put s i a bs).2 h
theorem Canon.setIcu (u : Icu) : Canon { s with icu := u } := (Keeps.setIcu s u).2 h
theorem Canon.setPower (x : Power) : Canon { s with power := x } := (Keeps.setPower s x).2 h
theorem Canon.putEd (x : Editions) : Canon { s with ed := x } := (Keeps.putEd s x).2 h
theorem Canon.setFab (x : Fabric) : Canon { s with fab := x } := (Keeps.setFab s x).2 h
theorem Canon.setBoot (x : Boot) : Canon { s with boot := x } := (Keeps.setBoot s x).2 h
theorem Canon.setCauses (x : List (Nat × Nat × Nat)) : Canon { s with causes := x } := h.same rfl rfl rfl rfl rfl rfl
theorem Canon.setReports (x : List Report) : Canon { s with reports := x } := h.same rfl rfl rfl rfl rfl rfl
theorem Canon.setPending (x : List Instr) : Canon { s with pending := x } := h.same rfl rfl rfl rfl rfl rfl
theorem Canon.setFaults (x : Sp Nat) : Canon { s with coreFaults := x } := h.same rfl rfl rfl rfl rfl rfl
theorem Canon.setLost (x : List (Nat × Nat)) : Canon { s with lostCores := x } := h.same rfl rfl rfl rfl rfl rfl
theorem Canon.setSpdm (x : Spdm) : Canon { s with spdm := x } := h.same rfl rfl rfl rfl rfl rfl
theorem Canon.setI3c (x : I3cTarget) : Canon { s with i3c := x } := h.same rfl rfl rfl rfl rfl rfl
theorem Canon.raiseVector (f v : Nat) : Canon (s.raiseVector f v) := (Keeps.raiseVector s f v).2 h
theorem Canon.writeRing (f k : Nat) (records : List (List Byte)) : Canon (s.writeRing f k records) := (Keeps.writeRing s f k records).2 h
theorem Canon.writeEvents (f n : Nat) (es : List (List Byte)) : Canon (s.writeEvents f n es) := (Keeps.writeEvents s f n es).2 h
theorem Canon.event (i : Nat) (bs : List Byte) : Canon (s.event i bs) := (Keeps.event s i bs).2 h
theorem Canon.pfEvent (bs : List Byte) : Canon (s.pfEvent bs) := (Keeps.pfEvent s bs).2 h
theorem Canon.flushPower : Canon s.flushPower := (Keeps.flushPower s).2 h
theorem Canon.powerEvent (bs : List Byte) : Canon (s.powerEvent bs) := (Keeps.powerEvent s bs).2 h
theorem Canon.queueRecords (f k : Nat) (rs : List (List Byte)) : Canon (s.queueRecords f k rs) := (Keeps.queueRecords s f k rs).2 h
theorem Canon.writeBacklog (f k : Nat) : Canon (s.writeBacklog f k) := (Keeps.writeBacklog s f k).2 h
theorem Canon.updateLines : Canon s.updateLines := (Keeps.updateLines s).2 h
theorem Canon.icuChange (f : Icu → Icu) : Canon (s.icuChange f) := (Keeps.icuChange s f).2 h
theorem Canon.sample : Canon s.sample := (Keeps.sample s).2 h
theorem Canon.pulse (n : Nat) : Canon (s.pulse n) := (Keeps.pulse s n).2 h
theorem Canon.setEd (f : Editions → Editions) : Canon (s.setEd f) := (Keeps.setEd s f).2 h

end

end Sys2Proof.Machine
end


section
/-!
What the shared operations keep (O5, O38, O45, O50): a predicate closed under the changes of cores, functions, ports, channels, T0 and of what an
imprint serves is kept by everything that is made of such changes: transfers, records and events, tickets, openings and commits.
-/
namespace Sys2Proof.Machine

open Sys2Proof

theorem coreWrite_wf (s : State) (i a : Nat) (bs : List Byte) (h : spWf 0#8 s.t0.bytes = true) :
    spWf 0#8 (s.coreWrite i a bs).2.t0.bytes = true := by
  unfold State.coreWrite
  split
  · exact h
  · split
    · exact t0Write_wf s a bs h
    · exact h

/-- What of an imprint's record the shared operations leave alone: its entry, TEL_REPRO's GO and step count, the impression's number and phase,
and the members that recovery has removed. -/
structure Imprint.Alike (m n : Imprint) : Prop where
  cfg : n.cfg = m.cfg
  go : n.go = m.go
  steps : n.steps = m.steps
  impression : n.run.impression = m.run.impression
  phase : n.serve.phase = m.serve.phase
  removed : n.serve.removed = m.serve.removed

/-- A predicate of states that the shared operations keep: it speaks of no core, port or ring and of no byte, of an imprint at most by what
`Imprint.Alike` leaves alone, and of the fabric at most by its generation, its endpoint and what the package sends itself. What such a predicate
survives is said once here, operation by operation. -/
structure Steady (P : State → Prop) : Prop where
  modCore : ∀ {s}, P s → ∀ c f, P (s.modCore c f)
  modImp : ∀ {s}, P s → ∀ i f, (∀ m, Imprint.Alike m (f m)) → P (s.modImp i f)
  modFn : ∀ {s}, P s → ∀ k f, P (s.modFn k f)
  modPort : ∀ {s}, P s → ∀ p f, P (s.modPort p f)
  modCh : ∀ {s}, P s → ∀ c f, (spWf 0#8 (s.ch c).data = true → spWf 0#8 (f (s.ch c)).data = true) → P (s.modCh c f)
  setOut : ∀ {s}, P s → ∀ x, P { s with out := x }
  pulse : ∀ {s}, P s → ∀ n, P (s.pulse n)
  onlyT0 : ∀ {s t}, P s → OnlyT0 s t → (spWf 0#8 s.t0.bytes = true → spWf 0#8 t.t0.bytes = true) → P t
  setFab : ∀ {s}, P s → ∀ x : Fabric, x.gens = s.fab.gens → x.endpoint = s.fab.endpoint → x.loop = s.fab.loop → P { s with fab := x }
  setEvents : ∀ {s}, P s → ∀ x, P { s with power := { s.power with events := x } }
  setFences : ∀ {s}, P s → ∀ x, P { s with ed := { s.ed with fences := x } }

section
variable {P : State → Prop}

theorem Steady.ite (_ : Steady P) {s t : State} {p : Prop} [Decidable p] (h : P s) (g : P t) : P (if p then s else t) := by
  split <;> assumption

theorem Steady.foldl (_ : Steady P) {α : Type} {f : State → α → State} (hf : ∀ s x, P s → P (f s x)) {s : State} (h : P s)
    (xs : List α) : P (xs.foldl f s) := by
  induction xs generalizing s with
  | nil => exact h
  | cons x xs ih => exact ih (hf s x h)

variable (K : Steady P)
include K

theorem Steady.emit {s : State} (h : P s) (e : Emission) : P (s.emit e) := K.setOut h _

theorem Steady.modRun {s : State} (h : P s) (i : Nat) (f : Run → Run) (hf : ∀ r, (f r).impression = r.impression := by intro _; rfl) :
    P (s.modRun i f) :=
  K.modImp h i _ fun m => ⟨rfl, rfl, rfl, hf m.run, rfl, rfl⟩

theorem Steady.modServe {s : State} (h : P s) (i : Nat) (f : Serve → Serve)
    (hf : ∀ v, (f v).phase = v.phase ∧ (f v).removed = v.removed := by exact fun _ => ⟨rfl, rfl⟩) : P (s.modServe i f) :=
  K.modImp h i _ fun m => ⟨rfl, rfl, rfl, rfl, (hf m.serve).1, (hf m.serve).2⟩

theorem Steady.report {s : State} (h : P s) (r : Report) : P (s.report r) := K.onlyT0 h (report_only s r) fun hb => by simpa using hb

theorem Steady.t0Read {s : State} (h : P s) (a n : Nat) : P (s.t0Read a n).2 :=
  K.onlyT0 h (t0Read_only s a n) fun hb => by simpa using hb

theorem Steady.t0Write {s : State} (h : P s) (a : Nat) (bs : List Byte) : P (s.t0Write a bs) :=
  K.onlyT0 h (t0Write_only s a bs) (t0Write_wf s a bs)

theorem Steady.modFolio {s : State} (h : P s) (i id : Nat) (f : Folio → Folio) : P (s.modFolio i id f) := by
  unfold State.modFolio
  exact K.modServe h _ _

theorem Steady.count {s : State} (h : P s) (i : Nat) (c : Ctr) (n : Nat) : P (s.count i c n) := by
  unfold State.count
  exact K.ite h (K.modRun h _ _)

theorem Steady.reportLines {s : State} (h : P s) (ch : Nat) (lines : List Nat) : P (s.reportLines ch lines) := by
  unfold State.reportLines
  exact K.foldl (fun _ _ h => K.report h _) h _

theorem Steady.touchSeg {s : State} (h : P s) (ch seg : Nat) : P (s.touchSeg ch seg) := by
  unfold State.touchSeg
  exact K.ite (K.reportLines (K.modCh h _ _ id) _ _) (K.ite (K.modCh h _ _ id) h)

theorem Steady.mergeSeg {s : State} (h : P s) (i a n : Nat) (x : Nat × Nat) : P (s.mergeSeg i a n x) := by
  unfold State.mergeSeg
  exact K.ite (K.modCh h _ _ id)
    (K.ite (K.reportLines (K.modCh h _ _ (spWf_memWrite _ _ _)) _ _) (K.modCh (K.touchSeg h _ _) _ _ id))

theorem Steady.t1Put {s : State} (h : P s) (i a : Nat) (bs : List Byte) : P (s.t1Put i a bs) := by
  unfold State.t1Put
  exact K.modCh h _ _ (spWf_memWrite _ _ _)

theorem Steady.t1Write {s : State} (h : P s) (i a : Nat) (bs : List Byte) : P (s.t1Write i a bs) := by
  unfold State.t1Write
  exact K.ite h (K.foldl (fun _ _ h => K.t1Put h _ _ _) (K.foldl (fun _ _ h => K.mergeSeg h _ _ _ _) h _) _)

theorem Steady.portSendOne {s t : State} (h : P s) (p : Nat) (e : s.portSendOne p = some t) : P t := by
  unfold State.portSendOne at e
  extract_lets at e
  repeat' split at e
  all_goals cases e
  all_goals exact K.emit (K.modPort h _ _) _

theorem Steady.portDrain {s : State} (h : P s) (p n : Nat) : P (s.portDrain p n) := by
  induction n generalizing s with
  | zero => exact h
  | succ n ih =>
    unfold State.portDrain
    split
    · exact ih (K.portSendOne h p ‹_›)
    · exact h

theorem Steady.poolReturn {s : State} (h : P s) (p : Nat) : P (s.poolReturn p) := by
  unfold State.poolReturn
  exact K.ite (K.modPort h _ _) h

theorem Steady.free {s : State} (h : P s) (p pool g : Nat) : P (s.free p pool g) := by
  unfold State.free
  exact K.ite (K.ite (K.poolReturn h _) (K.modPort h _ _)) h

theorem Steady.pump {s : State} (h : P s) (p : Nat) : P (s.pump p) := by
  unfold State.pump
  exact K.foldl (fun _ _ h => K.free h _ _ _) (K.portDrain h _ _) _

theorem Steady.enqueue {s : State} (h : P s) (p source : Nat) (q : Packet) : P (s.enqueue p source q) := by
  unfold State.enqueue
  exact K.pump (K.modPort h _ _) _

theorem Steady.setStream {s : State} (h : P s) (x : OutStream) : P (s.setStream x) := by
  unfold State.setStream
  exact K.setFab h _ rfl rfl rfl

theorem Steady.forgetMorgue {s : State} (h : P s) (i folio : Nat) : P (s.forgetMorgue i folio) := by
  unfold State.forgetMorgue
  exact K.setFab h _ rfl rfl rfl

theorem Steady.giveUpMove {s : State} (h : P s) (i folio : Nat) : P (s.giveUpMove i folio) := by
  unfold State.giveUpMove
  exact K.modFolio (K.forgetMorgue h _ _) _ _ _

theorem Steady.modRing {s : State} (h : P s) (f k : Nat) (g : Ring → Ring) : P (s.modRing f k g) := by
  unfold State.modRing
  exact K.modFn h _ _

theorem Steady.raiseVector {s : State} (h : P s) (f v : Nat) : P (s.raiseVector f v) := by
  unfold State.raiseVector
  exact K.ite h (K.ite (K.modFn h _ _) (K.emit h _))

theorem Steady.writeRing {s : State} (h : P s) (f k : Nat) (records : List (List Byte)) : P (s.writeRing f k records) := by
  unfold State.writeRing
  split
  · exact h
  · exact K.ite h (K.ite (K.modRing (K.emit (K.foldl (fun _ _ h => K.emit h _) h _) _) _ _ _) (K.raiseVector (K.modRing (K.emit (K.foldl
        (fun _ _ h => K.emit h _) h _) _) _ _ _) _ _))

theorem Steady.writeEvents {s : State} (h : P s) (f impression : Nat) (events : List (List Byte)) :
    P (s.writeEvents f impression events) := by
  unfold State.writeEvents
  split
  · exact K.modFn h _ _
  · exact K.modFn (K.writeRing h _ _ _) _ _

theorem Steady.event {s : State} (h : P s) (i : Nat) (bytes : List Byte) : P (s.event i bytes) := by
  unfold State.event
  exact K.ite (K.writeEvents h _ _ _) (K.modServe h _ _)

theorem Steady.pfEvent {s : State} (h : P s) (bytes : List Byte) : P (s.pfEvent bytes) := by
  unfold State.pfEvent
  exact K.writeEvents h _ _ _

theorem Steady.flushPower {s : State} (h : P s) : P (s.flushPower) := by
  unfold State.flushPower
  exact K.ite h (K.writeEvents (K.setEvents h _) _ _ _)

theorem Steady.takeTable {s : State} (h : P s) (f : Nat) : P (s.takeTable f) := by
  unfold State.takeTable
  exact K.modFn h _ _

theorem Steady.writeHeader {s : State} (h : P s) (i id : Nat) : P (s.writeHeader i id) := by
  unfold State.writeHeader
  split
  · exact h
  · split
    · exact h
    · split
      · exact h
      · exact K.t0Write h _ _

theorem Steady.dropFolio {s : State} (h : P s) (i handle id : Nat) : P (s.dropFolio i handle id) := by
  unfold State.dropFolio
  exact K.writeHeader (K.modServe h _ _) _ _

theorem Steady.abandonSpills {s : State} (h : P s) (i : Nat) (p : Folio → Bool) : P (s.abandonSpills i p) := by
  unfold State.abandonSpills
  refine K.foldl (fun _ _ h => ?_) h _
  split
  · exact K.ite (K.giveUpMove h _ _) h
  · exact h

theorem Steady.fixPorts {s : State} (h : P s) (i : Nat) : P (s.fixPorts i) := by
  have h := K.modRun h i fun r => { r with ports := s.upPorts }
  unfold State.fixPorts
  exact K.setFab h _ rfl rfl rfl

theorem Steady.coreRead {s : State} (h : P s) (i a n : Nat) : P (s.coreRead i a n).2.2 :=
  K.onlyT0 h (coreRead_only s i a n) fun hb => by rw [coreRead_bytes]; exact hb

theorem Steady.coreWrite {s : State} (h : P s) (i a : Nat) (bs : List Byte) : P (s.coreWrite i a bs).2 :=
  K.onlyT0 h (coreWrite_only s i a bs) (coreWrite_wf s i a bs)

theorem Steady.densityRead {s : State} (h : P s) (i : Nat) (w : WatchPoint) (handle copy : Nat) :
    P (s.densityRead i w handle copy).2 := by
  unfold State.densityRead
  exact K.coreRead h _ _ _

theorem Steady.densityWrite {s : State} (h : P s) (i : Nat) (w : WatchPoint) (handle copy x : Nat) :
    P (s.densityWrite i w handle copy x) := by
  unfold State.densityWrite
  exact K.coreWrite h _ _ _

theorem Steady.countSlugs {s : State} (h : P s) (i : Nat) (sts : List Nat) : P (s.countSlugs i sts) := by
  unfold State.countSlugs
  exact K.count (K.count h _ _ _) _ _ _

theorem Steady.putPage {s : State} (h : P s) (a : Nat) (bs : List Byte) : P (s.putPage a bs) := by
  unfold State.putPage
  exact K.ite h (K.t0Write h _ _)

theorem Steady.syncPages {s : State} (h : P s) (i : Nat) : P (s.syncPages i) := by
  unfold State.syncPages
  exact K.foldl (fun _ _ h => K.putPage h _ _) (K.modServe h _ _) _

theorem Steady.reserveFolio {s : State} (h : P s) (i handle : Nat) (x : Need) : P (s.reserveFolio i handle x) := by
  unfold State.reserveFolio
  split
  · exact h
  · exact K.writeHeader (K.modServe h _ _) _ _

theorem Steady.reserveAll {s : State} (h : P s) (i handle : Nat) (needs : List Need) : P (s.reserveAll i handle needs) := by
  unfold State.reserveAll
  exact K.foldl (fun _ _ h => K.reserveFolio h _ _ _) h _

theorem Steady.dropFolios {s : State} (h : P s) (i handle : Nat) (p : Folio → Bool) : P (s.dropFolios i handle p) := by
  unfold State.dropFolios
  exact K.foldl (fun _ _ h => K.dropFolio h _ _ _) h _

theorem Steady.unreserve {s : State} (h : P s) (i handle : Nat) : P (s.unreserve i handle) := by
  unfold State.unreserve
  exact K.dropFolios h _ _ _

theorem Steady.sharePrefix {s : State} (h : P s) (i handle source n : Nat) : P (s.sharePrefix i handle source n) := by
  unfold State.sharePrefix
  exact K.foldl (fun _ _ h => K.ite (K.writeHeader (K.modFolio h _ _ _) _ _) h) h _

theorem Steady.copyPrefix {s : State} (h : P s) (i handle source n : Nat) (k : Nat) : P (s.copyPrefix i handle source n k) := by
  unfold State.copyPrefix
  refine K.foldl (fun _ _ h => ?_) h _
  extract_lets
  split
  · exact K.ite h (K.writeHeader (K.modFolio (K.t0Write (K.t0Read h _ _) _ _) _ _ _) _ _)
  · exact h

theorem Steady.freeDuplicate {s t : State} (h : P s) (i c : Nat) (e : s.freeDuplicate i c = some t) : P t := by
  unfold State.freeDuplicate at e
  split at e
  · cases e
  · obtain ⟨x, _, rfl⟩ := Option.map_eq_some_iff.1 e
    exact K.modFolio h _ _ _

theorem Steady.startSpill {s t : State} (h : P s) (i : Nat) (x : Nat × Folio) (e : s.startSpill i x = some t) : P t := by
  have hd : P ((s.freeDuplicate i x.2.cls).getD s) := by
    cases hf : s.freeDuplicate i x.2.cls with
    | none => exact h
    | some u => exact K.freeDuplicate h _ _ hf
  unfold State.startSpill at e
  split at e
  · split at e
    · cases e
      exact K.modFolio h _ _ _
    · cases e
  · extract_lets u at e
    have hu : P u := K.ite hd h
    split at e
    · cases e
    · obtain ⟨k, _, rfl⟩ := Option.map_eq_some_iff.1 e
      exact K.modFolio hu _ _ _

theorem Steady.spillTo {s : State} (h : P s) (i c tier mark : Nat) (slice : Option Nat) (n : Nat) :
    P (s.spillTo i c tier mark slice n) := by
  induction n generalizing s with
  | zero => exact h
  | succ n ih =>
    unfold State.spillTo
    split
    · exact h
    split
    · next u hu =>
      split at hu
      · exact ih (K.freeDuplicate h _ _ hu)
      · cases hu
    · split
      · next u hu =>
        obtain ⟨x, _, hx⟩ := List.exists_of_findSome?_eq_some hu
        exact ih (K.startSpill h _ _ hx)
      · exact h

theorem Steady.spillMark {s : State} (h : P s) (i c tier : Nat) (f : FolioClass) : P (s.spillMark i c tier f) := by
  unfold State.spillMark
  exact K.ite (K.modServe (K.spillTo h _ _ _ _ _ _) _ _) h

theorem Steady.spillMarks {s : State} (h : P s) (i : Nat) : P (s.spillMarks i) := by
  unfold State.spillMarks
  exact K.ite h (K.foldl (fun _ _ h => K.ite (K.spillMark (K.spillMark h _ _ _ _) _ _ _ _) (K.spillMark h _ _ _ _)) h _)

theorem Steady.spillFor {s : State} (h : P s) (i c slice need : Nat) : P (s.spillFor i c slice need) := by
  unfold State.spillFor
  exact K.spillTo h _ _ _ _ _ _

theorem Steady.landImage {s : State} (h : P s) (i : Nat) (x : Nat × Folio) (m : Move) (image : List Byte) :
    P (s.landImage i x m image) := by
  unfold State.landImage
  split
  · exact h
  · extract_lets
    split
    · exact K.modFolio (K.t0Write (K.countSlugs h _ _) _ _) _ _ _
    · exact K.modFolio (K.report (K.countSlugs h _ _) _) _ _ _

theorem Steady.landLent {s : State} (h : P s) (i : Nat) : P (s.landLent i) := by
  unfold State.landLent
  refine K.foldl (fun _ _ h => ?_) h _
  split
  · exact K.ite h (K.ite (K.modFolio h _ _ _) (K.landImage h _ _ _ _))
  · exact h

theorem Steady.settleMoves {s : State} (h : P s) (i : Nat) : P (s.settleMoves i) := by
  unfold State.settleMoves
  refine K.foldl (fun _ _ h => ?_) h _
  split
  · exact K.ite h (K.ite (K.modFolio h _ _ _) (K.writeHeader (K.modFolio h _ _ _) _ _))
  · exact h

theorem Steady.reissue {s : State} (h : P s) (i : Nat) : P (s.reissue i) := by
  unfold State.reissue
  refine K.foldl (fun _ _ h => ?_) h _
  split
  · exact K.ite (K.modFolio h _ _ _) h
  · exact h

theorem Steady.prefetch {s : State} (h : P s) (i handle : Nat) : P (s.prefetch i handle) := by
  unfold State.prefetch
  refine K.foldl (fun _ _ h => ?_) h _
  split
  · exact h
  · extract_lets
    split
    · exact K.modFolio h _ _ _
    · exact h

theorem Steady.releaseWindow {s : State} (h : P s) (i handle nC : Nat) : P (s.releaseWindow i handle nC) := by
  unfold State.releaseWindow
  exact K.dropFolios h _ _ _

theorem Steady.commitFolios {s : State} (h : P s) (i handle nC0 nC imp : Nat) : P (s.commitFolios i handle nC0 nC imp) := by
  unfold State.commitFolios
  exact K.foldl (fun _ _ h => K.ite h (K.ite (K.dropFolio h _ _ _) (K.ite (K.writeHeader (K.modFolio h _ _ _) _ _) (K.ite (K.writeHeader
      (K.modFolio h _ _ _) _ _) h)))) h _

theorem Steady.keepCounts {s : State} (h : P s) (i : Nat) : P (s.keepCounts i) := by
  unfold State.keepCounts
  exact K.modServe h _ _

end

end Sys2Proof.Machine
end


section
/-!
What packets served, damage answered and impressions abandoned keep (O5, O45, O50).
-/
namespace Sys2Proof.Machine

open Sys2Proof

/-- A predicate that recovery keeps too (R518 to R529): it speaks of no serving state at all, and of the fabric at most by the generation and the
endpoint. The canonical form and what an edition puts in force are two of them. -/
structure Kept (P : State → Prop) : Prop extends Steady P where
  anyRun : ∀ {s}, P s → ∀ i f, P (s.modRun i f)
  anyServe : ∀ {s}, P s → ∀ i f, P (s.modServe i f)
  anyFab : ∀ {s}, P s → ∀ x : Fabric, x.gens = s.fab.gens → x.endpoint = s.fab.endpoint → P { s with fab := x }
  setCauses : ∀ {s}, P s → ∀ x, P { s with causes := x }

theorem canonKept : Kept Canon where
  modCore := Canon.modCore
  modImp := fun h i f _ => h.modImp i f
  modFn := Canon.modFn
  modPort := Canon.modPort
  modCh := fun h c f hf => (Keeps.modCh _ c f hf).2 h
  setOut := fun h _ => h.same rfl rfl rfl rfl rfl rfl
  pulse := Canon.pulse
  onlyT0 := fun h ho hb => (ho.keeps hb).2 h
  setFab := fun h x _ _ _ => h.setFab x
  setEvents := fun h _ => h.setPower _
  setFences := fun h _ => h.putEd _
  anyRun := Canon.modRun
  anyServe := Canon.modServe
  anyFab := fun h x _ _ => h.setFab x
  setCauses := Canon.setCauses

section
variable {P : State → Prop}

variable (K : Kept P)
include K

theorem Kept.t1Read {s : State} (h : P s) (i a n : Nat) : P (s.t1Read i a n).2 := by
  unfold State.t1Read
  split
  · exact h
  · exact K.foldl (fun _ _ h => K.touchSeg h _ _) h _

theorem Kept.cause {s : State} (h : P s) (i code subject : Nat) : P (s.cause i code subject) := by
  unfold State.cause
  exact K.ite h (K.setCauses h _)

theorem Kept.replyTo {s : State} (h : P s) (core job target eseq : Nat) (bs : List Byte) :
    P (s.replyTo core job target eseq bs) := by
  unfold State.replyTo
  exact K.modCore h _ _

theorem Kept.zeroReply {s : State} (h : P s) (target : Nat) (o : Outst) : P (s.zeroReply target o) := by
  unfold State.zeroReply
  exact K.ite (K.replyTo h _ _ _ _ _) h

theorem Kept.refusalAt {s : State} (h : P s) (i : Nat) (o : Outst) (status : Nat) : P (s.refusalAt i o status) := by
  unfold State.refusalAt
  exact K.anyServe h _ _

theorem Kept.failMove {s : State} (h : P s) (i folio : Nat) : P (s.failMove i folio) := by
  unfold State.failMove
  exact K.giveUpMove (K.count h _ _ _) _ _

theorem Kept.morgueAnswer {s : State} (h : P s) (i : Nat) (at_ : Nat × Nat) (bs : List Byte) : P (s.morgueAnswer i at_ bs) := by
  unfold State.morgueAnswer
  exact K.modFolio h _ _ _

theorem Kept.loseOp {s : State} (h : P s) (i target : Nat) (o : Outst) : P (s.loseOp i target o) := by
  unfold State.loseOp
  extract_lets
  split
  · exact K.cause (K.failMove (K.count h _ _ _) _ _) _ _ _
  · exact K.ite (K.count h _ _ _) (K.cause (K.zeroReply (K.count h _ _ _) _ _) _ _ _)

theorem Kept.transmit {s : State} (h : P s) (i target : Nat) (o : Outst) : P (s.transmit i target o).1 := by
  unfold State.transmit
  split
  · exact K.anyFab h _ rfl rfl
  · split
    · exact h
    · exact K.enqueue h _ _ _

theorem Kept.sendOn {s : State} (h : P s) (i target : Nat) (o : Outst) : P (s.sendOn i target o) := by
  unfold State.sendOn
  exact K.ite (K.loseOp h _ _ _) (K.ite (K.setStream h _) (K.ite (K.setStream (K.transmit (K.count h _ _ _) _ _ _) _) (K.loseOp
      (K.count h _ _ _) _ _ _)))

theorem Kept.drainStream {s : State} (h : P s) (i target n : Nat) : P (s.drainStream i target n) := by
  induction n generalizing s with
  | zero => exact h
  | succ n ih =>
    unfold State.drainStream
    extract_lets
    split
    · exact h
    · exact K.ite h (ih (K.setStream (K.sendOn (K.setStream h _) _ _ _) _))

theorem Kept.headCount {s : State} (h : P s) (i : Nat) (c : HeadCheck) : P (s.headCount i c) := by
  cases c with
  | accept => exact h
  | misdirected | staleReturn | staleBlock => exact K.count h _ _ _

theorem Kept.setGate {s : State} (h : P s) (g : Nat × Nat × Nat) (op : Bool) : P (s.setGate g op) := by
  unfold State.setGate
  exact K.anyFab h _ rfl rfl

theorem Kept.bayStore {s : State} (h : P s) (i : Nat) (b : BayAt) (a : Nat) (bs : List Byte) : P (s.bayStore i b a bs).2 := by
  unfold State.bayStore
  split
  · extract_lets
    split
    · exact K.setGate h _ _
    · exact K.setGate (K.headCount h _ _) _ _
  · exact h

theorem Kept.takeRoster {s : State} (h : P s) (i m : Nat) : P (s.takeRoster i m) := by
  unfold State.takeRoster
  exact K.ite h (K.anyServe h _ _)

theorem Kept.applyFlag {s : State} (h : P s) (i a : Nat) (v : BitVec 64) : P (s.applyFlag i a v) := by
  unfold State.applyFlag
  extract_lets
  split
  · exact K.setGate (K.anyServe (K.t0Write h _ _) _ _) _ _
  · exact K.setGate (K.takeRoster (K.anyServe (K.t0Write h _ _) _ _) _ _) _ _
  · exact K.anyServe (K.t0Write h _ _) _ _

theorem Kept.remRead {s : State} (h : P s) (i : Nat) (r : Request) (n : Nat) : P (s.remRead i r n).2.2 := by
  unfold State.remRead
  extract_lets
  split
  · exact K.t1Read h _ _ _
  · exact K.t0Read h _ _

theorem Kept.remWrite {s : State} (h : P s) (i : Nat) (r : Request) (bs : List Byte) : P (s.remWrite i r bs) := by
  unfold State.remWrite
  exact K.ite (K.t1Write h _ _ _) (K.t0Write h _ _)

theorem Kept.applyReq {s : State} (h : P s) (src simp : Nat) (r : Request) : P (s.applyReq src simp r).2.2.2 := by
  unfold State.applyReq
  extract_lets i x
  have hx : P x.2.2 := K.remRead h _ _ _
  split
  · exact hx
  split
  · split
    · next b _ =>
      change P (if (s.bayStore i b (remOff r.addr) r.data).1 then (s.bayStore i b (remOff r.addr) r.data).2.remWrite i r r.data
        else (s.bayStore i b (remOff r.addr) r.data).2)
      exact K.ite (K.remWrite (K.bayStore h _ _ _ _) _ _ _) (K.bayStore h _ _ _ _)
    · exact K.remWrite h _ _ _
  split
  · split
    · exact K.count (K.count h i .fabStaleFlag 1) i .staleBlocks 1
    · exact K.applyFlag h _ _ _
  split
  · exact hx
  · exact K.remWrite hx _ _ _

theorem Kept.respond {s : State} (h : P s) (p : Packet) (r : Request) (status : Nat) (result : BitVec 64) (data : List Byte)
    (replayed : Bool) :
    P (s.respond p r status result data replayed) := by
  unfold State.respond
  extract_lets
  split
  · exact K.anyFab h _ rfl rfl
  · split
    · exact K.enqueue h _ _ _
    · exact h

theorem Kept.mapTables {s : State} (h : P s) (f : List InStream → List InStream) : P (s.mapTables f) := by
  unfold State.mapTables
  exact K.anyFab h _ rfl rfl

theorem Kept.setTable {s : State} (h : P s) (t : InStream) : P (s.setTable t) := by
  unfold State.setTable
  exact K.mapTables h _

theorem Kept.openTable {s t : State} (h : P s) (src simp : Nat) (g : BitVec 32) (e : s.openTable src simp g = some t) :
    P t := by
  unfold State.openTable at e
  extract_lets at e
  repeat' split at e
  all_goals cases e
  · exact K.setTable h _
  · exact K.setTable h _
  · exact K.mapTables h _
  · exact K.mapTables h _

theorem Kept.setEntry {s : State} (h : P s) (src simp : Nat) (e : BitVec 32) (st : EntryState) :
    P (s.setEntry src simp e st) := by
  unfold State.setEntry
  split
  · exact h
  · exact K.setTable h _

theorem Kept.finish {s : State} (h : P s) (x : Entry) (r : Request) (status : Nat) (result : BitVec 64) (data : List Byte) :
    P (s.finish x r status result data) := by
  unfold State.finish
  exact K.respond (K.setEntry h _ _ _ _) _ _ _ _ _ _

theorem Kept.queueT1 {s : State} (h : P s) (x : Entry) (r : Request) : P (s.queueT1 x r) := by
  unfold State.queueT1
  extract_lets ch q g full op src s1 s2
  have h1 : P s1 := K.anyFab h _ rfl rfl
  have h2 : P s2 := K.setEntry h1 _ _ _ _
  exact K.ite h2 (K.free h2 _ _ _)

theorem Kept.start {s : State} (h : P s) (x : Entry) (r : Request) : P (s.start x r) := by
  unfold State.start
  exact K.ite (K.queueT1 h _ _) (K.finish (K.free (K.applyReq h _ _ _) _ _ _) _ _ _ _ _)

theorem Kept.release {s : State} (h : P s) (src simp n : Nat) : P (s.release src simp n) := by
  induction n generalizing s with
  | zero => exact h
  | succ n ih =>
    unfold State.release
    split
    · exact h
    · exact ih (K.start h _ _)

theorem Kept.arrive {s : State} (h : P s) (port : Nat) (p : Packet) (r : Request) : P (s.arrive port p r) := by
  unfold State.arrive
  extract_lets
  split
  · exact K.respond (K.free (K.count h _ _ _) _ _ _) _ _ _ _ _ _
  next s' hs =>
  have h : P s' := K.openTable h _ _ _ hs
  split
  · exact h
  extract_lets old u d high es t' s1 s2
  split
  · exact K.free (K.count h _ _ _) _ _ _
  split
  · split
    · split
      · exact K.respond (K.remRead (K.free h _ _ _) _ _ _) _ _ _ _ _ _
      · exact K.respond (K.free h _ _ _) _ _ _ _ _ _
    · exact K.free (K.count h _ _ _) _ _ _
  refine K.release ?_ _ _ _
  unfold s2
  split
  · exact K.finish (K.free (K.setTable h _) _ _ _) _ _ _ _ _
  · exact K.ite (K.setTable h _) (K.start (K.setTable h _) _ _)

theorem Kept.answer {s : State} (h : P s) (p : Packet) (r : Response) : P (s.answer p r) := by
  unfold State.answer
  extract_lets i target x s1 s2
  split
  · exact K.count h _ _ _
  extract_lets s3
  refine K.drainStream ?_ _ _ _
  have h : P s2 := K.count (K.setStream h _) _ _ _
  unfold s3
  split
  · exact K.count h _ _ _
  split
  · exact K.ite (K.failMove h _ _) (K.morgueAnswer h _ _ _)
  split
  · exact K.ite (K.anyServe h _ _) (K.refusalAt (K.zeroReply h _ _) _ _ _)
  · exact K.ite (K.replyTo h _ _ _ _ _) (K.ite (K.replyTo h _ _ _ _ _) h)

theorem Kept.runLoop {s : State} (h : P s) (n : Nat) : P (s.runLoop n) := by
  induction n generalizing s with
  | zero => exact h
  | succ n ih =>
    unfold State.runLoop
    split
    · exact h
    extract_lets src s1
    have h1 : P s1 := K.anyFab h _ rfl rfl
    split
    · exact ih (K.arrive h1 _ _ _)
    · exact ih (K.answer h1 _ _)
    · exact ih h1

theorem Kept.restartLent {s : State} (h : P s) (i : Nat) : P (s.restartLent i) := by
  unfold State.restartLent
  refine K.foldl (fun _ _ h => ?_) h _
  split
  · exact K.ite (K.giveUpMove h _ _) h
  · exact h

theorem Kept.addDamage {s : State} (h : P s) (i : Nat) (d : Damage) : P (s.addDamage i d) := by
  unfold State.addDamage
  exact K.anyServe h _ _

theorem Kept.keepRefusals {s : State} (h : P s) (i : Nat) : P (s.keepRefusals i) := by
  unfold State.keepRefusals
  exact K.foldl (fun _ _ h => K.addDamage h _ _) h _

theorem Kept.sendRoster {s : State} (h : P s) (i target : Nat) (bytes : List Byte) : P (s.sendRoster i target bytes) := by
  unfold State.sendRoster
  exact K.sendOn (K.foldl (fun _ _ h => K.sendOn h _ _ _) h _) _ _ _

theorem Kept.sendRecover {s : State} (h : P s) (i e : Nat) (m : List Nat) : P (s.sendRecover i e m) := by
  unfold State.sendRecover
  exact K.foldl (fun _ _ h => K.sendRoster h _ _ _) h _

theorem Kept.zeroTables {s : State} (h : P s) (i : Nat) : P (s.zeroTables i) := by
  unfold State.zeroTables
  split
  · exact h
  · exact K.foldl (fun _ _ h => K.foldl (fun _ _ h => K.t0Write h _ _) h _) h _

theorem Kept.returnFolios {s : State} (h : P s) (i : Nat) : P (s.returnFolios i) := by
  unfold State.returnFolios
  exact K.restartLent (K.abandonSpills (K.foldl (fun _ _ h => K.foldl (fun _ _ h => K.dropFolio h _ _ _) h _) h _) _ _) _

theorem Kept.dropImpression {s : State} (h : P s) (i cause subject : Nat) : P (s.dropImpression i cause subject) := by
  unfold State.dropImpression
  exact K.event (K.pulse (K.count (K.anyServe (K.anyRun (K.returnFolios (K.zeroTables (K.keepRefusals (K.foldl
      (fun _ _ h => K.modCore h _ _) h _) _) _) _) _ _) _ _) _ _ _) _) _ _

theorem Kept.agreed {s : State} (h : P s) (i e : Nat) (m : List Nat) (got : List Recover) : P (s.agreed i e m got) := by
  unfold State.agreed
  exact K.anyRun (K.count (K.anyServe h _ _) _ _ _) _ _

theorem Kept.agree {s : State} (h : P s) (i : Nat) (timeout : Bool) (n : Nat) : P (s.agree i timeout n) := by
  induction n generalizing s timeout with
  | zero => exact h
  | succ n ih =>
    unfold State.agree
    split
    · exact h
    extract_lets
    split
    · exact h
    split
    · exact ih (K.sendRecover (K.anyServe h _ _) _ _ _) _
    · exact K.ite (K.agreed h _ _ _ _) (ih (K.sendRecover (K.anyServe h _ _) _ _ _) _)

theorem Kept.startAgreement {s : State} (h : P s) (i : Nat) (got : List Recover) : P (s.startAgreement i got) := by
  unfold State.startAgreement
  exact K.agree (K.sendRecover (K.anyServe h _ _) _ _ _) _ _ _

theorem Kept.abandon {s : State} (h : P s) (i cause subject : Nat) (got : List Recover) : P (s.abandon i cause subject got) := by
  unfold State.abandon
  exact K.ite h (K.startAgreement (K.dropImpression h _ _ _) _ _)

theorem Kept.runCauses {s : State} (h : P s) (n : Nat) : P (s.runCauses n) := by
  induction n generalizing s with
  | zero => exact h
  | succ n ih =>
    unfold State.runCauses
    split
    · exact h
    · exact K.ite (ih (K.setCauses h _)) (ih (K.abandon (K.setCauses h _) _ _ _ _))

theorem Kept.settle {s : State} (h : P s) : P (s.settle) := by
  unfold State.settle
  exact K.runCauses (K.runLoop h _) _

theorem Kept.portTo {s : State} (h : P s) (p : Nat) (st : PortState) (reason : Nat) : P (s.portTo p st reason) := by
  unfold State.portTo
  exact K.ite (K.modPort h _ _) (K.pulse (K.modPort h _ _) _)

theorem Kept.portUp {s : State} (h : P s) (p : Nat) : P (s.portUp p) := by
  unfold State.portUp
  exact K.pump (K.poolReturn (K.portTo (K.modPort h _ _) _ _ _) _) _

theorem Kept.settlePort {s : State} (h : P s) (p : Nat) : P (s.settlePort p) := by
  unfold State.settlePort
  extract_lets
  split
  · exact h
  · exact K.ite (K.ite h (K.portUp h _)) (K.portTo (K.modPort h _ _) _ _ _)

end

end Sys2Proof.Machine
end


section
/-!
What tickets, openings and commits keep (R325 to R348, R356 to R363, R461): a predicate that the shared operations keep is kept by them.
-/
namespace Sys2Proof.Machine

open Sys2Proof

section
variable {P : State → Prop} (K : Steady P)
include K

theorem Steady.modReq {s : State} (h : P s) (i key : Nat) (f : Req → Req) : P (s.modReq i key f) := by
  unfold State.modReq
  exact K.modServe h _ _

theorem Steady.admitOpen {s : State} (h : P s) (i ring : Nat) (t : Ticket) : P (s.admitOpen i ring t).2 := by
  unfold State.admitOpen
  extract_lets v idx gen hd opt ad span pre np stops q bind s1 s2
  have h2 : P s2 := K.foldl (fun _ _ h => K.densityWrite (K.densityWrite h _ _ _ _ _) _ _ _ _ _) (K.modServe h _ _) _
  clear_value s2
  clear s1 q np
  clear_value pre
  rcases pre with _ | ⟨src, n⟩
  · exact h2
  · exact K.sharePrefix h2 _ _ _ _

theorem Steady.admitAppend {s : State} (h : P s) (i key : Nat) (toks : List Nat) : P (s.admitAppend i key toks) := by
  unfold State.admitAppend
  split
  · exact h
  · exact K.ite h (K.ite (K.modReq (K.modReq h _ _ _) _ _ _) (K.modReq h _ _ _))

theorem Steady.admitAdapter {s : State} (h : P s) (i : Nat) (t : Ticket) : P (s.admitAdapter i t).2 := by
  unfold State.admitAdapter
  extract_lets
  split
  · dsimp only
    exact K.modServe h _ _
  · exact h

theorem Steady.admitRetire {s : State} (h : P s) (i id : Nat) : P (s.admitRetire i id) := by
  unfold State.admitRetire
  exact K.modServe h _ _

theorem Steady.admitWeights {s : State} (h : P s) (i : Nat) (t : Ticket) : P (s.admitWeights i t).2 := by
  unfold State.admitWeights
  extract_lets
  split
  · dsimp only
    exact K.modServe (K.ite (K.t1Write h _ _ _) (K.foldl (fun _ _ h => K.t0Write h _ _) h _)) _ _
  · exact h

theorem Steady.admitQuery {s : State} (h : P s) (f : Nat) (t : Ticket) : P (s.admitQuery f t).2.2 := by
  unfold State.admitQuery
  exact K.ite h (K.emit h _)

theorem Steady.admitEffect {s : State} (h : P s) (f ring : Nat) (t : Ticket) : P (s.admitEffect f ring t).2.2 := by
  unfold State.admitEffect
  extract_lets
  split
  · exact K.admitOpen h _ _ _
  · split
    · split
      · exact K.admitAppend h _ _ _
      · exact h
    · split
      · split
        · exact K.modReq h _ _ _
        · exact h
      · split
        · split
          · exact K.modReq h _ _ _
          · exact h
        · split
          · exact K.admitAdapter h _ _
          · split
            · exact K.admitRetire h _ _
            · split
              · exact K.admitWeights h _ _
              · split
                · exact K.admitQuery h _ _
                · exact h

theorem Steady.queueRecords {s : State} (h : P s) (f k : Nat) (rs : List (List Byte)) : P (s.queueRecords f k rs) := by
  unfold State.queueRecords
  exact K.modRing h _ _ _

theorem Steady.writeBacklog {s : State} (h : P s) (f k : Nat) : P (s.writeBacklog f k) := by
  unfold State.writeBacklog
  split
  · exact h
  · exact K.modRing (K.writeRing h _ _ _) _ _ _

theorem Steady.recordNow {s : State} (h : P s) (f ring : Nat) (record : Option (List Byte)) : P (s.recordNow f ring record) := by
  unfold State.recordNow
  split
  · exact h
  extract_lets u
  have hu : P u := by
    unfold u
    split
    · exact K.writeBacklog (K.queueRecords h _ _ _) _ _
    · exact h
  exact K.ite hu (K.emit hu _)

theorem Steady.pfFences {s : State} (h : P s) : P (s.pfFences) := by
  unfold State.pfFences
  exact K.foldl (fun _ _ h => K.ite h (K.recordNow (K.setFences h _) _ _ _)) h _

theorem Steady.completeTicket {s : State} (h : P s) (f ring : Nat) (t : Ticket) (status r0 r1 : Nat) :
    P (s.completeTicket f ring t status r0 r1) := by
  unfold State.completeTicket
  exact K.ite (K.recordNow h _ _ _) (K.modServe h _ _)

theorem Steady.reserveRet {s : State} (h : P s) (f ret n : Nat) : P (s.reserveRet f ret n) := by
  unfold State.reserveRet
  exact K.modRing h _ _ _

theorem Steady.reserveRecords {s : State} (h : P s) (f ring n : Nat) : P (s.reserveRecords f ring n) := by
  unfold State.reserveRecords
  split
  · exact h
  · exact K.reserveRet h _ _ _

theorem Steady.popTicket {s : State} (h : P s) (f ring : Nat) : P (s.popTicket f ring) := by
  unfold State.popTicket
  exact K.modRing h _ _ _

theorem Steady.admitFront {s : State} (h : P s) (f ring : Nat) : P (s.admitFront f ring).2 := by
  unfold State.admitFront
  split
  · exact h
  next t _ =>
  extract_lets status n s1 s2 x
  have h2 : P s2 := K.ite (K.popTicket h _ _) (K.reserveRecords (K.popTicket h _ _) _ _ _)
  split
  · exact h
  split
  · exact h
  split
  · exact K.completeTicket h2 _ _ _ _ _ _
  split
  · exact K.setFences h2 _
  · exact K.completeTicket (K.admitEffect h2 f ring t) _ _ _ _ _ _

theorem Steady.admitOne {s : State} (h : P s) (i ring : Nat) : P (s.admitOne i ring) := by
  unfold State.admitOne
  exact K.ite (K.modServe (K.admitFront h _ _) _ _) (K.admitFront h _ _)

theorem Steady.admitRounds {s : State} (h : P s) (i n : Nat) : P (s.admitRounds i n) := by
  induction n generalizing s with
  | zero => exact h
  | succ n ih =>
    unfold State.admitRounds
    split
    · exact h
    split
    · exact ih (K.admitOne h _ _)
    · exact h

theorem Steady.ringError {s : State} (h : P s) (f k cause doorbell cons : Nat) : P (s.ringError f k cause doorbell cons) := by
  unfold State.ringError
  exact K.ite (K.writeEvents h _ _ _) (K.event h _ _)

theorem Steady.readHostWord {s : State} (h : P s) (i : Nat) (x : Nat × Option (BitVec 32)) : P (s.readHostWord i x) := by
  unfold State.readHostWord
  split
  · exact h
  · split
    · exact h
    · split
      · exact K.modRing h _ _ _
      · exact K.ringError h _ _ _ _ _

theorem Steady.clearRun {s : State} (h : P s) (i : Nat) : P (s.clearRun i) := by
  unfold State.clearRun
  exact K.foldl (fun _ _ h => K.modCore h _ _) (K.modRun h _ _) _

theorem Steady.lateStep {s : State} (h : P s) (i key : Nat) : P (s.lateStep i key) := by
  unfold State.lateStep
  split
  · exact h
  · extract_lets
    split
    · exact K.ite (K.modReq h _ _ _) h
    · exact h

theorem Steady.setTarget {s : State} (h : P s) (i key : Nat) : P (s.setTarget i key) := by
  unfold State.setTarget
  exact K.ite h (K.modReq h _ _ _)

theorem Steady.wake {s : State} (h : P s) (i : Nat) (keys : List Nat) : P (s.wake i keys) := by
  unfold State.wake
  exact K.foldl (fun _ _ h => K.prefetch h _ _) (K.foldl (fun _ _ h => K.lateStep h _ _) (K.foldl (fun _ _ h => K.setTarget h _ _)
      (K.reissue (K.settleMoves (K.landLent (K.abandonSpills h _ _) _) _) _) _) _) _

theorem Steady.tryOffer {s : State} (h : P s) (i : Nat) (q : Req) (o : Offer) : P (s.tryOffer i q o).2 := by
  unfold State.tryOffer
  split
  · exact h
  extract_lets
  split
  · exact h
  split
  · exact h
  split
  · exact h
  split
  · exact h
  split
  · exact h
  · dsimp only
    exact K.modServe (K.ite (K.reserveRet (K.reserveAll h _ _ _) _ _ _) (K.reserveAll h _ _ _)) _ _

theorem Steady.trySteps {s : State} (h : P s) (i : Nat) (q : Req) (os : List Offer) (f : Fit) (o : Option Offer) :
    P (s.trySteps i q os f o).2.2 := by
  induction os generalizing s f o with
  | nil => exact h
  | cons x os ih =>
    have ht : P (s.tryOffer i q x).2 := K.tryOffer h _ _ _
    unfold State.trySteps
    extract_lets
    split
    · exact ih h _ _
    · revert ht
      generalize s.tryOffer i q x = y
      intro ht
      split
      · exact ht
      · exact ih ht _ _

theorem Steady.wantFolio {s : State} (h : P s) (i key : Nat) (q : Req) (c slice : Nat) (o : Offer) :
    P (s.wantFolio i key q c slice o) := by
  unfold State.wantFolio
  exact K.ite (K.count (K.spillFor h _ _ _ _) _ _ _) (K.ite h (K.modServe h _ _))

theorem Steady.leaveOut {s : State} (h : P s) (i key : Nat) (q : Req) (f : Fit) (last : Option Offer) :
    P (s.leaveOut i key q f last) := by
  unfold State.leaveOut
  extract_lets
  split
  · exact K.wantFolio (K.modServe h _ _) _ _ _ _ _ _
  · exact K.modServe h _ _

theorem Steady.warmAdapters {s : State} (h : P s) (i : Nat) (keys : List Nat) : P (s.warmAdapters i keys) := by
  unfold State.warmAdapters
  exact K.modServe h _ _

theorem Steady.serveOne {x : State × Bool} (h : P x.1) (i : Nat) (cut : Bool) (key : Nat) :
    P (State.serveOne i cut x key).1 := by
  unfold State.serveOne
  split
  · extract_lets cold away isPrefix r
    have hr : P r.2.2 := by
      unfold r
      split
      · exact h
      · exact K.trySteps h _ _ _ _ _
    split
    · exact hr
    · exact K.count (K.leaveOut hr _ _ _ _ _) _ _ _
  · exact h

theorem Steady.serveAll {x : State × Bool} (h : P x.1) (i : Nat) (cut : Bool) (keys : List Nat) :
    P (keys.foldl (State.serveOne i cut) x).1 := by
  induction keys generalizing x with
  | nil => exact h
  | cons k ks ih => exact ih (K.serveOne h _ _ _)

theorem Steady.offerAll {s : State} (h : P s) (i : Nat) (keys : List Nat) : P (s.offerAll i keys) := by
  unfold State.offerAll
  exact K.ite (K.serveAll h _ _ _) (K.serveAll h _ _ _)

theorem Steady.reserveCancels {s : State} (h : P s) (i : Nat) : P (s.reserveCancels i) := by
  unfold State.reserveCancels
  exact K.foldl (fun _ _ h => K.reserveRet h _ _ _) h _

theorem Steady.dropOffer {s : State} (h : P s) (i key : Nat) : P (s.dropOffer i key) := by
  unfold State.dropOffer
  exact K.modServe (K.unreserve h _ _) _ _

theorem Steady.reoffer {s : State} (h : P s) (i key : Nat) (q : Req) (o : Offer) : P (s.reoffer i key q o) := by
  have ht : P ((s.dropOffer i key).tryOffer i q o).2 := K.tryOffer (K.dropOffer h _ _) _ _ _
  unfold State.reoffer
  revert ht
  generalize (s.dropOffer i key).tryOffer i q o = y
  intro ht
  split
  · exact ht
  · exact K.leaveOut ht _ _ _ _ _

theorem Steady.resolveSpan {s : State} (h : P s) (i : Nat) (o : Offer) : P (s.resolveSpan i o) := by
  unfold State.resolveSpan
  split
  · exact h
  · split
    · exact h
    · exact K.ite h (K.ite (K.ite h (K.reoffer h _ _ _ _)) (K.leaveOut (K.dropOffer h _ _) _ _ _ _ _))

theorem Steady.takeEntry {s : State} (h : P s) (i : Nat) (source : Nat) (e : RosterEntry) : P (s.takeEntry i source e) := by
  unfold State.takeEntry
  split
  · exact h
  · extract_lets
    split
    · exact K.modReq h _ _ _
    · split
      · exact K.ite h (K.modServe h _ _)
      · exact h

theorem Steady.takeOpenRosters {s : State} (h : P s) (i : Nat) : P (s.takeOpenRosters i) := by
  unfold State.takeOpenRosters
  exact K.foldl (fun _ _ h => K.foldl (fun _ _ h => K.takeEntry h _ _ _) h _) (K.foldl (fun _ _ h => K.modReq h _ _ _)
      (K.foldl (fun _ _ h => K.resolveSpan h _ _) h _) _) _

theorem Steady.clearNew {s : State} (h : P s) (i : Nat) : P (s.clearNew i) := by
  unfold State.clearNew
  exact K.modServe h _ _

theorem Steady.editionEvent {s : State} (h : P s) (i : Nat) (bytes : List Byte) : P (s.editionEvent i bytes) := by
  unfold State.editionEvent
  exact K.pfEvent (K.event h _ _) _

theorem Steady.writeReserve {s : State} (h : P s) (off : Nat) (bs : List Byte) : P (s.writeReserve off bs) := by
  unfold State.writeReserve
  exact K.ite h (K.t0Write (K.t0Write h _ _) _ _)

theorem Steady.bindManifest {s : State} (h : P s) (i : Nat) : P (s.bindManifest i) := by
  unfold State.bindManifest
  split
  · exact h
  · exact K.modRun (K.foldl (fun _ _ h => K.putPage h _ _) (K.syncPages (K.modRun h _ _) _) _) _ _

theorem Steady.writeManifest {s : State} (h : P s) (i : Nat) : P (s.writeManifest i) := by
  unfold State.writeManifest
  split
  · exact h
  · exact K.foldl (fun _ _ h => K.writeReserve (K.writeReserve h _ _) _ _) (K.writeReserve (K.modRun h _ _) _ _) _

theorem Steady.copyPrefixes {s : State} (h : P s) (i : Nat) : P (s.copyPrefixes i) := by
  unfold State.copyPrefixes
  refine K.foldl (fun _ _ h => ?_) h _
  split
  · exact K.ite (K.foldl (fun _ _ h => K.copyPrefix h _ _ _ _ _) h _) h
  · exact h

theorem Steady.takeCounts {s : State} (h : P s) (i : Nat) : P (s.takeCounts i) := by
  unfold State.takeCounts
  exact K.modRun h _ _

theorem Steady.freeAdapters {s : State} (h : P s) (i : Nat) : P (s.freeAdapters i) := by
  unfold State.freeAdapters
  exact K.modServe h _ _

theorem Steady.endRequest {s : State} (h : P s) (i : Nat) (x : Nat × Nat) : P (s.endRequest i x) := by
  unfold State.endRequest
  split
  · exact h
  · exact K.ite (K.modReq (K.ite (K.modServe (K.dropFolios h _ _ _) _ _) (K.dropFolios h _ _ _)) _ _ _) (K.ite (K.count (K.modReq (K.ite
        (K.modServe (K.dropFolios h _ _ _) _ _) (K.dropFolios h _ _ _)) _ _ _) _ _ _) (K.ite (K.count (K.modReq (K.ite
        (K.modServe (K.dropFolios h _ _ _) _ _) (K.dropFolios h _ _ _)) _ _ _) _ _ _) (K.ite (K.count (K.modReq (K.ite
        (K.modServe (K.dropFolios h _ _ _) _ _) (K.dropFolios h _ _ _)) _ _ _) _ _ _) (K.modReq (K.ite
        (K.modServe (K.dropFolios h _ _ _) _ _) (K.dropFolios h _ _ _)) _ _ _))))

theorem Steady.freeHandles {s : State} (h : P s) (i : Nat) : P (s.freeHandles i) := by
  unfold State.freeHandles
  exact K.modServe h _ _

theorem Steady.keepEntry {s : State} (h : P s) (i core : Nat) (b : AttendBody) (l : LayerCfg) (handle e pos : Nat) :
    P (s.keepEntry i core b l handle e pos) := by
  unfold State.keepEntry
  split
  · exact h
  · exact K.ite h (K.foldl (fun _ _ h => K.t0Write (K.t0Read h _ _) _ _) h _)

theorem Steady.keepSlot {s : State} (h : P s) (i n : Nat) (t : Slot) : P (s.keepSlot i n t) := by
  unfold State.keepSlot
  refine K.foldl (fun _ _ h => ?_) h _
  split
  · exact h
  · exact K.foldl (fun _ _ h => K.keepEntry h _ _ _ _ _ _ _) h _

theorem Steady.commitStep {s : State} (h : P s) (i : Nat) : P (s.commitStep i) := by
  unfold State.commitStep
  exact K.foldl (fun _ _ h => K.ite h (K.keepSlot h _ _ _)) h _

theorem Steady.settleCandidates {s : State} (h : P s) (i : Nat) : P (s.settleCandidates i) := by
  unfold State.settleCandidates
  exact K.modServe h _ _

theorem Steady.writeRecords {s : State} (h : P s) (i : Nat) (void : Bool) (records : List (Nat × List Byte)) :
    P (s.writeRecords i void records) := by
  unfold State.writeRecords
  refine K.foldl (fun _ _ h => K.writeBacklog h _ _) (K.foldl (fun _ _ h => K.queueRecords h _ _ _) (K.foldl
      (fun _ _ h => ?_) h _) _) _
  split
  · exact K.queueRecords h _ _ _
  · exact h

theorem Steady.keepDensity {s : State} (h : P s) (i : Nat) (t : Slot) : P (s.keepDensity i t) := by
  unfold State.keepDensity
  exact K.foldl (fun _ _ h => K.ite h (K.densityWrite (K.densityRead h _ _ _ _) _ _ _ _ _)) h _

theorem Steady.commitOrder {s : State} (h : P s) (n : Nat) : P (s.commitOrder n) := by
  unfold State.commitOrder
  exact K.setOut h _

omit K in
theorem Steady.closing_put {c : Closing} (h : P c.s) (q : Req) (rs : List (List Byte)) : P (c.put q rs).s := by
  unfold Closing.put
  split <;> exact h

theorem Steady.closing_discard {c : Closing} (h : P c.s) (i : Nat) (x : SlotEnd) (st flags : Nat) :
    P (c.discard i x st flags).s := by
  unfold Closing.discard
  exact K.unreserve (Steady.closing_put h _ _) _ _

theorem Steady.closing_commit {c : Closing} (h : P c.s) (i : Nat) (x : SlotEnd) (o : Outputs) (ended : Option Nat) (flags : Nat) :
    P (c.commit i x o ended flags).s := by
  unfold Closing.commit
  extract_lets t q key imp prompt proofs path kept idle final s1 s2 resumed writes s3 s4 s5 s6 s7 s8 last c'
  have h8 : P s8 := (K.count (K.count (K.count (K.count (K.count (K.modReq (K.keepDensity (K.releaseWindow
      (K.commitFolios h _ _ _ _ _) _ _ _) _ _) _ _ _) _ _ _) _ _
      _)
    _ _ _) _ _ _) _ _ _)
  have hc : P c'.s := h8
  split
  · exact Steady.closing_put hc _ _
  · exact hc

theorem Steady.closing_slot {c : Closing} (h : P c.s) (i : Nat) (void drain : Bool) (x : SlotEnd) :
    P (c.slot i void drain x).s := by
  unfold Closing.slot
  extract_lets flags
  split
  · exact K.closing_discard h _ _ _ _
  split
  · dsimp only
    exact K.count (K.modReq (K.unreserve h _ _) _ _ _) _ _ _
  split
  · exact K.closing_discard h _ _ _ _
  split
  · split
    · exact K.closing_commit h _ _ _ _ _
    · exact K.closing_discard h _ _ _ _
  · exact K.closing_commit h _ _ _ _ _

theorem Steady.closing_slotless {c : Closing} (h : P c.s) (i : Nat) (void : Bool) (x : Nat × Req × Nat) :
    P (c.slotless i void x).s := by
  unfold Closing.slotless
  exact K.unreserve (Steady.closing_put h _ _) _ _

omit K in
/-- A fold over the closing's slots keeps the form of its state. -/
theorem Steady.closing_foldl {α : Type} {f : Closing → α → Closing} (hf : ∀ c x, P c.s → P (f c x).s) {c : Closing}
    (h : P c.s) (xs : List α) : P (xs.foldl f c).s := by
  induction xs generalizing c with
  | nil => exact h
  | cons x xs ih => exact ih (hf c x h)

end

/-- A predicate that an opening and a commit keep too: what they change beyond the shared operations is the phase, the editions but the one in force,
and the boot domain's measurements. -/
structure Turn (P : State → Prop) : Prop extends Steady P where
  setPhase : ∀ {s}, P s → ∀ i f, (∀ v, (f v).removed = v.removed) → P (s.modServe i f)
  setEd : ∀ {s}, P s → ∀ f : Editions → Editions, (∀ d, (f d).inForce = d.inForce) → P (s.setEd f)
  putEd : ∀ {s}, P s → ∀ d : Editions, d.inForce = s.ed.inForce → P { s with ed := d }
  setBoot : ∀ {s}, P s → ∀ x, P { s with boot := x }
  sample : ∀ {s}, P s → P s.sample
  sendRosters : ∀ {s}, P s → ∀ i t r es, P (s.sendRosters i t r es)

section
variable {P : State → Prop} (K : Turn P)
include K

theorem Turn.anyPhase {s : State} (h : P s) (i : Nat) (f : Serve → Serve) (hf : ∀ v, (f v).removed = v.removed := by exact fun _ => rfl) :
    P (s.modServe i f) :=
  K.setPhase h i f hf

theorem Turn.extend {s : State} (h : P s) (k : Nat) (d : BitVec 384) : P (s.extend k d) := by
  unfold State.extend
  exact K.setBoot h _

theorem Turn.dropMinor {s : State} (h : P s) : P (s.dropMinor) := by
  unfold State.dropMinor
  split
  · exact h
  · exact K.pfFences (K.recordNow (K.editionEvent (K.setEd h (fun d => { d with pendingMinor := none }) fun _ => rfl) _ _) _ _ _)

theorem Turn.applyMinor {s : State} (h : P s) (i : Nat) : P (s.applyMinor i) := by
  unfold State.applyMinor
  split
  · exact h
  · extract_lets
    split
    · exact h
    · split
      · exact K.dropMinor h
      · split
        · exact h
        · refine K.extend (K.setEd (K.modServe h _ _ ?_) _ ?_) _ _
          · exact fun _ => ⟨rfl, rfl⟩
          · exact fun _ => rfl

theorem Turn.finishMinor {s : State} (h : P s) (i : Nat) : P (s.finishMinor i).1 := by
  unfold State.finishMinor
  split
  · exact h
  · split
    · exact h
    · refine K.pfEvent (K.pfFences (K.recordNow (K.putEd h _ ?_) _ _ _)) _
      rfl

theorem Turn.finishOpening {s : State} (h : P s) (i : Nat) : P (s.finishOpening i) := by
  unfold State.finishOpening
  exact K.spillMarks (K.anyPhase (K.writeManifest h _) _ _) _

theorem Turn.afterRosters {s : State} (h : P s) (i : Nat) : P (s.afterRosters i) := by
  unfold State.afterRosters
  exact K.ite (K.anyPhase (K.sendRosters (K.bindManifest (K.copyPrefixes (K.applyMinor (K.clearNew h _) _) _) _) _ _ _ _) _ _)
      (K.finishOpening (K.bindManifest (K.copyPrefixes (K.applyMinor (K.clearNew h _) _) _) _) _)

theorem Turn.continueOpening {s : State} (h : P s) (i : Nat) : P (s.continueOpening i) := by
  unfold State.continueOpening
  exact K.ite (K.finishOpening (K.takeCounts (K.ite (K.afterRosters (K.takeOpenRosters h _) _) h) _) _) (K.ite
      (K.afterRosters (K.takeOpenRosters h _) _) h)

theorem Turn.planOpening {s : State} (h : P s) (i : Nat) : P (s.planOpening i) := by
  unfold State.planOpening
  split
  · exact h
  · exact K.ite (K.anyPhase (K.sendRosters (K.reserveCancels (K.warmAdapters (K.offerAll (K.wake (K.modServe (K.admitRounds (K.clearRun
        (K.fixPorts h _) _) _ _) _ _) _ _) _ _) _
        _) _) _ _ _ _) _ _)
        (K.afterRosters (K.reserveCancels (K.warmAdapters (K.offerAll (K.wake (K.modServe (K.admitRounds (K.clearRun
            (K.fixPorts h _) _) _ _) _ _) _ _) _ _) _
        _) _) _)

theorem Turn.enterHeld {s : State} (h : P s) (i code : Nat) : P (s.enterHeld i code) := by
  unfold State.enterHeld
  exact K.sample (K.ite (K.takeTable (K.anyPhase h _ _) _) (K.flushPower (K.takeTable (K.anyPhase h _ _) _)))

theorem Turn.commitNow (hr : ∀ {s}, P s → ∀ i f, P (s.modRun i f)) {s : State} (h : P s) (i : Nat) (ts : List ImpTiming) :
    P (s.commitNow i ts) := by
  unfold State.commitNow
  extract_lets v sent imp fixed bits void drains ends xs c1 less c2 s1 s2 s3 s4 s5 s6 s7 mi s8 news links lost held events s9 s10 s11 s12
    s13 s14 s15 prev s16 s17 s18
  have hc1 : P c1.s := Steady.closing_foldl (fun _ _ h => K.closing_slot h _ _ _ _) h _
  have h1 : P s1 := Steady.closing_foldl (fun _ _ h => K.closing_slotless h _ _ _) hc1 _
  have h5 : P s5 := K.freeAdapters (K.settleCandidates (K.foldl (fun _ _ h => K.endRequest h _ _) (K.count
      (K.count h1 _ _ _) _ _ _) _) _) _
  have h8 : P s8 := K.finishMinor (K.freeHandles (K.writeRecords h5 _ _ _) _) _
  have h11 : P s11 := K.flushPower (K.foldl (fun _ _ h => K.pfEvent h _) (K.writeEvents h8 _ _ _) _)
  have h12 : P s12 := K.foldl (fun _ _ h => K.modPort h _ _) h11 _
  have h14 : P s14 := K.count (K.count (K.count (K.count (K.count h12 _ _ _) _ _ _) _ _ _) _ _ _) _ _ _
  have h15 : P s15 := K.count (K.foldl (fun _ _ h => K.ite (K.count h _ _ _) h) h14 _) _ _ _
  have h16 : P s16 := by
    refine K.anyPhase h15 _ _ ?_
    intro _
    rfl
  have h17 : P s17 := hr h16 _ _
  have h18 : P s18 := by
    refine K.commitOrder (K.keepCounts (K.modImp (K.syncPages h17 _) _ _ ?_) _) _
    exact fun _ => ⟨rfl, rfl, rfl, rfl, rfl, rfl⟩
  exact K.ite (K.enterHeld h18 _ _) h18

end

theorem Canon.sendRosters {s : State} (h : Canon s) (i type routed : Nat) (es : List RosterEntry) :
    Canon (s.sendRosters i type routed es) := by
  unfold State.sendRosters
  exact Canon.foldl (fun _ _ h => canonKept.sendRoster h _ _ _) h _

theorem canonTurn : Turn Canon where
  toSteady := canonKept.toSteady
  setPhase := fun h i f _ => h.modServe i f
  setEd := fun h f _ => h.setEd f
  putEd := fun h d _ => h.putEd d
  setBoot := Canon.setBoot
  sample := Canon.sample
  sendRosters := Canon.sendRosters

end Sys2Proof.Machine
end


section
/-!
Folios, interrupts, damage and recovery keep the canonical form.
-/
namespace Sys2Proof.Machine

open Sys2Proof

/-- T0 is replaced by one whose bytes have the form. -/
theorem Canon.setT0 {s : State} (h : Canon s) (x : Case) (hx : spWf 0#8 s.t0.bytes = true → spWf 0#8 x.bytes = true) :
    Canon { s with t0 := x } := by
  rw [canon_iff] at *
  exact ⟨hx h.1, h.2⟩

theorem Canon.command {s : State} (h : Canon s) {core job op : Nat} {e : Nat → BitVec 512 → State → State}
    (he : ∀ {i r s}, Canon s → Canon (e i r s)) : CanonOutcome (s.command core job op e) := by
  rcases command_cases s core job op e with ⟨_, hc⟩ | ⟨i, r, _, hc⟩ <;> rw [hc]
  · exact h.next
  · refine Canon.next ?_
    unfold State.stampReports
    exact (he (h.modCore core _)).setReports _

theorem CanonOutcome.thenDo {o : Host.Outcome State Fault Refusal} (ho : CanonOutcome o) {f : State → Host.Outcome State Fault Refusal}
    (hf : ∀ {s}, Canon s → CanonOutcome (f s)) : CanonOutcome (thenDo o f) := by
  unfold Sys2Proof.Machine.thenDo
  split
  · exact hf (ho _ rfl)
  · exact ho

theorem Canon.modCh {s : State} (h : Canon s) (c : Nat) (f : Channel → Channel)
    (hf : spWf 0#8 (s.ch c).data = true → spWf 0#8 (f (s.ch c)).data = true) : Canon (s.modCh c f) := (Keeps.modCh s c f hf).2 h

theorem Canon.badLine {s : State} (h : Canon s) (l : Nat) : Canon (s.badLine l) := by
  unfold State.badLine
  refine Canon.report ?_ _
  exact h.setT0 _ id

theorem Canon.fixCount {s : State} (h : Canon s) (l : Nat) : Canon (s.fixCount l) := by
  unfold State.fixCount
  exact Canon.ite h (h.setT0 _ id)

theorem Canon.touchLine {s : State} (h : Canon s) (l : Nat) : Canon (s.touchLine l) := by
  unfold State.touchLine
  exact Canon.ite (h.badLine _) (h.fixCount _)

theorem Canon.freshLine {s : State} (h : Canon s) (l : Nat) : Canon (s.freshLine l) := h.setT0 _ id

theorem Canon.hurtTensor {s : State} (h : Canon s) (i d st : Nat) : Canon (s.hurtTensor i d st) := by
  unfold State.hurtTensor
  exact h.report _

theorem Canon.badIndex {s : State} (h : Canon s) (i a : Nat) : Canon (s.badIndex i a) := by
  unfold State.badIndex
  exact h.report _

theorem Canon.moveMarks {s : State} (h : Canon s) (i src n dst m num den : Nat) : Canon (s.moveMarks i src n dst m num den) := by
  unfold State.moveMarks
  exact Canon.ite h (h.modRun _ _)

theorem execCommandComplete_canon {s : State} (h : Canon s) (core : Fin 192) (job : Fin 8) (e : Engine) :
    CanonOutcome (execCommandComplete core job e s) := by
  unfold execCommandComplete
  extract_lets
  split
  · exact h.next
  split
  · exact h.next
  · exact .next (h.modCore _ _)

theorem Canon.writeReplies {s : State} (h : Canon s) (i : Nat) (rs : List ReplySlot) : Canon (s.writeReplies i rs).2 := by
  induction rs generalizing s with
  | nil => exact h
  | cons r rs ih =>
    unfold State.writeReplies
    split
    · split
      · exact ih (h.coreWrite _ _ _)
      · exact ih h
    · exact ih h

theorem execJobSwitch_canon {s : State} (h : Canon s) (core : Fin 192) (job : Fin 8) : CanonOutcome (execJobSwitch core job s) := by
  unfold execJobSwitch
  extract_lets c j n u
  split
  · exact h.next
  split
  · exact h.next
  extract_lets w
  have hu : Canon u := by
    unfold u
    split
    · exact h
    split
    · exact h
    · exact h.modCore _ _
  exact .next ((hu.writeReplies _ _).modCore _ _)

theorem execSignal_canon {s : State} (h : Canon s) (core : Fin 192) (job : Fin 8) : CanonOutcome (execSignal core job s) := by
  unfold execSignal
  exact h.command fun h => Canon.ite (h.modCore _ _) h

theorem Canon.portCount {s : State} (h : Canon s) (p k : Nat) : Canon (s.portCount p k) := by
  unfold State.portCount
  exact h.modPort _ _

theorem Canon.claimReply {s : State} (h : Canon s) (core job target eseq dst n : Nat) :
    Canon (s.claimReply core job target eseq dst n) := by
  unfold State.claimReply
  exact h.modCore _ _

theorem Canon.readVals {s : State} (h : Canon s) (i : Nat) (fmt a n : Nat) : Canon (s.readVals i fmt a n).2 := by
  unfold State.readVals
  exact h.coreRead _ _ _

theorem Canon.spillImage {s : State} (h : Canon s) (i id : Nat) (f : Folio) (l : LayerCfg) : Canon (s.spillImage i id f l).2 := by
  unfold State.spillImage
  extract_lets r font run u
  have hr : Canon r.2 := h.t0Read _ _
  clear_value r
  have hu : Canon u := canonKept.writeHeader (hr.modFolio _ _ _) _ _
  clear_value u
  exact hu

theorem Canon.startT2 {s : State} (h : Canon s) (i : Nat) (x : Nat × Folio) (m : Move) (l : LayerCfg) : Canon (s.startT2 i x m l) := by
  unfold State.startT2
  extract_lets c first bs go
  have hgo : ∀ n, Canon (go n s) := fun n => h.modFolio _ _ _
  split
  · exact Canon.ite (Canon.foldl (fun _ _ h => h.emit _) (hgo 0) _) (hgo 0)
  · exact Canon.foldl (fun _ _ h => canonKept.sendOn h _ _ _) (hgo _) _
  · exact h

theorem Canon.startCarried {s : State} (h : Canon s) (i : Nat) : Canon (s.startCarried i) := by
  unfold State.startCarried
  refine Canon.foldl (fun _ _ h => ?_) h _
  split
  · exact Canon.ite (h.startT2 _ _ _ _) h
  · exact h

theorem Canon.runMove {s : State} (h : Canon s) (i : Nat) (x : Nat × Folio) (m : Move) : Canon (s.runMove i x m) := by
  unfold State.runMove
  split
  · exact h
  next l _ =>
  extract_lets r m1 u m2 v t
  have hr : Canon r.2 := by
    unfold r
    split
    · exact h.spillImage _ _ _ _
    · exact canonKept.t1Read h _ _ _
  have hu : Canon u := hr.modFolio _ _ _
  have hv : Canon v := h.modFolio _ _ _
  split
  · exact Canon.ite (Canon.ite hu (hu.startT2 _ _ _ _)) ((canonKept.t1Write hr _ _ _).modFolio _ _ _)
  · exact Canon.ite (Canon.ite hv (hv.startT2 _ _ _ _)) (canonKept.landImage (canonKept.t1Read h _ _ _) _ _ _ _)

theorem Canon.runWindow {s : State} (h : Canon s) (i n : Nat) (xs : List ((Nat × Folio) × Move × Nat)) : Canon (s.runWindow i n xs) := by
  induction xs generalizing s n with
  | nil => exact h
  | cons x xs ih =>
    unfold State.runWindow
    exact Canon.ite (ih (h.runMove _ _ _) _) h

theorem Canon.quoinMoves {s : State} (h : Canon s) (i : Nat) : Canon (s.quoinMoves i) := by
  unfold State.quoinMoves
  exact canonKept.syncPages ((canonKept.reissue (canonKept.settleMoves (canonKept.landLent h _) _) _).startCarried _) _

theorem execMorgueTransferDone_canon {s : State} (h : Canon s) (i : Fin 16) (folio : Nat) (bytes : List Byte) :
    CanonOutcome (execMorgueTransferDone i folio bytes s) := by
  unfold execMorgueTransferDone
  split
  · exact .next h
  · split
    · split
      · exact .next h
      · split
        · exact .next (h.modFolio _ _ _)
        · exact .next (canonKept.landImage h _ _ _ _)
    · exact .next h

theorem execMorgueTransferFailed_canon {s : State} (h : Canon s) (i : Fin 16) (folio : Nat) :
    CanonOutcome (execMorgueTransferFailed i folio s) := by
  unfold execMorgueTransferFailed
  split
  · exact .next h
  · split
    · exact .next h
    · split
      · exact .next h
      · exact .next (canonKept.failMove h _ _)

theorem Canon.icuWrite {s : State} (h : Canon s) {f : State → State} (hf : Canon s → Canon (f s)) : Canon (s.icuWrite f) := by
  unfold State.icuWrite
  exact Canon.ite h (Canon.ite (h.setIcu _) (hf h))

theorem Canon.muteVectors {s : State} (h : Canon s) (p : Nat → Bool) : Canon (s.muteVectors p) := by
  unfold State.muteVectors
  exact h.setIcu _

theorem execIcuEnSet_canon {s : State} (h : Canon s) (n : Fin 16) (v : BitVec 64) : CanonOutcome (execIcuEnSet n v s) := by
  unfold execIcuEnSet
  exact .next (h.icuWrite fun h => h.icuChange _)

theorem execIcuEnClr_canon {s : State} (h : Canon s) (n : Fin 16) (v : BitVec 64) : CanonOutcome (execIcuEnClr n v s) := by
  unfold execIcuEnClr
  exact .next (h.icuWrite fun h => h.icuChange _)

theorem execIcuPendSet_canon {s : State} (h : Canon s) (n : Fin 16) (v : BitVec 64) : CanonOutcome (execIcuPendSet n v s) := by
  unfold execIcuPendSet
  exact .next (h.icuWrite fun h => h.icuChange _)

theorem execIcuPendClr_canon {s : State} (h : Canon s) (n : Fin 16) (v : BitVec 64) : CanonOutcome (execIcuPendClr n v s) := by
  unfold execIcuPendClr
  exact .next (h.icuWrite fun h => h.icuChange _)

theorem execIcuRouteWrite_canon {s : State} (h : Canon s) (source : Fin 1024) (v : BitVec 32) :
    CanonOutcome (execIcuRouteWrite source v s) := by
  unfold execIcuRouteWrite
  exact .next (h.icuWrite fun h => Canon.ite h (h.setIcu _).updateLines)

theorem execIcuInputEvent_canon {s : State} (h : Canon s) (source : Fin 1024) : CanonOutcome (execIcuInputEvent source s) := by
  unfold execIcuInputEvent
  extract_lets
  exact .next (Canon.ite (h.pulse _) h.sample)

theorem Canon.alarm {s : State} (h : Canon s) (r : Report) : Canon (s.alarm r) := by
  unfold State.alarm
  split
  · split
    · exact h.pulse _
    · exact h
  · exact h.pulse _
  · exact h

theorem Canon.stop {s : State} (h : Canon s) (cause ccore : Nat) : Canon (s.stop cause ccore) := by
  unfold State.stop
  split
  · exact h
  · refine Canon.sample ?_
    exact h.same rfl rfl rfl rfl rfl rfl

theorem execColophonFault_canon {s : State} (h : Canon s) : CanonOutcome (execColophonFault s) := by
  unfold execColophonFault
  exact .next (h.stop _ _)

theorem execCompositorMemoryError_canon {s : State} (h : Canon s) (inReserve : Bool) (ccore : Fin 8) :
    CanonOutcome (execCompositorMemoryError inReserve ccore s) := by
  unfold execCompositorMemoryError
  exact .next (h.stop _ _)

theorem execCompositorWatchdog_canon {s : State} (h : Canon s) (ccore : Fin 8) : CanonOutcome (execCompositorWatchdog ccore s) := by
  unfold execCompositorWatchdog
  exact .next (h.stop _ _)

theorem tick_canon {s : State} (h : Canon s) : Canon (tick s) := by
  unfold tick
  split
  · refine Canon.sample ?_
    exact h.same rfl rfl rfl rfl rfl rfl
  · exact h

theorem Canon.resolve {s : State} (h : Canon s) (r : Report) : Canon (s.resolve r) := by
  unfold State.resolve
  exact Canon.ite (h.stop _ _) (Canon.ite h (Canon.ite (Canon.ite h ((h.modRun _ _).count _ _ _)) (Canon.foldl
      (fun _ _ h => canonKept.addDamage h _ _) h _)))

theorem execDamageReport_canon {s : State} (h : Canon s) : CanonOutcome (execDamageReport s) := by
  unfold execDamageReport
  split
  · exact .next h
  · split
    · exact .next h
    · exact .next (((h.setReports _).alarm _).resolve _)

theorem Canon.resolveAll {s : State} (h : Canon s) (i : Nat) : Canon (s.resolveAll i) := by
  unfold State.resolveAll
  exact Canon.foldl (fun _ _ h => (h.alarm _).resolve _) (h.setReports _) _

theorem execT0Scrub_canon {s : State} (h : Canon s) (core : Fin 192) : CanonOutcome (execT0Scrub core s) := by
  unfold execT0Scrub
  split
  · exact h.next
  extract_lets c n l bad u v src w last x
  have hv : Canon v := (h.touchLine l).freshLine l
  have hw : Canon w := Canon.ite (hv.setT0 _ fun hb => spWf_memWrite _ _ _ hb) hv
  exact .next (hw.setT0 _ id)

theorem execT1ScrubSlot_canon {s : State} (h : Canon s) (ch : Fin 384) : CanonOutcome (execT1ScrubSlot ch s) := by
  unfold execT1ScrubSlot
  extract_lets k c
  split
  · exact h.next
  split
  · exact .next (canonKept.modCh h _ _ (spWf_memWrite _ _ _))
  · refine .next (canonKept.modCh (canonKept.touchSeg h _ _) _ _ fun hd => ?_)
    change spWf 0#8 (if _ then _ else _) = true
    split
    · exact spWf_memWrite _ _ _ hd
    · exact hd

theorem execRefreshWindow_canon {s : State} (h : Canon s) (ch : Fin 384) : CanonOutcome (execRefreshWindow ch s) := by
  unfold execRefreshWindow
  split
  · exact h.next
  · exact .next (canonKept.modCh h _ _ id)

theorem execRefreshIntervalExpiry_canon {s : State} (h : Canon s) (ch : Fin 384) : CanonOutcome (execRefreshIntervalExpiry ch s) := by
  unfold execRefreshIntervalExpiry
  split
  · exact h.next
  split
  · exact .next (Canon.foldl (fun _ _ h => Canon.ite (h.modServe _ _) h) (canonKept.modCh h _ _ id) _)
  · exact .next (canonKept.modCh h _ _ id)

theorem Canon.heldEvent {s : State} (h : Canon s) (i code : Nat) : Canon (s.heldEvent i code) := by
  unfold State.heldEvent
  exact (h.event _ _).pfEvent _

theorem execPeerTimeout_canon {s : State} (h : Canon s) (i : Fin 16) (endpoint : Nat) : CanonOutcome (execPeerTimeout i endpoint s) := by
  unfold execPeerTimeout
  extract_lets
  split
  · exact .next h
  · split
    · exact .next (canonKept.settle (canonKept.agree h _ _ _))
    · split
      · exact .next (canonKept.settle (canonKept.abandon h _ _ _ _))
      · exact .next h

theorem execRecoverRoster_canon {s : State} (h : Canon s) (i : Fin 16) (source dest : Nat) (epoch : BitVec 32) (members : BitVec 256)
    (last : Nat) :
    CanonOutcome (execRecoverRoster i source dest epoch members last s) := by
  unfold execRecoverRoster
  extract_lets
  split
  · exact .next h
  · split
    · exact .next (h.count _ _ _)
    · split
      · exact .next (h.count _ _ _)
      · split
        · exact .next (canonKept.settle (canonKept.agree (h.modServe _ _) _ _ _))
        · split
          · exact .next h
          · exact .next (canonKept.settle (canonKept.abandon h _ _ _ _))

theorem Canon.noteFault {s : State} (h : Canon s) (core i cause : Nat) : Canon (s.noteFault core i cause) := by
  unfold State.noteFault
  split
  · exact h
  · exact Canon.ite (h.same rfl rfl rfl rfl rfl rfl) (h.setFaults _)

theorem execCoreCheckFault_canon {s : State} (h : Canon s) (core : Fin 192) : CanonOutcome (execCoreCheckFault core s) := by
  unfold execCoreCheckFault
  split
  · exact h.next
  split
  · exact h.next
  extract_lets u
  have hu : Canon u := by
    unfold u
    split
    · exact h.pulse _
    · exact h
  exact .next (canonKept.settle (canonKept.abandon (hu.noteFault _ _ _) _ _ _ _))

theorem execCoreTimeout_canon {s : State} (h : Canon s) (core : Fin 192) : CanonOutcome (execCoreTimeout core s) := by
  unfold execCoreTimeout
  split
  · exact .next h
  · extract_lets
    split
    · exact .next h
    · exact .next (canonKept.settle (canonKept.abandon (h.noteFault _ _ _) _ _ _ _))

theorem Canon.copySlice {s : State} (h : Canon s) (core : Nat) : Canon (s.copySlice core) := by
  unfold State.copySlice
  exact Canon.foldl (fun _ _ h => ((h.badLine _).freshLine _).setT0 _ (spWf_memWrite _ _ _)) h _

theorem execCoreLost_canon {s : State} (h : Canon s) (core : Fin 192) : CanonOutcome (execCoreLost core s) := by
  unfold execCoreLost
  extract_lets
  split
  · split
    · exact .next h
    · split
      · exact .next ((canonTurn.extend (Canon.foldl (fun _ _ h => h.modServe _ _)
            ((((h.setLost _).copySlice _).modCore _ _).putEd _) _) _ _).event _ _)
      · exact .next (canonTurn.enterHeld ((((h.setLost _).putEd _).event _ _).heldEvent _ _) _ _)
  · exact .next h

end Sys2Proof.Machine
end


section
/-!
Chase, links, tickets and the host interface keep the canonical form.
-/
namespace Sys2Proof.Machine

open Sys2Proof

theorem Canon.chaseRead {s : State} (h : Canon s) (i a n dst : Nat) : Canon (s.chaseRead i a n dst).2.2 := by
  unfold State.chaseRead
  extract_lets
  split
  · exact (h.coreRead _ _ _).moveMarks _ _ _ _ _ _ _
  · exact ((h.coreRead _ _ _).moveMarks _ _ _ _ _ _ _).modRun _ _

theorem Canon.chasePut {s : State} (h : Canon s) (i a : Nat) (bs : List Byte) : Canon (s.chasePut i a bs) := by
  unfold State.chasePut
  split
  · exact Canon.ite ((canonKept.bayStore h _ _ _ _).coreWrite _ _ _) (canonKept.bayStore h _ _ _ _)
  · exact h.coreWrite _ _ _

theorem Canon.indexList {s : State} (h : Canon s) (core i : Nat) (b : ChaseBody) : Canon (s.indexList core i b).2 := by
  unfold State.indexList
  exact h.coreRead _ _ _

theorem Canon.coldSlugs {s : State} (h : Canon s) (i a n : Nat) : Canon (s.coldSlugs i a n) := by
  unfold State.coldSlugs
  split
  · exact h
  · exact Canon.foldl (fun _ _ h => Canon.ite h (Canon.foldl (fun _ _ h => h.hurtTensor _ _ _) (canonKept.countSlugs h _ _) _)) h _

theorem Canon.sendAwaited {s : State} (h : Canon s) (i core job target n : Nat) (o : Outst) :
    Canon (s.sendAwaited i core job target n o) := by
  unfold State.sendAwaited
  exact canonKept.sendOn (h.claimReply _ _ _ _ _ _) _ _ _

theorem execFabStore_canon {s : State} (h : Canon s) (core : Fin 192) (job : Fin 8) : CanonOutcome (execFabStore core job s) := by
  unfold execFabStore
  exact h.command fun h => (canonKept.settle (Canon.foldl (fun _ _ h => canonKept.sendOn h _ _ _) (h.coreRead _ _ _) _))

theorem execFabLoad_canon {s : State} (h : Canon s) (core : Fin 192) (job : Fin 8) : CanonOutcome (execFabLoad core job s) := by
  unfold execFabLoad
  exact h.command fun h => canonKept.settle (Canon.foldl (fun _ _ h => h.sendAwaited _ _ _ _ _ _) h _)

theorem execFabAtomic_canon {s : State} (h : Canon s) (core : Fin 192) (job : Fin 8) : CanonOutcome (execFabAtomic core job s) := by
  unfold execFabAtomic
  exact h.command fun h => canonKept.settle (h.sendAwaited _ _ _ _ _ _)

theorem execFabFlag_canon {s : State} (h : Canon s) (core : Fin 192) (job : Fin 8) : CanonOutcome (execFabFlag core job s) := by
  unfold execFabFlag
  exact h.command fun h => canonKept.settle (canonKept.sendOn h _ _ _)

theorem execWindow_canon {s : State} (h : Canon s) (core : Fin 192) (job : Fin 8) : CanonOutcome (execWindow core job s) := by
  unfold execWindow
  exact h.command fun h => canonKept.settle (h.runWindow _ _ _)

theorem Canon.portDown {s : State} (h : Canon s) (p : Nat) (st : PortState) (reason : Nat) : Canon (s.portDown p st reason) := by
  unfold State.portDown
  exact canonKept.portTo (h.modPort _ _) _ _ _

theorem Canon.portRetrain {s : State} (h : Canon s) (p : Nat) : Canon (s.portRetrain p) := by
  unfold State.portRetrain
  exact (canonKept.portTo (h.modPort _ _) _ _ _).portCount _ _

theorem Canon.tryHello {s : State} (h : Canon s) (p : Nat) : Canon (s.tryHello p) := by
  unfold State.tryHello
  exact Canon.ite (canonKept.settlePort h _) h

theorem execSignalDetect_canon {s : State} (h : Canon s) (port : Fin 20) : CanonOutcome (execSignalDetect port s) := by
  unfold execSignalDetect
  split
  · exact .next (canonKept.portTo h _ _ _)
  · exact .next h

theorem execTrainDone_canon {s : State} (h : Canon s) (port : Fin 20) : CanonOutcome (execTrainDone port s) := by
  unfold execTrainDone
  extract_lets
  split
  · exact .next h
  · split
    · exact .next (canonKept.portTo h _ _ _)
    · split
      · exact .next (h.modPort _ _)
      · exact .next h

theorem execTrainTimeout_canon {s : State} (h : Canon s) (port : Fin 20) : CanonOutcome (execTrainTimeout port s) := by
  unfold execTrainTimeout
  split
  · exact .next (h.portDown _ _ _)
  · exact .next h

theorem execLockAchieved_canon {s : State} (h : Canon s) (port : Fin 20) : CanonOutcome (execLockAchieved port s) := by
  unfold execLockAchieved
  extract_lets
  split
  · exact .next h
  · split
    · exact .next (canonKept.pump (canonKept.portTo (h.modPort _ _) _ _ _) _)
    · split
      · exact .next (canonKept.pump (h.modPort _ _) _)
      · exact .next h

theorem execLockTimeout_canon {s : State} (h : Canon s) (port : Fin 20) : CanonOutcome (execLockTimeout port s) := by
  unfold execLockTimeout
  extract_lets
  split
  · exact .next (h.portDown _ _ _)
  · exact .next h

theorem execHelloTimeout_canon {s : State} (h : Canon s) (port : Fin 20) : CanonOutcome (execHelloTimeout port s) := by
  unfold execHelloTimeout
  split
  · exact .next (h.portDown _ _ _)
  · exact .next h

theorem execRetrainTimeout_canon {s : State} (h : Canon s) (port : Fin 20) : CanonOutcome (execRetrainTimeout port s) := by
  unfold execRetrainTimeout
  split
  · exact .next (h.portDown _ _ _)
  · exact .next h

theorem execUncorrectableCodewordRun_canon {s : State} (h : Canon s) (port : Fin 20) :
    CanonOutcome (execUncorrectableCodewordRun port s) := by
  unfold execUncorrectableCodewordRun
  extract_lets
  split
  · exact .next ((h.modPort _ _).portRetrain _)
  · exact .next h

theorem execAlignmentLoss_canon {s : State} (h : Canon s) (port : Fin 20) : CanonOutcome (execAlignmentLoss port s) := by
  unfold execAlignmentLoss
  extract_lets
  split
  · exact .next h
  · split
    · exact .next (h.portRetrain _)
    · split
      · exact .next (h.portDown _ _ _)
      · exact .next h

theorem execHelloTimer_canon {s : State} (h : Canon s) (port : Fin 20) : CanonOutcome (execHelloTimer port s) := by
  unfold execHelloTimer
  extract_lets
  split
  · exact .next h
  · split
    · exact .next h
    · exact .next (canonKept.settle ((canonKept.pump (h.modPort _ _) _).tryHello _))

theorem execHelloReceive_canon {s : State} (h : Canon s) (port : Fin 20) (x : Hello) : CanonOutcome (execHelloReceive port x s) := by
  unfold execHelloReceive
  extract_lets
  split
  · exact h.next
  · exact .next (canonKept.settle (Canon.ite (canonKept.settlePort (h.modPort _ _) _) ((h.modPort _ _).tryHello _)))

theorem Canon.replay {s : State} (h : Canon s) (p : Nat) : Canon (s.replay p) := by
  unfold State.replay
  exact Canon.ite h (Canon.foldl (fun _ _ h => h.emit _) ((h.portCount _ _).modPort _ _) _)

theorem execLinkPacketReceive_canon {s : State} (h : Canon s) (port : Fin 20) (l : LinkPkt) :
    CanonOutcome (execLinkPacketReceive port l s) := by
  unfold execLinkPacketReceive
  extract_lets
  split
  · exact .next h
  · exact .next (canonKept.settle ((canonKept.pump (Canon.ite ((h.modPort _ _).replay _) (h.modPort _ _)) _).tryHello _))

theorem Canon.sendLink {s : State} (h : Canon s) (p : Nat) (nak : Bool) : Canon (s.sendLink p nak) := by
  unfold State.sendLink
  exact (h.modPort _ _).emit _

theorem execLinkPacketTimer_canon {s : State} (h : Canon s) (port : Fin 20) : CanonOutcome (execLinkPacketTimer port s) := by
  unfold execLinkPacketTimer
  extract_lets
  split
  · exact .next (h.sendLink _ _)
  · exact .next h

theorem execReplayTimeout_canon {s : State} (h : Canon s) (port : Fin 20) : CanonOutcome (execReplayTimeout port s) := by
  unfold execReplayTimeout
  split
  · exact .next (h.replay _)
  · exact .next h

theorem execReplayLimit_canon {s : State} (h : Canon s) (port : Fin 20) : CanonOutcome (execReplayLimit port s) := by
  unfold execReplayLimit
  extract_lets
  split
  · exact .next (h.portRetrain _)
  · exact .next h

theorem Canon.nak {s : State} (h : Canon s) (p : Nat) : Canon (s.nak p) := by
  unfold State.nak
  exact Canon.ite h ((h.modPort _ _).sendLink _ _)

theorem execNakSend_canon {s : State} (h : Canon s) (port : Fin 20) (lseq : Option (BitVec 12)) : CanonOutcome
    (execNakSend port lseq s) := by
  unfold execNakSend
  extract_lets
  split
  · exact h.next
  split
  · exact .next ((h.portCount _ _).nak _)
  extract_lets
  split
  · exact h.next
  · exact .next (h.nak _)

theorem Canon.takeSeq {s : State} (h : Canon s) (p : Nat) (q : Packet) : Canon (s.takeSeq p q).2 := by
  unfold State.takeSeq
  extract_lets
  split
  · exact h
  · split
    · exact h.modPort _ _
    · split
      · exact h
      · exact h.nak _

theorem execFabRequestArrival_canon {s : State} (h : Canon s) (port : Fin 20) (p : Packet) :
    CanonOutcome (execFabRequestArrival port p s) := by
  unfold execFabRequestArrival
  split
  · split
    · exact .next h
    · extract_lets
      split
      · exact .next (canonKept.settle (canonKept.arrive (h.takeSeq _ _) _ _ _))
      · exact .next (h.takeSeq _ _)
  · exact .next h

theorem execFabResponseArrival_canon {s : State} (h : Canon s) (port : Fin 20) (p : Packet) :
    CanonOutcome (execFabResponseArrival port p s) := by
  unfold execFabResponseArrival
  split
  · split
    · exact .next h
    · extract_lets
      split
      · exact .next (canonKept.settle (canonKept.answer (canonKept.free (h.takeSeq _ _) _ _ _) _ _))
      · exact .next (h.takeSeq _ _)
  · exact .next h

theorem Canon.runT1 {s : State} (h : Canon s) (o : T1Op) : Canon (s.runT1 o) := by
  unfold State.runT1
  split
  · exact h
  · exact canonKept.release (canonKept.finish (canonKept.applyReq h _ _ _) _ _ _ _ _) _ _ _

theorem Canon.queueRoom {s : State} (h : Canon s) (ch : Nat) : Canon (s.queueRoom ch) := by
  unfold State.queueRoom
  exact Canon.foldl (fun _ _ h => canonKept.free h _ _ _) (h.setFab _) _

theorem execT1FabricSlot_canon {s : State} (h : Canon s) (ch : Fin 384) : CanonOutcome (execT1FabricSlot ch s) := by
  unfold execT1FabricSlot
  dsimp only
  split
  · exact h.next
  split
  · exact h.next
  · exact .next (canonKept.settle ((Canon.foldl (fun _ _ h => h.runT1 _) (h.setFab _) _).queueRoom _))

theorem execFabRetryTimeout_canon {s : State} (h : Canon s) (i : Fin 16) (target : Nat) (eseq : BitVec 32) :
    CanonOutcome (execFabRetryTimeout i target eseq s) := by
  unfold execFabRetryTimeout
  extract_lets
  split
  · exact h.next
  split
  · exact h.next
  extract_lets
  split
  · exact .next (canonKept.settle ((canonKept.transmit (h.count _ _ _) _ _ _).setStream _))
  · exact .next (canonKept.settle (canonKept.drainStream (canonKept.loseOp (h.setStream _) _ _ _) _ _ _))

theorem execOperationLost_canon {s : State} (h : Canon s) (i : Fin 16) (target : Nat) (eseq : BitVec 32) :
    CanonOutcome (execOperationLost i target eseq s) := by
  unfold execOperationLost
  extract_lets
  split
  · exact .next h
  · split
    · exact .next h
    · exact .next (canonKept.settle (Canon.foldl (fun _ _ h => canonKept.loseOp h _ _ _) (h.setStream _) _))

theorem execGenerationHoldoffEnd_canon {s : State} (h : Canon s) (i : Fin 16) (target : Nat) :
    CanonOutcome (execGenerationHoldoffEnd i target s) := by
  unfold execGenerationHoldoffEnd
  extract_lets
  split
  · exact .next h
  · exact .next (canonKept.settle (canonKept.drainStream (h.setStream _) _ _ _))

theorem execPacketLifetimeExpiry_canon {s : State} (h : Canon s) (port : Fin 20) : CanonOutcome (execPacketLifetimeExpiry port s) := by
  unfold execPacketLifetimeExpiry
  extract_lets
  split
  · exact .next h
  · split
    · exact .next h
    · exact .next (canonKept.poolReturn (canonKept.free ((h.modPort _ _).count _ _ _) _ _ _) _)

theorem execPacketForward_canon {s : State} (h : Canon s) (port : Fin 20) (p : Packet) : CanonOutcome (execPacketForward port p s) := by
  unfold execPacketForward
  extract_lets inp isSeq t u drop
  have ht : Canon t.2 := h.takeSeq _ _
  have hu : Canon u := ht
  have hdrop : ∀ {s}, Canon s → Canon (drop s) := fun h => canonKept.free h _ _ _
  split
  · exact h.next
  split
  · exact ht.next
  split
  · exact .next (hdrop (hu.portCount _ _))
  split
  · exact .next (hdrop (hu.portCount _ _))
  split
  · split
    · exact .next (hdrop (hu.portCount _ _))
    split
    · exact .next (hdrop (hu.portCount _ _))
    · exact .next (canonKept.enqueue hu _ _ _)
  · split
    · exact .next (hdrop (hu.portCount _ _))
    · exact .next (canonKept.enqueue hu _ _ _)

theorem execPortEnable_canon {s : State} (h : Canon s) (port : Fin 20) (en : Bool) : CanonOutcome (execPortEnable port en s) := by
  unfold execPortEnable
  extract_lets
  split
  · exact .next h
  · split
    · exact .next (h.modPort _ _)
    · split
      · exact .next ((h.modPort _ _).portDown _ _ _)
      · exact .next ((h.modPort _ _).portDown _ _ _)

theorem execPortRetrain_canon {s : State} (h : Canon s) (port : Fin 20) : CanonOutcome (execPortRetrain port s) := by
  unfold execPortRetrain
  extract_lets
  split
  · exact .next (h.portRetrain _)
  · exact .next h

theorem execPortLoopback_canon {s : State} (h : Canon s) (port : Fin 20) (on : Bool) : CanonOutcome (execPortLoopback port on s) := by
  unfold execPortLoopback
  extract_lets
  split
  · exact .next h
  · split
    · exact .next (h.modPort _ _)
    · exact .next ((h.modPort _ _).portDown _ _ _)

theorem execFabLocationValid_canon {s : State} (h : Canon s) (p : RegPath) : CanonOutcome (execFabLocationValid p s) := by
  unfold execFabLocationValid
  split
  · exact .next h
  · extract_lets
    split
    · exact .next (h.setFab _)
    · exact .next (canonKept.settle (Canon.foldl (fun _ _ h => h.tryHello _) (h.setFab _) _))

theorem Canon.admitAll {s : State} (h : Canon s) (f ring n : Nat) : Canon (s.admitAll f ring n) := by
  induction n generalizing s with
  | zero => exact h
  | succ n ih =>
    unfold State.admitAll
    exact Canon.ite (ih (canonKept.admitFront h _ _)) (canonKept.admitFront h _ _)

theorem Canon.askDoorbells {s : State} (h : Canon s) (f : Nat) (ks : List Nat) : Canon (s.askDoorbells f ks) := by
  unfold State.askDoorbells
  exact h.modFn _ _

theorem execDoorbellPoll_canon {s : State} (h : Canon s) : CanonOutcome (execDoorbellPoll s) := by
  unfold execDoorbellPoll
  split
  · exact .next h
  · exact .next (Canon.foldl (fun _ _ h => Canon.ite (h.askDoorbells _ _) h) h _)

theorem execNudge_canon {s : State} (h : Canon s) (f : Fin 17) (slot : Fin 1024) : CanonOutcome (execNudge f slot s) := by
  unfold execNudge
  split
  · exact .next (h.askDoorbells _ _)
  · exact .next h

theorem Canon.faultRing {s : State} (h : Canon s) (f k cause doorbell : Nat) : Canon (s.faultRing f k cause doorbell) := by
  unfold State.faultRing
  exact canonKept.ringError (h.modRing _ _ _) _ _ _ _ _

theorem Canon.takeTickets {s : State} (h : Canon s) (f k n : Nat) (xs : List TicketRead) : Canon (s.takeTickets f k n xs) := by
  induction n generalizing s xs with
  | zero => exact h
  | succ n ih =>
    cases xs with
    | nil => exact h
    | cons x xs =>
      unfold State.takeTickets
      exact Canon.ite (h.faultRing _ _ _ _) (ih (h.modRing _ _ _) _)

theorem Canon.wordRead {s : State} (h : Canon s) (f k : Nat) (r : Ring) (word : Option (BitVec 32)) : Canon (s.wordRead f k r word) := by
  unfold State.wordRead
  split
  · exact (h.modRing _ _ _).writeBacklog _ _
  · exact canonKept.ringError h _ _ _ _ _

theorem execTicketFetch_canon {s : State} (h : Canon s) (f : Fin 17) (ring : Nat) (doorbell : Option (BitVec 32))
    (reads : List TicketRead) :
    CanonOutcome (execTicketFetch f ring doorbell reads s) := by
  unfold execTicketFetch
  extract_lets x s1
  split
  · exact h.next
  split
  · exact .next (h.wordRead _ _ _ _)
  split
  · exact h.next
  have h1 : Canon s1 := h.modFn _ _
  split
  · exact .next (h1.faultRing _ _ _ _)
  extract_lets n s2 c
  have h2 : Canon s2 := h1.takeTickets _ _ _ _
  split
  · exact .next (h1.faultRing _ _ _ _)
  split
  · split
    · exact h2.next
    · exact .next (h2.admitAll _ _ _)
  · split
    · exact h2.next
    · exact .next (h2.emit _)

theorem execRingtabApply_canon {s : State} (h : Canon s) (p : RegPath) (f : Fin 17) (entries : Fin 1024) (reads : List RingRead) :
    CanonOutcome (execRingtabApply p f entries reads s) := by
  unfold execRingtabApply
  split
  · exact .next h
  · extract_lets
    split
    · exact .next (h.modFn _ _)
    · split
      · exact .next ((h.modFn _ _).modFn _ _)
      · exact .next (Canon.ite (canonKept.takeTable ((h.modFn _ _).modFn _ _) _) ((h.modFn _ _).modFn _ _))

theorem execHifEvtLostRead_canon {s : State} (h : Canon s) (p : RegPath) (f : Fin 17) : CanonOutcome (execHifEvtLostRead p f s) := by
  unfold execHifEvtLostRead
  split
  · exact .next (h.modFn _ _)
  · exact .next h

theorem Canon.beginOpening {s : State} (h : Canon s) (i : Nat) (release : Bool) : Canon (s.beginOpening i release) := by
  unfold State.beginOpening
  exact Canon.ite h (Canon.ite (((canonKept.takeTable (h.modImp _ _) _).modFn _ _).askDoorbells _ _) ((canonKept.takeTable
      (h.modImp _ _) _).modFn _ _))

theorem Canon.ticketStep {s : State} (h : Canon s) (i ring op : Nat) : CanonOutcome (s.ticketStep i ring op) := by
  unfold State.ticketStep
  split
  · exact .next h
  · extract_lets
    split
    · exact .next h
    · exact .next (canonKept.admitOne (h.beginOpening _ _) _ _)

theorem execOpenReq_canon {s : State} (h : Canon s) (i : Fin 16) (ring : Nat) : CanonOutcome (execOpenReq i ring s) := by
  unfold execOpenReq
  exact h.ticketStep _ _ _

theorem execAppend_canon {s : State} (h : Canon s) (i : Fin 16) (ring : Nat) : CanonOutcome (execAppend i ring s) := by
  unfold execAppend
  exact h.ticketStep _ _ _

theorem execCancel_canon {s : State} (h : Canon s) (i : Fin 16) (ring : Nat) : CanonOutcome (execCancel i ring s) := by
  unfold execCancel
  exact h.ticketStep _ _ _

theorem execParams_canon {s : State} (h : Canon s) (i : Fin 16) (ring : Nat) : CanonOutcome (execParams i ring s) := by
  unfold execParams
  exact h.ticketStep _ _ _

theorem execAdapterLoad_canon {s : State} (h : Canon s) (i : Fin 16) (ring : Nat) : CanonOutcome (execAdapterLoad i ring s) := by
  unfold execAdapterLoad
  exact h.ticketStep _ _ _

theorem execAdapterRetire_canon {s : State} (h : Canon s) (i : Fin 16) (ring : Nat) : CanonOutcome (execAdapterRetire i ring s) := by
  unfold execAdapterRetire
  exact h.ticketStep _ _ _

theorem execWeightsLoad_canon {s : State} (h : Canon s) (i : Fin 16) (ring : Nat) : CanonOutcome (execWeightsLoad i ring s) := by
  unfold execWeightsLoad
  exact h.ticketStep _ _ _

theorem Canon.anyTicket {s : State} (h : Canon s) (f ring op : Nat) : CanonOutcome (s.anyTicket f ring op) := by
  unfold State.anyTicket
  split
  · exact h.ticketStep _ _ _
  · split
    · exact .next h
    · exact .next (canonKept.admitFront h _ _)

theorem execNopTicket_canon {s : State} (h : Canon s) (f : Fin 17) (ring : Nat) : CanonOutcome (execNopTicket f ring s) := by
  unfold execNopTicket
  exact h.anyTicket _ _ _

theorem execQuery_canon {s : State} (h : Canon s) (f : Fin 17) (ring : Nat) : CanonOutcome (execQuery f ring s) := by
  unfold execQuery
  exact h.anyTicket _ _ _

theorem execFence_canon {s : State} (h : Canon s) (f : Fin 17) (ring : Nat) : CanonOutcome (execFence f ring s) := by
  unfold execFence
  exact h.anyTicket _ _ _

theorem execReproStep_canon {s : State} (h : Canon s) (p : RegPath) (i : Fin 16) (on : Bool) : CanonOutcome (execReproStep p i on s) := by
  unfold execReproStep
  split
  · exact .next h
  · extract_lets
    exact .next ((Canon.ite (h.beginOpening _ _) h).modImp _ _)

theorem execReproGo_canon {s : State} (h : Canon s) (p : RegPath) (i : Fin 16) : CanonOutcome (execReproGo p i s) := by
  unfold execReproGo
  split
  · exact .next h
  · exact .next (h.modImp _ _)

/-- A function's reset leaves the table of functions in its form. -/
theorem Canon.resetFn {s : State} (h : Canon s) (k : Nat) : Canon { s with fns := spPut Fn.reset s.fns k Fn.reset } := by
  rw [canon_iff] at *
  obtain ⟨h1, h2, h3, h4, h5, h6⟩ := h
  refine ⟨h1, h2, h3, h4, ?_, h6⟩
  exact spWf_spPut _ _ k Fn.reset h5

theorem Canon.resetVf {s : State} (h : Canon s) (i : Nat) : Canon (s.resetVf i) := by
  unfold State.resetVf
  exact (h.resetFn _).modServe _ _

theorem execVfFlr_canon {s : State} (h : Canon s) (i : Fin 16) : CanonOutcome (execVfFlr i s) := by
  unfold execVfFlr
  exact .next ((h.muteVectors _).resetVf _)

theorem Canon.undrain {s : State} (h : Canon s) : Canon (s.undrain) := by
  unfold State.undrain
  exact Canon.foldl (fun _ _ h => h.modServe _ _) h _

theorem Canon.resetFns {s : State} (h : Canon s) (vfs : List Nat) : Canon (s.resetFns vfs) := by
  have hr : Canon (vfs.foldl State.resetVf (s.muteVectors fun _ => true)) := Canon.foldl (fun _ _ h => h.resetVf _) (h.setIcu _) _
  exact (hr.resetFn 0).setPower _

theorem Canon.giveUpCommit {s : State} (h : Canon s) : Canon s.giveUpCommit := by
  unfold State.giveUpCommit
  split
  · exact h
  · exact (h.setEd _).undrain.sample

theorem pfFlr_canon {s : State} (h : Canon s) : CanonOutcome (exec .pfFlr s) := by
  rw [exec_pfFlr]
  exact .next ((h.resetFns _).setEd _).giveUpCommit

theorem execPcieLinkChange_canon {s : State} (h : Canon s) (gts width : Nat) : CanonOutcome (execPcieLinkChange gts width s) := by
  unfold execPcieLinkChange
  extract_lets bad t
  have ht : Canon t := Canon.ite (Canon.foldl (fun _ _ h => Canon.ite h (h.modFn _ _)) h _) h
  refine .next (Canon.sample ?_)
  exact ht.same rfl rfl rfl rfl rfl rfl

theorem Canon.sendPending {s : State} (h : Canon s) (f v : Nat) : Canon (s.sendPending f v) := by
  unfold State.sendPending
  exact Canon.ite ((h.modFn _ _).emit _) h

theorem execMsixMaskClear_canon {s : State} (h : Canon s) (f : Fin 17) (vector : Option Nat) :
    CanonOutcome (execMsixMaskClear f vector s) := by
  unfold execMsixMaskClear
  extract_lets
  split
  · split
    · exact .next h
    · exact .next ((h.modFn _ _).sendPending _ _)
  · exact .next (Canon.foldl (fun _ _ h => h.sendPending _ _) (h.modFn _ _) _)

end Sys2Proof.Machine
end


section
/-!
Opening and commit keep the canonical form.
-/
namespace Sys2Proof.Machine

open Sys2Proof

theorem execImpressionOpening_canon {s : State} (h : Canon s) (i : Fin 16) (hostWords : List (Nat × Option (BitVec 32))) :
    CanonOutcome (execImpressionOpening i hostWords s) := by
  unfold execImpressionOpening
  extract_lets
  split
  · exact .next (canonKept.settle (canonTurn.continueOpening h _))
  · split
    · exact .next h
    · split
      · exact .next (h.beginOpening _ _)
      · exact .next (canonKept.settle (canonTurn.continueOpening (canonKept.settle (canonTurn.planOpening (Canon.foldl
            (fun _ _ h => canonKept.readHostWord h _ _)
            (h.beginOpening _ _) _) _)) _))

theorem execStarvationLimit_canon {s : State} (h : Canon s) (i : Fin 16) (handle : Nat) :
    CanonOutcome (execStarvationLimit i handle s) := by
  unfold execStarvationLimit
  split
  · split
    · exact .next (canonKept.modReq h _ _ _)
    · exact .next h
  · exact .next h

theorem execMorgueLate_canon {s : State} (h : Canon s) (i : Fin 16) (handle : Nat) : CanonOutcome (execMorgueLate i handle s) := by
  unfold execMorgueLate
  split
  · split
    · exact .next (canonKept.addDamage h _ _)
    · exact .next h
  · exact .next h

theorem Canon.resumeCore {s : State} (h : Canon s) (i job core : Nat) : Canon (s.resumeCore i job core) := by
  unfold State.resumeCore
  exact Canon.ite (((h.modCore _ _).writeReplies _ _).modCore _ _) (h.modCore _ _)

theorem Canon.countLag {s : State} (h : Canon s) (i waitUs : Nat) (last : Option Nat) : Canon (s.countLag i waitUs last) := by
  unfold State.countLag
  split
  · exact Canon.ite (h.modServe _ _) h
  · exact h

theorem Canon.noteLimiter {s : State} (h : Canon s) : Canon (s.noteLimiter) := by
  unfold State.noteLimiter
  exact Canon.ite h (Canon.foldl (fun _ _ h => Canon.ite (h.modServe _ _) h) h _)

theorem execQuoinRelease_canon {s : State} (h : Canon s) (i : Fin 16) (job : Fin 8) (waitUs : Nat) (last : Option Nat) :
    CanonOutcome (execQuoinRelease i job waitUs last s) := by
  unfold execQuoinRelease
  extract_lets
  split
  · exact .next h
  · split
    · exact .next h
    · exact .next (canonKept.settle ((Canon.ite ((Canon.ite ((Canon.ite ((Canon.foldl
          (fun _ _ h => h.resumeCore _ _ _) h _).countLag _ _ _) (Canon.ite (((Canon.foldl
          (fun _ _ h => h.resumeCore _ _ _) h _).countLag _ _ _).startCarried _) (((Canon.foldl
          (fun _ _ h => h.resumeCore _ _ _) h _).countLag _ _ _).quoinMoves _))).modRun _ _) (Canon.ite ((Canon.foldl
          (fun _ _ h => h.resumeCore _ _ _) h _).countLag _ _ _) (Canon.ite (((Canon.foldl
          (fun _ _ h => h.resumeCore _ _ _) h _).countLag _ _ _).startCarried _) (((Canon.foldl
          (fun _ _ h => h.resumeCore _ _ _) h _).countLag _ _ _).quoinMoves _)))).modServe _ _) (Canon.ite ((Canon.ite ((Canon.foldl
          (fun _ _ h => h.resumeCore _ _ _) h _).countLag _ _ _) (Canon.ite (((Canon.foldl
          (fun _ _ h => h.resumeCore _ _ _) h _).countLag _ _ _).startCarried _) (((Canon.foldl
          (fun _ _ h => h.resumeCore _ _ _) h _).countLag _ _ _).quoinMoves _))).modRun _ _) (Canon.ite ((Canon.foldl
          (fun _ _ h => h.resumeCore _ _ _) h _).countLag _ _ _) (Canon.ite (((Canon.foldl
          (fun _ _ h => h.resumeCore _ _ _) h _).countLag _ _ _).startCarried _) (((Canon.foldl
          (fun _ _ h => h.resumeCore _ _ _) h _).countLag _ _ _).quoinMoves _))))).noteLimiter))

theorem execLaggard_canon {s : State} (h : Canon s) (i : Fin 16) (endpoint : Nat) : CanonOutcome (execLaggard i endpoint s) := by
  unfold execLaggard
  extract_lets
  split
  · exact .next h
  · split
    · exact .next h
    · exact .next ((h.modServe _ _).event _ _)

theorem execLagWindowRestart_canon {s : State} (h : Canon s) (i : Fin 16) : CanonOutcome (execLagWindowRestart i s) := by
  unfold execLagWindowRestart
  extract_lets
  split
  · exact .next h
  · exact .next (h.modServe _ _)

theorem Canon.continueCommit {s : State} (h : Canon s) (i : Nat) (ts : List ImpTiming) : Canon (s.continueCommit i ts) := by
  unfold State.continueCommit
  exact Canon.ite (canonTurn.commitNow canonKept.anyRun h _ _) h

theorem execImpressionCommit_canon {s : State} (h : Canon s) (i : Fin 16) (t : List ImpTiming) :
    CanonOutcome (execImpressionCommit i t s) := by
  unfold execImpressionCommit
  extract_lets
  split
  · exact .next h
  · split
    · exact .next (canonKept.settle ((h.resolveAll _).continueCommit _ _))
    · split
      · exact .next h
      · split
        · exact .next h
        · split
          · exact .next ((canonKept.commitStep h _).resolveAll _)
          · split
            · exact .next (canonKept.settle ((canonKept.settle
                  ((((canonKept.commitStep h _).resolveAll _).sendRosters _ _ _ _).modServe _ _)).continueCommit _ _))
            · exact .next (canonKept.settle (canonTurn.commitNow canonKept.anyRun ((canonKept.commitStep h _).resolveAll _) _ _))

end Sys2Proof.Machine
end


section
/-!
Editions, power, boot and registers keep the canonical form.
-/
namespace Sys2Proof.Machine

open Sys2Proof

theorem Canon.pfRest {s : State} (h : Canon s) (ring : Nat) : Canon (s.pfRest ring) := by
  unfold State.pfRest
  exact h.admitAll _ _ _

theorem Canon.edEnd {s : State} (h : Canon s) (ring : Nat) (t : Ticket) (status : Nat) : Canon (s.edEnd ring t status) := by
  unfold State.edEnd
  exact (canonKept.completeTicket (canonKept.popTicket h _ _) _ _ _ _ _ _).pfRest _

theorem Canon.edFinish {s : State} (h : Canon s) (ring tag op status : Nat) : Canon (s.edFinish ring tag op status) := by
  unfold State.edFinish
  exact canonKept.pfFences (canonKept.recordNow h _ _ _)

theorem Canon.edNotice {s : State} (h : Canon s) (e : Edition) (type code edition sec item : Nat) :
    Canon (s.edNotice e type code edition sec item) := by
  unfold State.edNotice
  extract_lets
  split
  · exact Canon.ite (canonKept.editionEvent h _ _) (h.pfEvent _)
  · exact h.pfEvent _

theorem execEditionStage_canon {s : State} (h : Canon s) (ring : Nat) (image : Option Edition) :
    CanonOutcome (execEditionStage ring image s) := by
  unfold execEditionStage
  split
  · exact .next h
  · split
    · exact .next (h.edEnd _ _ _)
    · split
      · exact .next (h.edEnd _ _ _)
      · split
        · exact .next (h.edEnd _ _ _)
        · extract_lets
          exact .next (((canonKept.popTicket h _ _).setEd _).pfRest _)

theorem execEditionValidated_canon {s : State} (h : Canon s) : CanonOutcome (execEditionValidated s) := by
  unfold execEditionValidated
  split
  · exact .next h
  · split
    · exact .next h
    · split
      · exact .next h
      · extract_lets
        exact .next (((h.edNotice _ _ _ _ _ _).setEd _).edFinish _ _ _ _)

theorem execDiscoveryTimeout_canon {s : State} (h : Canon s) : CanonOutcome (execDiscoveryTimeout s) := by
  unfold execDiscoveryTimeout
  split
  · exact .next h
  · split
    · split
      · exact .next h
      · extract_lets
        exact .next (Canon.foldl (fun _ _ h => Canon.ite (h.modPort _ _) h) (h.putEd _) _)
    · exact .next h

theorem execEditionCommit_canon {s : State} (h : Canon s) (ring : Nat) : CanonOutcome (execEditionCommit ring s) := by
  unfold execEditionCommit
  split
  · exact .next h
  · split
    · exact .next (h.edEnd _ _ _)
    · split
      · exact .next (h.edEnd _ _ _)
      · split
        · split
          · exact .next (h.edEnd _ _ _)
          · split
            · exact .next ((h.edNotice _ _ _ _ _ _).edEnd _ _ _)
            · extract_lets
              exact .next (((canonKept.popTicket h _ _).setEd _).pfRest _)
        · exact .next (((canonKept.popTicket h _ _).setEd _).pfRest _)

theorem execEditionRevert_canon {s : State} (h : Canon s) (ring : Nat) : CanonOutcome (execEditionRevert ring s) := by
  unfold execEditionRevert
  split
  · exact .next h
  · split
    · exact .next ((canonTurn.dropMinor h).edEnd _ _ _)
    · split
      · exact .next (h.edEnd _ _ _)
      · exact .next (((canonKept.popTicket h _ _).setEd _).pfRest _)

theorem Canon.setDrain {s : State} (h : Canon s) (m : Major) (i : Nat) : Canon (s.setDrain m i) := by
  unfold State.setDrain
  exact Canon.ite h (h.modServe _ _)

theorem execEditionRecheckDone_canon {s : State} (h : Canon s) (image : Option Edition) (minors : List Edition) :
    CanonOutcome (execEditionRecheckDone image minors s) := by
  unfold execEditionRecheckDone
  split
  · split
    · exact .next h
    · split
      · exact .next h
      · extract_lets
        split
        · exact .next (((h.edNotice _ _ _ _ _ _).setEd _).edFinish _ _ _ _)
        · split
          · exact .next h
          · exact .next ((Canon.foldl (fun _ _ h => h.setDrain _ _) (h.setEd _) _).sample)
  · exact .next h

theorem Canon.newMap {s : State} (h : Canon s) (m : Major) : Canon (s.newMap m) := by
  unfold State.newMap
  extract_lets gone s1 v src1 src2 s2 s3
  have h1 : Canon s1 := Canon.foldl (fun _ _ h => (h.copySlice _).modCore _ _) h _
  have h2 : Canon s2 := h1.same rfl rfl rfl rfl rfl rfl
  have h3 : Canon s3 := h2.emit _
  exact Canon.ite h3 (Canon.foldl (fun _ _ h => h.modServe _ _) h3 _)

theorem spWf_filter {α : Type} [DecidableEq α] {d : α} {m : Sp α} (p : Nat × α → Bool) (h : spWf d m = true) :
    spWf d (m.filter p) = true := by
  rw [spWf_iff] at *
  exact ⟨h.1.filter _, fun x hx => h.2 x (List.mem_filter.1 hx).1⟩

theorem Canon.zeroFor {s : State} (h : Canon s) (created : List ImprintCfg) : Canon (s.zeroFor created) := by
  unfold State.zeroFor
  extract_lets cs src s1
  have h1 : Canon s1 := by
    rw [canon_iff] at *
    obtain ⟨h1, h2, h3, h4⟩ := h
    exact ⟨spWf_filter _ h1, h2, spWf_filter _ h3, h4⟩
  exact Canon.foldl (fun _ _ h => canonKept.modCh h _ _ fun _ => rfl) h1 _

theorem Canon.newImprints {s : State} (h : Canon s) (m : Major) (carried : List Nat) : Canon (s.newImprints m carried) := by
  unfold State.newImprints
  refine Canon.foldl (fun _ _ h => ?_) h _
  split
  · exact Canon.ite (h.modImp _ _) ((h.setBoot _).modImp _ _)
  · exact (h.setBoot _).modImp _ _

theorem Canon.loadStores {s : State} (h : Canon s) (m : Major) : Canon (s.loadStores m) := by
  unfold State.loadStores
  refine Canon.foldl (fun _ _ h => ?_) h _
  split
  · exact h.modCore _ _
  · exact h.modCore _ _

theorem Canon.newRoutes {s : State} (h : Canon s) (m : Major) : Canon (s.newRoutes m) := by
  unfold State.newRoutes
  exact Canon.foldl (fun _ _ h => canonKept.fixPorts h _) (Canon.foldl (fun _ _ h => Canon.ite (canonKept.pump (h.modPort _ _) _) h)
      (Canon.foldl (fun _ _ h => h.modImp _ _) (Canon.foldl (fun _ _ h => Canon.ite (canonKept.settlePort h _) (Canon.ite
      (h.modPort _ _) h)) h _) _) _) _

theorem Canon.newGenerations {s : State} (h : Canon s) : Canon (s.newGenerations) := by
  unfold State.newGenerations
  exact h.setFab _

theorem Canon.putMinor {s : State} (h : Canon s) (e : Edition) : Canon (s.putMinor e) := by
  unfold State.putMinor
  split
  · exact h
  · exact canonTurn.extend (h.modServe _ _) _ _

theorem Canon.pass {s : State} (h : Canon s) (ring tag : Nat) (rev : Bool) (e : Edition) (minors : List Edition) (m : Major) :
    Canon (s.pass ring tag rev e minors m) := by
  unfold State.pass
  exact (Canon.foldl (fun _ _ h => Canon.foldl (fun _ _ h => h.admitAll _ _ _) (canonKept.takeTable h _) _) (Canon.foldl
      (fun _ _ h => h.putMinor _) (canonTurn.extend (canonTurn.extend (Canon.ite
      ((((((((((canonTurn.dropMinor h).setEd _).setReports _).newMap _).newImprints _ _).zeroFor _).loadStores _).newRoutes
      _).newGenerations).setPower _)
      (((((((((((canonTurn.dropMinor h).setEd _).setReports _).newMap _).newImprints _ _).zeroFor _).loadStores _).newRoutes
      _).newGenerations).setPower _).flushPower)) _ _) _ _) _) _).sample

theorem execPointOfNoReturn_canon {s : State} (h : Canon s) : CanonOutcome (execPointOfNoReturn s) := by
  unfold execPointOfNoReturn
  split
  · split
    · split
      · exact .next h
      · exact .next (canonKept.settle (h.pass _ _ _ _ _ _))
    · exact .next h
  · exact .next h

theorem execEditionCommitDone_canon {s : State} (h : Canon s) (micros : Nat) : CanonOutcome (execEditionCommitDone micros s) := by
  unfold execEditionCommitDone
  split
  · split
    · exact .next h
    · extract_lets
      exact .next (((h.pfEvent _).setEd _).edFinish _ _ _ _)
  · exact .next h

theorem Canon.powerNotice {s : State} (h : Canon s) (type : Nat) : Canon (s.powerNotice type) := by
  unfold State.powerNotice
  exact h.powerEvent _

theorem Canon.stateNotice {s : State} (h : Canon s) : Canon (s.stateNotice) := by
  unfold State.stateNotice
  exact h.powerEvent _

theorem Canon.fastCap {s : State} (h : Canon s) : Canon (s.fastCap) := by
  unfold State.fastCap
  exact Canon.ite (h.modPower _) h

theorem execPwrCapWrite_canon {s : State} (h : Canon s) (p : RegPath) (target : BitVec 12) :
    CanonOutcome (execPwrCapWrite p target s) := by
  unfold execPwrCapWrite
  split
  · exact .next h
  · exact .next (h.modPower _)

theorem execPwrCapFast_canon {s : State} (h : Canon s) (p : RegPath) (target : BitVec 12) : CanonOutcome (execPwrCapFast p target s) := by
  unfold execPwrCapFast
  split
  · exact .next h
  · exact .next ((h.modPower _).fastCap)

theorem execCapStep_canon {s : State} (h : Canon s) : CanonOutcome (execCapStep s) := by
  unfold execCapStep
  extract_lets
  split
  · exact .next h
  · exact .next (h.modPower _)

theorem execLimiterEval_canon {s : State} (h : Canon s) (pFixed pLink pMem pCore : Nat) :
    CanonOutcome (execLimiterEval pFixed pLink pMem pCore s) := by
  unfold execLimiterEval
  split
  · exact .next h
  · extract_lets
    exact .next ((Canon.ite (((h.setPower _).noteLimiter).powerNotice _) ((h.setPower _).noteLimiter)).sample)

theorem execAvsSample_canon {s : State} (h : Canon s) (milliwatts : List Nat) : CanonOutcome (execAvsSample milliwatts s) := by
  unfold execAvsSample
  split
  · exact .next h
  · extract_lets
    exact .next (h.modPower _)

theorem Canon.addCause {s : State} (h : Canon s) (bit : Nat) : Canon (s.addCause bit) := by
  unfold State.addCause
  exact Canon.ite h ((Canon.ite (((h.modPower _).noteLimiter).powerNotice _) ((h.modPower _).noteLimiter)).sample)

theorem Canon.clearCause {s : State} (h : Canon s) (bit : Nat) : Canon (s.clearCause bit) := by
  unfold State.clearCause
  exact Canon.ite h ((Canon.ite (h.modPower _) ((h.modPower _).powerNotice _)).sample)

theorem execOverCap_canon {s : State} (h : Canon s) : CanonOutcome (execOverCap s) := by
  unfold execOverCap
  split
  · exact .next h
  · exact .next ((h.addCause _).modPower _)

theorem execOverCapClear_canon {s : State} (h : Canon s) : CanonOutcome (execOverCapClear s) := by
  unfold execOverCapClear
  split
  · exact .next h
  · exact .next (h.clearCause _)

theorem execVrAlertAssert_canon {s : State} (h : Canon s) : CanonOutcome (execVrAlertAssert s) := by
  unfold execVrAlertAssert
  extract_lets
  split
  · exact .next (h.modPower _)
  · exact .next (((h.modPower _).addCause _).sample)

theorem execVrAlertDeassert_canon {s : State} (h : Canon s) : CanonOutcome (execVrAlertDeassert s) := by
  unfold execVrAlertDeassert
  extract_lets
  split
  · exact .next (h.modPower _)
  · exact .next ((h.modPower _).sample)

theorem execVrAlertClear_canon {s : State} (h : Canon s) : CanonOutcome (execVrAlertClear s) := by
  unfold execVrAlertClear
  split
  · exact .next h
  · exact .next (h.clearCause _)

theorem execPwrbrkAssert_canon {s : State} (h : Canon s) : CanonOutcome (execPwrbrkAssert s) := by
  unfold execPwrbrkAssert
  extract_lets
  split
  · exact .next (h.modPower _)
  · exact .next (((h.modPower _).addCause _).sample)

theorem execPwrbrkDeassert_canon {s : State} (h : Canon s) : CanonOutcome (execPwrbrkDeassert s) := by
  unfold execPwrbrkDeassert
  extract_lets
  split
  · exact .next (h.modPower _)
  · exact .next ((h.modPower _).sample)

theorem execPwrbrkClear_canon {s : State} (h : Canon s) : CanonOutcome (execPwrbrkClear s) := by
  unfold execPwrbrkClear
  split
  · exact .next h
  · exact .next (h.clearCause _)

theorem Canon.setLth {s : State} (h : Canon s) (n : Nat) : Canon (s.setLth n) := by
  unfold State.setLth
  exact (Canon.ite (((h.modPower _).noteLimiter).powerNotice _) ((h.modPower _).noteLimiter)).sample

theorem Canon.heat {s : State} (h : Canon s) : Canon (s.heat) := by
  unfold State.heat
  exact Canon.ite (((h.modPower _).addCause _).sample) (Canon.ite ((((h.modPower _).clearCause _).setLth _).sample)
      ((h.modPower _).sample))

theorem execSensorRead_canon {s : State} (h : Canon s) (readings : List (Nat × Nat)) : CanonOutcome (execSensorRead readings s) := by
  unfold execSensorRead
  split
  · exact .next h
  · extract_lets
    exact .next ((h.modPower _).heat)

theorem execLthStep_canon {s : State} (h : Canon s) : CanonOutcome (execLthStep s) := by
  unfold execLthStep
  extract_lets
  split
  · exact .next h
  · split
    · exact .next (h.setLth _)
    · split
      · exact .next (h.setLth _)
      · exact .next h

theorem execThermalHold_canon {s : State} (h : Canon s) : CanonOutcome (execThermalHold s) := by
  unfold execThermalHold
  split
  · exact .next h
  · exact .next ((((h.modPower _).noteLimiter).powerNotice _).sample)

theorem execDramTempReport_canon {s : State} (h : Canon s) (dev : Fin 48) (rate : Fin 4) :
    CanonOutcome (execDramTempReport dev rate s) := by
  unfold execDramTempReport
  extract_lets
  split
  · exact .next (h.modPower _)
  · split
    · exact .next ((h.modPower _).addCause _)
    · exact .next ((h.modPower _).clearCause _)

theorem execHeartbeat_canon {s : State} (h : Canon s) (p : RegPath) (_value : BitVec 32) : CanonOutcome (execHeartbeat p _value s) := by
  unfold execHeartbeat
  split
  · exact .next h
  · exact .next ((h.modPower _).sample)

theorem execHeartbeatExpiry_canon {s : State} (h : Canon s) : CanonOutcome (execHeartbeatExpiry s) := by
  unfold execHeartbeatExpiry
  split
  · exact .next h
  · extract_lets
    exact .next (((Canon.ite ((h.modPower _).fastCap) (h.modPower _)).powerNotice _).sample)

theorem execPwrReqRest_canon {s : State} (h : Canon s) : CanonOutcome (execPwrReqRest s) := by
  unfold execPwrReqRest
  split
  · exact .next h
  · extract_lets
    split
    · exact .next (h.modPower _)
    · exact .next (((h.modPower _).modPower _).stateNotice)

theorem execPwrReqRun_canon {s : State} (h : Canon s) : CanonOutcome (execPwrReqRun s) := by
  unfold execPwrReqRun
  split
  · exact .next h
  · extract_lets
    split
    · exact .next (((h.modPower _).modPower _).stateNotice)
    · exact .next (h.modPower _)

theorem execRestEntry_canon {s : State} (h : Canon s) : CanonOutcome (execRestEntry s) := by
  unfold execRestEntry
  split
  · exact .next h
  · exact .next ((h.modPower _).stateNotice)

theorem execRestWake_canon {s : State} (h : Canon s) : CanonOutcome (execRestWake s) := by
  unfold execRestWake
  split
  · exact .next h
  · extract_lets
    exact .next (canonKept.settle (Canon.foldl (fun _ _ h => Canon.foldl (fun _ _ h => h.admitAll _ _ _) h _) (Canon.foldl
        (fun _ _ h => canonKept.pump h _) (((((h.modPower _).icuChange _).pulse _).stateNotice).sample) _) _))

theorem Canon.takeMonitors {s : State} (h : Canon s) (mark : Nat → Bool) (samples : List (Nat × Nat)) :
    Canon (s.takeMonitors mark samples) := by
  unfold State.takeMonitors
  exact h.modPower _

theorem execMonitorSample_canon {s : State} (h : Canon s) (samples : List (Nat × Nat)) : CanonOutcome (execMonitorSample samples s) := by
  unfold execMonitorSample
  split
  · exact .next h
  · exact .next (h.takeMonitors _ _)

theorem execSpareMonitorSample_canon {s : State} (h : Canon s) (samples : List (Nat × Nat)) :
    CanonOutcome (execSpareMonitorSample samples s) := by
  unfold execSpareMonitorSample
  split
  · exact .next h
  · exact .next (h.takeMonitors _ _)

theorem Canon.propose {s : State} (h : Canon s) (c : PowerCfg) (die : Nat) : Canon (s.propose c die) := by
  unfold State.propose
  extract_lets x has s1
  have h1 : Canon s1 := h.modPower _
  clear_value s1 has
  clear_value x
  rcases x with _ | ⟨p, k, v⟩
  · exact h1
  · exact Canon.ite (h1.modPower _) (((h1.modPower _).powerEvent _).pulse _)

theorem execMarginFit_canon {s : State} (h : Canon s) (fits : List (Nat × Int × Int)) : CanonOutcome (execMarginFit fits s) := by
  unfold execMarginFit
  split
  · exact .next h
  · extract_lets
    split
    · exact .next (Canon.foldl (fun _ _ h => h.modPower _) h _)
    · exact .next ((((Canon.foldl (fun _ _ h => h.modPower _) h _).propose _ _).propose _ _).sample)

theorem cleared_canon (s : State) : Canon s.cleared := reset_canon.same rfl rfl rfl rfl rfl rfl

theorem Canon.tryRelease {s : State} (h : Canon s) : Canon (s.tryRelease) := by
  unfold State.tryRelease
  exact Canon.ite h (Canon.ite ((Canon.ite ((Canon.ite (((h.setBoot _).emit _).addCause _) ((h.setBoot _).emit _)).addCause _)
      (Canon.ite (((h.setBoot _).emit _).addCause _) ((h.setBoot _).emit _))).sample) ((Canon.ite ((Canon.ite
      (((h.setBoot _).emit _).addCause _) ((h.setBoot _).emit _)).addCause _) (Canon.ite (((h.setBoot _).emit _).addCause _)
      ((h.setBoot _).emit _))).stop _ _))

theorem execPowerGoodRise_canon {s : State} (h : Canon s) (slotId : Fin 8) (entropyGood : Bool) :
    CanonOutcome (execPowerGoodRise slotId entropyGood s) := by
  unfold execPowerGoodRise
  split
  · exact .next h
  · extract_lets
    split
    · exact .next ((h.setBoot _).tryRelease)
    · exact .next ((h.setBoot _).stop _ _)

theorem execPowerGoodFall_canon (s : State) : CanonOutcome (execPowerGoodFall s) := by
  unfold execPowerGoodFall
  exact (cleared_canon _).next

theorem execPerstNAssert_canon (s : State) : CanonOutcome (execPerstNAssert s) := by
  unfold execPerstNAssert
  exact (cleared_canon _).next

theorem execRelease_canon {s : State} (h : Canon s) (coolOk vrAlertN pwrbrkN : Bool) :
    CanonOutcome (execRelease coolOk vrAlertN pwrbrkN s) := by
  unfold execRelease
  split
  · exact h.next
  extract_lets src1 src2 src3 s1
  have h1 : Canon s1 := h.same rfl rfl rfl rfl rfl rfl
  exact .next h1.tryRelease

theorem execCoolOkChange_canon {s : State} (h : Canon s) (level : Bool) : CanonOutcome (execCoolOkChange level s) := by
  unfold execCoolOkChange
  extract_lets
  split
  · exact .next ((h.setBoot _).sample)
  · exact .next (((h.setBoot _).setIcu _).tryRelease)

theorem execClockMonitorTrip_canon {s : State} (h : Canon s) (refLost : Bool) : CanonOutcome (execClockMonitorTrip refLost s) := by
  unfold execClockMonitorTrip
  split
  · exact .next h
  · extract_lets
    exact .next ((h.setBoot _).stop _ _)

theorem execPcieRefclkLoss_canon {s : State} (h : Canon s) : CanonOutcome (execPcieRefclkLoss s) := by
  unfold execPcieRefclkLoss
  exact .next ((h.setBoot _).sample)

theorem execPcieRefclkReturn_canon {s : State} (h : Canon s) : CanonOutcome (execPcieRefclkReturn s) := by
  unfold execPcieRefclkReturn
  exact .next ((h.setBoot _).sample)

theorem Canon.copyPayload {s : State} (h : Canon s) (img : List Byte) (error : Nat) : Canon (s.copyPayload img error) := by
  unfold State.copyPayload
  exact Canon.ite (h.t0Write _ _) h

theorem Canon.startImage {s : State} (h : Canon s) (img : List Byte) (source : Nat) : Canon (s.startImage img source) := by
  unfold State.startImage
  extract_lets s1
  have h1 : Canon s1 := canonTurn.extend (canonTurn.extend h _ _) _ _
  exact h1.same rfl rfl rfl rfl rfl rfl

theorem execBootImageChecked_canon {s : State} (h : Canon s) (identified : Bool) (image : List Byte) :
    CanonOutcome (execBootImageChecked identified image s) := by
  unfold execBootImageChecked
  split
  · exact .next h
  · extract_lets
    split
    · exact .next ((h.copyPayload _ _).startImage _ _)
    · exact .next ((h.copyPayload _ _).setBoot _)

theorem execFirmwareInitDone_canon {s : State} (h : Canon s) (failed : List (Fin 384)) : CanonOutcome
    (execFirmwareInitDone failed s) := by
  unfold execFirmwareInitDone
  split
  · exact h.next
  refine .next (Canon.sample ?_)
  exact (h.setT0 { s.t0 with flips := [] } id).same rfl rfl rfl rfl rfl rfl

theorem Canon.imgDone {s : State} (h : Canon s) (stage : Stage) (error : Nat) : Canon (s.imgDone stage error) := by
  unfold State.imgDone
  exact (h.setBoot _).pulse _

theorem Canon.imgGo {s : State} (h : Canon s) : Canon (s.imgGo) := by
  unfold State.imgGo
  exact Canon.ite h (Canon.ite (h.setBoot _) (Canon.ite (h.setBoot _) h))

theorem execMailboxLoad_canon {s : State} (h : Canon s) : CanonOutcome (execMailboxLoad s) := by
  unfold execMailboxLoad
  split
  · exact .next h.imgGo
  · exact .next h

theorem execMailboxImageChecked_canon {s : State} (h : Canon s) (image : HostRead) : CanonOutcome (execMailboxImageChecked image s) := by
  unfold execMailboxImageChecked
  split
  · exact .next h
  · extract_lets
    split
    · exact .next (((Canon.ite h (h.copyPayload _ _)).startImage _ _).imgDone _ _)
    · exact .next ((Canon.ite h (h.copyPayload _ _)).imgDone _ _)

theorem execFirmwareUpdate_canon {s : State} (h : Canon s) : CanonOutcome (execFirmwareUpdate s) := by
  unfold execFirmwareUpdate
  split
  · exact .next h.imgGo
  · exact .next h

theorem execFirmwareUpdateDone_canon {s : State} (h : Canon s) (image : HostRead) (readBack : List Byte) :
    CanonOutcome (execFirmwareUpdateDone image readBack s) := by
  unfold execFirmwareUpdateDone
  split
  · exact .next h
  · extract_lets
    split
    · exact .next (h.imgDone _ _)
    · split
      · exact .next ((h.emit _).imgDone _ _)
      · exact .next (((h.emit _).setBoot _).imgDone _ _)

theorem execDrbgReseed_canon {s : State} (h : Canon s) : CanonOutcome (execDrbgReseed s) := by
  unfold execDrbgReseed
  split
  · exact .next h
  · exact .next (h.setBoot _)

theorem Canon.modSpdm {s : State} (h : Canon s) (f : Spdm → Spdm) : Canon (s.modSpdm f) := by
  unfold State.modSpdm
  exact h.setSpdm _

theorem Canon.reply {s : State} (h : Canon s) (code : Nat) (bytes : List Byte) : Canon (s.reply code bytes) := by
  unfold State.reply
  exact (h.modSpdm _).emit _

theorem Canon.spdmError {s : State} (h : Canon s) (code : Nat) : Canon (s.spdmError code) := by
  unfold State.spdmError
  exact h.reply _ _

theorem Canon.answerIf {s : State} (h : Canon s) (c : Bool) {f : State → State} (hf : Canon s → Canon (f s)) :
    CanonOutcome (s.answerIf c f) := by
  unfold State.answerIf
  split
  · exact h.next
  split
  · exact (hf h).next
  · exact (h.spdmError _).next

theorem Canon.replySigned {s : State} (h : Canon s) (code : Nat) (bytes msg : List Byte) : Canon (s.replySigned code bytes msg) := by
  unfold State.replySigned
  exact (h.modSpdm _).reply _ _

theorem execGetVersion_canon {s : State} (h : Canon s) : CanonOutcome (execGetVersion s) := by
  unfold execGetVersion
  exact h.answerIf _ fun h => (h.modSpdm _).reply _ _

theorem execGetCapabilities_canon {s : State} (h : Canon s) : CanonOutcome (execGetCapabilities s) := by
  unfold execGetCapabilities
  exact h.answerIf _ fun h => (h.modSpdm _).reply _ _

theorem execNegotiateAlgorithms_canon {s : State} (h : Canon s) : CanonOutcome (execNegotiateAlgorithms s) := by
  unfold execNegotiateAlgorithms
  exact h.answerIf _ fun h => (h.modSpdm _).reply _ _

theorem execGetDigests_canon {s : State} (h : Canon s) : CanonOutcome (execGetDigests s) := by
  unfold execGetDigests
  exact h.answerIf _ fun h => h.reply _ _

theorem execGetCertificate_canon {s : State} (h : Canon s) (slot offset length : Nat) :
    CanonOutcome (execGetCertificate slot offset length s) := by
  unfold execGetCertificate
  exact h.answerIf _ fun h => Canon.ite (h.spdmError _) (h.reply _ _)

theorem execChallenge_canon {s : State} (h : Canon s) (msg : List Byte) : CanonOutcome (execChallenge msg s) := by
  unfold execChallenge
  exact h.answerIf _ fun h => h.replySigned _ _ _

theorem execGetMeasurements_canon {s : State} (h : Canon s) (msg : List Byte) (signed : Bool) (index : Nat) :
    CanonOutcome (execGetMeasurements msg signed index s) := by
  unfold execGetMeasurements
  refine h.answerIf _ fun h => ?_
  dsimp only
  split
  · exact h.spdmError _
  · exact Canon.ite (h.replySigned _ _ _) (h.reply _ _)

theorem execKeyExchange_canon {s : State} (h : Canon s) (msg : List Byte) : CanonOutcome (execKeyExchange msg s) := by
  unfold execKeyExchange
  exact h.answerIf _ fun h => ((h.setBoot _).modSpdm _).replySigned _ _ _

theorem execFinish_canon {s : State} (h : Canon s) (macGood : Bool) : CanonOutcome (execFinish macGood s) := by
  unfold execFinish
  exact h.answerIf _ fun h => Canon.ite ((h.modSpdm _).reply _ _) ((h.modSpdm _).spdmError _)

theorem execKeyUpdate_canon {s : State} (h : Canon s) (which : Nat) : CanonOutcome (execKeyUpdate which s) := by
  unfold execKeyUpdate
  exact h.answerIf _ fun h => Canon.ite ((h.modSpdm _).reply _ _) (Canon.ite (h.reply _ _) (h.spdmError _))

theorem execSpdmHeartbeat_canon {s : State} (h : Canon s) : CanonOutcome (execSpdmHeartbeat s) := by
  unfold execSpdmHeartbeat
  exact h.answerIf _ fun h => h.reply _ _

theorem execEndSession_canon {s : State} (h : Canon s) : CanonOutcome (execEndSession s) := by
  unfold execEndSession
  exact h.answerIf _ fun h => (h.modSpdm _).reply _ _

theorem execGetPqChain_canon {s : State} (h : Canon s) (offset length : Nat) : CanonOutcome (execGetPqChain offset length s) := by
  unfold execGetPqChain
  exact h.answerIf _ fun h => Canon.ite (h.spdmError _) (h.reply _ _)

theorem execGetPqSignature_canon {s : State} (h : Canon s) : CanonOutcome (execGetPqSignature s) := by
  unfold execGetPqSignature
  split
  · exact h.answerIf _ id
  · exact h.answerIf _ fun h => h.reply _ _

theorem execIdeKm_canon {s : State} (h : Canon s) (prog : Bool) (key : List Byte) : CanonOutcome (execIdeKm prog key s) := by
  unfold execIdeKm
  exact h.answerIf _ fun h => Canon.ite ((h.modSpdm _).reply _ _) ((h.modSpdm _).reply _ _)

theorem Canon.msixDword {s : State} (h : Canon s) (f off v : Nat) : Canon (s.msixDword f off v) := by
  unfold State.msixDword
  exact (h.modFn _ _).sendPending _ _

theorem Canon.msixWrite {s : State} (h : Canon s) (f off width v : Nat) : Canon (s.msixWrite f off width v) := by
  unfold State.msixWrite
  exact Canon.ite h (Canon.ite (h.msixDword _ _ _) (Canon.ite ((h.msixDword _ _ _).msixDword _ _ _) h))

theorem Canon.msixControl {s : State} (h : Canon s) (f v : Nat) : Canon (s.msixControl f v) := by
  unfold State.msixControl
  exact Canon.foldl (fun _ _ h => h.sendPending _ _) (h.modFn _ _) _

theorem Canon.reproWrite {s : State} (h : Canon s) (p : RegPath) (n v : Nat) : CanonOutcome (s.reproWrite p n v) := by
  unfold State.reproWrite
  refine (execReproStep_canon (h.modImp _ _) _ _ _).thenDo fun h => ?_
  split
  · exact execReproGo_canon h _ _
  · exact h.next

theorem Canon.locationWrite {s : State} (h : Canon s) (p : RegPath) (v : Nat) : CanonOutcome (s.locationWrite p v) := by
  unfold State.locationWrite
  extract_lets src u
  have hu : Canon u := Canon.ite h (h.setFab _)
  split
  · exact execFabLocationValid_canon hu _
  · exact hu.next

theorem Canon.portWrite {s : State} (h : Canon s) (n v : Nat) : CanonOutcome (s.portWrite n v) := by
  unfold State.portWrite
  refine (execPortEnable_canon h _ _).thenDo fun h => (execPortLoopback_canon h _ _).thenDo fun h => ?_
  split
  · exact execPortRetrain_canon h _
  · exact h.next

theorem Canon.imgWrite {s : State} (h : Canon s) (v : Nat) : Canon (s.imgWrite v) := by
  unfold State.imgWrite
  exact Canon.ite h (Canon.ite ((h.setBoot _).imgGo) (h.setBoot _))

theorem Canon.ctrlWrite {s : State} (h : Canon s) (f v : Nat) : Canon (s.ctrlWrite f v) := by
  unfold State.ctrlWrite
  exact h.modFn _ _

theorem Canon.icuStatusWrite {s : State} (h : Canon s) (v : Nat) : Canon (s.icuStatusWrite v) := by
  unfold State.icuStatusWrite
  exact h.icuWrite fun h => h.setIcu _

theorem Canon.regWrite {s : State} (h : Canon s) (p : RegPath) (r : Reg) (v : Nat) : CanonOutcome (s.regWrite p r v) := by
  unfold State.regWrite
  split
  · exact .next (h.same rfl rfl rfl rfl rfl rfl)
  · exact .next (h.same rfl rfl rfl rfl rfl rfl)
  · exact .next (h.modFn _ _)
  · exact .next (h.ctrlWrite _ _)
  · exact execIcuEnSet_canon h _ _
  · exact execIcuEnClr_canon h _ _
  · exact execIcuPendSet_canon h _ _
  · exact execIcuPendClr_canon h _ _
  · exact .next (h.icuStatusWrite _)
  · exact execIcuRouteWrite_canon h _ _
  · split
    · exact execPwrCapFast_canon h _ _
    · exact execPwrCapWrite_canon h _ _
  · exact .next (h.modPower _)
  · exact execHeartbeat_canon h _ _
  · split
    · exact execPwrReqRest_canon h
    · exact execPwrReqRun_canon h
  · exact h.locationWrite _ _
  · exact h.portWrite _ _
  · exact .next (h.setBoot _)
  · exact .next (h.imgWrite _)
  · exact h.reproWrite _ _ _
  · exact .next h

theorem Canon.busWrite {s : State} (h : Canon s) (p : RegPath) (off width v : Nat) : CanonOutcome (s.busWrite p off width v) := by
  unfold State.busWrite
  extract_lets reg
  have hreg : CanonOutcome reg := by
    unfold reg
    split
    · exact h.next
    split
    · exact h.regWrite _ _ _
    · exact h.next
  split
  · split
    · exact .next (h.msixWrite _ _ _ _)
    · exact hreg
  · split
    · exact .next (h.msixWrite _ _ _ _)
    · exact hreg
  · exact hreg
  · split
    · exact .next (h.msixControl _ _)
    · exact h.next

theorem execRegisterWrite_canon {s : State} (h : Canon s) (p : RegPath) (offset : Nat) (width : Nat) (v : BitVec 64) :
    CanonOutcome (execRegisterWrite p offset width v s) := by
  unfold execRegisterWrite
  exact h.busWrite _ _ _ _

theorem Canon.modI3c {s : State} (h : Canon s) (f : I3cTarget → I3cTarget) : Canon (s.modI3c f) := by
  unfold State.modI3c
  exact h.setI3c _

theorem execI3cPrivateWrite_canon {s : State} (h : Canon s) (bytes : List Byte) : CanonOutcome (execI3cPrivateWrite bytes s) := by
  unfold execI3cPrivateWrite
  split
  · exact .next h
  · extract_lets
    split
    · exact .next (h.modI3c _)
    · exact (h.modI3c _).busWrite _ _ _ _

theorem execEntdaa_canon {s : State} (h : Canon s) (addr : BitVec 7) : CanonOutcome (execEntdaa addr s) := by
  unfold execEntdaa
  split
  · exact .next h
  · exact .next ((h.emit _).modI3c _)

theorem execSetdasa_canon {s : State} (h : Canon s) (static : BitVec 7) (addr : BitVec 7) : CanonOutcome (execSetdasa static addr s) := by
  unfold execSetdasa
  split
  · exact .next h
  · exact .next (h.modI3c _)

theorem execRstdaa_canon {s : State} (h : Canon s) : CanonOutcome (execRstdaa s) := by
  unfold execRstdaa
  split
  · exact .next (h.modI3c _)
  · exact .next h

theorem Canon.cccAnswer {s : State} (h : Canon s) (bytes : List Byte) : CanonOutcome (s.cccAnswer bytes) := by
  unfold State.cccAnswer
  split
  · exact .next h
  · exact .next ((h.emit _).modI3c _)

theorem execGetpid_canon {s : State} (h : Canon s) : CanonOutcome (execGetpid s) := by
  unfold execGetpid
  exact h.cccAnswer _

theorem execGetbcr_canon {s : State} (h : Canon s) : CanonOutcome (execGetbcr s) := by
  unfold execGetbcr
  exact h.cccAnswer _

theorem execGetdcr_canon {s : State} (h : Canon s) : CanonOutcome (execGetdcr s) := by
  unfold execGetdcr
  exact h.cccAnswer _

theorem execGetstatus_canon {s : State} (h : Canon s) : CanonOutcome (execGetstatus s) := by
  unfold execGetstatus
  exact h.cccAnswer _

theorem execGetmwl_canon {s : State} (h : Canon s) : CanonOutcome (execGetmwl s) := by
  unfold execGetmwl
  exact h.cccAnswer _

theorem execGetmrl_canon {s : State} (h : Canon s) : CanonOutcome (execGetmrl s) := by
  unfold execGetmrl
  exact h.cccAnswer _

end Sys2Proof.Machine
end


section
/-!
O5: the canonical form is kept by every command. An engine command on the package keeps it by what its engine can do at all (`Eff`);
every other command is a chain of shared operations that keep it.
-/
namespace Sys2Proof.Machine

open Sys2Proof

/-- An engine command on the package, except SIGNAL, keeps the form: it is handed over and has its effect, or it waits. -/
theorem onPackage_canon {s : State} (h : Canon s) {c : Instr} {core job op : Nat} (hc : engineOp c = some (core, job, op))
    (hp : onPackage op = true) (hs : op ≠ 0x6B) : CanonOutcome (exec c s) := by
  intro t ht
  cases hr : s.ready core job op with
  | none =>
    obtain ⟨e, he⟩ := exec_eq_command hc s
    rw [he] at ht
    unfold State.command at ht
    rw [hr] at ht
    cases ht
    exact h
  | some x =>
    obtain ⟨u, hu, heff⟩ := engineOp_effCommand hc hp hs s x.1 x.2 hr
    rw [hu] at ht
    cases ht
    exact heff.canon (h.modCore _ _)

/-- Every command keeps the form. -/
theorem exec_canon {s : State} (h : Canon s) (c : Instr) : CanonOutcome (exec c s) := by
  cases c with
  | seqNop core job | quoin core job | fontLoad core job | platenTile core job | aLoad core job | rollerTile core job | tLoad core job
  | attend core job | merge core job | element core job | reduce core job | sample core job | fontStats core job | routeLocal core job
  | routeMerge core job | impose core job | collate core job | sort core job | topk core job | imposerGather core job
  | imposerScatter core job | scan core job | segreduce core job | fontBuild core job | chaseCopy core job | chaseGather core job
  | chaseScatter core job | bcast core job | t1Read core job | t1Write core job =>
    exact onPackage_canon h rfl rfl (by decide)
  | fabStore core job => exact execFabStore_canon h core job
  | fabLoad core job => exact execFabLoad_canon h core job
  | fabAtomic core job => exact execFabAtomic_canon h core job
  | fabFlag core job => exact execFabFlag_canon h core job
  | window core job => exact execWindow_canon h core job
  | signal core job => exact execSignal_canon h core job
  | commandComplete core job e => exact execCommandComplete_canon h core job e
  | jobSwitch core job => exact execJobSwitch_canon h core job
  | impressionOpening imp hostWords => exact execImpressionOpening_canon h imp hostWords
  | starvationLimit imp handle => exact execStarvationLimit_canon h imp handle
  | quoinRelease imp job waitUs last => exact execQuoinRelease_canon h imp job waitUs last
  | laggard imp endpoint => exact execLaggard_canon h imp endpoint
  | lagWindowRestart imp => exact execLagWindowRestart_canon h imp
  | impressionCommit imp t => exact execImpressionCommit_canon h imp t
  | doorbellPoll => exact execDoorbellPoll_canon h
  | nudge f slot => exact execNudge_canon h f slot
  | ticketFetch f ring doorbell reads => exact execTicketFetch_canon h f ring doorbell reads
  | nopTicket f ring => exact execNopTicket_canon h f ring
  | openReq imp ring => exact execOpenReq_canon h imp ring
  | append imp ring => exact execAppend_canon h imp ring
  | cancel imp ring => exact execCancel_canon h imp ring
  | params imp ring => exact execParams_canon h imp ring
  | adapterLoad imp ring => exact execAdapterLoad_canon h imp ring
  | adapterRetire imp ring => exact execAdapterRetire_canon h imp ring
  | weightsLoad imp ring => exact execWeightsLoad_canon h imp ring
  | editionStage ring image => exact execEditionStage_canon h ring image
  | editionValidated => exact execEditionValidated_canon h
  | editionCommit ring => exact execEditionCommit_canon h ring
  | editionRecheckDone image minors => exact execEditionRecheckDone_canon h image minors
  | pointOfNoReturn => exact execPointOfNoReturn_canon h
  | editionCommitDone micros => exact execEditionCommitDone_canon h micros
  | editionRevert ring => exact execEditionRevert_canon h ring
  | query f ring => exact execQuery_canon h f ring
  | fence f ring => exact execFence_canon h f ring
  | ringtabApply p f entries reads => exact execRingtabApply_canon h p f entries reads
  | hifEvtLostRead p f => exact execHifEvtLostRead_canon h p f
  | vfFlr imp => exact execVfFlr_canon h imp
  | pfFlr => exact pfFlr_canon h
  | pcieLinkChange gts width => exact execPcieLinkChange_canon h gts width
  | fabRequestArrival port p => exact execFabRequestArrival_canon h port p
  | t1FabricSlot ch => exact execT1FabricSlot_canon h ch
  | fabResponseArrival port p => exact execFabResponseArrival_canon h port p
  | fabRetryTimeout imp target eseq => exact execFabRetryTimeout_canon h imp target eseq
  | operationLost imp target eseq => exact execOperationLost_canon h imp target eseq
  | generationHoldoffEnd imp target => exact execGenerationHoldoffEnd_canon h imp target
  | packetLifetimeExpiry port => exact execPacketLifetimeExpiry_canon h port
  | packetForward port p => exact execPacketForward_canon h port p
  | linkPacketReceive port l => exact execLinkPacketReceive_canon h port l
  | linkPacketTimer port => exact execLinkPacketTimer_canon h port
  | replayTimeout port => exact execReplayTimeout_canon h port
  | replayLimit port => exact execReplayLimit_canon h port
  | helloReceive port x => exact execHelloReceive_canon h port x
  | helloTimer port => exact execHelloTimer_canon h port
  | signalDetect port => exact execSignalDetect_canon h port
  | trainDone port => exact execTrainDone_canon h port
  | trainTimeout port => exact execTrainTimeout_canon h port
  | lockAchieved port => exact execLockAchieved_canon h port
  | lockTimeout port => exact execLockTimeout_canon h port
  | helloTimeout port => exact execHelloTimeout_canon h port
  | retrainTimeout port => exact execRetrainTimeout_canon h port
  | uncorrectableCodewordRun port => exact execUncorrectableCodewordRun_canon h port
  | alignmentLoss port => exact execAlignmentLoss_canon h port
  | discoveryTimeout => exact execDiscoveryTimeout_canon h
  | portEnable port en => exact execPortEnable_canon h port en
  | portRetrain port => exact execPortRetrain_canon h port
  | portLoopback port on => exact execPortLoopback_canon h port on
  | fabLocationValid p => exact execFabLocationValid_canon h p
  | morgueTransferDone imp folio bytes => exact execMorgueTransferDone_canon h imp folio bytes
  | morgueTransferFailed imp folio => exact execMorgueTransferFailed_canon h imp folio
  | morgueLate imp handle => exact execMorgueLate_canon h imp handle
  | refreshWindow ch => exact execRefreshWindow_canon h ch
  | refreshIntervalExpiry ch => exact execRefreshIntervalExpiry_canon h ch
  | t1ScrubSlot ch => exact execT1ScrubSlot_canon h ch
  | t0Scrub core => exact execT0Scrub_canon h core
  | damageReport => exact execDamageReport_canon h
  | coreCheckFault core => exact execCoreCheckFault_canon h core
  | coreTimeout core => exact execCoreTimeout_canon h core
  | peerTimeout imp endpoint => exact execPeerTimeout_canon h imp endpoint
  | recoverRoster imp source dest epoch members last => exact execRecoverRoster_canon h imp source dest epoch members last
  | coreLost core => exact execCoreLost_canon h core
  | compositorMemoryError inReserve ccore => exact execCompositorMemoryError_canon h inReserve ccore
  | compositorWatchdog ccore => exact execCompositorWatchdog_canon h ccore
  | colophonFault => exact execColophonFault_canon h
  | pwrCapWrite p target => exact execPwrCapWrite_canon h p target
  | pwrCapFast p target => exact execPwrCapFast_canon h p target
  | capStep => exact execCapStep_canon h
  | limiterEval pFixed pLink pMem pCore => exact execLimiterEval_canon h pFixed pLink pMem pCore
  | avsSample milliwatts => exact execAvsSample_canon h milliwatts
  | overCap => exact execOverCap_canon h
  | overCapClear => exact execOverCapClear_canon h
  | vrAlertAssert => exact execVrAlertAssert_canon h
  | vrAlertDeassert => exact execVrAlertDeassert_canon h
  | vrAlertClear => exact execVrAlertClear_canon h
  | pwrbrkAssert => exact execPwrbrkAssert_canon h
  | pwrbrkDeassert => exact execPwrbrkDeassert_canon h
  | pwrbrkClear => exact execPwrbrkClear_canon h
  | sensorRead readings => exact execSensorRead_canon h readings
  | lthStep => exact execLthStep_canon h
  | thermalHold => exact execThermalHold_canon h
  | dramTempReport dev rate => exact execDramTempReport_canon h dev rate
  | heartbeat p value => exact execHeartbeat_canon h p value
  | heartbeatExpiry => exact execHeartbeatExpiry_canon h
  | pwrReqRest => exact execPwrReqRest_canon h
  | pwrReqRun => exact execPwrReqRun_canon h
  | restEntry => exact execRestEntry_canon h
  | restWake => exact execRestWake_canon h
  | monitorSample samples => exact execMonitorSample_canon h samples
  | spareMonitorSample samples => exact execSpareMonitorSample_canon h samples
  | marginFit fits => exact execMarginFit_canon h fits
  | powerGoodRise slotId entropyGood => exact execPowerGoodRise_canon h slotId entropyGood
  | powerGoodFall => exact execPowerGoodFall_canon s
  | perstNAssert => exact execPerstNAssert_canon s
  | release coolOk vrAlertN pwrbrkN => exact execRelease_canon h coolOk vrAlertN pwrbrkN
  | coolOkChange level => exact execCoolOkChange_canon h level
  | bootImageChecked identified image => exact execBootImageChecked_canon h identified image
  | firmwareInitDone failed => exact execFirmwareInitDone_canon h failed
  | mailboxLoad => exact execMailboxLoad_canon h
  | mailboxImageChecked image => exact execMailboxImageChecked_canon h image
  | firmwareUpdate => exact execFirmwareUpdate_canon h
  | firmwareUpdateDone image readBack => exact execFirmwareUpdateDone_canon h image readBack
  | clockMonitorTrip refLost => exact execClockMonitorTrip_canon h refLost
  | pcieRefclkLoss => exact execPcieRefclkLoss_canon h
  | drbgReseed => exact execDrbgReseed_canon h
  | getVersion => exact execGetVersion_canon h
  | getCapabilities => exact execGetCapabilities_canon h
  | negotiateAlgorithms => exact execNegotiateAlgorithms_canon h
  | getDigests => exact execGetDigests_canon h
  | getCertificate slot offset length => exact execGetCertificate_canon h slot offset length
  | challenge msg => exact execChallenge_canon h msg
  | getMeasurements msg signed index => exact execGetMeasurements_canon h msg signed index
  | keyExchange msg => exact execKeyExchange_canon h msg
  | finish macGood => exact execFinish_canon h macGood
  | keyUpdate which => exact execKeyUpdate_canon h which
  | spdmHeartbeat => exact execSpdmHeartbeat_canon h
  | endSession => exact execEndSession_canon h
  | getPqChain offset length => exact execGetPqChain_canon h offset length
  | getPqSignature => exact execGetPqSignature_canon h
  | i3cPrivateWrite bytes => exact execI3cPrivateWrite_canon h bytes
  | entdaa addr => exact execEntdaa_canon h addr
  | setdasa static addr => exact execSetdasa_canon h static addr
  | rstdaa => exact execRstdaa_canon h
  | getpid => exact execGetpid_canon h
  | getbcr => exact execGetbcr_canon h
  | getdcr => exact execGetdcr_canon h
  | getstatus => exact execGetstatus_canon h
  | getmwl => exact execGetmwl_canon h
  | getmrl => exact execGetmrl_canon h
  | icuInputEvent source => exact execIcuInputEvent_canon h source
  | icuEnSet n v => exact execIcuEnSet_canon h n v
  | icuEnClr n v => exact execIcuEnClr_canon h n v
  | icuPendSet n v => exact execIcuPendSet_canon h n v
  | icuPendClr n v => exact execIcuPendClr_canon h n v
  | icuRouteWrite source v => exact execIcuRouteWrite_canon h source v
  | reproStep p imp on => exact execReproStep_canon h p imp on
  | reproGo p imp => exact execReproGo_canon h p imp
  | registerWrite p offset width v => exact execRegisterWrite_canon h p offset width v
  | nakSend port lseq => exact execNakSend_canon h port lseq
  | msixMaskClear f vector => exact execMsixMaskClear_canon h f vector
  | pcieRefclkReturn => exact execPcieRefclkReturn_canon h
  | ideKm prog key => exact execIdeKm_canon h prog key

theorem step_canon {s : State} (h : Canon s) : CanonOutcome (step s) := by
  unfold step
  split
  · exact (tick_canon h).next
  · exact exec_canon (h.setPending _) _

/-- Settles O5: every shared operation keeps the form, so every command does. -/
theorem everyStepKeepsTheCanonicalForm : Obligations.EveryStepKeepsTheCanonicalForm := by
  unfold Obligations.EveryStepKeepsTheCanonicalForm
  intro s t hm ht hst
  exact step_canon ⟨hm, ht⟩ t hst

end Sys2Proof.Machine
end


section
/-!
Functions that wait for no opening: the PF, and a VF whose imprint is Held or has no edition (R460, R492). What handling their tickets can
change: rings, what is sent, and the fences that the PF keeps.
-/
namespace Sys2Proof.Machine

open Sys2Proof

/-- What handling the tickets of such a function can change; no ring is lost, and none has more tickets waiting. -/
structure AtOnce (s t : State) : Prop where
  rest : t = { s with fns := t.fns, out := t.out, ed := { s.ed with fences := t.ed.fences } }
  waiting : ∀ f k r, (s.fn f).ring k = some r → ∃ r', (t.fn f).ring k = some r' ∧ r'.waiting <:+ r.waiting

namespace AtOnce

theorem of_rings {s t : State} (h : t = { s with fns := t.fns, out := t.out, ed := { s.ed with fences := t.ed.fences } })
    (hr : ∀ f k, (t.fn f).ring k = (s.fn f).ring k) : AtOnce s t :=
  ⟨h, fun f k r e => ⟨r, (hr f k).trans e, List.suffix_rfl⟩⟩

theorem refl (s : State) : AtOnce s s := of_rings rfl fun _ _ => rfl

theorem trans {s t u : State} (h : AtOnce s t) (g : AtOnce t u) : AtOnce s u where
  rest := by
    refine g.rest.trans ?_
    rw [h.rest]
  waiting := fun f k r e => by
    obtain ⟨r', e', hw⟩ := h.waiting f k r e
    obtain ⟨r'', e'', hw'⟩ := g.waiting f k r' e'
    exact ⟨r'', e'', hw'.trans hw⟩

theorem ite {s t u : State} {p : Prop} [Decidable p] (h : AtOnce s t) (g : AtOnce s u) : AtOnce s (if p then t else u) := by
  split <;> assumption

theorem foldl {α : Type} {f : State → α → State} (hf : ∀ s x, AtOnce s (f s x)) (xs : List α) (s : State) :
    AtOnce s (xs.foldl f s) := by
  induction xs generalizing s with
  | nil => exact refl s
  | cons x xs ih => exact (hf s x).trans (ih (f s x))

theorem emit (s : State) (e : Emission) : AtOnce s (s.emit e) := of_rings rfl fun _ _ => rfl

theorem setFences (s : State) (x : List (Nat × Nat)) : AtOnce s { s with ed := { s.ed with fences := x } } := of_rings rfl fun _ _ => rfl

theorem modFn (s : State) (f : Nat) (g : Fn → Fn) (hg : ∀ x, (g x).rings = x.rings) : AtOnce s (s.modFn f g) :=
  of_rings rfl fun f' k => by
    rw [State.fn_modFn]
    split
    · next h => unfold Fn.ring; rw [hg, h]
    · rfl

theorem modRing (s : State) (f k : Nat) (g : Ring → Ring) (hg : ∀ r, (g r).waiting <:+ r.waiting) : AtOnce s (s.modRing f k g) where
  rest := rfl
  waiting := fun f' k' r e => by
    rw [ring_modRing]
    split
    · next h =>
      obtain ⟨rfl, rfl⟩ := h
      rw [e]
      exact ⟨g r, rfl, hg r⟩
    · exact ⟨r, e, List.suffix_rfl⟩

theorem raiseVector (s : State) (f v : Nat) : AtOnce s (s.raiseVector f v) := by
  unfold State.raiseVector
  exact ite (refl s) (ite (modFn s f _ fun _ => rfl) (emit s _))

theorem writeRing (s : State) (f k : Nat) (records : List (List Byte)) : AtOnce s (s.writeRing f k records) := by
  unfold State.writeRing
  split
  · exact refl s
  · extract_lets s1 p s2 s3
    have h3 : AtOnce s s3 := ((foldl (fun s _ => emit s _) _ s).trans (emit s1 _)).trans (modRing s2 f k _ fun _ => List.suffix_rfl)
    exact ite (refl s) (ite h3 (h3.trans (raiseVector s3 f _)))

theorem writeBacklog (s : State) (f k : Nat) : AtOnce s (s.writeBacklog f k) := by
  unfold State.writeBacklog
  split
  · exact refl s
  · exact (writeRing s f k _).trans (modRing _ f k _ fun _ => List.suffix_rfl)

theorem queueRecords (s : State) (f k : Nat) (rs : List (List Byte)) : AtOnce s (s.queueRecords f k rs) :=
  modRing s f k _ fun _ => List.suffix_rfl

theorem recordNow (s : State) (f ring : Nat) (record : Option (List Byte)) : AtOnce s (s.recordNow f ring record) := by
  unfold State.recordNow
  split
  · exact refl s
  · extract_lets u
    have hu : AtOnce s u := by
      unfold u
      split
      · exact (queueRecords s f _ _).trans (writeBacklog _ f _)
      · exact refl s
    exact ite hu (hu.trans (emit u _))

theorem pfFences (s : State) : AtOnce s s.pfFences := by
  unfold State.pfFences
  exact foldl (fun s x => ite (refl s) ((setFences s _).trans (recordNow _ 0 _ _))) _ s

theorem popTicket (s : State) (f ring : Nat) : AtOnce s (s.popTicket f ring) := modRing s f ring _ fun r => r.waiting.drop_suffix 1

theorem edFinish (s : State) (ring tag op status : Nat) : AtOnce s (s.edFinish ring tag op status) :=
  (recordNow s 0 ring _).trans (pfFences _)

section
variable {s t : State} (h : AtOnce s t)
include h

theorem imprints : t.imprints = s.imprints := by rw [h.rest]
theorem imp (k : Nat) : t.imp k = s.imp k := by unfold State.imp; rw [h.imprints]
theorem heldOrNone (i : Nat) : t.heldOrNone i = s.heldOrNone i := by unfold State.heldOrNone; rw [h.imp]
theorem atOnce (f : Nat) : t.atOnce f = s.atOnce f := by unfold State.atOnce; rw [h.heldOrNone]

end

theorem completeTicket (s : State) {f : Nat} (hf : s.atOnce f = true) (ring : Nat) (t : Ticket) (status r0 r1 : Nat) :
    AtOnce s (s.completeTicket f ring t status r0 r1) := by
  unfold State.completeTicket
  extract_lets
  rw [if_pos hf]
  exact recordNow s f ring _

/-- Such a function's tickets are accepted only where they move nothing of an imprint (R461, R462). -/
theorem judge_op {s : State} {f ring : Nat} {t : Ticket} (hf : s.atOnce f = true) (hj : s.judge f ring t = 0)
    (he : editionTicket t.op = false) : t.op = 0x00 ∨ t.op = 0x3E ∨ t.op = 0x30 := by
  by_contra hne
  obtain ⟨h00, h3E, h30⟩ : t.op ≠ 0x00 ∧ t.op ≠ 0x3E ∧ t.op ≠ 0x30 := by tauto
  unfold State.judge at hj
  rcases Nat.eq_zero_or_pos f with rfl | hpos
  · have ha : s.allowed 0 ring t = false := by
      unfold State.allowed
      simp [h00, h3E, h30, he]
    simp only [ha, Bool.not_false, if_true] at hj
    split_ifs at hj
  · have hh : s.heldOrNone (f - 1) = true := by
      unfold State.atOnce at hf
      simpa [hpos.ne'] using hf
    simp only [hh, he] at hj
    split_ifs at hj with _ _ _ h4
    exact h4 (by simp [hpos.ne', h00, h3E, h30])

theorem admitQuery (s : State) (f : Nat) (t : Ticket) : AtOnce s (s.admitQuery f t).2.2 := by
  unfold State.admitQuery
  exact ite (refl s) (emit s _)

theorem admitEffect (s : State) (f ring : Nat) {t : Ticket} (ht : t.op = 0x00 ∨ t.op = 0x3E ∨ t.op = 0x30) :
    AtOnce s (s.admitEffect f ring t).2.2 := by
  unfold State.admitEffect
  rcases ht with h | h | h <;> simp only [h] <;> norm_num
  · exact refl s
  · exact refl s
  · exact admitQuery s f t

theorem admitFront {s : State} {f : Nat} (hf : s.atOnce f = true) (ring : Nat) : AtOnce s (s.admitFront f ring).2 := by
  unfold State.admitFront
  split
  · exact refl s
  next t _ =>
  extract_lets status n s1 s2 src x
  have h1 : AtOnce s s1 := popTicket s f ring
  have h2 : AtOnce s s2 := by
    unfold s2
    rw [if_pos ((h1.atOnce f).trans hf)]
    exact h1
  have hf2 : s2.atOnce f = true := (h2.atOnce f).trans hf
  clear_value s2
  split
  · exact refl s
  next hed =>
  split
  · exact refl s
  split
  · exact h2.trans (completeTicket s2 hf2 _ _ _ _ _)
  next hst =>
  split
  · exact h2.trans (setFences s2 _)
  · have hx : AtOnce s2 x.2.2 := admitEffect s2 f ring (judge_op hf (not_not.1 hst) (by
      have hs : status = 0 := not_not.1 hst
      simpa [hs] using hed))
    exact (h2.trans hx).trans (completeTicket _ ((hx.atOnce f).trans hf2) _ _ _ _ _)

theorem admitAll {s : State} {f : Nat} (hf : s.atOnce f = true) (ring n : Nat) : AtOnce s (s.admitAll f ring n) := by
  induction n generalizing s with
  | zero => exact refl s
  | succ n ih =>
    have h1 := admitFront hf ring
    unfold State.admitAll
    exact ite (h1.trans (ih ((h1.atOnce f).trans hf))) h1

/-- The rings of such functions in turn. -/
theorem admitRings {s : State} {f : Nat} (hf : s.atOnce f = true) (n : State → Nat → Nat) (ks : List Nat) :
    AtOnce s (ks.foldl (fun s k => s.admitAll f k (n s k)) s) := by
  induction ks generalizing s with
  | nil => exact refl s
  | cons k ks ih =>
    have h1 := admitAll hf k (n s k)
    exact h1.trans (ih ((h1.atOnce f).trans hf))

theorem pfRest (s : State) (ring : Nat) : AtOnce s (s.pfRest ring) := admitAll rfl ring _

theorem edEnd (s : State) (ring : Nat) (t : Ticket) (status : Nat) : AtOnce s (s.edEnd ring t status) :=
  ((popTicket s 0 ring).trans (completeTicket _ rfl ring t status 0 0)).trans (pfRest _ ring)

end AtOnce

end Sys2Proof.Machine
end


section
/-!
Rest (R535 to R537, R600, R601), and what stays as it is while the block serves itself.
-/
namespace Sys2Proof.Machine

open Sys2Proof

/-- What stands from a state `b` on while the block serves itself: the editions but for the fences, the boot domain, power but for the events
that wait, the fabric's generation, each imprint's configuration and steps; out of Rest the wake watcher, REST_WRITE and every pending bit. -/
structure Standing (b s : State) : Prop where
  ed : s.ed = { b.ed with fences := s.ed.fences }
  boot : s.boot = b.boot
  power : s.power = { b.power with events := s.power.events }
  stopped : s.stopped = b.stopped
  gens : s.fab.gens = b.fab.gens
  imp : ∀ k, (s.imp k).cfg = (b.imp k).cfg ∧ (s.imp k).steps = (b.imp k).steps
  watch : b.inRest = false → s.icu.wake = b.icu.wake ∧ s.icu.restWrite = b.icu.restWrite
  pend : b.inRest = false → ∀ n, Nat.testBit b.icu.pend n = true → Nat.testBit s.icu.pend n = true

namespace Standing

theorem refl (b : State) : Standing b b where
  ed := rfl
  boot := rfl
  power := rfl
  stopped := rfl
  gens := rfl
  imp := fun _ => ⟨rfl, rfl⟩
  watch := fun _ => ⟨rfl, rfl⟩
  pend := fun _ _ h => h

theorem inRest {b s : State} (h : Standing b s) : s.inRest = b.inRest := by unfold State.inRest; rw [h.power]

/-- A change of none of these, with no pending bit lost. -/
theorem step {b s t : State} (h : Standing b s) (h1 : t.ed = s.ed) (h2 : t.boot = s.boot)
    (h3 : t.power = { s.power with events := t.power.events }) (h4 : t.stopped = s.stopped) (h5 : t.fab.gens = s.fab.gens)
    (h6 : ∀ k, (t.imp k).cfg = (s.imp k).cfg ∧ (t.imp k).steps = (s.imp k).steps)
    (h7 : s.inRest = false → t.icu.wake = s.icu.wake ∧ t.icu.restWrite = s.icu.restWrite)
    (h8 : s.inRest = false → ∀ n, Nat.testBit s.icu.pend n = true → Nat.testBit t.icu.pend n = true) : Standing b t where
  ed := by rw [h1]; exact h.ed
  boot := h2.trans h.boot
  power := by rw [h3, h.power]
  stopped := h4.trans h.stopped
  gens := h5.trans h.gens
  imp := fun k => ⟨(h6 k).1.trans (h.imp k).1, (h6 k).2.trans (h.imp k).2⟩
  watch := fun hb => by
    obtain ⟨hw, hr⟩ := h7 (h.inRest.trans hb)
    exact ⟨hw.trans (h.watch hb).1, hr.trans (h.watch hb).2⟩
  pend := fun hb n hn => h8 (h.inRest.trans hb) n (h.pend hb n hn)

theorem modImp {b s : State} (h : Standing b s) (i : Nat) (f : Imprint → Imprint) (hf : ∀ x, (f x).cfg = x.cfg ∧ (f x).steps = x.steps) :
    Standing b (s.modImp i f) := by
  refine h.step rfl rfl rfl rfl rfl (fun k => ?_) (fun _ => ⟨rfl, rfl⟩) fun _ _ hn => hn
  rw [State.imp_modImp]
  split
  · next hk => rw [hk]; exact hf _
  · exact ⟨rfl, rfl⟩

/-- A change of the pending bits that adds some, and its deliveries. -/
theorem addPending {b s : State} (h : Standing b s) (f : Icu → Icu) (hw : ∀ u, (f u).wake = u.wake ∧ (f u).restWrite = u.restWrite)
    (hp : ∀ u n, Nat.testBit u.pend n = true → Nat.testBit (f u).pend n = true) : Standing b (s.icuChange f) := by
  have hd := Delivered.icuChange s f
  have ho := hd.toOnlyIcu
  refine h.step ho.ed ho.boot (by rw [ho.power]) ho.stopped (by rw [ho.fab]) (fun k => ?_) (fun _ => ?_) fun _ n hn => ?_
  · rw [ho.imp]
    exact ⟨rfl, rfl⟩
  · rw [hd.wake, hd.restWrite]
    exact hw _
  · rw [hd.pend]
    exact hp _ n hn

theorem pulse {b s : State} (h : Standing b s) (n : Nat) : Standing b (s.pulse n) := by
  unfold State.pulse
  extract_lets sense
  split
  · exact h
  split
  · next hr =>
    split
    · exact h.step rfl rfl rfl rfl rfl (fun _ => ⟨rfl, rfl⟩) (fun h0 => by rw [hr] at h0; cases h0) fun _ _ hn => hn
    · exact h
  · exact h.addPending _ (fun _ => ⟨rfl, rfl⟩) fun u m hm => by simp [Nat.testBit_or, hm]

theorem sample {b s : State} (h : Standing b s) : Standing b s.sample := by
  unfold State.sample
  extract_lets now met
  clear_value met now
  split
  · next hr => exact h.step rfl rfl rfl rfl rfl (fun _ => ⟨rfl, rfl⟩) (fun h0 => by rw [hr] at h0; cases h0) fun _ _ hn => hn
  · exact h.addPending _ (fun _ => ⟨rfl, rfl⟩) fun u m hm => by simp [Nat.testBit_or, hm]

theorem atOnce {b s t : State} (h : Standing b s) (g : AtOnce s t) : Standing b t where
  ed := by rw [g.rest, h.ed]
  boot := by rw [g.rest]; exact h.boot
  power := by rw [g.rest]; exact h.power
  stopped := by rw [g.rest]; exact h.stopped
  gens := by rw [g.rest]; exact h.gens
  imp := fun k => by rw [g.imp]; exact h.imp k
  watch := by rw [g.rest]; exact h.watch
  pend := by rw [g.rest]; exact h.pend

end Standing

theorem standingKept (b : State) : Kept (Standing b) where
  modCore := fun h _ _ => h.step rfl rfl rfl rfl rfl (fun _ => ⟨rfl, rfl⟩) (fun _ => ⟨rfl, rfl⟩) fun _ _ hn => hn
  modImp := fun h i f hf => h.modImp i f fun m => ⟨(hf m).cfg, (hf m).steps⟩
  modFn := fun h _ _ => h.step rfl rfl rfl rfl rfl (fun _ => ⟨rfl, rfl⟩) (fun _ => ⟨rfl, rfl⟩) fun _ _ hn => hn
  modPort := fun h _ _ => h.step rfl rfl rfl rfl rfl (fun _ => ⟨rfl, rfl⟩) (fun _ => ⟨rfl, rfl⟩) fun _ _ hn => hn
  modCh := fun h _ _ _ => h.step rfl rfl rfl rfl rfl (fun _ => ⟨rfl, rfl⟩) (fun _ => ⟨rfl, rfl⟩) fun _ _ hn => hn
  setOut := fun h _ => h.step rfl rfl rfl rfl rfl (fun _ => ⟨rfl, rfl⟩) (fun _ => ⟨rfl, rfl⟩) fun _ _ hn => hn
  pulse := Standing.pulse
  onlyT0 := fun h ho _ => by
    rw [ho]
    exact h.step rfl rfl rfl rfl rfl (fun _ => ⟨rfl, rfl⟩) (fun _ => ⟨rfl, rfl⟩) fun _ _ hn => hn
  setFab := fun h _ hg _ _ => h.step rfl rfl rfl rfl hg (fun _ => ⟨rfl, rfl⟩) (fun _ => ⟨rfl, rfl⟩) fun _ _ hn => hn
  setEvents := fun h _ => h.step rfl rfl rfl rfl rfl (fun _ => ⟨rfl, rfl⟩) (fun _ => ⟨rfl, rfl⟩) fun _ _ hn => hn
  setFences := fun h _ => by
    obtain ⟨ed, boot, power, stopped, gens, imp, watch, pend⟩ := h
    exact ⟨by rw [ed], boot, power, stopped, gens, imp, watch, pend⟩
  anyRun := fun h i _ => h.modImp i _ fun _ => ⟨rfl, rfl⟩
  anyServe := fun h i _ => h.modImp i _ fun _ => ⟨rfl, rfl⟩
  anyFab := fun h _ hg _ => h.step rfl rfl rfl rfl hg (fun _ => ⟨rfl, rfl⟩) (fun _ => ⟨rfl, rfl⟩) fun _ _ hn => hn
  setCauses := fun h _ => h.step rfl rfl rfl rfl rfl (fun _ => ⟨rfl, rfl⟩) (fun _ => ⟨rfl, rfl⟩) fun _ _ hn => hn

theorem Steady.powerEvent {P : State → Prop} (K : Steady P) {s : State} (h : P s) (bs : List Byte) : P (s.powerEvent bs) := by
  unfold State.powerEvent
  exact K.ite (K.setEvents h _) (K.flushPower (K.setEvents h _))

theorem Steady.stateNotice {P : State → Prop} (K : Steady P) {s : State} (h : P s) : P s.stateNotice := K.powerEvent h _

/-- The functions that wait for no opening take what they have, one after the other (R537). -/
theorem Standing.admitFunctions {b s : State} (h : Standing b s) (fs : List Nat) (hf : ∀ f ∈ fs, s.atOnce f = true) :
    Standing b (fs.foldl (fun s f => (s.fn f).submissions.foldl (fun s k =>
      s.admitAll f k ((((s.fn f).ring k).map fun r => r.waiting.length).getD 0)) s) s) := by
  induction fs generalizing s with
  | nil => exact h
  | cons f fs ih =>
    have ha := AtOnce.admitRings (hf f (by simp)) (fun s k => (((s.fn f).ring k).map fun r => r.waiting.length).getD 0) (s.fn f).submissions
    exact ih (h.atOnce ha) fun g hg => (ha.atOnce g).trans (hf g (by simp [hg]))

/-- The state in which REST_WAKE leaves Rest: the controller takes what the watcher recorded (R601). -/
def State.awake (s : State) : State :=
  (s.modPower fun p => { p with rest := .run }).icuChange fun u =>
    { u with pend := u.pend ||| s.icu.wake, wake := 0, restWrite := u.restWrite || u.restSeen, restSeen := false }

theorem execRestWake_standing {s : State} (hs : s.stopped = false) (hr : s.power.rest = .rest)
    (hw : s.power.req = false ∨ s.ticketWaits = true) : ∃ t, exec .restWake s = .next t ∧ Standing s.awake t := by
  have hgo : ¬(s.stopped || decide (s.power.rest ≠ .rest) || (s.power.req && !s.ticketWaits)) = true := by
    rcases hw with h | h <;> simp [hs, hr, h]
  refine ⟨_, if_neg hgo, ?_⟩
  have K := standingKept s.awake
  have h1 : Standing s.awake (State.sample (s.awake.pulse 70).stateNotice) := (K.stateNotice ((Standing.refl _).pulse 70)).sample
  have h2 := K.foldl (fun _ p h => K.pump h p) h1 (List.range 20)
  exact K.settle (h2.admitFunctions _ fun f hf => (List.mem_filter.1 hf).2)

theorem awake_inRest (s : State) : s.awake.inRest = false := by
  unfold State.inRest State.awake
  rw [(OnlyIcu.icuChange _ _).power]
  rfl

theorem execPwrReqRest_notice {s : State} (ha : s.answers = true) (hs : s.stopped = false) (hr : s.power.rest = .run)
    (hb : s.restRefused = false) : ∃ t, exec .pwrReqRest s = .next t
      ∧ Notified (s.modPower fun p => { p with req := true, refused := false, rest := .entering }) t := by
  refine ⟨_, (if_neg (by simp [ha])).trans (if_neg (by simp [hs, hr, hb])), ?_⟩
  have hf : (s.power.rest == .run && s.restRefused) = false := by rw [hb, Bool.and_false]
  refine Notified.trans (t := (s.modPower fun p => { p with req := true, refused := p.rest == .run && s.restRefused }).modPower
    fun p => { p with rest := .entering }) ?_ (Notified.stateNotice _)
  simp only [State.modPower, hf]
  exact Notified.refl _

theorem execPwrReqRest_kept {s : State} (ha : s.answers = true) (h : s.stopped = true ∨ s.power.rest ≠ .run ∨ s.restRefused = true) :
    exec .pwrReqRest s = .next (s.modPower fun p => { p with req := true, refused := p.rest == .run && s.restRefused }) := by
  refine (if_neg (by simp [ha])).trans (if_pos ?_)
  rcases h with h | h | h <;> simp [h]

theorem execPwrReqRun_notice {s : State} (ha : s.answers = true) : ∃ t, exec .pwrReqRun s = .next t
    ∧ Notified (s.modPower fun p => { p with req := false, refused := false, rest := if p.rest = .entering then .run else p.rest }) t := by
  by_cases hr : s.power.rest = .entering
  · refine ⟨_, (if_neg (by simp [ha])).trans (if_pos hr), ?_⟩
    simpa [State.modPower, hr] using Notified.stateNotice _
  · exact ⟨_, (if_neg (by simp [ha])).trans (if_neg hr), by simp [State.modPower, hr]; exact Notified.refl _⟩

theorem execRestEntry_notice {s : State} (hs : s.stopped = false) (hr : s.power.rest = .entering)
    (ho : s.imprintList.all s.atOpen = true) : ∃ t, exec .restEntry s = .next t ∧ Notified (s.modPower fun p => { p with rest := .rest }) t :=
  ⟨_, if_neg (by rw [ho]; simp [hs, hr]), Notified.stateNotice _⟩

/-- Settles O50: a request and an entry change power's request and state and then only tell of it; the wake leaves the controller what its
watcher saw, and nothing that the block then does for itself takes any of it back. -/
theorem restIsEnteredAndLeft : Obligations.RestIsEnteredAndLeft := by
  unfold Obligations.RestIsEnteredAndLeft
  intro s
  refine ⟨fun ha => ?_, fun ha => ?_, fun hs hr ho => ?_, fun hs hr hw => ?_⟩
  · by_cases h : s.stopped = true ∨ s.power.rest ≠ .run ∨ s.restRefused = true
    · refine ⟨_, execPwrReqRest_kept ha h, rfl, fun hr hb => ⟨hr, ?_⟩, fun hr hb hs => ?_, fun _ => rfl⟩
      · show (s.power.rest == .run && s.restRefused) = true
        simp [hr, hb]
      · simp [hr, hb, hs] at h
    · simp only [not_or, Bool.not_eq_true, not_not] at h
      obtain ⟨hs, hr, hb⟩ := h
      obtain ⟨t, ht, hn⟩ := execPwrReqRest_notice ha hs hr hb
      refine ⟨t, ht, ?_, fun _ hb' => ?_, fun _ _ _ => ?_, fun hr' => absurd hr hr'⟩
      · rw [hn.power]; rfl
      · rw [hb] at hb'; cases hb'
      · rw [hn.power]; exact ⟨rfl, rfl⟩
  · obtain ⟨t, ht, hn⟩ := execPwrReqRun_notice ha
    refine ⟨t, ht, ?_⟩
    rw [hn.power]
    exact ⟨rfl, rfl, rfl⟩
  · obtain ⟨t, ht, hn⟩ := execRestEntry_notice hs hr ho
    refine ⟨t, ht, ?_, hn.issueLevel.trans ?_, hn.inRest.trans ?_, hn.cores, hn.t0⟩
    · rw [hn.power]; rfl
    · simp [State.issueLevel, State.modPower]
    · simp [State.inRest, State.modPower]
  · obtain ⟨t, ht, hst⟩ := execRestWake_standing hs hr hw
    have h0 := awake_inRest s
    have hd : Delivered _ s.awake := Delivered.icuChange _ _
    obtain ⟨hwake, hwrite⟩ := hst.watch h0
    refine ⟨t, ht, ?_, hst.inRest.trans h0, hwake.trans hd.wake, fun n hn => hst.pend h0 n ?_, hwrite.trans hd.restWrite⟩
    · rw [hst.power]
      unfold State.awake
      rw [(OnlyIcu.icuChange _ _).power]
      rfl
    · rw [hd.pend]
      show Nat.testBit (s.icu.pend ||| s.icu.wake) n = true
      rw [Nat.testBit_or, hn, Bool.or_true]

end Sys2Proof.Machine
end


section
/-!
Staging, validating, committing and reverting an edition (R404, R493, R496, R497, R504, R506).
-/
namespace Sys2Proof.Machine

open Sys2Proof

/-- A change of records of imprints, functions, interrupts, what is sent and the power events that wait, with the editions left at `d` but
for the fences. -/
def Edited (s : State) (d : Editions) (t : State) : Prop :=
  t = { s with imprints := t.imprints, fns := t.fns, out := t.out, icu := t.icu, power := { s.power with events := t.power.events },
               ed := { d with fences := t.ed.fences } }

namespace Edited

theorem of_notified {s t : State} (h : Notified s t) : Edited s s.ed t := by
  unfold Edited Notified at *
  rw [h]

theorem of_atOnce {s t : State} (h : AtOnce s t) : Edited s s.ed t := by
  unfold Edited
  rw [h.rest]

theorem notified {s t u : State} {d : Editions} (h : Edited s d t) (g : Notified t u) : Edited s d u := by
  unfold Edited Notified at *
  rw [g]
  rw [h]

theorem atOnce {s t u : State} {d : Editions} (h : Edited s d t) (g : AtOnce t u) : Edited s d u := by
  unfold Edited at *
  rw [g.rest]
  rw [h]

theorem setEd {s t : State} {d : Editions} (h : Edited s d t) (f : Editions → Editions)
    (hf : ∀ d x, f { d with fences := x } = { f d with fences := x }) : Edited s (f d) (t.setEd f) := by
  have he : t.ed = { d with fences := t.ed.fences } := by rw [h]
  have he' : f t.ed = { f d with fences := (f t.ed).fences } := by
    have hd := (congrArg f he).trans (hf d t.ed.fences)
    rw [hd]
  have h1 : Edited s (f d) { t with ed := f t.ed } := by
    refine (congrArg (fun e => { t with ed := e }) he').trans ?_
    generalize (f t.ed).fences = x
    rw [h]
  exact h1.notified (Notified.of_onlyIcu (OnlyIcu.setEd t f))

variable {s t : State} {d : Editions} (h : Edited s d t)
include h

theorem ed : t.ed = { d with fences := t.ed.fences } := by rw [h]
theorem cores : t.cores = s.cores := by rw [h]
theorem ports : t.ports = s.ports := by rw [h]
theorem t0 : t.t0 = s.t0 := by rw [h]
theorem t1 : t.t1 = s.t1 := by rw [h]

end Edited

theorem Notified.event (s : State) (i : Nat) (bytes : List Byte) : Notified s (s.event i bytes) := by
  unfold State.event
  exact ite (writeEvents s _ _ _) (modServe s i _)

theorem Notified.pfEvent (s : State) (bytes : List Byte) : Notified s (s.pfEvent bytes) := writeEvents s 0 0 _

theorem Notified.editionEvent (s : State) (i : Nat) (bytes : List Byte) : Notified s (s.editionEvent i bytes) :=
  (event s i bytes).trans (pfEvent _ bytes)

theorem Notified.edNotice (s : State) (e : Edition) (type code edition sec item : Nat) :
    Notified s (s.edNotice e type code edition sec item) := by
  unfold State.edNotice
  extract_lets b
  split
  · exact ite (editionEvent s _ _) (pfEvent s _)
  · exact pfEvent s _

/-! A ring whose front ticket is taken. -/

/-- A change of the interrupt controller leaves the rings as they are. -/
theorem OnlyIcu.ring {s t : State} (h : OnlyIcu s t) (f k : Nat) : (t.fn f).ring k = (s.fn f).ring k := by
  rw [h.fns f]
  rfl

/-- A PF ring after its front ticket was taken and those behind it were admitted. -/
def Popped (s t : State) (ring : Nat) : Prop :=
  ∀ r, (s.fn 0).ring ring = some r → ∃ r', (t.fn 0).ring ring = some r' ∧ r'.waiting <:+ r.waiting.drop 1

theorem Popped.popTicket (s : State) (ring : Nat) : Popped s (s.popTicket 0 ring) ring := fun r hr =>
  ⟨{ r with waiting := r.waiting.drop 1 }, by simp [State.popTicket, ring_modRing, hr], List.suffix_rfl⟩

theorem Popped.atOnce {s t u : State} {ring : Nat} (h : Popped s t ring) (g : AtOnce t u) : Popped s u ring := fun r hr => by
  obtain ⟨r1, h1, hw1⟩ := h r hr
  obtain ⟨r2, h2, hw2⟩ := g.waiting 0 ring r1 h1
  exact ⟨r2, h2, hw2.trans hw1⟩

theorem Popped.onlyIcu {s t u : State} {ring : Nat} (h : Popped s t ring) (g : OnlyIcu t u) : Popped s u ring := fun r hr => by
  obtain ⟨r1, h1, hw1⟩ := h r hr
  exact ⟨r1, (g.ring 0 ring).trans h1, hw1⟩

theorem Popped.edEnd (s : State) (ring : Nat) (x : Ticket) (status : Nat) : Popped s (s.edEnd ring x status) ring :=
  ((Popped.popTicket s ring).atOnce (AtOnce.completeTicket _ rfl ring x status 0 0)).atOnce (AtOnce.pfRest _ ring)

theorem edTicket_ring {s : State} {ring op : Nat} {x : Ticket} (h : s.edTicket ring op = some x) : ∃ r, (s.fn 0).ring ring = some r := by
  unfold State.edTicket State.frontTicket at h
  cases hr : (s.fn 0).ring ring with
  | some r => exact ⟨r, rfl⟩
  | none => simp [hr] at h

/-- An edition ticket is taken, the editions change, and the tickets behind it are admitted. -/
def State.takeEdTicket (s : State) (ring : Nat) (f : Editions → Editions) : State := ((s.popTicket 0 ring).setEd f).pfRest ring

section
variable (s : State) (ring : Nat) (f : Editions → Editions)

theorem takeEdTicket_edited (hf : ∀ d x, f { d with fences := x } = { f d with fences := x }) : Edited s (f s.ed) (s.takeEdTicket ring f) :=
  ((Edited.of_atOnce (AtOnce.popTicket s 0 ring)).setEd f hf).atOnce (AtOnce.pfRest _ ring)

theorem takeEdTicket_popped : Popped s (s.takeEdTicket ring f) ring :=
  ((Popped.popTicket s ring).onlyIcu (t := { s.popTicket 0 ring with ed := f (s.popTicket 0 ring).ed }) ⟨rfl, fun _ => rfl, List.prefix_rfl⟩ |>.onlyIcu
    (OnlyIcu.setEd _ f)).atOnce (AtOnce.pfRest _ ring)

theorem takeEdTicket_imprints : (s.takeEdTicket ring f).imprints = s.imprints :=
  (AtOnce.pfRest _ ring).imprints.trans (OnlyIcu.setEd (s.popTicket 0 ring) f).imprints

end

/-! Staging and validation. -/

/-- The editions with an image taken for validation. -/
def Editions.validating (d : Editions) (ring : Nat) (x : Ticket) (e : Edition) : Editions :=
  { d with stage := some ⟨ring, x.tag, x.f 32 4, some e, false⟩ }

theorem exec_editionStage_denied {s : State} {ring : Nat} {x : Ticket} {e : Edition} (hx : s.edTicket ring 0x20 = some x)
    (hb : s.ed.stage.isSome = true ∨ s.ed.work ≠ .idle) : exec (.editionStage ring (some e)) s = .next (s.edEnd ring x 0x0203) := by
  show execEditionStage ring (some e) s = _
  unfold execEditionStage
  rw [hx]
  exact if_pos (by simpa using hb)

theorem exec_editionStage_taken {s : State} {ring : Nat} {x : Ticket} {e : Edition} (hx : s.edTicket ring 0x20 = some x)
    (hb : ¬(s.ed.stage.isSome = true ∨ s.ed.work ≠ .idle)) (he : x.f 32 4 = e.head.edition) :
    exec (.editionStage ring (some e)) s = .next (s.takeEdTicket ring fun d => d.validating ring x e) := by
  show execEditionStage ring (some e) s = _
  unfold execEditionStage
  rw [hx]
  exact (if_neg (by simpa using hb)).trans (if_neg (not_not.2 he))

/-- The editions with a validation's outcome: its edition staged, or the one staged before. -/
def Editions.validated (d : Editions) (e : Edition) (passed : Bool) : Editions :=
  { d with stage := none, staged := if passed then some e else d.staged }

theorem exec_editionValidated_edited {s : State} {x : Staging} {e : Edition} (hs : s.stopped = false) (hx : s.ed.stage = some x)
    (he : x.image = some e) (hm : s.mayValidate x e = true) :
    ∃ t, exec .editionValidated s = .next t ∧ Edited s (s.ed.validated e (s.runChecks e false allChecks).isNone) t := by
  show ∃ t, execEditionValidated s = .next t ∧ _
  obtain ⟨ring, tag, num, image, timedOut⟩ := x
  obtain rfl : image = some e := he
  unfold execEditionValidated
  rw [hx]
  refine ⟨_, if_neg (by simp [hs, hm]), ?_⟩
  exact ((Edited.of_notified (Notified.edNotice s e _ _ _ _ _)).setEd (fun d => d.validated e _) fun _ _ => rfl).atOnce
    (AtOnce.edFinish _ _ _ _ _)

/-! The plan's discovery time (R404). -/

/-- A planned port that has heard no neighbour is missing (R404). -/
def State.missPort (s : State) (y : PortPlan × Nat) : State :=
  if y.1.need ≠ .unused && (s.port y.2).lastHello.isNone && decide (y.2 < 20) then
    let told := s.imprintList.filter fun i => s.names i y.2
    s.modPort y.2 fun z => { z with reason := 9, missing := true, news := nub (z.news ++ told) }
  else s

theorem missPort_port (s : State) (y : PortPlan × Nat) (p : Nat) :
    (s.missPort y).port p = s.port p ∨ (y.2 = p ∧ (s.port p).lastHello = none ∧ ((s.missPort y).port p).missing = true
      ∧ ((s.missPort y).port p).reason = 9 ∧ ((s.missPort y).port p).lastHello = none) := by
  unfold State.missPort
  split
  · next h =>
    simp only [Bool.and_eq_true, Option.isNone_iff_eq_none, decide_eq_true_eq] at h
    obtain ⟨⟨_, hl⟩, _⟩ := h
    rw [State.port_modPort]
    split
    · next hp =>
      rw [hp]
      exact .inr ⟨rfl, hl, rfl, rfl, hl⟩
    · exact .inl rfl
  · exact .inl rfl

theorem missPort_same (s : State) {y : PortPlan × Nat} (hn : y.1.need ≠ .unused) (hl : (s.port y.2).lastHello = none) (hp : y.2 < 20) :
    ((s.missPort y).port y.2).missing = true ∧ ((s.missPort y).port y.2).reason = 9 := by
  unfold State.missPort
  rw [if_pos (by simp [hn, hl, hp]), State.port_modPort_same]
  exact ⟨rfl, rfl⟩

/-- A port that stands as missing, or had no neighbour yet, is so to the end of the plan; one with a neighbour stays as it is. -/
theorem missPorts_heard (s : State) (ys : List (PortPlan × Nat)) (p : Nat) (h : (s.port p).lastHello ≠ none) :
    (ys.foldl State.missPort s).port p = s.port p := by
  induction ys generalizing s with
  | nil => rfl
  | cons y ys ih =>
    have hp : (s.missPort y).port p = s.port p := (missPort_port s y p).resolve_right fun ⟨_, hl, _⟩ => h hl
    exact (ih _ (by rw [hp]; exact h)).trans hp

theorem missPorts_keep (s : State) (ys : List (PortPlan × Nat)) (p : Nat) (h : (s.port p).missing = true ∧ (s.port p).reason = 9) :
    ((ys.foldl State.missPort s).port p).missing = true ∧ ((ys.foldl State.missPort s).port p).reason = 9 := by
  induction ys generalizing s with
  | nil => exact h
  | cons y ys ih =>
    refine ih _ ?_
    rcases missPort_port s y p with hp | ⟨_, _, hm, hr, _⟩
    · rw [hp]; exact h
    · exact ⟨hm, hr⟩

theorem missPorts_missing (s : State) (ys : List (PortPlan × Nat)) {y : PortPlan × Nat} (hy : y ∈ ys) (hn : y.1.need ≠ .unused)
    (hp : y.2 < 20) (hl : (s.port y.2).lastHello = none) :
    ((ys.foldl State.missPort s).port y.2).missing = true ∧ ((ys.foldl State.missPort s).port y.2).reason = 9 := by
  induction ys generalizing s with
  | nil => cases hy
  | cons z ys ih =>
    rcases List.mem_cons.1 hy with rfl | hy
    · exact missPorts_keep _ ys _ (missPort_same s hn hl hp)
    · refine ih (s.missPort z) hy ?_
      rcases missPort_port s z y.2 with h | ⟨_, _, _, _, h⟩
      · rw [h]; exact hl
      · exact h

theorem missPorts_ed (s : State) (ys : List (PortPlan × Nat)) : (ys.foldl State.missPort s).ed = s.ed := by
  induction ys generalizing s with
  | nil => rfl
  | cons y ys ih =>
    refine (ih _).trans ?_
    unfold State.missPort
    split <;> rfl

theorem exec_discoveryTimeout {s : State} {x : Staging} {e : Edition} {m : Major} (hs : s.stopped = false) (hx : s.ed.stage = some x)
    (he : x.image = some e) (hm : e.body = .major m) : exec .discoveryTimeout s =
      .next (m.topology.ports.zipIdx.foldl State.missPort { s with ed := { s.ed with stage := some { x with timedOut := true } } }) := by
  show execDiscoveryTimeout s = _
  obtain ⟨ring, tag, num, image, timedOut⟩ := x
  obtain rfl : image = some e := he
  obtain ⟨bytes, body⟩ := e
  obtain rfl : body = .major m := hm
  unfold execDiscoveryTimeout
  rw [hx]
  exact if_neg (by simp [hs])

/-- Settles O43: a STAGE's effect on the editions, its ring and nothing else; a validation's outcome beside its notices; and the ports of a
plan whose discovery time is up, one after another. -/
theorem editionIsStagedAndValidated : Obligations.EditionIsStagedAndValidated := by
  unfold Obligations.EditionIsStagedAndValidated
  intro s
  refine ⟨fun ring x e hx he => ?_, fun x e hs hx he hm => ?_, fun x e m hs hx he hm => ?_⟩
  · obtain ⟨r, hr⟩ := edTicket_ring hx
    by_cases hb : s.ed.stage.isSome = true ∨ s.ed.work ≠ .idle
    · obtain ⟨r', hr', hw⟩ := Popped.edEnd s ring x 0x0203 r hr
      have ha := AtOnce.edEnd s ring x 0x0203
      have hd := Edited.of_atOnce ha
      refine ⟨_, r, r', exec_editionStage_denied hx hb, hr, hr', hw, ?_, ?_, ha.imprints, hd.cores, hd.t0, hd.t1, ?_⟩
      · rw [hd.ed]
      · rw [hd.ed]
      · rw [hd.ed, if_pos hb]
    · obtain ⟨r', hr', hw⟩ := takeEdTicket_popped s ring (fun d => d.validating ring x e) r hr
      have hd := takeEdTicket_edited s ring (fun d => d.validating ring x e) fun _ _ => rfl
      refine ⟨_, r, r', exec_editionStage_taken hx hb he, hr, hr', hw, ?_, ?_, takeEdTicket_imprints s ring _, hd.cores, hd.t0,
        hd.t1, ?_⟩
      · rw [hd.ed]; rfl
      · rw [hd.ed]; rfl
      · rw [hd.ed, if_neg hb, ← he]; rfl
  · obtain ⟨t, ht, hd⟩ := exec_editionValidated_edited hs hx he hm
    refine ⟨t, ht, ?_, ?_, hd.cores, hd.t0, hd.t1, ?_⟩
    · rw [hd.ed]; rfl
    · rw [hd.ed]; rfl
    · rw [hd.ed]
      show (if _ then _ else _) = _
      simp only [Option.isNone_iff_eq_none]
  · refine ⟨_, exec_discoveryTimeout hs hx he hm, by rw [missPorts_ed], ?_, fun p hp => ⟨fun y hy hn hl => ?_, fun hl => ?_⟩⟩
    · unfold State.mayValidate
      rw [hm]
      rfl
    · exact missPorts_missing _ _ (y := (y, p)) (List.mem_zipIdx_iff_getElem?.2 hy) hn hp hl
    · exact missPorts_heard _ _ p hl

end Sys2Proof.Machine
end


section
/-!
Committing and reverting an edition up to its drain quoins (R496, R497, R504, R506).
-/
namespace Sys2Proof.Machine

open Sys2Proof

/-- The editions with other commit work. -/
def Editions.setWork (d : Editions) (w : EdWork) : Editions := { d with work := w }

/-- The editions with no minor edition pending. -/
def Editions.noMinor (d : Editions) : Editions := { d with pendingMinor := none }

/-! Commands of a ring's front ticket. -/

theorem exec_editionCommit_major {s : State} {ring : Nat} {x : Ticket} {e : Edition} {m : Major} (hx : s.edTicket ring 0x21 = some x)
    (he : s.ed.staged = some e) (hn : e.head.edition = x.f 32 4) (hw : s.ed.work = .idle) (hm : e.body = .major m) :
    exec (.editionCommit ring) s = .next (s.takeEdTicket ring fun d => d.setWork (.rechecking ring x.tag false)) := by
  show execEditionCommit ring s = _
  unfold execEditionCommit
  rw [hx, he]
  refine (if_neg (by simp [hn, hw])).trans ?_
  rw [hm]
  rfl

theorem exec_editionCommit_minor {s : State} {ring : Nat} {x : Ticket} {e : Edition} {m : Minor} (hx : s.edTicket ring 0x21 = some x)
    (he : s.ed.staged = some e) (hn : e.head.edition = x.f 32 4) (hw : s.ed.work = .idle) (hm : e.body = .minor m)
    (hp : s.ed.pendingMinor = none) (hc : s.runChecks e false [13] = none) :
    exec (.editionCommit ring) s =
      .next (s.takeEdTicket ring fun d => { d with staged := none, pendingMinor := some (e, ring, x.tag) }) := by
  show execEditionCommit ring s = _
  unfold execEditionCommit
  rw [hx, he]
  refine (if_neg (by simp [hn, hw])).trans ?_
  rw [hm]
  refine (if_neg (by simp [hp])).trans ?_
  rw [hc]
  rfl

theorem exec_editionRevert_drop {s : State} {ring : Nat} {x : Ticket} (hx : s.edTicket ring 0x22 = some x)
    (hp : s.ed.pendingMinor ≠ none) : exec (.editionRevert ring) s = .next (s.dropMinor.edEnd ring x 0) := by
  show execEditionRevert ring s = _
  unfold execEditionRevert
  rw [hx]
  exact if_pos (Option.isSome_iff_ne_none.2 hp)

theorem exec_editionRevert_kept {s : State} {ring : Nat} {x : Ticket} (hx : s.edTicket ring 0x22 = some x)
    (hp : s.ed.pendingMinor = none) (hw : s.ed.work = .idle) (hk : s.ed.kept ≠ none) :
    exec (.editionRevert ring) s = .next (s.takeEdTicket ring fun d => d.setWork (.rechecking ring x.tag true)) := by
  show execEditionRevert ring s = _
  unfold execEditionRevert
  rw [hx]
  exact (if_neg (by simp [hp])).trans (if_neg (by simp [hw, hk]))

theorem dropMinor_edited (s : State) : Edited s s.ed.noMinor s.dropMinor := by
  unfold State.dropMinor
  split
  · next hp =>
    rw [show s.ed.noMinor = s.ed by unfold Editions.noMinor; rw [← hp]]
    exact Edited.of_notified (Notified.refl s)
  · next e ring tag hp =>
    extract_lets i u
    have hu : Edited s s.ed.noMinor u := (Edited.of_notified (Notified.refl s)).setEd Editions.noMinor fun _ _ => rfl
    clear_value u
    exact ((hu.notified (Notified.editionEvent u i _)).atOnce (AtOnce.recordNow _ 0 ring _)).atOnce (AtOnce.pfFences _)

/-! The recheck (R496, R497). -/

/-- An imprint's drain impression (R497). -/
def State.drainAt (s : State) (m : Major) (i : Nat) : Nat :=
  let at_ := ((m.imprints.find? fun g => g.entry.imprint == i).map (·.entry.drainAt)).getD 0
  if at_ = 0 then s.openImpression i + 1 else at_

theorem setDrain_notified (s : State) (m : Major) (i : Nat) : Notified s (s.setDrain m i) := by
  unfold State.setDrain
  exact Notified.ite (Notified.refl s) (Notified.modServe s i _)

theorem setDrain_other (s : State) (m : Major) {i k : Nat} (h : k ≠ i) : (s.setDrain m i).imp k = s.imp k := by
  unfold State.setDrain
  split
  · rfl
  · exact State.imp_modServe_ne s i k _ h

theorem setDrain_drain (s : State) (m : Major) {i : Nat} (h : s.heldOrNone i = false) :
    ((s.setDrain m i).imp i).serve.drain = some (s.drainAt m i) := by
  unfold State.setDrain
  rw [if_neg (by simp [h])]
  exact congrArg (fun x => x.serve.drain) (State.imp_modServe_same s i _)

theorem drainAt_congr {s t : State} {i : Nat} (h : t.imp i = s.imp i) (m : Major) : t.drainAt m i = s.drainAt m i := by
  unfold State.drainAt State.openImpression
  rw [h]

theorem heldOrNone_congr {s t : State} {i : Nat} (h : t.imp i = s.imp i) : t.heldOrNone i = s.heldOrNone i := by
  unfold State.heldOrNone
  rw [h]

theorem foldl_setDrain_other (s : State) (m : Major) (is : List Nat) {k : Nat} (h : k ∉ is) :
    (is.foldl (fun s i => s.setDrain m i) s).imp k = s.imp k := by
  induction is generalizing s with
  | nil => rfl
  | cons i is ih =>
    rw [List.mem_cons, not_or] at h
    exact (ih _ h.2).trans (setDrain_other s m h.1)

theorem foldl_setDrain_drain (s : State) (m : Major) {is : List Nat} (hd : is.Nodup) {i : Nat} (hi : i ∈ is) (h : s.heldOrNone i = false) :
    ((is.foldl (fun s i => s.setDrain m i) s).imp i).serve.drain = some (s.drainAt m i) := by
  induction is generalizing s with
  | nil => cases hi
  | cons j is ih =>
    obtain ⟨hj, hd⟩ := List.nodup_cons.1 hd
    by_cases hij : i = j
    · subst hij
      show (((is.foldl (fun s i => s.setDrain m i) (s.setDrain m i))).imp i).serve.drain = _
      rw [foldl_setDrain_other _ m is hj]
      exact setDrain_drain s m h
    · have hs := setDrain_other s m hij
      refine (ih (s.setDrain m j) hd ((List.mem_cons.1 hi).resolve_left hij) ((heldOrNone_congr hs).trans h)).trans ?_
      rw [drainAt_congr hs]

theorem imprintList_nodup (s : State) : s.imprintList.Nodup := List.nodup_range.filter _

theorem mem_imprintList {s : State} {i : Nat} (hi : i < 16) (h : s.heldOrNone i = false) : i ∈ s.imprintList := by
  unfold State.heldOrNone at h
  rw [Bool.or_eq_false_iff] at h
  exact List.mem_filter.2 ⟨List.mem_range.2 hi, by rw [← Option.not_isNone, h.1]; rfl⟩

/-- Every imprint of the edition in force that runs is given its drain impression. -/
def State.setDrains (s : State) (m : Major) : State := s.imprintList.foldl (fun s i => s.setDrain m i) s

theorem setDrains_notified (s : State) (m : Major) : Notified s (s.setDrains m) := Notified.foldl (fun s i => setDrain_notified s m i) _ s

theorem setDrains_imp (s : State) (m : Major) {i : Nat} (hi : i < 16) (h : s.heldOrNone i = false) :
    ((s.setDrains m).imp i).serve.drain = some (s.drainAt m i) := foldl_setDrain_drain s m (imprintList_nodup s) (mem_imprintList hi h) h

theorem recheck_none {c : Bool} {r : Option (Nat × Nat × Nat)} {x : Nat × Nat × Nat} :
    (if c then r else some x) = none ↔ c = true ∧ r = none := by cases c <;> simp

section
variable {s : State} {ring tag : Nat} {rev : Bool} {e : Edition} (image : Option Edition) (minors : List Edition)
  (hs : s.stopped = false) (hw : s.ed.work = .rechecking ring tag rev) (he : (if rev then s.ed.kept else s.ed.staged) = some e)
include hs hw he

theorem exec_recheckDone_failed {f : Nat × Nat × Nat}
    (hf : (if sameImages (image :: minors.map some) (e :: if rev then s.ed.keptMinors else []) then s.runChecks e rev recheckCodes
      else some (2, 0xFFFF, 0)) = some f) : exec (.editionRecheckDone image minors) s =
    .next (((s.edNotice e 0x0012 f.1 e.head.edition f.2.1 f.2.2).setEd fun d => d.setWork .idle).edFinish ring tag
      (if rev then 0x22 else 0x21) 0x0501) := by
  show execEditionRecheckDone image minors s = _
  unfold execEditionRecheckDone
  rw [hw]
  refine (if_neg (by simp [hs])).trans ?_
  rw [he]
  dsimp only
  rw [hf]
  rfl

theorem exec_recheckDone_passed {m : Major} (hm : e.body = .major m)
    (hf : (if sameImages (image :: minors.map some) (e :: if rev then s.ed.keptMinors else []) then s.runChecks e rev recheckCodes
      else some (2, 0xFFFF, 0)) = none) : exec (.editionRecheckDone image minors) s =
    .next (State.sample ((s.setEd fun d => d.setWork (.draining ring tag rev e (if rev then s.ed.keptMinors else []))).setDrains m)) := by
  show execEditionRecheckDone image minors s = _
  unfold execEditionRecheckDone
  rw [hw]
  refine (if_neg (by simp [hs])).trans ?_
  rw [he]
  dsimp only
  rw [hf, hm]
  rfl

end

/-- Settles O44: what a COMMIT, a REVERT and the end of a recheck leave of the editions beside their notices, and the drain quoin of each
imprint that runs. -/
theorem commitRechecksAndDrains : Obligations.CommitRechecksAndDrains := by
  unfold Obligations.CommitRechecksAndDrains
  intro s
  refine ⟨fun ring x e hx he hn hw => ⟨fun m hm => ?_, fun m hm hp hc => ?_⟩, fun ring x hx => ⟨fun hp => ?_, fun hp hw hk => ?_⟩,
    fun ring tag rev e image minors hs hw he => ?_⟩
  · have hd := takeEdTicket_edited s ring (fun d => d.setWork (.rechecking ring x.tag false)) fun _ _ => rfl
    refine ⟨_, exec_editionCommit_major hx he hn hw hm, ?_⟩
    rw [hd.ed]
    exact ⟨rfl, he, rfl⟩
  · have hd := takeEdTicket_edited s ring (fun d => { d with staged := none, pendingMinor := some (e, ring, x.tag) }) fun _ _ => rfl
    refine ⟨_, exec_editionCommit_minor hx he hn hw hm hp hc, ?_⟩
    rw [hd.ed]
    exact ⟨rfl, rfl, rfl, rfl⟩
  · have hd := (dropMinor_edited s).atOnce (AtOnce.edEnd _ ring x 0)
    refine ⟨_, exec_editionRevert_drop hx hp, ?_⟩
    rw [hd.ed]
    exact ⟨rfl, rfl, rfl, rfl⟩
  · have hd := takeEdTicket_edited s ring (fun d => d.setWork (.rechecking ring x.tag true)) fun _ _ => rfl
    refine ⟨_, exec_editionRevert_kept hx hp hw hk, ?_⟩
    rw [hd.ed]
    exact ⟨rfl, rfl⟩
  · intro held good
    refine ⟨fun hbad => ?_, fun m hgood hm => ?_⟩
    · obtain ⟨f, hf⟩ := Option.ne_none_iff_exists'.1 fun h => hbad (recheck_none.1 h)
      have hd := ((Edited.of_notified (Notified.edNotice s e 0x0012 f.1 e.head.edition f.2.1 f.2.2)).setEd
        (fun d => d.setWork .idle) fun _ _ => rfl).atOnce (AtOnce.edFinish _ ring tag (if rev then 0x22 else 0x21) 0x0501)
      refine ⟨_, exec_recheckDone_failed image minors hs hw he hf, ?_⟩
      rw [hd.ed]
      exact ⟨rfl, rfl, rfl, rfl, hd.cores, hd.ports⟩
    · let u := s.setEd fun d => d.setWork (.draining ring tag rev e held)
      have hu : OnlyIcu { s with ed := s.ed.setWork (.draining ring tag rev e held) } u :=
        OnlyIcu.setEd s fun d => d.setWork (.draining ring tag rev e held)
      refine ⟨_, exec_recheckDone_passed image minors hs hw he hm (recheck_none.2 hgood), ?_⟩
      have hn : Notified u (State.sample (u.setDrains m)) := (setDrains_notified u m).trans (Notified.sample _)
      refine ⟨?_, ?_, hn.cores.trans hu.cores, fun i hi hheld => ?_⟩
      · rw [hn.ed, hu.ed]; rfl
      · rw [hn.ed, hu.ed]; rfl
      · have hi' : u.imp i = s.imp i := hu.imp i
        show ((State.sample (u.setDrains m)).imp i).serve.drain = some (s.drainAt m i)
        rw [(OnlyIcu.sample _).imp, setDrains_imp u m hi ((heldOrNone_congr hi').trans hheld), drainAt_congr hi']

end Sys2Proof.Machine
end


section
/-!
The point of no return (R197, R240, R500, R501, R506): what each of its steps puts in force, and that no later one takes it back.
-/
namespace Sys2Proof.Machine

open Sys2Proof

/-! Steps that change what stands: the same change of what stood. -/

namespace Standing

variable {b s : State} (h : Standing b s)
include h

theorem setEd (f : Editions → Editions) (hf : ∀ d x, f { d with fences := x } = { f d with fences := x }) :
    Standing { b with ed := f b.ed } (s.setEd f) := by
  have h1 : Standing { b with ed := f b.ed } { s with ed := f s.ed } := by
    refine ⟨?_, h.boot, h.power, h.stopped, h.gens, h.imp, h.watch, h.pend⟩
    show f s.ed = { f b.ed with fences := (f s.ed).fences }
    have hd := (congrArg f h.ed).trans (hf b.ed s.ed.fences)
    rw [hd]
  unfold State.setEd
  extract_lets u
  split
  · exact h1
  · exact h1.pulse 72

theorem setBoot (x : Boot) : Standing { b with boot := x } { s with boot := x } :=
  ⟨h.ed, rfl, h.power, h.stopped, h.gens, h.imp, h.watch, h.pend⟩

/-- A change of power that leaves Rest and the events as they are. -/
theorem setPower (f : Power → Power) (hf : ∀ p x, f { p with events := x } = { f p with events := x }) (hr : ∀ p, (f p).rest = p.rest) :
    Standing { b with power := f b.power } { s with power := f s.power } where
  ed := h.ed
  boot := h.boot
  power := by
    show f s.power = { f b.power with events := (f s.power).events }
    have hd := (congrArg f h.power).trans (hf b.power s.power.events)
    rw [hd]
  stopped := h.stopped
  gens := h.gens
  imp := h.imp
  watch := fun hb => h.watch (by simpa [State.inRest, hr] using hb)
  pend := fun hb => h.pend (by simpa [State.inRest, hr] using hb)

theorem onlyT0 {t : State} (ho : OnlyT0 s t) : Standing b t := by
  rw [ho]
  exact ⟨h.ed, h.boot, h.power, h.stopped, h.gens, h.imp, h.watch, h.pend⟩

theorem newGenerations : Standing b.newGenerations s.newGenerations :=
  ⟨h.ed, h.boot, h.power, h.stopped, congrArg (· + 1) h.gens, h.imp, h.watch, h.pend⟩

/-- An imprint's record replaced by one whose configuration and steps come from the old ones. -/
theorem putImp (i : Nat) (f : Imprint → Imprint)
    (hf : ∀ x y, x.cfg = y.cfg → x.steps = y.steps → (f x).cfg = (f y).cfg ∧ (f x).steps = (f y).steps) :
    Standing (b.modImp i f) (s.modImp i f) := by
  refine ⟨h.ed, h.boot, h.power, h.stopped, h.gens, fun k => ?_, h.watch, h.pend⟩
  obtain ⟨hc, hs⟩ := h.imp k
  rw [State.imp_modImp, State.imp_modImp]
  split
  · next hk => rw [← hk]; exact hf _ _ hc hs
  · exact ⟨hc, hs⟩

end Standing

/-! Step 1: a pending minor edition is dropped, and the edition is the one in force. -/

theorem dropMinor_standing (s : State) : Standing { s with ed := s.ed.noMinor } s.dropMinor := by
  have K := standingKept { s with ed := s.ed.noMinor }
  unfold State.dropMinor
  split
  · next hp =>
    rw [show s.ed.noMinor = s.ed by unfold Editions.noMinor; rw [← hp]]
    exact Standing.refl s
  · next e ring tag hp =>
    extract_lets i u
    have hu : Standing { s with ed := s.ed.noMinor } u := (Standing.refl s).setEd Editions.noMinor fun _ _ => rfl
    clear_value u
    exact ((K.pfEvent (K.event hu i _) _).atOnce (AtOnce.recordNow _ 0 ring _)).atOnce (AtOnce.pfFences _)

/-- The editions once an edition is in force. -/
def Editions.passed (d : Editions) (e : Edition) (minors : List Edition) (number : Nat) (rev : Bool) (work : EdWork) : Editions :=
  { d with inForce := some e, minors := minors, number := number, kept := d.inForce, keptMinors := d.minors,
           keptNumber := d.number, staged := if rev then d.staged else none, work := work }

/-! Steps 2 to 4: the core map, the imprints, their slices and channels. -/

/-- The editions with a core map in force, no physical core disabled. -/
def Editions.mapped (d : Editions) (coreMap : List Nat) : Editions := { d with coreMap := coreMap, disabled := [] }

/-- Power with another voltage set-point. -/
def Power.withSetpoint (p : Power) (v : Nat) : Power := { p with setpoint := v }

theorem newMap_standing {b s : State} (h : Standing b s) (m : Major) :
    Standing { b with ed := b.ed.mapped m.coreMap, power := b.power.withSetpoint (Config.vFuse.toNat + m.power.guard) } (s.newMap m) := by
  unfold State.newMap
  extract_lets gone s1 v src srcp s2 s3
  have h1 : Standing b s1 := (standingKept b).foldl (fun _ c h => (standingKept b).modCore (h.onlyT0 (copySlice_only _ c)) c _) h gone
  clear_value s1
  have h2 : Standing { b with ed := b.ed.mapped m.coreMap, power := b.power.withSetpoint v } s2 := by
    have hp := h1.setPower (fun p => p.withSetpoint v) (fun _ _ => rfl) fun _ => rfl
    refine ⟨?_, hp.boot, hp.power, hp.stopped, hp.gens, hp.imp, hp.watch, hp.pend⟩
    show s1.ed.mapped m.coreMap = { b.ed.mapped m.coreMap with fences := s1.ed.fences }
    rw [h1.ed]
    rfl
  clear_value s2
  have K := standingKept { b with ed := b.ed.mapped m.coreMap, power := b.power.withSetpoint v }
  exact K.ite (K.emit h2 _) (K.foldl (fun _ g h => K.modServe h g.entry.imprint _) (K.emit h2 _) m.imprints)

/-- The boot domain with a key drawn for an imprint. -/
def Boot.drawKey (x : Boot) (i : Nat) : Boot := { x with drbg := x.drbg + 1, keySlots := spPut 0 x.keySlots i (x.drbg + 1) }

/-- The boot domain without an imprint's key. -/
def Boot.dropKey (x : Boot) (i : Nat) : Boot := { x with keySlots := spErase x.keySlots i }

/-- One imprint's step of R500 (R498, R499). -/
def State.newImprint (m : Major) (carried : List Nat) (s : State) (i : Nat) : State :=
  match m.imprints.find? fun g => g.entry.imprint == i with
  | some g =>
    if carried.contains i then s.modImp i (Imprint.carry g)
    else ({ s with boot := s.boot.drawKey i }).modImp i (Imprint.create g)
  | none => ({ s with boot := s.boot.dropKey i }).modImp i Imprint.finish

theorem newImprints_eq (s : State) (m : Major) (carried : List Nat) :
    s.newImprints m carried = (List.range 16).foldl (State.newImprint m carried) s := rfl

theorem newImprint_standing {b s : State} (h : Standing b s) (m : Major) (carried : List Nat) (i : Nat) :
    Standing (State.newImprint m carried b i) (State.newImprint m carried s i) := by
  unfold State.newImprint
  rw [h.boot]
  split
  · split
    · exact h.putImp i _ fun _ _ _ hs => ⟨rfl, hs⟩
    · exact (h.setBoot _).putImp i _ fun _ _ _ hs => ⟨rfl, hs⟩
  · exact (h.setBoot _).putImp i _ fun _ _ _ hs => ⟨rfl, hs⟩

theorem newImprints_standing {b s : State} (h : Standing b s) (m : Major) (carried : List Nat) :
    Standing (b.newImprints m carried) (s.newImprints m carried) := by
  rw [newImprints_eq, newImprints_eq]
  generalize List.range 16 = is
  induction is generalizing b s with
  | nil => exact h
  | cons i is ih => exact ih (newImprint_standing h m carried i)

section
variable (m : Major) (carried : List Nat) (s : State) (i : Nat)

theorem newImprint_ed : (State.newImprint m carried s i).ed = s.ed ∧ (State.newImprint m carried s i).fab = s.fab := by
  unfold State.newImprint
  split
  · split <;> exact ⟨rfl, rfl⟩
  · exact ⟨rfl, rfl⟩

theorem newImprint_same : ((State.newImprint m carried s i).imp i).cfg = (m.imprints.find? fun g => g.entry.imprint == i) := by
  unfold State.newImprint
  split
  · next g hg =>
    rw [hg]
    split <;> rw [State.imp_modImp, if_pos rfl] <;> rfl
  · next hg =>
    rw [hg, State.imp_modImp, if_pos rfl]
    rfl

theorem newImprint_steps (k : Nat) : ((State.newImprint m carried s i).imp k).steps = (s.imp k).steps := by
  have hf : ∀ (u : State) (f : Imprint → Imprint), (∀ x, (f x).steps = x.steps) → ((u.modImp i f).imp k).steps = (u.imp k).steps := by
    intro u f hf
    rw [State.imp_modImp]
    split
    · next hk => rw [hf, hk]
    · rfl
  unfold State.newImprint
  split
  · split
    · exact hf _ _ fun _ => rfl
    · exact hf _ _ fun _ => rfl
  · exact hf _ _ fun _ => rfl

theorem newImprint_other {k : Nat} (h : k ≠ i) : (State.newImprint m carried s i).imp k = s.imp k
    ∧ spGet 0 (State.newImprint m carried s i).boot.keySlots k = spGet 0 s.boot.keySlots k := by
  unfold State.newImprint
  split
  · split
    · exact ⟨State.imp_modImp_ne _ _ _ _ h, rfl⟩
    · exact ⟨State.imp_modImp_ne { s with boot := s.boot.drawKey i } _ _ _ h, spGet_spPut_ne 0 s.boot.keySlots i k (s.boot.drbg + 1) h⟩
  · exact ⟨State.imp_modImp_ne { s with boot := s.boot.dropKey i } _ _ _ h, (spGet_spErase 0 s.boot.keySlots i k).trans (if_neg h)⟩

theorem newImprint_key_absent (h : (m.imprints.find? fun g => g.entry.imprint == i) = none) :
    spGet 0 (State.newImprint m carried s i).boot.keySlots i = 0 := by
  unfold State.newImprint
  rw [h]
  exact (spGet_spErase 0 s.boot.keySlots i i).trans (if_pos rfl)

theorem newImprint_key_carried {g : ImprintCfg} (h : (m.imprints.find? fun g => g.entry.imprint == i) = some g)
    (hc : carried.contains i = true) : (State.newImprint m carried s i).boot = s.boot := by
  unfold State.newImprint
  rw [h]
  dsimp only
  rw [if_pos hc]
  rfl

theorem newImprint_key_created {g : ImprintCfg} (h : (m.imprints.find? fun g => g.entry.imprint == i) = some g)
    (hc : carried.contains i = false) : spGet 0 (State.newImprint m carried s i).boot.keySlots i ≠ 0 := by
  unfold State.newImprint
  rw [h]
  dsimp only
  rw [if_neg (by rw [hc]; decide)]
  refine ne_of_eq_of_ne (spGet_spPut_same 0 s.boot.keySlots i (s.boot.drbg + 1)) ?_
  omega

end

/-- A fold reaches what each step keeps and one of its steps brings about. -/
theorem foldl_reaches {α β : Type} {f : β → α → β} {p : β → Prop} (hk : ∀ s x, p s → p (f s x)) {a : α} (ha : ∀ s, p (f s a))
    {xs : List α} (h : a ∈ xs) (s : β) : p (xs.foldl f s) := by
  induction xs generalizing s with
  | nil => cases h
  | cons x xs ih =>
    rcases List.mem_cons.1 h with rfl | h
    · exact List.foldlRecOn xs f (ha s) fun s hs x _ => hk s x hs
    · exact ih h _

section
variable (m : Major) (carried : List Nat) (s : State)

theorem newImprints_ed : (s.newImprints m carried).ed = s.ed ∧ (s.newImprints m carried).fab = s.fab := by
  rw [newImprints_eq]
  exact List.foldlRecOn (motive := fun u => u.ed = s.ed ∧ u.fab = s.fab) _ _ ⟨rfl, rfl⟩ fun u ⟨h1, h2⟩ i _ =>
    ⟨(newImprint_ed m carried u i).1.trans h1, (newImprint_ed m carried u i).2.trans h2⟩

theorem newImprints_steps (k : Nat) : ((s.newImprints m carried).imp k).steps = (s.imp k).steps := by
  rw [newImprints_eq]
  exact List.foldlRecOn (motive := fun u => (u.imp k).steps = (s.imp k).steps) _ _ rfl fun u h i _ =>
    (newImprint_steps m carried u i k).trans h

variable {i : Nat} (hi : i < 16)
include hi

theorem newImprints_cfg : ((s.newImprints m carried).imp i).cfg = (m.imprints.find? fun g => g.entry.imprint == i) := by
  rw [newImprints_eq]
  refine foldl_reaches (p := fun u => (u.imp i).cfg = _) (fun u k h => ?_) (fun u => newImprint_same m carried u i) (List.mem_range.2 hi) s
  by_cases hk : i = k
  · subst hk; exact newImprint_same m carried u i
  · rw [(newImprint_other m carried u k hk).1]; exact h

theorem newImprints_key_absent (h : (m.imprints.find? fun g => g.entry.imprint == i) = none) :
    spGet 0 (s.newImprints m carried).boot.keySlots i = 0 := by
  rw [newImprints_eq]
  refine foldl_reaches (p := fun u => spGet 0 u.boot.keySlots i = 0) (fun u k hu => ?_)
    (fun u => newImprint_key_absent m carried u i h) (List.mem_range.2 hi) s
  by_cases hk : i = k
  · subst hk; exact newImprint_key_absent m carried u i h
  · rw [(newImprint_other m carried u k hk).2]; exact hu

theorem newImprints_key_created {g : ImprintCfg} (h : (m.imprints.find? fun g => g.entry.imprint == i) = some g)
    (hc : carried.contains i = false) : spGet 0 (s.newImprints m carried).boot.keySlots i ≠ 0 := by
  rw [newImprints_eq]
  refine foldl_reaches (p := fun u => spGet 0 u.boot.keySlots i ≠ 0) (fun u k hu => ?_)
    (fun u => newImprint_key_created m carried u i h hc) (List.mem_range.2 hi) s
  by_cases hk : i = k
  · subst hk; exact newImprint_key_created m carried u i h hc
  · rw [(newImprint_other m carried u k hk).2]; exact hu

omit hi in
theorem newImprints_key_carried {g : ImprintCfg} (h : (m.imprints.find? fun g => g.entry.imprint == i) = some g)
    (hc : carried.contains i = true) : spGet 0 (s.newImprints m carried).boot.keySlots i = spGet 0 s.boot.keySlots i := by
  rw [newImprints_eq]
  refine List.foldlRecOn (motive := fun u : State => spGet 0 u.boot.keySlots i = spGet 0 s.boot.keySlots i) _ _ rfl fun u hu k _ => ?_
  by_cases hk : i = k
  · subst hk
    rw [newImprint_key_carried m carried u i h hc]
    exact hu
  · rw [(newImprint_other m carried u k hk).2]
    exact hu

end

/-! Steps 4 and 5: contents and routes. -/

theorem zeroFor_standing {b s : State} (h : Standing b s) (created : List ImprintCfg) : Standing b (s.zeroFor created) := by
  unfold State.zeroFor
  extract_lets cs src u
  have hu : Standing b u := ⟨h.ed, h.boot, h.power, h.stopped, h.gens, h.imp, h.watch, h.pend⟩
  exact (standingKept b).foldl (fun _ c h => (standingKept b).modCh h c _ fun _ => rfl) hu _

theorem loadStores_standing {b s : State} (h : Standing b s) (m : Major) : Standing b (s.loadStores m) := by
  unfold State.loadStores
  refine (standingKept b).foldl (fun u c h => ?_) h _
  split <;> exact (standingKept b).modCore h c _

theorem newRoutes_standing {b s : State} (h : Standing b s) (m : Major) : Standing b (s.newRoutes m) := by
  have K := standingKept b
  unfold State.newRoutes
  extract_lets s1 s2 s3
  have h1 : Standing b s1 := K.foldl (fun _ p h => K.ite (K.settlePort h p) (K.ite (K.modPort h p _) h)) h _
  clear_value s1
  have h2 : Standing b s2 := K.foldl (fun u g h => h.modImp g.entry.imprint (fun x => { x with wire := u.wireFor m.topology g }) fun _ => ⟨rfl, rfl⟩) h1
    m.imprints
  clear_value s2
  have h3 : Standing b s3 := K.foldl (fun _ p h => K.ite (K.pump (K.modPort h p _) p) h) h2 _
  exact K.foldl (fun _ g h => K.fixPorts h _) h3 _

/-! Step 6 and the rest: measurements, the minor editions that come back, and the functions that no opening will serve. -/

theorem extend_standing {b s : State} (h : Standing b s) (k : Nat) (d : BitVec 384) :
    ∃ x : Boot, x.keySlots = b.boot.keySlots ∧ Standing { b with boot := x } (s.extend k d) :=
  ⟨(s.extend k d).boot, by rw [← h.boot]; rfl, h.setBoot _⟩

theorem putMinor_standing {b s : State} (h : Standing b s) (e : Edition) :
    ∃ x : Boot, x.keySlots = b.boot.keySlots ∧ Standing { b with boot := x } (s.putMinor e) := by
  unfold State.putMinor
  split
  · exact ⟨b.boot, rfl, h⟩
  · next m _ => exact extend_standing ((standingKept b).modServe h _ _) _ _

theorem putMinors_standing {b s : State} (h : Standing b s) (es : List Edition) :
    ∃ x : Boot, x.keySlots = b.boot.keySlots ∧ Standing { b with boot := x } (es.foldl State.putMinor s) := by
  induction es generalizing b s with
  | nil => exact ⟨b.boot, rfl, h⟩
  | cons e es ih =>
    obtain ⟨x, hx, h1⟩ := putMinor_standing h e
    obtain ⟨y, hy, h2⟩ := ih h1
    exact ⟨y, hy.trans hx, h2⟩

/-- The VF of an imprint that is Held or has no edition takes its ring table and its tickets at once. -/
def State.serveAtOnce (s : State) (i : Nat) : State :=
  ((s.takeTable (i + 1)).fn (i + 1)).submissions.foldl (fun s k =>
    s.admitAll (i + 1) k ((((s.fn (i + 1)).ring k).map fun r => r.waiting.length).getD 0)) (s.takeTable (i + 1))

theorem Standing.serveAtOnce {b s : State} (h : Standing b s) (is : List Nat) (hi : ∀ i ∈ is, s.heldOrNone i = true) :
    Standing b (is.foldl State.serveAtOnce s) := by
  induction is generalizing s with
  | nil => exact h
  | cons i is ih =>
    have ht : (s.takeTable (i + 1)).atOnce (i + 1) = true := hi i (by simp)
    have ha := AtOnce.admitRings ht (fun s k => (((s.fn (i + 1)).ring k).map fun r => r.waiting.length).getD 0)
      ((s.takeTable (i + 1)).fn (i + 1)).submissions
    exact ih (((standingKept b).takeTable h (i + 1)).atOnce ha) fun k hk => (ha.heldOrNone k).trans (hi k (by simp [hk]))

/-- What the passing of an edition leaves: its editions but for the fences, keys, entries and step counts as after `newImprints`, and the next
generation. -/
structure Passed (s : State) (m : Major) (carried : List Nat) (d : Editions) (t : State) : Prop where
  ed : t.ed = { d with fences := t.ed.fences }
  keys : t.boot.keySlots = (s.newImprints m carried).boot.keySlots
  imp : ∀ k, (t.imp k).cfg = ((s.newImprints m carried).imp k).cfg ∧ (t.imp k).steps = ((s.newImprints m carried).imp k).steps
  gens : t.fab.gens = s.fab.gens + 1

/-- The imprints of the edition in force that a new one carries (R498). -/
def State.carriedBy (s : State) (m : Major) : List Nat := (m.imprints.filter s.carried).map fun g => g.entry.imprint

/-- The steps of R500 once the edition is in force: reports, slices, imprints, stores and routes. -/
def State.passCores (s : State) (m : Major) (carried : List Nat) : State :=
  let s := { s with reports := s.reports.filter fun r => carried.contains r.imprint || decide (16 ≤ r.imprint) }
  let s := (((s.newMap m).newImprints m carried).zeroFor (m.imprints.filter fun g => !carried.contains g.entry.imprint)).loadStores m
  s.newRoutes m

/-- The last step of R500 and what follows it. -/
def State.passRest (s : State) (e : Edition) (minors : List Edition) (m : Major) : State :=
  let s := s.newGenerations
  let s := { s with power := { s.power with rampUp := m.power.rampUp, rampDown := m.power.rampDown } }
  let s := if s.anyRuns then s else s.flushPower
  let s := (s.extend 5 e.digest).extend 6 (Config.sha384 (coreMapBytes m.coreMap))
  let s := minors.foldl State.putMinor s
  State.sample (((List.range 16).filter fun i => s.heldOrNone i).foldl State.serveAtOnce s)

theorem pass_eq (s : State) (ring tag : Nat) (rev : Bool) (e : Edition) (minors : List Edition) (m : Major) :
    ∃ n w, s.pass ring tag rev e minors m =
      (((s.dropMinor.setEd fun d => d.passed e minors n rev w).passCores m (s.carriedBy m)).passRest e minors m) := ⟨_, _, rfl⟩

theorem passCores_standing {b s : State} (h : Standing b s) (m : Major) (carried : List Nat) :
    Standing (({ b with ed := b.ed.mapped m.coreMap,
                        power := b.power.withSetpoint (Config.vFuse.toNat + m.power.guard) } : State).newImprints m carried)
      (s.passCores m carried) := by
  unfold State.passCores
  extract_lets s1 s2
  have h1 : Standing b s1 := h.step rfl rfl rfl rfl rfl (fun _ => ⟨rfl, rfl⟩) (fun _ => ⟨rfl, rfl⟩) fun _ _ hn => hn
  clear_value s1
  exact newRoutes_standing (loadStores_standing (zeroFor_standing (newImprints_standing (newMap_standing h1 m) m carried) _) m) m

theorem passRest_standing {b s : State} (h : Standing b s) (e : Edition) (minors : List Edition) (m : Major) :
    ∃ (x : Boot) (p : Power), x.keySlots = b.boot.keySlots
      ∧ Standing { b.newGenerations with power := p, boot := x } (s.passRest e minors m) := by
  unfold State.passRest
  extract_lets src s1 srcp s2 s3 s4 s5
  have h1 : Standing b.newGenerations s1 := h.newGenerations
  clear_value s1
  have h2 := h1.setPower (fun p => { p with rampUp := m.power.rampUp, rampDown := m.power.rampDown }) (fun _ _ => rfl) fun _ => rfl
  change Standing _ s2 at h2
  clear_value s2
  have h3 : Standing _ s3 := (standingKept _).ite h2 ((standingKept _).flushPower h2)
  clear_value s3
  obtain ⟨x, hx, h4a⟩ := extend_standing h3 5 e.digest
  obtain ⟨y, hy, h4⟩ := extend_standing h4a 6 (Config.sha384 (coreMapBytes m.coreMap))
  obtain ⟨z, hz, h5⟩ := putMinors_standing h4 minors
  exact ⟨z, _, (hz.trans hy).trans hx, (Standing.serveAtOnce h5 _ fun i hi => (List.mem_filter.1 hi).2).sample⟩

theorem pass_settle_passed (s : State) (ring tag : Nat) (rev : Bool) (e : Edition) (minors : List Edition) (m : Major) :
    ∃ (n : Nat) (w : EdWork) (u : State), u.boot = s.boot ∧ u.imprints = s.imprints ∧ u.fab = s.fab
      ∧ Passed u m (s.carriedBy m) ((s.ed.noMinor.passed e minors n rev w).mapped m.coreMap)
        (s.pass ring tag rev e minors m).settle := by
  obtain ⟨n, w, he⟩ := pass_eq s ring tag rev e minors m
  rw [he]
  have h2 : Standing { s with ed := s.ed.noMinor.passed e minors n rev w } (s.dropMinor.setEd fun d => d.passed e minors n rev w) :=
    (dropMinor_standing s).setEd (fun d => d.passed e minors n rev w) fun _ _ => rfl
  generalize s.dropMinor.setEd _ = t at h2
  have h3 := passCores_standing h2 m (s.carriedBy m)
  generalize t.passCores m _ = t at h3
  let u : State := { s with ed := (s.ed.noMinor.passed e minors n rev w).mapped m.coreMap,
                            power := s.power.withSetpoint (Config.vFuse.toNat + m.power.guard) }
  change Standing (u.newImprints m (s.carriedBy m)) t at h3
  obtain ⟨hed, hfab⟩ := newImprints_ed m (s.carriedBy m) u
  refine ⟨n, w, u, rfl, rfl, rfl, ?_⟩
  change Passed u m (s.carriedBy m) u.ed _
  clear_value u
  obtain ⟨v, hv⟩ : ∃ v, v = u.newImprints m (s.carriedBy m) := ⟨_, rfl⟩
  rw [← hv] at h3 hed hfab
  obtain ⟨x, p, hx, h4⟩ := passRest_standing h3 e minors m
  have h5 := (standingKept _).settle h4
  refine ⟨?_, ?_, fun k => ?_, ?_⟩
  · rw [← hed]; exact h5.ed
  · rw [← hv]; exact (congrArg Boot.keySlots h5.boot).trans hx
  · rw [← hv]; exact h5.imp k
  · rw [← hfab]; exact h5.gens

/-! The end of a commit (R501). -/

theorem AtOnce.writeEvents (s : State) (f n : Nat) (es : List (List Byte)) : AtOnce s (s.writeEvents f n es) := by
  unfold State.writeEvents
  split
  · exact modFn s f _ fun _ => rfl
  · exact (writeRing s f _ _).trans (modFn _ f _ fun _ => rfl)

theorem exec_commitDone {s : State} {ring tag carried created other : Nat} {rev : Bool} (micros : Nat) (hs : s.stopped = false)
    (hw : s.ed.work = .applying ring tag rev carried created other) : ∃ t, exec (.editionCommitDone micros) s = .next t
      ∧ Edited s (s.ed.setWork .idle) t ∧ t.imprints = s.imprints := by
  show ∃ t, execEditionCommitDone micros s = .next t ∧ _
  unfold execEditionCommitDone
  rw [hw]
  refine ⟨_, if_neg (by simp [hs]), ?_, ?_⟩
  · exact ((Edited.of_notified (Notified.pfEvent s _)).setEd (fun d => d.setWork .idle) fun _ _ => rfl).atOnce
      (AtOnce.edFinish _ _ _ _ _)
  · exact (AtOnce.edFinish _ _ _ _ _).imprints.trans ((OnlyIcu.setEd _ _).imprints.trans (AtOnce.writeEvents s 0 0 _).imprints)

theorem exec_pointOfNoReturn {s : State} {ring tag : Nat} {rev : Bool} {e : Edition} {minors : List Edition} {m : Major}
    (hs : s.stopped = false) (hw : s.ed.work = .draining ring tag rev e minors) (hm : e.body = .major m) (hd : s.allDrained = true) :
    exec .pointOfNoReturn s = .next (s.pass ring tag rev e minors m).settle := by
  obtain ⟨bytes, body⟩ := e
  obtain rfl : body = .major m := hm
  show execPointOfNoReturn s = _
  unfold execPointOfNoReturn
  rw [hw]
  exact if_neg (by simp [hs, hd])

theorem mem_carriedBy {s : State} {m : Major} {i : Nat} {g : ImprintCfg} (h : (m.imprints.find? fun g => g.entry.imprint == i) = some g)
    (hc : s.carried g = true) : (s.carriedBy m).contains i = true := by
  have hi : g.entry.imprint = i := by simpa using List.find?_some h
  rw [List.contains_iff_mem]
  exact List.mem_map.2 ⟨g, List.mem_filter.2 ⟨List.mem_of_find?_eq_some h, hc⟩, hi⟩

theorem not_mem_carriedBy {s : State} {m : Major} {i : Nat} (h : (m.imprints.all fun g => g.entry.imprint != i || !s.carried g) = true) :
    (s.carriedBy m).contains i = false := by
  rw [← Bool.not_eq_true, List.contains_iff_mem]
  intro hm
  obtain ⟨g, hg, hi⟩ := List.mem_map.1 hm
  obtain ⟨hg, hc⟩ := List.mem_filter.1 hg
  have := List.all_eq_true.1 h g hg
  simp [hi, hc] at this

/-- Settles O45: what each step of the passing leaves stands through all that follow it, and the end of a commit changes its work alone. -/
theorem pointOfNoReturnPutsTheEditionInForce : Obligations.PointOfNoReturnPutsTheEditionInForce := by
  unfold Obligations.PointOfNoReturnPutsTheEditionInForce
  intro s hs
  refine ⟨fun ring tag rev e minors m hw hm hd => ?_, fun ring tag micros carried created other rev hw => ?_⟩
  · obtain ⟨n, w, u, hboot, himp, hfab, hp⟩ := pass_settle_passed s ring tag rev e minors m
    have hed := hp.ed
    have hcfg : ∀ i, u.imp i = s.imp i := fun i => by unfold State.imp; rw [himp]
    refine ⟨_, exec_pointOfNoReturn hs hw hm hd, ?_, ?_, ?_, ?_, ?_, ?_, ?_, fun hrev => ?_, fun i hi => ?_, fun i hi hn => ?_,
      fun i g hi hg hc => ⟨?_, ?_⟩, fun i g hi hg hc => ?_, ?_⟩
    · rw [hed]; rfl
    · rw [hed]; rfl
    · rw [hed]; rfl
    · rw [hed]; rfl
    · rw [hed]; rfl
    · rw [hed]; rfl
    · rw [hed]; rfl
    · rw [hed, hrev]; rfl
    · exact (hp.imp i).1.trans (newImprints_cfg m _ u hi)
    · rw [hp.keys]
      exact newImprints_key_absent m _ u hi (List.find?_eq_none.2 fun g hg => by simpa using List.all_eq_true.1 hn g hg)
    · rw [hp.keys, newImprints_key_carried m _ u hg (mem_carriedBy hg hc), hboot]
    · rw [(hp.imp i).2, newImprints_steps, hcfg]
    · rw [hp.keys]
      exact newImprints_key_created m _ u hi hg (not_mem_carriedBy hc)
    · rw [hp.gens, hfab]
  · obtain ⟨t, ht, hd, hi⟩ := exec_commitDone micros hs hw
    refine ⟨t, ht, ?_, ?_, ?_, hi, hd.cores, hd.t0⟩
    · rw [hd.ed]; rfl
    · rw [hd.ed]; rfl
    · rw [hd.ed]; rfl

end Sys2Proof.Machine
end


section
/-!
A quoin whose release starts a transfer with a lender although no folio's transfer was with one (R251, R314, R521).
-/
namespace Sys2Proof.Machine

open Sys2Proof

/-! A folio table that holds one folio id twice: first a folio of a lent class with no transfer, behind it one of a host class whose prefetch
has failed. Issuing that prefetch again puts it on the first, and starting it finds the lender's stream dead: cause 1 of R521, and the
impression that the quoin was to go on with is abandoned. -/

/-- A layer without entries. -/
def bareLayer : LayerCfg := { g := 1, d := 0, kv := .bf16, heads := 0, window := 0, headroom := 0, sMin := 0, cls := 0 }

/-- A middle quoin that waits for no flag. -/
def bareQuoin : QuoinEntry := ⟨.mid, 0, 1, []⟩

/-- One job on core 0, one layer, class 0 in a lender's region and class 1 in host memory. -/
def lentCfg : ImprintCfg :=
  { entry := ⟨0, false, false, 0, 0, 1, 0, 0, 0, 0, 0, 0, 0, 0, 0⟩, cores := [0], channels := [], t2 := [.lent 1 0 0, .host 0 0],
    serving := ⟨0, 0, 0, 0, 0, 0, 0, 0, 0, [], 0, 0, [], 0⟩, density := ⟨.flag, 0, 0, 0, 0, 0, 0⟩, folio := [],
    formats := ⟨[], [], [], [], [bareLayer], [], 0⟩, schedule := ⟨false, 1, [bareQuoin], [⟨0, 0, 0, []⟩], [], 0⟩,
    routes := ⟨[], [], 0, 0, .none, 0, [], 0, 0⟩, placement := none, adapters := none }

/-- A folio whose home is in T2. -/
def awayFolio (cls : Nat) (move : Option Move) : Folio :=
  ⟨cls, 0, 0, 0, 2, 0, 0, .committed, 0, false, 0, 0, 0, 0, [], move, none, none, none⟩

/-- A prefetch from T2 that a window has carried and that has failed. -/
def failedPrefetch : Move := ⟨false, 0, 0, false, true, true, true, true, 0, []⟩

/-- Imprint 0 runs, job 0 stands at its middle quoin, folio 5 is in the table twice, and the stream to the lender is dead. -/
def twinState : State :=
  { State.reset with
    cores := [(0, { Core.empty with streams := [(0, [])], jobs := [(0, { CoreJob.fresh with atQuoin := some 1 })] })]
    imprints := [(0, { Imprint.absent with cfg := some lentCfg, serve := { Serve.fresh with
      phase := .running, folios := [(5, some (awayFolio 0 none)), (5, some (awayFolio 1 (some failedPrefetch)))] } })]
    fab := { State.reset.fab with streams := [⟨0, 1, 0, 0, true, false, [], []⟩] } }

/-- The quoin at which job 0 of core 0 stands after a command. -/
def quoinAfter (o : Host.Outcome State Fault Refusal) : Option Nat :=
  match o with
  | .next t => ((t.core 0).job 0).atQuoin
  | _ => none

/-- Of the folios in that table only the one of the host class has a transfer. -/
theorem twinState_unlent : ∀ x ∈ (twinState.imp 0).serve.folioList, x.2.move.isSome = true →
    ∀ e b n, twinState.t2Region 0 x.2.cls ≠ some (.lent e b n) := by
  intro x hx hm e b n
  have hx : x ∈ [(5, awayFolio 0 none), (5, awayFolio 1 (some failedPrefetch))] := hx
  have hregion : twinState.t2Region 0 1 = some (.host 0 0) := rfl
  simp only [List.mem_cons, List.not_mem_nil, or_false] at hx
  rcases hx with rfl | rfl
  · cases hm
  · exact fun h => nomatch hregion.symm.trans h

/-- Refutes O39: the release of `twinState`'s quoin sends a lost operation to the lender and so abandons the impression, which leaves job 0 at
its OPEN quoin. -/
theorem not_quoinsReleaseTheirCores : ¬ Obligations.QuoinsReleaseTheirCores := by
  intro h
  obtain ⟨hrelease, -⟩ := h 0 twinState rfl
  obtain ⟨t, ht, hfree⟩ := hrelease 0 bareQuoin 0 none rfl rfl rfl rfl rfl rfl rfl rfl twinState_unlent
  have hquoin : quoinAfter (exec (.quoinRelease 0 0 0 none) twinState) = some 0 := by decide +kernel
  have hnone : ((t.core 0).job 0).atQuoin = none := (hfree 0 (by decide)).1
  rw [ht] at hquoin
  exact absurd (hnone.symm.trans hquoin) (by decide)

end Sys2Proof.Machine
end


section
/-!
What stands while an opening or a commit is done (R315, R356): nothing waits to be settled, and of each imprint its entry, GO, the impression's
number and the members that recovery has removed.
-/
namespace Sys2Proof.Machine

open Sys2Proof

/-- What settles an outcome and addresses packets, as in a state `b`: causes met, packets to the package itself, its endpoint. -/
structure Quiet (b s : State) : Prop where
  causes : s.causes = b.causes
  loop : s.fab.loop = b.fab.loop
  endpoint : s.fab.endpoint = b.fab.endpoint

theorem Quiet.refl (b : State) : Quiet b b := ⟨rfl, rfl, rfl⟩

theorem Quiet.settle {b s : State} (h : Quiet b s) (hc : b.causes = []) (hl : b.fab.loop = []) : s.settle = s :=
  settle_idle (h.causes.trans hc) (h.loop.trans hl)

theorem Quiet.of_onlyIcu {b s t : State} (h : Quiet b s) (g : OnlyIcu s t) : Quiet b t :=
  ⟨g.causes.trans h.causes, by rw [g.fab]; exact h.loop, by rw [g.fab]; exact h.endpoint⟩

theorem Quiet.setEd {b s : State} (h : Quiet b s) (f : Editions → Editions) : Quiet b (s.setEd f) := by
  have h1 : Quiet b { s with ed := f s.ed } := ⟨h.causes, h.loop, h.endpoint⟩
  unfold State.setEd
  extract_lets t
  split
  · exact h1
  · exact h1.of_onlyIcu (OnlyIcu.pulse t 72)

theorem quietSteady (b : State) : Steady (Quiet b) where
  modCore := fun h _ _ => ⟨h.causes, h.loop, h.endpoint⟩
  modImp := fun h _ _ _ => ⟨h.causes, h.loop, h.endpoint⟩
  modFn := fun h _ _ => ⟨h.causes, h.loop, h.endpoint⟩
  modPort := fun h _ _ => ⟨h.causes, h.loop, h.endpoint⟩
  modCh := fun h _ _ _ => ⟨h.causes, h.loop, h.endpoint⟩
  setOut := fun h _ => ⟨h.causes, h.loop, h.endpoint⟩
  pulse := fun h n => h.of_onlyIcu (OnlyIcu.pulse _ n)
  onlyT0 := fun h ho _ => by
    rw [ho]
    exact ⟨h.causes, h.loop, h.endpoint⟩
  setFab := fun h _ _ he hl => ⟨h.causes, hl.trans h.loop, he.trans h.endpoint⟩
  setEvents := fun h _ => ⟨h.causes, h.loop, h.endpoint⟩
  setFences := fun h _ => ⟨h.causes, h.loop, h.endpoint⟩

/-- What stands from a state `b` on while an opening is done. -/
structure Still (b s : State) : Prop extends Quiet b s where
  stopped : s.stopped = b.stopped
  inForce : s.ed.inForce = b.ed.inForce
  cfg : ∀ k, (s.imp k).cfg = (b.imp k).cfg
  go : ∀ k, (s.imp k).go = (b.imp k).go
  impression : ∀ k, (s.imp k).run.impression = (b.imp k).run.impression
  removed : ∀ k, (s.imp k).serve.removed = (b.imp k).serve.removed

theorem Still.refl (b : State) : Still b b := ⟨Quiet.refl b, rfl, rfl, fun _ => rfl, fun _ => rfl, fun _ => rfl, fun _ => rfl⟩

/-- A change of none of these. -/
theorem Still.step {b s t : State} (h : Still b s) (hq : Quiet s t) (hs : t.stopped = s.stopped) (hf : t.ed.inForce = s.ed.inForce)
    (hi : ∀ k, (t.imp k).cfg = (s.imp k).cfg ∧ (t.imp k).go = (s.imp k).go ∧ (t.imp k).run.impression = (s.imp k).run.impression
      ∧ (t.imp k).serve.removed = (s.imp k).serve.removed) : Still b t where
  causes := hq.causes.trans h.causes
  loop := hq.loop.trans h.loop
  endpoint := hq.endpoint.trans h.endpoint
  stopped := hs.trans h.stopped
  inForce := hf.trans h.inForce
  cfg := fun k => (hi k).1.trans (h.cfg k)
  go := fun k => (hi k).2.1.trans (h.go k)
  impression := fun k => (hi k).2.2.1.trans (h.impression k)
  removed := fun k => (hi k).2.2.2.trans (h.removed k)

theorem Still.liveMembers {b s : State} (h : Still b s) (i : Nat) : s.liveMembers i = b.liveMembers i := by
  unfold State.liveMembers State.lockSet State.topology
  rw [h.inForce, h.cfg, h.endpoint, h.removed]

theorem Still.of_onlyIcu {b s t : State} (h : Still b s) (g : OnlyIcu s t) : Still b t :=
  h.step ((Quiet.refl s).of_onlyIcu g) g.stopped (by rw [g.ed]) fun k => by simp [g.imp]

theorem Still.modImp {b s : State} (h : Still b s) (i : Nat) (f : Imprint → Imprint)
    (hf : ∀ m, (f m).cfg = m.cfg ∧ (f m).go = m.go ∧ (f m).run.impression = m.run.impression ∧ (f m).serve.removed = m.serve.removed) :
    Still b (s.modImp i f) := by
  refine h.step ⟨rfl, rfl, rfl⟩ rfl rfl fun k => ?_
  rw [State.imp_modImp]
  split
  · next hk => rw [hk]; exact hf _
  · exact ⟨rfl, rfl, rfl, rfl⟩

theorem stillSteady (b : State) : Steady (Still b) where
  modCore := fun h _ _ => h.step ⟨rfl, rfl, rfl⟩ rfl rfl fun _ => ⟨rfl, rfl, rfl, rfl⟩
  modImp := fun h i f hf => h.modImp i f fun m => ⟨(hf m).cfg, (hf m).go, (hf m).impression, (hf m).removed⟩
  modFn := fun h _ _ => h.step ⟨rfl, rfl, rfl⟩ rfl rfl fun _ => ⟨rfl, rfl, rfl, rfl⟩
  modPort := fun h _ _ => h.step ⟨rfl, rfl, rfl⟩ rfl rfl fun _ => ⟨rfl, rfl, rfl, rfl⟩
  modCh := fun h _ _ _ => h.step ⟨rfl, rfl, rfl⟩ rfl rfl fun _ => ⟨rfl, rfl, rfl, rfl⟩
  setOut := fun h _ => h.step ⟨rfl, rfl, rfl⟩ rfl rfl fun _ => ⟨rfl, rfl, rfl, rfl⟩
  pulse := fun h n => h.of_onlyIcu (OnlyIcu.pulse _ n)
  onlyT0 := fun h ho _ => by
    rw [ho]
    exact h.step ⟨rfl, rfl, rfl⟩ rfl rfl fun _ => ⟨rfl, rfl, rfl, rfl⟩
  setFab := fun h _ _ he hl => h.step ⟨rfl, hl, he⟩ rfl rfl fun _ => ⟨rfl, rfl, rfl, rfl⟩
  setEvents := fun h _ => h.step ⟨rfl, rfl, rfl⟩ rfl rfl fun _ => ⟨rfl, rfl, rfl, rfl⟩
  setFences := fun h _ => h.step ⟨rfl, rfl, rfl⟩ rfl rfl fun _ => ⟨rfl, rfl, rfl, rfl⟩

/-! Rosters to other members meet no cause and come back to nobody here (R343, log 34). -/

section
variable {P : State → Prop} (K : Steady P)
include K

theorem Steady.loseRoster {s : State} (h : P s) (i target : Nat) {o : Outst} (hr : o.roster = true) (hm : o.morgue = none) :
    P (s.loseOp i target o) := by
  unfold State.loseOp
  simp only [hm, hr, if_true]
  exact K.count h _ _ _

theorem Steady.transmitAway {s : State} (h : P s) (i : Nat) {target : Nat} (o : Outst) (ht : target ≠ s.fab.endpoint) :
    P (s.transmit i target o).1 := by
  unfold State.transmit
  rw [if_neg ht]
  split
  · exact h
  · exact K.enqueue h _ _ _

variable {e : Nat} (he : ∀ s, P s → s.fab.endpoint = e)
include he

theorem Steady.sendRosterOp {s : State} (h : P s) (i : Nat) {target : Nat} (ht : target ≠ e) {o : Outst} (hr : o.roster = true)
    (hm : o.morgue = none) : P (s.sendOn i target o) := by
  unfold State.sendOn
  extract_lets x q o' s' r
  have h' : P s' := K.count h _ _ _
  have hsent : P r.1 := K.transmitAway h' i o' (by rw [he _ h']; exact ht)
  split
  · exact K.loseRoster h i target hr hm
  split
  · exact K.setStream h _
  split
  · exact K.setStream hsent _
  · exact K.loseRoster h' i target hr hm

theorem Steady.sendRoster {s : State} (h : P s) (i : Nat) {target : Nat} (ht : target ≠ e) (bytes : List Byte) :
    P (s.sendRoster i target bytes) := by
  unfold State.sendRoster
  exact K.sendRosterOp he (K.foldl (fun _ _ h => K.sendRosterOp he h i ht rfl rfl) h _) i ht rfl rfl

theorem Steady.sendRosters {s : State} (h : P s) (i type routed : Nat) (es : List RosterEntry) : P (s.sendRosters i type routed es) := by
  have key : ∀ (ts : List Nat) (f : State → Nat → List Byte) (s : State), P s → (∀ t ∈ ts, t ≠ e) →
      P (ts.foldl (fun s t => s.sendRoster i t (f s t)) s) := by
    intro ts f
    induction ts with
    | nil => exact fun _ h _ => h
    | cons t ts ih => exact fun s h ht => ih _ (K.sendRoster he h i (ht t (by simp)) _) fun x hx => ht x (by simp [hx])
  refine key _ _ s h fun t ht => ?_
  simpa [he s h] using (List.mem_filter.1 ht).2

end

theorem quietTurn (b : State) : Turn (Quiet b) where
  toSteady := quietSteady b
  setPhase := fun h _ _ _ => ⟨h.causes, h.loop, h.endpoint⟩
  setEd := fun h f _ => h.setEd f
  putEd := fun h _ _ => ⟨h.causes, h.loop, h.endpoint⟩
  setBoot := fun h _ => ⟨h.causes, h.loop, h.endpoint⟩
  sample := fun h => h.of_onlyIcu (OnlyIcu.sample _)
  sendRosters := fun h => (quietSteady b).sendRosters (fun _ h => h.endpoint) h

theorem Still.setEd {b s : State} (h : Still b s) (f : Editions → Editions) (hf : ∀ d, (f d).inForce = d.inForce) : Still b (s.setEd f) := by
  have h1 : Still b { s with ed := f s.ed } := h.step ⟨rfl, rfl, rfl⟩ rfl (hf s.ed) fun _ => ⟨rfl, rfl, rfl, rfl⟩
  unfold State.setEd
  extract_lets t
  split
  · exact h1
  · exact h1.of_onlyIcu (OnlyIcu.pulse t 72)

theorem stillTurn (b : State) : Turn (Still b) where
  toSteady := stillSteady b
  setPhase := fun h i _ hf => h.modImp i _ fun m => ⟨rfl, rfl, rfl, hf m.serve⟩
  setEd := Still.setEd
  putEd := fun h _ hd => h.step ⟨rfl, rfl, rfl⟩ rfl hd fun _ => ⟨rfl, rfl, rfl, rfl⟩
  setBoot := fun h _ => h.step ⟨rfl, rfl, rfl⟩ rfl rfl fun _ => ⟨rfl, rfl, rfl, rfl⟩
  sample := fun h => h.of_onlyIcu (OnlyIcu.sample _)
  sendRosters := fun h => (stillSteady b).sendRosters (fun _ h => h.endpoint) h

/-! The phase. -/

/-- An imprint stands in a phase. -/
def InPhase (i : Nat) (p : Phase) (s : State) : Prop := (s.imp i).serve.phase = p

theorem inPhaseSteady (i : Nat) (p : Phase) : Steady (InPhase i p) where
  modCore := fun h _ _ => h
  modImp := fun {s} h k f hf => by
    unfold InPhase
    rw [State.imp_modImp]
    split
    · next hk => exact (hf _).phase.trans (hk ▸ h)
    · exact h
  modFn := fun h _ _ => h
  modPort := fun h _ _ => h
  modCh := fun h _ _ _ => h
  setOut := fun h _ => h
  pulse := fun h n => by
    unfold InPhase
    rw [(OnlyIcu.pulse _ n).imp]
    exact h
  onlyT0 := fun h ho _ => by
    unfold InPhase
    rw [ho.imp]
    exact h
  setFab := fun h _ _ _ _ => h
  setEvents := fun h _ => h
  setFences := fun h _ => h

end Sys2Proof.Machine
end


section
/-!
The OPEN quoin's work (O38; R315, R325 to R348).
-/
namespace Sys2Proof.Machine

open Sys2Proof

/-! The work begins (R361, R379, R446). -/

theorem askDoorbells_imp (s : State) (f : Nat) (ks : List Nat) (k : Nat) : (s.askDoorbells f ks).imp k = s.imp k := rfl

/-- What stands as the work begins. -/
theorem beginOpening_stands (s : State) (i : Nat) (r : Bool) : (s.beginOpening i r).causes = s.causes ∧ (s.beginOpening i r).fab = s.fab
    ∧ (s.beginOpening i r).ed = s.ed := by
  unfold State.beginOpening
  extract_lets m stepped s1 s2
  split
  · exact ⟨rfl, rfl, rfl⟩
  · split <;> exact ⟨rfl, rfl, rfl⟩

/-- What stands of the imprint as the work begins. -/
theorem beginOpening_imp (s : State) (i : Nat) (r : Bool) : ((s.beginOpening i r).imp i).cfg = (s.imp i).cfg
    ∧ ((s.beginOpening i r).imp i).run = (s.imp i).run ∧ ((s.beginOpening i r).imp i).serve.removed = (s.imp i).serve.removed := by
  unfold State.beginOpening
  extract_lets m stepped s1 s2
  split
  · exact ⟨rfl, rfl, rfl⟩
  · have hi : s2.imp i = s1.imp i := rfl
    have h1 : s1.imp i = _ := State.imp_modImp_same s i _
    split
    · rw [askDoorbells_imp, hi, h1]
      exact ⟨rfl, rfl, rfl⟩
    · rw [hi, h1]
      exact ⟨rfl, rfl, rfl⟩

theorem beginOpening_liveMembers (s : State) (i : Nat) (r : Bool) : (s.beginOpening i r).liveMembers i = s.liveMembers i := by
  obtain ⟨-, hf, he⟩ := beginOpening_stands s i r
  obtain ⟨hc, -, hr⟩ := beginOpening_imp s i r
  unfold State.liveMembers State.lockSet State.topology
  rw [hf, he, hc, hr]

/-! The phase that the work leaves. -/

theorem finishOpening_phase (s : State) (i : Nat) : ((s.finishOpening i).imp i).serve.phase = .running := by
  unfold State.finishOpening
  refine (inPhaseSteady i .running).spillMarks ?_ i
  unfold InPhase
  rw [State.imp_modServe_same]

theorem afterRosters_phase (s : State) (i : Nat) : ((s.afterRosters i).imp i).serve.phase ≠ .closed
    ∧ ((s.liveMembers i).length ≤ 1 → ((s.afterRosters i).imp i).serve.phase = .running) := by
  unfold State.afterRosters
  extract_lets t
  have K := stillTurn s
  have ht : Still s t := K.bindManifest (K.copyPrefixes (K.applyMinor (K.clearNew (Still.refl s) _) _) _) _
  split
  · next hg =>
    refine ⟨by rw [State.imp_modServe_same]; simp, fun hl => ?_⟩
    rw [ht.liveMembers, decide_eq_false (Nat.not_lt.2 hl), Bool.and_false] at hg
    cases hg
  · rw [finishOpening_phase]
    exact ⟨by simp, fun _ => rfl⟩

theorem planOpening_phase {s : State} {i : Nat} (hc : (s.cfg i).isSome = true) : ((s.planOpening i).imp i).serve.phase ≠ .closed
    ∧ ((s.liveMembers i).length ≤ 1 → ((s.planOpening i).imp i).serve.phase = .running) := by
  unfold State.planOpening
  split
  · next hn =>
    rw [hn] at hc
    cases hc
  · next g _ =>
    extract_lets s1 s2 v s3 keys s4
    have K := stillTurn s
    have h4 : Still s s4 := K.reserveCancels (K.warmAdapters (K.offerAll (K.wake (K.modServe (K.admitRounds (K.clearRun
      (K.fixPorts (Still.refl s) _) _) _ _) _ _) _ _) _ _) _ _) _
    split
    · next hg =>
      refine ⟨by rw [State.imp_modServe_same]; simp, fun hl => ?_⟩
      rw [h4.liveMembers, decide_eq_false (Nat.not_lt.2 hl), Bool.false_and] at hg
      cases hg
    · rw [← h4.liveMembers i]
      exact afterRosters_phase s4 i

theorem continueOpening_running {s : State} {i : Nat} (h : (s.imp i).serve.phase = .running) : s.continueOpening i = s := by
  unfold State.continueOpening
  simp [h]

theorem continueOpening_open {s : State} {i : Nat} (h : (s.imp i).serve.phase ≠ .closed) :
    ((s.continueOpening i).imp i).serve.phase ≠ .closed := by
  unfold State.continueOpening
  extract_lets t
  have ht : (t.imp i).serve.phase ≠ .closed := by
    unfold t
    split
    · exact (afterRosters_phase _ i).1
    · exact h
  split
  · rw [finishOpening_phase]
    simp
  · exact ht

/-- An opening with nothing waiting to be settled, once its work has begun. -/
theorem opening_moves {s : State} {i : Nat} (hc : s.causes = []) (hl : s.fab.loop = []) (hg : (s.cfg i).isSome = true) :
    ∃ t, ((s.planOpening i).settle.continueOpening i).settle = t ∧ Still s t ∧ (t.imp i).serve.phase ≠ .closed
      ∧ ((s.liveMembers i).length ≤ 1 → (t.imp i).serve.phase = .running) := by
  have K := stillTurn s
  have hp : Still s (s.planOpening i) := K.planOpening (Still.refl s) i
  have ht : Still s ((s.planOpening i).continueOpening i) := K.continueOpening hp i
  obtain ⟨hopen, hrun⟩ := planOpening_phase hg
  refine ⟨_, by rw [hp.settle hc hl, ht.settle hc hl], ht, continueOpening_open hopen, fun h1 => ?_⟩
  rw [continueOpening_running (hrun h1)]
  exact hrun h1

theorem execImpressionOpening_moves {i : Fin 16} {s : State} (hc : s.causes = []) (hl : s.fab.loop = []) (hm : s.mayOpen i.val = true)
    (hw : (s.beginOpening i.val false).stepWaits i.val = false) :
    ∃ t, exec (.impressionOpening i []) s = .next t ∧ (t.imp i.val).serve.phase ≠ .closed
      ∧ ((s.imp i.val).serve.begun = false → (t.imp i.val).go = false)
      ∧ (t.imp i.val).run.impression = (s.imp i.val).run.impression
      ∧ ((s.liveMembers i.val).length ≤ 1 → (t.imp i.val).serve.phase = .running) := by
  obtain ⟨hcauses, hfab, -⟩ := beginOpening_stands s i.val false
  obtain ⟨hcfg, hrun, -⟩ := beginOpening_imp s i.val false
  obtain ⟨-, -, -, -, hgo⟩ := beginOpening_frame s i.val false
  have hm' := hm
  simp only [State.mayOpen, State.opensHere, State.heldOrNone, Bool.and_eq_true, beq_iff_eq, Bool.not_eq_true', Bool.or_eq_false_iff,
    Option.isNone_eq_false_iff] at hm'
  obtain ⟨⟨⟨⟨⟨⟨-, hsome, -⟩, hclosed⟩, -⟩, -⟩, -⟩, -⟩ := hm'
  obtain ⟨t, ht, hstill, hopen, hone⟩ := opening_moves (hcauses.trans hc) (by rw [hfab]; exact hl)
    (show ((s.beginOpening i.val false).cfg i.val).isSome = true by unfold State.cfg; rw [hcfg]; exact hsome)
  refine ⟨t, ?_, hopen, fun hb => (hstill.go i.val).trans (hgo hb), by rw [hstill.impression, hrun], fun h1 => hone ?_⟩
  · change execImpressionOpening i [] s = _
    unfold execImpressionOpening
    simp [hclosed, hm, hw, ht]
  · rw [beginOpening_liveMembers]
    exact h1

end Sys2Proof.Machine
end


section
/-!
The CLOSE quoin's work (O38; R315, R356, R357): the commit step moves bytes of T0 alone and meets no damage in a reserve part that holds
none, and what it meets is resolved before the impression is counted as committed.
-/
namespace Sys2Proof.Machine

open Sys2Proof

/-! The commit step and the reserve parts (R208, R224, R515). -/

/-- No line of the reserve parts is uncorrectable, and no report waiting names one. -/
structure Spared (s : State) : Prop where
  lines : ∀ l, isReserve (256 * l) = true → s.lineBad l = false
  reports : ∀ r ∈ s.reports, ∀ a, r.place = .t0 a → isReserve a = false

theorem report_mem_cases {s : State} {r x : Report} (h : x ∈ (s.report r).reports) : x ∈ s.reports ∨ x = r := by
  unfold State.report at h
  split at h
  · exact .inl h
  · exact (List.mem_append.1 h).imp_right List.mem_singleton.1

namespace Spared

theorem mend {s t : State} (h : Spared s) (hl : ∀ l, s.lineBad l = false → t.lineBad l = false) (hr : t.reports = s.reports) : Spared t :=
  ⟨fun l hl' => hl l (h.lines l hl'), by rw [hr]; exact h.reports⟩

theorem badLine {s : State} (h : Spared s) {l : Nat} (hb : s.lineBad l = true) : Spared (s.badLine l) where
  lines := fun m hm => (lineBad_congr _ _ m (badLine_flips s l)).trans (h.lines m hm)
  reports := by
    have hl : isReserve (256 * l) = false := by
      cases hr : isReserve (256 * l) with
      | false => rfl
      | true => rw [h.lines l hr] at hb; cases hb
    intro r hr a ha
    rcases report_mem_cases hr with hr | rfl
    · exact h.reports r hr a ha
    · cases ha
      exact hl

theorem fixCount {s : State} (h : Spared s) (l : Nat) : Spared (s.fixCount l) := by
  unfold State.fixCount
  split
  · exact h
  · exact h.mend (fun m hm => (lineBad_congr _ _ m rfl).trans hm) rfl

theorem freshLine {s : State} (h : Spared s) (l : Nat) : Spared (s.freshLine l) := h.mend (fun m => freshLine_flips_le s l m) rfl

theorem setBytes {s : State} (h : Spared s) (x : Sp Byte) : Spared { s with t0 := { s.t0 with bytes := x } } :=
  h.mend (fun m hm => (lineBad_congr _ _ m rfl).trans hm) rfl

theorem touchLine {s : State} (h : Spared s) (l : Nat) : Spared (s.touchLine l) := by
  unfold State.touchLine
  split
  · next hb => exact h.badLine hb
  · exact h.fixCount l

theorem prepLine {s : State} (h : Spared s) (a n l : Nat) : Spared (s.prepLine a n l) := by
  unfold State.prepLine
  extract_lets whole
  split
  · exact h.freshLine l
  · split
    · next hb => exact ((h.badLine hb).setBytes _).freshLine l
    · exact (h.fixCount l).freshLine l

theorem foldl {α : Type} {f : State → α → State} (hf : ∀ s x, Spared s → Spared (f s x)) {s : State} (h : Spared s) (xs : List α) :
    Spared (xs.foldl f s) := by
  induction xs generalizing s with
  | nil => exact h
  | cons x xs ih => exact ih (hf s x h)

theorem t0Read {s : State} (h : Spared s) (a n : Nat) : Spared (s.t0Read a n).2 := foldl (fun _ l h => h.touchLine l) h _

theorem t0Write {s : State} (h : Spared s) (a : Nat) (bs : List Byte) : Spared (s.t0Write a bs) :=
  (foldl (fun _ l h => h.prepLine a bs.length l) h _).setBytes _

end Spared

/-- A change of T0 and of the reports that leaves the reserve parts spared. -/
structure Sparing (s t : State) : Prop where
  only : OnlyT0 s t
  spared : Spared s → Spared t

namespace Sparing

theorem refl (s : State) : Sparing s s := ⟨OnlyT0.refl s, id⟩

theorem trans {s t u : State} (h : Sparing s t) (g : Sparing t u) : Sparing s u := ⟨h.only.trans g.only, fun hs => g.spared (h.spared hs)⟩

theorem foldl {α : Type} {f : State → α → State} (hf : ∀ s x, Sparing s (f s x)) (xs : List α) (s : State) : Sparing s (xs.foldl f s) := by
  induction xs generalizing s with
  | nil => exact refl s
  | cons x xs ih => exact (hf s x).trans (ih (f s x))

theorem move (s : State) (a n b : Nat) : Sparing s ((s.t0Read a n).2.t0Write b (s.t0Read a n).1) :=
  ⟨(t0Read_only s a n).trans (t0Write_only _ b _), fun h => (h.t0Read a n).t0Write b _⟩

theorem keepEntry (s : State) (i core : Nat) (b : AttendBody) (l : LayerCfg) (handle e pos : Nat) :
    Sparing s (s.keepEntry i core b l handle e pos) := by
  unfold State.keepEntry
  split
  · exact refl s
  · extract_lets rb src dst
    split
    · exact refl s
    · exact foldl (fun s (x : Nat × Nat) => move s x.1 rb x.2) _ s

theorem keepSlot (s : State) (i n : Nat) (t : Slot) : Sparing s (s.keepSlot i n t) := by
  unfold State.keepSlot
  refine foldl (fun s x => ?_) _ s
  split
  · exact refl s
  · exact foldl (fun s k => keepEntry s i _ _ _ _ _ _) _ s

theorem commitStep (s : State) (i : Nat) : Sparing s (s.commitStep i) := by
  unfold State.commitStep
  refine foldl (fun s x => ?_) _ s
  split
  · exact refl s
  · exact keepSlot s i _ _

end Sparing

/-! Resolving what the commit step met (R255, R516). -/

theorem sharedDamage_ne_nil (v : Serve) : v.sharedDamage ≠ [] ↔ ∃ d ∈ v.damage, ∃ t, d.owner = .shared t := by
  unfold Serve.sharedDamage
  rw [ne_eq, List.filterMap_eq_nil_iff]
  push Not
  refine exists_congr fun d => and_congr_right fun _ => ?_
  cases d.owner <;> simp

/-- A damage list keeps the owners it names. -/
theorem joinDamage_owner {ds : List Damage} {e : Damage} (d : Damage) (h : e ∈ ds) : ∃ e' ∈ joinDamage ds d, e'.owner = e.owner := by
  unfold joinDamage
  extract_lets same
  split
  · exact ⟨_, List.mem_map_of_mem h, by split <;> rfl⟩
  · exact ⟨e, List.mem_append_left _ h, rfl⟩

/-- What resolving a report beyond the reserve parts changes: the controller's inputs, an imprint's run record but for the impression's
number, and damage lists. -/
theorem resolve_keeps {P : State → Prop} (hp : ∀ s t, OnlyIcu s t → P s → P t)
    (hr : ∀ s i f, (∀ r : Run, (f r).impression = r.impression) → P s → P (s.modRun i f)) (hd : ∀ s i d, P s → P (s.addDamage i d))
    {s : State} (h : P s) {r : Report} (hs : ∀ a, r.place = .t0 a → isReserve a = false) : P ((s.alarm r).resolve r) := by
  have ha : P (s.alarm r) := hp _ _ (OnlyIcu.alarm s r) h
  generalize s.alarm r = u at ha
  have hadd : ∀ (os : List Owner) (u : State), P u → P (os.foldl (fun s o => s.addDamage r.imprint ⟨o, r.status, r.place, r.affected⟩) u) := by
    intro os
    induction os with
    | nil => exact fun _ h => h
    | cons o os ih => exact fun u h => ih _ (hd u _ _ h)
  unfold State.resolve
  extract_lets inReserve os
  have hin : inReserve = false := by
    unfold inReserve
    split
    · next a ha => exact hs a ha
    · rfl
  rw [hin, if_neg (by simp)]
  split
  · exact ha
  split
  · split
    · exact ha
    · unfold State.count
      split
      · exact hr _ _ _ (fun _ => rfl) ha
      · exact hr _ _ _ (fun _ => rfl) (hr _ _ _ (fun _ => rfl) ha)
  · exact hadd os u ha

/-- What stands while damage is resolved: what stands at an opening, and shared damage that an imprint's list names. -/
structure Resolving (i : Nat) (b s : State) : Prop where
  still : Still b s
  hurt : (b.imp i).serve.sharedDamage ≠ [] → (s.imp i).serve.sharedDamage ≠ []

theorem Resolving.resolve {i : Nat} {b s : State} (h : Resolving i b s) {r : Report} (hs : ∀ a, r.place = .t0 a → isReserve a = false) :
    Resolving i b ((s.alarm r).resolve r) := by
  refine resolve_keeps (P := Resolving i b) (fun s t g h => ?_) (fun s k f hf h => ?_) (fun s k d h => ?_) h hs
  · exact ⟨h.still.of_onlyIcu g, by rw [g.imp]; exact h.hurt⟩
  · refine ⟨(stillSteady b).modRun h.still k f hf, fun hb => ?_⟩
    rw [State.imp_modRun]
    split
    · next hk => exact hk ▸ h.hurt hb
    · exact h.hurt hb
  · refine ⟨(stillSteady b).modServe h.still k _, fun hb => ?_⟩
    have hb := h.hurt hb
    rw [State.addDamage, State.imp_modServe]
    split
    · next hk =>
      subst hk
      rw [sharedDamage_ne_nil] at hb ⊢
      obtain ⟨e, he, t, ht⟩ := hb
      obtain ⟨e', he', ho⟩ := joinDamage_owner d he
      exact ⟨e', he', t, ho.trans ht⟩
    · exact hb

theorem Resolving.resolveAll {i : Nat} {s : State} (h : Spared s) : Resolving i s (s.resolveAll i) := by
  have key : ∀ (rs : List Report) (t : State), Resolving i s t → (∀ r ∈ rs, ∀ a, r.place = .t0 a → isReserve a = false) →
      Resolving i s (rs.foldl (fun s r => (s.alarm r).resolve r) t) := by
    intro rs
    induction rs with
    | nil => exact fun _ h _ => h
    | cons r rs ih => exact fun t h hr => ih _ (h.resolve (hr r (by simp))) fun x hx => hr x (by simp [hx])
  unfold State.resolveAll
  refine key _ _ ⟨(Still.refl s).step ⟨rfl, rfl, rfl⟩ rfl rfl fun _ => ⟨rfl, rfl, rfl, rfl⟩, id⟩ fun r hr => ?_
  exact h.reports r (List.mem_filter.1 hr).1

/-- With no report waiting there is nothing to resolve. -/
theorem resolveAll_nil {s : State} (h : s.reports = []) (i : Nat) : s.resolveAll i = s := by
  unfold State.resolveAll
  cases s
  simp_all

end Sys2Proof.Machine
end


section
/-!
The commit counts the impression (O38; R356, R357), and O38 itself.
-/
namespace Sys2Proof.Machine

open Sys2Proof

/-- An imprint has committed impression `n`: the next is numbered one higher, and nothing of `n` waits. -/
structure Committed (i n : Nat) (s : State) : Prop where
  next : (s.imp i).run.impression = n + 1
  committed : (s.imp i).serve.committed = n
  phase : (s.imp i).serve.phase = .closed
  done : (s.imp i).serve.done = []
  damage : (s.imp i).serve.damage = []

namespace Committed

/-- What of the imprint's record a change must leave for the commit to stand. -/
theorem of_imp {i n : Nat} {s t : State} (h : Committed i n s) (hr : (t.imp i).run.impression = (s.imp i).run.impression)
    (hc : (t.imp i).serve.committed = (s.imp i).serve.committed) (hp : (t.imp i).serve.phase = (s.imp i).serve.phase)
    (hd : (t.imp i).serve.done = (s.imp i).serve.done) (hg : (t.imp i).serve.damage = (s.imp i).serve.damage) : Committed i n t :=
  ⟨hr.trans h.next, hc.trans h.committed, hp.trans h.phase, hd.trans h.done, hg.trans h.damage⟩

theorem modImp {i n : Nat} {s : State} (h : Committed i n s) (f : Imprint → Imprint)
    (hf : (f (s.imp i)).run = (s.imp i).run ∧ (f (s.imp i)).serve.committed = (s.imp i).serve.committed
      ∧ (f (s.imp i)).serve.phase = (s.imp i).serve.phase ∧ (f (s.imp i)).serve.done = (s.imp i).serve.done
      ∧ (f (s.imp i)).serve.damage = (s.imp i).serve.damage) : Committed i n (s.modImp i f) := by
  obtain ⟨hr, hc, hp, hd, hg⟩ := hf
  refine h.of_imp ?_ ?_ ?_ ?_ ?_ <;> rw [State.imp_modImp_same]
  exacts [by rw [hr], hc, hp, hd, hg]

theorem of_onlyT0 {i n : Nat} {s t : State} (h : Committed i n s) (g : OnlyT0 s t) : Committed i n t := by
  refine h.of_imp ?_ ?_ ?_ ?_ ?_ <;> rw [g.imp]

theorem syncPages {i n : Nat} {s : State} (h : Committed i n s) : Committed i n (s.syncPages i) := by
  unfold State.syncPages
  extract_lets d t
  have ht : Committed i n t := h.modImp _ ⟨rfl, rfl, rfl, rfl, rfl⟩
  refine ht.of_onlyT0 (OnlyT0.foldl (fun s p => ?_) d t)
  unfold State.putPage
  split
  · exact OnlyT0.refl s
  · exact t0Write_only s _ _

theorem keepCounts {i n : Nat} {s : State} (h : Committed i n s) : Committed i n (s.keepCounts i) := h.modImp _ ⟨rfl, rfl, rfl, rfl, rfl⟩

theorem enterHeld {i n : Nat} {s : State} (h : Committed i n s) (code : Nat) : Committed i n (s.enterHeld i code) := by
  have hu : Committed i n (s.modServe i fun v => v.enterHeld code) := h.modImp _ ⟨rfl, rfl, h.phase.symm, rfl, rfl⟩
  obtain ⟨es, he⟩ := (told_enterHeld s i code).imp i
  refine hu.of_imp ?_ ?_ ?_ ?_ ?_ <;> rw [he]

end Committed

/-- Steps 1 to 6 of R357 commit the impression, and shared damage puts the imprint into Held. -/
theorem commitNow_commits (s : State) (i : Nat) (ts : List ImpTiming) : Committed i (s.imp i).run.impression (s.commitNow i ts)
    ∧ ((s.imp i).serve.sharedDamage ≠ [] → ((s.commitNow i ts).imp i).serve.held = some 2) := by
  unfold State.commitNow
  extract_lets v sent imp fixed bits void drains ends xs c1 less c2 s1 s2 s3 s4 s5 s6 s7 mi s8 news links lost held events s9 s10 s11 s12
    s13 s14 s15 prev s16 s17 s18
  clear_value s15
  have h17 : Committed i imp s17 := by
    constructor <;> simp only [s17, s16, State.imp_modRun_same, State.imp_modServe_same]
  clear_value s17
  have h18 : Committed i imp s18 :=
    ((h17.syncPages.modImp _ ⟨rfl, rfl, rfl, rfl, rfl⟩).keepCounts).of_imp rfl rfl rfl rfl rfl
  split
  · exact ⟨h18.enterHeld 2, fun _ => enterHeld_held s18 i 2⟩
  · next hn => exact ⟨h18, fun hd => absurd (by simp [v, hd]) hn⟩

/-- A commit from a state at whose CLOSE quoin nothing waits to be settled. -/
theorem commit_moves {i : Nat} {b s : State} (h : Resolving i b s) (hc : b.causes = []) (hl : b.fab.loop = []) (ts : List ImpTiming) :
    ∃ t, (s.commitNow i ts).settle = t ∧ Committed i (b.imp i).run.impression t
      ∧ ((b.imp i).serve.sharedDamage ≠ [] → (t.imp i).serve.held = some 2) := by
  have hq : Quiet b (s.commitNow i ts) := (quietTurn b).commitNow (fun h _ _ => ⟨h.causes, h.loop, h.endpoint⟩) h.still.toQuiet i ts
  obtain ⟨hcommit, hheld⟩ := commitNow_commits s i ts
  rw [h.still.impression] at hcommit
  exact ⟨_, hq.settle hc hl, hcommit, fun hd => hheld (h.hurt hd)⟩

section
variable {i : Fin 16} {s : State} (hc : s.causes = []) (hl : s.fab.loop = []) (ts : List ImpTiming)
include hc hl

/-- The CLOSE quoin's work of a package alone in its lock-step set (R315). -/
theorem execImpressionCommit_alone {q : QuoinEntry} (hs : s.stopped = false) (hh : s.heldOrNone i.val = false) (hr : s.reports = [])
    (hspare : ∀ l, isReserve (256 * l) = true → s.lineBad l = false) (hp : (s.imp i.val).serve.phase = .running)
    (hq : s.jobQuoin i.val 0 = some q) (hk : q.kind = .closing) (ha : s.arrived i.val 0 q = true) (hre : s.repliesIn i.val 0 = true)
    (ht : s.t2Settled i.val = true) (hm : (s.liveMembers i.val).length ≤ 1) :
    ∃ t, exec (.impressionCommit i ts) s = .next t ∧ Committed i.val (s.imp i.val).run.impression t
      ∧ ((s.imp i.val).serve.sharedDamage ≠ [] → (t.imp i.val).serve.held = some 2) := by
  have hstep := Sparing.commitStep s i.val
  have h1 : Still s (s.commitStep i.val) := (stillSteady s).commitStep (Still.refl s) i.val
  have h2 := Resolving.resolveAll (i := i.val) (hstep.spared ⟨hspare, fun r h => by rw [hr] at h; cases h⟩)
  have h3 : Resolving i.val s ((s.commitStep i.val).resolveAll i.val) :=
    ⟨h1.step h2.still.toQuiet h2.still.stopped h2.still.inForce fun k =>
      ⟨h2.still.cfg k, h2.still.go k, h2.still.impression k, h2.still.removed k⟩, fun hd => h2.hurt (by rw [hstep.only.imp]; exact hd)⟩
  obtain ⟨t, htt, hcommit, hheld⟩ := commit_moves h3 hc hl ts
  refine ⟨t, ?_, hcommit, hheld⟩
  change execImpressionCommit i ts s = _
  unfold execImpressionCommit
  have hone : ¬ 1 < (((s.commitStep i.val).resolveAll i.val).liveMembers i.val).length := by
    rw [h3.still.liveMembers]
    omega
  simp [hs, hh, hp, hq, hk, ha, hre, ht, h3.still.stopped, hone, htt]

/-- The CLOSE quoin's work goes on once every member's CLOSE roster has come (R346). -/
theorem execImpressionCommit_rosters (hs : s.stopped = false) (hh : s.heldOrNone i.val = false) (hr : s.reports = [])
    (hp : (s.imp i.val).serve.phase = .closeRosters) (hin : s.rostersIn i.val 0x22 = true) :
    ∃ t, exec (.impressionCommit i ts) s = .next t ∧ Committed i.val (s.imp i.val).run.impression t
      ∧ ((s.imp i.val).serve.sharedDamage ≠ [] → (t.imp i.val).serve.held = some 2) := by
  obtain ⟨t, htt, hcommit, hheld⟩ := commit_moves (i := i.val) ⟨Still.refl s, id⟩ hc hl ts
  refine ⟨t, ?_, hcommit, hheld⟩
  change execImpressionCommit i ts s = _
  unfold execImpressionCommit
  simp [hs, hh, hp, resolveAll_nil hr, State.continueCommit, hin, htt]

end

/-- Settles O38: an opening or a commit changes what `Still` speaks of nowhere but in its own few writes, and nothing then waits to be
settled. -/
theorem openingAndCommitMoveTheImpression : Obligations.OpeningAndCommitMoveTheImpression := by
  unfold Obligations.OpeningAndCommitMoveTheImpression
  intro i s hc hl
  refine ⟨execImpressionOpening_moves hc hl, fun q ts hs hh hr hspare h => ?_⟩
  obtain ⟨t, ht, hcommit, hheld⟩ : ∃ t, exec (.impressionCommit i ts) s = .next t ∧ Committed i.val (s.imp i.val).run.impression t
      ∧ ((s.imp i.val).serve.sharedDamage ≠ [] → (t.imp i.val).serve.held = some 2) := by
    rcases h with ⟨hp, hq, hk, ha, hre, ht2, hm⟩ | ⟨hp, hin⟩
    · exact execImpressionCommit_alone hc hl ts hs hh hr hspare hp hq hk ha hre ht2 hm
    · exact execImpressionCommit_rosters hc hl ts hs hh hr hp hin
  exact ⟨t, ht, hcommit.next, hcommit.committed, hcommit.phase, hcommit.done, hcommit.damage, hheld⟩

end Sys2Proof.Machine
end
